-- ==== Sys2Proof/Word.lean ====
section
/-! DEFINITION. The words the manual counts in: bytes and little words (R7), and the two's-complement reading of a word. -/

namespace Sys2Proof

/-- An 8-bit byte. -/
abbrev Byte := BitVec 8
/-- A 16-bit word. -/
abbrev W16 := BitVec 16
/-- A 32-bit word, the width of a control-space register (R14). -/
abbrev W32 := BitVec 32
/-- A 64-bit word, the width of WALL and of the paired registers (R15, R325). -/
abbrev W64 := BitVec 64
/-- A logical tile number, 0 to 31 (R3). -/
abbrev Tile := BitVec 5
/-- A yarn-link port number (R339). -/
abbrev Port := BitVec 2

end Sys2Proof
end

