-- ==== Sys2Proof/Syntax.lean ====
section
/-! DEFINITION. The commands of the block: one constructor per row of spec/opcode_table.json, with what the outside world
presents (a transaction, an edge, a sample) or the accepted packet it runs. The table gives no row any bits. -/

namespace Sys2Proof

/-- The three channels that carry command packets (R397): the xSPI host port, the management port, the service receptacle. -/
inductive Chan where
  | host | mgmt | usb
deriving DecidableEq, Repr

/-- An accepted packet, named by its channel and its tag (R53, R397). -/
structure Ref where
  chan : Chan
  tag  : W16
deriving DecidableEq, Repr

/-- The read classes of the ECC decoders (R419, R449). `tight` exists for flash only. -/
inductive EccClass where
  | clean | corrected | tight | uncorrectable
deriving DecidableEq, Repr

/-- What a start-up finds outside the model: copies of the OTP row, firmware slots, DRAM training, pattern tests, flash (R515, R516). -/
structure BootEnv where
  /-- Each OTP copy decodes (R435). -/
  otp0 : Bool := true
  otp1 : Bool := true
  /-- The two decoded copies agree (R435). -/
  otpSame : Bool := true
  /-- Slot A and slot B verify and are not below the OTP security version (R516). -/
  slotA : Bool := true
  slotB : Bool := true
  /-- The configuration flash is readable (R516 code 6). -/
  cfgOk : Bool := true
  /-- Channel and step of a third failed training attempt (R458). -/
  trainFail : Option (BitVec 5 × BitVec 8) := none
  /-- The stored training results passed step 6 of R457. -/
  reuseOk : Bool := true
  /-- A tile that fails the pattern test (R515 step 7). -/
  tileFail : Option Tile := none
  /-- The hottest junction in °C (R476). -/
  tj : Int := 25
  /-- Interrupted programs whose page decodes with its own address (R428). -/
  pageOk : Bool := false
  /-- Firmware versions shown in DEV_FW_CP and DEV_FW_ONYX (R87). -/
  fwCp : W32 := 0
  fwOnyx : W32 := 0
  /-- Lane delays of the channels (R464), channel 0 first. -/
  lanes : List W32 := []
  /-- Duration of the start-up in µs (R526). -/
  us : W32 := 0
deriving DecidableEq, Repr

/-- The parameters a peer sends in PARAM (R342), with the lanes that trained (R341). -/
structure PeerParams where
  deviceId : BitVec 12
  pod      : BitVec 5
  manager  : Bool
  port     : Port
  mode     : BitVec 2
  buffers  : List Byte
  lastSeq  : W16
  lanes    : BitVec 4
  /-- DEV_SERIAL of the partner, for a TWIN port (R494). -/
  serial   : W64
deriving DecidableEq, Repr

/-- A pin of the Gauge: its level, and the ticks for which it has been stable (R322). -/
structure PinLevel where
  level  : Bool
  stable : Nat
deriving DecidableEq, Repr

/-- A port that may train, and whether its peer has announced other parameters since the port was held DOWN (R342). -/
structure TrainTry where
  port        : Port
  peerChanged : Bool
deriving DecidableEq, Repr

/-- A lane without bit lock, and the nanoseconds that a port still in DETECT has spent there (R341). -/
structure LaneWait where
  lane   : BitVec 2
  detect : Nat
deriving DecidableEq, Repr

/-- Nanoseconds that a training attempt spends in each of its states (R341). -/
structure TrainTimes where
  detect    : Nat
  bitLock   : Nat
  blockLock : Nat
  deskew    : Nat
  param     : Nat
deriving DecidableEq, Repr

/-- A training attempt that has passed its states: what the peer announces in PARAM, and the time in each state (R341, R342). -/
structure Trained where
  peer  : PeerParams
  times : TrainTimes
deriving DecidableEq, Repr

/-- The header fields of a job message (R344): source, job, tenant and placement epoch. -/
structure JobMsg where
  src    : BitVec 12
  job    : W32
  tenant : Byte
  epoch  : W16
deriving DecidableEq, Repr

/-- What a worker is told of a stage placed on it (R358): its layers, the digests of the skeins, its tiles. -/
structure StageInfo where
  first   : Nat
  count   : Nat
  main    : List Byte
  adapter : List Byte
  draft   : List Byte
  tiles   : W32
deriving DecidableEq, Repr

/-- Rows of a work unit for one sequence: the manager's sequence, its first position, the count, and whether they are a prefill chunk
(R349, R358). -/
structure ShadowRows where
  seq : W16
  pos : Nat
  n   : Nat
  prefill : Bool := false
  /-- They have left the step. -/
  gone : Bool := false
deriving DecidableEq, Repr

/-- What a CONTROL message carries (R349, R354, R366, R389). The manual gives no byte layout. -/
inductive Control where
  /-- A report that a port of the source changed state, with its neighbour by PARAM (R354, R366). -/
  | portReport (port : Port) (up : Bool) (neighbour : BitVec 12)
  /-- A route table from the manager: member or pod destinations with up to two candidate ports (R354). -/
  | routeTable (entries : List (Nat × List Nat))
  /-- K_job of a job sealed under K_wrap of a generation, with the counter of its seal (R389), and the stage it is for. -/
  | jobKey (tenant : Byte) (job : W32) (epoch : W16) (kgen : BitVec 2) (counter : W64) (sealed : List Byte) (stage : StageInfo)
  /-- A worker confirms a withdrawal (R364). -/
  | withdrawAck (tenant : Byte) (job : W32) (tag : W16)
  /-- The manager says where the layers of a job are from now on (R363): first layer, layer count and device of each stage, none for a
  closed job (R277, R400). A device that is named in none releases its stage. -/
  | release (tenant : Byte) (job : W32) (next : List (Nat × Nat × BitVec 12))
deriving DecidableEq, Repr

/-- A move of FX16 rows between a tile store and a spill extent in DRAM, coded by a mode (R35, R234, R236): to the tile or from it, the
mode, rows and columns, the offsets of mantissas and exponents in the store, and the arena reference of the coded tensor. -/
structure SpillSpec where
  load   : Bool
  mode   : Nat
  rows   : Nat
  cols   : Nat
  at_    : W32
  exps   : W32
  handle : W32
  off    : W32
deriving DecidableEq, Repr

/-- A descriptor list queued on a tile for a layer (R146, R160, R207): tile, store offset, vector list or pass list. -/
structure ListSpec where
  tile   : Tile
  addr   : W32
  vector : Bool
  /-- Built by the command processor: origin engine, not skein (R146). -/
  engine : Bool
  /-- The descriptors, as the command processor has instantiated them at the address; empty where they stand there already. -/
  bytes  : List Byte := []
  /-- Step row of token row 0 of each descriptor, by its index; 0 where none is given. -/
  rows   : List W16 := []
  /-- Spill extents that the tile's stream engine writes and reads before the list is queued. -/
  spills : List SpillSpec := []
deriving DecidableEq, Repr

/-- Where rows of activations stand in a tile's store, and how a message codes them (R234, R236, R349): the offsets of mantissas and row
exponents, the row stride, the number of rows and columns, and the mode. -/
structure RowBlock where
  at_    : W32
  stride : W32
  exps   : W32
  rows   : Nat
  cols   : Nat
  mode   : Nat
deriving DecidableEq, Repr

/-- Rows of activations that a message carries: where they stand, the tile, and the coded tensor. -/
structure Activation extends RowBlock where
  tile   : Tile
  coded  : List Byte
deriving DecidableEq, Repr

/-- A work unit for a stage (R209, R349): its first layer, D_step on WALL, and the rows. -/
structure WorkUnit where
  first : Nat
  dstep : Option Nat
  rows  : List ShadowRows
deriving DecidableEq, Repr

/-- What a RESULT message carries: a partial row for an ATOMIC destination, X_obs values and completion (R215, R349, R357). -/
structure ResultBody where
  /-- X_obs per site (R357). -/
  xobs : List (Nat × Int)
  /-- A partial row: home tile, destination offset in its job area, FP32 elements (R215). -/
  partialRow : Option (Tile × W32 × List W32)
  /-- Completion knot of the partial row. -/
  knot : W16
  /-- The work unit is complete. -/
  done : Bool
  /-- Sequences of the manager whose walk reached a retired page (R249). -/
  retired : List W16 := []
  /-- The rows of the stage's last layer. -/
  rows : List Activation := []
  /-- The status with which the work unit failed; 0 when it has not. -/
  status : W16 := 0
deriving DecidableEq, Repr

/-- A cache page carried by MIGRATE (R363): page-list index, KGEN and bytes. -/
structure PageCopy where
  index : Nat
  kgen  : BitVec 2
  /-- Where in the page the bytes belong. -/
  off   : Nat
  bytes : List Byte
deriving DecidableEq, Repr

/-- What a TWIN_CTRL message carries (R494, R495, R496). -/
inductive TwinCtrl where
  | pair (tenant : Byte) (job : W32) (partner : W32) (digests : List Byte) (settings : List Nat) (started : Bool)
  | admission (tenant : Byte) (job : W32) (tag : W16) (digest : List Byte)
  | cancel (tenant : Byte) (tag : W16)
deriving DecidableEq, Repr

/-- The outcome of a die's array operation (R419, R423, R430 to R432). -/
structure ArrayOutcome where
  loops : Nat
  failed : Bool
deriving DecidableEq, Repr

/-- One constructor per row of the table of operations and events. -/
inductive Instr where
  -- Host port (02)
  | read (addr : W32) (len : Nat) (ckPs : Nat)
  | write (addr : W32) (data : List Byte)
  | readId (len : Nat)
  | resetEnable
  | resetPort
  | badInstr (c0 c1 : Byte)
  | packetSubmit (addr : W32) (bytes : List Byte)
  | badOpcode (r : Ref)
  | registerWrite (addr : W32) (v : W32)
  | lowWordRead (addr : W32)
  | devXspiCfgWrite (v : W32)
  | cmdCqTailWrite (v : W32)
  | cmdResultSelWrite (v : W32)
  | alertHoldoffExpiry
  | nop (r : Ref)
  | identify (r : Ref)
  | echo (r : Ref)
  | tagQuery (r : Ref)
  | reset (r : Ref)
  | resetRecordTimeout
  -- Matrix arrays (04)
  | matmul (t : Tile)
  | conv (t : Tile)
  | score (t : Tile)
  | passListEnd (t : Tile)
  | passComplete (t : Tile)
  | tileCtrClearWrite (t : Tile) (v : W32)
  | arrayDomainIdleOff (t : Tile) (a : BitVec 2)
  -- Vector engine (05)
  | stitch (t : Tile)
  | reduce (t : Tile)
  | load (t : Tile)
  | store (t : Tile)
  | vectorWait (t : Tile)
  | vectorEnd (t : Tile)
  -- Memory tiers and streaming (06)
  | memAlloc (r : Ref)
  | memFree (r : Ref)
  | memMigrate (r : Ref)
  | memOpen (r : Ref)
  | memClose (r : Ref)
  | memSettle (r : Ref)
  | memCopy (r : Ref)
  | memFlush (r : Ref)
  | memQuery (r : Ref)
  | memArenaInfo (r : Ref)
  | promotionComplete (h : W32) (ext : W16)
  | evictionComplete (h : W32) (ext : W16)
  | scrubComplete
  | memCtrClearWrite (v : W32)
  | windowFetch (tenant : Byte) (job : W32) (t : Tile)
  | arbiterGrant (point : BitVec 6)
  | transferEnd (point : BitVec 6) (ecc : EccClass)
  | layerDeadlineMiss (tenant : Byte) (job : W32)
  | atomicPartialAdd (t : Tile) (dest : W32) (row : List W32)
  -- Compression and skeins (07)
  | convert (r : Ref)
  | wpack (r : Ref)
  | skeinMount (r : Ref)
  | skeinUnmount (r : Ref)
  | skeinInfo (r : Ref)
  -- Serving (08, 09)
  | serveJobOpen (r : Ref)
  | serveJobClose (r : Ref)
  | serveSubmit (r : Ref)
  | serveCancel (r : Ref)
  | seqFork (r : Ref)
  | seqTruncate (r : Ref)
  | seqRelease (r : Ref)
  | serveQuery (r : Ref)
  | serveBaseShare (r : Ref)
  | stepStart (tiles : W32)
  | parkLimitExpiry (tenant : Byte) (tag : W16)
  | layerQueue (tenant : Byte) (job : W32) (lists : List ListSpec)
  | stepSample (tenant : Byte) (job : W32) (logits : List (List W32)) (drafts : List (List W32)) (rows : List (List Byte))
  | serveCtrClearWrite (v : W32)
  -- Fixed plane (10)
  | fixReserve (r : Ref)
  | fixLoad (r : Ref)
  | fixArm (r : Ref)
  | fixArmCheckDone (dt : Nat)
  | fixDisarm (r : Ref)
  | trig
  | answerCycle
  | frameWrite (off : W16) (bytes : List Byte)
  | frameCommit (buf : BitVec 1) (seq : W32) (len : W32)
  | fixRdyClrWrite (v : W32)
  -- Gauge (10)
  | gaugeWallSet (r : Ref)
  | wallSetPpsTimeout
  | gaugeCfgWrite (addr : W32) (v : W32)
  | rotorEdge (dt : Nat) (a b : PinLevel)
  | rotorZ
  | rotorIdleTimeout
  | gridEdge (dt : Nat)
  | gridEdgeTimeout
  | gridHoldoverTimeout
  | ppsEdge (dt : Nat)
  | ppsTimeout
  | gaugeSchedAdd (r : Ref)
  | gaugeSchedRemove (r : Ref)
  | gaugeSchedQuery (r : Ref)
  | schedFixedRun (entry : Byte) (ticks ns : Nat)
  | schedKnot (entry : Byte) (ticks ns : Nat)
  | schedSubmit (entry : Byte) (ticks ns : Nat)
  -- Knots (10)
  | knotAlloc (r : Ref)
  | knotFree (r : Ref)
  | knotSignal (r : Ref)
  | knotWait (r : Ref)
  | knotWaitTimeout (r : Ref)
  | knotRead (r : Ref)
  | knotSet (r : Ref)
  | knotWindowWrite (k : BitVec 12) (n : W32)
  -- Yarn links (11)
  | linkTrainStart (x : TrainTry)
  | bitLockTimeout (p : Port) (w : LaneWait)
  | linkTrainTimeout (p : Port)
  | linkUp (p : Port) (x : Trained)
  | linkSignalLoss (p : Port)
  | linkLockLoss (p : Port)
  | flitReceive (p : Port) (flit : List Byte)
  | replayTimer (p : Port)
  | reassemblyTimeout (src : BitVec 12) (msg : W16)
  | controlMessage (src : BitVec 12) (c : Control)
  | epochNotice (m : JobMsg)
  | epochAck (m : JobMsg)
  | workMessage (m : JobMsg) (w : WorkUnit) (sites : List Int) (lists : List ListSpec)
  | dataMessage (m : JobMsg) (t : Tile) (x : RowBlock) (coded : List Byte)
  | resultMessage (m : JobMsg) (body : ResultBody)
  | knotMessage (m : JobMsg) (knot : W16) (n : W32)
  | withdrawMessage (m : JobMsg) (tag : Option W16) (rows : List Nat)
  | migrateMessage (m : JobMsg) (seq : W16) (committed : Nat) (pages : List PageCopy)
  | deviceLost (id : BitVec 12)
  | managerLost
  | linkPodCfg (r : Ref)
  | linkPlace (r : Ref)
  | linkQuery (r : Ref)
  | linkPnCfgWrite (p : Port) (v : W32)
  | linkCtrClearWrite (v : W32)
  -- Security (12)
  | secSessionChallenge (r : Ref)
  | challengeExpiry (c : Chan)
  | secSessionOpen (r : Ref)
  | secSessionClose (r : Ref)
  | sessionIdleTimeout
  | networkLossTimeout
  | secCredEnrol (r : Ref)
  | secCredRevoke (r : Ref)
  | secPartCreate (r : Ref)
  | secKeyLoad (r : Ref)
  | secKeyRotate (r : Ref)
  | secPartRemove (r : Ref)
  | removalScrub (tenant : Byte)
  | removalFlash (tenant : Byte)
  | removalConfirm (tenant : Byte)
  | secPartInfo (r : Ref)
  | secPodKey (r : Ref)
  | secOpal (r : Ref)
  | secLedgerRead (r : Ref)
  | secLedgerTrim (r : Ref)
  | secCert (r : Ref)
  | keySwitchChange (inst serv : Bool)
  | arpRequest (ip : W32)
  | meuraSegment (srcIp : W32) (srcPort : W16) (dstPort : W16) (datagram : List Byte)
  | meuraReassemblyTimeout
  | otherFrame
  -- Flash (13)
  | flashRead (r : Ref)
  | flashProgram (r : Ref)
  | flashErase (r : Ref)
  | flashVerify (r : Ref)
  | flashMargin (r : Ref)
  | flashBlockInfo (r : Ref)
  | flashInfo (r : Ref)
  | flashOtpRead (r : Ref)
  | flashOtpBurn (r : Ref)
  | flashArrayOpComplete (die : BitVec 5) (out : ArrayOutcome)
  | flashCodewordTransfer (die : BitVec 5) (cls : EccClass) (bits : W16)
  | flashSuspend (die : BitVec 5)
  | minRunElapsed (die : BitVec 5)
  | eraseRestart (die : BitVec 5)
  | flashCtrClearWrite (v : W32)
  -- DRAM (14)
  | dramWriteDrain (c : BitVec 5) (ecc : EccClass)
  | patrolRead (c : BitVec 5) (ecc : EccClass)
  | refresh (c : BitVec 5) (bank : BitVec 4) (high : Bool)
  | oscillatorCheck (c : BitVec 5) (drift : Nat) (lanes : W32)
  | dramMapCfgWrite (v : W32)
  | mapScrubComplete
  | selfRefreshExit (c : BitVec 5)
  | selfRefreshReentry (c : BitVec 5)
  | dramCtrClearWrite (v : W32)
  -- Power (15)
  | vinSample (mv : Nat)
  | shedStageLift
  | supplyReset
  | thermalSample (temps : List Int)
  | coolantSample (inlet outlet : Int) (flow : Nat)
  | capRecompute (tenant : Byte) (idle measured : Nat)
  | profileUpdate (t : Tile) (mw : Nat)
  | currentLimitCheck (tenant : Byte) (amps : Nat)
  | vcoreUpdate
  | pwrQuery (r : Ref)
  | pwrSetCap (r : Ref)
  | pwrProfileReset (r : Ref)
  | pwrCtrClearWrite (v : W32)
  -- Audit and twin mode (16)
  | auditJobCfg (r : Ref)
  | auditAttest (r : Ref)
  | auditTwinPair (r : Ref)
  | twinPairTimeout (r : Ref)
  | auditTwinQuery (r : Ref)
  | diagTileTest (r : Ref) (failing : Option (Byte × W16)) (cycles : W32)
  | twinCtrl (c : TwinCtrl)
  | twinStep (tenant : Byte) (job : W32) (seqs : List W16) (dStep : W64) (parked : List W16)
  | twinDigest (tenant : Byte) (job : W32) (digests : List (Nat × List Byte))
  | twinFix (seq : W32) (digest : List Byte)
  | twinFixUnmatched (seq : W32)
  | auditCtrClearWrite (v : W32)
  -- Freeze and the test port (16)
  | freeze
  | freezeRelease (env : BootEnv)
  | testLogicReset
  | extest
  | idcode
  | samplePreload
  | roAddr (v : W64)
  | roData
  | roStatus
  | bypass
  -- Reset and low power (17)
  | coldReset (env : BootEnv)
  | warmReset (source : Byte) (env : BootEnv)
  | restart (env : BootEnv)
  | faultReset (source : Byte) (env : BootEnv)
  | partitionReset (mask : Byte) (fault failed : Bool)
  | watchdogExpiry (env : BootEnv)
  | startupReady
  | dozeRequest
  | napRequest
  | hibernateRequest
  | lpEntryComplete
  | wake
  | napExitComplete (dt : Nat)
  | hibernateExit (source : Byte) (env : BootEnv)
  -- Faceplate, USB, Ethernet (18)
  | ackShortPress
  | ackLongPress
  | testShortPress
  | testLongPress (failing : Byte)
  | safeLongPress
  | chord (button : BitVec 2)
  | locateEnd
  | lampTestEnd
  | panelAck
  | panelLampTest
  | panelLocate
  | usbAttach (highSpeed : Bool)
  | usbDetach
  | usbPacket (bytes : List Byte)
  | startThresholdReached (env : BootEnv)
  | ethernetLinkChange (up : Bool)
  | vectorDescriptorComplete (t : Tile)
  | napRefusalFlashEnd
deriving DecidableEq, Repr

end Sys2Proof
end

