-- ==== Sys2Proof/Machine/Bytes.lean ====
section
/-! DEFINITION. Byte strings, little-endian fields (R7), and sparse maps in one canonical form. -/

namespace Sys2Proof.Machine

/-- The little-endian number a byte string spells (R7). -/
def leNat : List Byte → Nat
  | [] => 0
  | b :: bs => b.toNat + 256 * leNat bs

/-- The `n` low bytes of `v`, little-endian (R7). -/
def leBytes : Nat → Nat → List Byte
  | 0, _ => []
  | n + 1, v => BitVec.ofNat 8 v :: leBytes n (v / 256)

/-- `n` bytes from offset `off`, short where the string ends. -/
def slice (bs : List Byte) (off n : Nat) : List Byte := (bs.drop off).take n

/-- The little-endian field of `n` bytes at offset `off` (R7). -/
def field (bs : List Byte) (off n : Nat) : Nat := leNat (slice bs off n)

/-- Byte `off` of a string; zero past its end. -/
def byteAt (bs : List Byte) (off : Nat) : Byte := bs.getD off 0

/-- `n` zero bytes. -/
def zeros (n : Nat) : List Byte := List.replicate n 0

/-- A string cut or zero-padded to `n` bytes. -/
def padTo (n : Nat) (bs : List Byte) : List Byte := bs.take n ++ zeros (n - bs.length)

/-- Bits `lo` upward of a number, `n` of them. -/
def bitsOf (v lo n : Nat) : Nat := v / 2 ^ lo % 2 ^ n

/-- Bit `i` of a number. -/
def bitOf (v i : Nat) : Bool := v / 2 ^ i % 2 == 1

/-- Two's complement: the integer that the low `n` bits of `v` spell. -/
def signedOf (n v : Nat) : Int :=
  let w := v % 2 ^ n
  if w < 2 ^ (n - 1) then (w : Int) else (w : Int) - (2 ^ n : Nat)

/-- The `n`-bit two's-complement pattern of an integer. -/
def patternOf (n : Nat) (x : Int) : Nat := (x % (2 ^ n : Nat)).toNat

/-- A word with bits `m` replaced by those of `v`. -/
def merge32 (old v m : W32) : W32 := (old &&& ~~~m) ||| (v &&& m)

/-- The low byte of a number at each place: ASCII labels are byte lists. -/
def ascii (s : String) : List Byte := s.toList.map fun c => BitVec.ofNat 8 c.toNat

/-- Round a size up to a multiple of `m` (`m > 0`). -/
def roundUp (n m : Nat) : Nat := (n + m - 1) / m * m

/-- Ceiling division. -/
def ceilDiv (n m : Nat) : Nat := (n + m - 1) / m

/-- Add to a 32-bit counter that stops at 0xFFFF_FFFF (R118, R154). -/
def satAdd32 (c : W32) (n : Nat) : W32 := if c.toNat + n ≥ 2 ^ 32 then 0xFFFF_FFFF else BitVec.ofNat 32 (c.toNat + n)

/-- Add to a 16-bit counter that saturates (R45, R338, R413). -/
def satAdd16 (c : W16) (n : Nat) : W16 := if c.toNat + n ≥ 2 ^ 16 then 0xFFFF else BitVec.ofNat 16 (c.toNat + n)

/-- Sparse data by number: pairs in rising order of key, none holding the default. -/
abbrev SMap (α : Type) := List (Nat × α)

namespace SMap

/-- What key `k` holds; an unlisted key holds the default `d`. -/
def get (d : α) : SMap α → Nat → α
  | [], _ => d
  | (k', v) :: m, k => if k = k' then v else get d m k

/-- Insert or replace, in rising order of key. -/
def put : SMap α → Nat → α → SMap α
  | [], k, v => [(k, v)]
  | (k', v') :: m, k, v =>
    if k < k' then (k, v) :: (k', v') :: m
    else if k = k' then (k, v) :: m
    else (k', v') :: put m k v

/-- Remove a key, wherever it stands. -/
def del : SMap α → Nat → SMap α
  | [], _ => []
  | (k', v') :: m, k => if k = k' then del m k else (k', v') :: del m k

/-- Write a key: writing the default removes it, so that equal maps are equal lists. -/
def set [DecidableEq α] (d : α) (m : SMap α) (k : Nat) (v : α) : SMap α := if v = d then del m k else put m k v

/-- Change what a key holds. -/
def modify [DecidableEq α] (d : α) (m : SMap α) (k : Nat) (f : α → α) : SMap α := set d m k (f (get d m k))

/-- Remove every key from `lo` up to, not including, `hi`. -/
def clear (m : SMap α) (lo hi : Nat) : SMap α := m.filter fun p => p.1 < lo || hi ≤ p.1

/-- Every key of the list is above `b`, rising, and no entry is the default. -/
def wfFrom [DecidableEq α] (d : α) : Option Nat → SMap α → Bool
  | _, [] => true
  | b, (k, v) :: m => (match b with | none => true | some k' => decide (k' < k)) && decide (v ≠ d) && wfFrom d (some k) m

/-- The canonical form: keys strictly rising, no entry equal to the default. -/
def wf [DecidableEq α] (d : α) (m : SMap α) : Bool := wfFrom d none m

end SMap

/-- Fabric, window and page bytes: unlisted addresses read zero (R194). -/
abbrev Mem := SMap Byte

namespace Mem

/-- One byte. -/
def byte (m : Mem) (a : Nat) : Byte := SMap.get 0 m a

/-- `n` bytes from address `a`. -/
def bytes (m : Mem) (a : Nat) : Nat → List Byte
  | 0 => []
  | n + 1 => byte m a :: bytes m (a + 1) n

/-- Store one byte. -/
def setByte (m : Mem) (a : Nat) (b : Byte) : Mem := SMap.set 0 m a b

/-- Store a byte string from address `a` upward. -/
def store (m : Mem) (a : Nat) : List Byte → Mem
  | [] => m
  | b :: bs => store (setByte m a b) (a + 1) bs

/-- Scrub a range to zero (R194). -/
def scrub (m : Mem) (a n : Nat) : Mem := SMap.clear m a (a + n)

/-- Little-endian field of `n` bytes at `a`. -/
def le (m : Mem) (a n : Nat) : Nat := leNat (bytes m a n)

/-- The canonical form of a byte memory. -/
abbrev wf (m : Mem) : Bool := SMap.wf 0 m

end Mem

/-- First-in first-out association by number, for things that are present or absent. -/
abbrev Assoc (α : Type) := List (Nat × α)

namespace Assoc

/-- The entry of a key, if there is one. -/
def find : Assoc α → Nat → Option α
  | [], _ => none
  | (k', v) :: m, k => if k = k' then some v else find m k

/-- Put an entry, replacing the one of the same key; keys stay in rising order. -/
def insert : Assoc α → Nat → α → Assoc α := SMap.put

/-- Take an entry out. -/
def erase : Assoc α → Nat → Assoc α := SMap.del

/-- Change an entry that is there. -/
def adjust (m : Assoc α) (k : Nat) (f : α → α) : Assoc α := m.map fun p => if p.1 = k then (p.1, f p.2) else p

end Assoc

end Sys2Proof.Machine
end

