-- ==== Sys2Proof/Machine/Crypto.lean ====
section
/-! DEFINITION. The primitives that R57 and R379 name: CRC-32C by the parameters of R57; SHAKE256 (FIPS 202), AES-256 and
AES-256-GCM (SP 800-38D), X448 (RFC 7748), Ed448 (RFC 8032) by the standards the manual names (PRESUMED, log entry 4). -/

namespace Sys2Proof.Machine

/-! ### CRC-32C (R57) -/

/-- One bit step of the reflected CRC with polynomial 0x1EDC_6F41, reflected 0x82F6_3B78 (R57). -/
def crcStep (c : W32) : W32 := if c.getLsbD 0 then (c >>> 1) ^^^ 0x82F63B78 else c >>> 1

/-- One byte into the CRC register. -/
def crcByte (c : W32) (b : Byte) : W32 :=
  let c := c ^^^ b.setWidth 32
  crcStep (crcStep (crcStep (crcStep (crcStep (crcStep (crcStep (crcStep c)))))))

/-- CRC-32C of a byte string: initial value and final XOR 0xFFFF_FFFF (R57). -/
def crc32c (bs : List Byte) : W32 := bs.foldl crcByte 0xFFFFFFFF ^^^ 0xFFFFFFFF

/-! ### SHAKE256 -/

/-- Rotate a lane left. -/
def rotl64 (x : W64) (n : Nat) : W64 := if n = 0 then x else (x <<< n) ||| (x >>> (64 - n))

/-- The 25 lanes of the Keccak state, x + 5y. -/
abbrev Lanes := List W64

def laneAt (s : Lanes) (i : Nat) : W64 := s.getD i 0

/-- Rotation offsets of the rho step, by lane x + 5y. -/
def rhoOffsets : List Nat := [0, 1, 62, 28, 27, 36, 44, 6, 55, 20, 3, 10, 43, 25, 39, 41, 45, 15, 21, 8, 18, 2, 61, 56, 14]

/-- Round constants of the iota step. -/
def roundConstants : List W64 :=
  [0x0000000000000001, 0x0000000000008082, 0x800000000000808A, 0x8000000080008000, 0x000000000000808B, 0x0000000080000001,
   0x8000000080008081, 0x8000000000008009, 0x000000000000008A, 0x0000000000000088, 0x0000000080008009, 0x000000008000000A]
  ++ [0x000000008000808B, 0x800000000000008B, 0x8000000000008089, 0x8000000000008003, 0x8000000000008002, 0x8000000000000080,
   0x000000000000800A, 0x800000008000000A, 0x8000000080008081, 0x8000000000008080, 0x0000000080000001, 0x8000000080008008]

/-- One round of Keccak-f[1600]: theta, rho, pi, chi, iota. -/
def keccakRound (s : Lanes) (rc : W64) : Lanes :=
  let c := (List.range 5).map fun x => laneAt s x ^^^ laneAt s (x + 5) ^^^ laneAt s (x + 10) ^^^ laneAt s (x + 15) ^^^ laneAt s (x + 20)
  let d := (List.range 5).map fun x => laneAt c ((x + 4) % 5) ^^^ rotl64 (laneAt c ((x + 1) % 5)) 1
  let t := (List.range 25).map fun i => rotl64 (laneAt s i ^^^ laneAt d (i % 5)) (rhoOffsets.getD i 0)
  -- pi: B[y, 2x+3y] = t[x, y], read here by destination
  let b := (List.range 25).map fun i =>
    let x := i % 5; let y := i / 5
    laneAt t ((x + 3 * y) % 5 + 5 * x)
  let e := (List.range 25).map fun i =>
    let x := i % 5; let y := i / 5
    laneAt b i ^^^ (~~~ laneAt b ((x + 1) % 5 + 5 * y) &&& laneAt b ((x + 2) % 5 + 5 * y))
  match e with
  | [] => []
  | l0 :: rest => (l0 ^^^ rc) :: rest

/-- Keccak-f[1600]. -/
def keccakF (s : Lanes) : Lanes := roundConstants.foldl keccakRound s

/-- XOR one rate block of 136 bytes into the state. -/
def absorbBlock (s : Lanes) (blk : List Byte) : Lanes :=
  keccakF ((List.range 25).map fun i => laneAt s i ^^^ BitVec.ofNat 64 (leNat (slice blk (8 * i) 8)))

/-- Cut a string into blocks of `n` bytes; `fuel` bounds their number. -/
def blocksOf (n : Nat) : Nat → List Byte → List (List Byte)
  | 0, _ => []
  | _, [] => []
  | fuel + 1, bs => bs.take n :: blocksOf n fuel (bs.drop n)

/-- Squeeze rate blocks. -/
def squeeze : Nat → Lanes → List Byte
  | 0, _ => []
  | k + 1, s => ((List.range 17).flatMap fun i => leBytes 8 (laneAt s i).toNat) ++ squeeze k (keccakF s)

/-- SHAKE256 with an output of `n` bytes (R379). -/
def shake256 (n : Nat) (msg : List Byte) : List Byte :=
  let padLen := 136 - msg.length % 136
  let pad := if padLen = 1 then [0x9F] else 0x1F :: (zeros (padLen - 2) ++ [0x80])
  let m := msg ++ pad
  let s := (blocksOf 136 (m.length / 136 + 1) m).foldl absorbBlock (List.replicate 25 0)
  (squeeze (n / 136 + 1) s).take n

/-- The 32-byte digest that the manual writes SHAKE256-256. -/
def digest32 (msg : List Byte) : List Byte := shake256 32 msg

/-- kdf(s, label, ctx) of R379. -/
def kdf (s : List Byte) (label : String) (ctx : List Byte) : List Byte := shake256 32 (s ++ ascii label ++ ctx)

/-! ### AES-256 -/

/-- Multiplication by x in GF(2^8). -/
def xtime (b : Byte) : Byte := (b <<< 1) ^^^ (if b.getLsbD 7 then 0x1B else 0)

/-- Multiplication in GF(2^8). -/
def gmul (a b : Byte) : Byte :=
  ((List.range 8).foldl (fun (acc, x) i => (if b.getLsbD i then acc ^^^ x else acc, xtime x)) ((0 : Byte), a)).1

/-- a^254, the inverse in GF(2^8) (zero for zero). -/
def ginv (a : Byte) : Byte :=
  let a2 := gmul a a; let a4 := gmul a2 a2; let a8 := gmul a4 a4; let a16 := gmul a8 a8
  let a32 := gmul a16 a16; let a64 := gmul a32 a32; let a128 := gmul a64 a64
  gmul a2 (gmul a4 (gmul a8 (gmul a16 (gmul a32 (gmul a64 a128)))))

/-- The S-box. -/
def sbox (a : Byte) : Byte :=
  let x := ginv a
  x ^^^ x.rotateLeft 1 ^^^ x.rotateLeft 2 ^^^ x.rotateLeft 3 ^^^ x.rotateLeft 4 ^^^ 0x63

def xorBytes : List Byte → List Byte → List Byte
  | a :: as, b :: bs => (a ^^^ b) :: xorBytes as bs
  | _, _ => []

/-- Extend the key schedule word by word; `ws` holds the words so far, newest first. -/
def keyWords : Nat → Nat → Byte → List (List Byte) → List (List Byte)
  | 0, _, _, ws => ws
  | k + 1, i, rcon, ws =>
    let prev := ws.getD 0 []
    let back := ws.getD 7 []
    if i % 8 = 0 then
      let t := match prev with
        | [a, b, c, e] => [sbox b ^^^ rcon, sbox c, sbox e, sbox a]
        | _ => prev
      keyWords k (i + 1) (xtime rcon) (xorBytes back t :: ws)
    else if i % 8 = 4 then keyWords k (i + 1) rcon (xorBytes back (prev.map sbox) :: ws)
    else keyWords k (i + 1) rcon (xorBytes back prev :: ws)

/-- The 15 round keys of AES-256. -/
def roundKeys (key : List Byte) : List (List Byte) :=
  let k := padTo 32 key
  let ws := (keyWords 52 8 1 ((List.range 8).map fun i => slice k (4 * i) 4).reverse).reverse
  (List.range 15).map fun r => ((ws.drop (4 * r)).take 4).flatten

def shiftRows (s : List Byte) : List Byte :=
  (List.range 16).map fun i => byteAt s ((i + 4 * (i % 4)) % 16)

def mixColumn : List Byte → List Byte
  | [a, b, c, e] =>
    [xtime a ^^^ (xtime b ^^^ b) ^^^ c ^^^ e, a ^^^ xtime b ^^^ (xtime c ^^^ c) ^^^ e,
     a ^^^ b ^^^ xtime c ^^^ (xtime e ^^^ e), (xtime a ^^^ a) ^^^ b ^^^ c ^^^ xtime e]
  | w => w

def mixColumns (s : List Byte) : List Byte := (List.range 4).flatMap fun c => mixColumn (slice s (4 * c) 4)

/-- Rounds of AES after the first key addition. -/
def aesRounds : List (List Byte) → List Byte → List Byte
  | [], s => s
  | [k], s => xorBytes (shiftRows (s.map sbox)) k
  | k :: ks, s => aesRounds ks (xorBytes (mixColumns (shiftRows (s.map sbox))) k)

/-- AES-256 of one 16-byte block (R205, R379). -/
def aes256 (key blk : List Byte) : List Byte :=
  match roundKeys key with
  | [] => blk
  | k :: ks => aesRounds ks (xorBytes blk k)

/-! ### AES-256-GCM -/

/-- The 128-bit number of a block, first byte most significant. -/
def beNat (bs : List Byte) : Nat := bs.foldl (fun acc b => acc * 256 + b.toNat) 0

def beBytes (n v : Nat) : List Byte := (leBytes n v).reverse

/-- Multiplication in GF(2^128) with GCM's bit order. -/
def ghashMul (x h : BitVec 128) : BitVec 128 :=
  ((List.range 128).foldl (fun (z, v) i =>
    (if x.getMsbD i then z ^^^ v else z,
     if v.getLsbD 0 then (v >>> 1) ^^^ (0xE1#128 <<< 120) else v >>> 1)) ((0 : BitVec 128), h)).1

/-- GHASH of the padded additional data and ciphertext. -/
def ghash (h : BitVec 128) (aad ct : List Byte) : BitVec 128 :=
  let pad16 := fun (bs : List Byte) => padTo (roundUp bs.length 16) bs
  let m := pad16 aad ++ pad16 ct ++ beBytes 8 (8 * aad.length) ++ beBytes 8 (8 * ct.length)
  (blocksOf 16 (m.length / 16 + 1) m).foldl (fun y b => ghashMul (y ^^^ BitVec.ofNat 128 (beNat b)) h) 0

/-- Counter mode from block counter 2. -/
def gcmCtr (key iv bs : List Byte) : List Byte :=
  ((blocksOf 16 (bs.length / 16 + 1) bs).zipIdx 2).flatMap fun (b, i) => xorBytes b (aes256 key (iv ++ beBytes 4 i))

/-- The 16-byte tag. -/
def gcmTag (key iv aad ct : List Byte) : List Byte :=
  let h := BitVec.ofNat 128 (beNat (aes256 key (zeros 16)))
  xorBytes (beBytes 16 (ghash h aad ct).toNat) (aes256 key (iv ++ beBytes 4 1))

/-- Seal: ciphertext followed by its tag (R66, R70). -/
def gcmSeal (key iv aad pt : List Byte) : List Byte :=
  let ct := gcmCtr key iv pt
  ct ++ gcmTag key iv aad ct

/-- Open: the plaintext, when the tag verifies. -/
def gcmOpen (key iv aad sealed : List Byte) : Option (List Byte) :=
  let n := sealed.length - 16
  let ct := sealed.take n
  if sealed.length < 16 then none
  else if gcmTag key iv aad ct = sealed.drop n then some (gcmCtr key iv ct) else none

/-! ### X448 and Ed448 -/

/-- The field prime 2^448 - 2^224 - 1. -/
def p448 : Nat := 2 ^ 448 - 2 ^ 224 - 1

def addP (a b : Nat) : Nat := (a + b) % p448
def subP (a b : Nat) : Nat := (a + (p448 - b % p448)) % p448
def mulP (a b : Nat) : Nat := a * b % p448

/-- a^e modulo m by the bits of e, low bit first; `n` bits are used. -/
def powMod (m a : Nat) : Nat → Nat → Nat
  | 0, _ => 1 % m
  | n + 1, e => let r := powMod m (a * a % m) n (e / 2); if e % 2 = 1 then r * a % m else r

def invP (a : Nat) : Nat := powMod p448 a 449 (p448 - 2)

/-- One bit of the Montgomery ladder of RFC 7748. -/
structure Ladder where
  x2 : Nat
  z2 : Nat
  x3 : Nat
  z3 : Nat
  swap : Bool

def ladderStep (u : Nat) (s : Ladder) (kt : Bool) : Ladder :=
  let (x2, z2, x3, z3) := if s.swap != kt then (s.x3, s.z3, s.x2, s.z2) else (s.x2, s.z2, s.x3, s.z3)
  let a := addP x2 z2; let aa := mulP a a
  let b := subP x2 z2; let bb := mulP b b
  let e := subP aa bb
  let c := addP x3 z3; let d := subP x3 z3
  let da := mulP d a; let cb := mulP c b
  let t := addP da cb; let w := subP da cb
  { x3 := mulP t t, z3 := mulP u (mulP w w), x2 := mulP aa bb, z2 := mulP e (addP aa (mulP 39081 e)), swap := kt }

/-- X448(k, u) on 56-byte strings (R379). -/
def x448 (k u : List Byte) : List Byte :=
  let kn := leNat (padTo 56 k)
  let kn := kn - kn % 4
  let kn := if kn < 2 ^ 447 then kn + 2 ^ 447 else kn
  let un := leNat (padTo 56 u) % p448
  let s := (List.range 448).foldl (fun s i => ladderStep un s (bitOf kn (447 - i))) { x2 := 1, z2 := 0, x3 := un, z3 := 1, swap := false }
  let (x, z) := if s.swap then (s.x3, s.z3) else (s.x2, s.z2)
  leBytes 56 (mulP x (invP z))

/-- The base point of X448. -/
def x448Base : List Byte := 5 :: zeros 55

/-- A point of edwards448 in projective coordinates. -/
structure EdPoint where
  x : Nat
  y : Nat
  z : Nat

def edD : Nat := p448 - 39081
def edOrder : Nat := 2 ^ 446 - 13818066809895115352007386748515426880336692474882178609894547503885

def edAdd (p q : EdPoint) : EdPoint :=
  let a := mulP p.z q.z; let b := mulP a a
  let c := mulP p.x q.x; let d := mulP p.y q.y
  let e := mulP edD (mulP c d)
  let f := subP b e; let g := addP b e
  let h := mulP (addP p.x p.y) (addP q.x q.y)
  { x := mulP a (mulP f (subP (subP h c) d)), y := mulP a (mulP g (subP d c)), z := mulP f g }

/-- Scalar multiplication by the low `n` bits of `k`. -/
def edMul : Nat → Nat → EdPoint → EdPoint
  | 0, _, _ => ⟨0, 1, 1⟩
  | n + 1, k, p => let r := edMul n (k / 2) (edAdd p p); if k % 2 = 1 then edAdd r p else r

def edBase : EdPoint :=
  { x := 224580040295924300187604334099896036246789641632564134246125461686950415467406032909029192869357953282578032075146446173674602635247710
    y := 298819210078481492676017930443930673437544040154080242095928241372331506189835876003536878655418784733982303233503462500531545062832660
    z := 1 }

/-- The 57-byte encoding of a point. -/
def edEncode (p : EdPoint) : List Byte :=
  let zi := invP p.z
  leBytes 56 (mulP p.y zi) ++ [if mulP p.x zi % 2 = 1 then 0x80 else 0]

/-- Decode 57 bytes to a point, when they name one. -/
def edDecode (bs : List Byte) : Option EdPoint :=
  let y := leNat (bs.take 56)
  let last := byteAt bs 56
  if bs.length ≠ 57 ∨ y ≥ p448 ∨ last &&& 0x7F ≠ 0 then none
  else
    let yy := mulP y y
    let u := subP yy 1
    let v := subP (mulP edD yy) 1
    let x := mulP (mulP (mulP u (mulP u u)) v) (powMod p448 (mulP (mulP (mulP u u) (mulP u (mulP u u))) (mulP v (mulP v v))) 449 ((p448 - 3) / 4))
    if mulP v (mulP x x) ≠ u then none
    else
      let odd := last &&& 0x80 ≠ 0
      if x = 0 ∧ odd then none
      else some ⟨if (x % 2 = 1) = odd then x else p448 - x, y, 1⟩

/-- The domain string of pure Ed448 with an empty context. -/
def dom4 : List Byte := ascii "SigEd448" ++ [0, 0]

/-- Scalar and nonce half of an expanded private key. -/
def edExpand (sk : List Byte) : Nat × List Byte :=
  let h := shake256 114 sk
  let s := leNat (h.take 56)
  let s := s - s % 4
  let s := if s < 2 ^ 447 then s + 2 ^ 447 else s
  (s, h.drop 57)

/-- The public key of a private key. -/
def edPublic (sk : List Byte) : List Byte := edEncode (edMul 448 (edExpand sk).1 edBase)

/-- Ed448 signature (R379). -/
def edSign (sk msg : List Byte) : List Byte :=
  let (s, pre) := edExpand sk
  let a := edEncode (edMul 448 s edBase)
  let r := leNat (shake256 114 (dom4 ++ pre ++ msg)) % edOrder
  let rr := edEncode (edMul 448 r edBase)
  let k := leNat (shake256 114 (dom4 ++ rr ++ a ++ msg)) % edOrder
  rr ++ leBytes 57 ((r + k * s) % edOrder)

/-- Ed448 verification (R379). -/
def edVerify (pk msg sig : List Byte) : Bool :=
  match edDecode pk, edDecode (sig.take 57) with
  | some a, some r =>
    let s := leNat (slice sig 57 57)
    if s ≥ edOrder ∨ sig.length ≠ 114 then false
    else
      let k := leNat (shake256 114 (dom4 ++ sig.take 57 ++ pk ++ msg)) % edOrder
      let l := edMul 448 (4 * s) edBase
      let q := edAdd (edMul 3 4 r) (edMul 449 (4 * k) a)
      mulP l.x q.z == mulP q.x l.z && mulP l.y q.z == mulP q.y l.z
  | _, _ => false

end Sys2Proof.Machine
end

