-- ==== Sys2Proof/Machine/StBoot.lean ====
section
/-! DEFINITION. The state of reset, start-up, low power, freeze, the test port and the OTP row (17_reset_startup,
16_determinism_audit, 13_flash R435 to R437). -/

namespace Sys2Proof.Machine

/-- DEV_STATE.PHASE (R87, R514). -/
inductive Phase where
  | held | booting | ready | fault | lowPower
deriving DecidableEq, Repr

/-- The low-power states of R521. -/
inductive LowPower where
  | active | doze | nap | hibernate
deriving DecidableEq, Repr

/-- The OTP row but for the three digests, which are those of the Config keys (R436). -/
structure Otp where
  part     : W16 := 0x9632
  tiles    : Byte := 32
  stepping : BitVec 4 := 0
  /-- Physical tile map. -/
  map      : W32 := 0xFFFF_FFFF
  serial   : W64 := 0
  /-- The 128 bytes of the voltage table (R467). -/
  voltage  : List Byte := []
  /-- Fuse word: [0] PRODUCTION, [1] READOUT_FUSED. -/
  fuse     : W32 := 1
  /-- The security version, 0 to 255. -/
  security : Nat := 0
deriving DecidableEq, Repr

/-- The instructions of the test access port (R503); every other code acts as BYPASS. -/
inductive TapInstr where
  | extest | idcode | sample | roAddr | roData | roStatus | bypass
deriving DecidableEq, Repr

/-- What a freeze has fixed (R501, R502, R504). -/
structure Freeze where
  /-- Tiles with a pass in flight at the freeze. -/
  tilesBusy : Nat
  /-- Partitions that existed at the freeze, bit n − 1 for partition n. -/
  parts     : Byte
deriving DecidableEq, Repr

/-- A start-up held at step 4 by a hot sensor (R516): its kind and source, whether DRAM trains in full, what it found, and when it
began. -/
structure HeldStart where
  kind   : Byte
  source : Byte
  full   : Bool
  env    : BootEnv
  at_    : Nat
deriving DecidableEq, Repr

/-- Reset, start-up, low power, freeze and the test port. -/
structure Boot where
  phase      : Phase := .held
  /-- The OTP row as start-up read it, and as it is programmed (R437). -/
  otp        : Otp := {}
  otpRow     : Otp := {}
  otpLost    : Bool := false
  /-- BOOT_CAUSE. -/
  kind       : Byte := 0
  source     : Byte := 0
  /-- A reset that has begun and whose start-up has not: kind and source (R510, R511). -/
  begun      : Option (Byte × Byte) := none
  gaugeTimeout : Bool := false
  fixRestored  : Bool := false
  trainReused  : Bool := false
  fwSlot     : Bool := false
  step       : Nat := 0
  faultStep  : Byte := 0
  faultCode  : Byte := 0
  /-- The start-up that a thermal hold keeps (R516). -/
  heldStart  : Option HeldStart := none
  resets     : W32 := 0
  us         : W32 := 0
  gaugeWait  : W16 := 0
  /-- Step 10 waits for the Gauge bases since this time (R519). -/
  waitFrom   : Option Nat := none
  trigWake   : Bool := false
  wakeSrc    : Byte := 0
  lpRefused  : Bool := false
  /-- The low-power state in force, and the one whose entry is in progress (R522, R524). -/
  lp         : LowPower := .active
  entering   : Option LowPower := none
  /-- The exit from Nap is in progress (R522, R523). -/
  exiting    : Bool := false
  /-- The Fixed plane was armed when Nap was entered (R522). -/
  rearm      : Bool := false
  scratch    : W32 := 0
  /-- A fault reset whose source was DRAM trains in full (R515 step 5). -/
  dramFault  : Bool := false
  /-- The device is held frozen (R501, R502). -/
  frozen     : Option Freeze := none
  /-- Instruction of the test access port (R503); region and address of RO_ADDR. -/
  tap        : TapInstr := .idcode
  roReg      : Byte := 0
  roAddr     : Nat := 0
  /-- What the last Capture-DR shifted out, as bytes or bits of a register, little-endian (R503). -/
  tdo        : List Byte := []
deriving DecidableEq, Repr

end Sys2Proof.Machine
end

