-- ==== Sys2Proof/Machine/StDram.lean ====
section
/-! DEFINITION. The state of the DRAM subsystem (14_dram). -/

namespace Sys2Proof.Machine

/-- An entry of a write queue: block, byte mask, and what the block held before (R450, R452). -/
structure DramEntry where
  block : Nat
  mask  : BitVec 64
  old   : List Byte
deriving DecidableEq, Repr

/-- A DRAM channel. -/
structure DramChan where
  queue     : List DramEntry := []
  /-- The queue reached HIGH and drains to LOW (R452). -/
  draining  : Bool := false
  /-- Refreshes postponed, by bank (R455). -/
  postponed : SMap Nat := []
  selfRef   : Bool := false
  /-- A maintenance access woke it at this time (R463). -/
  wokenAt   : Option Nat := none
  /-- It refreshes above the base rate (R455). -/
  high      : Bool := false
  lanes     : W32 := 0
  retrains  : W32 := 0
  /-- Channel offset of the next patrol block (R451). -/
  patrol    : Nat := 0
deriving DecidableEq, Repr

/-- The DRAM and the DRAM block. -/
structure DramPart where
  chans   : SMap DramChan := []
  trained : Bool := false
  mapBusy : Bool := false
  patrolBusy : Bool := false
  uncorr  : Bool := false
  corr    : Bool := false
  order   : BitVec 2 := 0
  high    : Byte := 0x60
  low     : Byte := 0x20
  hours   : W16 := 0x0018
  period  : W16 := 0x0064
  corrCount : W32 := 0
  uncorrCount : W32 := 0
  codecCount : W32 := 0
  rmwCount : W32 := 0
  errAddr : Nat := 0
  errSource : Byte := 0
  errStep : Byte := 0
  errChan : BitVec 5 := 0
  /-- Blocks that were read Uncorrectable and have not been written whole since (R449, R450). -/
  bad     : List Nat := []
deriving DecidableEq, Repr

end Sys2Proof.Machine
end

