-- ==== Sys2Proof/Machine/StFlash.lean ====
section
/-! DEFINITION. The state of the flash arrays: the block table, the pages, and the operations of the dies (13_flash). -/

namespace Sys2Proof.Machine

/-- States of a block (R420). -/
inductive BlockState where
  | erased | open_ | full | erasing | worn
deriving DecidableEq, Repr

/-- An entry of the block table (R420), with the tag of a kept block (R402), the largest program loop count since the last erase
(R438) and the pages that a failed or interrupted program has consumed (R428, R431). -/
structure FlashBlock where
  state  : BlockState := .erased
  next   : Nat := 0
  frayed : Bool := false
  erases : W32 := 0
  loops  : Byte := 0
  tag    : Option (List Byte) := none
  lost   : List Nat := []
deriving DecidableEq, Repr

/-- A programmed page (R418): its data, the erase count and the tenant it was programmed with. -/
structure FlashPage where
  data   : List Byte
  erases : W32
  tenant : Byte
deriving DecidableEq, Repr

/-- What a queued operation does. -/
inductive FlashKind where
  | read | program | erase | verify | margin
deriving DecidableEq, Repr

/-- Where an operation stands on its die: waiting, data-in transfers left, the array operation with the time it started or last
resumed, its suspension under way or done, data-out codewords decoded so far (R422, R425, R426). -/
inductive FlashPhase where
  | queued
  | dataIn (left : Nat)
  | array (since : Nat)
  | suspending
  | suspended
  | dataOut (got : List (EccClass × Nat))
deriving DecidableEq, Repr

/-- An operation of a die: a packet's, or a restarted erase or a purge of the device's own. -/
structure FlashJob where
  /-- The packet it answers; none for an operation of the device, or once its packet is gone. -/
  ref    : Option Ref
  tenant : Byte
  kind   : FlashKind
  mode   : Nat := 0
  /-- First page address (R415), pages, and pages finished. -/
  page   : Nat
  count  : Nat := 1
  done   : Nat := 0
  /-- Order of acceptance and latest-service time (R422, R424). -/
  order  : Nat
  lst    : Nat
  /-- Arena range: handle and offset (R439). -/
  range  : Nat × Nat := (0, 0)
  /-- Arbitrated reads of its source that have not ended (R35). -/
  sources : Nat := 0
  phase  : FlashPhase := .queued
  /-- The page that a program's data-in has brought to its die. -/
  data   : List Byte := []
  /-- What the packet's result will say. -/
  tight  : Nat := 0
  loops  : Byte := 0
  status : W16 := 0
  compared : Nat := 0
  firstBad : Option Nat := none
  maxDiff : Nat := 0
  above  : Nat := 0
  total  : Nat := 0
  /-- Counts and classes of the codewords of a margin read's first part. -/
  part   : List (EccClass × Nat) := []
deriving DecidableEq, Repr

/-- The flash and the FLASH block. -/
structure FlashPart where
  /-- Blocks by page address div 512; a block with no entry is ERASED and unused. -/
  blocks : SMap FlashBlock := []
  /-- Programmed pages by page address. -/
  pages  : Assoc FlashPage := []
  /-- Operations of every die; channel × 2 + die is bits [26:22] of the page address. -/
  jobs   : List FlashJob := []
  /-- Pages whose program a reset interrupted, with what would have been stored (R428). -/
  interrupted : List (Nat × FlashPage) := []
  suspendCfg : W32 := 0x03E8_00C8
  bits   : Byte := 0x30
  ploops : BitVec 4 := 0xC
  eloops : BitVec 4 := 5
  corrCount : W32 := 0
  retryCount : W32 := 0
  uncorrCount : W32 := 0
  codecCount : W32 := 0
  suspendCount : W32 := 0
deriving DecidableEq, Repr

end Sys2Proof.Machine
end

