-- ==== Sys2Proof/Machine/StHost.lean ====
section
/-! DEFINITION. The state of the host port, the DEV block, command packets and the CMD block (02_command_protocol), as plain
data. Each field's default is its value at reset. -/

namespace Sys2Proof.Machine

/-- The fields of a packet header (R53). -/
structure Header where
  opcode   : W16
  tag      : W16
  tenant   : Byte
  flags    : Byte
  job      : W32
  len      : W32
  deadline : W64
deriving DecidableEq, Repr

/-- An accepted packet that has not completed (R58, R76). -/
structure Packet where
  chan    : Chan
  hdr     : Header
  /-- Header bytes 0 to 27: the additional data of R66 and R70. -/
  raw     : List Byte
  payload : List Byte
  /-- Place in the order of acceptance (R58). -/
  order   : Nat
  /-- The key the packet is verified under: the one in force at acceptance (R388, R396); empty when there is none. -/
  key     : List Byte
  /-- Role and credential of the session open on the channel at acceptance; 0 for none (R391, R396). -/
  role    : Byte
  cred    : List Byte
  /-- Acceptance time on the model's clock. -/
  at_     : Nat
  /-- Parsed and started: it has left the intake buffer (R59). -/
  started : Bool
  /-- Plaintext payload, once started. -/
  plain   : List Byte
  /-- Started and waiting for an extent, a transition or earlier work; the same command takes it up again. -/
  held    : Bool := false
  /-- The fabric pieces of its sources, address and length in order, once its stream engine has begun to read them, and the arbitrated
  transfers of it that have not ended (R216, R221, R243). -/
  reads   : Option (List (Nat × Nat)) := none
  left    : Nat := 0
  /-- Made by a schedule entry: its result is sealed with direction byte 0x02 (R328). -/
  sched   : Bool := false
deriving DecidableEq, Repr

/-- A queued completion record with its result (R71, R75). -/
structure Record where
  tag    : W16
  status : W16
  bound  : Bool
  result : List Byte
  wall   : W64
  /-- Queue time on the model's clock (R77). -/
  at_    : Nat
  opcode : W16
  tenant : Byte
deriving DecidableEq, Repr

/-- A reply sent on the management port or the receptacle (R397): the completion record and its result. -/
structure Reply where
  chan   : Chan
  record : Record
deriving DecidableEq, Repr

/-- What the last READ or READ_ID put on DQ (R43 to R45): bytes, or high impedance with an ignored transaction (R44). -/
inductive Dq where
  | none
  | data (bytes : List Byte)
  | highZ
deriving DecidableEq, Repr

/-- The xSPI port and the DEV block (R41 to R51, R87). -/
structure HostPort where
  /-- The preceding transaction was RESET_ENABLE (R47). -/
  resetEnabled : Bool := false
  dq           : Dq := .none
  /-- Shadow of the high word by the address of the 64-bit register (R15). -/
  shadow       : Assoc W32 := []
  /-- Held low word by the address of the 64-bit register (R15). -/
  heldLow      : Assoc W32 := []
  /-- DEV_FW_CP, DEV_FW_ONYX: zero until start-up sets them (R87). -/
  fwCp         : W32 := 0
  fwOnyx       : W32 := 0
  /-- DEV_STATE.DEVICE_ID (R27, R87). -/
  deviceId     : BitVec 12 := 0
  /-- DEV_EVENT, 12 flags (R87). -/
  event        : BitVec 12 := 0
  eventEn      : BitVec 12 := 0x200
  scratch      : W32 := 0
  /-- DEV_APERTURE_BASE (R51). -/
  apBase       : W64 := 0
  apEnable     : Bool := false
  apTenant     : Byte := 0
  /-- DEV_XSPI_CFG; bits [24], [23:16], [12:8], [1:0] are used (R87). -/
  xspiCfg      : W32 := 0x00A01401
  lateCount    : W16 := 0
  badInstr     : Bool := false
  late         : Bool := false
  /-- ALERT# is asserted, that is driven low (R77). -/
  alert        : Bool := false
deriving DecidableEq, Repr

/-- The last counter accepted under a key and the floor stored for it (R67, R513). -/
structure KeyCounter where
  key   : List Byte
  last  : Nat
  floor : Nat
deriving DecidableEq, Repr

/-- The command protocol and the CMD block (R58 to R88). -/
structure Cmd where
  /-- Accepted packets that have not completed, in order of acceptance. -/
  flight     : List Packet := []
  /-- Number of the next packet accepted. -/
  nextOrder  : Nat := 0
  /-- Records pending in the ring, oldest first; at most 2,048 (R72). -/
  ring       : List Record := []
  /-- Records held outside the ring, oldest first (R74). -/
  held       : List Record := []
  head       : BitVec 12 := 0
  tail       : BitVec 12 := 0
  unboundLost : Bool := false
  tailErr    : Bool := false
  reject     : Bool := false
  overrun    : Bool := false
  /-- CMD_ALERT_CTRL: HOLDOFF [17:8], COUNT [7:0]. -/
  alertCtrl  : W32 := 0x00000001
  resultSel  : W16 := 0
  acceptCount : W32 := 0
  rejectCount : W32 := 0
  overrunCount : W32 := 0
  authFailCount : W32 := 0
  lostCount  : W32 := 0
  errCause   : BitVec 4 := 0
  /-- CMD_ERR_HDR0 to CMD_ERR_HDR3. -/
  errHdr     : List Byte := []
  /-- Counters accepted per key (R67). -/
  counters   : List KeyCounter := []
  /-- RESET packets whose reset has not begun, oldest first: channel, tag and the time the record was queued (R85). -/
  resetPending : List (Ref × Nat) := []
  /-- Replies on the two other channels, oldest first (R397). -/
  replies    : List Reply := []
  /-- Meura packet under reassembly: bytes so far and source address and port (R398). -/
  meura      : Option (List Byte × W32 × W16 × Nat) := none
  /-- Source address and port of each management packet in flight, by its tag: where its reply goes (R398). -/
  mgmtPeer   : Assoc (W32 × W16) := []
  /-- Replies sent by ARP for SEC_MGMT_IPV4 (R398). -/
  arpReplies : Nat := 0
deriving DecidableEq, Repr

end Sys2Proof.Machine
end

