-- ==== Sys2Proof/Machine/StLink.lean ====
section
/-! DEFINITION. The state of the yarn links: ports, flits and replay, messages, routes and the pod (11_links_pods). -/

namespace Sys2Proof.Machine

/-- Port states with their codes (R371). -/
inductive PortState where
  | off | down | training | up | shed
deriving DecidableEq, Repr

/-- Training states (R341). -/
inductive TrainState where
  | detect | bitLock | blockLock | deskew | param
deriving DecidableEq, Repr

/-- A DATA flit that waits for a credit or for room in the replay buffer: virtual channel, the input port whose receive buffer it holds (none for
a flit of this device), bytes 12 to 251. -/
structure Waiting where
  vc   : Nat
  held : Option Nat
  body : List Byte
deriving DecidableEq, Repr

/-- A DATA flit that the peer has not acknowledged (R347), with the time it has waited from. -/
structure Replay where
  seq  : W16
  vc   : Nat
  body : List Byte
  at_  : Nat
deriving DecidableEq, Repr

/-- A yarn-link port (R339 to R348). -/
structure LinkPort where
  state   : PortState := .off
  cause   : BitVec 4 := 0
  lanes   : BitVec 4 := 0
  /-- LINK_Pn_CFG: 0 OFF, 1 POD, 2 TWIN, and the widest set allowed. -/
  mode    : BitVec 2 := 1
  maxWidth : BitVec 2 := 0
  train   : TrainState := .detect
  /-- Lanes still in the attempt, and when it began (R341). -/
  trying  : BitVec 4 := 0
  trainAt : Nat := 0
  /-- When BIT_LOCK was entered. -/
  bitAt   : Nat := 0
  /-- The parameters that this end sent in PARAM (R342). -/
  sentParams : Option PeerParams := none
  /-- The attempt is a retrain that keeps the replay buffer (R343). -/
  retrain : Bool := false
  /-- When a failure began: the next attempt comes 100 ms later (R341). -/
  failedAt : Option Nat := none
  peer    : Option PeerParams := none
  /-- Sequence number of the last DATA flit sent, and of the last accepted (R347). -/
  sent    : W16 := 0
  accepted : W16 := 0
  /-- Unacknowledged DATA flits, the oldest first (R347). -/
  replay  : List Replay := []
  /-- When the NAK of the present gap was sent (R347). -/
  nakAt   : Option Nat := none
  /-- Replays in a row without an advance of ack, and the times of recent replays (R348). -/
  replays : Nat := 0
  recent  : List Nat := []
  /-- Credits per virtual channel, the peer's cumulative freed counts as last seen, and our own (R346). -/
  credits : List Nat := [64, 64, 64, 64]
  peerFreed : List Nat := [0, 0, 0, 0]
  freed   : List Nat := [0, 0, 0, 0]
  /-- Flits that wait to be sent, the oldest first. -/
  waiting : List Waiting := []
  /-- The flits of the port's slots since it last received a flit, replayed or trained. -/
  wire    : List (List Byte) := []
  crcCount : W32 := 0
  replayCount : W32 := 0
  retrainCount : W32 := 0
deriving DecidableEq, Repr

/-- A message under reassembly (R349): source, message number, bytes 12 to 25 of its first flit, payload so far, next index. -/
structure Reasm where
  src   : BitVec 12
  msg   : W16
  head  : List Byte
  bytes : List Byte
  next  : Nat
  /-- Arrival of the first flit. -/
  at_   : Nat
deriving DecidableEq, Repr

/-- The replay window of a key and source (R352): the highest counter accepted and which of the 64 below it were seen. -/
structure Window where
  key  : List Byte
  src  : Nat
  top  : Nat
  seen : List Nat
deriving DecidableEq, Repr

/-- A message counter of a key, with its stored floor (R351). -/
structure MsgCounter where
  key   : List Byte
  last  : Nat
  floor : Nat
deriving DecidableEq, Repr

/-- What an outgoing message carries. The manual gives no byte layout of a content (R349, R494). -/
inductive OutBody where
  | epoch (job : W32) (ack : Bool)
  | work (first count : Nat) (dstep : Option Nat) (rows : List ShadowRows) (sites : List Int)
  | data (x : Activation)
  | result (xobs : List (Nat × Int)) (retired : List W16) (rows : List Activation) (status : W16)
  | partialRow (tile : Tile) (dest : W32) (row : List W32)
  | withdraw (tag : Option W16) (rows : List Nat)
  | migrate (seq : W16) (committed : Nat) (pages : List PageCopy)
  | control (c : Control)
  | knot (k : W16) (n : W32)
  | twin (c : TwinCtrl)
  | twinStep (seqs : List W16) (dStep : W64) (parked : List W16)
  | twinDigest (digests : List (Nat × List Byte))
  | twinFix (seq : W32) (digest : List Byte)
deriving DecidableEq, Repr

/-- The plaintext of a message: the manual gives a content no byte layout (R349, R494). -/
opaque Config.messageBytes : OutBody → List Byte

/-- A message this device has handed to a port (R349): kind code, destination, job, tenant, epoch, content. -/
structure OutMsg where
  kind   : Nat
  dest   : BitVec 12
  tenant : Byte
  job    : W32
  epoch  : W16
  body   : OutBody
deriving DecidableEq, Repr

/-- A message that passed the checks of R352 up to its tag and window: bytes 12 to 25 of its flits, and its plaintext. -/
structure InMsg where
  /-- It came over a TWIN port. -/
  twin  : Bool := false
  head  : List Byte
  plain : List Byte
deriving DecidableEq, Repr

/-- The links and the LINK block. -/
structure LinkPart where
  ports    : SMap LinkPort := []
  reasm    : List Reasm := []
  /-- Candidate ports by destination: a member's ID, or 0x800 + pod (R354). -/
  routes   : Assoc (List Nat) := []
  /-- Output port chosen for a message in transit: source, message, port (R355). -/
  transit  : List (BitVec 12 × W16 × Nat) := []
  windows  : List Window := []
  counters : List MsgCounter := []
  /-- Messages sent, the oldest first, and the number of the next. -/
  outbox   : List OutMsg := []
  nextMsg  : W16 := 0
  inbox    : List InMsg := []
  staleCount : W32 := 0
  tagFailCount : W32 := 0
  dropCount : W32 := 0
  manager  : Bool := true
  pod      : BitVec 5 := 0
  member   : BitVec 6 := 0
  /-- The manager's picture of the pod: device, port and neighbour of every UP port reported (R354). -/
  topo     : List (Nat × Nat × Nat) := []
  /-- Devices reported lost and not heard of since (R367). -/
  lost     : List (BitVec 12) := []
deriving DecidableEq, Repr

end Sys2Proof.Machine
end

