-- ==== Sys2Proof/Machine/Numeric.lean ====
section
/-! DEFINITION. Number formats (03_numeric_formats): exact dyadic arithmetic, the five rounding modes, BF16, FP32, GS16, FX16,
integer saturation and weight-code packing. -/

namespace Sys2Proof.Machine

/-! ### Rounding (R90) -/

/-- The rounding modes with their codes (R90); codes 5 to 7 are reserved. -/
inductive Rnd where
  | rne | rna | rtz | rdn | rup
deriving DecidableEq, Repr

def rndOf : Nat → Option Rnd
  | 0 => some .rne
  | 1 => some .rna
  | 2 => some .rtz
  | 3 => some .rdn
  | 4 => some .rup
  | _ => none

/-- Round the real number n/d (d positive) to an integer by a mode (R90). -/
def roundRatio (mode : Rnd) (n : Int) (d : Nat) : Int :=
  let f := n.fdiv d
  let r := n.fmod d
  match mode with
  | .rdn => f
  | .rup => if r = 0 then f else f + 1
  | .rtz => if n < 0 ∧ r ≠ 0 then f + 1 else f
  | .rne => if 2 * r < d then f else if 2 * r > d then f + 1 else if f % 2 = 0 then f else f + 1
  | .rna => if 2 * r < d then f else if 2 * r > d then f + 1 else if n < 0 then f else f + 1

/-! ### Exact dyadic numbers -/

/-- The number m × 2^e. -/
structure Dy where
  m : Int
  e : Int
deriving DecidableEq, Repr

namespace Dy

def zero : Dy := ⟨0, 0⟩
def ofInt (i : Int) : Dy := ⟨i, 0⟩
def isZero (x : Dy) : Bool := x.m == 0

/-- The mantissa of a number written with a smaller exponent `e`. -/
def at_ (x : Dy) (e : Int) : Int := x.m * 2 ^ (x.e - e).toNat

def add (x y : Dy) : Dy := let e := min x.e y.e; ⟨x.at_ e + y.at_ e, e⟩
def neg (x : Dy) : Dy := ⟨-x.m, x.e⟩
def sub (x y : Dy) : Dy := add x (neg y)
def mul (x y : Dy) : Dy := ⟨x.m * y.m, x.e + y.e⟩
def abs (x : Dy) : Dy := ⟨x.m.natAbs, x.e⟩
/-- x × 2^k. -/
def scale (x : Dy) (k : Int) : Dy := ⟨x.m, x.e + k⟩
def lt (x y : Dy) : Bool := let e := min x.e y.e; decide (x.at_ e < y.at_ e)
def eq (x y : Dy) : Bool := let e := min x.e y.e; decide (x.at_ e = y.at_ e)
def isNeg (x : Dy) : Bool := decide (x.m < 0)

/-- Round x / 2^k to an integer. -/
def round (mode : Rnd) (x : Dy) (k : Int) : Int :=
  if k ≤ x.e then x.at_ k else roundRatio mode x.m (2 ^ (k - x.e).toNat)

/-- The greatest L with 2^L ≤ |x|, for x ≠ 0. -/
def log2 (x : Dy) : Int := (x.m.natAbs.log2 : Int) + x.e

end Dy

/-! ### BF16 and FP32 (R93, R94) -/

/-- A floating-point value: the sign of a zero is kept. -/
inductive Fp where
  | nan
  | inf (neg : Bool)
  | fin (neg : Bool) (mag : Dy)
deriving DecidableEq, Repr

/-- The fraction width and total width of a format; both have 8 exponent bits with bias 127 (R93). -/
structure FpFmt where
  fb    : Nat
  width : Nat
deriving DecidableEq, Repr

def bf16 : FpFmt := ⟨7, 16⟩
def fp32 : FpFmt := ⟨23, 32⟩

/-- Read a pattern; a subnormal reads as a zero of its sign (R94). -/
def fpDecode (f : FpFmt) (v : Nat) : Fp :=
  let neg := bitOf v (f.width - 1)
  let ex := bitsOf v f.fb 8
  let fr := bitsOf v 0 f.fb
  if ex = 255 then (if fr = 0 then .inf neg else .nan)
  else if ex = 0 then .fin neg Dy.zero
  else .fin neg ⟨2 ^ f.fb + fr, (ex : Int) - 127 - f.fb⟩

/-- The NaN the device writes (R94). -/
def fpNan (f : FpFmt) : Nat := 255 * 2 ^ f.fb + 2 ^ (f.fb - 1)
def fpInf (f : FpFmt) (neg : Bool) : Nat := (if neg then 2 ^ (f.width - 1) else 0) + 255 * 2 ^ f.fb
def fpZero (f : FpFmt) (neg : Bool) : Nat := if neg then 2 ^ (f.width - 1) else 0

/-- Write a value rounded once in a mode; the flag tells of a magnitude beyond the largest finite value (R94, R118). -/
def fpEncode (f : FpFmt) (mode : Rnd) (v : Fp) : Nat × Bool :=
  match v with
  | .nan => (fpNan f, false)
  | .inf neg => (fpInf f neg, false)
  | .fin neg mag =>
    if mag.isZero then (fpZero f neg, false)
    else
      let e := max mag.log2 (-126)
      let q := (Dy.round mode (if neg then mag.neg else mag) (e - f.fb)).natAbs
      if q < 2 ^ f.fb then (fpZero f neg, false)
      else
        let (q, e) := if q = 2 ^ (f.fb + 1) then (2 ^ f.fb, e + 1) else (q, e)
        if e > 127 then
          let toInf := match mode with
            | .rne | .rna => true
            | .rtz => false
            | .rdn => neg
            | .rup => !neg
          (if toInf then fpInf f neg else fpZero f neg + 254 * 2 ^ f.fb + (2 ^ f.fb - 1), true)
        else (fpZero f neg + (e + 127).toNat * 2 ^ f.fb + (q - 2 ^ f.fb), false)

/-- A signed dyadic as a floating value; `negZero` is the sign of a zero. -/
def fpOf (x : Dy) (negZero : Bool := false) : Fp :=
  if x.isZero then .fin negZero Dy.zero else .fin x.isNeg x.abs

/-- The signed value of a finite floating value; zero for others. -/
def fpVal : Fp → Dy
  | .fin neg mag => if neg then mag.neg else mag
  | _ => Dy.zero

/-! ### Saturation and integers (R92, R95) -/

def clampInt (lo hi x : Int) : Int := if x < lo then lo else if x > hi then hi else x

/-- Saturate to an n-bit two's-complement integer; the flag tells of a saturation. -/
def satInt (n : Nat) (x : Int) : Int × Bool :=
  let lo : Int := -(2 ^ (n - 1) : Nat); let hi : Int := (2 ^ (n - 1) : Nat) - 1
  (clampInt lo hi x, decide (x < lo) || decide (x > hi))

/-- Numeric events of R118: FX16 overflows of elements, other saturations, invalid inputs. Rows are counted by their writer. -/
structure NumEv where
  rows : Nat := 0
  ovf  : Nat := 0
  sat  : Nat := 0
  inv  : Nat := 0
deriving DecidableEq, Repr

def NumEv.add (a b : NumEv) : NumEv := ⟨a.rows + b.rows, a.ovf + b.ovf, a.sat + b.sat, a.inv + b.inv⟩
def evSat (b : Bool) : NumEv := { sat := if b then 1 else 0 }
def evInv : NumEv := { inv := 1 }

/-- A floating value into an n-bit integer path (R95). -/
def intOfFp (n : Nat) (mode : Rnd) : Fp → Int × NumEv
  | .nan => (0, evInv)
  | .inf neg => (if neg then -(2 ^ (n - 1) : Nat) else (2 ^ (n - 1) : Nat) - 1, { sat := 1 })
  | .fin neg mag =>
    let (v, s) := satInt n (Dy.round mode (if neg then mag.neg else mag) 0)
    (v, evSat s)

/-! ### GS16 (R99 to R101) -/

/-- The value of a GS16 code (R100). -/
def gsValue (c : Nat) : Dy :=
  let e := signedOf 6 (bitsOf c 10 6)
  if e = -32 then Dy.zero else ⟨1024 + bitsOf c 0 10, e - 10⟩

/-- Round the positive real n/d to GS16 (R101); the flag tells of a saturation. -/
def gsRound (n d : Nat) : Nat × Bool :=
  -- 2^e ≤ n/d < 2^(e+1)
  let e0 : Int := (n.log2 : Int) - d.log2
  let ge (k : Int) : Bool := if 0 ≤ k then decide (d * 2 ^ k.toNat ≤ n) else decide (d ≤ n * 2 ^ (-k).toNat)
  let e := if ge e0 then e0 else e0 - 1
  if n = 0 ∨ ¬ ge (-31) then (0x8400, true)
  else
    let sh := 10 - e
    let m := roundRatio .rne (if 0 ≤ sh then n * 2 ^ sh.toNat else n) (if 0 ≤ sh then d else d * 2 ^ (-sh).toNat)
    let (m, e) := if m = 2048 then (1024, e + 1) else (m, e)
    if e > 31 then (0x7FFF, true) else (patternOf 6 e * 1024 + (m - 1024).toNat, false)

/-! ### FX16 (R109 to R112, R560) -/

/-- The needed exponent of a finite real value (R111): the least X whose rounded mantissa fits, 127 where none does. -/
def fxNeeded (mode : Rnd) (v : Dy) : Int :=
  if v.isZero then -128
  else
    let x0 := max (-128) (v.log2 + 1)
    if (Dy.round mode v (x0 - 15)).natAbs ≤ 32767 then min 127 x0 else min 127 (x0 + 1)

/-- A mantissa of a finite value at exponent X (R111); the flag tells of an overflow. -/
def fxEncode (mode : Rnd) (v : Dy) (x : Int) : Int × Bool :=
  let r := Dy.round mode v (x - 15)
  if r > 32767 then (32767, true) else if r < -32767 then (-32767, true) else (r, false)

/-- A mantissa of any floating value at exponent X, with its events (R111, R118, R560). -/
def fxOfFp (mode : Rnd) (v : Fp) (x : Int) : Int × NumEv :=
  match v with
  | .nan => (0, evInv)
  | .inf neg => (if neg then -32767 else 32767, { sat := 1 })
  | .fin neg mag =>
    let (m, o) := fxEncode mode (if neg then mag.neg else mag) x
    -- at 127 no larger exponent exists: the element saturates and does not overflow its row (R111)
    (m, if o then (if x ≥ 127 then { sat := 1 } else { ovf := 1 }) else {})

/-- The exponent a value needs; a non-finite value has none (R560). -/
def fxNeededFp (mode : Rnd) : Fp → Option Int
  | .fin neg mag => some (fxNeeded mode (if neg then mag.neg else mag))
  | _ => none

/-- The value of a mantissa pattern under exponent X (R109). -/
def fxValue (pat : Nat) (x : Int) : Dy := ⟨signedOf 16 pat, x - 15⟩

def maxOpt : Option Int → Option Int → Option Int
  | none, b => b
  | a, none => a
  | some a, some b => some (max a b)

/-- The exponent the device chooses for a whole row: the largest needed one, −128 for a row of zeros and non-finites (R112, R560). -/
def fxRowExponent (mode : Rnd) (row : List Fp) : Int := ((row.map (fxNeededFp mode)).foldl maxOpt none).getD (-128)

/-! ### Weight codes (R96) -/

/-- Code k of a packed row; the width is 4, 6 or 8 bits. -/
def weightCode (bits : Nat) (row : List Byte) (k : Nat) : Int :=
  if bits = 4 then signedOf 4 (bitsOf (byteAt row (k / 2)).toNat (4 * (k % 2)) 4)
  else if bits = 6 then signedOf 6 (bitsOf (field row (3 * (k / 4)) 3) (6 * (k % 4)) 6)
  else signedOf 8 (byteAt row k).toNat

/-- Pack a row of codes. -/
def packCodes (bits : Nat) : Nat → List Int → List Byte
  | 0, _ => []
  | fuel + 1, cs =>
    match cs with
    | [] => []
    | _ =>
      if bits = 4 then
        leBytes 1 (patternOf 4 (cs.getD 0 0) + 16 * patternOf 4 (cs.getD 1 0)) ++ packCodes bits fuel (cs.drop 2)
      else if bits = 6 then
        leBytes 3 (((List.range 4).map fun j => patternOf 6 (cs.getD j 0) * 2 ^ (6 * j)).foldl (· + ·) 0) ++ packCodes bits fuel (cs.drop 4)
      else leBytes 1 (patternOf 8 (cs.getD 0 0)) ++ packCodes bits fuel (cs.drop 1)

/-! ### Site update (R113, R115) -/

/-- One entry of a job's site table (R113). -/
structure Site where
  x     : Int
  h     : Nat
  quiet : Nat
deriving DecidableEq, Repr

/-- The update of a site that drained with the largest needed exponent `xobs` (R115). -/
def siteUpdate (s : Site) (xobs : Int) : Site :=
  if xobs + s.h > s.x then { s with x := min 127 (xobs + s.h), quiet := 0 }
  else if xobs + s.h ≤ s.x - 2 then
    if s.quiet + 1 = 1024 then { s with x := s.x - 1, quiet := 0 } else { s with quiet := s.quiet + 1 }
  else { s with quiet := 0 }

/-! ### FX16 tensors in memory (R110) -/

/-- Offset of the exponent plane of an FX16 tensor from its first byte: the 64-byte boundary after the mantissa plane. -/
def fxExpAt (rows rowBytes : Nat) : Nat := roundUp (rows * rowBytes) 64

/-- Bytes of an FX16 tensor: mantissas, and one exponent byte per row padded to a 64-byte boundary. -/
def fxTensorLen (rows rowBytes : Nat) : Nat := fxExpAt rows rowBytes + roundUp rows 64

/-! ### The scale search of CONVERT (R119 to R122) -/

/-- qmax of a weight format (R121). -/
def qmax (bits : Nat) : Int := if bits = 4 then 7 else if bits = 6 then 31 else 127

/-- round_half_even(w / s) for a positive scale s; zero under a zero scale (R121, R122). -/
def quantRaw (w s : Dy) : Int :=
  -- w/s = (w.m / s.m) × 2^(w.e − s.e)
  let k := w.e - s.e
  let n := if 0 ≤ k then w.m * 2 ^ k.toNat else w.m
  let d := if 0 ≤ k then s.m.natAbs else s.m.natAbs * 2 ^ (-k).toNat
  if d = 0 then 0 else roundRatio .rne n d

/-- The code of a weight under a scale, clamped to ±q (R121, R122). -/
def quantCode (q : Int) (w s : Dy) : Int := clampInt (-q) q (quantRaw w s)

/-- The squared error of a group under a candidate scale (R121). -/
def scaleError (q : Int) (ws : List Dy) (s : Dy) : Dy :=
  ws.foldl (fun acc w => let dlt := w.sub (s.mul (.ofInt (quantCode q w s))); acc.add (dlt.mul dlt)) Dy.zero

/-- Candidate scale c of a group whose largest magnitude is a (R121). -/
def candidateScale (q : Int) (a : Dy) (c : Nat) : Nat × Bool :=
  let n := a.m.natAbs * (32 - c)
  let d := 32 * q.toNat
  if 0 ≤ a.e then gsRound (n * 2 ^ a.e.toNat) d else gsRound n (d * 2 ^ (-a.e).toNat)

/-- The group's scale: the least error, ties to the smaller c (R121). The flag tells of a saturated scale. DESIGN CHOICE: R101 counts
saturations, and of a search only those of the scale chosen count, neither a rejected candidate's nor the clamps of the search. -/
def groupScale (bits : Nat) (search : Bool) (ws : List Dy) : Nat × Bool :=
  let q := qmax bits
  let a := ws.foldl (fun acc w => if acc.lt w.abs then w.abs else acc) Dy.zero
  if a.isZero then (0x8000, false)
  else
    let pick := (List.range (if search then 16 else 1)).foldl (fun (best : Option (Nat × Bool × Dy)) c =>
      let (s, f) := candidateScale q a c
      let err := scaleError q ws (gsValue s)
      match best with
      | none => some (s, f, err)
      | some (_, _, e) => if err.lt e then some (s, f, err) else best) none
    match pick with
    | some (s, f, _) => (s, f)
    | none => (0x8000, false)

end Sys2Proof.Machine
end

