-- ==== Sys2Proof/Config.lean ====
section
/-! DEFINITION. What the manual leaves open: free values without a body, and what one implementation or one image fixes. A claim
that mentions one of them holds whatever its value is. -/

namespace Sys2Proof

open Sys2Proof.Machine

/-! ### Free values, drawn in turn by the model's own counter (log entry 2) -/

/-- A bit the manual leaves open: a READ below its bound late or not (R45), an unstated outcome. -/
opaque Config.freeBit : Nat → Bool
/-- A byte the manual leaves open; also the output of Onyx's random source (R379). -/
opaque Config.freeByte : Nat → Byte
/-- A 32-bit value the manual leaves open: a lane register at the start of a run (R170). -/
opaque Config.freeWord : Nat → W32
/-- A count or a time the manual leaves open. -/
opaque Config.freeNat : Nat → Nat

/-! ### What Xiwafen fixes at test (R403, R435, R436, R563) -/

/-- The private half of Onyx's identity key, 57 bytes (R403). -/
opaque Config.identityKey : List Byte
/-- Xiwafen's manufacturing public key and its signature over bytes 0 to 151 of the certificate (R563). -/
opaque Config.mfgPublic : List Byte
opaque Config.mfgSignature : List Byte
/-- The maker credential of slot 0, whose digest the OTP row fixes (R391, R436). -/
opaque Config.makerKey : List Byte
/-- Digests of the running firmware images (R404). -/
opaque Config.onyxDigest : List Byte
opaque Config.cpDigest : List Byte
/-- The device ID code that IDCODE shifts out and the boundary register that SAMPLE/PRELOAD captures (R503). -/
opaque Config.boundary : List Byte

/-- The 4 check bytes of a data block (R448), from its channel, its row slot and its 64 bytes: the manual gives the code's distance and not its
generator. -/
opaque Config.checkBytes : Nat → Nat → List Byte → List Byte

/-! ### Delays that no rule gives a number -/

/-- Whole steps by which the fixed bank schedule of R150 delays a pass, whose mapping of banks no rule gives: from the passes still running,
each as its descriptor, its weight formats and the cycles since it issued, and from the pass's own descriptor and formats. -/
opaque Config.bankDelay : List (List Byte × List Nat × Nat) → List Byte → List Nat → Nat
/-- The frequency that the PLL law gives at an edge (R324): from the bandwidth code, the interval in ns, the old frequency and the
phase error. -/
opaque Config.pllFrequency : Nat → Nat → Nat → Int → Nat
/-- The phase correction of the same law, in units of 2^−16 cycle. -/
opaque Config.pllPhase : Nat → Nat → Nat → Int → Int
/-- How far above the lowest rate that removes an offset in ns within a second the PPS discipline slews (R325). -/
opaque Config.ppsSlew : Int → Nat

/-- How far beyond the counters near its window a receiver looks for the counter of a message (R351, R352): the manual gives the
counter no place in a flit. -/
opaque Config.counterAhead : List Byte → List Byte → Nat

/-- The route table that a manager builds for a device from the pod's topology (R354): up*/down* order, up to two candidate ports. -/
opaque Config.routeTable : List (Nat × Nat × Nat) → Nat → List (Nat × List Nat)

/-! ### What a skein's sections say (R239, R240): Trafy's formats are not in the manual -/

/-- A piece of a decoded weight block that a window fetch places in a tile store (R206, R226). -/
structure FetchItem where
  /-- Image offset of the weight container. -/
  container : Nat
  /-- Decoded block. -/
  block : Nat
  /-- First decoded byte of the block to place, and how many. -/
  skip  : Nat
  take  : Nat
  /-- Tile-store offset of the first byte placed. -/
  dest  : Nat
deriving DecidableEq, Repr

/-- A layer of a stream plan (R206, R209, R212). -/
structure LayerPlan where
  a : Nat
  b : Nat
  skippable : Bool
  residual  : Bool
  writesKv  : Bool
  /-- The layer's output site in a tile store (R497): offset, row stride, row bytes, offset of the exponent bytes. -/
  outAt     : Nat × Nat × Nat × Nat
  /-- Fetches per tile ordinal. -/
  fetch : List (List FetchItem)
deriving DecidableEq, Repr

/-- Rows of a tensor in a tile's store: the tile's ordinal, the offset of step row 0, the row stride, and the offset of the row exponents. -/
structure Region where
  tile   : Nat
  at_    : Nat
  stride : Nat
  exps   : Nat := 0
deriving DecidableEq, Repr

/-- A query head of an attention layer: the KV head that it reads, where its query rows lie, and where its output rows go (R267, R272). -/
structure AttnHead where
  kv  : Nat
  q   : Region
  out : Region
deriving DecidableEq, Repr

/-- Where a walk works in the store of each of its tiles (R265 to R268): query rows and their exponents, K tiles and V tiles of a chunk,
scores, e rows and their exponents, partial rows, the two program images, the lists, and on a home tile the partials that arrive. -/
structure WalkArea where
  q     : Nat := 0
  qExp  : Nat := 0
  k     : Nat := 0
  v     : Nat := 0
  score : Nat := 0
  e     : Nat := 0
  eExp  : Nat := 0
  part  : Nat := 0
  prog  : Nat := 0
  lists : Nat := 0
  home  : Nat := 0
deriving DecidableEq, Repr

/-- An attention layer of the serving metadata (R245, R269), with what the plan gives its walks (R270, R271): the tile ordinals, the rows
that its K and V projections drain by group, their CALIBRATED sites, and the query heads. -/
structure AttnLayer where
  layer  : Nat
  d      : Nat
  groups : Nat
  width  : Nat
  mode   : Nat
  causal : Bool
  window : Nat
  tiles  : List Nat := []
  kRows  : List Region := []
  vRows  : List Region := []
  kSite  : Nat := 0
  vSite  : Nat := 0
  heads  : List AttnHead := []
  area   : WalkArea := {}
deriving DecidableEq, Repr

/-- An ATOMIC site of the plan (R214). -/
structure AtomicSite where
  site  : Nat
  /-- Tile ordinals of the home tile and of the contributors. -/
  home  : Nat
  parts : List Nat
  /-- Destination region of FP32 rows in the home tile's store: offset, row bytes, rows. -/
  dest  : Nat
  rowBytes : Nat
  rows  : Nat
  knot  : Nat
  /-- Partial rows expected for each destination row. -/
  expected : Nat
  /-- The drain type the plan names for it (R89). -/
  drain : Nat
  /-- The main layer on whose device the home tile lies, in a pod (R215). -/
  homeLayer : Nat := 0
deriving DecidableEq, Repr

/-- What a skein's sections say, as far as the device's own behaviour uses it. -/
structure Plan where
  tiles   : Nat
  /-- Window capacity per tile ordinal (R206) and the bytes of working rows per token row (R275). -/
  window  : List Nat
  rowBytes : Nat
  layers  : List LayerPlan
  /-- Where the input rows of layer 0 lie in a tile store, as `LayerPlan.outAt` has it. -/
  inAt    : Nat × Nat × Nat × Nat := (0, 0, 0, 0)
  /-- Calibration values of the CALIBRATED sites (R113). -/
  sites   : List Site
  atomics : List AtomicSite
  attn    : List AttnLayer
  /-- Row sizes of the skein's input and output in bytes (R281, R302). -/
  inRow   : Nat
  /-- The input type is FX16, whose row exponents lie in a plane behind the rows (R110). -/
  inFx    : Bool := false
  outRow  : Nat
  /-- Stream-codec modes that the plan names (R240). -/
  modes   : List Nat
  /-- The mode that it names for activations on links (R234, R237). -/
  linkMode : Nat := 0
  /-- Image offsets of the array-ready tile headers it names (R240). -/
  tileHdrs : List Nat
  /-- Layers an adapter names in its base (R275). -/
  adapterLayers : List Nat
  /-- Templates of pass and vector descriptors: image offsets (R240). -/
  passTpl : List Nat
  vecTpl  : List Nat
  /-- Image offsets of the weight containers (R226). -/
  containers : List Nat
  /-- Image offset of the field behind a plan that breaks R206, R212 or R214. -/
  planAt  : Nat
deriving DecidableEq, Repr, Inhabited

/-- The plan that an image's sections spell. -/
opaque Config.skeinPlan : List Byte → Plan


end Sys2Proof
end

