-- ==== Sys2Proof/Machine/StMem.lean ====
section
/-! DEFINITION. The state of the memory tiers, the arbiters, the weight windows and the mounted skeins (06_memory_tiers,
07_compression). -/

namespace Sys2Proof.Machine

/-- The states of an extent with their codes (R195). -/
inductive ExtState where
  | free | d | ds | s | h | promoting | evicting | outbound | inbound
deriving DecidableEq, Repr

/-- An extent of a buffer (R190, R195). -/
structure Extent where
  size  : Nat
  state : ExtState
  /-- Fabric address of the DRAM home. -/
  home  : Option Nat
  /-- Fabric address of the SRAM copy. -/
  copy  : Option Nat
  /-- Tile of the SRAM copy, 0xFE for the commons, 0xFF for none (R223). -/
  place : Byte
  /-- Dirty 4 KiB blocks of the copy, rising (R198). -/
  dirty : List Nat
  opened : Bool
  /-- Last stream-engine access, on the model's clock (R197). -/
  used  : Nat
deriving DecidableEq, Repr

/-- A buffer of an arena (R188 to R193). -/
structure Buffer where
  gen      : Nat
  size     : Nat
  extSize  : Nat
  /-- Placement flag 0 to 3 (R193). -/
  flag     : Nat
  affinity : Byte
  extents  : List Extent
  /-- Order of allocation (R197). -/
  order    : Nat
deriving DecidableEq, Repr

/-- A partition's arena (R188, R224). -/
structure Arena where
  bufs     : Assoc Buffer := []
  /-- Generation of each slot's next buffer; 1 where nothing is listed (R188). -/
  gens     : SMap Nat := []
  /-- First slot that no buffer has had yet, and the freed slots, the least recently freed first (R188). -/
  fresh    : Nat := 0
  freed    : List Nat := []
  order    : Nat := 0
  misses   : W32 := 0
  parks    : W32 := 0
  skips    : W32 := 0
  evictions : W32 := 0
  promotions : W32 := 0
  hostHeld : W32 := 0
deriving DecidableEq, Repr

/-- A work unit that a host-tier extent can hold (R202): a packet's operation, a request of a job, a window slot's fetch, a step with a spill
extent. -/
inductive Holder where
  | packet (r : Ref)
  | request (r : Ref)
  | window (serial : Nat)
  | step (serial : Nat)
deriving DecidableEq, Repr

/-- Extents of a buffer that hold a work unit. -/
structure HostHold where
  who     : Holder
  tenant  : Nat
  slot    : Nat
  extents : List Nat
deriving DecidableEq, Repr

/-- What an arbitrated transfer carries (R219): a piece of DRAM, at an address and with a length, or a codeword of a flash die. -/
inductive Load_ where
  /-- A piece of a block of a window fetch: the slot's serial number, the block of the slot, the piece of the block. -/
  | window (serial block piece : Nat)
  /-- A burst of MEM_COPY (R221): its packet, and where in the destination buffer it goes. -/
  | copy (ref : Ref) (slot off : Nat)
  /-- A source read of CONVERT or WPACK (R243). -/
  | source (ref : Ref)
  /-- A source read of FLASH_PROGRAM or FLASH_VERIFY (R35): the flash operation's order. -/
  | flashSource (order : Nat)
  /-- A block that the copier of a promotion reads (R199): slot, generation, extent and block. -/
  | promote (slot gen ext block : Nat)
  /-- A read of a step: cache pages of a walk, or a spill extent (R35, R266): the step's serial number. -/
  | step (serial : Nat)
  /-- A codeword between a flash die and the controller (R422). -/
  | flash (die : Nat)
deriving DecidableEq, Repr

/-- A transfer at an arbitration point (R216, R218). -/
structure ArbReq where
  who    : Nat
  lst    : Nat
  tenant : Byte
  job    : W32
  load   : Load_
  /-- The fabric range that it reads; none for a codeword. -/
  addr   : Nat := 0
  len    : Nat := 0
deriving DecidableEq, Repr

/-- An arbitration point: DRAM channel c is 0 to 31, flash channel c is 32 + c (R37, R216). -/
structure ArbPoint where
  owner    : Option ArbReq := none
  /-- Transfers that requesters have to make here, in the order in which each requester makes them among those of equal latest-service
  time. The request that a requester holds raised is for the nearest of its own (R216 rule 6). -/
  waiting  : List ArbReq := []
  grants   : W32 := 0
  preempts : W32 := 0
deriving DecidableEq, Repr

/-- A block of a window fetch: its skein, what it places, the image offset of its stored bytes, and the pieces of them in order, address and
length, each with the bytes that its transfer has brought. -/
structure BlockFetch where
  skein : Nat
  item  : FetchItem
  off   : Nat
  parts : List (Nat × Nat × Option (List Byte))
deriving DecidableEq, Repr

/-- A window slot of a layer on a tile (R206, R208). -/
structure WinSlot where
  serial : Nat
  tenant : Byte
  job    : W32
  tile   : Nat
  layer  : Nat
  /-- Bursts not yet done. -/
  left   : Nat
  /-- A host-tier extent holds the fetch (R202). -/
  onHost : Bool
  blocks : List BlockFetch := []
deriving DecidableEq, Repr

/-- A mounted skein (R240, R242). -/
structure Skein where
  tenant   : Byte
  handle   : W32
  off      : Nat
  length   : Nat
  sections : Nat
  digest   : List Byte
  adapter  : Bool
  base     : List Byte
  plan     : Plan
  /-- Tenants it is shared with: bit n − 1 for tenant n (R276). -/
  shared   : Byte
deriving DecidableEq, Repr

/-- A partial row of an ATOMIC tensor on its way over the mesh to the home tile (R214): the job, the serial number of its step, the home
tile, the destination row's offset there, and the row. -/
structure PartialRow where
  tenant : Byte
  job    : W32
  serial : Nat
  tile   : Nat
  dest   : Nat
  row    : List W32
deriving DecidableEq, Repr

/-- The memory tiers and the MEM block. -/
structure MemTiers where
  /-- Arenas by tenant. -/
  arenas    : Assoc Arena := []
  margin    : W16 := 0x0014
  denied    : Bool := false
  denyCount : W32 := 0
  arbSel    : BitVec 6 := 0
  arb       : SMap ArbPoint := []
  missCount : W32 := 0
  skipCount : W32 := 0
  /-- Storage being scrubbed: fabric ranges (R194). -/
  scrubbing : List (Nat × Nat) := []
  windows   : List WinSlot := []
  /-- Number of the next window slot or step. -/
  serial    : Nat := 0
  /-- Work units that host-tier extents hold (R202). -/
  holds     : List HostHold := []
  /-- Partial rows on the mesh, oldest first (R214). -/
  partials  : List PartialRow := []
  /-- Mounted skeins by ID (R240). -/
  skeins    : Assoc Skein := []
deriving DecidableEq, Repr

end Sys2Proof.Machine
end

