-- ==== Sys2Proof/Machine/StPanel.lean ====
section
/-! DEFINITION. The state of the faceplate and the service receptacle (18_module_hardware R545 to R556). The key switch is with the
roles, since R393 acts on it. -/

namespace Sys2Proof.Machine

/-- The faceplate and the PANEL block. -/
structure PanelPart where
  /-- PANEL_CFG.LEVEL. -/
  level    : BitVec 4 := 0xA
  /-- Bead latches, bit n for bead n (R550), and the beads that failed the last check (R548). -/
  latches  : Byte := 0
  beadFail : Byte := 0
  /-- PANEL_PRESS: presses recorded, kind and button of the last. -/
  presses  : W16 := 0
  kind     : BitVec 2 := 0
  button   : BitVec 2 := 0
  /-- The receptacle is attached, and at high speed (R551, R552). -/
  usb      : Bool := false
  usbHs    : Bool := false
  /-- When the locate pattern, the lamp test, and bead 0's red FAST after a refused Nap began (R548). -/
  locate   : Option Nat := none
  lamp     : Option Nat := none
  refused  : Option Nat := none
  /-- When bead 3 last flashed for a fallback answer (R549, R550). -/
  pulse    : Option Nat := none
deriving DecidableEq, Repr

end Sys2Proof.Machine
end

