-- ==== Sys2Proof/Machine/StPlane.lean ====
section
/-! DEFINITION. The state of the Fixed plane, the Gauge and the knots (10_fixed_plane_gauge). -/

namespace Sys2Proof.Machine

/-- The fallback output in effect: 256 bytes and the answer cycle A (R311, R317). -/
structure Fallback where
  bytes : List Byte
  cycle : Nat
deriving DecidableEq, Repr

/-- A run in progress (R315). -/
structure FixRun where
  number  : W32
  /-- Reasons fixed at cycle 1; the normal path has none (R317). -/
  reasons : Byte
  wall    : Nat
  /-- The buffer consumed and its sequence, on the normal path (R316). -/
  frame   : Option (Nat × W32)
  /-- Model time of cycle 0. -/
  at_     : Nat
  /-- The run's own fallback and answer cycle: those in effect at its trigger (R311). -/
  fb      : Fallback
  /-- End of the clash window, in quarters of a nanosecond (R316). -/
  clashTo : Nat
deriving DecidableEq, Repr

/-- What a committed buffer carries: sequence, length, order of commit (R316). -/
structure FrameCommit where
  seq   : W32
  len   : W32
  order : Nat
deriving DecidableEq, Repr

/-- A bus move (R308): first plan cycle, from a tile store to the answer or else from the frame to a tile store, tile ordinal, blocks of 64
bytes, window offset, tile-store offset. -/
structure BusMove where
  start  : Nat
  out    : Bool
  tile   : Nat
  blocks : Nat
  win    : Nat
  store  : Nat
deriving DecidableEq, Repr

/-- The bus plan of the run in progress: what the moves have yet to carry, the frame of L_in bytes, and the blocks carried to the answer with
their plan cycles and window offsets (R308, R315). -/
structure PlanRun where
  moves : List BusMove
  frame : List Byte
  outs  : List (Nat × Nat × List Byte) := []
deriving DecidableEq, Repr

/-- What Onyx keeps of the Fixed plane across a device-wide reset (R518). -/
structure FixSaved where
  mask     : W32 := 0
  image    : Option (List Byte) := none
  fallback : Option Fallback := none
  bound    : BitVec 7 := 0
  armed    : Bool := false
deriving DecidableEq, Repr

/-- The Fixed plane, its windows and the FIX block. -/
structure FixPart where
  mask     : W32 := 0
  armed    : Bool := false
  /-- A load in progress: the image bytes received so far (R311). -/
  loading  : Option (List Byte) := none
  /-- The loaded image; none before the first load, after a failed one, and after a release. -/
  image    : Option (List Byte) := none
  digest   : List Byte := []
  fallback : Option Fallback := none
  /-- A new fallback that takes effect after the answer cycle of the run in progress (R311). -/
  nextFb   : Option Fallback := none
  bound    : BitVec 7 := 0
  /-- The 64 KiB input window as written. -/
  window   : Mem := []
  commit0  : Option FrameCommit := none
  commit1  : Option FrameCommit := none
  /-- Bytes of each commit word written since it was last complete. -/
  part0    : Byte := 0
  part1    : Byte := 0
  commits  : Nat := 0
  lastSeq  : W32 := 0
  answer   : List Byte := []
  record   : List Byte := []
  run      : Option FixRun := none
  /-- The bus plan of the run or check run. -/
  plan     : Option PlanRun := none
  runNo    : W32 := 0
  rdy      : Bool := false
  /-- An arm waits for its check run: the packet, the bound in µs (R312). -/
  arming   : Option (Ref × Nat) := none
  forceFb  : Bool := false
  trigSrc  : BitVec 2 := 0
  inClash  : Bool := false
  overlap  : Bool := false
  lastDegraded : Bool := false
  degraded : W32 := 0
  overlaps : W32 := 0
  clashes  : W32 := 0
  saved    : FixSaved := {}
deriving DecidableEq, Repr

/-- The states of ROTOR (R322). -/
inductive RotorState where
  | off | unref | locked
deriving DecidableEq, Repr

/-- The states of GRID (R324). -/
inductive GridState where
  | off | acquire | locked | holdover
deriving DecidableEq, Repr

/-- The states of WALL (R325). -/
inductive WallState where
  | free | locked | holdover
deriving DecidableEq, Repr

/-- The bases a schedule entry fires on (R327). -/
inductive SchedBase where
  | rotor | grid | wall
deriving DecidableEq, Repr

/-- The actions of a schedule entry (R328). -/
inductive SchedAction where
  | fixedRun | knot | submit
deriving DecidableEq, Repr

/-- A schedule entry (R327, R333). -/
structure SchedEntry where
  owner   : Byte
  base    : SchedBase
  action  : SchedAction
  /-- 0 forward, 1 reverse, 2 either. -/
  dir     : Nat
  once    : Bool
  n       : Nat
  knot    : W16
  inc     : W32
  /-- Offset o, or the first WALL target. -/
  offset  : Nat
  period  : Nat
  /-- Next WALL target. -/
  target  : Nat
  /-- Position of ROTOR or GRID, with whole turns, up to which crossings have been counted. -/
  seen    : Int := 0
  tag     : W16
  job     : W32
  rel     : Nat
  payload : List Byte
  firings : W32 := 0
  misses  : W32 := 0
deriving DecidableEq, Repr

/-- The Gauge and the GAUGE block. -/
structure GaugePart where
  -- ROTOR
  rotor    : RotorState := .off
  invert   : Bool := false
  filter   : BitVec 4 := 2
  linesM1  : W16 := 0x0FFF
  zoff     : BitVec 24 := 0
  pinA     : Bool := false
  pinB     : Bool := false
  /-- Edge index e and revolutions. -/
  e        : Nat := 0
  revs     : Nat := 0
  /-- Whole turns since reset, forward less backward. -/
  turns    : Int := 0
  /-- Time of the last edge, interval between the last two (0: none), their directions: up, and the same as the one before. -/
  edgeAt   : Option Nat := none
  interval : Nat := 0
  up       : Bool := true
  same     : Bool := false
  zErr     : W16 := 0
  qErr     : W16 := 0
  -- GRID
  grid     : GridState := .off
  gridEdge : Bool := false
  bw       : BitVec 2 := 1
  gridOff  : W16 := 0
  /-- Phase at a time, that time, frequency in 2^−16 Hz, mains cycles. -/
  phase    : W16 := 0
  phaseAt  : Nat := 0
  /-- Time of the last accepted edge, and of the last edge of any kind. -/
  gridAt   : Option Nat := none
  gridSeen : Option Nat := none
  freq     : W32 := 0
  cycles   : W16 := 0
  gridTurns : Int := 0
  /-- Edges in a row below 128 and above 1,024 units of error; rejected edges. -/
  good     : Nat := 0
  bad      : Nat := 0
  rejected : W32 := 0
  /-- Entered HOLDOVER at. -/
  holdAt   : Nat := 0
  -- WALL
  wall     : Nat := 0
  wallSt   : WallState := .free
  ppsEn    : Bool := false
  ppsEdge  : Bool := false
  ppsOffset : Int := 0
  /-- Slew in ppm, and offsets in a row below 1 µs (R325). -/
  slew     : Int := 0
  /-- What it has yet to remove, in ns. -/
  slewLeft : Int := 0
  /-- Part of a nanosecond, in 10^−6, that the slew has yet to add to WALL. -/
  slewRem  : Int := 0
  closeOnes : Nat := 0
  /-- The first PPS edge since FREE was taken, and the time of the last one. -/
  stepped  : Bool := false
  ppsAt    : Nat := 0
  /-- GAUGE_WALL_SETs that wait for an edge, the oldest first: packet, S, time it began (R326). -/
  settings : List (Ref × Nat × Nat) := []
  -- schedule
  sched    : Assoc SchedEntry := []
  missCount : W32 := 0
deriving DecidableEq, Repr

/-- A knot (R329). -/
structure Knot where
  value : W32 := 0
  /-- P, 0 for none. -/
  party : W16 := 0
  /-- Owner of an allocated knot: 0 the device, 1 to 8 a tenant. -/
  owner : Byte := 0
  allocated : Bool := false
deriving DecidableEq, Repr

/-- The conditions of R330; a barrier waits for its own target. -/
inductive KnotCond where
  | atLeast (v : W32)
  | equal (v : W32)
deriving DecidableEq, Repr

/-- A pending KNOT_WAIT (R335, R336). -/
structure KnotWaiter where
  ref  : Ref
  knot : W16
  cond : KnotCond
  /-- A barrier knot's modulus Q; 0 for 2^32. -/
  modulus : Nat
  due  : Option Nat
deriving DecidableEq, Repr

/-- The knot table. -/
structure KnotPart where
  knots   : SMap Knot := []
  waiters : List KnotWaiter := []
deriving DecidableEq, Repr

end Sys2Proof.Machine
end

