-- ==== Sys2Proof/Machine/StPower.lean ====
section
/-! DEFINITION. The state of power, cooling and supply sag (15_power_thermal), and of the AUDIT block and twin mode's device-wide
part (16_determinism_audit). -/

namespace Sys2Proof.Machine

/-- What the controller keeps for a partition; the shared pool counts as one (R469, R472, R474). -/
structure PowerGroup where
  /-- Limit of POWER_CAP and of CURRENT_LIMIT (R472, R474). -/
  cap     : Nat := 64
  current : Nat := 64
  /-- The learned profile E in mW, in ATTENTION, PREFILL and DECODE; none stands for P_TILEMAX (R474). -/
  attention : Option Nat := none
  prefill : Option Nat := none
  decode  : Option Nat := none
  /-- D_idle in mW, as last sampled (R472). -/
  idle    : Nat := 0
  /-- The further lowering by 4 holds until this time (R472). -/
  lowered : Option Nat := none
  /-- k held, the newest first: since when, and its value (R471). -/
  history : List (Nat × Nat) := []
deriving DecidableEq, Repr

/-- Power, cooling and the shed stages. -/
structure PowerPart where
  /-- The shed stage, 0 to 4 (R479), and the highest of the current or last sag. -/
  stage    : Nat := 0
  peak     : Nat := 0
  /-- Input samples in mV, the newest first, at most four; V_in is their mean (R479). -/
  samples  : List Nat := []
  vin      : Nat := 0
  minMv    : Nat := 0
  /-- First sample below 38.0 V of the sag in progress (R483). -/
  sagAt    : Option Nat := none
  /-- Since when V_in has been at or above 40.0 V, while a stage is in force (R482). -/
  goodAt   : Option Nat := none
  /-- When the next stage may be lifted, while stages are being lifted (R482). -/
  liftAt   : Option Nat := none
  /-- When stage 4 was taken (R481). -/
  stage4At : Option Nat := none
  /-- The last junction samples in °C, and how many samples in a row have had TJ_MAX at 105 °C or more (R475, R476). -/
  temps    : List Int := []
  trips    : Nat := 0
  thermal  : Bool := false
  /-- 0 NORMAL, 1 LOW, 2 NONE (R477), the last reading, and since when each condition of R477 has held. -/
  coolant  : Nat := 0
  inlet    : Int := 0
  outlet   : Int := 0
  flow     : Nat := 0
  badAt    : Option Nat := none
  dryAt    : Option Nat := none
  rangeAt  : Option Nat := none
  flowAt   : Option Nat := none
  cap      : BitVec 9 := 0x104
  hostLimit : BitVec 7 := 0x40
  vcore    : Nat := 0
  sagCount : W32 := 0
  /-- Time each reason has been in force on an Open-plane tile, in ns, by reason (R471). -/
  times    : SMap Nat := []
  /-- The same on a partition's tiles, by tenant × 8 + reason (R471). -/
  partTimes : SMap Nat := []
  /-- Reasons 0, 2, 3 and 5 in force, when DEV_EVENT.THROTTLE was last evaluated (R471). -/
  shown    : Byte := 0
  /-- By tenant for a sealed partition, 0x80 for the shared pool. -/
  groups   : SMap PowerGroup := []
deriving DecidableEq, Repr

/-- A pairing request of this module or of the partner, or a partner's admission notice, waiting for its match (R495, R496). -/
structure TwinNote where
  tenant : Byte
  job    : W32
  tag    : W16
  digest : List Byte
deriving DecidableEq, Repr

/-- A partner's pairing request (R495). -/
structure TwinOffer where
  tenant  : Byte
  /-- The partner's job, and the local job it names. -/
  job     : W32
  mine    : W32
  digests : List Byte
  settings : List Nat
  started : Bool
  at_     : Nat
deriving DecidableEq, Repr

/-- A Fixed-plane run to compare: frame sequence, digest, and when it was reported (R499). -/
structure TwinRun where
  seq    : W32
  digest : List Byte
  at_    : Nat
deriving DecidableEq, Repr

/-- The AUDIT block and twin mode (R494 to R500, R509). -/
structure AuditPart where
  fixDiv     : Bool := false
  onDiverge  : Bool := false
  fixCompare : Bool := false
  cmpCount   : W32 := 0
  divCount   : W32 := 0
  divSeq     : W32 := 0
  unmatched  : W32 := 0
  twinSteps  : W32 := 0
  twinDivs   : W32 := 0
  /-- Twin mode has been lost since the last pairing (R509). -/
  lost       : Bool := false
  offers     : List TwinOffer := []
  notes      : List TwinNote := []
  myRuns     : List TwinRun := []
  theirRuns  : List TwinRun := []
deriving DecidableEq, Repr

end Sys2Proof.Machine
end

