-- ==== Sys2Proof/Machine/StSec.lean ====
section
/-! DEFINITION. The state of tenancy and security (12_security_tenancy): partitions, keys, roles, the ledger and the SEC block. -/

namespace Sys2Proof.Machine

/-- A key generation a partition holds (R385): its number modulo 4 and its secret G (R380). -/
structure Generation where
  num    : BitVec 2
  secret : List Byte
deriving DecidableEq, Repr

/-- The stages of a removal that remain (R400): stages 1 to 4 happen at acceptance. -/
inductive RemovalStage where
  | scrub | flash | confirm
deriving DecidableEq, Repr

/-- A removal in progress (R399 to R401). -/
structure Removal where
  stage    : RemovalStage
  purge    : Bool
  /-- The packet to answer; none once a reset has discarded it. -/
  reply    : Option Ref
  requests : Nat
  extents  : Nat
  pages    : Nat
  blocks   : Nat
deriving DecidableEq, Repr

/-- A tenant partition (R372 to R375). -/
structure Partition where
  sealed     : Bool
  tileMask   : W32
  dramMask   : W32
  flashMask  : W16
  commonsMask : W32
  /-- Tile-store quota per tile in units of 64 KiB (R372). -/
  storeQuota : Nat
  pageCount  : Nat
  seqQuota   : Nat
  knotQuota  : Nat
  /-- The tenant's X448 public key (R372). -/
  pub        : List Byte
  /-- K_tr until SEC_KEY_LOAD succeeds (R380). -/
  ktr        : Option (List Byte)
  cur        : Option Generation
  prev       : Option Generation
  removal    : Option Removal
  /-- Until when the fence of a partition reset stands (R512). -/
  fencedTo   : Nat := 0
deriving DecidableEq, Repr

/-- The open role session (R394 to R396). -/
structure Session where
  role     : Byte
  chan     : Chan
  id       : W32
  key      : List Byte
  cred     : List Byte
  /-- Time of the last accepted packet sealed under it (R396 cause 1). -/
  lastUsed : Nat
deriving DecidableEq, Repr

/-- An open challenge on a channel (R394). -/
structure Challenge where
  nonce   : List Byte
  /-- The ephemeral private key d; D is its public key. -/
  priv    : List Byte
  issued  : Nat
deriving DecidableEq, Repr

/-- The fields of a ledger entry before its sequence number and chain value are known (R406). -/
structure LedgerBody where
  wall   : W64
  kind   : W16
  role   : Byte
  tenant : Byte
  status : W16
  chan   : Byte
  detail : List Byte
  actor  : List Byte
  act    : List Byte
deriving DecidableEq, Repr

/-- An entry in the ledger with its chain value (R406). -/
structure LedgerEntry where
  seq   : Nat
  body  : LedgerBody
  chain : List Byte
deriving DecidableEq, Repr

/-- Tenancy, roles, keys and the SEC block. -/
structure Sec where
  /-- Partitions by number, 1 to 8 (R372). -/
  parts       : Assoc Partition := []
  session     : Option Session := none
  nextSession : W32 := 1
  /-- Challenges by channel: 1 host port, 2 management port, 3 receptacle (R394). -/
  challenges  : Assoc Challenge := []
  /-- Enrolled credentials by role × 64 + table × 32 + slot (R391). -/
  creds       : Assoc (List Byte) := []
  /-- The two contacts of the key switch and its debounced position: 0 OPERATE, 1 INSTALL, 2 SERVICE (R393, R545). -/
  inst        : Bool := false
  serv        : Bool := false
  keysw       : Byte := 0
  /-- Entries held, oldest first; the first one's number follows those trimmed (R409). -/
  ledger      : List LedgerEntry := []
  nextSeq     : Nat := 0
  /-- Chain value of the last entry written (R404, R406). -/
  chain       : List Byte := List.replicate 32 0
  /-- The buffer of R408, oldest first. -/
  buffer      : List LedgerBody := []
  cfgDropped  : Bool := false
  failCount   : W32 := 0
  /-- SEC_SESSION_CFG.IDLE_S. -/
  idleS       : W16 := 0x0258
  mgmtEnable  : Bool := false
  /-- Onyx drives PHY_RST# low until this moment of the model's clock (R532). -/
  phyLowTo    : Nat := 0
  mgmtSpeed   : Bool := true
  mgmtPort    : W16 := 0xB932
  mgmtIp      : W32 := 0
  mgmtMask    : W32 := 0
  mgmtLink    : Bool := false
  mgmtDropped : W16 := 0
  /-- Time at which the Ethernet link was lost, while it is down (R396 cause 4). -/
  linkLostAt  : Option Nat := none
  /-- Pod keys, the current first (R390). -/
  podKeys     : List (List Byte) := []
deriving DecidableEq, Repr

end Sys2Proof.Machine
end

