-- ==== Sys2Proof/Machine/StServe.lean ====
section
/-! DEFINITION. The state of the KV cache and of serving (08_attention_kv, 09_serving), with what pods, twin mode and audit keep
per job and per request (11_links_pods, 16_determinism_audit). -/

namespace Sys2Proof.Machine

/-- A page of a pool: reference and pin counts, the key generation a data page bears (none once it was scrubbed for a retired
one), and whether it is a list page (R249, R252, R253). -/
structure PageInfo where
  refs : W16 := 0
  pins : W16 := 0
  kgen : Option (BitVec 2) := none
  list : Bool := false
deriving DecidableEq, Repr

/-- A partition's page pool and its counters (R250, R273, R302). -/
structure Pool where
  count   : Nat
  /-- Channels in increasing order, and the channel offset at which the pool starts on each. -/
  chans   : List Nat
  base    : Nat
  pages   : SMap PageInfo := []
  /-- Reserved pages (R284). -/
  reserved : Nat := 0
  parks   : W32 := 0
  kvEnds  : W32 := 0
  copies  : W32 := 0
  scrubbed : W32 := 0
  longest : W32 := 0
  admitted : W32 := 0
  refMem  : W32 := 0
  refTime : W32 := 0
  cancelled : W32 := 0
  cancelDone : W32 := 0
  late    : W32 := 0
  steps   : W32 := 0
deriving DecidableEq, Repr

/-- A list entry: page number and RETIRED (R253). -/
abbrev PageEntry := Nat × Bool

/-- A sequence (R253, R296, R299). -/
structure Seq where
  tenant    : Nat
  /-- Skein ID it is bound to. -/
  skein     : Nat
  committed : Nat := 0
  gen       : W32 := 0
  /-- When it parked for pages (R261, R262). -/
  parked    : Option Nat := none
  entries   : List PageEntry := []
  listPages : List Nat := []
  /-- Draft companion, and whether this is one (R296). -/
  companion : Option Nat := none
  draft     : Bool := false
  transient : Bool := false
  /-- Audit hash H of the sequence (R489). -/
  hash      : List Byte := List.replicate 32 0
deriving DecidableEq, Repr

/-- A host edit, or the device's own RELEASE, that waits for a boundary (R257, R258, R263). -/
inductive HostEdit where
  | fork (src : Nat) (p : Nat)
  | truncate (seq : Nat) (p : Nat)
  | release (seq : Nat)
deriving DecidableEq, Repr

/-- A staged edit with the packet that completes when it is applied. -/
structure StagedEdit where
  ref    : Option Ref
  tenant : Nat
  skein  : Nat
  edit   : HostEdit
deriving DecidableEq, Repr

/-- The numeric event record of a job (R118). -/
structure NumRec where
  rows : W32 := 0
  elems : W32 := 0
  sat  : W32 := 0
  inv  : W32 := 0
deriving DecidableEq, Repr

/-- The rows of one request in a step (R288, R289). -/
structure StepRows where
  ref    : Ref
  n      : Nat
  /-- First position of the rows. -/
  pos    : Nat
  prefill : Bool
  /-- Draft depth in this step. -/
  depth  : Nat
  /-- The request left the step. -/
  gone   : Bool := false
  /-- Its draft companion is brought up to date by extra draft rows (R296). -/
  extra  : Bool := false
deriving DecidableEq, Repr

/-- Consecutive positions of one sequence in a step's lists (R289): the step row and the position of the first, the count, whether they are a
prefill chunk, and in draft lists the number of sub-steps that they take part in (R297). -/
structure WalkRows where
  seq     : Nat
  row     : Nat
  n       : Nat
  pos     : Nat
  prefill : Bool
  depth   : Nat := 1
  gone    : Bool := false
deriving DecidableEq, Repr

/-- Query rows of one head that a tile walks against the key positions from `lo` below `hi`; in decode its partial goes to the home tile
(R270, R271). -/
structure WalkUnit where
  head  : Nat
  seq   : Nat
  row   : Nat
  n     : Nat
  pos   : Nat
  lo    : Nat
  hi    : Nat
  split : Bool
deriving DecidableEq, Repr

/-- A partial (m, l, o) of one query row (R268, R272). -/
structure Part where
  m : W32
  l : W32
  o : List W32
deriving DecidableEq, Repr

/-- The walks of a layer on a tile: the units still to walk, the chunk of the first one, what stands queued for that chunk (0 nothing, 1 its
score passes, 2 its vector list, 3 its value passes), its maxima and sums, and the partials folded so far. -/
structure TileWalk where
  tile  : Nat
  units : List WalkUnit
  chunk : Nat := 0
  stage : Nat := 0
  ml    : List (W32 × W32) := []
  acc   : List Part := []
deriving DecidableEq, Repr

/-- A tile's partials of a decode row or rows, where they stand in the home tile's store (R271). -/
structure HomePart where
  home : Nat
  head : Nat
  row  : Nat
  n    : Nat
  lo   : Nat
  at_  : Nat
deriving DecidableEq, Repr

/-- A snapshot of a sequence (R257). -/
structure SeqSnap where
  seq     : Nat
  gen     : W32
  len     : Nat
  entries : List PageEntry
deriving DecidableEq, Repr

/-- Why a running step is parked (R210, R478, R480, R522). -/
inductive ParkWhy where
  | layer | sag | doze | coolant
deriving DecidableEq, Repr

/-- A partial row of an ATOMIC tensor that a tile is draining (R214): whether its list is a draft sub-step's, the site, the step row, and
the columns drained so far by N-tile. -/
structure PartRow where
  tile  : Nat
  draft : Bool
  site  : Nat
  row   : Nat
  cols  : SMap (List Nat)
deriving DecidableEq, Repr

/-- A step (R287 to R290, R211). -/
structure StepRun where
  /-- Its number among steps and window slots. -/
  serial  : Nat := 0
  rows    : List StepRows
  t0      : Nat
  /-- D_step, none without a deadline. -/
  dstep   : Option Nat
  snaps   : List SeqSnap
  /-- X_site snapshots (R114). -/
  snapMain : List Int
  snapDraft : List Int
  /-- Rows that have overflowed: tile, draft list, site and step row (R118). -/
  ovfRows : List (Nat × Bool × Nat × Nat) := []
  obsMain : SMap (Option Int) := []
  obsDraft : SMap (Option Int) := []
  /-- Partial rows of ATOMIC tensors that have drained in part (R214). -/
  partRows : List PartRow := []
  /-- Arbitrated reads of the step that have not ended: cache pages, spill extents (R35, R266). -/
  loads   : Nat := 0
  /-- Spill extents of the next layer that were read. -/
  spillsIn : List SpillSpec := []
  /-- The rows in main lists and in draft lists. -/
  walkRows : List WalkRows := []
  draftRows : List WalkRows := []
  /-- Where the next layer stands: 0 its first lists are not queued, 1 they are and its attention follows, 2 its walks run, 3 they are done
  and its last lists are to be queued (R266). -/
  phase   : Nat := 0
  walks   : List TileWalk := []
  homes   : List HomePart := []
  /-- Shadows whose walk met a retired page, on a worker (R249). -/
  retired : List Nat := []
  /-- Next layer to queue, counting draft sub-steps first. -/
  layer   : Nat := 0
  /-- Layers of the step, draft sub-steps included. -/
  total   : Nat := 0
  /-- What each layer digests, in order: kind × 65,536 + layer, kind 0 main, 1 adapter, 2 draft (R497, R498). -/
  labels  : List (List Nat) := []
  /-- Piece digests of a twin job's completed layers, by label and row (R497). -/
  pieces  : List (Nat × List (List Byte)) := []
  /-- The leader of a twin job waits for the sequences the follower parks (R496). -/
  awaitTwin : Bool := false
  /-- Layers queued and not complete. -/
  queued  : List Nat := []
  skipped : List Nat := []
  /-- The layer it is parked at and the reasons that hold it there. -/
  parks   : List ParkWhy := []
  /-- Pages pinned per tile by walks (R260): tile and pages. -/
  pins    : List (Nat × List Nat) := []
  /-- Placement epoch at START (R362). -/
  epoch   : W16 := 0
deriving DecidableEq, Repr

/-- A placed stage (R358, R369). -/
structure Stage where
  first  : Nat
  last   : Nat
  device : BitVec 12
  tiles  : W32
deriving DecidableEq, Repr

/-- Where a job is in placement (R358 to R363, R367). -/
inductive PlaceState where
  | none | placing | placed | broken
deriving DecidableEq, Repr

/-- Twin state of a job (R495, R498, R500). -/
inductive TwinState where
  | none | requested | paired | diverged | lost
deriving DecidableEq, Repr

/-- An audited job's buffer (R491). -/
structure AuditCfg where
  handle : W32
  off    : W32
  cap    : Nat
deriving DecidableEq, Repr

/-- A job, or a stage job that a manager placed here (R274, R357, R358). -/
structure Job where
  main    : Nat
  adapter : Option Nat := none
  draft   : Option Nat := none
  depth   : Nat := 0
  tiles   : W32
  budget  : Nat
  prefillMin : Nat
  sites   : List Site := []
  draftSites : List Site := []
  num     : NumRec := {}
  key     : List Byte := []
  /-- Needed exponents that sites drained in a step that was abandoned (R116, R362). -/
  keptMain : SMap (Option Int) := []
  keptDraft : SMap (Option Int) := []
  epoch   : W16 := 0
  /-- Order of opening (R286). -/
  order   : Nat := 0
  closing : Bool := false
  closer  : Option Ref := none
  step    : Option StepRun := none
  /-- Pods: state of the placement, its stages, devices awaited, stale and re-issued counts (R358 to R364, R369). -/
  place   : PlaceState := .none
  stages  : List Stage := []
  awaited : List (BitVec 12) := []
  placer  : Option Ref := none
  /-- The stages of a placement that is being set, and whether it is a migration (R363). -/
  nextStages : List Stage := []
  moving  : Bool := false
  /-- The epoch of the placement that is being set has been sent out (R360, R363). -/
  epochOut : Bool := false
  stale   : W32 := 0
  staleEnds : W32 := 0
  reissued : W32 := 0
  migrated : W32 := 0
  /-- A stage job: its manager, and its shadows: the manager's sequence and the local one (R358). -/
  manager : Option (BitVec 12) := none
  /-- The whole placement, in a stage job as its manager has sent it (R357). -/
  others  : List Stage := []
  shadows : List (Nat × Nat) := []
  /-- Audit (R489 to R492): job hash E, buffer, and the records written. -/
  hashE   : List Byte := List.replicate 32 0
  audit   : Option AuditCfg := none
  audits  : Nat := 0
  /-- Twin mode (R494 to R500). -/
  twin    : TwinState := .none
  twinJob : W32 := 0
  leader  : Bool := false
  pairer  : Option Ref := none
  pairAt  : Nat := 0
  divLayer : Nat := 0
  divStep : Nat := 0
  divAt   : Nat := 0
  stepNo  : Nat := 0
  /-- Steps compared, divergences, and the two digests of the first divergence (R498, R507). -/
  compared : W32 := 0
  divs    : W32 := 0
  divPair : List Byte := []
  /-- Digest vectors of this device and of the partner not yet compared, oldest first: label and digest. -/
  mine    : List (List (Nat × List Byte)) := []
  theirs  : List (List (Nat × List Byte)) := []
  /-- The leader's next composition: sequences, D_step and parked set (R496). -/
  leadRows : Option (List W16 × W64 × List W16) := none
deriving DecidableEq, Repr

/-- A request (R278 to R282, R302). -/
structure Request where
  tenant  : Nat
  job     : W32
  forward : Bool
  flags   : Byte
  seq     : Nat
  transient : Bool
  inCount : Nat
  inHandle : W32
  inOff   : W32
  outHandle : W32
  outOff  : W32
  outLen  : Nat
  maxTok  : Nat
  parkMs  : Nat
  topK    : Nat
  temp    : W32
  seed    : W64
  knot    : W16
  stops   : List W32
  deadline : Nat
  /-- Order of admission. -/
  order   : Nat
  state   : Nat := 1
  /-- State to go back to when a park ends (R211). -/
  back    : Nat := 1
  fed     : Nat := 0
  tokens  : Nat := 0
  /-- The next input token x of a DECODE request (R297). -/
  next    : W32 := 0
  commitWall : W64 := 0
  firstWall : W64 := 0
  admitWall : W64 := 0
  steps   : Nat := 0
  skipped : List Nat := []
  proposed : Nat := 0
  accepted : Nat := 0
  parks   : Nat := 0
  late    : Bool := false
  depth   : Nat := 0
  zeroRuns : Nat := 0
  offSteps : Nat := 0
  /-- A host-tier output buffer has not had its head written (R202, R281). -/
  behind  : Bool := false
  /-- Pages of its reservation left (R284). -/
  reserve : Nat := 0
  /-- Left out of the last step (R288). -/
  leftOut : Bool := false
  /-- Cancels that wait for the request's record (R293, R295), and whether each completes OK or ALREADY_DONE. -/
  waiters : List (Ref × Bool) := []
  /-- Audit: admission digest and the sequence's hash at admission (R489). -/
  hashA   : List Byte := []
  audited : Bool := false
  /-- A request that ends but is held, by its host-tier buffers (R202) or as a pod request: its status, and the stage devices whose
  withdrawal is not confirmed (R364). -/
  ending  : Option W16 := none
  awaited : List (BitVec 12) := []
  /-- Twin: waits for the partner's admission of the same request, whose digest is to equal this one (R496). -/
  twinWait : Bool := false
  twinDigest : List Byte := []
deriving DecidableEq, Repr

/-- Serving and the SERVE block. -/
structure ServePart where
  /-- Pools by tenant. -/
  pools   : Assoc Pool := []
  /-- Sequences by ID. -/
  seqs    : Assoc Seq := []
  /-- Jobs by tenant × 2^32 + job ID. -/
  jobs    : Assoc Job := []
  /-- Unended requests, in order of admission. -/
  reqs    : List (Ref × Request) := []
  edits   : List StagedEdit := []

  nextOrder : Nat := 0
  /-- Order of opening from which the round robin of jobs without a deadline goes on (R286). -/
  roundAt : Nat := 0
  stepTokens : BitVec 13 := 0x0200
  prefillMin : BitVec 13 := 0x0040
  slack   : Byte := 0x32
  stepCount : W32 := 0
  refuseCount : W32 := 0
  cancelCount : W32 := 0
  cancelLat : W32 := 0
deriving DecidableEq, Repr

end Sys2Proof.Machine
end

