-- ==== Sys2Proof/Machine/StTile.lean ====
section
/-! DEFINITION. The state of a tile: its four arrays, tile registers, vector accumulators, sliver cores, sequencers and status
block (04_matrix_arrays, 05_vector_engine). -/

namespace Sys2Proof.Machine

/-- The header of an array-ready tile (R102). -/
structure TileHdr where
  format : Nat
  group  : Nat
  loadCs : Bool
  lastK  : Bool
  validN : Nat
  validK : Nat
  ktile  : Nat
  ntile  : Nat
  tensor : Nat
deriving DecidableEq, Repr

/-- One row of a carry bank: its XR and the 64 column pairs (A, P) (R134). -/
structure CarryRow where
  xr   : Int
  cols : List (Int × Int)
deriving DecidableEq, Repr

/-- The carry bank of an array: who wrote it and its rows (R134). -/
structure Carry where
  accId  : W16
  rows   : List CarryRow
  arrays : BitVec 4
deriving DecidableEq, Repr

/-- What the issue rule keeps of the last pass on an array (R141). -/
structure LastPass where
  s     : Nat
  dp    : Nat
  t     : Nat
  accId : W16
  carry : Bool
deriving DecidableEq, Repr

/-- A matrix array: cells, scales, carry bank, west-edge history (R125, R107, R134, R142). Absent list elements are zero. The registers of
R125 that a pass only flows through hold what the last token row left in them: DEDUCED, as no rule shows them. -/
structure ArrayState where
  /-- CW and NW by column, then by row (R125). -/
  cw      : List (List W16) := []
  nw      : List (List W16) := []
  /-- CS and NS of rows 31 and 63 by column: (row 31, row 63). -/
  cs      : List (W16 × W16) := []
  ns      : List (W16 × W16) := []
  /-- Activation register of each cell after the last pass, by column, then by row: element, and row exponent. -/
  act     : List (List W16) := []
  actX    : List (List Int) := []
  /-- West staggering registers by row, north staggering and south deskew registers by column. -/
  west    : List W16 := []
  north   : List (Int × Int) := []
  south   : List (Int × Int) := []
  /-- The staging buffer of the weight feeder: the 8,640 bytes at most of the tile staged last (R140). -/
  staging : List Byte := []
  /-- Accumulator pair (A, P) of each cell after the last pass, by column, then by row. -/
  acc     : List (List (Int × Int)) := []
  /-- The tile whose weights CW holds; none while no weights are loaded (R155). -/
  loaded  : Option TileHdr := none
  /-- Live per-channel scales; reset 0x0000, that is 1.0 (R107). -/
  scales  : List W16 := []
  pending : Option (List W16) := none
  carry   : Option Carry := none
  /-- C and the last token row of the west edge (R142, R143). -/
  history : Option (Nat × List W16) := none
  last    : Option LastPass := none
  /-- Its ARRAY domain is on, and when it last finished a pass on the model's clock (R465, R466). -/
  on      : Bool := false
  idleAt  : Nat := 0
deriving DecidableEq, Repr

/-- The origin of a list (R146, R160). -/
inductive Origin where
  | skein | engine | fixed
deriving DecidableEq, Repr

/-- A queued descriptor list (R146, R160) with the work it belongs to. -/
structure QList where
  addr   : Nat
  /-- Index of the next descriptor. -/
  index  : Nat := 0
  origin : Origin
  tenant : Byte := 0
  job    : W32 := 0
  epoch  : W16 := 0
  layer  : Nat := 0
  /-- The list belongs to a draft sub-step: its sites are the draft skein's (R297). -/
  draft  : Bool := false
  /-- Step rows that a kill mask or a row mask marks (R152, R169). -/
  kill   : List Nat := []
  /-- Step row of token row 0 of each descriptor, by its index; 0 where none is given. -/
  rows   : List Nat := []
deriving DecidableEq, Repr

/-- A token row of one array that has left the south edge and waits for its drain, or for its carry write, which only counts its events
(R134, R136, R138): the elements, the exponent it is written with, its events, its needed exponent, and the place of its columns. -/
structure PendingRow where
  array  : Nat
  row    : Nat
  carry  : Bool
  elems  : List Nat
  xsite  : Int
  ev     : NumEv
  obs    : Option Int
  /-- NTILE of its weights: its columns begin at 64 × this in the tensor (R102, R214). -/
  col    : Nat := 0
deriving DecidableEq, Repr

/-- A pass issued and not complete; also what the issue rule keeps of one that has completed. -/
structure FlightPass where
  /-- The list it belongs to, as it stood at issue. -/
  list   : QList
  /-- The descriptor and the weight formats of its arrays. -/
  raw    : List Byte
  formats : List Nat
  arrays : BitVec 4
  knot   : W32
  /-- Tile registers that it writes, and those that it only reads. -/
  regs   : List Nat
  reads  : List Nat := []
  /-- Output ranges in the tile store, offset and length (R150). -/
  outs   : List (Nat × Nat)
  /-- The issue cycle, and the cycle after its last drain or carry write. -/
  start  : Nat
  done   : Nat
  /-- What has not drained yet, in the order of R151. -/
  rows   : List PendingRow := []
deriving DecidableEq, Repr

/-- A vector descriptor issued and not complete. -/
structure FlightVec where
  knot   : W32
  /-- Tile registers that it writes, and those that it only reads. -/
  regs   : List Nat
  reads  : List Nat := []
  /-- Its cost by R186. -/
  cycles : Nat
  /-- On a tile of the Fixed plane, the cycle after its last write. -/
  done   : Nat := 0
  /-- Its list has left the tile. -/
  orphan : Bool := false
  tenant : Byte
  job    : W32
  layer  : Nat := 0
deriving DecidableEq, Repr

/-- A tile. -/
structure TileState where
  /-- Arrays 0 to 3. -/
  arrays   : SMap ArrayState := []
  /-- Rows of tile registers by register × 64 + row (R157). -/
  tregs    : SMap (List W16) := []
  /-- Row exponents by register × 64 + row. -/
  texp     : SMap Byte := []
  /-- VA0 to VA7 by accumulator × 64 + entry (R158). -/
  va       : SMap W32 := []
  /-- The fetched program and its constants (R170). -/
  consts   : List W32 := []
  program  : List W32 := []
  /-- Lane registers after the last run, by (row × 64 + column) of its last group and register; undefined at the next start. -/
  lanes    : SMap W32 := []
  passes   : List QList := []
  vecs     : List QList := []
  /-- Passes in flight, oldest first. -/
  flight   : List FlightPass := []
  vflight  : Option FlightVec := none
  /-- The vector list waits on a knot: number and value, and the WAIT's own knot field (R161, R163). -/
  vwait    : Option (W16 × W32 × W32) := none
  /-- TILE_STAT.TENANT. -/
  tenant   : Byte := 0
  xmis     : Bool := false
  listErr  : Bool := false
  passCount : W32 := 0
  errIndex : W16 := 0
  errCause : BitVec 4 := 0
  activeCyc : W64 := 0
  bubbleCyc : W64 := 0
  fxRows   : W32 := 0
  fxElems  : W32 := 0
  sat      : W32 := 0
  invalid  : W32 := 0
  /-- Cycle up to which an array is busy, on the tile's count of received edges. -/
  busyTo   : Nat := 0
  /-- Passes drained since the tile last began from idle (R150). -/
  drained  : List FlightPass := []
  /-- On a tile of the Fixed plane: plan cycle 0 on the tile's count (R315), the cycle at which the next vector descriptor may issue (R186), and
  the cycles from which tile registers are free again (R164). -/
  planAt   : Nat := 0
  vecAt    : Nat := 0
  regFree  : SMap Nat := []
  /-- Rows of the sites of a Fixed-plane program that have overflowed since its lists were queued, by site and token row (R118). -/
  ovfRows  : List (Nat × Nat) := []
deriving DecidableEq, Repr

end Sys2Proof.Machine
end

