-- ==== Sys2Proof/Machine/State.lean ====
section
/-! DEFINITION. The whole state of the block, the reasons a step may stop, and the state after reset. -/

namespace Sys2Proof.Machine

/-- The machine but for the queue of waiting commands. -/
structure Device where
  host   : HostPort := {}
  cmd    : Cmd := {}
  sec    : Sec := {}
  mem    : MemTiers := {}
  serve  : ServePart := {}
  fix    : FixPart := {}
  gauge  : GaugePart := {}
  knots  : KnotPart := {}
  link   : LinkPart := {}
  flash  : FlashPart := {}
  dram   : DramPart := {}
  pwr    : PowerPart := {}
  audit  : AuditPart := {}
  boot   : Boot := {}
  panel  : PanelPart := {}
  /-- Tiles by logical number (R3). -/
  tiles  : SMap TileState := []
  /-- Fabric space: commons, tile stores, DRAM (R32); bytes at home, plus the bytes of pages. -/
  fab    : Mem := []
  /-- The model's own clock in nanoseconds (log entry 1). -/
  clock  : Nat := 0
  /-- Free values drawn so far (log entry 2). -/
  freeCtr : Nat := 0
deriving DecidableEq, Repr

/-- The state: the machine and the commands that wait, first in first out. -/
structure State where
  dev     : Device := {}
  pending : List Instr := []
deriving DecidableEq, Repr

/-- No command of this block stops it: every failure the manual gives is a status code, a counter or a reset. -/
inductive Fault where
deriving DecidableEq, Repr

/-- Reasons for a refusal. -/
inductive Refusal where
  /-- Raised by exec's arm of a command that has no meaning yet; safe, since nothing about the hardware follows from it. -/
  | notModelled (mnemonic : String)
deriving DecidableEq, Repr

/-- The machine right after reset: every field at its default, which is its value at reset. -/
def State.reset : State := {}

end Sys2Proof.Machine
end

