-- ==== Sys2Proof/Machine/Flags.lean ====
section
/-! DEFINITION. Status codes (R17, R86 and each range's own table), DEV_EVENT flags (R87), ALERT# (R77), and the gates that
say which part of the device is alive. -/

namespace Sys2Proof.Machine

/-! ### Status codes -/

abbrev stOK : W16 := 0x0000
abbrev stDegraded : W16 := 0x0001
abbrev stAlreadyDone : W16 := 0x0002
abbrev stCancelled : W16 := 0x0010
abbrev stStaleEpoch : W16 := 0x0011
abbrev stAdmitMemory : W16 := 0x0020
abbrev stAdmitTime : W16 := 0x0021
abbrev stKvExhausted : W16 := 0x0022
abbrev stErasePending : W16 := 0x0030
abbrev stFrayed : W16 := 0x0031
abbrev stWorn : W16 := 0x0032
abbrev stKeyRetired : W16 := 0x0040
abbrev stAuthFail : W16 := 0x0041
abbrev stDeniedRole : W16 := 0x0042
abbrev stNoTenant : W16 := 0x0043
abbrev stShed : W16 := 0x0050
abbrev stBadPacket : W16 := 0x0060
abbrev stBadOpcode : W16 := 0x0061
abbrev stBadArgument : W16 := 0x0062
abbrev stInternal : W16 := 0x00F0
abbrev stOverrun : W16 := 0x0100
abbrev stBadHandle : W16 := 0x0200
abbrev stExtentLimit : W16 := 0x0201
abbrev stBusyOpen : W16 := 0x0202
abbrev stWrongState : W16 := 0x0203
abbrev stCodecError : W16 := 0x0300
abbrev stDestShort : W16 := 0x0301
abbrev stSkeinInvalid : W16 := 0x0302
abbrev stSkeinBusy : W16 := 0x0303
abbrev stSkeinLimit : W16 := 0x0304
abbrev stJobUnknown : W16 := 0x0400
abbrev stJobExists : W16 := 0x0401
abbrev stJobClosing : W16 := 0x0402
abbrev stJobLimit : W16 := 0x0403
abbrev stSeqUnknown : W16 := 0x0404
abbrev stSeqBusy : W16 := 0x0405
abbrev stSeqLimit : W16 := 0x0406
abbrev stReqUnknown : W16 := 0x0407
abbrev stDeadlinePassed : W16 := 0x0408
abbrev stFixState : W16 := 0x0500
abbrev stFixImageInvalid : W16 := 0x0501
abbrev stFixBudget : W16 := 0x0502
abbrev stSchedFull : W16 := 0x0503
abbrev stWallBackward : W16 := 0x0504
abbrev stGaugeNoPps : W16 := 0x0505
abbrev stTileInUse : W16 := 0x0506
abbrev stKnotLimit : W16 := 0x0600
abbrev stKnotNotOwned : W16 := 0x0601
abbrev stKnotBusy : W16 := 0x0602
abbrev stKnotTimeout : W16 := 0x0603
abbrev stFlashUncorrectable : W16 := 0x0700
abbrev stNotProgrammed : W16 := 0x0701
abbrev stProgramFail : W16 := 0x0702
abbrev stPageOrder : W16 := 0x0703
abbrev stVerifyMismatch : W16 := 0x0704
abbrev stOtpLocked : W16 := 0x0705
abbrev stPlaceUnreachable : W16 := 0x0800
abbrev stPlaceMismatch : W16 := 0x0801
abbrev stLinkBusy : W16 := 0x0802
abbrev stNotManager : W16 := 0x0803
abbrev stTwinUnpaired : W16 := 0x0B00
abbrev stTwinMismatch : W16 := 0x0B01
abbrev stTwinDiverged : W16 := 0x0B02
abbrev stFrozen : W16 := 0x0B03
abbrev stTestFail : W16 := 0x0B04
abbrev stSessionBusy : W16 := 0x0900
abbrev stNoChallenge : W16 := 0x0901
abbrev stCredUnknown : W16 := 0x0902
abbrev stPartConflict : W16 := 0x0903
abbrev stPartRemoving : W16 := 0x0904
abbrev stKeyPresent : W16 := 0x0905
abbrev stRotateBusy : W16 := 0x0906
abbrev stLedgerFull : W16 := 0x0907
abbrev stSlotInUse : W16 := 0x0908

/-! ### DEV_EVENT (R87) -/

abbrev evOverrun : Nat := 0
abbrev evReject : Nat := 1
abbrev evShed : Nat := 2
abbrev evThrottle : Nat := 3
abbrev evKeysw : Nat := 4
abbrev evRole : Nat := 5
abbrev evTenant : Nat := 6
abbrev evLink : Nat := 7
abbrev evGaugeLock : Nat := 8
abbrev evFault : Nat := 9
abbrev evLateRead : Nat := 10
abbrev evCoolant : Nat := 11

/-- Set a flag of DEV_EVENT. -/
def setEvent (n : Nat) (d : Device) : Device :=
  { d with host.event := d.host.event ||| (1#12 <<< n) }

/-- Set the latch of a bead (R550). -/
def latchBead (n : Nat) (d : Device) : Device := { d with panel.latches := d.panel.latches ||| (1#8 <<< n) }

/-! ### What is alive -/

/-- FREEZE is held (R501, R502). -/
def isFrozen (d : Device) : Bool := d.boot.frozen.isSome

/-- The core die runs: not frozen, not held in reset, not in Hibernate (R465, R501, R510). -/
def coreAlive (d : Device) : Bool :=
  !isFrozen d && decide (d.boot.phase ≠ .held) && decide (d.boot.lp ≠ .hibernate)

/-- 10 ms: how long Onyx drives PHY_RST# low (R532). -/
abbrev phyReset : Nat := 10000000

/-- The level of the PHY_RST# pin (R532). -/
def phyRst (d : Device) : Bool := decide (d.sec.phyLowTo ≤ d.clock)

/-- The host port answers (R502, R514): not frozen, not HELD, the core die powered. -/
abbrev hostAlive (d : Device) : Bool := coreAlive d

/-- The command processor runs packets (R63, R514). -/
def isReady (d : Device) : Bool := coreAlive d && decide (d.boot.phase = .ready)

/-! ### ALERT# (R77, R501, R511) -/

/-- The conditions of R77; ALERT# is released while the device is frozen or held in reset. -/
def alertCond (d : Device) : Bool :=
  coreAlive d &&
  (let count := bitsOf d.cmd.alertCtrl.toNat 0 8
   let hold := bitsOf d.cmd.alertCtrl.toNat 8 10
   (decide (count ≠ 0) && decide (count ≤ d.cmd.ring.length)) ||
   (decide (hold ≠ 0) && (match d.cmd.ring with
      | [] => false
      | r :: _ => decide (r.at_ + hold * 1000 ≤ d.clock))) ||
   decide (d.host.event &&& d.host.eventEn ≠ 0))

/-! ### Edge removal and its reasons (R469 to R471) -/

/-- TJ_MAX (R475). -/
def tjMax (d : Device) : Int := match d.pwr.temps with | [] => 0 | t :: ts => ts.foldl max t

/-- The limit of THERMAL (R475). -/
def thermalLimit (d : Device) : Nat :=
  if d.pwr.thermal then max 8 (64 - 8 * (max (tjMax d) 95 - 94).toNat) else 64

/-- The controller's group of a partition: itself when sealed, the pool as one (R469). -/
def groupOf (t : Nat) (q : Partition) : Nat := if q.sealed then t else 0x80

def powerGroup (d : Device) (g : Nat) : PowerGroup := SMap.get {} d.pwr.groups g
def onGroup (g : Nat) (f : PowerGroup → PowerGroup) (d : Device) : Device :=
  { d with pwr.groups := SMap.modify {} d.pwr.groups g f }

/-- The limit a reason puts on a group's tiles (R470). -/
def reasonLimit (d : Device) (g : Nat) : Nat → Nat
  | 0 => thermalLimit d
  | 1 => (powerGroup d g).cap
  | 2 => if d.pwr.stage ≥ 1 then 32 else 64
  | 3 => if d.pwr.coolant ≥ 1 then 32 else 64
  | 4 => (powerGroup d g).current
  | 5 => d.pwr.hostLimit.toNat
  | _ => 64

/-- k of a group: the smallest limit in force (R469). -/
def groupK (d : Device) (g : Nat) : Nat := ((List.range 6).map (reasonLimit d g)).foldl min 64

/-- Reasons in force on a group's tiles (R470). -/
def reasonsOf (d : Device) (g : Nat) : Byte :=
  (List.range 6).foldl (fun m n => if reasonLimit d g n < 64 then m ||| (1#8 <<< n) else m) 0

/-- The groups that hold tiles. -/
def groupsHeld (d : Device) : List Nat := (d.sec.parts.map fun p => groupOf p.1 p.2).eraseDups

/-- Reasons in force on at least one Open-plane tile (R471): the device-wide ones hold on every tile. -/
def reasonsAny (d : Device) : Byte :=
  (groupsHeld d).foldl (fun m g => m ||| reasonsOf d g) (reasonsOf d 0 &&& 0x2D)

/-- Time passes under the reasons in force (R471). -/
def accrueReasons (dt : Nat) (d : Device) : Device :=
  let any := reasonsAny d
  let addTo := fun (m : SMap Nat) (key n : Nat) (mask : Byte) => if mask.getLsbD n then SMap.modify 0 m key (· + dt) else m
  { d with
    pwr.times := (List.range 6).foldl (fun m n => addTo m n n any) d.pwr.times
    pwr.partTimes := d.sec.parts.foldl (fun m p =>
      (List.range 6).foldl (fun m n => addTo m (p.1 * 8 + n) n (reasonsOf d (groupOf p.1 p.2))) m) d.pwr.partTimes }

/-- The span over which admission looks at k (R471): 10 ms in ns. -/
abbrev rateSpan : Nat := 10000000

/-- Values of k held at or after a time, from a history with the newest first. -/
def heldSince (from_ : Nat) : List (Nat × Nat) → List (Nat × Nat)
  | [] => []
  | (t, k) :: rest => if t ≤ from_ then [(t, k)] else (t, k) :: heldSince from_ rest

/-- 64 × f of a group: the smallest k it held over the last 10 ms (R471). -/
def rateOf (d : Device) (g : Nat) : Nat :=
  ((heldSince (d.clock - rateSpan) (powerGroup d g).history).map (·.2)).foldl min (groupK d g)

/-- Record each group's k, and set DEV_EVENT.THROTTLE when the device-wide reasons in force change (R471). -/
def noteRates (d : Device) : Device :=
  let d := (groupsHeld d).foldl (fun d g =>
    let k := groupK d g
    onGroup g (fun x => match x.history with
      | (_, k') :: _ => if k = k' then x else { x with history := (d.clock, k) :: heldSince (d.clock - rateSpan) x.history }
      | [] => { x with history := [(d.clock, k)] }) d) d
  let now := reasonsOf d 0 &&& 0x2D
  if now = d.pwr.shown then d else setEvent evThrottle { d with pwr.shown := now }

/-- What follows every command: the record of k, and ALERT# by its conditions (R77, R78, R471). -/
def settle (d : Device) : Device :=
  let d := if coreAlive d then noteRates d else d
  { d with host.alert := alertCond d }

/-! ### Opcodes (R20, R21) -/

/-- The assigned opcodes of every range; any other completes with BAD_OPCODE (R21). -/
def assignedOpcodes : List Nat :=
  [0x0100, 0x0101, 0x0102, 0x0103, 0x0104,
   0x0200, 0x0201, 0x0202, 0x0203, 0x0204, 0x0205, 0x0206, 0x0207, 0x0208, 0x0209,
   0x0300, 0x0301, 0x0302, 0x0303, 0x0304,
   0x0400, 0x0401, 0x0402, 0x0403, 0x0404, 0x0405, 0x0406, 0x0407, 0x0408] ++
  [0x0500, 0x0501, 0x0502, 0x0503, 0x0510, 0x0520, 0x0521, 0x0522,
   0x0600, 0x0601, 0x0602, 0x0603, 0x0604, 0x0605,
   0x0700, 0x0701, 0x0702, 0x0703, 0x0704, 0x0705, 0x0706, 0x0707, 0x0708,
   0x0800, 0x0801, 0x0802] ++
  [0x0900, 0x0901, 0x0902, 0x0903, 0x0904, 0x0910, 0x0911, 0x0912, 0x0913, 0x0914, 0x0915,
   0x0920, 0x0921, 0x0922, 0x0923,
   0x0A00, 0x0A01, 0x0A02, 0x0B00, 0x0B01, 0x0B02, 0x0B03, 0x0B10]

end Sys2Proof.Machine
end

