-- ==== Sys2Proof/Machine/Ops.lean ====
section
/-! DEFINITION. Shared operations of every family: time, free values, the ledger (R406 to R409), completion records and tags
(R70 to R76), and the records of the OTP row (R436). -/

namespace Sys2Proof.Machine

/-! ### Commands -/

/-- What a command answers. -/
abbrev Out := Host.Outcome State Fault Refusal

/-- A command's effect on the device, after which ALERT# follows its conditions (R77). No command of this block stops it. -/
def run (f : Device → Device) (s : State) : Out := .next { s with dev := settle (f s.dev) }

/-! ### Transactions of the host port -/

/-- The transaction that precedes the next one is not RESET_ENABLE (R47). -/
def noEnable (d : Device) : Device := { d with host.resetEnabled := false }

/-- A port that ignores the transaction: DQ stays in high impedance (R501, R502, R511). -/
def portOff (d : Device) : Device := { d with host.dq := .highZ }

/-- A transaction of the host port with an effect: it is no RESET_ENABLE, and a port that is off ignores it. -/
def transact (f : Device → Device) (d : Device) : Device := if hostAlive d then f (noEnable d) else portOff d

/-! ### Time and free values (log entries 1 and 2) -/

/-- WALL now, a 64-bit count of ns (R325). -/
def wallNow (d : Device) : Nat := d.gauge.wall % 2 ^ 64

/-- Let `dt` ns pass. WALL advances, at its slewed rate until the offset is removed, unless the Gauge is frozen (R325, R501). -/
def advance (dt : Nat) (d : Device) : Device :=
  let d := if coreAlive d then accrueReasons dt d else d
  if isFrozen d then { d with clock := d.clock + dt }
  else
    let g := d.gauge
    let part := g.slewRem + dt * g.slew
    let step := if g.slewLeft < 0 then max g.slewLeft (part / 1000000) else min g.slewLeft (part / 1000000)
    let done := decide (step = g.slewLeft)
    { d with
      clock := d.clock + dt
      gauge.wall := ((g.wall : Int) + dt + step).toNat % 2 ^ 64
      gauge.slewLeft := g.slewLeft - step
      gauge.slew := if done then 0 else g.slew
      gauge.slewRem := if done then 0 else part % 1000000 }

/-- Let time pass up to a moment of the model's clock, if it is still ahead. -/
def advanceTo (t : Nat) (d : Device) : Device := advance (t - d.clock) d

/-- One Gauge tick of 10 ns in which no command arrives (log entry 1). -/
def tick (d : Device) : Device := settle (advance 10 d)

/-- Bytes the manual leaves open, or random bytes from Onyx's generator (R379). -/
def freeBytes (n : Nat) (d : Device) : List Byte := (List.range n).map fun i => Config.freeByte (d.freeCtr + i)

/-- Count the free values taken. -/
def spend (n : Nat) (d : Device) : Device := { d with freeCtr := d.freeCtr + n }

/-- Take `n` free bytes. -/
def drawBytes (n : Nat) (d : Device) : List Byte × Device := (freeBytes n d, spend n d)

/-! ### The grade and the OTP row (R1, R3, R436) -/

/-- The number of logical tiles. -/
def tileCount (d : Device) : Nat := d.boot.otp.tiles.toNat

/-- The serial as its 8 bytes (R380). -/
def serialBytes (d : Device) : List Byte := leBytes 8 d.boot.otp.serial.toNat

/-- The identity public key (R403). -/
def identityPublic : List Byte := edPublic Config.identityKey

/-- The maker credential of slot 0, fixed by the OTP row (R391). -/
def makerZero : List Byte := Config.makerKey

/-- The 512 bytes of an OTP row (R436). -/
def otpBytes (o : Otp) : List Byte :=
  leBytes 2 o.part.toNat ++ [o.tiles, BitVec.ofNat 8 o.stepping.toNat] ++ leBytes 4 o.map.toNat ++ leBytes 8 o.serial.toNat ++
  digest32 identityPublic ++ digest32 Config.mfgPublic ++ digest32 makerZero ++ padTo 128 o.voltage ++
  leBytes 4 o.fuse.toNat ++ zeros 12 ++ leBytes 32 (2 ^ o.security - 1) ++ zeros 224

/-! ### Tiles -/

/-- A tile's state. -/
def tileOf (d : Device) (t : Nat) : TileState := SMap.get {} d.tiles t

/-- Change a tile. -/
def onTile (t : Nat) (f : TileState → TileState) (d : Device) : Device := { d with tiles := SMap.modify {} d.tiles t f }

/-- An array of a tile. -/
def arrayOf (ts : TileState) (a : Nat) : ArrayState := SMap.get {} ts.arrays a

/-- Change an array of a tile. -/
def onArray (a : Nat) (f : ArrayState → ArrayState) (ts : TileState) : TileState :=
  { ts with arrays := SMap.modify {} ts.arrays a f }

/-! ### Roles (R391, R394) -/

/-- The active role, 0 for none. -/
def activeRole (d : Device) : Byte := match d.sec.session with
  | none => 0
  | some s => s.role

abbrev roleOperator : Byte := 1
abbrev roleInstaller : Byte := 2
abbrev roleMaker : Byte := 3

/-- The channel codes of R406 and R413. -/
def chanCode : Chan → Byte
  | .host => 1
  | .mgmt => 2
  | .usb => 3

/-! ### The ledger (R406 to R409) -/

abbrev ledgerMax : Nat := 4194304
abbrev bufferMax : Nat := 256

/-- Bytes 0 to 95 of an entry (R406). -/
def ledgerHead (seq : Nat) (b : LedgerBody) : List Byte :=
  leBytes 8 seq ++ leBytes 8 b.wall.toNat ++ leBytes 2 b.kind.toNat ++ [b.role, b.tenant] ++ leBytes 2 b.status.toNat ++
  [b.chan, 0] ++ padTo 8 b.detail ++ padTo 32 b.actor ++ padTo 32 b.act

/-- The 128 bytes of an entry. -/
def ledgerBytes (e : LedgerEntry) : List Byte := ledgerHead e.seq e.body ++ e.chain

/-- Append an entry to the ledger with its number and chain value (R406); a full ledger takes none (R409). -/
def ledgerCommit (b : LedgerBody) (d : Device) : Device :=
  if d.sec.ledger.length ≥ ledgerMax then d
  else
    let chain := digest32 (d.sec.chain ++ ledgerHead d.sec.nextSeq b)
    { d with
      sec.ledger := d.sec.ledger ++ [{ seq := d.sec.nextSeq, body := b, chain := chain }]
      sec.nextSeq := d.sec.nextSeq + 1
      sec.chain := chain }

/-- Flash program is available to the ledger, and no earlier entry waits: shed stage 0 and the core die running (R408, R502, R510). -/
def ledgerDurable (d : Device) : Bool := decide (d.pwr.stage = 0) && coreAlive d && d.sec.buffer.isEmpty

/-- Commit every buffered entry, oldest first (R408). -/
def ledgerFlush (d : Device) : Device :=
  d.sec.buffer.foldl (fun d b => ledgerCommit b d) { d with sec.buffer := [] }

/-- Write an entry: durable at once in stage 0, otherwise into the buffer while it has room (R408). -/
def ledgerWrite (b : LedgerBody) (d : Device) : Device :=
  if ledgerDurable d then ledgerCommit b d
  else if d.sec.buffer.length < bufferMax then { d with sec.buffer := d.sec.buffer ++ [b] }
  else d

/-- The ledger can take an entry now: buffer and ledger have room (R408, R409). -/
def ledgerRoom (d : Device) : Option W16 :=
  if !ledgerDurable d && decide (d.sec.buffer.length ≥ bufferMax) then some stShed
  else if d.sec.ledger.length + d.sec.buffer.length ≥ ledgerMax then some stLedgerFull
  else none

/-- The entry of a device event: role 5, the digest of its detail as the act (R406). -/
def eventBody (d : Device) (kind : W16) (detail : List Byte) (tenant : Byte := 0) (status : W16 := stOK) (chan : Byte := 0) :
    LedgerBody :=
  { wall := BitVec.ofNat 64 (wallNow d), kind := kind, role := 5, tenant := tenant, status := status, chan := chan,
    detail := detail, actor := zeros 32, act := digest32 (padTo 8 detail) }

/-- Ledger a device event (R407). -/
def ledgerEvent (kind : W16) (detail : List Byte) (d : Device) (tenant : Byte := 0) (status : W16 := stOK) (chan : Byte := 0) :
    Device := ledgerWrite (eventBody d kind detail tenant status chan) d

/-- Record an INTERNAL fault: its ledger entry, DEV_EVENT.FAULT and the latch of bead 0 (R87, R407, R550). -/
def internalFault (code value : Nat) (d : Device) : Device :=
  latchBead 0 <| setEvent evFault (ledgerEvent 0x0032 (leBytes 4 code ++ leBytes 4 value) d 0 stInternal)

/-- Actor and role code of a packet: the tenant's public key, or the credential of the session it is sealed under (R406). -/
def actorOf (d : Device) (p : Packet) : Byte × List Byte :=
  if p.hdr.tenant ≠ 0 then
    match Assoc.find d.sec.parts p.hdr.tenant.toNat with
    | some q => (4, digest32 q.pub)
    | none => (4, zeros 32)
  else if p.role ≠ 0 ∧ p.hdr.flags.getLsbD 0 then (p.role, digest32 p.cred)
  else (0, zeros 32)

/-- Ledger the act of a packet under a given act digest (R406). -/
def ledgerDigest (p : Packet) (kind : W16) (detail : List Byte) (tenant : Byte) (status : W16) (act : List Byte) (d : Device) : Device :=
  let (role, actor) := actorOf d p
  ledgerWrite
    { wall := BitVec.ofNat 64 (wallNow d), kind := kind, role := role, tenant := tenant, status := status, chan := chanCode p.chan,
      detail := detail, actor := actor, act := act } d

/-- Ledger the act of a packet (R406, R407). -/
def ledgerAct (p : Packet) (kind : W16) (detail : List Byte) (tenant : Byte) (status : W16) (d : Device) : Device :=
  ledgerDigest p kind detail tenant status (digest32 (p.raw ++ p.plain)) d

/-- Ledger a refused act (R392, R394): kind REFUSED with the opcode. -/
def ledgerRefused (p : Packet) (status : W16) (d : Device) : Device :=
  ledgerAct p 0x0003 (leBytes 4 p.hdr.opcode.toNat) p.hdr.tenant status d

/-- Ledger a role-gated act that succeeded under CONFIG (R407). -/
def ledgerConfig (p : Packet) (d : Device) : Device :=
  ledgerAct p 0x0020 (leBytes 4 p.hdr.opcode.toNat) p.hdr.tenant stOK d

/-! ### Records and tags (R71 to R76) -/

abbrev ringSlots : Nat := 2048

/-- Records held that are unbound (R64). -/
def heldUnbound (d : Device) : Nat := (d.cmd.held.filter fun r => !r.bound).length

/-- Queue a record on the host port's ring, or hold it (R72, R74, R64). -/
def queueRecord (r : Record) (d : Device) : Device :=
  if d.cmd.ring.length < ringSlots then { d with cmd.ring := d.cmd.ring ++ [r], cmd.head := d.cmd.head + 1 }
  else if r.bound || decide (heldUnbound d < 256) then { d with cmd.held := d.cmd.held ++ [r] }
  else { d with cmd.unboundLost := true, cmd.lostCount := d.cmd.lostCount + 1 }

/-- Move held records into the slots that are free, in completion order (R74). -/
def refillRing (d : Device) : Device :=
  let n := ringSlots - d.cmd.ring.length
  let moved := d.cmd.held.take n
  { d with cmd.ring := d.cmd.ring ++ moved, cmd.held := d.cmd.held.drop n, cmd.head := d.cmd.head + BitVec.ofNat 12 moved.length }

/-- A record made now. -/
def recordOf (d : Device) (tag status : W16) (bound : Bool) (result : List Byte) (opcode : W16) (tenant : Byte) : Record :=
  { tag := tag, status := status, bound := bound, result := result, wall := BitVec.ofNat 64 (wallNow d), at_ := d.clock,
    opcode := opcode, tenant := tenant }

/-- Send a reply on one of Onyx's channels; one for a receptacle that is detached is dropped (R397, R552). -/
def sendReply (c : Chan) (r : Record) (d : Device) : Device :=
  if c = .usb ∧ !d.panel.usb then d else { d with cmd.replies := d.cmd.replies ++ [{ chan := c, record := r }] }

/-- Queue an unbound record on the channel of the refused submission (R62, R397). -/
def unboundRecord (c : Chan) (tag status : W16) (opcode : W16) (tenant : Byte) (d : Device) : Device :=
  let r := recordOf d tag status false [] opcode tenant
  match c with
  | .host => queueRecord r d
  | c => sendReply c r d

/-- The tag state of R84: 0 free, 1 in flight, 2 held, 3 in the ring, with the opcode and tenant of its packet. -/
def tagState (d : Device) (tag : W16) : Nat × W16 × Byte :=
  match d.cmd.flight.find? (fun p => p.chan == .host && p.hdr.tag == tag) with
  | some p => (1, p.hdr.opcode, p.hdr.tenant)
  | none =>
    match d.cmd.held.find? (fun r => r.bound && r.tag == tag) with
    | some r => (2, r.opcode, r.tenant)
    | none =>
      match d.cmd.ring.find? (fun r => r.bound && r.tag == tag) with
      | some r => (3, r.opcode, r.tenant)
      | none => (0, 0, 0)

/-- Find an accepted packet that has not completed. -/
def findPacket (d : Device) (r : Ref) : Option Packet := d.cmd.flight.find? fun p => p.chan == r.chan && p.hdr.tag == r.tag

/-- The name of a packet. -/
def refOf (p : Packet) : Ref := { chan := p.chan, tag := p.hdr.tag }

/-- Take a packet out of flight. -/
def dropPacket (p : Packet) (d : Device) : Device :=
  { d with cmd.flight := d.cmd.flight.filter fun q => !(q.chan == p.chan && q.hdr.tag == p.hdr.tag) }

/-- SEALED, FENCE, QUIET (R55). -/
def isSealed (p : Packet) : Bool := p.hdr.flags.getLsbD 0
def isFence (p : Packet) : Bool := p.hdr.flags.getLsbD 1
def isQuiet (p : Packet) : Bool := p.hdr.flags.getLsbD 2

/-- The counter of a sealed packet (R66). -/
def counterOf (p : Packet) : List Byte := p.payload.take 8

/-- The GCM IV of R66 and R70. -/
def packetIv (dir : Byte) (p : Packet) : List Byte := [dir, p.hdr.tenant, 0, 0] ++ counterOf p

/-- The result as it goes out: sealed under the packet's key when the packet was sealed (R70). -/
def resultOut (p : Packet) (status : W16) (result : List Byte) : List Byte :=
  if result.isEmpty then []
  else if isSealed p then counterOf p ++ gcmSeal p.key (packetIv (if p.sched then 2 else 1) p) (p.raw ++ leBytes 2 status.toNat) result
  else result

/-- Complete a packet: its record is queued on its channel (R72, R74, R397), or none for a QUIET packet that ends OK without a
result (R76). Every AUTH_FAIL is counted (R67). -/
def finish (p : Packet) (status : W16) (result : List Byte) (d : Device) : Device :=
  let d := dropPacket p d
  let d := if status = stAuthFail then { d with cmd.authFailCount := d.cmd.authFailCount + 1 } else d
  let out := resultOut p status result
  let r := recordOf d p.hdr.tag status true out p.hdr.opcode p.hdr.tenant
  if isQuiet p && decide (status = stOK) && out.isEmpty then d
  else match p.chan with
    | .host => queueRecord r d
    | c => sendReply c r d

/-- Mark a packet as parsed and started, with its plaintext (R59). -/
def startPacket (p : Packet) (plain : List Byte) (d : Device) : Device :=
  { d with cmd.flight := d.cmd.flight.map fun q =>
      if q.chan == p.chan && q.hdr.tag == p.hdr.tag then { q with started := true, plain := plain } else q }

/-- Bytes of the intake buffer that unparsed packets occupy (R59). -/
def intakeUsed (d : Device) : Nat :=
  (d.cmd.flight.map fun p => if p.started || decide (p.chan ≠ .host) then 0 else 32 + p.payload.length).foldl (· + ·) 0

end Sys2Proof.Machine
end

