-- ==== Sys2Proof/Machine/Operands.lean ====
section
/-! DEFINITION. What a packet presents to its operation: keys and authentication (R65 to R67, R380, R513), the order of
failures (R19) and the ordering of packets (R79). -/

namespace Sys2Proof.Machine

/-! ### Keys (R380) -/

/-- A partition. -/
def partOf (d : Device) (t : Nat) : Option Partition := Assoc.find d.sec.parts t

/-- serial ‖ tenant. -/
def keyContext (d : Device) (t : Byte) : List Byte := serialBytes d ++ [t]

/-- K_cmd of a generation (R380). -/
def kCmd (d : Device) (t : Byte) (g : Generation) : List Byte := kdf g.secret "LN-CMD" (keyContext d t)
/-- K_ap of a generation (R380). -/
def kAp (d : Device) (t : Byte) (g : Generation) : List Byte := kdf g.secret "LN-APT" (keyContext d t)
/-- K_mig of a generation (R380). -/
def kMig (t : Byte) (g : Generation) : List Byte := kdf g.secret "LN-MIG" [t]
/-- K_wrap of a generation (R380). -/
def kWrap (t : Byte) (g : Generation) : List Byte := kdf g.secret "LN-WRAP" [t]

/-- The key under which a packet accepted now on a channel is verified; empty where there is none (R65, R388, R396). -/
def keyFor (d : Device) (c : Chan) (tenant : Byte) : List Byte :=
  if tenant = 0 then
    match d.sec.session with
    | some s => if s.chan = c then s.key else []
    | none => []
  else match partOf d tenant.toNat with
    | some q => match q.cur with
      | some g => kCmd d tenant g
      | none => []
    | none => []

/-- Role and credential of the session open on a channel. -/
def roleFor (d : Device) (c : Chan) : Byte × List Byte :=
  match d.sec.session with
  | some s => if s.chan = c then (s.role, s.cred) else (0, [])
  | none => (0, [])

/-! ### Counters (R67, R513) -/

/-- The counters of a key. -/
def countersOf (d : Device) (key : List Byte) : KeyCounter :=
  (d.cmd.counters.find? fun k => k.key == key).getD { key := key, last := 0, floor := 0 }

/-- Accept a counter under a key; a tenant command key's floor is stored ahead of it (R513). -/
def acceptCounter (key : List Byte) (c : Nat) (tenantKey : Bool) (d : Device) : Device :=
  let k := countersOf d key
  let k' : KeyCounter := { k with last := c, floor := if tenantKey && decide (k.floor ≤ c) then c + 65536 else k.floor }
  if d.cmd.counters.any fun x => x.key == key then
    { d with cmd.counters := d.cmd.counters.map fun x => if x.key == key then k' else x }
  else { d with cmd.counters := d.cmd.counters ++ [k'] }

/-! ### The shape of an opcode -/

/-- What an opcode's chapter states for its packets. -/
structure OpSpec where
  opcode   : Nat
  /-- The stated plaintext size (R69); none where it varies or where its range reports length otherwise. -/
  size     : Option Nat
  /-- Tenant field 0 and tenant fields 1 to 8 are accepted (R558). -/
  dev      : Bool := false
  part     : Bool := false
  /-- Roles of a role-gated opcode at tenant field 0; empty where it is not role-gated (R65). -/
  roles    : List Byte := []
  /-- Reserved byte ranges of the payload, offset and length, and reserved bits, offset and mask (R16). -/
  reserved : List (Nat × Nat) := []
  bits     : List (Nat × Byte) := []
  /-- Served while its partition is being removed (R400). -/
  removal  : Bool := false
  /-- Served by Onyx while the core die is frozen or in FAULT (R502, R516). -/
  onyx     : Bool := false

/-- Every reserved field of a plaintext is zero (R16). -/
def reservedOk (sp : OpSpec) (b : List Byte) : Bool :=
  sp.reserved.all (fun r => (slice b r.1 r.2).all (· == 0)) && sp.bits.all fun r => byteAt b r.1 &&& r.2 == 0

/-- Plaintext length of a payload (R66). -/
def plainLen (p : Packet) : Nat := if p.sched then p.plain.length else p.payload.length - (if isSealed p then 24 else 0)

/-- The packet is authentic as R65 to R67 ask: its plaintext, and its counter where it is sealed. One that a schedule entry makes was sealed
when the entry was added (R328). -/
def openPacket (d : Device) (gated : Bool) (p : Packet) : Option (List Byte × Option Nat) :=
  if p.sched then some (p.plain, none)
  else if isSealed p then
    let c := leNat (counterOf p)
    if p.key.isEmpty then none
    else if c = 0 ∨ c ≤ (countersOf d p.key).last then none
    else (gcmOpen p.key (packetIv 0 p) p.raw (p.payload.drop 8)).map fun pl => (pl, some c)
  else if p.hdr.tenant ≠ 0 ∨ gated then none
  else some (p.payload, none)

/-- Count the accepted packet: the key's counter, and the session's idle time (R67, R396). -/
def acceptPacket (p : Packet) (c : Option Nat) (d : Device) : Device :=
  match c with
  | none => d
  | some n =>
    let d := acceptCounter p.key n (decide (p.hdr.tenant ≠ 0)) d
    match d.sec.session with
    | some s => if p.hdr.tenant = 0 ∧ s.key = p.key then { d with sec.session := some { s with lastUsed := max s.lastUsed p.at_ } } else d
    | none => d

/-- The partition of a tenant value is fenced: it is being removed (R400), or a partition reset of it runs (R512). -/
def isRemoving (d : Device) (t : Nat) : Bool :=
  match partOf d t with
  | some q => q.removal.isSome || decide (d.clock < q.fencedTo)
  | none => false

/-- A packet may start: no fence and no earlier packet of its job holds it (R79). That SERVE_CANCEL is taken from the intake buffer ahead of
every other packet (R292) needs no case here: the model starts packets in the order in which its commands come. -/
def canStart (d : Device) (p : Packet) : Bool :=
  !p.started && d.cmd.flight.all fun q =>
    !(decide (q.order < p.order) && q.hdr.tenant == p.hdr.tenant) ||
    (!isFence q && !isFence p && (!(q.hdr.job == p.hdr.job && p.hdr.job != 0) || q.started))

/-- Something serves the packet now: the command processor in READY, or Onyx for its two channels while the core die is frozen
or in FAULT (R502, R516). -/
def served (d : Device) (p : Packet) : Bool :=
  isReady d || (decide (p.chan ≠ .host) && (isFrozen d || decide (d.boot.phase = .fault)))

/-- Refuse a packet with a status and no result. -/
def refuse (p : Packet) (st : W16) (d : Device) : Device := finish p st [] d

/-- Complete a packet with OK and no result. -/
def complete (p : Packet) (d : Device) : Device := finish p stOK [] d

/-- The checks of R19 up to the tenant field, then the operation's own body, given the started packet and its plaintext. -/
def runChecked (sp : OpSpec) (p : Packet) (body : Packet → List Byte → Device → Device) (d : Device) : Device :=
  let t := p.hdr.tenant
  let gated := decide (t = 0) && !sp.roles.isEmpty
  if sp.size.any (fun n => plainLen p != n) then refuse p stBadPacket d
  else if t.toNat > 8 ∨ (t ≠ 0 ∧ (partOf d t.toNat).isNone) then refuse p stNoTenant d
  else if isRemoving d t.toNat && !sp.removal then refuse p stPartRemoving d
  else match openPacket d gated p with
    | none => refuse p stAuthFail d
    | some (b, c) =>
      let d := acceptPacket p c (startPacket p b d)
      let p := { p with started := true, plain := b }
      if !reservedOk sp b then refuse p stBadPacket d
      else if gated && !sp.roles.contains p.role then refuse p stDeniedRole (ledgerRefused p stDeniedRole d)
      else if (t = 0 ∧ !sp.dev) ∨ (t ≠ 0 ∧ !sp.part) then refuse p stBadArgument d
      else if !isReady d && !sp.onyx then refuse p stFrozen d
      else body p b d

/-- Leave a started packet waiting: the same command takes it up again. -/
def hold (p : Packet) (d : Device) : Device :=
  { d with cmd.flight := d.cmd.flight.map fun q =>
      if q.chan == p.chan && q.hdr.tag == p.hdr.tag then { q with held := true } else q }

/-- Run the packet a command names, if it is accepted, not started, of this opcode, and nothing holds it; otherwise the command
finds nothing to do. -/
def runOp (sp : OpSpec) (r : Ref) (body : Packet → List Byte → Device → Device) (d : Device) : Device :=
  match findPacket d r with
  | none => d
  | some p =>
    if p.hdr.opcode.toNat = sp.opcode ∧ served d p then
      if p.held then body p p.plain d
      else if canStart d p then runChecked sp p body d
      else d
    else d

/-- A privileged act that must be ledgered: refused while the ledger cannot take its entry (R408, R409). -/
def privileged (p : Packet) (act : Device → Device) (d : Device) : Device :=
  match ledgerRoom d with
  | some st => refuse p st d
  | none => act d

/-! ### Payload fields -/

/-- A little-endian word of 32 bits at an offset. -/
def word32 (b : List Byte) (off : Nat) : W32 := BitVec.ofNat 32 (field b off 4)
/-- A little-endian word of 16 bits at an offset. -/
def word16 (b : List Byte) (off : Nat) : W16 := BitVec.ofNat 16 (field b off 2)

end Sys2Proof.Machine
end

