-- ==== Sys2Proof/Machine/Regs.lean ====
section
/-! DEFINITION. Writes to RWL fields: their roles and their ledger entries (R12, R557). -/

namespace Sys2Proof.Machine

/-- The entry of a register write: the active role and its credential, the address as detail (R406, R407). -/
def regBody (d : Device) (kind : W16) (addr : Nat) (status : W16) : LedgerBody :=
  let detail := leBytes 4 addr ++ zeros 4
  { wall := BitVec.ofNat 64 (wallNow d), kind := kind, role := activeRole d, tenant := 0, status := status, chan := 1, detail := detail,
    actor := match d.sec.session with | some s => digest32 s.cred | none => zeros 32
    act := digest32 detail }

/-- Ledger a register write, or note that its entry was dropped (R557). -/
def ledgerReg (kind : W16) (addr : Nat) (status : W16) (d : Device) : Device :=
  if (ledgerRoom d).isSome then { d with sec.cfgDropped := true } else ledgerWrite (regBody d kind addr status) d

/-- A write to the RWL fields of a register: discarded and ledgered REFUSED without the role or with a value it does not take (R12),
otherwise ledgered CONFIG and applied, unless the ledger cannot take the entry (R557). -/
def rwl (addr : Nat) (roles : List Byte) (ok : Bool) (f : Device → Device) (d : Device) : Device :=
  if !roles.contains (activeRole d) then ledgerReg 0x0003 addr stDeniedRole d
  else if !ok then ledgerReg 0x0003 addr stBadArgument d
  else if (ledgerRoom d).isSome then { d with sec.cfgDropped := true }
  else f (ledgerReg 0x0020 addr stOK d)

/-- Fields writable while the installer role is active. -/
abbrev byInstaller : List Byte := [roleInstaller]
abbrev byEither : List Byte := [roleInstaller, roleMaker]
abbrev byMaker : List Byte := [roleMaker]

/-- The maker role is active: its own registers answer (R392). -/
def makerActive (d : Device) : Bool := activeRole d == roleMaker

end Sys2Proof.Machine
end

