-- ==== Sys2Proof/Machine/ArrayMath.lean ====
section
/-! DEFINITION. The arithmetic of a matrix array (04_matrix_arrays R124 to R138, R142, R143; 03_numeric_formats R102 to R105):
array-ready tiles, the column sums of R131 to R133, convolution reuse, and the drain. -/

namespace Sys2Proof.Machine

/-! ### Array-ready tiles (R102 to R105) -/

/-- Bytes of an array-ready tile by its format code; none for a reserved format (R102). -/
def weightTileSize (fmt : Nat) : Option Nat :=
  if fmt = 0x04 then some 2496 else if fmt = 0x06 then some 3520
  else if fmt = 0x08 then some 4544 else if fmt = 0x10 then some 8640 else none

/-- The header of an array-ready tile, unless R105 rejects it. -/
def tileHdrOf (b : List Byte) : Option TileHdr :=
  let fmt := field b 0 1; let g := field b 1 1; let fl := field b 2 1
  let vn := field b 4 2; let vk := field b 6 2
  if (weightTileSize fmt).isNone ∨ g > 3 ∨ (g = 3 ∧ fmt ≠ 0x10) ∨ (g ≠ 3 ∧ fmt = 0x10) then none
  else if vn = 0 ∨ vn > 64 ∨ vk = 0 ∨ vk > 64 then none
  else if fl / 4 ≠ 0 ∨ byteAt b 3 ≠ 0 ∨ !(slice b 20 44).all (· == 0) then none
  else some { format := fmt, group := g, loadCs := bitOf fl 0, lastK := bitOf fl 1, validN := vn, validK := vk,
              ktile := field b 8 4, ntile := field b 12 4, tensor := field b 16 4 }

/-- Bits of a weight code of a format. -/
def codeBits (fmt : Nat) : Nat := if fmt = 0x04 then 4 else if fmt = 0x06 then 6 else 8

/-- The 16-bit weight registers of output channel n: sign-extended codes, or BF16 values (R96, R125). -/
def weightColumn (h : TileHdr) (b : List Byte) (n : Nat) : List W16 :=
  if h.format = 0x10 then (List.range 64).map fun k => BitVec.ofNat 16 (field b (448 + 128 * n + 2 * k) 2)
  else
    let bits := codeBits h.format
    let row := slice b (448 + 8 * bits * n) (8 * bits)
    (List.range 64).map fun k => BitVec.ofInt 16 (weightCode bits row k)

/-- Group scale entry i. -/
def groupScaleAt (b : List Byte) (i : Nat) : W16 := BitVec.ofNat 16 (field b (64 + 2 * i) 2)

/-- CS of rows 31 and 63 of column n (R103, R131). -/
def columnScales (h : TileHdr) (b : List Byte) (n : Nat) : W16 × W16 :=
  if h.group = 0 then (groupScaleAt b (2 * n), groupScaleAt b (2 * n + 1)) else (0, groupScaleAt b (2 * n))

/-- The 64 channel scales of a tile. -/
def channelScales (b : List Byte) : List W16 := (List.range 64).map fun n => BitVec.ofNat 16 (field b (320 + 2 * n) 2)

/-- The data bytes of the tile whose header is at the front of `b` load into the registers of an array (R139, R140). -/
def loadWeights (h : TileHdr) (b : List Byte) (s : ArrayState) : ArrayState :=
  let cols := (List.range 64).map (weightColumn h b)
  let scales := (List.range 64).map (columnScales h b)
  { s with cw := cols, nw := cols, cs := scales, ns := scales, loaded := some h,
           pending := if h.loadCs then some (channelScales b) else s.pending }

/-! ### Column sums (R131 to R133) -/

abbrev accLimit : Int := 2 ^ 39 - 1

/-- The sum passing south through a column: A, P, the events so far, and the pair of every cell passed. -/
structure ColSum where
  a     : Int
  p     : Int
  sat   : Nat := 0
  inv   : Nat := 0
  trace : List (Int × Int) := []
deriving DecidableEq, Repr

/-- Add an unbounded value into A, saturating at ±(2^39 − 1) (R131). -/
def addAcc (s : ColSum) (c : Int) : ColSum :=
  let v := s.a + c
  { s with a := clampInt (-accLimit) accLimit v, sat := if v > accLimit ∨ v < -accLimit then s.sat + 1 else s.sat }

/-- The value c that a group scale makes of P (R131). -/
def rescaleValue (scale : Nat) (p ea : Int) : Int :=
  let v := gsValue scale
  if v.isZero then 0 else Dy.round .rne ((v.mul (.ofInt p)).scale (2 - ea)) 0

/-- rescale of R131: the open group's P moves into A under its scale. -/
def rescale (scale : Nat) (ea : Int) (s : ColSum) : ColSum := { addAcc s (rescaleValue scale s.p ea) with p := 0 }

/-- Note the pair that the cell leaves. -/
def ColSum.leave (s : ColSum) : ColSum := { s with trace := (s.a, s.p) :: s.trace }

/-- A cell of row k in a W-format pass (R131, R564): `q` is its code and `m` the mantissa. -/
def wCell (h : TileHdr) (ea : Int) (inN : Bool) (cs : W16 × W16) (k : Nat) (q m : Int) (s : ColSum) : ColSum :=
  let s := if inN && decide (k < h.validK) then { s with p := s.p + q * m } else s
  let sc (c : W16) (live : Bool) : Nat := if inN && live then c.toNat else 0x8000
  let s := if k = 31 ∧ h.group = 0 then rescale (sc cs.1 true) ea s else s
  if k = 63 ∧ h.group = 0 then rescale (sc cs.2 (decide (h.validK > 32))) ea s
  else if k = 63 ∧ (h.group = 1 ∨ (h.group = 2 ∧ (h.ktile % 2 = 1 ∨ h.lastK))) then rescale (sc cs.2 true) ea s
  else s

/-- Signed significand with the hidden bit and unbiased exponent of a finite BF16 pattern (R132). -/
def bfParts (v : Nat) : Int × Int :=
  let ex := bitsOf v 7 8
  if ex = 0 then (0, 0) else ((if bitOf v 15 then -1 else 1) * (128 + (bitsOf v 0 7 : Nat) : Int), (ex : Int) - 127)

/-- A cell in a BF16-weight pass (R132, R133, R564): `act` is the activation's value, `ax` the descriptor's AX for BF16
activations and none for FX16 ones. DESIGN CHOICE: an infinity's contribution counts one SAT, also where adding it saturates A. -/
def bCell (h : TileHdr) (ea : Int) (inN : Bool) (k : Nat) (w : W16) (act : W16) (ax : Option Int) (s : ColSum) : ColSum :=
  if !inN || decide (k ≥ h.validK) then s
  else
    let fw := fpDecode bf16 w.toNat
    let m := signedOf 16 act.toNat
    let fa : Fp := match ax with
      | some _ => fpDecode bf16 act.toNat
      | none => fpOf (.ofInt m)
    match fw, fa with
    | .nan, _ => { s with inv := s.inv + 1 }
    | _, .nan => { s with inv := s.inv + 1 }
    | .inf n1, .inf n2 => { addAcc { s with sat := 0 } (if n1 == n2 then accLimit else -accLimit) with sat := s.sat + 1 }
    | .inf n1, .fin n2 mag =>
      if mag.isZero then { s with inv := s.inv + 1 }
      else { addAcc { s with sat := 0 } (if n1 == n2 then accLimit else -accLimit) with sat := s.sat + 1 }
    | .fin n1 mag, .inf n2 =>
      if mag.isZero then { s with inv := s.inv + 1 }
      else { addAcc { s with sat := 0 } (if n1 == n2 then accLimit else -accLimit) with sat := s.sat + 1 }
    | .fin _ _, .fin _ _ =>
      let (sw, ew) := bfParts w.toNat
      match ax with
      | none => addAcc s (Dy.round .rne ⟨sw * m, ew - ea - 5⟩ 0)
      | some x =>
        let (sa, eact) := bfParts act.toNat
        addAcc s (Dy.round .rne ⟨sw * sa, ew + eact - ea - x + 3⟩ 0)

/-- The sum of column n for one token row, from the pair that enters at the north (R131, R132, R134). -/
def columnSum (h : TileHdr) (ea : Int) (ax : Option Int) (n : Nat) (ws : List W16) (cs : W16 × W16) (row : List W16)
    (start : Int × Int) : ColSum :=
  let inN := decide (n < h.validN)
  ((List.range 64).zip (ws.zip row)).foldl (fun s kwm =>
    let (k, w, act) := kwm
    (if h.format = 0x10 then bCell h ea inN k w act ax s
     else wCell h ea inN cs k (signedOf 16 w.toNat) (signedOf 16 act.toNat) s).leave)
    { a := start.1, p := start.2 }

/-! ### Token rows and convolution (R142, R143) -/

/-- The 64 elements that a CONV token takes: C new ones, and those that row k − C took before (R142). -/
def convRow (c : Nat) (fresh prev : List W16) : List W16 := fresh.take c ++ prev.take (64 - c)

/-- All token rows of a CONV pass from its source rows and the row before the first (R143). -/
def convRows (c : Nat) (prime : Bool) : List W16 → List (List W16) → List (List W16)
  | _, [] => []
  | prev, r :: rs =>
    let cur := if prime then r.take 64 else convRow c r prev
    cur :: convRows c false cur rs

/-! ### Drain (R136 to R138) -/

/-- What a drained row holds: its elements, little-endian patterns of the drain's width, and its needed exponent. -/
structure DrainRow where
  elems : List Nat
  ev    : NumEv
  obs   : Option Int
deriving DecidableEq, Repr

/-- Bytes per element of a drain (R136). -/
def drainBytes (raw : Bool) (drainType : Nat) : Nat := if raw then 8 else if drainType = 0x11 then 4 else 2

/-- One column of a drained row: pattern, events, needed exponent (R136). -/
def drainElem (raw : Bool) (drainType : Nat) (mode : Rnd) (scale : Nat) (u xsite : Int) (inN : Bool) (a : Int) :
    Nat × NumEv × Option Int :=
  if raw then (if inN then patternOf 64 a else 0, {}, none)
  else
    let v : Dy := if inN then (gsValue scale).mul ⟨a, u⟩ else Dy.zero
    if drainType = 0x12 then
      let (m, ev) := fxOfFp mode (fpOf v) xsite
      (patternOf 16 m, ev, some (fxNeeded mode v))
    else
      let (pat, sat) := fpEncode (if drainType = 0x10 then bf16 else fp32) mode (fpOf v)
      (pat, evSat sat, none)

/-- A drained row: every column of one array for one token row (R136, R138). -/
def drainRow (raw : Bool) (drainType : Nat) (mode : Rnd) (scales : List W16) (u xsite : Int) (validN : Nat) (as : List Int) :
    DrainRow :=
  let cols := (List.range 64).map fun n =>
    drainElem raw drainType mode (scales.getD n 0).toNat u xsite (decide (n < validN)) (as.getD n 0)
  let ev := cols.foldl (fun e c => e.add c.2.1) {}
  { elems := cols.map (·.1)
    ev := if ev.ovf > 0 then { ev with rows := 1 } else ev
    obs := cols.foldl (fun o c => maxOpt o c.2.2) none }

end Sys2Proof.Machine
end

