-- ==== Sys2Proof/Machine/Fabric.lean ====
section
/-! DEFINITION. Fabric space (R32, R33, R443), tile stores, and the DRAM write queues that every DRAM write passes (R450, R452,
R453). -/

namespace Sys2Proof.Machine

abbrev commonsSize : Nat := 0x200_0000
abbrev storeSize : Nat := 0x90_0000
abbrev dramBase : Nat := 0x100_0000_0000
abbrev channelSize : Nat := 0xF000_0000
abbrev bankSize : Nat := 0x10_0000
abbrev pageSize : Nat := 0x1_0000

/-- Fabric address of the store of a tile. -/
def tileBase (t : Nat) : Nat := 0x200_0000 + t * storeSize
/-- Fabric address of the data range of a channel (R443). -/
def channelBase (c : Nat) : Nat := dramBase + c * channelSize

/-- The channel whose data range holds an address. -/
def channelOf (a : Nat) : Option Nat :=
  if dramBase ≤ a ∧ a < dramBase + 32 * channelSize then some ((a - dramBase) / channelSize) else none

/-! ### DRAM write queues -/

abbrev queueMax : Nat := 128

def chanOf (d : Device) (c : Nat) : DramChan := SMap.get {} d.dram.chans c
def onChan (c : Nat) (f : DramChan → DramChan) (d : Device) : Device := { d with dram.chans := SMap.modify {} d.dram.chans c f }

/-- An entry drains: a partial block is a read-modify-write and is counted (R450). -/
def drainOne (c : Nat) (d : Device) : Device :=
  match (chanOf d c).queue with
  | [] => d
  | e :: q =>
    let d := onChan c (fun x => { x with queue := q }) d
    if e.mask = BitVec.allOnes 64 then d else { d with dram.rmwCount := d.dram.rmwCount + 1 }

/-- The first block that a range meets among those known to be Uncorrectable (R449). -/
def badIn (d : Device) (a n : Nat) : Option Nat := d.dram.bad.find? fun b => decide (b < a + n) && decide (a < b + 64)

/-- Whole blocks of a range are written: an earlier error at them is gone (R450). -/
def heal (a n : Nat) (d : Device) : Device :=
  { d with dram.bad := d.dram.bad.filter fun b => !(decide (a ≤ b) && decide (b + 64 ≤ a + n)) }

/-- The mask of bytes `lo` up to, not including, `hi` of a block. -/
def blockMask (lo hi : Nat) : BitVec 64 := BitVec.ofNat 64 (2 ^ hi - 2 ^ lo)

/-- A block whose queued bytes and the new ones make it whole is no broken block any more (R449). -/
def healWhole (c block : Nat) (m : BitVec 64) (d : Device) : Device :=
  let before := match (chanOf d c).queue.find? fun e => e.block == block with | some e => e.mask | none => 0
  if before ||| m = BitVec.allOnes 64 then heal block 64 d else d

/-- The queue entry of a block: a new one, or the bytes joined to the entry it already has (R452, R453). -/
def joinBlock (c block : Nat) (m : BitVec 64) (d : Device) : Device :=
  if (chanOf d c).queue.any fun e => e.block == block then
    onChan c (fun x => { x with queue := x.queue.map fun e => if e.block = block then { e with mask := e.mask ||| m } else e }) d
  else
    let d := if (chanOf d c).queue.length ≥ queueMax then drainOne c d else d
    let old := Mem.bytes d.fab block 64
    onChan c (fun x =>
      let q := x.queue ++ [{ block := block, mask := m, old := old }]
      { x with queue := q, draining := x.draining || decide (q.length ≥ d.dram.high.toNat) }) d

/-- A write to a block enters its channel's queue: it merges into a queued entry (R453), or waits for room by draining the oldest
(R452). -/
def enqueueBlock (block lo hi : Nat) (d : Device) : Device :=
  match channelOf block with
  | none => d
  | some c => joinBlock c block (blockMask lo hi) (healWhole c block (blockMask lo hi) d)

/-- Every block that a write covers enters a queue. -/
def enqueueRange (a : Nat) : Nat → Nat → Device → Device
  | 0, _, d => d
  | fuel + 1, n, d =>
    if n = 0 ∨ (channelOf a).isNone then d
    else
      let lo := a % 64
      let k := min n (64 - lo)
      enqueueRange (a + k) fuel (n - k) (enqueueBlock (a - lo) lo (lo + k) d)

/-! ### Reads and writes -/

/-- Write bytes at a fabric address: DRAM writes pass the write queues, whose reads are forwarded (R453). -/
def fabWrite (a : Nat) (bs : List Byte) (d : Device) : Device :=
  let d := if (channelOf a).isSome then enqueueRange a (bs.length + 1) bs.length d else d
  { d with fab := Mem.store d.fab a bs }

/-- Bytes at a fabric address. -/
def fabRead (d : Device) (a n : Nat) : List Byte := Mem.bytes d.fab a n

/-- Scrub a fabric range to zero (R194, R450). -/
def fabScrub (a n : Nat) (d : Device) : Device := { heal a n d with fab := Mem.scrub d.fab a n }

/-- Bytes of a tile store. -/
def storeBytes (d : Device) (t off n : Nat) : List Byte := Mem.bytes d.fab (tileBase t + off) n
/-- Little-endian field of a tile store. -/
def storeField (d : Device) (t off n : Nat) : Nat := leNat (storeBytes d t off n)
/-- 16-bit elements of a byte string. -/
def elems16 : List Byte → List W16
  | a :: b :: rest => BitVec.ofNat 16 (leNat [a, b]) :: elems16 rest
  | _ => []

/-- FX16 mantissas of a tile's store. -/
def mantissas (d : Device) (k off n : Nat) : List Int := (elems16 (storeBytes d k off (2 * n))).map fun w => signedOf 16 w.toNat

/-- Write bytes into a tile store. -/
def storeWrite (t off : Nat) (bs : List Byte) (d : Device) : Device := { d with fab := Mem.store d.fab (tileBase t + off) bs }
/-- Write bytes that fit into a tile store; a place that a plan or an operand names beyond it is left alone. -/
def storePut (t off : Nat) (bs : List Byte) (d : Device) : Device := if off + bs.length ≤ storeSize then storeWrite t off bs d else d

end Sys2Proof.Machine
end

