-- ==== Sys2Proof/Machine/Lists.lean ====
section
/-! DEFINITION. The layouts of pass and vector descriptors (R147, R148, R161 to
R163) with the knots and registers they name. -/

namespace Sys2Proof.Machine

/-! ### Pass descriptors (R147, R148) -/

/-- A pass descriptor. -/
structure PassDesc where
  kind      : Nat
  mask      : Nat
  twin      : Bool
  actType   : Nat
  drainType : Nat
  rows      : Nat
  flags     : Nat
  rnd       : Nat
  ea        : Int
  ax        : Int
  c         : Nat
  site      : Nat
  accId     : W16
  weight    : List Nat
  act       : List Nat
  actExp    : List Nat
  actStride : Nat
  outStride : Nat
  out       : List Nat
  outExp    : List Nat
  knot      : Nat
  raw       : List Byte
deriving DecidableEq, Repr

/-- Four 4-byte entries at an offset. -/
def four (b : List Byte) (off : Nat) : List Nat := (List.range 4).map fun i => field b (off + 4 * i) 4

/-- Read a pass descriptor from its 128 bytes. -/
def passDesc (b : List Byte) : PassDesc :=
  { kind := field b 0 1, mask := field b 1 1 % 16, twin := bitOf (field b 1 1) 4, actType := field b 2 1,
    drainType := field b 3 1, rows := field b 4 2, flags := field b 6 1, rnd := field b 7 1 % 8,
    ea := signedOf 8 (field b 8 1), ax := signedOf 8 (field b 9 1), c := field b 10 1, site := field b 12 2,
    accId := word16 b 14, weight := four b 16, act := four b 32, actExp := four b 48, actStride := field b 64 4,
    outStride := field b 68 4, out := four b 72, outExp := four b 88, knot := field b 104 4, raw := b }

def PassDesc.raw_ (p : PassDesc) : Bool := bitOf p.flags 4
def PassDesc.prime (p : PassDesc) : Bool := bitOf p.flags 3
def PassDesc.holdW (p : PassDesc) : Bool := bitOf p.flags 2
def PassDesc.accIn (p : PassDesc) : Bool := bitOf p.flags 1

/-- Arrays a pass enables. -/
def PassDesc.arrays (p : PassDesc) : List Nat := (List.range 4).filter fun a => bitOf p.mask a
/-- The activation stream of an array (R144). -/
def PassDesc.stream (p : PassDesc) (a : Nat) : Nat := if p.twin then a else 0
/-- Streams that the pass reads. -/
def PassDesc.streams (p : PassDesc) : List Nat := if p.twin then p.arrays else [0]
/-- Offset of the array-ready tile of an array (R147). -/
def PassDesc.weightAt (p : PassDesc) (a : Nat) : Nat := p.weight.getD (if p.twin then 0 else a) 0
/-- Bytes per drained element. -/
def PassDesc.elem (p : PassDesc) : Nat := drainBytes p.raw_ p.drainType
/-- The pass drains FX16, which writes row exponents. -/
def PassDesc.fx (p : PassDesc) : Bool := !p.raw_ && p.drainType == 0x12

/-- An act or out field names a tile register (R147). -/
def isReg (v : Nat) : Bool := bitOf v 31

/-- Tile registers that a pass reads (R164). -/
def PassDesc.reads (p : PassDesc) : List Nat := p.streams.flatMap fun s => let v := p.act.getD s 0; if isReg v then [v % 16] else []

/-- Tile registers that a pass's out fields cover (R164, R561). -/
def PassDesc.writes (p : PassDesc) : List Nat := p.arrays.flatMap fun a => let v := p.out.getD a 0
  if isReg v then (List.range (p.elem / 2)).map fun i => v % 16 + i else []

/-- Tile registers a pass uses (R164). -/
def PassDesc.regs (p : PassDesc) : List Nat := p.reads ++ p.writes

/-! ### Vector descriptors (R161 to R163) -/

/-- A slot byte (R162). -/
structure Slot where
  used   : Bool
  wide   : Bool
  target : Nat
deriving DecidableEq, Repr

def slotOf (v : Nat) : Slot := { used := bitOf v 7, wide := bitOf v 6, target := v % 32 }

/-- Registers a slot covers over a span (R162). -/
def Slot.regs (s : Slot) (span : Nat) : List Nat :=
  if !s.used || decide (s.target ≥ 16) then []
  else (List.range (if s.wide then 2 * span else span)).map fun i => s.target + i

/-- A vector descriptor. -/
structure VecDesc where
  kind  : Nat
  span  : Nat
  rnd   : Nat
  src   : List Slot
  dst   : List Slot
  mode  : List Nat
  knot  : Nat
  raw   : List Byte
deriving DecidableEq, Repr

/-- Read a vector descriptor from its 64 bytes. -/
def vecDesc (b : List Byte) : VecDesc :=
  { kind := field b 0 1, span := field b 1 1, rnd := field b 3 1 % 8,
    src := (List.range 4).map fun i => slotOf (field b (4 + i) 1),
    dst := (List.range 2).map fun i => slotOf (field b (8 + i) 1),
    mode := (List.range 2).map fun i => field b (10 + i) 1, knot := field b 60 4, raw := b }

abbrev kStitch : Nat := 0x11
abbrev kReduce : Nat := 0x12
abbrev kLoad : Nat := 0x13
abbrev kStore : Nat := 0x14
abbrev kWait : Nat := 0x15
abbrev kEnd : Nat := 0xFF

/-- The slots that a descriptor of this kind reads or writes, each with its offset in the descriptor (R163). -/
def VecDesc.slots (v : VecDesc) : List (Nat × Slot) :=
  (if v.kind = kStitch then
    (v.src.zipIdx.map fun (s, i) => (4 + i, s)) ++ v.dst.zipIdx.map fun (s, i) => (8 + i, s)
  else if v.kind = kReduce ∨ v.kind = kStore then [(4, v.src.getD 0 (slotOf 0))]
  else if v.kind = kLoad then [(8, v.dst.getD 0 (slotOf 0))]
  else []).filter fun x => x.2.used

/-- Every slot in use, whatever the kind, with its offset in the descriptor (R162, R168). -/
def VecDesc.used (v : VecDesc) : List (Nat × Slot) :=
  (v.src.zipIdx.map (fun (x : Slot × Nat) => (4 + x.2, x.1)) ++ v.dst.zipIdx.map fun (x : Slot × Nat) => (8 + x.2, x.1)).filter fun x => x.2.used

/-- A LOAD or STORE that names an accumulator (R163). -/
def VecDesc.acc (v : VecDesc) : Bool := (v.kind == kLoad || v.kind == kStore) && v.slots.any fun x => decide (x.2.target ≥ 16)

/-- The span of the slots: 1 where SPAN is ignored (R161). -/
def VecDesc.reach (v : VecDesc) : Nat := if v.kind == kWait || v.acc then 1 else v.span

/-- Tile registers a vector descriptor uses: those that its slots cover (R164). -/
def VecDesc.regs (v : VecDesc) : List Nat := v.used.flatMap fun x => x.2.regs v.reach

/-- Those of them that the descriptor writes. -/
def VecDesc.writes (v : VecDesc) : List Nat :=
  if v.kind = kStitch ∨ v.kind = kLoad then v.slots.flatMap fun x => if x.1 < 8 then [] else x.2.regs v.reach else []

/-! ### Knots that lists name (R331, R335) -/

/-- The knot a SIGNAL field names. -/
def signalKnot (field_ : Nat) : List Nat := if bitOf field_ 31 then [field_ % 65536] else []

/-- Knots that the pass list at an offset of a byte space names, up to its END. -/
def passListKnots (rd : Nat → Nat → List Byte) (addr : Nat) : Nat → List Nat
  | 0 => []
  | fuel + 1 =>
    let p := passDesc (rd addr 128)
    if p.kind = kEnd then [] else signalKnot p.knot ++ passListKnots rd (addr + 128) fuel

/-- Knots that the vector list at an offset names, in SIGNAL fields and WAITs. -/
def vecListKnots (rd : Nat → Nat → List Byte) (addr : Nat) : Nat → List Nat
  | 0 => []
  | fuel + 1 =>
    let b := rd addr 64
    let v := vecDesc b
    if v.kind = kEnd then []
    else signalKnot v.knot ++ (if v.kind = kWait then [field b 16 2] else []) ++ vecListKnots rd (addr + 64) fuel

/-- Descriptors that can follow an offset within a tile store. -/
def listFuel (addr size : Nat) : Nat := (storeSize - addr) / size

/-- Knots that the lists queued or running on a tile name. -/
def tileKnots (d : Device) (t : Nat) (ts : TileState) : List Nat :=
  let rd := fun off n => storeBytes d t off n
  (ts.passes.flatMap fun l => passListKnots rd (l.addr + 128 * l.index) (listFuel l.addr 128)) ++
  (ts.vecs.flatMap fun l => vecListKnots rd (l.addr + 64 * l.index) (listFuel l.addr 64)) ++
  (ts.flight.flatMap fun f => signalKnot f.knot.toNat) ++
  (match ts.vflight with | some v => signalKnot v.knot.toNat | none => []) ++
  (match ts.vwait with | some w => w.1.toNat :: signalKnot w.2.2.toNat | none => [])

/-- Knots that a Fixed-plane image names (R307, R335). -/
def imageKnots (img : List Byte) : List Nat :=
  (List.range (field img 2 1)).flatMap fun i =>
    let e := 32 + 16 * i
    let off := field img e 4; let len := field img (e + 4) 4
    let rd := fun a n => if a < len then slice img (off + a) n else zeros n
    passListKnots rd (field img (e + 8) 4) (len / 128) ++ vecListKnots rd (field img (e + 12) 4) (len / 64)

end Sys2Proof.Machine
end

