-- ==== Sys2Proof/Machine/Knots.lean ====
section
/-! DEFINITION. Knots (10_fixed_plane_gauge R329 to R332, R335, R336). -/

namespace Sys2Proof.Machine

/-- A knot. -/
def knotOf (d : Device) (k : Nat) : Knot := SMap.get {} d.knots.knots k

/-- The modulus of a knot's value: 2^32, or Q = P × ⌊2^32 / P⌋ for a barrier knot (R329). -/
def knotModulus (k : Knot) : Nat := if k.party = 0 then 2 ^ 32 else k.party.toNat * (2 ^ 32 / k.party.toNat)

/-- A wait condition holds for a value (R330); a barrier knot's values are compared modulo Q. -/
def condHolds (value : W32) (modulus : Nat) : KnotCond → Bool
  | .equal v => value == v
  | .atLeast v => decide ((value.toNat + modulus - v.toNat % modulus) % modulus < modulus / 2)

/-- Put a value into a knot. -/
def knotPut (k : Nat) (v : W32) (d : Device) : Device :=
  { d with knots.knots := SMap.modify {} d.knots.knots k fun x => { x with value := v } }

/-- A satisfied wait completes its packet with the value (R330). -/
def endWait (v : W32) (d : Device) (w : KnotWaiter) : Device := match findPacket d w.ref with
  | some p => finish p stOK (leBytes 4 v.toNat) d
  | none => d

/-- A WAIT whose condition holds: it completes as the descriptor in flight, which then signals its own knot (R161, R163). -/
def waitMet (l : QList) (field_ : W32) : FlightVec :=
  { knot := field_, regs := [], cycles := 1, tenant := l.tenant, job := l.job, layer := l.layer }

/-- A vector list that waits on a knot goes on once the value satisfies it (R163, R330). -/
def wakeVec (k : Nat) (v : W32) (ts : TileState) : TileState := match ts.vwait with
  | some (kn, want, own) =>
    if kn.toNat == k && condHolds v (2 ^ 32) (.atLeast want) then
      { ts with vwait := none, vflight := (ts.vecs.head?).map fun l => waitMet l own }
    else ts
  | none => ts

/-- A wait on knot `k` whose condition holds for a value. -/
def waitDone (k : Nat) (v : W32) (w : KnotWaiter) : Bool := w.knot.toNat == k && condHolds v w.modulus w.cond

/-- Evaluate every wait on a knot (R330): satisfied packets complete with the value, and waiting vector lists go on. -/
def knotEvaluate (k : Nat) (d : Device) : Device :=
  let v := (knotOf d k).value
  let done := d.knots.waiters.filter (waitDone k v)
  let d := { d with knots.waiters := d.knots.waiters.filter fun w => !waitDone k v w }
  let d := done.foldl (endWait v) d
  { d with tiles := d.tiles.map fun (t, ts) => (t, wakeVec k v ts) }

/-- Signal a knot by n: one update, then every wait on it (R329, R330). -/
def knotSignal (k n : Nat) (d : Device) : Device :=
  let x := knotOf d k
  knotEvaluate k (knotPut k (BitVec.ofNat 32 ((x.value.toNat + n) % knotModulus x)) d)

/-- Signal the knot that a descriptor's knot field names, by one (R147, R161). -/
def knotSignalField (f : Nat) (d : Device) : Device := if bitOf f 31 then knotSignal (f % 65536) 1 d else d

/-- A knot belongs to a caller: device knots to tenant field 0, and to a tenant the knots that KNOT_ALLOC gave it (R335). -/
def ownsKnot (d : Device) (tenant : Byte) (k : Nat) : Bool :=
  if tenant = 0 then decide (k < 4096)
  else let x := knotOf d k; x.allocated && x.owner == tenant

/-- A knot is in use by a wait, a queued list, a schedule entry or the loaded Fixed-plane image (R335). -/
def knotBusy (d : Device) (k : Nat) : Bool :=
  d.knots.waiters.any (fun w => w.knot.toNat == k) ||
  d.tiles.any (fun p => (tileKnots d p.1 p.2).contains k) ||
  d.gauge.sched.any (fun e => e.2.action == .knot && e.2.knot.toNat == k) ||
  (match d.fix.image with | some i => (imageKnots i).contains k | none => false)

/-- Knots a tenant holds. -/
def knotsHeld (d : Device) (tenant : Byte) : Nat := (d.knots.knots.filter fun p => p.2.allocated && p.2.owner == tenant).length

/-- The first of `count` knots in a row, from `k` upward and below `hi`, that are not allocated. -/
def freeRun (d : Device) (count hi : Nat) : Nat → Nat → Option Nat
  | 0, _ => none
  | fuel + 1, k =>
    if k + count > hi then none
    else if (List.range count).all fun i => !(knotOf d (k + i)).allocated then some k
    else freeRun d count hi fuel (k + 1)

/-- Where KNOT_ALLOC places a run: at some run that is free, which one is left open. The search begins at a free place and goes on from the
lowest knot. -/
def pickRun (d : Device) (count lo hi : Nat) : Option Nat :=
  (freeRun d count hi (hi - lo) (lo + Config.freeNat d.freeCtr % (hi - lo))).or (freeRun d count hi (hi - lo) lo)

/-! ### Commands -/

def knotRoles : List Byte := [roleInstaller, roleMaker]

/-- The ledger can take the entry of an act that is role-gated at tenant field 0 (R19, R408, R409). -/
def roomFor (p : Packet) (act : Device → Device) (d : Device) : Device := if p.hdr.tenant = 0 then privileged p act d else act d

/-- A role-gated act at tenant field 0 is ledgered as CONFIG and needs room for its entry; a tenant's act is not. -/
def gatedAct (p : Packet) (act : Device → Device) (d : Device) : Device :=
  if p.hdr.tenant = 0 then privileged p (fun d => act (ledgerConfig p d)) d else act d

/-- KNOT_ALLOC (R335): a contiguous run of free knots, each at 0 with the P given. -/
def knotAlloc (p : Packet) (b : List Byte) (d : Device) : Device :=
  let count := field b 0 2; let party := word16 b 2; let t := p.hdr.tenant
  if count = 0 ∨ count > 1024 then refuse p stBadArgument d
  else roomFor p (fun d =>
    let lo := if t = 0 then 0 else 4096
    let hi := if t = 0 then 4096 else 65536
    let quota := match partOf d t.toNat with | some q => q.knotQuota | none => 4096
    match pickRun d count lo hi with
    | some k =>
      if t ≠ 0 ∧ knotsHeld d t + count > quota then refuse p stKnotLimit d
      else gatedAct p (fun d =>
        finish p stOK (leBytes 2 k ++ [0, 0])
          { spend 1 d with knots.knots := (List.range count).foldl (fun m i =>
              SMap.set {} m (k + i) { value := 0, party := party, owner := t, allocated := true }) d.knots.knots }) d
    | none => refuse p stKnotLimit d) d

def execKnotAlloc (r : Ref) (s : State) : Out := run (fun d =>
  runOp { opcode := 0x0600, size := some 4, dev := true, part := true, roles := knotRoles } r knotAlloc d) s

/-- KNOT_FREE (R335). -/
def knotFree (p : Packet) (b : List Byte) (d : Device) : Device :=
  let k := field b 0 2; let count := field b 2 2; let t := p.hdr.tenant
  let run := (List.range count).map fun i => k + i
  if count = 0 ∨ count > 1024 ∨ k + count > 65536 then refuse p stBadArgument d
  else if t = 0 ∧ run.any (fun x => decide (x < 4096) && !(knotOf d x).allocated) then refuse p stBadArgument d
  else roomFor p (fun d =>
    if !run.all (ownsKnot d t) then refuse p stKnotNotOwned d
    else if run.any (knotBusy d) then refuse p stKnotBusy d
    else gatedAct p (fun d => complete p { d with knots.knots := run.foldl SMap.del d.knots.knots }) d) d

def execKnotFree (r : Ref) (s : State) : Out := run (fun d =>
  runOp { opcode := 0x0601, size := some 4, dev := true, part := true, roles := knotRoles } r knotFree d) s

/-- KNOT_SIGNAL (R330, R335). -/
def knotSignalOp (p : Packet) (b : List Byte) (d : Device) : Device :=
  let k := field b 0 2
  if !ownsKnot d p.hdr.tenant k then refuse p stKnotNotOwned d
  else complete p (knotSignal k (field b 4 4) d)

def execKnotSignal (r : Ref) (s : State) : Out := run (fun d =>
  runOp { opcode := 0x0602, size := some 8, dev := true, part := true, reserved := [(2, 2)] } r knotSignalOp d) s

/-- KNOT_WAIT (R330, R335): completes at once when its condition holds, otherwise it waits. A barrier waiter first signals by 1. -/
def knotWait (p : Packet) (b : List Byte) (d : Device) : Device :=
  let k := field b 0 2; let c := field b 2 1; let v := word32 b 4; let us := field b 8 4
  let x := knotOf d k
  if c > 2 ∨ (c = 2 ∧ x.party = 0) then refuse p stBadArgument d
  else if !ownsKnot d p.hdr.tenant k then refuse p stKnotNotOwned d
  else
    let m := knotModulus x
    let cond : KnotCond := if c = 0 then .atLeast v else if c = 1 then .equal v
      else .atLeast (BitVec.ofNat 32 ((x.value.toNat / x.party.toNat * x.party.toNat + x.party.toNat) % m))
    let d := if c = 2 then knotSignal k 1 d else d
    let now := (knotOf d k).value
    let m' := if c = 2 then m else 2 ^ 32
    if condHolds now m' cond then finish p stOK (leBytes 4 now.toNat) d
    else { d with knots.waiters := d.knots.waiters ++
      [{ ref := refOf p, knot := BitVec.ofNat 16 k, cond := cond, modulus := m',
         due := if us = 0 then none else some (d.clock + us * 1000) }] }

def execKnotWait (r : Ref) (s : State) : Out := run (fun d =>
  runOp { opcode := 0x0603, size := some 12, dev := true, part := true, reserved := [(3, 1)] } r knotWait d) s

/-- KNOT_WAIT_TIMEOUT (R336): the timeout of a pending wait passes. -/
def execKnotWaitTimeout (r : Ref) (s : State) : Out := run (fun d =>
  match d.knots.waiters.find? (fun w => w.ref == r), findPacket d r with
  | some w, some p =>
    match w.due with
    | some t =>
      if isReady d then
        let d := advanceTo t d
        refuse p stKnotTimeout { d with knots.waiters := d.knots.waiters.filter fun w => w.ref != r }
      else d
    | none => d
  | _, _ => d) s

/-- KNOT_READ (R335). -/
def knotRead (p : Packet) (b : List Byte) (d : Device) : Device :=
  let k := field b 0 2
  if !ownsKnot d p.hdr.tenant k then refuse p stKnotNotOwned d
  else let x := knotOf d k
    finish p stOK (leBytes 4 x.value.toNat ++ leBytes 2 x.party.toNat ++ [0, 0]) d

def execKnotRead (r : Ref) (s : State) : Out := run (fun d =>
  runOp { opcode := 0x0604, size := some 4, dev := true, part := true, reserved := [(2, 2)] } r knotRead d) s

/-- KNOT_SET (R335): one update of the value. -/
def knotSet (p : Packet) (b : List Byte) (d : Device) : Device :=
  let k := field b 0 2; let v := word32 b 4
  if v.toNat ≥ knotModulus (knotOf d k) then refuse p stBadArgument d
  else roomFor p (fun d =>
    if !ownsKnot d p.hdr.tenant k then refuse p stKnotNotOwned d
    else gatedAct p (fun d => complete p (knotEvaluate k (knotPut k v d))) d) d

def execKnotSet (r : Ref) (s : State) : Out := run (fun d =>
  runOp { opcode := 0x0605, size := some 8, dev := true, part := true, roles := knotRoles, reserved := [(2, 2)] } r knotSet d) s

/-- A host write to the knot window signals a device knot; a write of 0 has no effect (R332). -/
def execKnotWindowWrite (k : BitVec 12) (n : W32) (s : State) : Out := run (transact fun d =>
  if n ≠ 0 then knotSignal k.toNat n.toNat d else d) s

end Sys2Proof.Machine
end

