-- ==== Sys2Proof/Machine/Codec.lean ====
section
/-! DEFINITION. The two codecs of 07_compression: the lossless weight codec of containers (R226 to R231) and the fixed-rate stream
codec (R234 to R236). -/

namespace Sys2Proof.Machine

/-! ### The code table (R226, R229) -/

/-- The 256 code lengths of a 128-byte table: symbol 2i in the low half of byte i. -/
def codeLengths (tbl : List Byte) : List Nat := tbl.flatMap fun b => [b.toNat % 16, b.toNat / 16]

/-- A table is valid: the lengths fill the code space exactly, or one symbol alone has length 1 (R229). -/
def tableOk (lens : List Nat) : Bool :=
  let used := lens.filter (· ≠ 0)
  used == [1] || (used.map fun n => 2 ^ (15 - n)).sum == 2 ^ 15

/-- A symbol with its codeword: symbol, length, code. -/
abbrev CodeWord := Nat × Nat × Nat

/-- The codewords of one length, from the next code on. -/
def codesOf (lens : List Nat) (len : Nat) (st : Nat × List CodeWord) : Nat × List CodeWord :=
  lens.zipIdx.foldl (fun st (l, sym) => if l = len then (st.1 + 1, st.2 ++ [(sym, len, st.1)]) else st) st

/-- Canonical codewords (R229). -/
def codewords (lens : List Nat) : List CodeWord :=
  ((List.range' 1 15).foldl (fun st len => let r := codesOf lens len st; (2 * r.1, r.2)) (0, [])).2

/-! ### Bit streams (R228, R230) -/

/-- The bits of a byte string, bit 0 of byte 0 first. -/
def bitsOfBytes (bs : List Byte) : List Bool := bs.flatMap fun b => (List.range 8).map fun i => b.getLsbD i

/-- Bytes from bits, the last byte padded with zeros. -/
def bytesOfBits : Nat → List Bool → List Byte
  | 0, _ => []
  | fuel + 1, bits =>
    if bits.isEmpty then []
    else BitVec.ofNat 8 (((bits.take 8).zipIdx.map fun (b, i) => if b then 2 ^ i else 0).sum) :: bytesOfBits fuel (bits.drop 8)

/-- A decoded byte at this place of its array-ready tile is a literal (R228). -/
def isLiteral (tile x : Nat) : Bool := decide (x % tile < 448)

/-- The bits of a block's decoded bytes (R228, R230); a symbol without a codeword has none. -/
def encodeBits (cws : List CodeWord) (tile x : Nat) : List Byte → List Bool
  | [] => []
  | b :: bs =>
    (if isLiteral tile x then (List.range 8).map fun i => b.getLsbD i
     else match cws.find? fun w => w.1 == b.toNat with
       | some (_, len, code) => (List.range len).map fun i => bitOf code (len - 1 - i)
       | none => []) ++ encodeBits cws tile (x + 1) bs

/-- Read one codeword: the symbol and the bits that follow. -/
def readSymbol (cws : List CodeWord) : Nat → Nat → Nat → List Bool → Option (Byte × List Bool)
  | 0, _, _, _ => none
  | fuel + 1, len, code, bits =>
    match cws.find? fun w => w.2.1 == len && w.2.2 == code && len != 0 with
    | some w => some (BitVec.ofNat 8 w.1, bits)
    | none => match bits with
      | [] => none
      | b :: rest => readSymbol cws fuel (len + 1) (2 * code + if b then 1 else 0) rest

/-- Decode `n` bytes from position x of the decoded stream; the padding that is left must be zero (R230, R232). -/
def decodeBits (cws : List CodeWord) (tile : Nat) : Nat → Nat → List Bool → Option (List Byte)
  | 0, _, bits => if bits.any id then none else some []
  | n + 1, x, bits =>
    if isLiteral tile x then
      if bits.length < 8 then none
      else (decodeBits cws tile n (x + 1) (bits.drop 8)).map fun r => (bytesOfBits 1 (bits.take 8)).getD 0 0 :: r
    else match readSymbol cws 17 0 0 bits with
      | none => none
      | some (b, rest) => (decodeBits cws tile n (x + 1) rest).map fun r => b :: r

/-! ### Containers (R226, R227, R231) -/

abbrev codecBlock : Nat := 4096

/-- A container's header. -/
structure ContHdr where
  format  : Nat
  group   : Nat
  decoded : Nat
  blocks  : Nat
  payOff  : Nat
  payLen  : Nat
deriving DecidableEq, Repr

def contHdr (rd : Nat → Nat → List Byte) (at_ : Nat) : ContHdr :=
  let b := rd at_ 64
  { format := field b 2 1, group := field b 3 1, decoded := field b 8 8, blocks := field b 16 4, payOff := field b 20 4, payLen := field b 24 8 }

/-- Bytes that a tile of the format takes. -/
def tileBytes (fmt : Nat) : Nat := (weightTileSize fmt).getD 2496

/-- Index entry b: mode and offset in units of 16 bytes (R227). -/
def indexEntry (rd : Nat → Nat → List Byte) (at_ b : Nat) : Nat × Nat :=
  let w := leNat (rd (at_ + 192 + 4 * b) 4)
  (w / 2 ^ 30, w % 2 ^ 30)

/-- Decoded bytes of block b (R227). -/
def blockLength (h : ContHdr) (b : Nat) : Nat := min codecBlock (h.decoded - b * codecBlock)

/-- Where block b lies in the image and how many bytes it takes (R227). -/
def blockPlace (rd : Nat → Nat → List Byte) (at_ : Nat) (b : Nat) : Nat × Nat :=
  let h := contHdr rd at_
  let o := (indexEntry rd at_ b).2; let o' := (indexEntry rd at_ (b + 1)).2
  (at_ + h.payOff + 16 * o, 16 * (o' - o))

/-- Decode block b of the container at an offset; none where it fails by R232. -/
def decodeBlock (rd : Nat → Nat → List Byte) (at_ b : Nat) : Option (List Byte) :=
  let h := contHdr rd at_
  let n := blockLength h b
  let (mode, _) := indexEntry rd at_ b
  let (o, len) := blockPlace rd at_ b
  let stored := rd o len
  if mode = 2 then some (zeros n)
  else if mode = 1 then (if len < n ∨ (stored.drop n).any (· != 0) then none else some (stored.take n))
  else if mode = 0 then
    decodeBits (codewords (codeLengths (rd (at_ + 64) 128))) (tileBytes h.format) n (b * codecBlock) (bitsOfBytes stored)
  else none

/-- One block as WPACK writes it: mode and stored bytes (R231). -/
def encodeBlock (cws : List CodeWord) (tile x : Nat) (bs : List Byte) : Nat × List Byte :=
  if bs.all (· == 0) then (2, [])
  else
    let bits := encodeBits cws tile x bs
    let n := roundUp (ceilDiv bits.length 8) 16
    if n < bs.length then (0, padTo n (bytesOfBits (n + 1) bits))
    else (1, padTo (roundUp bs.length 16) bs)

/-- Blocks of a decoded stream. -/
def cutBlocks : Nat → List Byte → List (List Byte)
  | 0, _ => []
  | fuel + 1, bs => if bs.isEmpty then [] else bs.take codecBlock :: cutBlocks fuel (bs.drop codecBlock)

/-- The container of a decoded stream under a table, with its counts of stored and zero blocks (R226, R231). -/
def packContainer (fmt group tensor : Nat) (tbl bs : List Byte) : List Byte × Nat × Nat :=
  let cws := codewords (codeLengths tbl)
  let coded := (cutBlocks (bs.length / codecBlock + 1) bs).zipIdx.map fun (b, i) => encodeBlock cws (tileBytes fmt) (i * codecBlock) b
  let n := coded.length
  let payOff := roundUp (196 + 4 * n) 64
  let index := (coded.foldl (fun (st : List Byte × Nat) (m, b) => (st.1 ++ leBytes 4 (m * 2 ^ 30 + st.2), st.2 + b.length / 16)) ([], 0))
  let pay := coded.flatMap (·.2)
  (padTo payOff ([0x01, 0x00, BitVec.ofNat 8 fmt, BitVec.ofNat 8 group] ++ leBytes 4 tensor ++ leBytes 8 bs.length ++ leBytes 4 n ++
      leBytes 4 payOff ++ leBytes 8 pay.length ++ zeros 32 ++ tbl ++ index.1 ++ leBytes 4 (pay.length / 16)) ++ pay,
   (coded.filter fun x => x.1 == 1).length, (coded.filter fun x => x.1 == 2).length)

/-! ### The stream codec (R234 to R236) -/

/-- Round half even of a ratio of naturals. -/
def halfEven (n d : Nat) : Nat := (roundRatio .rne n d).toNat

/-- sc12(m) as a 12-bit pattern (R235). -/
def sc12 (m : Int) : Nat := patternOf 12 (clampInt (-2047) 2047 (roundRatio .rne m 16))

/-- sc8(m) as an 8-bit pattern (R235). -/
def sc8 (m : Int) : Nat :=
  let a := m.natAbs
  let (e, k) :=
    if a < 256 then let k := halfEven a 16; if k = 16 then (1, 0) else (0, k)
    else
      let e := a.log2 - 7
      let k := halfEven a (2 ^ (e + 3)) - 16
      let (e, k) := if k = 16 then (e + 1, 0) else (e, k)
      if e > 7 then (7, 15) else (e, k)
  if e = 0 ∧ k = 0 then 0 else (if m < 0 then 128 else 0) + 16 * e + k

/-- The mantissa that a code of a mode decodes to (R234). -/
def streamDecode (mode v : Nat) : Int :=
  if mode = 1 then 16 * signedOf 12 v
  else if mode = 2 then
    let e := v / 16 % 8; let f := v % 16
    let a : Int := if e = 0 then 16 * f else (16 + f) * 2 ^ (e + 3)
    if v ≥ 128 then -a else a
  else signedOf 16 v

/-- Pairs of mantissas as 24-bit words (R236). -/
def pairBytes : List Int → List Byte
  | a :: b :: rest => leBytes 3 (sc12 a + 4096 * sc12 b) ++ pairBytes rest
  | _ => []

/-- A coded mantissa plane (R235, R236). -/
def planeBytes (mode : Nat) (ms : List Int) : List Byte :=
  if mode = 1 then pairBytes ms
  else if mode = 2 then ms.map fun m => BitVec.ofNat 8 (sc8 m)
  else ms.flatMap fun m => leBytes 2 (patternOf 16 m)

/-- Bytes of a coded mantissa plane of n elements (R234). -/
def planeSize (mode n : Nat) : Nat := if mode = 1 then n * 3 / 2 else if mode = 2 then n else 2 * n

/-- Element i of a coded mantissa plane (R236). -/
def planeElem (mode : Nat) (plane : List Byte) (i : Nat) : Int :=
  if mode = 1 then streamDecode 1 (bitsOf (field plane (i / 2 * 3) 3) (12 * (i % 2)) 12)
  else if mode = 2 then streamDecode 2 (byteAt plane i).toNat
  else streamDecode 0 (field plane (2 * i) 2)

/-- Offset of the exponent plane of a coded tensor: the next 64-byte boundary behind the mantissas (R110, R236). -/
def codedExpAt (mode rows cols : Nat) : Nat := roundUp (planeSize mode (rows * cols)) 64

/-- Bytes of a coded tensor. -/
def codedLen (mode rows cols : Nat) : Nat := codedExpAt mode rows cols + roundUp rows 64

/-- A coded tensor from FX16 mantissas and row exponents. -/
def encodeTensor (mode rows cols : Nat) (ms : List Int) (exps : List Byte) : List Byte :=
  padTo (codedExpAt mode rows cols) (planeBytes mode ms) ++ padTo (roundUp rows 64) exps

/-- The mantissas of a coded tensor as FX16 bytes, and its row exponents. -/
def decodeTensor (mode rows cols : Nat) (b : List Byte) : List Byte × List Byte :=
  ((List.range (rows * cols)).flatMap (fun i => leBytes 2 (patternOf 16 (planeElem mode b i))), slice b (codedExpAt mode rows cols) rows)

end Sys2Proof.Machine
end

