-- ==== Sys2Proof/Machine/Dram.lean ====
section
/-! DEFINITION. The DRAM subsystem (14_dram): read classes and their reports (R449), write drains (R450, R452), patrol, refresh,
the oscillator check, the mapping order, self-refresh, and the DRAM block's writes. -/

namespace Sys2Proof.Machine

/-! ### Rows, check bytes and banks (R442 to R445) -/

/-- Bytes of a row. -/
abbrev rowSize : Nat := 2048

/-- Where a data byte lies in a channel's rows (R444): row slot, block within the row, byte within the row. -/
structure RowPlace where
  slot : Nat
  k    : Nat
  byte : Nat
deriving DecidableEq, Repr

/-- The place of a channel offset. -/
def placeOf (o : Nat) : RowPlace :=
  let q := o / 64
  let slot := q / 30
  { slot := slot, k := q - slot * 30, byte := (q - slot * 30) * 64 + (o - q * 64) }

/-- The channel offset of a data block. -/
def blockOffset (slot k : Nat) : Nat := 64 * (30 * slot + k)

/-- The check bytes of a data block as they stand (R448). -/
def checkOf (d : Device) (c slot k : Nat) : List Byte :=
  padTo 4 (Config.checkBytes c slot (fabRead d (channelBase c + blockOffset slot k) 64))

/-- The 128 bytes of a row that the check range shows: the check bytes of its 30 blocks, and padding of zeros. -/
def rowCheck (d : Device) (c slot : Nat) : List Byte := ((List.range 30).flatMap (checkOf d c slot)) ++ zeros 8

/-- The 2,048 bytes of a row: 30 data blocks, then their check bytes and the padding. -/
def rowBytes (d : Device) (c slot : Nat) : List Byte := fabRead d (channelBase c + blockOffset slot 0) 1920 ++ rowCheck d c slot

/-- The byte at an offset of a channel's check range (R443, R444); no access reaches it (R33). -/
def checkByte (d : Device) (c e : Nat) : Byte := byteAt (rowCheck d c (e / 128)) (e % 128)

/-- Bank group, bank and row of a row slot under a mapping order (R445). -/
def bankOf (order : BitVec 2) (slot : Nat) : Nat × Nat × Nat :=
  let bits := fun lo n => bitsOf slot lo n
  if order = 0 then (bits 0 2, bits 2 2, bits 4 17)
  else if order = 1 then ((bits 0 2) ^^^ (bits 4 2), (bits 2 2) ^^^ (bits 6 2), bits 4 17)
  else (bits 19 2, bits 17 2, bits 0 17)

/-! ### Read classes (R449) -/

/-- Sources of DRAM_ERR_INFO (R464). -/
abbrev srcStream : Byte := 0
abbrev srcMaint : Byte := 1
abbrev srcPatrol : Byte := 2
abbrev srcRmw : Byte := 3
abbrev srcTrain : Byte := 4

/-- A Corrected block: counted, and the corrected data queued as a full-block write. -/
def dramCorrected (block : Nat) (d : Device) : Device :=
  enqueueBlock block 0 64 { d with dram.corrCount := d.dram.corrCount + 1, dram.corr := true }

/-- An Uncorrectable block: recorded, counted and ledgered. -/
def dramUncorrectable (block : Nat) (source : Byte) (d : Device) : Device :=
  internalFault 2 (block / 4096) { d with
    dram.errAddr := block
    dram.errSource := source
    dram.errStep := 0
    dram.errChan := BitVec.ofNat 5 ((channelOf block).getD 0)
    dram.uncorrCount := d.dram.uncorrCount + 1
    dram.uncorr := true
    dram.bad := if d.dram.bad.contains block then d.dram.bad else d.dram.bad ++ [block]
    boot.dramFault := true }

/-- The class of a read: a block that was Uncorrectable stays so until it is written whole (R450). -/
def readClass (d : Device) (block : Nat) (ecc : EccClass) : EccClass := if d.dram.bad.contains block then .uncorrectable else ecc

/-- Handle a read of a block by its class; tight is a class of flash alone. -/
def dramRead (block : Nat) (source : Byte) (ecc : EccClass) (d : Device) : Device :=
  match readClass d block ecc with
  | .clean => d
  | .tight => d
  | .corrected => dramCorrected block d
  | .uncorrectable => dramUncorrectable block source d

/-- An operation whose transfer read an Uncorrectable block ends with INTERNAL (R449). -/
def failBlock (p : Packet) (block : Nat) (d : Device) : Device := refuse p stInternal (dramUncorrectable block srcStream d)

/-! ### Writes (R450, R452) -/

/-- A read is pending on a channel's arbitration point. -/
def readPending (d : Device) (c : Nat) : Bool :=
  let a := SMap.get {} d.mem.arb c
  a.owner.isSome || !a.waiting.isEmpty

/-- Put back what the masked bytes of a block held. -/
def revertBlock (e : DramEntry) (d : Device) : Device :=
  { d with fab := (List.range 64).foldl (fun m i => if e.mask.getLsbD i then Mem.setByte m (e.block + i) (byteAt e.old i) else m) d.fab }

/-- A channel drains to empty (R461). -/
def drainAll (c : Nat) : Nat → Device → Device
  | 0, d => d
  | n + 1, d => drainAll c n (drainOne c d)

/-- DRAM_WRITE_DRAIN (R450, R452): the channel serves its oldest write when it drains or no read is pending. A read-modify-write whose
read is Uncorrectable is not performed. -/
def execDramWriteDrain (c : BitVec 5) (ecc : EccClass) (s : State) : Out := run (fun d =>
  let c := c.toNat
  let ch := chanOf d c
  if !coreAlive d || ch.selfRef || (readPending d c && !ch.draining) then d
  else match ch.queue with
    | [] => d
    | e :: _ =>
      let d := drainOne c d
      let d := onChan c (fun x => { x with draining := x.draining && decide (x.queue.length > d.dram.low.toNat) }) d
      if e.mask = BitVec.allOnes 64 then d
      else match readClass d e.block ecc with
        | .uncorrectable => dramUncorrectable e.block srcRmw (revertBlock e d)
        | .corrected => { d with dram.corrCount := d.dram.corrCount + 1, dram.corr := true }
        | _ => d) s

/-! ### Patrol, refresh, oscillator (R451, R455, R459) -/

/-- PATROL_READ (R451): the next block of a channel in an idle cycle. -/
def execPatrolRead (c : BitVec 5) (ecc : EccClass) (s : State) : Out := run (fun d =>
  let c := c.toNat
  let ch := chanOf d c
  if !coreAlive d || ch.selfRef || decide (d.dram.hours = 0) || readPending d c || !ch.queue.isEmpty then d
  else
    let d := onChan c (fun x => { x with patrol := (x.patrol + 64) % channelSize }) d
    let d := { d with dram.patrolBusy := (List.range 32).any fun k => decide ((chanOf d k).patrol ≠ 0) }
    dramRead (channelBase c + ch.patrol) srcPatrol ecc d) s

/-- REFRESH (R455): a due refresh of a bank is postponed while reads or writes are pending, up to 8; otherwise the bank is refreshed. -/
def execRefresh (c : BitVec 5) (bank : BitVec 4) (high : Bool) (s : State) : Out := run (fun d =>
  let c := c.toNat
  let ch := chanOf d c
  if !coreAlive d || ch.selfRef then d
  else
    let busy := readPending d c || !ch.queue.isEmpty
    let n := SMap.get 0 ch.postponed bank.toNat
    onChan c (fun x => { x with
      high := high
      postponed := if busy then (if n < 8 then SMap.set 0 x.postponed bank.toNat (n + 1) else x.postponed)
                   else SMap.set 0 x.postponed bank.toNat 0 }) d) s

/-- OSCILLATOR_CHECK (R459): a drift above 1/16 UI, in units of 1/64 UI, loads new lane delays. -/
def execOscillatorCheck (c : BitVec 5) (drift : Nat) (lanes : W32) (s : State) : Out := run (fun d =>
  let c := c.toNat
  if !coreAlive d || (chanOf d c).selfRef || decide (drift ≤ 4) then d
  else onChan c (fun x => { x with lanes := lanes, retrains := x.retrains + 1 }) d) s

/-! ### The mapping order (R446) -/

/-- DRAM_MAP_CFG takes a write while no partition exists; the whole DRAM is then scrubbed. -/
def mapCfgWrite (v : W32) (d : Device) : Device :=
  rwl 0x00070008 byInstaller (decide (v.toNat % 4 ≠ 3) && d.sec.parts.isEmpty) (fun d =>
    { fabScrub dramBase (32 * channelSize) d with
      dram.order := BitVec.ofNat 2 v.toNat
      dram.mapBusy := true
      dram.chans := (List.range 32).foldl (fun m c => SMap.modify {} m c fun x => { x with queue := [], draining := false }) d.dram.chans }) d

/-- DRAM_MAP_CFG_WRITE. -/
def execDramMapCfgWrite (v : W32) (s : State) : Out := run (transact (mapCfgWrite v)) s

/-- MAP_SCRUB_COMPLETE (R446). -/
def execMapScrubComplete (s : State) : Out := run (fun d => if coreAlive d then { d with dram.mapBusy := false } else d) s

/-! ### Self-refresh (R460 to R463) -/

/-- A channel enters self-refresh: its write queue drains first (R461). -/
def enterSelfRefresh (c : Nat) (d : Device) : Device :=
  let d := drainAll c (chanOf d c).queue.length d
  onChan c (fun x => { x with selfRef := true, draining := false, wokenAt := none }) d

/-- A channel leaves self-refresh (R462). -/
def leaveSelfRefresh (c : Nat) (d : Device) : Device := onChan c (fun x => { x with selfRef := false, wokenAt := none }) d

/-- SELF_REFRESH_EXIT (R462, R463): while a shed stage holds the channels, the exit is that of a maintenance access. -/
def execSelfRefreshExit (c : BitVec 5) (s : State) : Out := run (fun d =>
  let c := c.toNat
  if coreAlive d ∧ (chanOf d c).selfRef then
    let d := leaveSelfRefresh c d
    if d.pwr.stage ≥ 2 then onChan c (fun x => { x with wokenAt := some d.clock }) d else d
  else d) s

/-- SELF_REFRESH_REENTRY (R463, R504): 1 ms without an access has passed; while frozen nothing drains. -/
def execSelfRefreshReentry (c : BitVec 5) (s : State) : Out := run (fun d =>
  let c := c.toNat
  match (chanOf d c).wokenAt with
  | some at_ =>
    if isFrozen d then onChan c (fun x => { x with selfRef := true, wokenAt := none }) (advanceTo (at_ + 1000000) d)
    else if coreAlive d ∧ d.pwr.stage ≥ 2 then enterSelfRefresh c (advanceTo (at_ + 1000000) d) else d
  | none => d) s

/-! ### Counters (R464) -/

/-- A write of DRAM_CTR_CLEAR: the maker's alone. -/
def dramCtrClear (v : W32) (d : Device) : Device :=
  if makerActive d ∧ v.getLsbD 0 then
    { d with
      dram.corrCount := 0
      dram.uncorrCount := 0
      dram.codecCount := 0
      dram.rmwCount := 0
      dram.chans := (List.range 32).foldl (fun m c => SMap.modify {} m c fun x => { x with retrains := 0 }) d.dram.chans }
  else d

/-- DRAM_CTR_CLEAR_WRITE. -/
def execDramCtrClearWrite (v : W32) (s : State) : Out := run (transact (dramCtrClear v)) s

end Sys2Proof.Machine
end

