-- ==== Sys2Proof/Machine/Arbiter.lean ====
section
/-! DEFINITION. The deadline arbiters (06_memory_tiers R216 to R219): one at the read port of each DRAM channel and at each flash
channel. -/

namespace Sys2Proof.Machine

def arbOf (d : Device) (p : Nat) : ArbPoint := SMap.get {} d.mem.arb p
def onArb (p : Nat) (f : ArbPoint → ArbPoint) (d : Device) : Device := { d with mem.arb := SMap.modify {} d.mem.arb p f }

/-- A transfer comes up at a point: a strictly smaller latest-service time than the owner's pre-empts it, and the transfer pre-empted is the
first of its requester to go on (R216 rules 1, 4 and 5). A requester that owns the point has no other request there (rule 6). -/
def raiseReq (p : Nat) (r : ArbReq) (d : Device) : Device :=
  onArb p (fun a => match a.owner with
    | some o => if r.lst < o.lst ∧ r.who ≠ o.who then
        { a with owner := some r, waiting := o :: a.waiting, grants := a.grants + 1, preempts := a.preempts + 1 }
      else { a with waiting := a.waiting ++ [r] }
    | none => { a with waiting := a.waiting ++ [r] }) d

/-- Smallest latest-service time, then lowest requester number (R216 rule 2). -/
def arbBefore (a b : ArbReq) : Bool := decide (a.lst < b.lst) || (decide (a.lst = b.lst) && decide (a.who ≤ b.who))

/-- The request granted next. DESIGN CHOICE: of its own transfers a requester raises the nearest, the earliest among equals, as no rule
gives their order. -/
def nextReq : List ArbReq → Option ArbReq
  | [] => none
  | r :: rs => match nextReq rs with
    | none => some r
    | some x => some (if arbBefore r x then r else x)

/-- Drop one request. -/
def dropReq (r : ArbReq) : List ArbReq → List ArbReq
  | [] => []
  | x :: xs => if x = r then xs else x :: dropReq r xs

/-- Withdraw the transfers that satisfy a test, at every point. -/
def withdrawReqs (gone : ArbReq → Bool) (d : Device) : Device :=
  { d with mem.arb := d.mem.arb.map fun (p, a) =>
      (p, { a with owner := a.owner.filter fun r => !gone r, waiting := a.waiting.filter fun r => !gone r }) }

/-- Some transfer that satisfies a test has not ended. -/
def anyReq (d : Device) (f : ArbReq → Bool) : Bool := d.mem.arb.any fun x => x.2.owner.any f || x.2.waiting.any f

/-- A channel in self-refresh accepts no grant (R461). -/
def pointOpen (d : Device) (p : Nat) : Bool := decide (p ≥ 32) || !(chanOf d p).selfRef

/-- ARBITER_GRANT (R216). -/
def execArbiterGrant (point : BitVec 6) (s : State) : Out := run (fun d =>
  let p := point.toNat
  let a := arbOf d p
  match a.owner, nextReq a.waiting with
  | none, some r =>
    if coreAlive d ∧ pointOpen d p then onArb p (fun a => { a with owner := some r, waiting := dropReq r a.waiting, grants := a.grants + 1 }) d
    else d
  | _, _ => d) s

/-- Pieces of a range of at most a size each. -/
def cutRange (size a n : Nat) : List (Nat × Nat) := (List.range (ceilDiv n size)).map fun i => (a + i * size, min size (n - i * size))

/-- The transfers of a list that read DRAM are raised, each at its channel (R219). -/
def raiseAll (rs : List ArbReq) (d : Device) : Device :=
  rs.foldl (fun d r => match channelOf r.addr with | some c => raiseReq c r d | none => d) d

end Sys2Proof.Machine
end

