-- ==== Sys2Proof/Machine/Memory.lean ====
section
/-! DEFINITION. Arenas, buffers and extents, their placement and movement, and the 0x02xx opcodes (06_memory_tiers R188 to R205,
R220 to R225; R447). -/

namespace Sys2Proof.Machine

abbrev block4k : Nat := 4096
abbrev sramExtentMax : Nat := 0x80_0000

/-! ### Arenas, handles and extents (R188 to R190) -/

def arenaOf (d : Device) (t : Nat) : Arena := (Assoc.find d.mem.arenas t).getD {}

def onArena (t : Nat) (f : Arena → Arena) (d : Device) : Device :=
  { d with mem.arenas := Assoc.insert d.mem.arenas t (f (arenaOf d t)) }

/-- A buffer handle (R188). -/
def handleOf (t gen slot : Nat) : Nat := t * 2 ^ 28 + gen * 2 ^ 12 + slot

/-- The slot and buffer that a handle names for a tenant; none for a stale handle (R188). -/
def bufOf (d : Device) (t h : Nat) : Option (Nat × Buffer) :=
  if h / 2 ^ 28 ≠ t then none
  else match Assoc.find (arenaOf d t).bufs (h % 4096) with
    | some b => if b.gen = bitsOf h 12 16 then some (h % 4096, b) else none
    | none => none

/-- Change an extent. -/
def onExtent (t slot i : Nat) (f : Extent → Extent) (d : Device) : Device :=
  onArena t (fun a => { a with bufs := Assoc.adjust a.bufs slot fun b => { b with extents := b.extents.modify i f } }) d

def extentOf (d : Device) (t slot i : Nat) : Option Extent :=
  (Assoc.find (arenaOf d t).bufs slot).bind fun b => b.extents[i]?

/-- Every extent of a tenant: slot, index, buffer, extent, in order of slot and index. -/
def extentsOf (a : Arena) : List (Nat × Nat × Buffer × Extent) :=
  a.bufs.flatMap fun (slot, b) => b.extents.zipIdx.map fun (e, i) => (slot, i, b, e)

/-- Open by MEM_OPEN, or implicitly in OUTBOUND and INBOUND (R204). -/
def isOpen (e : Extent) : Bool := e.opened || e.state == .outbound || e.state == .inbound

/-- In the host tier or on its way (R202). -/
def onHostTier (e : Extent) : Bool := e.state == .h || e.state == .outbound || e.state == .inbound

/-- Code of an extent state (R195). -/
def ExtState.code : ExtState → Byte
  | .free => 0 | .d => 1 | .ds => 2 | .s => 3 | .h => 4 | .promoting => 5 | .evicting => 6 | .outbound => 7 | .inbound => 8

/-- Fabric address of the storage that serves reads (R195, R204). -/
def readBase (e : Extent) : Option Nat :=
  match e.state with
  | .ds | .s | .evicting => e.copy
  | .d | .promoting | .outbound | .inbound => e.home
  | .h | .free => none

/-! ### Storage in use -/

/-- Channels that a mask names, in increasing order. -/
def maskList (n : Nat) (m : Nat) : List Nat := (List.range n).filter fun i => bitOf m i

/-- The ranges a page pool takes (R250): page k is on the (k mod n)-th channel of the partition. -/
def poolRanges (q : Pool) : List (Nat × Nat) :=
  let n := q.chans.length
  q.chans.zipIdx.map fun (c, j) => (channelBase c + q.base, (q.count + n - 1 - j) / n * pageSize)

/-- Every fabric range that is held: homes, copies, pools, and storage being scrubbed. -/
def heldRanges (d : Device) : List (Nat × Nat) :=
  (d.mem.arenas.flatMap fun a => (extentsOf a.2).flatMap fun (_, _, _, e) =>
    (match e.home with | some h => [(h, e.size)] | none => []) ++ (match e.copy with | some c => [(c, e.size)] | none => [])) ++
  (d.serve.pools.flatMap fun q => poolRanges q.2) ++ d.mem.scrubbing

/-- A range lies between two bounds and meets no held range. -/
def fitsAt (lo hi size : Nat) (busy : List (Nat × Nat)) (a : Nat) : Bool :=
  decide (lo ≤ a) && decide (a + size ≤ hi) && busy.all fun r => decide (a + size ≤ r.1) || decide (r.1 + r.2 ≤ a)

def leastOf (l : List Nat) : Option Nat := l.foldl (fun m x => match m with | none => some x | some y => some (min x y)) none
def greatestOf (l : List Nat) : Option Nat := l.foldl (fun m x => match m with | none => some x | some y => some (max x y)) none

/-- The lowest place for a range (log entry 7). -/
def lowFit (lo hi size : Nat) (busy : List (Nat × Nat)) : Option Nat :=
  leastOf ((lo :: busy.map fun r => r.1 + r.2).filter (fitsAt lo hi size busy))

/-- The highest place for a range (log entry 7). -/
def highFit (lo hi size : Nat) (busy : List (Nat × Nat)) : Option Nat :=
  greatestOf (((hi - size) :: busy.map fun r => r.1 - size).filter (fitsAt lo hi size busy))

/-- Free bytes of a channel. -/
def channelFree (busy : List (Nat × Nat)) (c : Nat) : Nat :=
  channelSize - ((busy.filter fun r => channelOf r.1 == some c).map (·.2)).sum

/-- Channels starting at `s`, wrapping. -/
def rotateFrom (s : Nat) (cs : List Nat) : List Nat := cs.filter (fun c => decide (s ≤ c)) ++ cs.filter fun c => decide (c < s)

/-- The first channel of an order with contiguous room for a home, and the home's address (R447). -/
def homeOn (busy : List (Nat × Nat)) (size : Nat) (cs : List Nat) : Option (Nat × Nat) :=
  cs.findSome? fun c => (lowFit (channelBase c) (channelBase c + channelSize) size busy).map fun a => (c, a)

/-- The channel with the most free bytes, ties to the lower (R447). -/
def roomiest (busy : List (Nat × Nat)) (cs : List Nat) : Nat :=
  (cs.foldl (fun (best : Nat × Nat) c => let f := channelFree busy c; if f > best.2 then (c, f) else best)
    (cs.headD 0, channelFree busy (cs.headD 0))).1

/-- Homes for the extents of a buffer (R447). -/
def homesFor (chans : List Nat) : List Nat → Nat → List (Nat × Nat) → Option (List Nat)
  | [], _, _ => some []
  | size :: rest, start, busy =>
    match homeOn busy size (rotateFrom start chans) with
    | none => none
    | some (c, a) => (homesFor chans rest (c + 1) ((a, size) :: busy)).map fun l => a :: l

/-! ### SRAM placement (R192, R193) -/

/-- Tile-store bytes of copies that a tenant holds on a tile; 0xFE for the commons. -/
def sramUsed (a : Arena) (place : Byte) : Nat :=
  ((extentsOf a).map fun (_, _, _, e) => if e.copy.isSome && e.place == place then e.size else 0).sum

/-- Room for a copy in the commons banks or on a tile of a partition. -/
def sramAt (d : Device) (t : Nat) (q : Partition) (size : Nat) (place : Byte) : Option Nat :=
  let busy := heldRanges d
  if place = 0xFE then
    let others := (maskList 32 (2 ^ 32 - 1 - q.commonsMask.toNat)).map fun b => (b * bankSize, bankSize)
    lowFit 0 commonsSize size (busy ++ others)
  else if !q.tileMask.getLsbD place.toNat then none
  else if sramUsed (arenaOf d t) place + size > q.storeQuota * 0x1_0000 then none
  else
    let share := (d.sec.parts.map fun p => if p.2.tileMask.getLsbD place.toNat then p.2.storeQuota * 0x1_0000 else 0).sum
    let base := tileBase place.toNat
    highFit (base + (storeSize - share)) (base + storeSize) size busy

/-- The places an affinity allows, in the order they are tried. -/
def placesOf (q : Partition) (affinity : Byte) : List Byte :=
  if affinity = 0xFE then [0xFE]
  else if affinity = 0xFF then 0xFE :: (maskList 32 q.tileMask.toNat).map fun t => BitVec.ofNat 8 t
  else [affinity]

/-- The first place with room for a copy; an extent larger than 8 MiB has none (R192). -/
def sramFor (d : Device) (t size : Nat) (places : List Byte) : Option (Nat × Byte) :=
  match partOf d t with
  | none => none
  | some q => if size > sramExtentMax then none
    else places.foldl (fun r pl => match r with
      | some x => some x
      | none => (sramAt d t q size pl).map fun a => (a, pl)) none

/-- Assign a scrubbed SRAM copy to an extent, which enters a state (R194). -/
def giveCopy (t slot i : Nat) (st : ExtState) (at_ : Nat × Byte) (d : Device) : Device :=
  match extentOf d t slot i with
  | none => d
  | some e => onExtent t slot i (fun e => { e with state := st, copy := some at_.1, place := at_.2, dirty := [], used := d.clock })
      (fabScrub at_.1 e.size d)

/-- A stream engine of one of a tenant's tiles, which one the manual leaves open (R221, R243). -/
def streamTile (t : Nat) (d : Device) : Nat × Device :=
  let ts := match partOf d t with | some q => maskList 32 q.tileMask.toNat | none => []
  (ts.getD (Config.freeNat d.freeCtr % ts.length) 0, spend 1 d)

/-- The copier of a promotion reads a block of the home (R35, R199): a transfer without a deadline, of 4 KiB (DESIGN CHOICE). The stream
engine is that of the copy's tile, or one of the tenant's for the commons. -/
def readBlock (who t slot gen i k : Nat) (e : Extent) (d : Device) : Device :=
  match e.home with
  | some h => raiseAll [{ who := who, lst := 2 ^ 64 - 1, tenant := BitVec.ofNat 8 t, job := 0, load := .promote slot gen i k,
                          addr := h + k * block4k, len := block4k }] d
  | none => d

/-- An extent enters PROMOTING, and its copier starts (R196, R199). -/
def startPromotion (t slot i : Nat) (at_ : Nat × Byte) (d : Device) : Device :=
  match Assoc.find (arenaOf d t).bufs slot, extentOf d t slot i with
  | some b, some e =>
    let (who, d) := if at_.2.toNat < 32 then (at_.2.toNat, d) else streamTile t d
    readBlock who t slot b.gen i 0 e (giveCopy t slot i .promoting at_ d)
  | _, _ => d

/-- The copier of an extent still reads. -/
def copying (d : Device) (t slot gen i : Nat) : Bool :=
  anyReq d fun r => r.tenant.toNat == t && match r.load with | .promote s g x _ => s == slot && g == gen && x == i | _ => false

/-- Storage goes to scrubbing (R194). -/
def toScrub (r : Option Nat) (size : Nat) (d : Device) : Device :=
  match r with
  | some a => { d with mem.scrubbing := d.mem.scrubbing ++ [(a, size)] }
  | none => d

/-- The extent to evict first: DS and not open, least recently used, then lower slot, then lower index (R197, R204); the extents a
migration itself names are left out. -/
def victimOf (a : Arena) (keep : Nat → Nat → Bool) : Option (Nat × Nat) :=
  ((extentsOf a).foldl (fun (best : Option (Nat × Nat × Nat)) (slot, i, _, e) =>
    if e.state == .ds && !e.opened && !keep slot i then
      match best with
      | some (u, _, _) => if e.used < u then some (e.used, slot, i) else best
      | none => some (e.used, slot, i)
    else best) none).map fun (_, s, i) => (s, i)

/-- SRAM storage is on its way to becoming free. -/
def roomComing (d : Device) (t : Nat) : Bool :=
  d.mem.scrubbing.any (fun r => decide (r.1 < dramBase)) || (extentsOf (arenaOf d t)).any fun (_, _, _, e) => e.state == .evicting

/-- An operation lacks SRAM room: it waits while the device evicts one extent after another, or fails (R197). -/
def makeRoom (p : Packet) (t : Nat) (keep : Nat → Nat → Bool) (d : Device) : Device :=
  if roomComing d t then hold p d
  else match victimOf (arenaOf d t) keep with
    | some (s, i) => hold p (onExtent t s i (fun e => { e with state := .evicting }) d)
    | none => refuse p stAdmitMemory d

/-- Promote a tenant's PREFER_SRAM extents in D that fit, in order of allocation (R197). -/
def autoPromote (t : Nat) (d : Device) : Device :=
  match partOf d t with
  | none => d
  | some q =>
    let bufs := (arenaOf d t).bufs.filter fun p => p.2.flag == 1
    let order := bufs.mergeSort fun x y => decide (x.2.order ≤ y.2.order)
    order.foldl (fun d (slot, b) => b.extents.zipIdx.foldl (fun d (e, i) =>
      if e.state == .d && !e.opened then
        match sramFor d t e.size (placesOf q b.affinity) with
        | some at_ => startPromotion t slot i at_ d
        | none => d
      else d) d) d

def autoPromoteAll (d : Device) : Device := d.sec.parts.foldl (fun d p => autoPromote p.1 d) d

/-! ### Bytes of an arena (R189, R195, R199) -/

/-- An arena reference: handle and offset (R189). -/
def arenaRef (b : List Byte) (off : Nat) : Nat × Nat := (field b off 4, field b (off + 4) 4)

/-- Extents of a buffer that a range meets. -/
def extentsIn (b : Buffer) (off n : Nat) : List Nat :=
  if n = 0 then [] else (List.range b.extents.length).filter fun i => decide (off / b.extSize ≤ i) && decide (i ≤ (off + n - 1) / b.extSize)

/-- A range meets an extent of the host tier (R202). -/
def hostHeld (b : Buffer) (off n : Nat) : Bool := (extentsIn b off n).any fun i => (b.extents[i]?).any onHostTier

/-- Bytes of a buffer. -/
def bufRead (d : Device) (b : Buffer) (off n : Nat) : List Byte :=
  (extentsIn b off n).flatMap fun i =>
    let lo := max off (i * b.extSize)
    let hi := min (off + n) ((i + 1) * b.extSize)
    match (b.extents[i]?).bind readBase with
    | some a => fabRead d (a + (lo - i * b.extSize)) (hi - lo)
    | none => zeros (hi - lo)

/-- The first block of a range of a buffer that is known to be Uncorrectable (R449). -/
def bufBad (d : Device) (b : Buffer) (off n : Nat) : Option Nat :=
  (extentsIn b off n).findSome? fun i =>
    let lo := max off (i * b.extSize)
    let hi := min (off + n) ((i + 1) * b.extSize)
    ((b.extents[i]?).bind readBase).bind fun a => badIn d (a + (lo - i * b.extSize)) (hi - lo)

/-- The 4 KiB blocks that a range of an extent meets. -/
def dirtyBlocks (off n : Nat) : List Nat :=
  if n = 0 then [] else (List.range ((off + n - 1) / block4k - off / block4k + 1)).map fun k => off / block4k + k

/-- Block numbers in rising order, without repeats. -/
def addBlocks (old new : List Nat) : List Nat := ((old ++ new).eraseDups).mergeSort fun a b => decide (a ≤ b)

/-- Write bytes into one extent (R195, R198, R199). -/
def extWrite (t slot i off : Nat) (bs : List Byte) (d : Device) : Device :=
  match extentOf d t slot i with
  | none => d
  | some e =>
    let toHome := fun d => match e.home with | some h => fabWrite (h + off) bs d | none => d
    let toCopy := fun d => match e.copy with | some c => fabWrite (c + off) bs d | none => d
    match e.state with
    | .d | .inbound | .promoting => toHome d
    | .s => toCopy d
    | .ds => onExtent t slot i (fun e => { e with dirty := addBlocks e.dirty (dirtyBlocks off bs.length) }) (toCopy d)
    | .evicting => toHome (toCopy d)
    | .free | .h | .outbound => d

/-- Write bytes into a buffer. -/
def bufWrite (t slot : Nat) (b : Buffer) (off : Nat) (bs : List Byte) (d : Device) : Device :=
  (extentsIn b off bs.length).foldl (fun d i =>
    let lo := max off (i * b.extSize)
    let hi := min (off + bs.length) ((i + 1) * b.extSize)
    extWrite t slot i (lo - i * b.extSize) (slice bs (lo - off) (hi - lo)) d) d

/-- A stream-engine access to a range, for the order of eviction (R197). -/
def touch (t slot : Nat) (b : Buffer) (off n : Nat) (d : Device) : Device :=
  (extentsIn b off n).foldl (fun d i => onExtent t slot i (fun e => { e with used := d.clock }) d) d

/-- Fabric pieces of a range of a buffer: each within one extent and one channel (R219). -/
def piecesOf (b : Buffer) (off n : Nat) : List (Nat × Nat) :=
  (extentsIn b off n).flatMap fun i =>
    let lo := max off (i * b.extSize)
    let hi := min (off + n) ((i + 1) * b.extSize)
    match (b.extents[i]?).bind readBase with
    | some a =>
      let at_ := a + (lo - i * b.extSize); let len := hi - lo
      match channelOf at_ with
      | some c =>
        let room := channelBase c + channelSize - at_
        if len ≤ room then [(at_, len)] else [(at_, room), (at_ + room, len - room)]
      | none => [(at_, len)]
    | none => []

/-- A held work unit still exists. -/
def holderLives (d : Device) : Holder → Bool
  | .packet r => (findPacket d r).isSome
  | .request r => d.serve.reqs.any fun x => x.1 == r
  | .window n => d.mem.windows.any fun w => w.serial == n && w.onHost
  | .step n => d.serve.jobs.any fun x => x.2.step.any fun st => st.serial == n

/-- A work unit is held no more. -/
def dropHold (who : Holder) (d : Device) : Device := { d with mem.holds := d.mem.holds.filter fun h => h.who != who }

/-- A work unit of a tenant is held by the host-tier extents of some ranges, each of an arena's buffer (R202); it counts once until it
goes on (R224). -/
def holdUnit (who : Holder) (t : Nat) (ranges : List (Nat × Nat × Buffer × Nat × Nat)) (d : Device) : Device :=
  let held := d.mem.holds.any fun h => h.who == who
  let d := if held then d else onArena t (fun a => { a with hostHeld := satAdd32 a.hostHeld 1 }) d
  let rest := d.mem.holds.filter fun h => h.who != who && holderLives d h.who
  { d with mem.holds := rest ++ ranges.map fun (owner, slot, b, off, n) =>
      { who := who, tenant := owner, slot := slot, extents := (extentsIn b off n).filter fun i => (b.extents[i]?).any onHostTier } }

/-- Work is held on an extent of the host tier (R202, R223). -/
def isWanted (d : Device) (t slot i : Nat) : Bool :=
  (extentOf d t slot i).any onHostTier &&
  d.mem.holds.any fun h => h.tenant == t && h.slot == slot && h.extents.contains i && holderLives d h.who

/-- Some work unit is held on the host tier: MEM_STAT.HOST_WANT (R202). -/
def hostWant (d : Device) : Bool := d.mem.holds.any fun h => h.extents.any fun i => isWanted d h.tenant h.slot i

/-- A packet's operation is held by the host-tier extents of a range (R202, R224). -/
def holdOnHost (p : Packet) (t slot : Nat) (b : Buffer) (off n : Nat) (d : Device) : Device :=
  hold p (holdUnit (.packet (refOf p)) t [(t, slot, b, off, n)] d)

/-! ### Source reads of an operation (R216, R219, R243) -/

/-- Change a packet in flight. -/
def onPacket (r : Ref) (f : Packet → Packet) (d : Device) : Device :=
  { d with cmd.flight := d.cmd.flight.map fun q => if refOf q = r then f q else q }

/-- A range of a buffer as transfers of 4 KiB at most. DESIGN CHOICE: the manual gives the issuer's size for fetches and copies alone. -/
def sourceParts (b : Buffer) (off n : Nat) : List (Nat × Nat) := (piecesOf b off n).flatMap fun x => cutRange block4k x.1 x.2

/-- An operation whose stream engine reads its sources first: the reads from DRAM are arbitrated with the header's deadline, and once all
have ended the operation goes on with the bytes of the copies that they began on (R200). -/
def withSources (p : Packet) (lst : Nat) (spans : List (Buffer × Nat × Nat)) (k : List Byte → Device → Device) (d : Device) : Device :=
  let bytes := fun (rs : List (Nat × Nat)) => rs.flatMap fun r => fabRead d r.1 r.2
  match p.reads with
  | some rs => if p.left = 0 then k (bytes rs) d else d
  | none =>
    let rs := spans.flatMap fun x => sourceParts x.1 x.2.1 x.2.2
    let far := rs.filter fun r => (channelOf r.1).isSome
    if far.isEmpty then k (bytes rs) (dropHold (.packet (refOf p)) d)
    else
      let (who, d) := streamTile p.hdr.tenant.toNat (dropHold (.packet (refOf p)) d)
      raiseAll (far.map fun r =>
        { who := who, lst := lst, tenant := p.hdr.tenant, job := p.hdr.job, load := .source (refOf p), addr := r.1, len := r.2 })
        (onPacket (refOf p) (fun q => { q with reads := some rs, left := far.length }) (hold p d))

/-- A buffer is the image of a mounted skein (R241). -/
def isMounted (d : Device) (t slot gen : Nat) : Bool := d.mem.skeins.any fun s => s.2.tenant.toNat == t && s.2.handle.toNat == handleOf t gen slot

/-! ### Opcodes -/

/-- What an opcode of the range presents (R220). -/
def memSpec (opcode size : Nat) (reserved : List (Nat × Nat) := []) : OpSpec :=
  { opcode := opcode, size := some size, part := true, reserved := reserved }

/-- An affinity names a tile of the tenant, or 0xFE or 0xFF (R221). -/
def affinityOk (q : Partition) (a : Byte) : Bool := a == 0xFE || a == 0xFF || (decide (a.toNat < 32) && q.tileMask.getLsbD a.toNat)

/-- The slot for a new buffer: fresh slots, then the least recently freed (R188). -/
def nextSlot (a : Arena) : Option (Nat × Arena) :=
  if a.fresh < 4096 then some (a.fresh, { a with fresh := a.fresh + 1 })
  else match a.freed with
    | s :: rest => some (s, { a with freed := rest })
    | [] => none

/-- Sizes of the extents of a buffer (R190). -/
def extentSizes (size ext : Nat) : List Nat := (List.range (ceilDiv size ext)).map fun i => min ext (size - i * ext)

/-- Put SRAM copies on a new buffer's extents: PIN_SRAM needs room for all, PREFER_SRAM takes what there is (R193). -/
def placeCopies (t slot flag : Nat) (places : List Byte) : List (Nat × Nat) → Device → Option Device
  | [], d => some d
  | (size, i) :: rest, d =>
    match sramFor d t size places with
    | some at_ => placeCopies t slot flag places rest (giveCopy t slot i (if flag = 0 then .s else .ds) at_ d)
    | none => if flag = 0 then none else placeCopies t slot flag places rest d

/-- Form a buffer with its homes (R188, R190, R194). -/
def formBuffer (t slot size ext flag : Nat) (affinity : Byte) (sizes homes : List Nat) (a' : Arena) (d : Device) : Device :=
  let gen := SMap.get 1 a'.gens slot
  let exts := sizes.zipIdx.map fun (sz, i) =>
    { size := sz, state := if flag = 0 then ExtState.free else .d, home := homes[i]?, copy := none, place := 0xFF, dirty := [],
      opened := false, used := d.clock : Extent }
  let d := (homes.zip sizes).foldl (fun d (h, sz) => fabScrub h sz d) d
  onArena t (fun _ => { a' with
    order := a'.order + 1
    bufs := Assoc.insert a'.bufs slot
      { gen := gen, size := size, extSize := ext, flag := flag, affinity := affinity, extents := exts, order := a'.order } }) d

/-- The ranges held once every scrub in progress has ended. -/
def heldAfterScrub (d : Device) : List (Nat × Nat) := heldRanges { d with mem.scrubbing := [] }

/-- MEM_ALLOC (R190 to R194, R221, R447). An allocation that needs storage still being scrubbed waits for it (R515). -/
def memAlloc (p : Packet) (b : List Byte) (d : Device) : Device :=
  let t := p.hdr.tenant.toNat
  match partOf d t with
  | none => refuse p stNoTenant d
  | some q =>
    let size := field b 0 8
    let ext := if field b 8 4 = 0 then 0x40_0000 else field b 8 4
    let flag := field b 12 1; let aff := byteAt b 13
    let full := roundUp size block4k
    if size = 0 ∨ size > 2 ^ 32 ∨ ext % block4k ≠ 0 ∨ ext < block4k ∨ ext > 0x400_0000 ∨ flag > 3 then refuse p stBadArgument d
    else if flag ≤ 1 ∧ !affinityOk q aff then refuse p stBadArgument d
    else if flag = 0 ∧ min ext full > sramExtentMax then refuse p stBadArgument d
    else
      let a := arenaOf d t
      let sizes := extentSizes full ext
      if (extentsOf a).length + sizes.length > 4096 ∨ a.bufs.length ≥ 4096 then refuse p stExtentLimit d
      else match nextSlot a with
        | none => refuse p stExtentLimit d
        | some (slot, a') =>
          let chans := maskList 32 q.dramMask.toNat
          let homes := fun busy => if flag = 0 then some [] else homesFor chans sizes (roomiest busy chans) busy
          match homes (heldRanges d) with
          | none => if (homes (heldAfterScrub d)).isSome then hold p d else refuse p stAdmitMemory d
          | some homes =>
            let d' := formBuffer t slot full ext flag aff sizes homes a' d
            match (if flag ≤ 1 then placeCopies t slot flag (placesOf q aff) sizes.zipIdx d' else some d') with
            | none => makeRoom p t (fun _ _ => false) d
            | some d'' => finish p stOK (leBytes 4 (handleOf t (SMap.get 1 a'.gens slot) slot) ++ leBytes 2 sizes.length ++ [0, 0]) d''

def execMemAlloc (r : Ref) (s : State) : Out := run (runOp (memSpec 0x0200 16 [(14, 2)]) r memAlloc) s

/-- Offsets of the handles that a payload holds, by opcode (R189, R220, R242, R302). -/
def handleOffsets (op : Nat) : List Nat :=
  if 0x0201 ≤ op ∧ op ≤ 0x0205 ∨ op = 0x0207 ∨ op = 0x0208 then [0]
  else if op = 0x0206 then [0, 8]
  else if op = 0x0300 ∨ op = 0x0301 then [0, 8, 16]
  else if op = 0x0302 ∨ op = 0x0B00 then [0]
  else if op = 0x0402 then [8, 16]
  else if op = 0x0700 ∨ op = 0x0701 ∨ op = 0x0703 then [8]
  else []

/-- A packet of the tenant accepted before another names the handle (R222). -/
def namesHandle (d : Device) (p q : Packet) (h : Nat) : Bool :=
  decide (q.order < p.order) && q.hdr.tenant == p.hdr.tenant &&
  (let b := if q.started then q.plain else match openPacket d false q with | some (b, _) => b | none => []
   (handleOffsets q.hdr.opcode.toNat).any fun o => field b o 4 == h && decide (o + 4 ≤ b.length))

/-- MEM_FREE (R222): refused while an extent is open; it waits for earlier work on the handle. -/
def memFree (p : Packet) (b : List Byte) (d : Device) : Device :=
  let t := p.hdr.tenant.toNat; let h := field b 0 4
  match bufOf d t h with
  | none => refuse p stBadHandle d
  | some (slot, buf) =>
    if isMounted d t slot buf.gen then refuse p stWrongState d
    else if buf.extents.any isOpen then refuse p stBusyOpen d
    else if d.cmd.flight.any fun q => namesHandle d p q h then hold p d
    else
      let d := buf.extents.foldl (fun d e => toScrub e.copy e.size (toScrub e.home e.size d)) d
      let d := onArena t (fun a =>
        { a with
          bufs := Assoc.erase a.bufs slot
          gens := SMap.set 1 a.gens slot (buf.gen + 1)
          freed := if buf.gen = 0xFFFF then a.freed else a.freed ++ [slot] }) d
      complete p d

def execMemFree (r : Ref) (s : State) : Out := run (runOp (memSpec 0x0201 8 [(4, 4)]) r memFree) s

/-- What MEM_MIGRATE finds at an extent: in the target state, on its way, started now, without SRAM room, or a failure. -/
inductive MigStep where
  | there | pending
  | go (d : Device)
  | noRoom
  | fail (st : W16)

/-- MEM_MIGRATE to tier 0 or 1 of one extent: promotion (R196, R221). -/
def migUp (t slot i tier : Nat) (aff : Byte) (q : Partition) (b : Buffer) (e : Extent) (d : Device) : MigStep :=
  if b.flag = 0 ∨ b.flag = 3 then .fail stWrongState
  else match e.state with
    | .ds => .there
    | .promoting | .evicting => .pending
    | .d =>
      if e.opened then .fail stWrongState
      else if e.size > sramExtentMax then .fail stAdmitMemory
      else
        let places := if tier = 1 then [0xFE] else (placesOf q (if aff = 0xFE then 0xFF else aff)).filter (· != 0xFE)
        match sramFor d t e.size places with
        | some at_ => .go (startPromotion t slot i at_ d)
        | none => .noRoom
    | .s | .h | .outbound | .inbound | .free => .fail stWrongState

/-- MEM_MIGRATE to tier 2 of one extent: eviction, or the way back from the host (R196, R201, R221). -/
def migDram (t slot i : Nat) (q : Partition) (b : Buffer) (e : Extent) (d : Device) : MigStep :=
  if b.flag = 0 then .fail stWrongState
  else match e.state with
    | .d | .inbound => .there
    | .promoting | .evicting => .pending
    | .ds => if e.opened then .fail stWrongState else .go (onExtent t slot i (fun e => { e with state := .evicting }) d)
    | .h =>
      let chans := maskList 32 q.dramMask.toNat
      let home := fun busy => homeOn busy e.size (rotateFrom (roomiest busy chans) chans)
      match home (heldRanges d) with
      | some (_, a) => .go (onExtent t slot i (fun e => { e with state := .inbound, home := some a }) (fabScrub a e.size d))
      | none => if (home (heldAfterScrub d)).isSome then .pending else .fail stAdmitMemory
    | .s | .outbound | .free => .fail stWrongState

/-- MEM_MIGRATE to tier 3 of one extent (R196, R241). -/
def migHost (t slot i : Nat) (b : Buffer) (e : Extent) (d : Device) : MigStep :=
  match e.state with
  | .outbound | .h => .there
  | .promoting | .evicting => .pending
  | .d => if e.opened || isMounted d t slot b.gen then .fail stWrongState
    else .go (onExtent t slot i (fun e => { e with state := .outbound }) d)
  | .ds | .s | .inbound | .free => .fail stWrongState

/-- Walk the extents in index order; the walk stops at the first failure, which is reported once the extents before it have
changed (R221). -/
def migWalk (p : Packet) (t slot tier lo hi : Nat) (aff : Byte) (q : Partition) :
    List Nat → Bool → Bool → Device → Device
  | [], moving, all, d =>
    if moving then hold p d else if all && !p.held then refuse p stAlreadyDone d else complete p d
  | i :: rest, moving, all, d =>
    match Assoc.find (arenaOf d t).bufs slot with
    | none => refuse p stBadHandle d
    | some b => match b.extents[i]? with
      | none => refuse p stBadArgument d
      | some e =>
        match (if tier ≤ 1 then migUp t slot i tier aff q b e d else if tier = 2 then migDram t slot i q b e d
            else migHost t slot i b e d) with
        | .there => migWalk p t slot tier lo hi aff q rest moving all d
        | .pending => migWalk p t slot tier lo hi aff q rest true false d
        | .go d' => migWalk p t slot tier lo hi aff q rest (moving || decide (tier ≤ 2 ∧ e.state ≠ .h)) false d'
        | .noRoom => if moving then hold p d else makeRoom p t (fun s k => s == slot && decide (lo ≤ k) && decide (k < hi)) d
        | .fail st => if moving then hold p d else refuse p st d

/-- MEM_MIGRATE (R196, R221). -/
def memMigrate (p : Packet) (b : List Byte) (d : Device) : Device :=
  let t := p.hdr.tenant.toNat; let first := field b 4 2; let count := field b 6 2; let tier := field b 8 1; let aff := byteAt b 9
  match partOf d t with
  | none => refuse p stNoTenant d
  | some q =>
    if tier > 3 ∨ count = 0 ∨ (tier ≤ 1 ∧ !affinityOk q aff) then refuse p stBadArgument d
    else match bufOf d t (field b 0 4) with
      | none => refuse p stBadHandle d
      | some (slot, buf) =>
        if first + count > buf.extents.length then refuse p stBadArgument d
        else migWalk p t slot tier first (first + count) aff q ((List.range count).map (first + ·)) false true d

def execMemMigrate (r : Ref) (s : State) : Out := run (runOp (memSpec 0x0202 16 [(10, 6)]) r memMigrate) s

/-- An extent named by handle and index. -/
def withExtent (p : Packet) (b : List Byte) (d : Device) (k : Nat → Nat → Nat → Buffer → Extent → Device) : Device :=
  let t := p.hdr.tenant.toNat
  match bufOf d t (field b 0 4) with
  | none => refuse p stBadHandle d
  | some (slot, buf) => match buf.extents[field b 4 2]? with
    | none => refuse p stBadArgument d
    | some e => k t slot (field b 4 2) buf e

/-- MEM_OPEN (R204). -/
def memOpen (p : Packet) (b : List Byte) (d : Device) : Device :=
  withExtent p b d fun t slot i _ e =>
    match e.state with
    | .promoting | .evicting => hold p d
    | .h | .free => refuse p stWrongState d
    | .d | .ds | .s | .outbound | .inbound =>
      if !isOpen e && decide (((extentsOf (arenaOf d t)).filter fun (_, _, _, x) => isOpen x).length ≥ 64) then refuse p stExtentLimit d
      else
        let d := if onHostTier e then d else onExtent t slot i (fun e => { e with opened := true }) d
        finish p stOK (leBytes 8 ((readBase e).getD 0)) d

def execMemOpen (r : Ref) (s : State) : Out := run (runOp (memSpec 0x0203 8 [(6, 2)]) r memOpen) s

/-- MEM_CLOSE (R204). -/
def memClose (p : Packet) (b : List Byte) (d : Device) : Device :=
  withExtent p b d fun t slot i _ e =>
    if onHostTier e then refuse p stWrongState d
    else if !e.opened then refuse p stAlreadyDone d
    else complete p (onExtent t slot i (fun e => { e with opened := false }) d)

def execMemClose (r : Ref) (s : State) : Out := run (runOp (memSpec 0x0204 8 [(6, 2)]) r memClose) s

/-- MEM_SETTLE (R196, R201). -/
def memSettle (p : Packet) (b : List Byte) (d : Device) : Device :=
  withExtent p b d fun t slot i _ e =>
    match e.state with
    | .outbound =>
      complete p (toScrub e.home e.size (onExtent t slot i (fun e => { e with state := .h, home := none }) d))
    | .inbound => autoPromote t (complete p (onExtent t slot i (fun e => { e with state := .d }) d))
    | .free | .d | .ds | .s | .h | .promoting | .evicting => refuse p stWrongState d

/-- Two ranges meet. -/
def rangesMeet (a n b m : Nat) : Bool := decide (a < b + m) && decide (b < a + n)

/-- The latest-service time that a header's deadline gives (R56, R216): 0 means none. -/
def headerDeadline (p : Packet) : Nat := if p.hdr.deadline = 0 then 2 ^ 64 - 1 else p.hdr.deadline.toNat

/-- The bursts of a copy: fabric address, length, and offset in the destination (R219). -/
def copyBursts (sb : Buffer) (os od n burst : Nat) : List (Nat × Nat × Nat) :=
  (cutRange burst 0 n).flatMap fun x =>
    (piecesOf sb (os + x.1) x.2).foldl (fun (acc : List (Nat × Nat × Nat) × Nat) y => (acc.1 ++ [(y.1, y.2, acc.2)], acc.2 + y.2))
      ([], od + x.1) |>.1

/-- Every burst of a copy starts: one read from SRAM lands at once, one from DRAM is arbitrated (R37, R221). The operation completes with
its last byte. -/
def startCopy (p : Packet) (t ds : Nat) (db : Buffer) (bursts : List (Nat × Nat × Nat)) (d : Device) : Device :=
  let far := bursts.filter fun x => (channelOf x.1).isSome
  let d := (bursts.filter fun x => (channelOf x.1).isNone).foldl (fun d x => bufWrite t ds db x.2.2 (fabRead d x.1 x.2.1) d) d
  if far.isEmpty then complete p d
  else
    let (who, d) := streamTile t d
    raiseAll (far.map fun x =>
      { who := who, lst := headerDeadline p, tenant := p.hdr.tenant, job := p.hdr.job, load := .copy (refOf p) ds x.2.2,
        addr := x.1, len := x.2.1 })
      (onPacket (refOf p) (fun q => { q with reads := some [], left := far.length }) (hold p d))

/-- MEM_COPY (R221, R241): one copy from reference to reference. -/
def memCopy (p : Packet) (b : List Byte) (d : Device) : Device :=
  let t := p.hdr.tenant.toNat
  let (hs, os) := arenaRef b 0; let (hd, od) := arenaRef b 8; let n := field b 16 4; let burst := field b 20 4
  if n = 0 ∨ burst = 0 ∨ burst % 64 ≠ 0 ∨ burst > 0x10_0000 then refuse p stBadArgument d
  else match bufOf d t hs, bufOf d t hd with
    | some (ss, sb), some (ds, db) =>
      if os + n > sb.size ∨ od + n > db.size ∨ (ss = ds ∧ rangesMeet os n od n) then refuse p stBadArgument d
      else if isMounted d t ds db.gen then refuse p stWrongState d
      else if hostHeld sb os n then holdOnHost p t ss sb os n d
      else if hostHeld db od n then holdOnHost p t ds db od n d
      else if p.reads.isSome then d
      else startCopy p t ds db (copyBursts sb os od n burst)
        (touch t ds db od n (touch t ss sb os n (dropHold (.packet (refOf p)) d)))
    | _, _ => refuse p stBadHandle d

def execMemCopy (r : Ref) (s : State) : Out := run (runOp (memSpec 0x0206 24) r memCopy) s

/-- Write the dirty blocks of an extent home whole, and clear their bits (R198). -/
def writeHome (t slot i : Nat) (d : Device) : Device :=
  match extentOf d t slot i with
  | some e => match e.home, e.copy with
    | some h, some c =>
      let d := e.dirty.foldl (fun d k => fabWrite (h + k * block4k) (fabRead d (c + k * block4k) block4k) d) d
      onExtent t slot i (fun e => { e with dirty := [] }) d
    | _, _ => d
  | none => d

/-- MEM_FLUSH (R198): every dirty block of the buffer's DS extents goes home. -/
def memFlush (p : Packet) (b : List Byte) (d : Device) : Device :=
  let t := p.hdr.tenant.toNat
  match bufOf d t (field b 0 4) with
  | none => refuse p stBadHandle d
  | some (slot, buf) =>
    let ds := buf.extents.zipIdx.filter fun (e, _) => e.state == .ds
    let n := (ds.map fun (e, _) => e.dirty.length).sum
    finish p stOK (leBytes 4 n) (ds.foldl (fun d (_, i) => writeHome t slot i d) d)

def execMemFlush (r : Ref) (s : State) : Out := run (runOp (memSpec 0x0207 8 [(4, 4)]) r memFlush) s

/-- MEM_QUERY (R223). -/
def memQuery (p : Packet) (b : List Byte) (d : Device) : Device :=
  withExtent p b d fun t slot i buf e =>
    finish p stOK ([e.state.code, BitVec.ofNat 8 buf.flag, e.place,
      (if isOpen e then 2 else 0) ||| (if isWanted d t slot i then 1 else 0)] ++
      leBytes 4 e.size ++ leBytes 4 e.dirty.length ++ zeros 4 ++
      leBytes 8 (if isOpen e then (readBase e).getD 0 else 0)) d

def execMemQuery (r : Ref) (s : State) : Out := run (runOp (memSpec 0x0208 8 [(6, 2)]) r memQuery) s

/-- A partition's SRAM quota in bytes: its commons banks and its share of each of its tiles (R192, R372). -/
def sramQuota (q : Partition) : Nat :=
  (maskList 32 q.commonsMask.toNat).length * bankSize + (maskList 32 q.tileMask.toNat).length * (q.storeQuota * 0x1_0000)

/-- The MEM_ARENA_INFO record (R224). -/
def arenaInfo (d : Device) (t : Nat) (q : Partition) : List Byte :=
  let a := arenaOf d t
  let exts := (extentsOf a).map fun (_, _, _, e) => e
  leBytes 2 a.bufs.length ++ leBytes 2 exts.length ++ leBytes 2 (exts.filter isOpen).length ++ zeros 2 ++
  leBytes 8 (sramQuota q) ++
  leBytes 8 (exts.map fun e => if e.copy.isSome then e.size else 0).sum ++
  leBytes 8 (exts.map fun e => if e.home.isSome then e.size else 0).sum ++
  leBytes 4 a.misses.toNat ++ leBytes 4 a.parks.toNat ++ leBytes 4 a.skips.toNat ++ leBytes 4 a.evictions.toNat ++
  leBytes 4 a.promotions.toNat ++ leBytes 4 a.hostHeld.toNat ++ zeros 8

/-- MEM_ARENA_INFO (R224). -/
def memArenaInfo (p : Packet) (_ : List Byte) (d : Device) : Device :=
  match partOf d p.hdr.tenant.toNat with
  | some q => finish p stOK (arenaInfo d p.hdr.tenant.toNat q) d
  | none => refuse p stNoTenant d

def execMemArenaInfo (r : Ref) (s : State) : Out := run (runOp (memSpec 0x0209 0) r memArenaInfo) s

/-! ### Events of the movement engine -/

/-- Take up again the operations that wait for an extent or for room, in order of acceptance. -/
def retryMem (d : Device) : Device :=
  (d.cmd.flight.filter (·.held)).foldl (fun d p =>
    match findPacket d (refOf p) with
    | none => d
    | some p =>
      let op := p.hdr.opcode.toNat
      if op = 0x0200 then memAlloc p p.plain d
      else if op = 0x0202 then memMigrate p p.plain d
      else if op = 0x0203 then memOpen p p.plain d
      else d) d

/-- PROMOTION_COMPLETE (R199): the copy holds what the home holds, and the extent enters DS. -/
def execPromotionComplete (h : W32) (ext : W16) (s : State) : Out := run (fun d =>
  let t := h.toNat / 2 ^ 28
  match bufOf d t h.toNat with
  | some (slot, b) => match b.extents[ext.toNat]? with
    | some e => match e.state, e.home, e.copy with
      | .promoting, some home, some copy =>
        if coreAlive d ∧ !copying d t slot b.gen ext.toNat then
          let d := fabWrite copy (fabRead d home e.size) d
          let d := onExtent t slot ext.toNat (fun e => { e with state := .ds, dirty := [], used := d.clock }) d
          retryMem (onArena t (fun a => { a with promotions := satAdd32 a.promotions 1 }) d)
        else d
      | _, _, _ => d
    | none => d
  | none => d) s

/-- EVICTION_COMPLETE (R198, R199, R200): every dirty block is home, the extent enters D, and the copy's storage is scrubbed. -/
def execEvictionComplete (h : W32) (ext : W16) (s : State) : Out := run (fun d =>
  let t := h.toNat / 2 ^ 28
  match bufOf d t h.toNat with
  | some (slot, b) => match b.extents[ext.toNat]? with
    | some e =>
      if e.state = .evicting ∧ coreAlive d then
        let d := writeHome t slot ext.toNat d
        let d := onExtent t slot ext.toNat (fun e => { e with state := .d, copy := none, place := 0xFF }) d
        retryMem (onArena t (fun a => { a with evictions := satAdd32 a.evictions 1 }) (toScrub e.copy e.size d))
      else d
    | none => d
  | none => d) s

/-- SCRUB_COMPLETE (R194, R197): freed storage reads zero and can be assigned; waiting operations and promotions follow. -/
def execScrubComplete (s : State) : Out := run (fun d =>
  if coreAlive d then
    let d := d.mem.scrubbing.foldl (fun d r => fabScrub r.1 r.2 d) d
    autoPromoteAll (retryMem { d with mem.scrubbing := [] })
  else d) s

/-- MEM_CTR_CLEAR (R225): under the maker role, zero the counters at 0x008 and 0x014 to 0x024. -/
def memCtrClear (v : W32) (d : Device) : Device :=
  if activeRole d = roleMaker ∧ v.getLsbD 0 then
    { d with
      mem.denyCount := 0
      mem.missCount := 0
      mem.skipCount := 0
      mem.arb := SMap.modify {} d.mem.arb
        (if d.mem.arbSel.getLsbD 5 then 32 + d.mem.arbSel.toNat % 32 else d.mem.arbSel.toNat % 32)
        fun a => { a with grants := 0, preempts := 0 } }
  else d

end Sys2Proof.Machine
end

