-- ==== Sys2Proof/Machine/Pages.lean ====
section
/-! DEFINITION. Page pools, sequences, page lists and their edits (08_attention_kv R245 to R264), and the retirement of a key
generation that no page bears (R386). -/

namespace Sys2Proof.Machine

/-! ### Pools and pages (R250 to R252) -/

def poolOf (d : Device) (t : Nat) : Pool := (Assoc.find d.serve.pools t).getD { count := 0, chans := [], base := 0 }

def onPool (t : Nat) (f : Pool → Pool) (d : Device) : Device := { d with serve.pools := Assoc.adjust d.serve.pools t f }

/-- Pages that no list names and no walk pins (R252). -/
def freePages (q : Pool) : Nat := q.count - q.pages.length

/-- Fabric address of a page (R250). -/
def pageAddr (q : Pool) (k : Nat) : Nat :=
  channelBase (q.chans.getD (k % q.chans.length) 0) + q.base + k / q.chans.length * pageSize

/-- The lowest number from `k` upward that a map does not list. -/
def firstGap : Nat → SMap α → Nat
  | k, [] => k
  | k, (k', _) :: m => if k = k' then firstGap (k + 1) m else k

/-- The current key generation's number (R249). -/
def currentGen (d : Device) (t : Nat) : BitVec 2 :=
  match (partOf d t).bind (·.cur) with
  | some g => g.num
  | none => 0

/-- Take the lowest free page, zeroed (R251), with one reference. -/
def takePage (t : Nat) (list : Bool) (d : Device) : Option (Nat × Device) :=
  let q := poolOf d t
  let k := firstGap 0 q.pages
  if k ≥ q.count then none
  else some (k, onPool t (fun q => { q with pages := SMap.set {} q.pages k { refs := 1, pins := 0, kgen := if list then none else some (currentGen d t), list := list } })
    (fabScrub (pageAddr q k) pageSize d))

/-- Retire a previous generation that no data page bears (R386). -/
def retireCheck (t : Nat) (d : Device) : Device :=
  match partOf d t with
  | none => d
  | some q => match q.prev with
    | none => d
    | some g =>
      if (poolOf d t).pages.any fun p => p.2.kgen == some g.num then d
      else
        ledgerEvent 0x0014 (leBytes 4 g.num.toNat ++ zeros 4)
          { d with sec.parts := Assoc.adjust d.sec.parts t fun q => { q with prev := none } } (BitVec.ofNat 8 t)

/-- Change a page's counts; a page with neither references nor pins is free (R252). -/
def onPage (t k : Nat) (f : PageInfo → PageInfo) (d : Device) : Device :=
  let d := onPool t (fun q =>
    let i := f (SMap.get {} q.pages k)
    { q with pages := if i.refs = 0 ∧ i.pins = 0 then SMap.del q.pages k else SMap.set {} q.pages k i }) d
  retireCheck t d

def dropRef (t k : Nat) (d : Device) : Device := onPage t k (fun i => { i with refs := if i.refs = 0 then 0 else i.refs - 1 }) d
def addRef (t k : Nat) (d : Device) : Device := onPage t k (fun i => { i with refs := i.refs + 1 }) d
def pinPage (t k : Nat) (d : Device) : Device := onPage t k (fun i => { i with pins := i.pins + 1 }) d
def unpinPage (t k : Nat) (d : Device) : Device := onPage t k (fun i => { i with pins := if i.pins = 0 then 0 else i.pins - 1 }) d

def pageRefs (d : Device) (t k : Nat) : Nat := (SMap.get {} (poolOf d t).pages k).refs.toNat

/-! ### Sequences and lists (R253, R254) -/

abbrev noPage : Nat := 0xFF_FFFF
abbrev listEntries : Nat := 16384
abbrev seqMax : Nat := 16384
abbrev lengthMax : Nat := 131072

def seqOf (d : Device) (i : Nat) : Option Seq := Assoc.find d.serve.seqs i
def onSeq (i : Nat) (f : Seq → Seq) (d : Device) : Device := { d with serve.seqs := Assoc.adjust d.serve.seqs i f }

/-- The plan of a mounted skein. -/
def planOf (d : Device) (skein : Nat) : Plan := match Assoc.find d.mem.skeins skein with | some s => s.plan | none => default

/-- ΣL: the sum of the group counts over the attention layers (R254). -/
def sumGroups (p : Plan) : Nat := (p.attn.map (·.groups)).sum

/-- The attention layer and group of list index i within its block, as ordinal, layer and group (R254). -/
def groupAt : Nat → List AttnLayer → Nat → Option (Nat × AttnLayer × Nat)
  | _, [], _ => none
  | n, a :: rest, i => if i < a.groups then some (n, a, i) else groupAt (n + 1) rest (i - a.groups)

/-- The 32-bit list entry (R253). -/
def entryWord (e : PageEntry) : Nat := (if e.2 then 2 ^ 31 else 0) + e.1

/-- Keep the list pages' bytes in step with the list (R253). -/
def syncList (i : Nat) (d : Device) : Device :=
  match seqOf d i with
  | none => d
  | some s => s.listPages.zipIdx.foldl (fun d (k, n) =>
      let part := slice (s.entries.map fun e => BitVec.ofNat 32 (entryWord e)) (n * listEntries) listEntries
      fabWrite (pageAddr (poolOf d s.tenant) k)
        (part.flatMap (fun w => leBytes 4 w.toNat) ++ (List.replicate (listEntries - part.length) (leBytes 4 noPage)).flatten) d) d
where
  slice (l : List W32) (o n : Nat) : List W32 := (l.drop o).take n

/-- Take list pages until a list has as many as its entries need; the pages are known to be free. -/
def growList (i : Nat) : Nat → Device → Device
  | 0, d => d
  | fuel + 1, d => match seqOf d i with
    | none => d
    | some s =>
      if s.listPages.length ≥ ceilDiv s.entries.length listEntries then d
      else match takePage s.tenant true d with
        | some (k, d) => growList i fuel (onSeq i (fun s => { s with listPages := s.listPages ++ [k] }) d)
        | none => d

/-- Drop the list pages past those the entries need. -/
def shrinkList (i : Nat) (d : Device) : Device :=
  match seqOf d i with
  | none => d
  | some s =>
    let n := ceilDiv s.entries.length listEntries
    (s.listPages.drop n).foldl (fun d k => dropRef s.tenant k d) (onSeq i (fun s => { s with listPages := s.listPages.take n }) d)

/-- Remove the entries from index `keep` on (R255). -/
def cutEntries (i keep : Nat) (d : Device) : Device :=
  match seqOf d i with
  | none => d
  | some s =>
    let d := onSeq i (fun s => { s with entries := s.entries.take keep }) d
    let d := (s.entries.drop keep).foldl (fun d e => dropRef s.tenant e.1 d) d
    syncList i (shrinkList i d)

/-- Every edit applied increments the list generation (R257). -/
def bumpGen (i : Nat) (d : Device) : Device := onSeq i (fun s => { s with gen := s.gen + 1 }) d

/-- Entries of the blocks that hold positions below p (R254). -/
def entriesFor (d : Device) (s : Seq) (p : Nat) : Nat := ceilDiv p 32 * sumGroups (planOf d s.skein)

/-- A running step writes positions of a sequence from a length on (R257). -/
def stepWrites (d : Device) (i len : Nat) : Bool :=
  d.serve.jobs.any fun x => x.2.step.any fun st => st.snaps.any fun s => s.seq == i && decide (s.len > len)

/-- ROLLBACK (R255): discard what lies beyond the committed length. It is an edit where there is anything to discard (R257). -/
def rollback (i : Nat) (d : Device) : Device :=
  match seqOf d i with
  | none => d
  | some s =>
    let keep := entriesFor d s s.committed
    if s.entries.length ≤ keep ∧ !stepWrites d i s.committed then d else bumpGen i (cutEntries i keep d)

/-- RELEASE (R255): every entry and list page goes, and the ID becomes free. -/
def releaseSeq (i : Nat) (d : Device) : Device :=
  let d := cutEntries i 0 d
  { d with serve.seqs := Assoc.erase d.serve.seqs i }

/-- RELEASE of a sequence and its draft companion (R296). -/
def releasePair (i : Nat) (d : Device) : Device :=
  match (seqOf d i).bind (·.companion) with
  | some c => releaseSeq i (releaseSeq c d)
  | none => releaseSeq i d

/-- ROLLBACK of a sequence and its draft companion (R294, R296). -/
def rollbackPair (i : Nat) (d : Device) : Device :=
  match (seqOf d i).bind (·.companion) with
  | some c => rollback i (rollback c d)
  | none => rollback i d

/-- Sequences of a tenant, draft companions and transient ones included (R296, R299). -/
def seqsOfTenant (d : Device) (t : Nat) : Nat := (d.serve.seqs.filter fun s => s.2.tenant == t).length

/-- `n` more sequences are within the tenant's quota (R253, R299). -/
def seqRoom (d : Device) (t n : Nat) : Bool :=
  decide (d.serve.seqs.length + n ≤ seqMax) &&
  (match partOf d t with | some q => decide (seqsOfTenant d t + n ≤ q.seqQuota) | none => false)

/-- Create an empty sequence with the lowest free ID. -/
def newSeq (t skein : Nat) (draft transient : Bool) (d : Device) : Nat × Device :=
  let i := firstGap 0 d.serve.seqs
  (i, { d with serve.seqs := Assoc.insert d.serve.seqs i { tenant := t, skein := skein, draft := draft, transient := transient } })

/-! ### APPEND and COPY (R255, R256, R261) -/

/-- Header and exponents of a page with no slot written (R247, R248). -/
def blankPage (mode : Nat) (kgen : BitVec 2) (t ordinal group width origin first : Nat) : List Byte :=
  leBytes 2 2 ++ [BitVec.ofNat 8 mode, BitVec.ofNat 8 kgen.toNat, BitVec.ofNat 8 t, 0] ++ leBytes 2 ordinal ++ leBytes 2 group ++
  leBytes 2 width ++ zeros 4 ++ leBytes 4 origin ++ leBytes 4 first ++ zeros 40 ++ List.replicate 64 0x80

/-- The block that holds the committed length already has its pages when the length is not a multiple of 32 (R284). -/
def partialBlock (d : Device) (s : Seq) : List PageEntry :=
  if s.committed % 32 = 0 then []
  else (s.entries.drop (s.committed / 32 * sumGroups (planOf d s.skein))).take (sumGroups (planOf d s.skein))

/-- Pages that writing positions up to `len` needs (R261): new blocks, copies of shared pages, new list pages. -/
def pageNeed (d : Device) (i len : Nat) : Nat :=
  match seqOf d i with
  | none => 0
  | some s =>
    if len ≤ s.committed then 0
    else
      let total := max (entriesFor d s len) s.entries.length
      (total - s.entries.length) +
      ((partialBlock d s).filter fun e => decide (pageRefs d s.tenant e.1 > 1)).length +
      (ceilDiv total listEntries - s.listPages.length)

/-- COPY (R255): replace the entry at an index by a copy of its page; an entry that is RETIRED stays so (R249). -/
def copyEntry (i index : Nat) (d : Device) : Device :=
  match seqOf d i with
  | none => d
  | some s => match s.entries[index]? with
    | none => d
    | some e => match takePage s.tenant false d with
      | none => d
      | some (k, d) =>
        let q := poolOf d s.tenant
        let old := fabRead d (pageAddr q e.1) pageSize
        let bytes := old.take 3 ++ [BitVec.ofNat 8 (currentGen d s.tenant).toNat] ++ slice old 4 12 ++ leBytes 4 i ++ old.drop 20
        let d := fabWrite (pageAddr q k) bytes d
        let d := onPool s.tenant (fun q => { q with copies := satAdd32 q.copies 1 }) d
        dropRef s.tenant e.1 (bumpGen i (onSeq i (fun s => { s with entries := s.entries.set index (k, e.2) }) d))

/-- APPEND one entry with a newly allocated page (R255). -/
def appendEntry (i : Nat) (d : Device) : Device :=
  match seqOf d i with
  | none => d
  | some s =>
    let plan := planOf d s.skein
    let n := s.entries.length; let sum := sumGroups plan
    match groupAt 0 plan.attn (n % sum), takePage s.tenant false d with
    | some (ord, a, g), some (k, d) =>
      let d := fabWrite (pageAddr (poolOf d s.tenant) k)
        (blankPage a.mode (currentGen d s.tenant) s.tenant ord g a.width i (n / sum * 32)) d
      onSeq i (fun s => { s with entries := s.entries ++ [(k, false)] }) d
    | _, _ => d

/-- Repeat a change of the device. -/
def times : Nat → (Device → Device) → Device → Device
  | 0, _, d => d
  | n + 1, f, d => times n f (f d)

/-- APPEND and COPY for the positions up to `len`; the pages are known to be free (R257, R261). -/
def growSeq (i len : Nat) (d : Device) : Device :=
  match seqOf d i with
  | none => d
  | some s =>
    if pageNeed d i len = 0 then d
    else
      let sum := sumGroups (planOf d s.skein)
      let base := s.committed / 32 * sum
      let d := (partialBlock d s).zipIdx.foldl (fun d (e, n) =>
        if pageRefs d s.tenant e.1 > 1 then copyEntry i (base + n) d else d) d
      let n := entriesFor d s len - s.entries.length
      let d := times n (appendEntry i) d
      syncList i (growList i 64 (if n = 0 then d else bumpGen i d))

/-! ### COMMIT (R255, R489) -/

/-- COMMIT: the committed length becomes `len`, and H takes the tokens of the added positions. -/
def commitSeq (i len : Nat) (tokens : List W32) (d : Device) : Device :=
  match seqOf d i with
  | none => d
  | some s =>
    if len ≤ s.committed then d
    else bumpGen i (onSeq i (fun s => { s with
      committed := len
      hash := if tokens.isEmpty then s.hash else digest32 (s.hash ++ tokens.flatMap fun w => leBytes 4 w.toNat) }) d)

/-! ### FORK and TRUNCATE (R255, R489) -/

/-- The entries that a FORK of the first p positions of a sequence refers to. -/
def forkEntries (d : Device) (i p : Nat) : List PageEntry :=
  match seqOf d i with | some s => s.entries.take (entriesFor d s p) | none => []

/-- The status with which a FORK of the first p positions would fail, its draft companion's included (R252, R296); none when it is
possible. -/
def forkError (d : Device) (i p : Nat) : Option W16 :=
  match seqOf d i with
  | none => some stBadArgument
  | some s =>
    let kept := i :: s.companion.toList |>.map fun k => forkEntries d k p
    if p > s.committed then some stBadArgument
    else if kept.any fun l => l.any fun e => decide (pageRefs d s.tenant e.1 ≥ 65535) then some stBadArgument
    else if (kept.map fun l => ceilDiv l.length listEntries).sum > freePages (poolOf d s.tenant) then some stAdmitMemory
    else none

/-- FORK one sequence (R255): the new list holds references to the first p positions. -/
def forkOne (i p : Nat) (d : Device) : Nat × Device :=
  match seqOf d i with
  | none => (0, d)
  | some s =>
    let (n, d) := newSeq s.tenant s.skein s.draft false d
    let kept := s.entries.take (entriesFor d s p)
    let d := kept.foldl (fun d e => addRef s.tenant e.1 d) d
    let d := onSeq n (fun x => { x with
      committed := min p s.committed, gen := 1, entries := kept
      hash := digest32 (s.hash ++ ascii "FORK" ++ leBytes 4 p) }) d
    (n, syncList n (growList n 64 d))

/-- FORK a sequence and its draft companion (R296): the new sequence's ID. -/
def forkPair (i p : Nat) (d : Device) : Nat × Device :=
  let comp := (seqOf d i).bind (·.companion)
  let (n, d) := forkOne i p d
  match comp with
  | some c =>
    let (m, d) := forkOne c p d
    (n, onSeq n (fun s => { s with companion := some m }) d)
  | none => (n, d)

/-- TRUNCATE one sequence (R255). -/
def truncateOne (i p : Nat) (d : Device) : Device :=
  match seqOf d i with
  | none => d
  | some s =>
    let len := min p s.committed
    let d := onSeq i (fun s => { s with committed := len, hash := digest32 (s.hash ++ ascii "TRUNC" ++ leBytes 4 p) }) d
    bumpGen i (cutEntries i (entriesFor d s len) d)

/-! ### Snapshots and the writes of a step (R256, R257, R260) -/

/-- The snapshot of a sequence (R257). -/
def snapshot (d : Device) (i len : Nat) : List SeqSnap :=
  match seqOf d i with
  | none => []
  | some s => [{ seq := i, gen := s.gen, len := len, entries := s.entries }]

/-- Write the K and V rows of a position into a slot of a page: coded mantissas, the exponents, the count of filled slots (R246 to R248). -/
def fillSlot (addr mode width slot : Nat) (k v : List Int) (kx vx : Int) (d : Device) : Device :=
  let n := planeSize mode width
  let d := fabWrite (addr + 256 + slot * n) (planeBytes mode k) d
  let d := fabWrite (addr + 256 + 32 * n + slot * n) (planeBytes mode v) d
  let d := fabWrite (addr + 64 + slot) [BitVec.ofNat 8 (patternOf 8 kx)] d
  let d := fabWrite (addr + 96 + slot) [BitVec.ofNat 8 (patternOf 8 vx)] d
  fabWrite (addr + 12) [BitVec.ofNat 8 (max (byteAt (fabRead d (addr + 12) 1) 0).toNat (slot + 1))] d

/-- A walk of a layer reaches a retired entry of a sequence (R249). -/
def meetsRetired (d : Device) (i layer : Nat) : Bool :=
  match seqOf d i with
  | none => false
  | some s =>
    let plan := planOf d s.skein
    let sum := sumGroups plan
    s.entries.zipIdx.any fun (e, n) => e.2 && (match groupAt 0 plan.attn (n % sum) with | some (_, a, _) => a.layer == layer | none => false)

/-- A walk of a layer would read a block of a sequence's pages that is known to be Uncorrectable (R449). -/
def meetsBad (d : Device) (i layer : Nat) : Option Nat :=
  match seqOf d i with
  | none => none
  | some s =>
    let plan := planOf d s.skein
    s.entries.zipIdx.findSome? fun (e, n) => match groupAt 0 plan.attn (n % sumGroups plan) with
      | some (_, a, _) => if a.layer = layer ∧ !e.2 then badIn d (pageAddr (poolOf d s.tenant) e.1) pageSize else none
      | none => none

/-- Force-retire a generation (R249): its pages are scrubbed and every entry naming one is RETIRED. The count of pages. -/
def forceRetire (t : Nat) (g : BitVec 2) (d : Device) : Nat × Device :=
  let q := poolOf d t
  let ks := (q.pages.filter fun p => p.2.kgen == some g).map (·.1)
  let d := ks.foldl (fun d k => fabScrub (pageAddr q k) pageSize d) d
  let d := { d with serve.seqs := d.serve.seqs.map fun (i, s) =>
    if s.tenant = t then (i, { s with entries := s.entries.map fun e => if ks.contains e.1 then (e.1, true) else e }) else (i, s) }
  let d := onPool t (fun q => { q with
    pages := q.pages.map fun (k, x) => if ks.contains k then (k, { x with kgen := none }) else (k, x)
    scrubbed := satAdd32 q.scrubbed ks.length }) d
  (ks.length, (d.serve.seqs.filter fun s => s.2.tenant == t).foldl (fun d s => syncList s.1 d) d)

end Sys2Proof.Machine
end

