-- ==== Sys2Proof/Machine/Flits.lean ====
section
/-! DEFINITION. Flits and the sending of messages (11_links_pods R344 to R351): what a port puts on the wire, credits, sequence numbers, the
seal of a message and its cutting into flits. -/

namespace Sys2Proof.Machine

/-- The key of a job: tenant and job ID (R274). -/
def jobKey (t : Byte) (j : W32) : Nat := t.toNat * 2 ^ 32 + j.toNat

def jobOf (d : Device) (t : Byte) (j : W32) : Option Job := Assoc.find d.serve.jobs (jobKey t j)

/-- The device's own ID (R27). -/
def ownId (d : Device) : BitVec 12 := d.host.deviceId

def LinkPart.port (k : LinkPart) (p : Nat) : LinkPort := SMap.get {} k.ports p
def LinkPart.onPort (p : Nat) (f : LinkPort → LinkPort) (k : LinkPart) : LinkPart := { k with ports := SMap.modify {} k.ports p f }

def portOf (d : Device) (p : Nat) : LinkPort := d.link.port p
def onPort (p : Nat) (f : LinkPort → LinkPort) (d : Device) : Device := { d with link := d.link.onPort p f }

abbrev modeOff : BitVec 2 := 0
abbrev modePod : BitVec 2 := 1
abbrev modeTwin : BitVec 2 := 2

/-! ### Flits (R344 to R348) -/

abbrev flitIdle : Nat := 0
abbrev flitData : Nat := 1
abbrev flitNak : Nat := 2
abbrev flitAlign : Nat := 3

/-- A flit of a port: its link-layer fields, with the ack and the credits as they stand, bytes 12 to 251, CRC (R344, R345). -/
def linkFlit (x : LinkPort) (type vc : Nat) (seq : W16) (body : List Byte) : List Byte :=
  let head := [BitVec.ofNat 8 type, BitVec.ofNat 8 vc] ++ leBytes 2 seq.toNat ++ leBytes 2 x.accepted.toNat ++
    x.freed.map (BitVec.ofNat 8 ·) ++ zeros 2 ++ padTo 240 body
  head ++ leBytes 4 (crc32c head).toNat

/-- A flit that carries no data: IDLE, NAK or ALIGN. -/
def plainFlit (x : LinkPort) (type : Nat) : List Byte := linkFlit x type 0 0 []

/-- The flit of a DATA flit kept for replay, as a port sends it now: every sending carries the present ack and credits. -/
def Replay.flit (x : LinkPort) (r : Replay) : List Byte := linkFlit x flitData r.vc r.seq r.body

/-- Free a receive buffer of a channel. -/
def LinkPart.free (p vc : Nat) (k : LinkPart) : LinkPart := k.onPort p fun x => { x with freed := x.freed.set vc ((x.freed.getD vc 0 + 1) % 256) }

def freeBuffer (p vc : Nat) (d : Device) : Device := { d with link := d.link.free p vc }

/-- A waiting flit leaves its port's queue; the receive buffer that it held is free. -/
def LinkPart.freeHeld (w : Waiting) (k : LinkPart) : LinkPart := match w.held with | some q => k.free q w.vc | none => k

/-- The slots of an UP port in which nothing else is due carry IDLE flits (R339). -/
def LinkPart.idle (p : Nat) (k : LinkPart) : LinkPart :=
  k.onPort p fun x => if x.state = .up ∧ x.wire = [] then { x with wire := [plainFlit x flitIdle] } else x

/-- Send what waits, in order on each channel, while credits and the replay buffer last (R346, R347). -/
def pumpLink (now p : Nat) : Nat → LinkPart → LinkPart
  | 0, k => k.idle p
  | fuel + 1, k =>
    let x := k.port p
    if x.state ≠ .up ∨ x.replay.length ≥ 256 then k.idle p
    else match x.waiting.find? fun w => decide (x.credits.getD w.vc 0 > 0) with
      | none => k.idle p
      | some w =>
        let r : Replay := { seq := x.sent + 1, vc := w.vc, body := w.body, at_ := now }
        let k := k.onPort p fun x => { x with
          sent := x.sent + 1, waiting := x.waiting.erase w, credits := x.credits.set w.vc (x.credits.getD w.vc 0 - 1)
          replay := x.replay ++ [r], wire := x.wire ++ [r.flit x] }
        pumpLink now p fuel (k.freeHeld w)

def pumpPort (p : Nat) (d : Device) : Device := { d with link := pumpLink d.clock p 256 d.link }

/-! ### Routes (R340, R354, R355) -/

/-- Candidate ports of a destination: a member of the pod, or another pod (R354, R355). A TWIN port is none (R340). -/
def routePorts (d : Device) (dest : Nat) : List Nat :=
  let key := if dest < 0x800 then (if dest / 64 = d.link.pod.toNat then dest else 0x800 + dest / 64) else dest
  (((Assoc.find d.link.routes key).getD []).take 2).filter fun p => (portOf d p).mode == modePod

/-- The port that a message leaves by: UP candidates first, else a SHED one that holds it (R355, R368). -/
def outPort (d : Device) (dest vc : Nat) : Option Nat :=
  let cands := routePorts d dest
  let up := cands.filter fun p => (portOf d p).state == .up
  let credit := fun p => (portOf d p).credits.getD vc 0
  match (if up.isEmpty then cands.filter fun p => (portOf d p).state == .shed else up) with
  | [] => none
  | a :: rest =>
    if vc = 0 then some a
    else some (rest.foldl (fun best p => if credit p > credit best ∨ (credit p = credit best ∧ p < best) then p else best) a)

/-! ### Sending a message (R349 to R351) -/

/-- The virtual channel of a kind (R346). -/
def vcOf (kind : Nat) : Nat := if kind = 4 then 1 else if kind = 2 ∨ kind = 3 then 2 else if kind = 7 then 3 else 0

/-- The next counter under a key; with a floor stored ahead of it for a key that survives resets (R351, R513). -/
def LinkPart.counter (key : List Byte) (stored : Bool) (k : LinkPart) : Nat × LinkPart :=
  match k.counters.find? fun c => c.key == key with
  | some c =>
    let n := c.last + 1
    (n, { k with counters := k.counters.map fun x =>
      if x.key == key then { x with last := n, floor := if stored && decide (x.floor ≤ n) then n + 65536 else x.floor } else x })
  | none => (1, { k with counters := k.counters ++ [{ key := key, last := 1, floor := if stored then 65537 else 0 }] })

def takeCounter (key : List Byte) (d : Device) : Nat × Device :=
  let r := d.link.counter key true
  (r.1, { d with link := r.2 })

/-- The generations whose keys a tenant holds, the current one first. -/
def tenantGens (d : Device) (t : Byte) : List Generation := match partOf d t.toNat with
  | some q => (match q.cur with | some g => [g] | none => []) ++ (match q.prev with | some g => [g] | none => [])
  | none => []

/-- The key that seals a message and whether it survives resets (R350, R494): the pod key, the key of the pages' generation, or K_job; to the
twin the pod key or K_wrap of the current generation. -/
def sealKey (d : Device) (m : OutMsg) : Option (List Byte × Bool) :=
  let gens := tenantGens d m.tenant
  if m.dest = 0xFFE then
    if m.kind = 0 ∨ m.kind = 3 then d.sec.podKeys.head?.map (·, true) else gens.head?.map fun g => (kWrap m.tenant g, true)
  else if m.kind = 0 then d.sec.podKeys.head?.map (·, true)
  else if m.kind = 7 then
    (match m.body with
      | .migrate _ _ (c :: _) => gens.find? fun (g : Generation) => g.num == c.kgen
      | _ => gens.head?).map fun g => (kMig m.tenant g, true)
  else (jobOf d m.tenant m.job).map fun j => (j.key, false)

/-- The source value in the IV of an own message: the device ID, or the role on a TWIN port (R351). -/
def ownSource (d : Device) (m : OutMsg) : Nat :=
  if m.dest ≠ 0xFFE then (ownId d).toNat
  else match (portOf d 3).peer with
    | some q => if d.boot.otp.serial.toNat < q.serial.toNat then 0x1001 else 0x1002
    | none => (ownId d).toNat

/-- Bytes 12 to 25 of the flits of a message (R344). -/
def msgHead (d : Device) (m : OutMsg) : List Byte :=
  let twin := decide (m.dest = 0xFFE)
  leBytes 2 m.dest.toNat ++ leBytes 2 (ownId d).toNat ++ leBytes 4 (if !twin && decide (m.kind ≤ 1) then 0 else m.job.toNat) ++
  leBytes 2 m.epoch.toNat ++ [m.tenant, BitVec.ofNat 8 m.kind] ++ leBytes 2 d.link.nextMsg.toNat

/-- Bytes 12 to 251 of the flits of a sealed message, 220 bytes each (R349). -/
def cutMessage (head ct : List Byte) : List (List Byte) :=
  let n := ceilDiv ct.length 220
  (List.range n).map fun i =>
    let part := slice ct (220 * i) (min 220 (ct.length - 220 * i))
    head ++ leBytes 2 (i + if i + 1 = n then 0x8000 else 0) ++ leBytes 2 part.length ++ zeros 2 ++ padTo 220 part

/-- The port of an own message: port 3 in twin mode to the partner, else by the routes. -/
def ownPort (d : Device) (m : OutMsg) : Option Nat :=
  if m.dest ≠ 0xFFE then outPort d m.dest.toNat (vcOf m.kind)
  else if (portOf d 3).state = .up ∧ (portOf d 3).mode = modeTwin then some 3 else none

/-- The links once a message is on its way. DESIGN CHOICE: messages are numbered as they are sent; one for which there is no key is not sent, and
one for which there is no port is discarded and counted like a flit in transit. -/
def sendLink (m : OutMsg) (d : Device) : LinkPart :=
  match sealKey d m with
  | none => d.link
  | some (key, stored) => match ownPort d m with
    | none => { d.link with dropCount := d.link.dropCount + 1 }
    | some p =>
      let (c, k) := d.link.counter key stored
      let head := msgHead d m
      let iv := leBytes 2 (ownSource d m) ++ [m.tenant, BitVec.ofNat 8 m.kind] ++ leBytes 8 c
      let flits := cutMessage head (gcmSeal key iv head ((Config.messageBytes m.body).take 65536))
      let vc := if m.dest = 0xFFE then 0 else vcOf m.kind
      let k : LinkPart := { k with nextMsg := k.nextMsg + 1, outbox := k.outbox ++ [m] }
      pumpLink d.clock p 256 (k.onPort p fun x => { x with waiting := x.waiting ++ flits.map fun b => { vc := vc, held := none, body := b } })

/-- Send a message (R349). -/
def sendMsg (m : OutMsg) (d : Device) : Device := { d with link := sendLink m d }

end Sys2Proof.Machine
end

