-- ==== Sys2Proof/Machine/Jobs.lean ====
section
/-! DEFINITION. Jobs and requests: opening and closing, admission, the end of a request with its record and its audit record,
cancellation, and the sequence opcodes (09_serving R274 to R285, R292 to R302; 16_determinism_audit R489 to R492, R496). -/

namespace Sys2Proof.Machine

/-! ### Jobs and requests as state -/

def onJob (t : Byte) (j : W32) (f : Job → Job) (d : Device) : Device := { d with serve.jobs := Assoc.adjust d.serve.jobs (jobKey t j) f }

def reqOf (d : Device) (r : Ref) : Option Request := (d.serve.reqs.find? fun x => x.1 == r).map (·.2)
def onReq (r : Ref) (f : Request → Request) (d : Device) : Device :=
  { d with serve.reqs := d.serve.reqs.map fun x => if x.1 = r then (x.1, f x.2) else x }

/-- The job runs in twin mode; a divergence leaves it paired (R495, R498). -/
def Job.twinned (j : Job) : Bool := j.twin == .paired || j.twin == .diverged

/-- Unended requests of a job, in order of admission. -/
def reqsOf (d : Device) (t : Byte) (j : W32) : List (Ref × Request) :=
  d.serve.reqs.filter fun x => x.2.tenant == t.toNat && x.2.job == j

/-- No deadline (R56). -/
abbrev noDeadline : Nat := 2 ^ 64 - 1

/-- The tiles of a mask in increasing order (R275). -/
def tilesOf (m : W32) : List Nat := maskList 32 m.toNat

/-- Cycles that a plan's layers take for N token rows (R209, R285, R290). -/
def planCycles (p : Plan) (n : Nat) : Nat := (p.layers.map fun l => l.a + l.b * n).sum

/-- P(j) in cycles (R285). -/
def jobCycles (d : Device) (j : Job) : Nat :=
  planCycles (planOf d j.main) j.budget + (match j.adapter with | some a => planCycles (planOf d a) j.budget | none => 0) +
  (match j.draft with | some k => j.depth * planCycles (planOf d k) j.budget | none => 0)

/-- Cycles of 800 MHz in ns, truncated. -/
def cyclesNs (c : Nat) : Nat := c * 5 / 4

/-- The bytes of X_site over a job's site tables, main then draft (R490). -/
def siteBytes (j : Job) : List Byte := (j.sites ++ j.draftSites).map fun s => BitVec.ofNat 8 (patternOf 8 s.x)

/-- Devices other than this one that hold a stage of a job (R358). -/
def stageDevices (d : Device) (j : Job) : List (BitVec 12) :=
  ((j.stages.flatMap fun s => s.device :: []).filter (· != ownId d)).eraseDups

/-! ### The rows of a step and their marks (R152, R169, R288, R294) -/

/-- Rows of a request in a step: first row and count, in main lists. -/
def rowsAt (r : Ref) : List StepRows → Nat → List Nat
  | [], _ => []
  | x :: rest, at_ => if x.ref = r then (List.range x.n).map (at_ + ·) else rowsAt r rest (at_ + x.n)

/-- Requests that draft in a step. -/
def drafters (rows : List StepRows) : List StepRows := rows.filter fun x => decide (x.depth ≥ 1)

/-- The rows of a request in draft lists: one row per request that drafts, and behind them the extra rows that bring companions up to date
(R296, R297). -/
def draftRowAt (r : Ref) (rows : List StepRows) : List Nat :=
  ((drafters rows).zipIdx.filter fun (x, _) => x.ref == r).map (·.2) ++ rowsAt r (rows.filter (·.extra)) (drafters rows).length

/-- Rows of a step are taken out of its walks. -/
def goneAt (rows : List Nat) (l : List WalkRows) : List WalkRows := l.map fun w => if rows.contains w.row then { w with gone := true } else w

/-- Token rows of a step (R209): on a worker, those of the work unit. -/
def rowCount (st : StepRun) : Nat := ((if st.rows.isEmpty then st.walkRows.map (·.n) else st.rows.map (·.n))).sum

/-! ### Drains (R115, R118, R136, R138, R151, R152) -/

/-- Step row of token row 0 of the descriptor that a list stands at. -/
def QList.rowBase (l : QList) : Nat := l.rows.getD l.index 0

/-- A token row of the descriptor that a list stands at is marked (R152, R169). -/
def QList.marked (l : QList) (i : Nat) : Bool := l.kill.contains (l.rowBase + i)

/-- The 16-bit pieces of drained elements for register i of a group (R561). -/
def pieces (es : List Nat) (i : Nat) : List W16 := es.map fun v => BitVec.ofNat 16 (v / 2 ^ (16 * i))

/-- Write one drained row of an array (R136, R561). -/
def writeRow (t a i : Nat) (p : PassDesc) (xsite : Int) (es : List Nat) (d : Device) : Device :=
  let v := p.out.getD a 0
  if isReg v then
    onTile t (fun ts =>
      { ts with
        tregs := (List.range (p.elem / 2)).foldl (fun m k => SMap.set [] m ((v % 16 + k) * 64 + i) (pieces es k)) ts.tregs
        texp := if p.fx then SMap.set 0 ts.texp (v % 16 * 64 + i) (BitVec.ofNat 8 (patternOf 8 xsite)) else ts.texp }) d
  else
    let d := storeWrite t (v + i * p.outStride) (es.flatMap fun e => leBytes p.elem e) d
    if p.fx then storeWrite t (p.outExp.getD a 0 + i) [BitVec.ofNat 8 (patternOf 8 xsite)] d else d

/-- Add events to the tile's counters and to the job's record (R118, R138, R154). -/
def countEvents (t : Nat) (l : QList) (ev : NumEv) (d : Device) : Device :=
  let d := onTile t (fun ts => { ts with
    fxRows := satAdd32 ts.fxRows ev.rows, fxElems := satAdd32 ts.fxElems ev.ovf,
    sat := satAdd32 ts.sat ev.sat, invalid := satAdd32 ts.invalid ev.inv }) d
  if l.origin == .fixed then d
  else onJob l.tenant l.job (fun j => { j with
    num := { rows := satAdd32 j.num.rows ev.rows, elems := satAdd32 j.num.elems ev.ovf,
             sat := satAdd32 j.num.sat ev.sat, inv := satAdd32 j.num.inv ev.inv } }) d

/-- A row of a site has overflowed: it counts once in its step, in the job's record and in the counters of each tile that drains a piece
of it (R115, R118); a row of a Fixed-plane program once in its run. -/
def countRow (t : Nat) (l : QList) (site row : Nat) (d : Device) : Device :=
  if l.origin == .fixed then
    onTile t (fun ts => if ts.ovfRows.contains (site, row) then ts
      else { ts with ovfRows := ts.ovfRows ++ [(site, row)], fxRows := satAdd32 ts.fxRows 1 }) d
  else
    let seen := match (jobOf d l.tenant l.job).bind (·.step) with | some st => st.ovfRows | none => []
    if seen.contains (t, l.draft, site, row) then d
    else
      let fresh := !seen.any fun x => x.2 == (l.draft, site, row)
      onTile t (fun ts => { ts with fxRows := satAdd32 ts.fxRows 1 }) <| onJob l.tenant l.job (fun j => { j with
        num := if fresh then { j.num with rows := satAdd32 j.num.rows 1 } else j.num
        step := j.step.map fun st => { st with ovfRows := st.ovfRows ++ [(t, l.draft, site, row)] } }) d

/-- Record a needed exponent into X_obs (R114). -/
def observe (l : QList) (site : Nat) (x : Option Int) (d : Device) : Device :=
  if l.origin == .fixed then d
  else onJob l.tenant l.job (fun j => { j with step := j.step.map fun st =>
    if l.draft then { st with obsDraft := SMap.modify none st.obsDraft site (maxOpt · x) }
    else { st with obsMain := SMap.modify none st.obsMain site (maxOpt · x) } }) d

/-! ### ATOMIC tensors (R214, R215) -/

/-- The plans of a job with ATOMIC sites: whether the lists of each are a draft sub-step's. -/
def jobPlans (d : Device) (j : Job) : List (Bool × Plan) :=
  ((j.main :: j.adapter.toList).map fun k => (false, planOf d k)) ++ j.draft.toList.map fun k => (true, planOf d k)

/-- The stage on whose device the home tile of an ATOMIC tensor lies; none where the whole job is on one device. -/
def homeStage (j : Job) (a : AtomicSite) : Option Stage :=
  (j.stages ++ j.others).find? fun s => decide (s.first ≤ a.homeLayer ∧ a.homeLayer ≤ s.last)

/-- The home tile of an ATOMIC tensor, by the stage's own tiles or, on the manager and where there is no placement, the job's. -/
def homeTile (d : Device) (j : Job) (a : AtomicSite) : Option Nat :=
  match homeStage j a with
  | some s => (tilesOf (if s.device = ownId d then j.tiles else s.tiles))[a.home]?
  | none => (tilesOf j.tiles)[a.home]?

/-- A partial row is whole: it goes over the mesh to its home tile, or in a RESULT message to the home tile's device (R214, R215). -/
def sendPartial (t : Byte) (jid : W32) (j : Job) (st : StepRun) (a : AtomicSite) (row : Nat) (elems : List W32) (d : Device) : Device :=
  match homeTile d j a with
  | none => d
  | some home =>
    let dest := a.dest + row * a.rowBytes
    match (homeStage j a).filter fun s => s.device != ownId d with
    | some s => sendMsg { kind := 4, dest := s.device, tenant := t, job := jid, epoch := j.epoch,
                          body := .partialRow (BitVec.ofNat 5 home) (BitVec.ofNat 32 dest) elems } d
    | none => { d with mem.partials := d.mem.partials ++
        [{ tenant := t, job := jid, serial := st.serial, tile := home, dest := dest, row := elems }] }

/-- The rows being drained, with the columns of one more piece. -/
def joinPart (rows : List PartRow) (t : Nat) (draft : Bool) (site row col : Nat) (es : List Nat) : PartRow × List PartRow :=
  let same := fun (x : PartRow) => x.tile == t && x.draft == draft && x.site == site && x.row == row
  let old := (rows.find? same).getD { tile := t, draft := draft, site := site, row := row, cols := [] }
  ({ old with cols := SMap.set [] old.cols col es }, rows.filter fun x => !same x)

/-- A piece of a row of an ATOMIC tensor has drained on a contributing tile: with its last piece the row is sent whole (R214). -/
def drainPartial (t : Nat) (l : QList) (site row col : Nat) (es : List Nat) (d : Device) : Device :=
  match jobOf d l.tenant l.job with
  | none => d
  | some j => match j.step, (jobPlans d j).findSome? fun x => if x.1 = l.draft then x.2.atomics.find? fun a =>
      a.site == site && a.parts.any fun k => (tilesOf j.tiles)[k]? == some t else none with
    | some st, some a =>
      let (x, rest) := joinPart st.partRows t l.draft site row col es
      let n := ceilDiv (a.rowBytes / 4) 64
      if row < a.rows ∧ (List.range n).all fun k => x.cols.any fun c => c.1 == k then
        let elems := ((List.range n).flatMap fun k => SMap.get [] x.cols k).take (a.rowBytes / 4)
        sendPartial l.tenant l.job j st a row (elems.map (BitVec.ofNat 32))
          (onJob l.tenant l.job (fun j => { j with step := j.step.map fun st => { st with partRows := rest } }) d)
      else onJob l.tenant l.job (fun j => { j with step := j.step.map fun st => { st with partRows := rest ++ [x] } }) d
    | _, _ => d

/-- Step row of a pending row of a pass. -/
def stepRow (f : FlightPass) (x : PendingRow) : Nat :=
  f.list.rowBase + if (passDesc f.raw).twin then x.array * (passDesc f.raw).rows + x.row else x.row

/-- A row drains, or its carry write is counted. DESIGN CHOICE: what saturates in a pass that only writes its carry bank counts when that
pass writes it, though R138 speaks of the drain unit. -/
def drainPending (t : Nat) (f : FlightPass) (x : PendingRow) (d : Device) : Device :=
  let p := passDesc f.raw
  let d := countEvents t f.list { x.ev with rows := 0 } d
  let d := if x.ev.rows = 0 then d else countRow t f.list p.site (stepRow f x) d
  if x.carry then d
  else
    let d := writeRow t x.array x.row p x.xsite x.elems d
    let d := if f.list.origin != .skein then d else drainPartial t f.list p.site (stepRow f x) x.col x.elems d
    if p.fx then observe f.list p.site x.obs d else d

/-- Rows drain in order. -/
def drainRows (t : Nat) (f : FlightPass) (rows : List PendingRow) (d : Device) : Device := rows.foldl (fun d x => drainPending t f x d) d

/-- A kill mask reaches a pass in flight (R152): the rows that had drained before it took effect, how many is a matter of cycles and left
free, stay written, and of the others the marked ones are suppressed. -/
def markFlight (t : Nat) (l : QList) (f : FlightPass) (d : Device) : Device × FlightPass :=
  if f.rows.any fun x => l.marked x.row then
    let n := Config.freeNat d.freeCtr % (f.rows.length + 1)
    (drainRows t f (f.rows.take n) (spend 1 d), { f with list := l, rows := (f.rows.drop n).filter fun x => !l.marked x.row })
  else (d, { f with list := l })

/-- Put marks on a list. -/
def markList (kill : List Nat) (l : QList) : QList := { l with kill := (l.kill ++ kill).eraseDups }

/-- Attach marks to every list of a job on a tile, queued or in flight (R152, R169): those of main lists and those of draft lists. Lists of
fixed origin take no marks. DESIGN CHOICE: the writes of a vector descriptor in flight precede the mask. -/
def markTile (t : Byte) (jid : W32) (main draft : List Nat) (k : Nat) (d : Device) : Device :=
  let mine := fun (l : QList) => l.tenant == t && l.job == jid && l.origin != .fixed
  let mark := fun (l : QList) => if mine l then markList (if l.draft then draft else main) l else l
  let d := onTile k (fun ts => { ts with passes := ts.passes.map mark, vecs := ts.vecs.map mark }) d
  let (d, fs) := (tileOf d k).flight.foldl (fun (x : Device × List FlightPass) f =>
    if mine f.list then let r := markFlight k (mark f.list) f x.1; (r.1, x.2 ++ [r.2]) else (x.1, x.2 ++ [f])) (d, [])
  onTile k (fun ts => { ts with flight := fs }) d

/-- Mark a request's rows in every list of its job on its tiles (R152, R169). -/
def markRows (t : Byte) (jid : W32) (r : Ref) (d : Device) : Device :=
  match jobOf d t jid with
  | none => d
  | some j => match j.step with
    | none => d
    | some st =>
      let main := rowsAt r st.rows 0; let draft := draftRowAt r st.rows
      let d := (tilesOf j.tiles).foldl (fun d k => markTile t jid main draft k d) d
      onJob t jid (fun j => { j with step := j.step.map fun st =>
        { st with rows := st.rows.map (fun x => if x.ref = r then { x with gone := true } else x)
                  walkRows := goneAt main st.walkRows, draftRows := goneAt draft st.draftRows } }) d

/-- Take a job's lists off its tiles. -/
def clearLists (t : Byte) (jid : W32) (tiles : W32) (d : Device) : Device :=
  (tilesOf tiles).foldl (fun d k => onTile k (fun ts =>
    { ts with
      passes := ts.passes.filter fun l => !(l.tenant == t && l.job == jid)
      vecs := ts.vecs.filter fun l => !(l.tenant == t && l.job == jid)
      vflight := ts.vflight.map fun v => { v with orphan := v.orphan || (v.tenant == t && v.job == jid) }
      vwait := match ts.vecs with | l :: _ => if l.tenant == t && l.job == jid then none else ts.vwait | [] => ts.vwait }) d) d

/-- Release the pins of a step (R260). -/
def unpinStep (t : Nat) (st : StepRun) (d : Device) : Device :=
  st.pins.foldl (fun d (_, ks) => ks.foldl (fun d k => unpinPage t k d) d) d

/-- Site updates of a step (R115) and the exponent history (R490). -/
def updateSites (t : Byte) (jid : W32) (st : StepRun) (d : Device) : Device :=
  let upd := fun (obs : SMap (Option Int)) (l : List Site) => l.zipIdx.map fun (s, i) =>
    match SMap.get none obs i with | some x => siteUpdate s x | none => s
  onJob t jid (fun j =>
    let j' := { j with sites := upd st.obsMain j.sites, draftSites := upd st.obsDraft j.draftSites }
    if siteBytes j' = siteBytes j then j' else { j' with hashE := digest32 (j.hashE ++ siteBytes j') }) d

/-! ### Host edits (R255 to R259, R300) -/

/-- Some job that holds a skein is running a step (R300); a stage job works on shadows, which no host edit names. -/
def skeinRuns (d : Device) (t skein : Nat) : Bool :=
  d.serve.jobs.any fun x => x.1 / 2 ^ 32 % 16 == t && x.2.main == skein && x.2.manager.isNone && x.2.step.isSome

/-- A sequence has an unended request. -/
def seqBusy (d : Device) (i : Nat) : Bool := d.serve.reqs.any fun x => x.2.seq == i

/-- Answer the packet of a host edit, if it still waits. -/
def answerEdit (ref : Option Ref) (st : W16) (result : List Byte) (d : Device) : Device :=
  match ref.bind (findPacket d) with
  | some p => finish p st result d
  | none => d

/-- Apply one host edit (R255, R259, R300). -/
def applyEdit (e : StagedEdit) (d : Device) : Device :=
  match e.edit with
  | .fork src p =>
    match forkError d src p with
    | some st => answerEdit e.ref st [] d
    | none =>
      let comp := (seqOf d src).bind (·.companion)
      if !seqRoom d e.tenant (if comp.isSome then 2 else 1) then answerEdit e.ref stSeqLimit [] d
      else let (n, d) := forkPair src p d
        answerEdit e.ref stOK (leBytes 2 n ++ zeros 2) d
  | .truncate i p =>
    match seqOf d i with
    | none => answerEdit e.ref stBadArgument [] d
    | some s =>
      if p > s.committed then answerEdit e.ref stBadArgument [] d
      else if seqBusy d i then answerEdit e.ref stSeqBusy [] d
      else
        let d := match s.companion with | some c => truncateOne c p d | none => d
        answerEdit e.ref stOK [] (truncateOne i p d)
  | .release i =>
    if (seqOf d i).isNone then answerEdit e.ref stBadArgument [] d
    else if seqBusy d i ∧ e.ref.isSome then answerEdit e.ref stSeqBusy [] d
    else answerEdit e.ref stOK [] (releasePair i d)

/-- The sequence whose list an edit reads or changes. -/
def HostEdit.seq : HostEdit → Nat
  | .fork i _ => i
  | .truncate i _ => i
  | .release i => i

/-- A running step stands on a sequence. -/
def seqInStep (d : Device) (i : Nat) : Bool := d.serve.jobs.any fun x => x.2.step.any fun st => st.snaps.any fun s => s.seq == i

/-- Apply the staged edits of a skein's sequences, in order of acceptance (R257 to R259). DESIGN CHOICE: an edit of a sequence that the step
of another job of the skein stands on waits for that step, so that a page with one reference keeps it while it is written (R256). -/
def applyEdits (t skein : Nat) (d : Device) : Device :=
  let mine := fun (e : StagedEdit) => e.tenant == t && e.skein == skein && !seqInStep d e.edit.seq
  let todo := d.serve.edits.filter mine
  let d := { d with serve.edits := d.serve.edits.filter fun e => !mine e }
  todo.foldl (fun d e => applyEdit e d) d

/-- The boundary after a step (R258, R300): edits that waited are applied at once when no other job of the skein runs a step. -/
def boundary (t skein : Nat) (d : Device) : Device := if skeinRuns d t skein then d else applyEdits t skein d

/-! ### The end of a step -/

/-- A step goes: its lists leave the tiles, its pins are released, its windows are given up. What its sites have drained stands for the step
that follows, as work already drained contributes though its results are discarded (R116, R362). -/
def dropStep (t : Byte) (jid : W32) (d : Device) : Device :=
  match jobOf d t jid with
  | none => d
  | some j => match j.step with
    | none => d
    | some st =>
      let d := unpinStep t.toNat st (clearLists t jid j.tiles d)
      let d := { d with mem.windows := d.mem.windows.filter fun w => !(w.tenant == t && w.job == jid) }
      let d := { d with mem.partials := d.mem.partials.filter fun x => x.serial != st.serial }
      boundary t.toNat j.main (onJob t jid (fun j => { j with step := none, keptMain := st.obsMain, keptDraft := st.obsDraft }) d)

/-- The end of a step (R115): its sites are updated from what they drained, and it goes. -/
def endStep (t : Byte) (jid : W32) (d : Device) : Device :=
  match (jobOf d t jid).bind (·.step) with
  | none => d
  | some st => onJob t jid (fun j => { j with keptMain := [], keptDraft := [] }) (dropStep t jid (updateSites t jid st d))

/-- Bytes of a request's input on a plan: token IDs, or rows with their exponent plane where the skein's input type is FX16 (R110, R302). -/
def inputLen (plan : Plan) (r : Request) : Nat :=
  if !r.forward then 4 * r.inCount
  else if plan.inFx then fxTensorLen r.inCount plan.inRow
  else r.inCount * plan.inRow

/-! ### The output buffer (R281) -/

/-- A request's output range is on the host tier in part, where no work writes (R195, R202). -/
def outHeld (d : Device) (r : Request) : Bool :=
  match bufOf d r.tenant r.outHandle.toNat with
  | some (_, b) => hostHeld b r.outOff.toNat r.outLen
  | none => false

/-- Write into a request's output buffer. -/
def outWrite (r : Request) (off : Nat) (bs : List Byte) (d : Device) : Device :=
  match bufOf d r.tenant r.outHandle.toNat with
  | some (slot, b) =>
    if hostHeld b r.outOff.toNat r.outLen then d
    else touch r.tenant slot b (r.outOff.toNat + off) bs.length (bufWrite r.tenant slot b (r.outOff.toNat + off) bs d)
  | none => d

/-- Read from a request's output buffer. -/
def outRead (d : Device) (r : Request) (off n : Nat) : List Byte :=
  match bufOf d r.tenant r.outHandle.toNat with
  | some (_, b) => bufRead d b (r.outOff.toNat + off) n
  | none => zeros n

/-- Read a request's input. -/
def inRead (d : Device) (r : Request) (off n : Nat) : List Byte :=
  match bufOf d r.tenant r.inHandle.toNat with
  | some (_, b) => bufRead d b (r.inOff.toNat + off) n
  | none => zeros n

/-- A request enters a state, shown at offset 4 of its output buffer (R279, R281); a host-tier buffer shows it once it is back (R202). -/
def setReqState (ref : Ref) (st : Nat) (d : Device) : Device :=
  match reqOf d ref with
  | some r => outWrite r 4 (leBytes 4 st) (onReq ref (fun r => { r with state := st, behind := r.behind || outHeld d r }) d)
  | none => d

/-- The skipped-layer bitmap (R281). -/
def skippedMap (l : List Nat) : List Byte :=
  (List.range 128).map fun i => (List.range 8).foldl (fun b k => if l.contains (8 * i + k) then b ||| (1#8 <<< k) else b) 0

/-- The first 192 bytes of a request's output buffer (R281). -/
def outHead (r : Request) : List Byte :=
  leBytes 4 r.tokens ++ leBytes 4 r.state ++ leBytes 8 r.commitWall.toNat ++ skippedMap r.skipped ++ zeros 48

/-- Write the head of a request's output buffer, as soon as the buffer is in the device (R202, R281). -/
def writeHead (ref : Ref) (d : Device) : Device :=
  match reqOf d ref with
  | some r => onReq ref (fun x => { x with behind := outHeld d r }) (outWrite r 0 (outHead r) d)
  | none => d

/-! ### Audit records (R491, R492) -/

/-- The digest of a mounted skein; zeros for none. -/
def skeinDigest (d : Device) (s : Option Nat) : List Byte :=
  match s.bind (Assoc.find d.mem.skeins) with
  | some k => k.digest
  | none => zeros 32

/-- Bytes of an element of the output: a token ID, or a row (R281). -/
def outUnit (d : Device) (j : Job) (r : Request) : Nat := if r.forward then (planOf d j.main).outRow else 4

/-- The output digest (R491). -/
def outDigest (d : Device) (j : Job) (r : Request) : List Byte := digest32 (outRead d r 192 (r.tokens * outUnit d j r))

/-- The audit digest (R492). `hashA` holds E, H and the input digest as they stood at admission. -/
def auditDigest (d : Device) (j : Job) (r : Request) (payload : List Byte) (status : W16) : List Byte :=
  digest32 (ascii "LN-AUDIT" ++ serialBytes d ++ leBytes 2 d.boot.otp.part.toNat ++
    [BitVec.ofNat 8 (tilesOf j.tiles).length] ++ Config.cpDigest ++
    skeinDigest d (some j.main) ++ skeinDigest d j.adapter ++ skeinDigest d j.draft ++ [BitVec.ofNat 8 j.depth] ++
    slice r.hashA 0 32 ++ j.hashE ++ slice r.hashA 32 32 ++ payload ++ slice r.hashA 64 32 ++ leBytes 2 status.toNat ++
    skippedMap r.skipped ++ outDigest d j r)

/-- The audit record of an ending request (R491). -/
def auditRecord (d : Device) (j : Job) (ref : Ref) (r : Request) (payload : List Byte) (status : W16) : List Byte :=
  let seqId := if r.transient then 0xFFFF else r.seq
  let twin := j.twinned && decide (j.divStep = 0)
  leBytes 4 j.audits ++ leBytes 2 ref.tag.toNat ++ leBytes 2 status.toNat ++ leBytes 2 seqId ++
  [((if twin then 2 else 0) ||| (if status = stDegraded then 1 else 0) : Byte), 0] ++ leBytes 4 r.tokens ++ leBytes 8 (wallNow d) ++ zeros 8 ++
  auditDigest d j r payload status ++ outDigest d j r ++
  (if r.transient then zeros 32 else match seqOf d r.seq with | some s => s.hash | none => zeros 32)

/-- Write an audit record at its place in the audit buffer (R491). -/
def writeAudit (ref : Ref) (r : Request) (status : W16) (d : Device) : Device :=
  match jobOf d (BitVec.ofNat 8 r.tenant) r.job with
  | some j => match j.audit with
    | some a =>
      if !r.audited then d
      else
        let payload := match findPacket d ref with | some p => p.plain | none => []
        let rec_ := auditRecord d j ref r payload status
        let d := match bufOf d r.tenant a.handle.toNat with
          | some (slot, b) => bufWrite r.tenant slot b (a.off.toNat + 128 * (j.audits % a.cap)) rec_ d
          | none => d
        onJob (BitVec.ofNat 8 r.tenant) r.job (fun j => { j with audits := j.audits + 1 }) d
    | none => d
  | none => d

/-! ### The end of a request (R280, R282) -/

/-- The 64-byte result (R282). -/
def resultOf (d : Device) (r : Request) : List Byte :=
  let num := match jobOf d (BitVec.ofNat 8 r.tenant) r.job with | some j => j.num | none => {}
  leBytes 4 r.tokens ++ leBytes 2 (if r.transient then 0xFFFF else r.seq) ++
  [(if r.depth = 0 then 2 else 0) ||| (if r.late then 1 else 0), BitVec.ofNat 8 (min 255 r.skipped.length)] ++
  leBytes 4 (match seqOf d r.seq with | some s => s.committed | none => 0) ++ leBytes 4 r.steps ++
  leBytes 8 r.admitWall.toNat ++ leBytes 8 r.firstWall.toNat ++ leBytes 4 r.proposed ++ leBytes 4 r.accepted ++
  leBytes 4 num.rows.toNat ++ leBytes 4 num.elems.toNat ++ leBytes 4 num.sat.toNat ++ leBytes 4 num.inv.toNat ++
  leBytes 4 r.parks ++ zeros 4

/-- A job goes: its key is zeroised, and its stages elsewhere are released (R277, R389). -/
def deleteJob (t : Byte) (jid : W32) (d : Device) : Device :=
  match jobOf d t jid with
  | none => d
  | some j =>
    let d := (stageDevices d j).foldl (fun d dev => sendMsg
      { kind := 0, dest := dev, tenant := 0, job := 0, epoch := 0, body := .control (.release t jid []) } d) d
    let d := dropStep t jid d
    { d with serve.jobs := Assoc.erase d.serve.jobs (jobKey t jid) }

/-- A closing job's close completes when its last request has ended (R277). -/
def closeCheck (t : Byte) (jid : W32) (d : Device) : Device :=
  match jobOf d t jid with
  | none => d
  | some j =>
    if j.closing && (reqsOf d t jid).isEmpty then
      let d := deleteJob t jid d
      match j.closer.bind (findPacket d) with
      | some p => complete p d
      | none => d
    else d

/-- Count an end in the tenant's and the device's counters (R273, R302, R304). -/
def countEnd (t : Nat) (r : Request) (status : W16) (d : Device) : Device :=
  let d := onPool t (fun q => { q with
    kvEnds := if status = stKvExhausted then satAdd32 q.kvEnds 1 else q.kvEnds
    cancelled := if status = stCancelled then satAdd32 q.cancelled 1 else q.cancelled
    late := if r.late then satAdd32 q.late 1 else q.late
    reserved := q.reserved - r.reserve }) d
  if status = stCancelled then { d with serve.cancelCount := d.serve.cancelCount + 1 } else d

/-- A step all of whose rows have gone ends (R294). -/
def stepCheck (t : Byte) (jid : W32) (d : Device) : Device :=
  match (jobOf d t jid).bind (·.step) with
  | some st => if st.rows.all (·.gone) then endStep t jid d else d
  | none => d

/-- The ranges that the end of a request writes: its output buffer, and the audit buffer where it is audited (R281, R491). -/
def endRanges (d : Device) (r : Request) : List (Nat × Nat × Buffer × Nat × Nat) :=
  let out := match bufOf d r.tenant r.outHandle.toNat with
    | some (slot, b) => [(r.tenant, slot, b, r.outOff.toNat, r.outLen)]
    | none => []
  match (jobOf d (BitVec.ofNat 8 r.tenant) r.job).bind (·.audit) with
  | some a => if !r.audited then out else match bufOf d r.tenant a.handle.toNat with
    | some (slot, b) => out ++ [(r.tenant, slot, b, a.off.toNat, 128 * a.cap)]
    | none => out
  | none => out

/-- Those of some ranges that the host tier holds. -/
def heldOf (l : List (Nat × Nat × Buffer × Nat × Nat)) : List (Nat × Nat × Buffer × Nat × Nat) := l.filter fun x => hostHeld x.2.2.1 x.2.2.2.1 x.2.2.2.2

/-- The record of a request that ends (R280, R282, R295, R491). -/
def finishRequest (ref : Ref) (r : Request) (status : W16) (d : Device) : Device :=
  let t := BitVec.ofNat 8 r.tenant
  let d := setReqState ref 5 d
  let d := writeAudit ref r status d
  let res := resultOf d r
  let d := if r.transient then releasePair r.seq d else d
  let d := countEnd r.tenant r status d
  let d := { d with serve.reqs := d.serve.reqs.filter fun x => x.1 != ref }
  let d := match findPacket d ref with | some p => finish p status res d | none => d
  let d := r.waiters.foldl (fun d w => match findPacket d w.1 with
    | some p => if w.2 then complete p d else onPool r.tenant (fun q => { q with cancelDone := satAdd32 q.cancelDone 1 }) (refuse p stAlreadyDone d)
    | none => d) d
  closeCheck t r.job (stepCheck t r.job d)

/-- A request ends: its rows are marked, it leaves the park (R264), a transient sequence is released, the audit record is written, its record is queued, and
then the cancels that waited for it complete (R280, R282, R294, R295, R491). Buffers of the host tier hold its end (R202). -/
def endRequest (ref : Ref) (status : W16) (d : Device) : Device :=
  match reqOf d ref with
  | none => d
  | some r =>
    let t := BitVec.ofNat 8 r.tenant
    let d := onSeq r.seq (fun s => { s with parked := none }) (markRows t r.job ref d)
    let held := heldOf (endRanges d r)
    if held.isEmpty then finishRequest ref r status d
    else stepCheck t r.job (holdUnit (.request ref) r.tenant held (onReq ref (fun r => { r with ending := some status, awaited := [] }) d))

/-- An extent is back in the device: the ends of requests that it held go on, and heads of output buffers are brought up to date (R202). -/
def resumeRequests (d : Device) : Device :=
  d.serve.reqs.foldl (fun d x => match reqOf d x.1 with
    | none => d
    | some r => match r.ending with
      | some st => if r.awaited.isEmpty && (heldOf (endRanges d r)).isEmpty then endRequest x.1 st d else d
      | none => if r.behind && !outHeld d r then writeHead x.1 d else d) d

def execMemSettle (r : Ref) (s : State) : Out := run (fun d => resumeRequests (runOp (memSpec 0x0205 8 [(6, 2)]) r memSettle d)) s

/-- End every unended request of a job (R367, R498). -/
def endAll (t : Byte) (jid : W32) (status : W16) (d : Device) : Device :=
  (reqsOf d t jid).foldl (fun d x => endRequest x.1 status d) d

/-! ### Cancellation (R292 to R295, R364) -/

/-- A request is cancelled: rows marked, uncommitted positions rolled back; a pod request waits for its stage devices. -/
def cancelRequest (ref : Ref) (d : Device) : Device :=
  match reqOf d ref with
  | none => d
  | some r =>
    let t := BitVec.ofNat 8 r.tenant
    let d := rollbackPair r.seq (markRows t r.job ref d)
    let devs := match jobOf d t r.job with | some j => stageDevices d j | none => []
    let epoch := match jobOf d t r.job with | some j => j.epoch | none => 0
    if devs.isEmpty then endRequest ref stCancelled d
    else
      let rows := match (jobOf d t r.job).bind (·.step) with | some st => rowsAt ref st.rows 0 | none => []
      let d := devs.foldl (fun d dev => sendMsg
        { kind := 6, dest := dev, tenant := t, job := r.job, epoch := epoch, body := .withdraw (some ref.tag) rows } d) d
      stepCheck t r.job (onReq ref (fun r => { r with ending := some stCancelled, awaited := devs }) d)

/-- The request will reach its maximum tokens, or feed its last row, in the step it is in (R293); a parked request takes part in none
(R279). -/
def completionWins (d : Device) (ref : Ref) (r : Request) : Bool :=
  match (jobOf d (BitVec.ofNat 8 r.tenant) r.job).bind (·.step) with
  | none => false
  | some st => match st.rows.find? (fun x => x.ref == ref && !x.gone && st.parks.isEmpty) with
    | none => false
    | some x =>
      if r.forward then decide (r.fed + x.n ≥ r.inCount)
      else decide (r.tokens + 1 ≥ r.maxTok) && (!x.prefill || decide (r.fed + x.n ≥ r.inCount))

/-- Announce a cancel of a twin job's request to the partner (R496). -/
def twinCancel (ref : Ref) (r : Request) (d : Device) : Device :=
  match jobOf d (BitVec.ofNat 8 r.tenant) r.job with
  | some j => if j.twinned then
      sendMsg { kind := 0, dest := 0xFFE, tenant := 0, job := 0, epoch := 0, body := .twin (.cancel (BitVec.ofNat 8 r.tenant) ref.tag) } d
    else d
  | none => d

/-- The longest time from a cancel's submission to its request's last work unit leaving the tile queues (R304). -/
def noteLatency (p : Packet) (d : Device) : Device :=
  { d with serve.cancelLat := if d.clock - p.at_ > d.serve.cancelLat.toNat then BitVec.ofNat 32 (d.clock - p.at_) else d.serve.cancelLat }

/-- SERVE_CANCEL (R292, R293, R295). -/
def serveCancel (p : Packet) (b : List Byte) (d : Device) : Device :=
  let ref : Ref := { chan := p.chan, tag := word16 b 0 }
  match findPacket d ref with
  | some q =>
    if q.hdr.opcode ≠ 0x0402 ∨ q.hdr.tenant ≠ p.hdr.tenant then refuse p stReqUnknown d
    else match reqOf d ref with
      | none =>
        if q.started then refuse p stReqUnknown d
        else
          let d := { d with serve.cancelCount := d.serve.cancelCount + 1 }
          complete p (onPool p.hdr.tenant.toNat (fun q => { q with cancelled := satAdd32 q.cancelled 1 }) (refuse q stCancelled d))
      | some r =>
        let wait := fun (ok : Bool) (d : Device) => hold p (onReq ref (fun r => { r with waiters := r.waiters ++ [(refOf p, ok)] }) d)
        if completionWins d ref r || r.ending.isSome then wait (r.ending == some stCancelled) d
        else
          -- the request's record comes first: the cancel waits where the end is held (R295, R364)
          let d := noteLatency p (cancelRequest ref (twinCancel ref r d))
          if (reqOf d ref).isSome then wait true d else complete p d
  | none =>
    let (st, op, t) := tagState d ref.tag
    if p.chan = .host ∧ st ≥ 2 ∧ op = 0x0402 ∧ t = p.hdr.tenant then
      onPool t.toNat (fun q => { q with cancelDone := satAdd32 q.cancelDone 1 }) (refuse p stAlreadyDone d)
    else refuse p stReqUnknown d

def serveSpec (opcode size : Nat) (reserved : List (Nat × Nat) := []) : OpSpec :=
  { opcode := opcode, size := some size, part := true, reserved := reserved }

def execServeCancel (r : Ref) (s : State) : Out := run (fun d =>
  match findPacket d r with
  | some p => if p.held then d else runOp (serveSpec 0x0403 4 [(2, 2)]) r serveCancel d
  | none => d) s

/-! ### Opening and closing jobs (R274 to R277) -/

/-- A tenant may use a skein (R276). -/
def mayUse (d : Device) (t : Byte) (id : Nat) : Bool :=
  match Assoc.find d.mem.skeins id, partOf d t.toNat with
  | some s, some q => s.tenant == t ||
    (!q.sealed && (match partOf d s.tenant.toNat with | some q' => !q'.sealed | none => false) && s.shared.getLsbD (t.toNat - 1))
  | _, _ => false

/-- Tile-store bytes of a tile outside every quota: its job area (R372). -/
def jobArea (d : Device) (t : Nat) : Nat :=
  storeSize - (d.sec.parts.map fun p => if p.2.tileMask.getLsbD t then p.2.storeQuota * 0x1_0000 else 0).sum

/-- The job area of every tile of the mask has room for the working rows of the plans and the widest window (R275). -/
def jobFits (d : Device) (plans : List Plan) (tiles : List Nat) (budget : Nat) : Bool :=
  tiles.zipIdx.all fun (t, i) =>
    decide ((plans.map (·.rowBytes)).sum * budget + (plans.map (·.window.getD i 0)).foldl max 0 ≤ jobArea d t)

/-- A stream plan breaks R206 or R212: a layer of more than W / 2 bytes on a tile, or a skippable mark on a layer that writes the KV cache or
has no residual connection. SKEIN_MOUNT checks the same (R240), so no mounted skein does. -/
def planBreaks (p : Plan) : Bool :=
  (p.layers.any fun l => l.skippable && (l.writesKv || !l.residual)) ||
  (p.layers.any fun l => l.fetch.zipIdx.any fun (items, i) => decide ((items.map (·.take)).sum * 2 > p.window.getD i 0))

/-- The checks of R275 in order, and the load of R206 and R212: the status of the first that fails. -/
def jobOpenError (d : Device) (t : Byte) (jid : W32) (main : Nat) (adapter draft : Option Nat) (depth : Nat) (tiles : W32)
    (budget pmin : Nat) : Option W16 :=
  let plan := planOf d main
  if jid = 0 ∨ (jobOf d t jid).isSome then some stJobExists
  else if (d.serve.jobs.filter fun x => x.1 / 2 ^ 32 == t.toNat && x.2.manager.isNone).length ≥ 64 then some stJobLimit
  else if !((main :: adapter.toList ++ draft.toList).all (mayUse d t)) then some stBadArgument
  else if (match adapter.bind (Assoc.find d.mem.skeins) with
      | some a => !a.adapter || a.base != skeinDigest d (some main) || !a.plan.adapterLayers.all fun l => decide (l < plan.layers.length)
      | none => false) then some stBadArgument
  else if (match draft with | some _ => decide (depth = 0 ∨ depth > 8) | none => decide (depth ≠ 0)) then some stBadArgument
  else if !((tilesOf tiles).all fun k => (match partOf d t.toNat with | some q => q.tileMask.getLsbD k | none => false) &&
      !d.fix.mask.getLsbD k) || decide ((tilesOf tiles).length ≠ plan.tiles) then some stBadArgument
  else if budget % 64 ≠ 0 ∨ budget < 64 ∨ budget > 4096 ∨ pmin % 64 ≠ 0 ∨ pmin < 64 ∨ pmin > budget then some stBadArgument
  else if plan.layers.length > 1024 ∨ (main :: adapter.toList ++ draft.toList).any (fun k => planBreaks (planOf d k)) then some stBadArgument
  else if !jobFits d ((main :: adapter.toList ++ draft.toList).map (planOf d)) (tilesOf tiles) budget then some stAdmitMemory
  else none

/-- The site table of a new job: X_site and H from the calibration values, the quiet counters at 0 (R113). -/
def freshSites (p : Plan) : List Site := p.sites.map fun s => { s with quiet := 0 }

/-- SERVE_JOB_OPEN (R275, R285, R389, R490). -/
def serveJobOpen (p : Packet) (b : List Byte) (d : Device) : Device :=
  let t := p.hdr.tenant; let jid := p.hdr.job
  let opt := fun v => if v = 0xFFFF then none else some v
  let main := field b 0 2; let adapter := opt (field b 2 2); let draft := opt (field b 4 2)
  let depth := field b 6 1; let tiles := word32 b 8
  let budget := if field b 12 2 = 0 then d.serve.stepTokens.toNat else field b 12 2
  let pmin := if field b 14 2 = 0 then d.serve.prefillMin.toNat else field b 14 2
  match jobOpenError d t jid main adapter draft depth tiles budget pmin with
  | some st => refuse p st d
  | none =>
    let (key, d) := drawBytes 32 d
    let j : Job := { main := main, adapter := adapter, draft := draft, depth := depth, tiles := tiles, budget := budget,
                     prefillMin := pmin, sites := freshSites (planOf d main),
                     draftSites := match draft with | some k => freshSites (planOf d k) | none => [],
                     key := key, order := d.serve.nextOrder }
    let j := { j with hashE := digest32 (siteBytes j) }
    let d := { d with
      serve.jobs := Assoc.insert d.serve.jobs (jobKey t jid) j
      serve.nextOrder := d.serve.nextOrder + 1 }
    finish p stOK (leBytes 8 (cyclesNs (jobCycles d j)) ++ leBytes 2 (sumGroups (planOf d main)) ++
      leBytes 2 (planOf d main).layers.length ++ zeros 4) d

def execServeJobOpen (r : Ref) (s : State) : Out := run (runOp (serveSpec 0x0400 16 [(7, 1)]) r serveJobOpen) s

/-- SERVE_JOB_CLOSE (R277): with ABORT every request is cancelled by R293, so one whose completion wins runs on. -/
def serveJobClose (p : Packet) (b : List Byte) (d : Device) : Device :=
  let t := p.hdr.tenant; let jid := p.hdr.job
  match (jobOf d t jid).filter (fun j => j.manager.isNone) with
  | none => refuse p stJobUnknown d
  | some j =>
    if j.closing then refuse p stJobClosing d
    else
      let d := hold p (onJob t jid (fun j => { j with closing := true, closer := some (refOf p) }) d)
      let d := if bitOf (field b 0 4) 0 then
        (reqsOf d t jid).foldl (fun d x => if completionWins d x.1 x.2 || x.2.ending.isSome then d else cancelRequest x.1 d) d else d
      closeCheck t jid d

def execServeJobClose (r : Ref) (s : State) : Out := run (fun d =>
  match findPacket d r with
  | some p => if p.held then d
    else runOp { opcode := 0x0401, size := some 4, part := true, reserved := [(1, 3)], bits := [(0, 0xFE)] } r serveJobClose d
  | none => d) s

/-! ### Admission (R283 to R285) -/

/-- The limits on the attention metadata of a skein (R245). -/
def attnOk (p : Plan) : Bool :=
  decide (sumGroups p ≤ 256) && p.attn.all fun a =>
    decide (a.d % 32 = 0 ∧ 32 ≤ a.d ∧ a.d ≤ 256) && decide (a.width % a.d = 0 ∧ 32 ≤ a.width) &&
    decide (a.mode ≤ 2) && decide (a.width ≤ (if a.mode = 0 then 480 else if a.mode = 1 then 672 else 992))

/-- The fields of a SERVE_SUBMIT payload as a request (R302). -/
def requestOf (p : Packet) (b : List Byte) (d : Device) (depth : Nat) : Request :=
  let flags := byteAt b 1
  { tenant := p.hdr.tenant.toNat, job := p.hdr.job, forward := field b 0 1 == 1, flags := flags, seq := field b 2 2,
    transient := field b 0 1 == 1, inCount := field b 4 4, inHandle := word32 b 8, inOff := word32 b 12,
    outHandle := word32 b 16, outOff := word32 b 20, outLen := field b 24 4, maxTok := field b 28 4,
    parkMs := if field b 36 2 = 0 then 500 else field b 36 2, topK := field b 38 2, temp := word32 b 40,
    seed := BitVec.ofNat 64 (field b 44 8), knot := word16 b 52,
    stops := (List.range (field b 54 1)).map fun i => word32 b (56 + 4 * i),
    deadline := headerDeadline p, order := d.serve.nextOrder, admitWall := BitVec.ofNat 64 (wallNow d), depth := depth }

/-- Flags of R302. -/
def Request.newSeq (r : Request) : Bool := r.flags.getLsbD 0
def Request.abandonLate (r : Request) : Bool := r.flags.getLsbD 1
def Request.sample (r : Request) : Bool := r.flags.getLsbD 2 && !r.forward
def Request.noSpec (r : Request) : Bool := r.flags.getLsbD 3 || r.forward
def Request.knotted (r : Request) : Bool := r.flags.getLsbD 4
def Request.allowSkip (r : Request) : Bool := r.flags.getLsbD 5

/-- A range of an arena reference lies in its buffer: the status it fails with (R188, R189). -/
def rangeError (d : Device) (t : Nat) (h : W32) (off n : Nat) : Option W16 :=
  match bufOf d t h.toNat with
  | none => some stBadHandle
  | some (_, b) => if off ≥ b.size ∨ off + n > b.size then some stBadArgument else none

/-- The arguments of R302 meet their ranges, and the metadata of the job's skeins their limits (R245). -/
def argsOk (plan : Plan) (draft : Option Plan) (r : Request) (b : List Byte) : Bool :=
  let reserve := field b 32 4; let park := field b 36 2; let nStops := field b 54 1
  decide (field b 0 1 ≤ 1) && decide (1 ≤ r.inCount ∧ r.inCount ≤ lengthMax) &&
  (if r.forward then decide (r.maxTok = 0) else decide (1 ≤ r.maxTok ∧ r.maxTok ≤ lengthMax)) &&
  decide (reserve = 0 ∨ (r.inCount ≤ reserve ∧ reserve ≤ r.inCount + r.maxTok)) && decide (park ≤ 60000) &&
  (!r.sample || (decide (1 ≤ r.topK ∧ r.topK ≤ 256) &&
    (match fpDecode fp32 r.temp.toNat with | .fin false v => decide (v.m ≠ 0) | _ => false))) &&
  decide (nStops ≤ 4) && (slice b (56 + 4 * nStops) (16 - 4 * nStops)).all (· == 0) && attnOk plan && draft.all attnOk &&
  decide (r.outLen ≥ 192 + (if r.forward then r.inCount * plan.outRow else 4 * r.maxTok))

/-- The status of the first failing argument; the references are looked at once the ranges hold. -/
def argError (d : Device) (t : Byte) (plan : Plan) (draft : Option Plan) (r : Request) (b : List Byte) : Option W16 :=
  if !argsOk plan draft r b then some stBadArgument
  else match rangeError d t.toNat r.inHandle r.inOff.toNat (inputLen plan r) with
    | some st => some st
    | none => match rangeError d t.toNat r.outHandle r.outOff.toNat r.outLen with
      | some st => some st
      | none => if r.knotted && !ownsKnot d t r.knot.toNat then some stKnotNotOwned else none

/-- The length a request may reach stays within 131,072 (R302). -/
def lengthOk (committed : Nat) (r : Request) (depth : Nat) : Bool := decide (committed + r.inCount + r.maxTok + depth ≤ lengthMax)

/-- Pages that a sequence needs to grow from its committed length by `n` (R284). -/
def admitNeed (d : Device) (skein : Nat) (s : Option Seq) (n : Nat) : Nat :=
  let sum := sumGroups (planOf d skein)
  let c := match s with | some s => s.committed | none => 0
  let blocks := ceilDiv (c + n) 32 - ceilDiv c 32
  let have_ := match s with | some s => s.listPages.length | none => 0
  let shared := match s with | some s => (partialBlock d s).any fun e => decide (pageRefs d s.tenant e.1 > 1) | none => false
  let entries := match s with | some s => s.entries.length | none => 0
  blocks * sum + (if shared then sum else 0) + (ceilDiv (max entries (ceilDiv (c + n) 32 * sum)) listEntries - have_)

/-- Steps a request still needs (R285). -/
def stepsLeft (pmin : Nat) (r : Request) : Nat :=
  if r.forward then ceilDiv (r.inCount - r.fed) pmin
  else ceilDiv (r.inCount - r.fed) pmin + (r.maxTok - r.tokens) - 1

/-- Jobs that share a tile with a mask and have an unended request (R285). -/
def sharers (d : Device) (tiles : W32) : List (Nat × Job) :=
  d.serve.jobs.filter fun x => decide (x.2.tiles &&& tiles ≠ 0) &&
    d.serve.reqs.any fun y => y.2.tenant == x.1 / 2 ^ 32 % 16 && y.2.job.toNat == x.1 % 2 ^ 32

/-- The time test of R285 for one request: now + S × Π / f ≤ deadline. -/
def meetsTime (now cycles rate : Nat) (pmin : Nat) (r : Request) : Bool :=
  decide (r.deadline = noDeadline) ||
  decide (now * rate * 4 + stepsLeft pmin r * cycles * 5 * 64 ≤ r.deadline * rate * 4)

/-- The tests of R285 for a new request. -/
def admitsTime (d : Device) (t : Byte) (jid : W32) (j : Job) (r : Request) : Bool :=
  let gens := (reqsOf d t jid).filter fun x => !x.2.forward
  let rows := gens.length * (1 + j.depth) + if r.forward then 0 else 1 + j.depth
  let others := sharers d j.tiles
  let jobs := if others.any fun x => x.1 == jobKey t jid then others else others ++ [(jobKey t jid, j)]
  let cycles := (jobs.map fun x => jobCycles d x.2).sum
  let rate := match partOf d t.toNat with | some q => rateOf d (groupOf t.toNat q) | none => 64
  decide (rows ≤ j.budget - j.prefillMin) &&
  (decide (r.deadline = noDeadline) ||
    (meetsTime (wallNow d) cycles rate j.prefillMin r &&
     d.serve.reqs.all fun y => jobs.all fun x =>
       !(y.2.tenant == x.1 / 2 ^ 32 % 16 && y.2.job.toNat == x.1 % 2 ^ 32) ||
       meetsTime (wallNow d) cycles rate x.2.prefillMin y.2))

/-- Count a refused admission (R302, R304). -/
def countRefused (t : Nat) (st : W16) (d : Device) : Device :=
  let d := { d with serve.refuseCount := d.serve.refuseCount + 1 }
  onPool t (fun q => if st = stAdmitMemory then { q with refMem := satAdd32 q.refMem 1 } else { q with refTime := satAdd32 q.refTime 1 }) d

/-- Announce an admission of a twin job, and match it with the partner's (R496). -/
def twinAdmit (ref : Ref) (t : Byte) (jid : W32) (digest : List Byte) (d : Device) : Device :=
  let d := sendMsg { kind := 0, dest := 0xFFE, tenant := 0, job := 0, epoch := 0, body := .twin (.admission t jid ref.tag digest) } d
  match d.audit.notes.find? fun n => n.tenant == t && n.job == jid && n.tag == ref.tag with
  | none => onReq ref (fun r => { r with twinWait := true, twinDigest := digest }) d
  | some n =>
    let d := { d with audit.notes := d.audit.notes.filter (· != n) }
    if n.digest = digest then d else endRequest ref stTwinMismatch d

/-- Admit a request (R278, R281, R284, R299). -/
def admitRequest (p : Packet) (b : List Byte) (j : Job) (r : Request) (need : Nat) (d : Device) : Device :=
  let t := p.hdr.tenant; let ref := refOf p
  let attn := !(planOf d j.main).attn.isEmpty
  let fresh := if r.forward then attn else r.newSeq
  let hSeq := if fresh || r.forward then zeros 32 else match seqOf d r.seq with | some s => s.hash | none => zeros 32
  let (seq, d) :=
    if fresh then
      let (i, d) := newSeq t.toNat j.main false r.forward d
      match (if r.forward then none else j.draft) with
      | some k => let (c, d) := newSeq t.toNat k true false d
        (i, onSeq i (fun s => { s with companion := some c }) d)
      | none => (i, d)
    else if r.forward then (0xFFFF, d)
    else (r.seq, d)
  -- a companion of another draft skein is released, and the request runs at depth 0 (R299)
  let comp := (seqOf d seq).bind (·.companion)
  let stale := match comp.bind (seqOf d) with | some c => some c.skein != j.draft | none => false
  let d := if stale then match comp with
    | some c => onSeq seq (fun s => { s with companion := none }) (releaseSeq c d)
    | none => d else d
  let depth := if r.noSpec || ((seqOf d seq).bind (·.companion)).isNone then 0 else j.depth
  let input := inRead d r 0 (inputLen (planOf d j.main) r)
  let r := { r with seq := seq, depth := depth, reserve := need, audited := j.audit.isSome,
                    hashA := j.hashE ++ hSeq ++ digest32 input }
  let d := { d with serve.reqs := d.serve.reqs ++ [(ref, r)], serve.nextOrder := d.serve.nextOrder + 1 }
  let d := onPool t.toNat (fun q => { q with reserved := q.reserved + need, admitted := satAdd32 q.admitted 1 }) d
  let d := writeHead ref d
  if j.twinned then twinAdmit ref t p.hdr.job (digest32 (b ++ input)) d else d

/-- SERVE_SUBMIT (R283). -/
def serveSubmit (p : Packet) (b : List Byte) (d : Device) : Device :=
  let t := p.hdr.tenant; let jid := p.hdr.job
  if d.pwr.stage ≥ 2 ∨ d.pwr.coolant = 2 then refuse p stShed d
  else match (jobOf d t jid).filter (fun j => j.manager.isNone) with
    | none => refuse p stJobUnknown d
    | some j =>
      if j.closing then refuse p stJobClosing d
      else if j.place == .broken then refuse p stPlaceUnreachable d
      else
        let plan := planOf d j.main
        let r := requestOf p b d j.depth
        match argError d t plan (j.draft.map (planOf d)) r b with
        | some st => refuse p st d
        | none => match (bufOf d t.toNat r.inHandle.toNat).filter fun x =>
            (j.twinned || j.audit.isSome) && hostHeld x.2 r.inOff.toNat (inputLen plan r) with
        -- the input digest of an audited or twin request reads the input at admission (R489, R496)
        | some (slot, buf) => holdOnHost p t.toNat slot buf r.inOff.toNat (inputLen plan r) d
        | none => match (bufOf d t.toNat r.inHandle.toNat).bind fun x => bufBad d x.2 r.inOff.toNat (inputLen plan r) with
        | some k => failBlock p k d
        | none =>
          let named := !r.forward && !r.newSeq
          -- a sequence that the device itself is about to release is removed for the host (R263)
          let s := if named && !d.serve.edits.any (fun e => e.ref.isNone && e.edit == .release r.seq) then
            (seqOf d r.seq).filter fun s => s.tenant == t.toNat && !s.draft && !s.transient else none
          let depth := if r.forward then 0 else j.depth
          if !lengthOk (match s with | some s => s.committed | none => 0) r depth then refuse p stBadArgument d
          else if named ∧ s.isNone then refuse p stSeqUnknown d
          else if named ∧ s.any (fun s => s.skein != j.main) then refuse p stBadArgument d
          else if named ∧ d.serve.reqs.any (fun x => !x.2.transient && x.2.seq == r.seq && x.2.tenant == t.toNat) then refuse p stSeqBusy d
          else
            let attn := !plan.attn.isEmpty
            let new := if named ∨ (r.forward ∧ !attn) then 0 else if !r.forward ∧ j.draft.isSome then 2 else 1
            if !seqRoom d t.toNat new then refuse p stSeqLimit d
            else
              let n := if field b 32 4 = 0 then r.inCount + r.maxTok else field b 32 4
              let comp := s.bind (·.companion)
              let need := admitNeed d j.main s n +
                (match (if r.forward ∨ (named ∧ !(comp.bind (seqOf d)).any fun c => some c.skein == j.draft) then none else j.draft) with
                 | some k => admitNeed d k (comp.bind (seqOf d)) (n + depth)
                 | none => 0)
              let q := poolOf d t.toNat
              if freePages q < q.reserved + need then refuse p stAdmitMemory (countRefused t.toNat stAdmitMemory d)
              else if !admitsTime d t jid j r then refuse p stAdmitTime (countRefused t.toNat stAdmitTime d)
              else admitRequest p b j r need d

def submitSpec : OpSpec := { opcode := 0x0402, size := some 80, part := true, reserved := [(55, 1), (72, 8)], bits := [(1, 0xC0)] }

def execServeSubmit (r : Ref) (s : State) : Out := run (runOp submitSpec r serveSubmit) s

/-! ### Sequence opcodes and host edits (R257 to R259, R299, R300) -/

/-- Stage a host edit, or apply it at once when no job that holds the skein is running a step (R300). -/
def stageEdit (p : Packet) (skein : Nat) (e : HostEdit) (d : Device) : Device :=
  let x : StagedEdit := { ref := some (refOf p), tenant := p.hdr.tenant.toNat, skein := skein, edit := e }
  if skeinRuns d p.hdr.tenant.toNat skein then hold p { d with serve.edits := d.serve.edits ++ [x] } else applyEdit x d

/-- A sequence that a host may name (R296). -/
def hostSeq (d : Device) (t : Byte) (i : Nat) : Option Seq :=
  (seqOf d i).filter fun s => s.tenant == t.toNat && !s.draft && !s.transient

/-- SEQ_FORK (R300): p and the quota are judged at the moment of application. -/
def seqFork (p : Packet) (b : List Byte) (d : Device) : Device :=
  let i := field b 0 2
  match hostSeq d p.hdr.tenant i with
  | none => refuse p stSeqUnknown d
  | some s => stageEdit p s.skein (.fork i (field b 4 4)) d

/-- A sequence opcode leaves a packet that waits alone until its edit is applied. -/
def runEdit (sp : OpSpec) (r : Ref) (body : Packet → List Byte → Device → Device) (d : Device) : Device :=
  match findPacket d r with
  | some p => if p.held then d else runOp sp r body d
  | none => d

def execSeqFork (r : Ref) (s : State) : Out := run (runEdit (serveSpec 0x0404 8 [(2, 2)]) r seqFork) s

/-- SEQ_TRUNCATE (R300). -/
def seqTruncate (p : Packet) (b : List Byte) (d : Device) : Device :=
  let i := field b 0 2
  match hostSeq d p.hdr.tenant i with
  | none => refuse p stSeqUnknown d
  | some s =>
    if field b 4 4 > s.committed then refuse p stBadArgument d
    else if seqBusy d i then refuse p stSeqBusy d
    else stageEdit p s.skein (.truncate i (field b 4 4)) d

def execSeqTruncate (r : Ref) (s : State) : Out := run (runEdit (serveSpec 0x0405 8 [(2, 2)]) r seqTruncate) s

/-- SEQ_RELEASE (R300). -/
def seqRelease (p : Packet) (b : List Byte) (d : Device) : Device :=
  let i := field b 0 2
  match hostSeq d p.hdr.tenant i with
  | none => refuse p stSeqUnknown d
  | some s => if seqBusy d i then refuse p stSeqBusy d else stageEdit p s.skein (.release i) d

def execSeqRelease (r : Ref) (s : State) : Out := run (runEdit (serveSpec 0x0406 4 [(2, 2)]) r seqRelease) s

/-! ### Queries and shares -/

/-- The pool record (R273). -/
def poolRecord (d : Device) (t : Nat) : List Byte :=
  let q := poolOf d t
  let mine := d.serve.seqs.filter fun s => s.2.tenant == t
  leBytes 4 q.count ++ leBytes 4 (freePages q) ++
  leBytes 4 (q.pages.filter fun p => !p.2.list && decide (p.2.refs > 0)).length ++
  leBytes 4 (q.pages.filter fun p => p.2.list).length ++
  leBytes 4 (q.pages.filter fun p => decide (p.2.refs = 0)).length ++
  leBytes 2 mine.length ++ leBytes 2 (mine.filter fun s => s.2.parked.isSome).length ++
  leBytes 4 q.parks.toNat ++ leBytes 4 q.kvEnds.toNat ++ leBytes 4 q.copies.toNat ++ leBytes 4 q.scrubbed.toNat ++
  leBytes 4 q.longest.toNat ++ zeros 20

/-- SERVE_QUERY (R302). -/
def serveQuery (p : Packet) (_ : List Byte) (d : Device) : Device :=
  let t := p.hdr.tenant.toNat; let q := poolOf d t
  finish p stOK (poolRecord d t ++
    leBytes 2 (d.serve.jobs.filter fun x => x.1 / 2 ^ 32 == t && x.2.manager.isNone).length ++
    leBytes 2 (d.serve.reqs.filter fun x => x.2.tenant == t).length ++
    leBytes 4 q.admitted.toNat ++ leBytes 4 q.refMem.toNat ++ leBytes 4 q.refTime.toNat ++ leBytes 4 q.cancelled.toNat ++
    leBytes 4 q.cancelDone.toNat ++ leBytes 4 q.late.toNat ++ leBytes 4 q.steps.toNat ++ leBytes 4 q.reserved ++ zeros 28) d

def execServeQuery (r : Ref) (s : State) : Out := run (runOp (serveSpec 0x0407 0) r serveQuery) s

/-- SERVE_BASE_SHARE (R276). -/
def serveBaseShare (p : Packet) (b : List Byte) (d : Device) : Device :=
  let t := p.hdr.tenant; let id := field b 0 2; let mask := byteAt b 2
  let isShared := fun n => match partOf d n with | some q => !q.sealed | none => false
  match Assoc.find d.mem.skeins id with
  | none => refuse p stBadArgument d
  | some s =>
    if s.tenant ≠ t ∨ s.adapter ∨ !isShared t.toNat ∨
        (List.range 8).any (fun n => mask.getLsbD n && !isShared (n + 1)) then refuse p stBadArgument d
    else complete p { d with mem.skeins := Assoc.adjust d.mem.skeins id fun s => { s with shared := mask } }

def execServeBaseShare (r : Ref) (s : State) : Out := run (runOp (serveSpec 0x0408 4 [(3, 1)]) r serveBaseShare) s

end Sys2Proof.Machine
end

