-- ==== Sys2Proof/Machine/Plan.lean ====
section
/-! DEFINITION. The bus plan of a Fixed-plane program while it runs (10_fixed_plane_gauge R308, R310, R315): the moves of a tile's bus and the
drains of its passes, cycle by cycle. -/

namespace Sys2Proof.Machine

/-- Reserved tiles in order of ordinal. -/
def fixTiles (d : Device) : List Nat := maskList 32 d.fix.mask.toNat

/-- The bus moves of an image (R308). -/
def imgMoves (img : List Byte) : List BusMove :=
  (List.range (field img 10 2)).map fun k =>
    let e := 512 + 16 * k
    { start := field img e 4, out := bitOf (field img (e + 4) 1) 0, tile := field img (e + 5) 1, blocks := field img (e + 6) 2,
      win := field img (e + 8) 4, store := field img (e + 12) 4 }

/-- The length of a step of a pass in ACLK, D′ (R126). -/
def stepLength (p : PassDesc) (fmt : Nat) : Nat :=
  max (if fmt = 0x04 then 1 else if fmt = 0x10 then 4 else 2)
    (if p.raw_ then 4 else if p.drainType = 0x11 then 2 else 1)

/-- The cycle after a row of a pass in flight has drained: token row t drains in step t + 128 (R127). -/
def rowDone (f : FlightPass) (x : PendingRow) : Nat := f.start + stepLength (passDesc f.raw) (f.formats.headD 0x04) * (x.row + 129)

/-- The rows of a tile that drain before a cycle drain. -/
def drainTo (t c : Nat) (d : Device) : Device :=
  (tileOf d t).flight.foldl (fun d f => drainRows t f (f.rows.filter fun x => decide (rowDone f x ≤ c)) d)
    (onTile t (fun ts => { ts with flight := ts.flight.map fun f => { f with rows := f.rows.filter fun x => decide (rowDone f x > c) } }) d)

/-- The pending move of a tile's bus that starts first. -/
def nextMove (ms : List BusMove) (i : Nat) : Option BusMove :=
  (ms.filter fun m => m.tile == i).foldl (fun b m => match b with
    | some x => if m.start < x.start then some m else b
    | none => some m) none

/-- What a move still carries after its first block. -/
def BusMove.rest (m : BusMove) : List BusMove :=
  if m.blocks ≤ 1 then [] else [{ m with start := m.start + 1, blocks := m.blocks - 1, win := m.win + 64, store := m.store + 64 }]

/-- Blocks for the answer, in the order of their cycles. -/
def putBlock (x : Nat × Nat × List Byte) : List (Nat × Nat × List Byte) → List (Nat × Nat × List Byte)
  | [] => [x]
  | y :: rest => if y.1 ≤ x.1 then y :: putBlock x rest else x :: y :: rest

/-- One block of 64 bytes between the frame or the answer and the store of a tile. -/
def carryBlock (t : Nat) (m : BusMove) (d : Device) : Device :=
  match d.fix.plan with
  | none => d
  | some r =>
    let d := { d with fix.plan := some { r with
      moves := r.moves.filter (· != m) ++ m.rest
      outs := if m.out then putBlock (m.start, m.win, storeBytes d t m.store 64) r.outs else r.outs } }
    if m.out then d else storeWrite t m.store (padTo 64 (slice r.frame m.win 64)) d

/-- The bus plan and the drains of a tile, up to a cycle of its count; the moves of one tile follow each other by their starts, as no two of
them overlap. -/
def planTo (i t c : Nat) : Nat → Device → Device
  | 0, d => drainTo t c d
  | fuel + 1, d => match d.fix.plan.bind fun r => nextMove r.moves i with
    | none => drainTo t c d
    | some m =>
      let x := (tileOf d t).planAt + m.start
      if x < c then planTo i t c fuel (carryBlock t m (drainTo t x d)) else drainTo t c d

/-- A reserved tile as it stands at a cycle of its count. -/
def runPlan (t c : Nat) (d : Device) : Device :=
  match (fixTiles d).findIdx? (· == t) with
  | none => d
  | some i => planTo i t c ((d.fix.plan.map fun r => (r.moves.map (·.blocks)).sum).getD 0) d

/-- The cycle, on the tile's count, after a move's last block. -/
def BusMove.stop (m : BusMove) : Nat := m.start + m.blocks

/-- Every move to its last block. -/
def finishPlan (d : Device) : Device :=
  let last := ((d.fix.plan.map fun r => r.moves.map BusMove.stop).getD []).foldl max 0
  (fixTiles d).foldl (fun d t => runPlan t ((tileOf d t).planAt + last) d) d

/-- The budget that a run has taken (R310): the cycles up to the last in which a list or a move was in progress. -/
def planCount (img : List Byte) (d : Device) : Nat :=
  let lists := (fixTiles d).map fun t => let ts := tileOf d t; max (max 1 (ts.busyTo - ts.planAt)) (ts.vecAt + 1 - ts.planAt)
  (lists ++ (imgMoves img).map BusMove.stop).foldl max 0

end Sys2Proof.Machine
end

