-- ==== Sys2Proof/Machine/Passes.lean ====
section
/-! DEFINITION. The pass sequencer and its arrays (04_matrix_arrays R124 to R153): validation, issue, completion, the end and the
failure of a list, and the events of the ARRAY domains (R466). -/

namespace Sys2Proof.Machine

/-! ### Validation (R105, R149) -/

/-- What validation looks at in an array: the weights it holds, its carry bank, its west-edge history. -/
structure PassEnv where
  loaded : Option TileHdr := none
  /-- Accumulation ID, T and arrays of the carry bank (R134). -/
  carry  : Option (W16 × Nat × BitVec 4) := none
  hist   : Option Nat := none
deriving DecidableEq, Repr

def envOf (s : ArrayState) : PassEnv :=
  { loaded := s.loaded, carry := s.carry.map fun c => (c.accId, c.rows.length, c.arrays), hist := s.history.map (·.1) }

/-- A failed check: its cause, the descriptor field, and the tile-store offset of the field when it lies in a tile header. -/
structure PassFault where
  cause : Nat
  field : Nat
  hdr   : Option Nat := none
deriving DecidableEq, Repr

/-- The first check of a list that fails. -/
def firstBad : List (Bool × Nat) → Option Nat
  | [] => none
  | (bad, off) :: rest => if bad then some off else firstBad rest

/-- The first header field of an array-ready tile that R105 rejects. -/
def hdrFault (b : List Byte) : Option Nat :=
  let fmt := field b 0 1; let g := field b 1 1
  firstBad [((weightTileSize fmt).isNone, 0), (decide (g > 3 ∨ (g = 3 ∧ fmt ≠ 0x10) ∨ (g ≠ 3 ∧ fmt = 0x10)), 1),
    (decide (field b 2 1 / 4 ≠ 0), 2), (decide (byteAt b 3 ≠ 0), 3), (decide (field b 4 2 = 0 ∨ field b 4 2 > 64), 4),
    (decide (field b 6 2 = 0 ∨ field b 6 2 > 64), 6), (!(slice b 20 44).all (· == 0), 20)]

/-- Offset of the first non-zero byte of a range. -/
def nonZeroAt (b : List Byte) (off n : Nat) : List (Bool × Nat) := (List.range n).map fun i => (byteAt b (off + i) != 0, off + i)

/-- Cause 1: reserved values, fields and bits (R147, R148, R149). -/
def passReserved (p : PassDesc) : Option Nat :=
  if p.kind = kEnd then firstBad (nonZeroAt p.raw 1 127)
  else firstBad (
    [(decide (p.kind ≠ 1 ∧ p.kind ≠ 2 ∧ p.kind ≠ 3), 0), (decide (field p.raw 1 1 / 32 ≠ 0), 1),
     (decide (p.actType ≠ 0x12 ∧ p.actType ≠ 0x10), 2),
     (!p.raw_ && decide (p.drainType ≠ 0x12 ∧ p.drainType ≠ 0x10 ∧ p.drainType ≠ 0x11), 3),
     (decide (p.flags / 32 ≠ 0 ∨ p.flags % 2 ≠ 0), 6), (decide (field p.raw 7 1 / 8 ≠ 0) || (rndOf p.rnd).isNone, 7),
     (decide (p.kind ≠ 2 ∧ p.c ≠ 0), 10), (decide (byteAt p.raw 11 ≠ 0), 11)] ++
    p.streams.map (fun s => let v := p.act.getD s 0; (isReg v && decide (v % 2 ^ 31 / 16 ≠ 0), 32 + 4 * s)) ++
    p.arrays.map (fun a => let v := p.out.getD a 0; (isReg v && decide (v % 2 ^ 31 / 16 ≠ 0), 72 + 4 * a)) ++
    [(decide (p.knot / 2 ^ 16 % 2 ^ 15 ≠ 0), 104)] ++ nonZeroAt p.raw 108 20)

/-- The header that an array works with in a pass: what it holds under HOLD_W, else the tile named. -/
def passHdr (rd : Nat → Nat → List Byte) (env : Nat → PassEnv) (p : PassDesc) (a : Nat) : Option TileHdr :=
  if p.holdW then (env a).loaded else tileHdrOf (rd (p.weightAt a) 64)

/-- Bytes that a stream's token rows read from an offset (R142, R147). -/
def actSpan (p : PassDesc) (base : Nat) : Nat :=
  if p.kind = 2 then max (base + if p.prime then 128 else 2 * p.c) (base + (p.rows - 1) * p.actStride + 2 * p.c)
  else base + (p.rows - 1) * p.actStride + 128

/-- Causes 2 to 9 in order (R149). DESIGN CHOICE: cause 4 judges out stride, output ranges and output registers of the arrays that drain, and
the act stride of streams that are read from the tile store; the other fields are not used by the pass. -/
def passChecks (rd : Nat → Nat → List Byte) (origin : Origin) (env : Nat → PassEnv) (p : PassDesc) : Option PassFault :=
  let hdr := passHdr rd env p
  let drains := fun a => match hdr a with | some h => h.lastK | none => false
  let reg := p.streams.any (fun s => isReg (p.act.getD s 0)) || p.arrays.any fun a => drains a && isReg (p.out.getD a 0)
  let row := 64 * p.elem
  let fxAct := decide (p.actType = 0x12)
  let c2 := [((p.twin && !(origin == .fixed || (origin == .engine && decide (p.kind = 3)))), 1),
    (decide (p.kind = 3) && origin != .engine, 0)]
  let c3 := [(decide (p.rows = 0 ∨ p.rows > 256) || (reg && decide (p.rows > 64)), 4), (p.arrays.isEmpty, 1)]
  let c4 := p.streams.flatMap (fun s => let v := p.act.getD s 0
      if isReg v then [] else
        [(decide (p.actStride % 2 ≠ 0 ∨ p.actStride < 128), 64), (decide (actSpan p v > storeSize), 32 + 4 * s),
         (fxAct && decide (p.actExp.getD s 0 + p.rows > storeSize), 48 + 4 * s)]) ++
    (if p.holdW then [] else p.arrays.map fun a =>
      (decide (p.weightAt a + (weightTileSize (field (rd (p.weightAt a) 1) 0 1)).getD 64 > storeSize), 16 + if p.twin then 0 else 4 * a)) ++
    p.arrays.flatMap fun a => let v := p.out.getD a 0
      if !drains a then [] else if isReg v then [(decide (v % 16 % (p.elem / 2) ≠ 0), 72 + 4 * a)]
      else [(decide (p.outStride % 2 ≠ 0 ∨ p.outStride < row), 68), (decide (v + (p.rows - 1) * p.outStride + row > storeSize), 72 + 4 * a),
        (p.fx && decide (p.outExp.getD a 0 + p.rows > storeSize), 88 + 4 * a)]
  let c5 := if p.holdW then none else p.arrays.findSome? fun a =>
    (hdrFault (rd (p.weightAt a) 64)).map fun o => (16 + (if p.twin then 0 else 4 * a), p.weightAt a + o)
  let formats := p.arrays.map fun a => match hdr a with | some h => h.format | none => 0
  let c6 := [(p.holdW && p.arrays.any fun a => ((env a).loaded).isNone, 6),
    (decide (p.actType = 0x10) && formats.any (· != 0x10), 2), (decide (formats.eraseDups.length > 1), 16)]
  let c7 := [(p.accIn && p.arrays.any fun a => (env a).carry != some (p.accId, p.rows, BitVec.ofNat 4 p.mask), 14)]
  let c8 := [(p.fx && p.arrays.any drains && decide (p.site > 4095), 12)]
  let c9 := if p.kind ≠ 2 then [] else
    [(!([1, 2, 4, 8, 16, 32].contains p.c), 10),
     (!p.prime && p.arrays.any fun a => (env a).hist != some p.c, 6)]
  let fault := fun cause bad => (firstBad bad).map fun o => ({ cause := cause, field := o } : PassFault)
  (fault 2 c2).orElse fun _ => (fault 3 c3).orElse fun _ => (fault 4 c4).orElse fun _ =>
    (c5.map fun x => ({ cause := 5, field := x.1, hdr := some x.2 } : PassFault)).orElse fun _ =>
    (fault 6 c6).orElse fun _ => (fault 7 c7).orElse fun _ => (fault 8 c8).orElse fun _ => fault 9 c9

/-- Validate a descriptor (R149). -/
def passFault (rd : Nat → Nat → List Byte) (origin : Origin) (env : Nat → PassEnv) (p : PassDesc) : Option PassFault :=
  match passReserved p with
  | some o => some { cause := 1, field := o }
  | none => if p.kind = kEnd then none else passChecks rd origin env p

/-- What validation of the next descriptor sees after a pass. -/
def envAfter (rd : Nat → Nat → List Byte) (p : PassDesc) (env : Nat → PassEnv) (a : Nat) : PassEnv :=
  if !bitOf p.mask a then env a
  else
    let h := passHdr rd env p a
    { loaded := h
      carry := if h.any (·.lastK) then (env a).carry else some (p.accId, p.rows, BitVec.ofNat 4 p.mask)
      hist := if p.kind = 2 then some p.c else none }

/-! ### Operands of a pass -/

/-- X_site of a site of the loaded Fixed-plane image (R307, R309). -/
def fixSite (d : Device) (site : Nat) : Int :=
  match d.fix.image with
  | some img => signedOf 8 (field img (512 + 16 * field img 10 2 + site) 1)
  | none => 0

/-- The snapshot of X_site that a list's drains use (R114, R117). DESIGN CHOICE: a site number beyond the job's table drains at exponent 0. -/
def siteExp (d : Device) (l : QList) (site : Nat) : Int :=
  if l.origin == .fixed then fixSite d site
  else match (jobOf d l.tenant l.job).bind (·.step) with
    | some st => (if l.draft then st.snapDraft else st.snapMain).getD site 0
    | none => 0

/-- A row of a tile register: 64 elements (R157). -/
def regRow (ts : TileState) (r t : Nat) : List W16 := let l := SMap.get [] ts.tregs (r * 64 + t); l ++ List.replicate (64 - l.length) 0

/-- A source row of a stream (R147). -/
def streamRow (d : Device) (t : Nat) (p : PassDesc) (s i : Nat) : List W16 :=
  let v := p.act.getD s 0
  if isReg v then regRow (tileOf d t) (v % 16) i else elems16 (storeBytes d t (v + i * p.actStride) 128)

/-- Row exponent of a source row: the stored one for FX16, AX for BF16 (R130). -/
def streamExp (d : Device) (t : Nat) (p : PassDesc) (s i : Nat) : Int :=
  let v := p.act.getD s 0
  if p.actType = 0x10 then p.ax
  else if isReg v then signedOf 8 (SMap.get 0 (tileOf d t).texp (v % 16 * 64 + i)).toNat
  else signedOf 8 (storeField d t (p.actExp.getD s 0 + i) 1)

/-- What a pass computes on one array: the rows that leave the south edge, their XR, and whether XMIS is set (R131 to R135). -/
structure ArrayPass where
  rows  : List (Int × List ColSum)
  xmis  : Bool
  lastRow : List W16
  lastX : Int
  /-- The pairs that entered at the north with the last token row. -/
  lastIn : List (Int × Int)

/-- Run a pass through one array. DESIGN CHOICE: where a BF16 pass with ACC_IN has another AX than the carried XR (R135), its cells align by
its own AX while its rows drain under the carried XR. -/
def arrayPass (p : PassDesc) (h : TileHdr) (s : ArrayState) (src : List (List W16)) (exps : List Int) : ArrayPass :=
  let prev := match s.history with | some (_, r) => r | none => []
  let rows := if p.kind = 2 then convRows p.c p.prime prev src else src
  let carried := if p.accIn then (match s.carry with | some c => c.rows | none => []) else []
  let ax := if p.actType = 0x10 then some p.ax else none
  let one := fun (i : Nat) (row : List W16) =>
    let own := exps.getD i 0
    let c := carried[i]?
    let xr := match c with | some c => c.xr | none => if p.kind = 2 then exps.getD 0 0 else own
    let start := fun n => match c with | some c => c.cols.getD n (0, 0) | none => (0, 0)
    let sums := (List.range 64).map fun n =>
      columnSum h p.ea ax n (s.cw.getD n []) (s.cs.getD n (0, 0)) row (start n)
    (xr, sums, decide (p.actType = 0x12) && decide (own ≠ xr))
  let out := rows.zipIdx.map fun (r, i) => one i r
  { rows := out.map fun o => (o.1, o.2.1), xmis := out.any (·.2.2), lastRow := rows.getLastD [], lastX := (out.map (·.1)).getLastD 0
    lastIn := (List.range 64).map fun n => match carried[p.rows - 1]? with | some c => c.cols.getD n (0, 0) | none => (0, 0) }

/-! ### Timing of issue (R126, R127, R141) -/

/-- The earliest issue cycle after the last pass on an array (R141). -/
def issueAfter (p : PassDesc) (dp : Nat) (l : LastPass) : Nat :=
  max (l.s + l.dp * l.t) (max (if p.holdW then 0 else l.s + 63 * l.dp + 2)
    (max (if p.accIn && l.carry && l.accId == p.accId then l.s + 64 * l.dp + 1 else 0)
      (if l.dp ≠ dp then l.s + l.dp * (l.t + 127) else 0)))

/-- Cycles of 800 MHz in 2 µs: an ARRAY domain's power-up (R466). -/
abbrev powerUpCycles : Nat := 1600

/-! ### Outputs of a pass -/

/-- Output ranges of a pass in the tile store (R150). -/
def passOuts (p : PassDesc) (drains : Nat → Bool) : List (Nat × Nat) :=
  p.arrays.flatMap fun a =>
    let v := p.out.getD a 0
    if !drains a || isReg v then []
    else [(v, (p.rows - 1) * p.outStride + 64 * p.elem)] ++ if p.fx then [(p.outExp.getD a 0, p.rows)] else []

/-- Activation ranges of a pass in the tile store. -/
def passIns (p : PassDesc) : List (Nat × Nat) :=
  p.streams.flatMap fun s =>
    let v := p.act.getD s 0
    if isReg v then [] else [(v, actSpan p v - v)] ++ if p.actType = 0x12 then [(p.actExp.getD s 0, p.rows)] else []

/-- The next pass begins from an idle tile: none in flight, and it is the first of its list to issue. -/
def fromIdle (ts : TileState) : Bool :=
  ts.flight.isEmpty && (ts.drained.isEmpty || (match ts.passes with | l :: _ => decide (l.index = 0) | [] => true))

/-- The passes still running at a cycle, as their schedules see them: descriptor, formats, and cycles since issue (R150, R153). -/
def runningAt (ts : TileState) (s : Nat) : List (List Byte × List Nat × Nat) :=
  ((ts.drained ++ ts.flight).filter fun f => decide (s < f.done)).map fun f => (f.raw, f.formats, s - f.start)

/-- Issue cycle, no earlier than a given one, and the cycles it was held by R141 and R150. -/
def issueCycle (ts : TileState) (p : PassDesc) (formats : List Nat) (dp after : Nat) : Nat × Nat :=
  let lasts := p.arrays.filterMap fun a => (arrayOf ts a).last
  if fromIdle ts then (max ts.busyTo after, 0)
  else
    let newest := (((List.range 4).filterMap fun a => (arrayOf ts a).last).map (·.s)).foldl max after
    let free := max newest ((lasts.map fun l => l.s + l.dp * l.t).foldl max 0)
    let s := max newest ((lasts.map (issueAfter p dp)).foldl max 0)
    let hazards := (ts.drained ++ ts.flight).filter fun x => x.outs.any fun o => (passIns p).any fun r => rangesMeet r.1 r.2 o.1 o.2
    let s := (hazards.map (·.done)).foldl max s
    let s := s + dp * Config.bankDelay (runningAt ts s) p.raw formats
    (s, s - free)

/-- The scales that an array drains under: the pending set goes live first (R137). -/
def goLive (s : ArrayState) : ArrayState :=
  match s.pending with
  | some c => { s with scales := c, pending := none }
  | none => s

/-- What one array leaves at one token row: the row that drains (R136), or the carry write (R134). -/
def pendingRow (d : Device) (l : QList) (p : PassDesc) (h : TileHdr) (scales : List W16) (a i : Nat) (row : Int × List ColSum) : PendingRow :=
  let sums := row.2.take h.validN
  let ev : NumEv := { sat := (sums.map (·.sat)).sum, inv := (sums.map (·.inv)).sum }
  if h.lastK then
    let xs := siteExp d l p.site
    let r := drainRow p.raw_ p.drainType ((rndOf p.rnd).getD .rne) scales (p.ea + row.1 - 17) xs h.validN (row.2.map (·.a))
    { array := a, row := i, carry := false, elems := r.elems, xsite := xs, ev := r.ev.add ev, obs := if p.fx then r.obs else none, col := h.ntile }
  else { array := a, row := i, carry := true, elems := [], xsite := 0, ev := ev, obs := none }

/-! ### Layers and window slots (R207, R208, R260) -/

/-- A tile holds no queued list and no pass or descriptor in flight of a job's layer. -/
def tileClear (ts : TileState) (t : Byte) (j : W32) (layer : Nat) : Bool :=
  !(ts.passes ++ ts.vecs).any (fun l => l.tenant == t && l.job == j && l.layer == layer) &&
  !ts.flight.any (fun f => f.list.tenant == t && f.list.job == j && f.list.layer == layer) &&
  !(match ts.vflight with | some v => v.tenant == t && v.job == j && v.layer == layer | none => false)

/-- The plan and the layer that a label names in a job (R497). -/
def labelLayer (d : Device) (j : Job) (label : Nat) : Option LayerPlan :=
  let l := label % 65536
  match label / 65536 with
  | 0 => (planOf d j.main).layers[l]?
  | 1 => j.adapter.bind fun a => (planOf d a).layers[l]?
  | _ => j.draft.bind fun k => (planOf d k).layers[l]?

/-- Piece digests of a layer's output rows, over the tiles of the job in order (R497). -/
def layerPieces (d : Device) (j : Job) (st : StepRun) (label : Nat) : List (List Byte) :=
  match labelLayer d j label with
  | none => []
  | some l =>
    let (off, stride, n, exps) := l.outAt
    let rows := if label / 65536 = 2 then (st.draftRows.map (·.n)).sum else rowCount st
    (List.range rows).map fun i => (tilesOf j.tiles).flatMap fun k =>
      (digest32 (storeBytes d k (off + i * stride) n ++ storeBytes d k (exps + i) 1)).take 16

/-- Rows of a layer's output site, or of the input place of layer 0, in the tile of an ordinal, coded in the mode that the plan names for links
(R234, R349). Those of a message come to 65,536 bytes at most. -/
def activationsOf (d : Device) (j : Job) (layer : Option Nat) (n ordinal k : Nat) : List Activation :=
  let plan := planOf d j.main
  match (match layer with | some l => (plan.layers[l]?).map (·.outAt) | none => some plan.inAt) with
  | none => []
  | some (off, stride, len, exps) =>
    let cols := len / 2
    let most := max 1 ((65536 - 192) / (planeSize plan.linkMode cols + 1))
    (List.range (ceilDiv n most)).map fun i =>
      let rows := min most (n - most * i)
      let ms := (List.range rows).flatMap fun r => mantissas d k (off + (most * i + r) * stride) cols
      { tile := BitVec.ofNat 5 ordinal, at_ := BitVec.ofNat 32 (off + most * i * stride), stride := BitVec.ofNat 32 stride
        exps := BitVec.ofNat 32 (exps + most * i), rows := rows, cols := cols, mode := plan.linkMode
        coded := encodeTensor plan.linkMode rows cols ms (storeBytes d k (exps + most * i) rows) }

/-- The activations of a step on every tile of a job, by ordinal. -/
def stepActivations (d : Device) (j : Job) (st : StepRun) (layer : Option Nat) : List Activation :=
  (tilesOf j.tiles).zipIdx.flatMap fun (k, i) => activationsOf d j layer (rowCount st) i k

/-- A stage job that has run a work unit reports it: the rows of its last layer, its X_obs, and the sequences whose walk met a retired page
(R249, R349, R357); the pins that its walks still hold are released. -/
def workerDone (t : Byte) (jid : W32) (j : Job) (st : StepRun) (done : Bool) (d : Device) : Device :=
  match j.manager with
  | some m =>
    if !done then d
    else
      let xobs := st.obsMain.filterMap fun x => x.2.map fun v => (x.1, v)
      let ended := (j.shadows.filter fun x => st.retired.contains x.2).map fun x => BitVec.ofNat 16 x.1
      onJob t jid (fun j => { j with step := none }) (unpinStep t.toNat st
        (sendMsg { kind := 4, dest := m, tenant := t, job := jid, epoch := j.epoch
                   body := .result xobs ended (stepActivations d j st (some ((st.labels.getD (st.total - 1) []).headD 0 % 65536))) 0 } d))
  | none => d

/-- Layers that are queued and have run out on every tile are complete, and a twin job digests them (R497). -/
def layerCheck (t : Byte) (jid : W32) (d : Device) : Device :=
  match jobOf d t jid with
  | none => d
  | some j => match j.step with
    | none => d
    | some st =>
      let tiles := tilesOf j.tiles
      let left := st.queued.filter fun l => !tiles.all fun k => tileClear (tileOf d k) t jid l
      let ended := st.queued.filter fun l => !left.contains l
      let more := if j.twinned then
          ended.flatMap fun l => (st.labels.getD l []).map fun x => (x, layerPieces d j st x) else []
      workerDone t jid j st (left.isEmpty && !ended.isEmpty && decide (st.total ≤ st.layer)) <|
        onJob t jid (fun j => { j with step := j.step.map fun st => { st with queued := left, pieces := st.pieces ++ more } }) d

/-- Descriptors that still load weights in the lists of a layer on a tile. -/
def loadsLeft (d : Device) (t : Nat) (l : QList) : Bool :=
  (tileOf d t).passes.any fun q => q.tenant == l.tenant && q.job == l.job && q.layer == l.layer &&
    (go (fun off n => storeBytes d t off n) (q.addr + 128 * q.index) (listFuel q.addr 128))
where
  go (rd : Nat → Nat → List Byte) (addr : Nat) : Nat → Bool
    | 0 => false
    | fuel + 1 =>
      let p := passDesc (rd addr 128)
      if p.kind = kEnd then false else !p.holdW || go rd (addr + 128) fuel

/-- All lists of a layer of a job's step are queued. -/
def layerQueued (d : Device) (t : Byte) (jid : W32) (l : Nat) : Bool := (jobOf d t jid).any fun j => j.step.any fun st => decide (l < st.layer)

/-- The slot of a layer on a tile is released once its last weight-loading pass is staged (R208). -/
def releaseSlot (t : Nat) (l : QList) (d : Device) : Device :=
  if loadsLeft d t l || !layerQueued d l.tenant l.job l.layer then d
  else { d with mem.windows := d.mem.windows.filter fun w =>
    !(w.tenant == l.tenant && w.job == l.job && w.tile == t && w.layer == l.layer && w.left == 0) }

/-! ### Failure of a list (R149, R168) -/

/-- A work unit of a step fails: the requests of the step end with a status and keep what they committed (R149, R232, R280, R449). A worker
gives the stage's work up and tells the manager. -/
def failStep (t : Byte) (jid : W32) (status : W16) (d : Device) : Device :=
  match jobOf d t jid with
  | none => d
  | some j => match j.step, j.manager with
    | none, _ => d
    | some _, some m => dropStep t jid
        (sendMsg { kind := 4, dest := m, tenant := t, job := jid, epoch := j.epoch, body := .result [] [] [] status } d)
    | some st, none => (st.rows.filter fun (x : StepRows) => !x.gone).foldl (fun d x =>
        endRequest x.ref status (match reqOf d x.ref with | some r => rollbackPair r.seq d | none => d)) d

/-- A list fails validation: TILE_ERR and LIST_ERR, the list goes, and the requests of the step that queued it end BAD_ARGUMENT. -/
def failList (t : Nat) (l : QList) (vector : Bool) (cause : Nat) (d : Device) : Device :=
  let d := onTile t (fun ts => { ts with
    errIndex := BitVec.ofNat 16 l.index, errCause := BitVec.ofNat 4 cause, listErr := true
    passes := if vector then ts.passes else ts.passes.drop 1
    vecs := if vector then ts.vecs.drop 1 else ts.vecs }) d
  if l.origin == .fixed then d else failStep l.tenant l.job stBadArgument d

/-! ### Issue -/

/-- A register is held by a pass or descriptor in flight (R164). One that is written is held to the completion, which is its last write;
whether the last read of one that is only read has passed is a matter of cycles and left free. -/
def regHeld (free : Nat) (ts : TileState) (r : Nat) : Bool :=
  let vec := fun (f : FlightVec → List Nat) => match ts.vflight with | some v => (f v).contains r | none => false
  ts.flight.any (fun f => f.regs.contains r) || vec (·.regs) ||
  ((ts.flight.any (fun f => f.reads.contains r) || vec (·.reads)) && Config.freeBit free)

/-- Some register is held. -/
def regsHeld (free : Nat) (ts : TileState) (rs : List Nat) : Bool := rs.any (regHeld free ts)

/-- A hazard: an activation range meets the outputs of a pass that has not drained, or a register it uses is held (R150, R164). -/
def passHeld (free : Nat) (ts : TileState) (p : PassDesc) : Bool :=
  (passIns p).any (fun r => ts.flight.any fun f => f.outs.any fun o => rangesMeet r.1 r.2 o.1 o.2) || regsHeld free ts p.regs

/-- What each array holds once the pass has run. DESIGN CHOICE: where the arrays of a pass mix LAST_K of 0 and 1, the banks written record
the whole enable mask as the arrays covered (R134). -/
def afterPass (p : PassDesc) (h : TileHdr) (s : ArrayState) (r : ArrayPass) (start dp : Nat) : ArrayState :=
  { s with
    act := List.replicate 64 r.lastRow
    actX := List.replicate 64 (List.replicate 64 r.lastX)
    west := r.lastRow
    north := r.lastIn
    south := match r.rows.getLast? with | some row => row.2.map fun c => (c.a, c.p) | none => s.south
    acc := match r.rows.getLast? with | some row => row.2.map fun c => c.trace.reverse | none => s.acc
    carry := if h.lastK then s.carry else
      some { accId := p.accId, arrays := BitVec.ofNat 4 p.mask,
             rows := r.rows.map fun row => { xr := row.1, cols := row.2.map fun c => (c.a, c.p) } }
    history := if p.kind = 2 then some (p.c, r.lastRow) else none
    last := some { s := start, dp := dp, t := p.rows, accId := p.accId, carry := !h.lastK }
    on := true }

/-- The header that an array works with in an issued pass. -/
def usedHdr (t : Nat) (p : PassDesc) (d : Device) (a : Nat) : TileHdr :=
  (passHdr (fun off n => storeBytes d t off n) (fun a => envOf (arrayOf (tileOf d t) a)) p a).getD
    { format := 0x04, group := 0, loadCs := false, lastK := true, validN := 1, validK := 1, ktile := 0, ntile := 0, tensor := 0 }

/-- An array as the pass finds it: the tile it names staged, unless the weights are held, and the scales of a drain live. DESIGN CHOICE: the
feeder stages the tile and writes NW and NS in the step in which the pass issues, as no rule says how far ahead it works (R140). -/
def readyArray (t : Nat) (p : PassDesc) (d : Device) (a : Nat) : ArrayState :=
  let s := arrayOf (tileOf d t) a
  let h := usedHdr t p d a
  let bytes := storeBytes d t (p.weightAt a) ((weightTileSize h.format).getD 64)
  let s := if p.holdW then s else { loadWeights h bytes s with staging := bytes }
  if h.lastK then goLive s else s

/-- Weight formats of the arrays of a pass. -/
def passFormats (t : Nat) (p : PassDesc) (d : Device) : List Nat := p.arrays.map fun a => (usedHdr t p d a).format

/-- Its step length (R126). -/
def passStep (t : Nat) (p : PassDesc) (d : Device) : Nat := stepLength p ((passFormats t p d).headD 0x04)

/-- The cycle from which registers are free on a tile of the Fixed plane (R164). DESIGN CHOICE: one that is only read is held to the completion
too. -/
def regsFree (ts : TileState) (rs : List Nat) : Nat :=
  let flight := (ts.flight.filter fun f => rs.any (f.regs ++ f.reads).contains).map (·.done)
  let vec := match ts.vflight with | some v => if rs.any (v.regs ++ v.reads).contains then [v.done] else [] | none => []
  (rs.map (SMap.get 0 ts.regFree) ++ flight ++ vec).foldl max 0

/-- The cycle in which a pass issues, with the power-up of its arrays on an Open-plane tile (R466), and the cycles it was held. -/
def passIssue (t : Nat) (l : QList) (p : PassDesc) (d : Device) : Nat × Nat :=
  let ts := tileOf d t
  let fixed := l.origin == .fixed
  let r := issueCycle ts p (passFormats t p d) (passStep t p d) (if fixed then regsFree ts p.regs else 0)
  (r.1 + if !fixed && p.arrays.any (fun a => !(arrayOf ts a).on) then powerUpCycles else 0, r.2)

/-- The device as token row i of a pass is read at the west edge: in a program of the Fixed plane the bus plan goes on meanwhile (R308). DESIGN
CHOICE: a row is read whole in the first cycle of its step. -/
def rowView (t : Nat) (l : QList) (p : PassDesc) (d : Device) (i : Nat) : Device :=
  if l.origin == .fixed then runPlan t ((passIssue t l p d).1 + passStep t p d * i) d else d

/-- What a pass computes on each of its arrays. -/
def passResults (t : Nat) (l : QList) (p : PassDesc) (d : Device) : List (Nat × ArrayPass) :=
  p.arrays.map fun a =>
    (a, arrayPass p (usedHdr t p d a) (readyArray t p d a)
      ((List.range p.rows).map fun i => streamRow (rowView t l p d i) t p (p.stream a) i)
      ((List.range p.rows).map fun i => streamExp (rowView t l p d i) t p (p.stream a) i))

/-- The rows of a pass in the order in which they leave: row by row, arrays 0 to 3 in order (R151). DESIGN CHOICE: so where a later token row
of a lower-numbered array overlaps an earlier one of a higher-numbered array, the bytes of the later row stand. -/
def pendingRows (t : Nat) (l : QList) (p : PassDesc) (d : Device) : List PendingRow :=
  let res := passResults t l p d
  ((List.range p.rows).filter fun i => !l.marked i).flatMap fun i => res.filterMap fun x => (x.2.rows[i]?).map fun row =>
    pendingRow d l p (usedHdr t p d x.1) (readyArray t p d x.1).scales x.1 i row

/-- A tile once a pass has issued on it. -/
def issueTile (t : Nat) (l : QList) (p : PassDesc) (d : Device) (ts : TileState) : TileState :=
  let dp := passStep t p d
  let (start, held) := passIssue t l p d
  let drains := fun a => (usedHdr t p d a).lastK
  let done := start + dp * (p.rows + if p.arrays.any drains then 128 else 127)
  let res := passResults t l p d
  { ts with
    arrays := res.foldl (fun m x => SMap.set {} m x.1 (afterPass p (usedHdr t p d x.1) (readyArray t p d x.1) x.2 start dp)) ts.arrays
    xmis := ts.xmis || res.any fun x => x.2.xmis
    passes := match ts.passes with | q :: qs => { q with index := q.index + 1 } :: qs | [] => []
    flight := ts.flight ++ [{ list := l, raw := p.raw, formats := passFormats t p d, arrays := BitVec.ofNat 4 p.mask, knot := BitVec.ofNat 32 p.knot
                              regs := p.writes, reads := p.reads, outs := passOuts p drains, start := start, done := done
                              rows := pendingRows t l p d }]
    drained := if fromIdle ts then [] else ts.drained
    activeCyc := ts.activeCyc + BitVec.ofNat 64 (done - max start ts.busyTo)
    bubbleCyc := ts.bubbleCyc + BitVec.ofNat 64 held
    busyTo := max done ts.busyTo }

/-- Issue a validated pass: what it computes waits in flight for its drains, and its window slot may be released (R208). -/
def issuePass (t : Nat) (l : QList) (p : PassDesc) (d : Device) : Device := releaseSlot t l (onTile t (issueTile t l p d) d)

/-! ### The order of events on a tile of the Fixed plane (R153, R308) -/

/-- The cycle in which the pass at the head of a tile's list issues. -/
def nextPassAt (d : Device) (t : Nat) : Option Nat := match (tileOf d t).passes with
  | [] => none
  | l :: _ =>
    let p := passDesc (storeBytes d t (l.addr + 128 * l.index) 128)
    if p.kind = kEnd then none else some (passIssue t l p d).1

/-- The cycle in which the descriptor at the head of its vector list issues: the one after the descriptor before it, and no register held
(R164, R186). -/
def nextVecAt (d : Device) (t : Nat) : Option Nat :=
  let ts := tileOf d t
  if ts.vflight.isSome then none
  else match ts.vecs with
    | [] => none
    | l :: _ =>
      let v := vecDesc (storeBytes d t (l.addr + 64 * l.index) 64)
      if v.kind = kEnd then none else some (max ts.vecAt (regsFree ts v.regs))

/-- What may come next on a tile: 0 a pass completes, 1 a vector descriptor completes, 2 a pass issues, 3 a vector descriptor issues; in one
cycle in this order (R164). -/
def planTimes (d : Device) (t : Nat) : List (Option Nat) :=
  let ts := tileOf d t
  [(ts.flight.head?).map (·.done), ts.vflight.map (·.done), nextPassAt d t, nextVecAt d t]

/-- Events of a program of the Fixed plane come in the order of their cycles, so that it runs with the same cycle sequence every time. -/
def planTurn (d : Device) (t kind : Nat) : Bool :=
  let times := planTimes d t
  match times.getD kind none with
  | none => true
  | some c => times.zipIdx.all fun x => match x.1 with
    | some c' => decide (c < c') || (c == c' && decide (kind ≤ x.2))
    | none => true

/-- A pass of a list is held. -/
def passWaits (d : Device) (t : Nat) (l : QList) (p : PassDesc) : Bool :=
  if l.origin == .fixed then !planTurn d t 2 else passHeld d.freeCtr (tileOf d t) p

/-- A pass issues; on a tile of the Fixed plane the bus plan has run up to its cycle. -/
def issueNow (t : Nat) (l : QList) (p : PassDesc) (d : Device) : Device :=
  issuePass t l p (if l.origin == .fixed then runPlan t (passIssue t l p d).1 d else d)

/-- Registers are free from a cycle on. -/
def freeRegs (rs : List Nat) (c : Nat) (ts : TileState) : TileState := { ts with regFree := rs.foldl (fun m r => SMap.set 0 m r c) ts.regFree }

/-- The sequencer looks at the head of a tile's pass list: a pass whose every row is marked is removed (R152), a failed descriptor
stops the list, and a pass of the command's kind issues unless it is held. DESIGN CHOICE: a descriptor whose own 128 bytes run past the
tile store stops its list with cause 4, which R149 does not name for it. -/
def seqPass (kind : Nat) (tile : Tile) (d : Device) : Device :=
  let t := tile.toNat
  if !coreAlive d then d
  else match (tileOf d t).passes with
    | [] => d
    | l :: _ =>
      let at_ := l.addr + 128 * l.index
      if at_ + 128 > storeSize then failList t l false 4 d
      else
        let p := passDesc (storeBytes d t at_ 128)
        if (p.kind = 1 ∨ p.kind = 2 ∨ p.kind = 3) ∧ !l.kill.isEmpty ∧ (List.range p.rows).all l.marked then
          onTile t (fun ts => { ts with passes := { l with index := l.index + 1 } :: ts.passes.drop 1 }) d
        else match passFault (fun off n => storeBytes d t off n) l.origin (fun a => envOf (arrayOf (tileOf d t) a)) p with
          | some f => failList t l false f.cause d
          | none => if p.kind = kind ∧ kind ≠ kEnd then (if passWaits d t l p then d else issueNow t l p d)
            else if p.kind = kEnd ∧ kind = kEnd then
              layerCheck l.tenant l.job (onTile t (fun ts => { ts with passes := ts.passes.drop 1 }) d)
            else d

/-! ### Commands -/

/-- MATMUL (R126 to R141): the pass at the head of the tile's list issues. -/
def execMatmul (t : Tile) (s : State) : Out := run (fun d => seqPass 1 t d) s

/-- CONV (R142, R143). -/
def execConv (t : Tile) (s : State) : Out := run (fun d => seqPass 2 t d) s

/-- SCORE (R145). -/
def execScore (t : Tile) (s : State) : Out := run (fun d => seqPass 3 t d) s

/-- The END descriptor ends the list (R146). -/
def execPassListEnd (t : Tile) (s : State) : Out := run (fun d => seqPass kEnd t d) s

/-- The oldest pass in flight ends: what has not drained yet drains, its registers are free, its knot is signalled. -/
def completePass (t : Nat) (d : Device) : Device := match (tileOf d t).flight with
  | [] => d
  | f :: _ =>
    let fixed := f.list.origin == .fixed
    if fixed && !planTurn d t 0 then d
    else
      let d := if fixed then runPlan t f.done d else d
      let rows := ((tileOf d t).flight.head?.map (·.rows)).getD []
      let d := onTile t (fun ts =>
        let ts := if fixed then freeRegs (f.regs ++ f.reads) f.done ts else ts
        { ts with
          flight := ts.flight.drop 1
          drained := if ts.passes.isEmpty then [] else ts.drained ++ [{ f with rows := [] }]
          passCount := ts.passCount + 1
          arrays := (List.range 4).foldl (fun m a =>
            if f.arrays.getLsbD a then SMap.modify {} m a fun s => { s with idleAt := d.clock } else m) ts.arrays }) (drainRows t f rows d)
      layerCheck f.list.tenant f.list.job (knotSignalField f.knot.toNat d)

/-- PASS_COMPLETE (R147, R154): the oldest pass in flight makes its drains or carry writes, to the last one. -/
def execPassComplete (tile : Tile) (s : State) : Out := run (fun d =>
  let t := tile.toNat
  match (tileOf d t).flight with
  | [] => d
  | _ :: _ =>
    if !coreAlive d then d else completePass t d) s

/-- Zero the counters of a tile's status block (R154). -/
def clearTileCounters (ts : TileState) : TileState :=
  { ts with passCount := 0, errIndex := 0, errCause := 0, activeCyc := 0, bubbleCyc := 0, fxRows := 0, fxElems := 0, sat := 0, invalid := 0 }

/-- 1 ms, the idle time after which an ARRAY domain goes off (R466). -/
abbrev arrayIdle : Nat := 1000000

/-- ARRAY_DOMAIN_IDLE_OFF (R466): the idle time of an array of an Open-plane tile passes and its domain goes off. -/
def execArrayDomainIdleOff (tile : Tile) (a : BitVec 2) (s : State) : Out := run (fun d =>
  let t := tile.toNat
  let ar := arrayOf (tileOf d t) a.toNat
  if coreAlive d ∧ ar.on ∧ !d.fix.mask.getLsbD t ∧ !(tileOf d t).flight.any (fun f => f.arrays.getLsbD a.toNat) then
    let d := advanceTo (ar.idleAt + arrayIdle) d
    onTile t (onArray a.toNat fun s => { s with on := false }) d
  else d) s

end Sys2Proof.Machine
end

