-- ==== Sys2Proof/Machine/StitchMath.lean ====
section
/-! DEFINITION. The arithmetic of the sliver cores (05_vector_engine R172 to R175, R180, R181, R183): exact operations rounded once,
the four functions of R175, type conversion, and the instruction words of R171. -/

namespace Sys2Proof.Machine

/-! ### Floating-point operations before their rounding (R173) -/

/-- The sign of a value; the sign of a NaN is not looked at. -/
def fpNeg : Fp → Bool
  | .nan => false
  | .inf n => n
  | .fin n _ => n

def fpIsZero : Fp → Bool
  | .fin _ m => m.isZero
  | _ => false

def fpFlip : Fp → Fp
  | .nan => .nan
  | .inf n => .inf (!n)
  | .fin n m => .fin (!n) m

def fpAbs : Fp → Fp
  | .nan => .nan
  | .inf _ => .inf false
  | .fin _ m => .fin false m

/-- The exact sum; an exact zero takes its sign from IEEE 754 (R173). -/
def fpAdd (mode : Rnd) (x y : Fp) : Fp :=
  match x, y with
  | .nan, _ => .nan
  | _, .nan => .nan
  | .inf a, .inf b => if a = b then .inf a else .nan
  | .inf a, .fin _ _ => .inf a
  | .fin _ _, .inf b => .inf b
  | .fin a m, .fin b k =>
    let s := (fpVal (.fin a m)).add (fpVal (.fin b k))
    if s.isZero then .fin (if m.isZero && k.isZero && a == b then a else mode == .rdn) Dy.zero else fpOf s

/-- The exact product. -/
def fpMul (x y : Fp) : Fp :=
  let n := fpNeg x != fpNeg y
  match x, y with
  | .nan, _ => .nan
  | _, .nan => .nan
  | .inf _, z => if fpIsZero z then .nan else .inf n
  | z, .inf _ => if fpIsZero z then .nan else .inf n
  | .fin _ a, .fin _ b => .fin n (a.mul b)

/-- x < y for values that are not NaN; −0 equals +0. -/
def fpLt (x y : Fp) : Bool :=
  match x, y with
  | .nan, _ => false
  | _, .nan => false
  | .inf a, .inf b => a && !b
  | .inf a, .fin _ _ => a
  | .fin _ _, .inf b => !b
  | a, b => (fpVal a).lt (fpVal b)

/-- x = y for values that are not NaN; −0 equals +0. -/
def fpEq (x y : Fp) : Bool :=
  match x, y with
  | .nan, _ => false
  | _, .nan => false
  | .inf a, .inf b => a == b
  | .inf _, .fin _ _ => false
  | .fin _ _, .inf _ => false
  | a, b => (fpVal a).eq (fpVal b)

/-- The order of MIN and MAX: −0 lies below +0 (R173). -/
def fpBelow (x y : Fp) : Bool := fpLt x y || (fpIsZero x && fpIsZero y && fpNeg x && !fpNeg y)

def fpMin (x y : Fp) : Fp := if x = .nan ∨ y = .nan then .nan else if fpBelow y x then y else x
def fpMax (x y : Fp) : Fp := if x = .nan ∨ y = .nan then .nan else if fpBelow x y then y else x

/-! ### EXP2, LOG2, RCP, RSQRT (R175) -/

/-- Integer square root by Newton's method from above. -/
def isqrtFrom (n : Nat) : Nat → Nat → Nat
  | 0, r => r
  | fuel + 1, r => let q := (r + n / r) / 2; if q < r then isqrtFrom n fuel q else r

/-- ⌊√n⌋. -/
def isqrt (n : Nat) : Nat := if n = 0 then 0 else isqrtFrom n (2 * n.log2 + 8) (2 ^ (n.log2 / 2 + 1))

/-- Bits of working precision: far beyond what one correct rounding to FP32 needs of any FP32 operand. -/
abbrev workBits : Nat := 400

/-- 2^f × 2^workBits rounded down, up to two units, for f = ⌊f × 2^n⌋ × 2^−n below 1: the square root of each bit's factor in turn. -/
def exp2Frac (f : Nat) : Nat → Nat → Nat
  | 0, r => r
  | n + 1, r => exp2Frac (f / 2) n (isqrt (r * (if f % 2 = 1 then 2 else 1) * 2 ^ workBits))

/-- 2^x. An irrational result is written with one more bit below what was computed. -/
def exp2Of (x : Dy) : Dy :=
  let fl : Int := x.round .rdn 0
  let frac := x.sub (.ofInt fl)
  let e := clampInt (-1000) 1000 fl
  if frac.isZero then ⟨1, e⟩
  else ⟨2 * exp2Frac frac.m.natAbs (-frac.e).toNat (2 ^ workBits) + 1, e - workBits - 1⟩

/-- The first `n` bits of log2 y for y in [1, 2), y given × 2^workBits: square, and halve where the square reaches 2. -/
def log2Frac : Nat → Nat → Nat → Nat
  | 0, _, acc => acc
  | n + 1, y, acc =>
    let q := y * y / 2 ^ workBits
    if q ≥ 2 ^ (workBits + 1) then log2Frac n (q / 2) (2 * acc + 1) else log2Frac n q (2 * acc)

/-- log2 x for x > 0. -/
def log2Of (x : Dy) : Dy :=
  let e := x.log2
  let m := x.m.natAbs
  if m = 2 ^ m.log2 then .ofInt e
  else
    let f := log2Frac 160 (m * 2 ^ (workBits - m.log2)) 0
    Dy.add (.ofInt e) ⟨2 * f + 1, -161⟩

/-- 1/x for x > 0, with a last bit that tells whether anything was cut. -/
def rcpOf (x : Dy) : Dy :=
  let m := x.m.natAbs
  let q := 2 ^ 160 / m
  ⟨2 * q + (if q * m = 2 ^ 160 then 0 else 1), -161 - x.e⟩

/-- 1/√x for x > 0, with a last bit that tells whether anything was cut. -/
def rsqrtOf (x : Dy) : Dy :=
  let odd := x.e % 2 != 0
  let m := x.m.natAbs * (if odd then 2 else 1)
  let e := if odd then x.e - 1 else x.e
  let r := isqrt (2 ^ 320 / m)
  ⟨2 * r + (if r * r * m = 2 ^ 320 then 0 else 1), -161 - e / 2⟩

/-- A function of R175 on a value, before its rounding: 0x16 EXP2, 0x17 LOG2, 0x18 RCP, else RSQRT. -/
def fpFunction (op : Nat) (x : Fp) : Fp :=
  match x with
  | .nan => .nan
  | .inf n =>
    if op = 0x16 then (if n then .fin false Dy.zero else .inf false)
    else if op = 0x17 then (if n then .nan else .inf false)
    else if op = 0x18 then .fin n Dy.zero
    else if n then .nan else .fin false Dy.zero
  | .fin n m =>
    if op = 0x16 then fpOf (exp2Of (fpVal (.fin n m)))
    else if op = 0x17 then (if m.isZero then .inf true else if n then .nan else fpOf (log2Of m))
    else if op = 0x18 then (if m.isZero then .inf n else .fin n (rcpOf m))
    else if m.isZero then .inf n else if n then .nan else .fin false (rsqrtOf m)

/-! ### Operations by TY (R173, R174) -/

/-- The floating format of TY 0 or 1. -/
def tyFmt (ty : Nat) : FpFmt := if ty = 1 then bf16 else fp32

/-- A lane register read as TY 0 or 1 (R172). -/
def laneFp (ty v : Nat) : Fp := fpDecode (tyFmt ty) (v % 2 ^ (tyFmt ty).width)

/-- Round a floating result once and note an overflow (R173, R94). -/
def roundFp (ty : Nat) (mode : Rnd) (x : Fp) : Nat × NumEv := let r := fpEncode (tyFmt ty) mode x; (r.1, evSat r.2)

/-- ADD to NEG, CMPLT and CMPEQ on integers: saturated, and sign-extended to 32 bits (R173). -/
def intOp (op bits : Nat) (a b c : Int) : Nat × NumEv :=
  if op = 0x0E then (if a < b then 1 else 0, {})
  else if op = 0x0F then (if a = b then 1 else 0, {})
  else
    let r := if op = 0x04 then a + b else if op = 0x05 then a - b else if op = 0x06 then a * b
      else if op = 0x07 then a * b + c else if op = 0x08 then min a b else if op = 0x09 then max a b
      else if op = 0x0A then (a.natAbs : Int) else -a
    let q := satInt bits r
    (patternOf 32 q.1, evSat q.2)

/-- An arithmetic operation in the type TY (R173 to R175). -/
def arithOp (op ty : Nat) (mode : Rnd) (a b c : Nat) : Nat × NumEv :=
  if ty = 2 ∨ ty = 3 then
    let n := if ty = 2 then 32 else 16
    intOp op n (signedOf n a) (signedOf n b) (signedOf n c)
  else
    let x := laneFp ty a; let y := laneFp ty b
    if op = 0x0E then (if fpLt x y then 1 else 0, {})
    else if op = 0x0F then (if fpEq x y then 1 else 0, {})
    else roundFp ty mode (
      if op = 0x04 then fpAdd mode x y else if op = 0x05 then fpAdd mode x (fpFlip y) else if op = 0x06 then fpMul x y
      else if op = 0x07 then fpAdd mode (fpMul x y) (laneFp ty c) else if op = 0x08 then fpMin x y else if op = 0x09 then fpMax x y
      else if op = 0x0A then fpAbs x else if op = 0x0B then fpFlip x
      else if op = 0x1E then
        (match x with
        | .fin n m => .fin n (m.scale (clampInt (-1000) 1000 (signedOf 32 b)))
        | z => z)
      else fpFunction op x)

/-! ### CVT (R180, R181) -/

/-- Width of an integer or weight-code type index. -/
def typeBits (t : Nat) : Nat := if t = 3 then 8 else if t = 4 then 16 else if t = 5 then 32 else if t = 6 then 4 else if t = 7 then 6 else 8

/-- The value of a lane register read as a type index, under row exponent X. -/
def typedValue (t v : Nat) (x : Int) : Fp :=
  if t = 0 then laneFp 1 v else if t = 1 then laneFp 0 v
  else if t = 2 then fpOf (fxValue (v % 65536) x)
  else fpOf (.ofInt (signedOf (typeBits t) v))

/-- A weight code from a value: RNE, symmetric saturation, special values by R95 (R181). -/
def codeOf (bits : Nat) : Fp → Int × NumEv
  | .nan => (0, evInv)
  | .inf n => (if n then -qmax bits else qmax bits, { sat := 1 })
  | .fin n m =>
    let r := Dy.round .rne (if n then m.neg else m) 0
    let q := clampInt (-qmax bits) (qmax bits) r
    (q, evSat (q != r))

/-- CVT from type index `src` to `dst` (R181). -/
def cvtOp (src dst : Nat) (mode : Rnd) (v : Nat) (x : Int) : Nat × NumEv :=
  if src = dst then (v, {})
  else
    let a := typedValue src v x
    if dst = 0 then roundFp 1 mode a else if dst = 1 then roundFp 0 mode a
    else if dst ≥ 6 then let q := codeOf (typeBits dst) a; (patternOf 32 q.1, q.2)
    else let q := intOfFp (typeBits dst) mode a; (patternOf 32 q.1, q.2)

/-! ### Instruction words (R171, R174) -/

/-- A stitch instruction. -/
structure Stitch where
  op : Nat
  d  : Nat
  a  : Nat
  b  : Nat
  c  : Nat
  ty : Nat
  rm : Nat
deriving DecidableEq, Repr

def stitchOf (w : Nat) : Stitch :=
  { op := bitsOf w 26 6, d := bitsOf w 22 4, a := bitsOf w 17 5, b := bitsOf w 12 5, c := bitsOf w 7 5, ty := bitsOf w 4 3, rm := bitsOf w 1 3 }

/-- Operand fields that an operation uses, beside D: A, B, C. -/
def stitchUses (op : Nat) : Bool × Bool × Bool :=
  if op = 0x00 then (false, false, false)
  else if op = 0x07 ∨ op = 0x0C ∨ op = 0x0D then (true, true, true)
  else if (0x04 ≤ op ∧ op ≤ 0x06) ∨ op = 0x08 ∨ op = 0x09 ∨ (0x0E ≤ op ∧ op ≤ 0x14) ∨ op = 0x1E then (true, true, false)
  else (true, false, false)

/-- The word obeys R171 and R174: a listed operation, its types, its fields, and zero in those it does not use. -/
def stitchOk (w : Nat) : Bool :=
  let i := stitchOf w
  let (ua, ub, uc) := stitchUses i.op
  decide (i.op ≤ 0x1E) && decide (i.op ≠ 0x15) && !bitOf w 0 && (rndOf i.rm).isSome &&
  (ua || decide (i.a = 0)) && (ub || decide (i.b = 0)) && (uc || decide (i.c = 0)) &&
  -- types
  (if (0x04 ≤ i.op ∧ i.op ≤ 0x0C) ∨ i.op = 0x0E ∨ i.op = 0x0F then decide (i.ty ≤ 3)
   else if 0x16 ≤ i.op ∧ i.op ≤ 0x19 then decide (i.ty = 0)
   else if i.op = 0x1E then decide (i.ty ≤ 1) else true) &&
  -- indices
  (if i.op = 0x01 ∨ i.op = 0x1D then decide (i.a ≤ 3) else if i.op = 0x1A ∨ i.op = 0x1B then decide (i.a ≤ 7)
   else if i.op = 0x1C then decide (i.a ≤ 1) else if i.op = 0x02 then decide (i.d ≤ 1)
   else if i.op = 0x0C then decide (i.b ≤ 8) && decide (i.c ≤ 8) && decide (i.b ≠ 2) else true)

/-- Cost per group (R174). -/
def stitchCost (i : Stitch) : Nat :=
  if (0x04 ≤ i.op ∧ i.op ≤ 0x09) ∨ i.op = 0x0E ∨ i.op = 0x0F then (if i.ty = 1 ∨ i.ty = 3 then 1 else 2)
  else if i.op = 0x0C then (if i.b = 1 ∨ i.b = 5 ∨ i.c = 1 ∨ i.c = 5 then 2 else 1)
  else if 0x16 ≤ i.op ∧ i.op ≤ 0x19 then 4 else if i.op = 0x1E then 2 else 1

/-- Input slots that an instruction names: IN, XIN, and a CVT from FX16 through TY. -/
def stitchIns (i : Stitch) : List Nat :=
  if i.op = 0x01 ∨ i.op = 0x1D then [i.a] else if i.op = 0x0C ∧ i.c = 2 then [i.ty] else []

/-- Output slots that an instruction names. -/
def stitchOuts (i : Stitch) : List Nat := if i.op = 0x02 then [i.d] else []

/-! ### Reductions (R183) -/

/-- ⊕ of a reduction: 0 SUM, 1 SUMSQ, 2 MAX, 3 MIN, 4 MAXABS. -/
def reduceOp (op : Nat) (mode : Rnd) (x y : Fp × NumEv) : Fp × NumEv :=
  let ev := x.2.add y.2
  if op ≤ 1 then let r := roundFp 0 mode (fpAdd mode x.1 y.1); (laneFp 0 r.1, ev.add r.2)
  else if op = 2 then (fpMax x.1 y.1, ev)
  else if op = 3 then (fpMin x.1 y.1, ev)
  else (fpMax (fpAbs x.1) (fpAbs y.1), ev)

/-- A source element as FP32, squared and rounded for SUMSQ (R183). -/
def reduceElem (op ty : Nat) (mode : Rnd) (v : Nat) (x : Int) : Fp × NumEv :=
  let r := roundFp 0 .rne (typedValue ty v x)
  let e := laneFp 0 r.1
  if op = 1 then let q := roundFp 0 mode (fpMul e e); (laneFp 0 q.1, r.2.add q.2) else (e, r.2)

/-- Combine a list from its first element on. -/
def reduceAll (op : Nat) (mode : Rnd) : List (Fp × NumEv) → Fp × NumEv
  | [] => (.fin false Dy.zero, {})
  | x :: xs => xs.foldl (reduceOp op mode) x

end Sys2Proof.Machine
end

