-- ==== Sys2Proof/Machine/Vector.lean ====
section
/-! DEFINITION. Vector lists (05_vector_engine R156 to R186): validation, stitch programs, reductions, moves between the tile store
and the registers, WAIT and END. -/

namespace Sys2Proof.Machine

/-! ### Validation (R168) -/

/-- Bytes of a row of a slot over the span. -/
def slotRow (s : Slot) (span : Nat) : Nat := 64 * span * if s.wide then 4 else 2

/-- Kind-field bytes that the descriptor's kind uses (R163). -/
def kindBytes (k : Nat) : List Nat :=
  if k = kStitch then List.range' 16 5 else if k = kReduce then List.range' 16 4
  else if k = kLoad ∨ k = kStore then List.range' 16 14 else if k = kWait then [16, 17, 20, 21, 22, 23] else []

/-- Tile-store ranges of a descriptor: the offset field behind each, its start and its length. -/
def vecRanges (v : VecDesc) : List (Nat × Nat × Nat) :=
  let off := field v.raw 16 4
  if v.kind = kStitch then [(16, off, 64 + 4 * field v.raw 20 1)]
  else if v.kind ≠ kLoad ∧ v.kind ≠ kStore then []
  else if v.acc then [(16, off, 256)]
  else match v.slots with
    | [] => []
    | x :: _ =>
      let rows := field v.raw 28 1
      [(16, off, (rows - 1) * field v.raw 20 4 + slotRow x.2 v.span)] ++ if bitOf (field v.raw 29 1) 0 then [(24, field v.raw 24 4, rows)] else []

/-- The program of a STITCH: its constants and instruction words (R170). -/
def programOf (rd : Nat → Nat → List Byte) (v : VecDesc) : List W32 × List W32 :=
  let off := field v.raw 16 4
  ((List.range 16).map fun i => BitVec.ofNat 32 (leNat (rd (off + 4 * i) 4)),
   (List.range (field v.raw 20 1)).map fun i => BitVec.ofNat 32 (leNat (rd (off + 64 + 4 * i) 4)))

/-- Cause 10. -/
def vecReserved (v : VecDesc) : List (Bool × Nat) :=
  let listed := kindBytes v.kind
  [(!([kStitch, kReduce, kLoad, kStore, kWait].contains v.kind), 0),
   ((v.kind == kStitch || v.kind == kReduce || ((v.kind == kLoad || v.kind == kStore) && !v.slots.isEmpty && !v.acc)) &&
      !([1, 2, 4, 8].contains v.span), 1),
   (byteAt v.raw 2 != 0, 2), (decide (field v.raw 3 1 / 8 ≠ 0) || (rndOf v.rnd).isNone, 3)] ++
  ((List.range' 4 6).map fun i => (bitOf (field v.raw i 1) 5 || (v.used.any fun x => x.1 == i && decide (x.2.target ≥ 24)), i)) ++
  ((List.range' 10 2).map fun i => (decide (field v.raw i 1 / 64 ≠ 0), i)) ++ nonZeroAt v.raw 12 4 ++
  (if v.kind = kStitch then [(decide (field v.raw 16 4 % 64 ≠ 0), 16), (decide (field v.raw 20 1 = 0 ∨ field v.raw 20 1 > 64), 20)]
   else if v.kind = kReduce then
     [(decide (field v.raw 16 1 > 4), 16), (decide (field v.raw 17 1 > 1), 17), (decide (field v.raw 19 1 / 8 % 16 ≠ 0), 19)]
   else if v.kind = kLoad ∨ v.kind = kStore then
     [(!v.acc && !v.slots.isEmpty && decide (field v.raw 28 1 = 0 ∨ field v.raw 28 1 > 64), 28), (decide (field v.raw 29 1 / 2 ≠ 0), 29)]
   else []) ++
  ((List.range' 16 44).map fun i => (!listed.contains i && byteAt v.raw i != 0, i)) ++
  [(decide (v.knot / 2 ^ 16 % 2 ^ 15 ≠ 0), 60)]

/-- Cause 11, on every slot in use. -/
def vecSlots (v : VecDesc) : List (Bool × Nat) :=
  let outs := v.dst.map (·.regs v.reach)
  [(decide (v.kind = kStore) && v.slots.isEmpty, 4), (decide (v.kind = kLoad) && v.slots.isEmpty, 8)] ++
  (v.used.map fun x =>
    (if x.2.target ≥ 16 then v.kind != kLoad && v.kind != kStore
     else (x.2.wide && decide (x.2.target % 2 ≠ 0)) || (x.2.regs v.reach).any fun r => decide (r > 15), x.1)) ++
  [((outs.getD 0 []).any fun r => (outs.getD 1 []).contains r, 9)]

/-- Causes 12 to 15 in order, after 10 and 11 (R168). -/
def vecFault (rd : Nat → Nat → List Byte) (v : VecDesc) : Option PassFault :=
  let fault := fun cause bad => (firstBad bad).map fun o => ({ cause := cause, field := o } : PassFault)
  if v.kind = kEnd then fault 10 (nonZeroAt v.raw 1 63)
  else
    let s0 := v.slots.head?
    let words := (programOf rd v).2.map (·.toNat)
    let prog := words.map stitchOf
    let ty := field v.raw 18 1
    let c12 := (vecRanges v).map (fun r => (decide (r.2.1 + r.2.2 > storeSize), r.1)) ++
      [((v.kind == kLoad || v.kind == kStore) && !v.acc &&
        (decide (field v.raw 20 4 % 2 ≠ 0) || s0.any fun x => decide (field v.raw 20 4 < slotRow x.2 v.span)), 20)]
    let c14 := [(s0.isNone, 4), (decide (field v.raw 17 1 = 1 ∧ v.span ≠ 1), 17), (!([0, 1, 2, 4, 5].contains ty), 18),
      (s0.any fun x => x.2.wide != (ty == 1 || ty == 5), 4)]
    let unusedIn := fun i => !(v.src.getD i (slotOf 0)).used
    let unusedOut := fun i => !(v.dst.getD i (slotOf 0)).used
    let c15 := ((List.range 4).map fun i => ((prog.any fun w => (stitchIns w).contains i) && unusedIn i, 4 + i)) ++
      ((List.range 2).map fun i => ((prog.any fun w => (stitchOuts w).contains i) && unusedOut i, 8 + i)) ++
      ((List.range 2).map fun i => let s := v.dst.getD i (slotOf 0); (s.used && s.wide && decide (v.mode.getD i 0 % 4 ≠ 0), 10 + i))
    (fault 10 (vecReserved v)).orElse fun _ => (fault 11 (vecSlots v)).orElse fun _ => (fault 12 c12).orElse fun _ =>
      if v.kind = kStitch then (fault 13 [(!words.all stitchOk, 16)]).orElse fun _ => fault 15 c15
      else if v.kind = kReduce then fault 14 c14 else none

/-! ### Registers as a descriptor sees them -/

/-- Register of a slot at place j of the span: the low half of the pair for WIDE (R162). -/
def Slot.reg (s : Slot) (j : Nat) : Nat := s.target + if s.wide then 2 * j else j

/-- An element of a slot at place j, from the 16 register elements at one row and column (R157). -/
def slotElem (s : Slot) (j : Nat) (els : List W16) : Nat :=
  let lo := (els.getD (s.reg j) 0).toNat
  if s.wide then lo + 65536 * (els.getD (s.reg j + 1) 0).toNat else lo

/-- The elements of registers 0 to 15 at a row: by column, then by register. -/
def rowElems (ts : TileState) (row : Nat) : List (List W16) :=
  let rows := (List.range 16).map fun r => regRow ts r row
  (List.range 64).map fun n => rows.map fun l => l.getD n 0

/-- Write the elements of some registers at a row back. -/
def putRow (rs : List Nat) (row : Nat) (els : List (List W16)) (ts : TileState) : TileState :=
  { ts with tregs := rs.foldl (fun m r => SMap.set [] m (r * 64 + row) (els.map fun e => e.getD r 0)) ts.tregs }

def rowExp (ts : TileState) (r row : Nat) : Int := signedOf 8 (SMap.get 0 ts.texp (r * 64 + row)).toNat

/-- Write a row exponent into some registers (R157). -/
def putExp (rs : List Nat) (row : Nat) (x : Int) (ts : TileState) : TileState :=
  { ts with texp := rs.foldl (fun m r => SMap.set 0 m (r * 64 + row) (BitVec.ofNat 8 (patternOf 8 x))) ts.texp }

/-- Entry of a vector accumulator (R158). -/
def vaEntry (ts : TileState) (k e : Nat) : Nat := (SMap.get 0 ts.va (k * 64 + e)).toNat
def putVa (k e v : Nat) (ts : TileState) : TileState := { ts with va := SMap.set 0 ts.va (k * 64 + e) (BitVec.ofNat 32 v) }

/-! ### Stitch programs (R170 to R174, R177) -/

/-- What one element of one run sees and has done. -/
structure Elem where
  lanes : List Nat
  /-- Registers 0 to 15 at the element's row and column. -/
  els   : List W16
  /-- Operands given to output slots 0 and 1 in an FX16 mode. -/
  fx    : List (Option Nat)
  ev    : NumEv
deriving DecidableEq, Repr

/-- Where an element stands: the descriptor, the constants, place j of the span, row and column, and its first free value. -/
structure ElemCtx where
  v      : VecDesc
  consts : List W32
  j      : Nat
  row    : Nat
  col    : Nat
  free   : Nat

/-- One instruction on one element. DESIGN CHOICE: an IN that follows a RAW OUT to a register that its slot covers sees the new value, as
R170 does not order the two. -/
def stitchStep (ts : TileState) (c : ElemCtx) (e : Elem) (k : Nat) (i : Stitch) : Elem :=
  let mode := (rndOf i.rm).getD .rne
  let val := fun n => if n < 16 then e.lanes.getD n 0 else (c.consts.getD (n - 16) 0).toNat
  let a := val i.a; let b := val i.b; let cc := val i.c
  let slot := fun n => c.v.src.getD n (slotOf 0)
  let exp := fun n => rowExp ts ((slot n).reg c.j) c.row
  let put := fun (x : Nat) (ev : NumEv) => { e with lanes := e.lanes.set i.d (x % 2 ^ 32), ev := e.ev.add ev }
  if i.op = 0x00 then e
  else if i.op = 0x01 then
    let x := slotElem (slot i.a) c.j e.els
    -- the device does not record whether a 16-bit element is BF16 or a signed integer, whose upper bits differ (R172)
    put (if !(slot i.a).wide && bitOf x 15 && Config.freeBit (c.free + k) then x + 0xFFFF0000 else x) {}
  else if i.op = 0x02 then
    let s := c.v.dst.getD i.d (slotOf 0)
    if c.v.mode.getD i.d 0 % 4 ≠ 0 then { e with fx := e.fx.set i.d (some a) }
    else
      let els := e.els.set (s.reg c.j) (BitVec.ofNat 16 a)
      { e with els := if s.wide then els.set (s.reg c.j + 1) (BitVec.ofNat 16 (a / 65536)) else els }
  else if i.op = 0x03 then put a {}
  else if i.op = 0x0C then let r := cvtOp i.c i.b mode a (exp i.ty); put r.1 r.2
  else if i.op = 0x0D then put (if a ≠ 0 then b else cc) {}
  else if i.op = 0x10 then put (a &&& b) {}
  else if i.op = 0x11 then put (a ||| b) {}
  else if i.op = 0x12 then put (a ^^^ b) {}
  else if i.op = 0x13 then put (a * 2 ^ (b % 32)) {}
  else if i.op = 0x14 then put (patternOf 32 ((signedOf 32 a).fdiv (2 ^ (b % 32) : Nat))) {}
  else if i.op = 0x1A then put (vaEntry ts i.a c.row) {}
  else if i.op = 0x1B then put (vaEntry ts i.a c.col) {}
  else if i.op = 0x1C then put (if i.a = 0 then c.row else 64 * c.j + c.col) {}
  else if i.op = 0x1D then put (patternOf 32 (exp i.a)) {}
  else let r := arithOp i.op i.ty mode a b cc; put r.1 r.2

/-- The program over one element. Lane registers start undefined (R170). -/
def stitchElem (ts : TileState) (prog : List Stitch) (c : ElemCtx) (els : List W16) : Elem :=
  let start : Elem :=
    { lanes := (List.range 16).map fun n => (Config.freeWord (c.free + n)).toNat, els := els, fx := [none, none], ev := {} }
  prog.zipIdx.foldl (fun e (i, k) => stitchStep ts c e k i) start

/-- Free values set aside for one element. -/
abbrev elemFree : Nat := 64

/-- Where a STITCH stands after some places of its span: the tile, the operands of FX16 outputs by slot, row and column, and its events. -/
structure StitchRun where
  ts : TileState
  fx : List (List (List (Option Nat)))
  ev : NumEv

/-- The program over the 64 columns of a row at place j; the events of a marked row and its writes are suppressed (R169). -/
def stitchRow (free : Nat) (v : VecDesc) (prog : List Stitch) (consts : List W32) (kill : List Nat) (span j : Nat) (s : StitchRun) (row : Nat) :
    StitchRun :=
  let es := (rowElems s.ts row).zipIdx.map fun (els, n) =>
    stitchElem s.ts prog { v := v, consts := consts, j := j, row := row, col := n, free := free + ((j * 64 + row) * 64 + n) * elemFree } els
  -- the lane registers that the last run over the last group leaves
  let ts := if j + 1 = span then
      { s.ts with lanes := es.zipIdx.foldl (fun m (e, n) => if n % 32 < 24 then m
          else e.lanes.zipIdx.foldl (fun m (x, l) => SMap.set 0 m ((row * 64 + n) * 16 + l) (BitVec.ofNat 32 x)) m) s.ts.lanes }
    else s.ts
  if kill.contains row then { s with ts := ts }
  else
    let outs := (v.dst.zipIdx.filter fun (d, i) => d.used && decide (v.mode.getD i 0 % 4 = 0)).flatMap fun (d, _) =>
      if d.wide then [d.reg j, d.reg j + 1] else [d.reg j]
    { ts := putRow outs row (es.map (·.els)) ts
      fx := s.fx.zipIdx.map fun (rows, i) => rows.modify row (· ++ es.map fun e => e.fx.getD i none)
      ev := es.foldl (fun ev e => ev.add e.ev) s.ev }

/-- Commit a row of an FX16 output slot (R178, R179). -/
def commitRow (v : VecDesc) (s : Slot) (modeByte row : Nat) (ops : List (Option Nat)) (ts : TileState) : TileState × NumEv :=
  let mode := (rndOf v.rnd).getD .rne
  let m := modeByte % 4
  let va := modeByte / 4 % 8
  let vals := ops.filterMap fun o => o.map (laneFp 0)
  if vals.isEmpty then (ts, {})
  else
    let need := fxRowExponent mode vals
    if m = 2 then
      let old := signedOf 32 (vaEntry ts va row)
      (putVa va row (patternOf 32 (if bitOf modeByte 5 then need else max old need)) ts, {})
    else
      let x := if m = 1 then need else clampInt (-128) 127 (signedOf 32 (vaEntry ts va row))
      let written := ops.map fun o => o.map fun p => fxOfFp mode (laneFp 0 p) x
      let ts := (List.range v.span).foldl (fun ts j =>
        let r := s.reg j
        let old := regRow ts r row
        let new := old.zipIdx.map fun (w, n) => match (written.getD (64 * j + n) none) with
          | some q => BitVec.ofNat 16 (patternOf 16 q.1)
          | none => w
        { ts with tregs := SMap.set [] ts.tregs (r * 64 + row) new }) ts
      let ev := written.foldl (fun ev o => match o with | some q => ev.add q.2 | none => ev) ({} : NumEv)
      (putExp (s.regs v.span) row x ts, { ev with rows := if ev.ovf > 0 then 1 else 0 })

/-- The program over every group of every register of the span (R170). -/
def stitchAll (free : Nat) (kill : List Nat) (v : VecDesc) (consts words : List W32) (ts : TileState) : StitchRun :=
  let prog := words.map fun w => stitchOf w.toNat
  let s0 : StitchRun :=
    { ts := { ts with consts := consts, program := words, lanes := [] }, fx := List.replicate 2 (List.replicate 64 []), ev := {} }
  (List.range v.span).foldl (fun s j => (List.range 64).foldl (stitchRow free v prog consts kill v.span j) s) s0

/-- Commit every row of one FX16 output slot. -/
def commitSlot (v : VecDesc) (d : Slot) (modeByte : Nat) (rows : List (List (Option Nat))) (acc : TileState × NumEv) : TileState × NumEv :=
  rows.zipIdx.foldl (fun acc x => let r := commitRow v d modeByte x.2 x.1 acc.1; (r.1, acc.2.add r.2)) acc

/-- STITCH: the program, then the FX16 outputs (R170, R177 to R179). -/
def stitchExec (free : Nat) (kill : List Nat) (v : VecDesc) (consts words : List W32) (ts : TileState) : TileState × NumEv :=
  let s := stitchAll free kill v consts words ts
  (v.dst.zipIdx.filter fun (d, i) => d.used && decide (v.mode.getD i 0 % 4 ≠ 0)).foldl (fun acc x =>
    commitSlot v x.1 (v.mode.getD x.2 0) (s.fx.getD x.2 []) acc) (s.ts, s.ev)

/-! ### Reductions (R183 to R185) -/

/-- A source element of a reduction, as FP32. -/
def reduceAt (v : VecDesc) (ts : TileState) (els : List (List W16)) (j row n : Nat) : Fp × NumEv :=
  let s := v.src.getD 0 (slotOf 0)
  reduceElem (field v.raw 16 1) (field v.raw 18 1) ((rndOf v.rnd).getD .rne) (slotElem s j (els.getD n [])) (rowExp ts (s.reg j) row)

/-- The value of a row (R184). -/
def rowReduce (v : VecDesc) (ts : TileState) (row : Nat) : Fp × NumEv :=
  let op := field v.raw 16 1; let mode := (rndOf v.rnd).getD .rne
  let els := rowElems ts row
  let u := fun j half =>
    let t := fun l => reduceAll op mode ((List.range 4).map fun g => reduceAt v ts els j row (32 * half + 8 * g + l))
    let pair := fun l => reduceOp op mode (t l) (t (l + 1))
    reduceOp op mode (reduceOp op mode (pair 0) (pair 2)) (reduceOp op mode (pair 4) (pair 6))
  reduceAll op mode ((List.range v.span).map fun j => reduceOp op mode (u j 0) (u j 1))

/-- What a marked row contributes to a column reduction (R169). -/
def markedElem (op : Nat) : Fp := if op = 2 then .inf true else if op = 3 then .inf false else .fin false Dy.zero

/-- The values of the 64 columns (R185). -/
def colReduce (v : VecDesc) (kill : List Nat) (ts : TileState) : List (Fp × NumEv) :=
  let op := field v.raw 16 1; let mode := (rndOf v.rnd).getD .rne
  let rows := (List.range 64).map fun r =>
    let els := rowElems ts r
    (List.range 64).map fun n => if kill.contains r then (markedElem op, ({} : NumEv)) else reduceAt v ts els 0 r n
  (List.range 64).map fun n => reduceAll op mode (rows.map fun l => l.getD n (.nan, {}))

/-- REDUCE. -/
def reduceExec (kill : List Nat) (v : VecDesc) (ts : TileState) : TileState × NumEv :=
  let op := field v.raw 16 1; let mode := (rndOf v.rnd).getD .rne
  let b := field v.raw 19 1
  let va := b % 8
  let put := fun (acc : TileState × NumEv) (e : Nat) (x : Fp × NumEv) =>
    let r := if bitOf b 7 then reduceOp op mode (laneFp 0 (vaEntry acc.1 va e), ({} : NumEv)) x else x
    (putVa va e (fpEncode fp32 mode r.1).1 acc.1, acc.2.add r.2)
  if field v.raw 17 1 = 1 then (colReduce v kill ts).zipIdx.foldl (fun acc (x, n) => put acc n x) (ts, {})
  else (List.range 64).foldl (fun acc row => if kill.contains row then acc else put acc row (rowReduce v ts row)) (ts, {})

/-! ### LOAD and STORE (R163) -/

/-- LOAD. DESIGN CHOICE: a row mask does not act on a LOAD or STORE that names an accumulator, whose 64 entries are no rows (R169). -/
def loadExec (t : Nat) (kill : List Nat) (v : VecDesc) (d : Device) : Device :=
  let s := v.dst.getD 0 (slotOf 0); let off := field v.raw 16 4
  if v.acc then
    onTile t (fun ts => (List.range 64).foldl (fun ts e => putVa (s.target - 16) e (storeField d t (off + 4 * e) 4) ts) ts) d
  else
    let size := if s.wide then 4 else 2
    onTile t (fun ts => (List.range (field v.raw 28 1)).foldl (fun ts row =>
      if kill.contains row then ts
      else
        let bs := storeBytes d t (off + row * field v.raw 20 4) (slotRow s v.span)
        let ts := (List.range v.span).foldl (fun ts j =>
          let half := fun k => (List.range 64).map fun n => word16 bs (size * (64 * j + n) + 2 * k)
          let ts := { ts with tregs := SMap.set [] ts.tregs (s.reg j * 64 + row) (half 0) }
          if s.wide then { ts with tregs := SMap.set [] ts.tregs ((s.reg j + 1) * 64 + row) (half 1) } else ts) ts
        if bitOf (field v.raw 29 1) 0 then putExp (s.regs v.span) row (signedOf 8 (storeField d t (field v.raw 24 4 + row) 1)) ts else ts) ts) d

/-- STORE. -/
def storeExec (t : Nat) (kill : List Nat) (v : VecDesc) (d : Device) : Device :=
  let s := v.src.getD 0 (slotOf 0); let off := field v.raw 16 4; let ts := tileOf d t
  if v.acc then storeWrite t off ((List.range 64).flatMap fun e => leBytes 4 (vaEntry ts (s.target - 16) e)) d
  else
    (List.range (field v.raw 28 1)).foldl (fun d row =>
      if kill.contains row then d
      else
        let els := rowElems ts row
        let bs := (List.range v.span).flatMap fun j => els.flatMap fun e => leBytes (if s.wide then 4 else 2) (slotElem s j e)
        let d := storeWrite t (off + row * field v.raw 20 4) bs d
        if bitOf (field v.raw 29 1) 0 then storeWrite t (field v.raw 24 4 + row) [BitVec.ofNat 8 (patternOf 8 (rowExp ts s.target row))] d else d) d

/-! ### Issue (R164, R167, R186) -/

/-- ACLK cycles of a descriptor (R186); the wait of a WAIT comes on top. -/
def vecCycles (rd : Nat → Nat → List Byte) (v : VecDesc) : Nat :=
  if v.kind = kStitch then
    let cost := ((programOf rd v).2.map fun w => stitchCost (stitchOf w.toNat)).sum
    let fx := v.dst.zipIdx.any fun (s, i) => s.used && (v.mode.getD i 0 % 4 == 1 || v.mode.getD i 0 % 4 == 3)
    5 + v.span * (4 * cost + 2) + if fx then 4 else 0
  else if v.kind = kReduce then (if field v.raw 17 1 = 1 then 72 else 12 + 10 * v.span)
  else if v.kind = kLoad ∨ v.kind = kStore then
    if v.acc then 5
    else
      let row := match v.slots with | x :: _ => slotRow x.2 v.span | [] => 0
      4 + ceilDiv (field v.raw 28 1 * (row + if bitOf (field v.raw 29 1) 0 then 1 else 0)) 256
  else 1

/-- What a STITCH, REDUCE, LOAD or STORE does, with its events counted (R182). -/
def vecEffect (t : Nat) (l : QList) (v : VecDesc) (d : Device) : Device :=
  let rd := fun off n => storeBytes d t off n
  let kill := (List.range 64).filter l.marked
  if v.kind = kStitch then
    let (consts, words) := programOf rd v
    let r := stitchExec d.freeCtr kill v consts words (tileOf d t)
    countEvents t l r.2 (onTile t (fun _ => r.1) (spend (v.span * 4096 * elemFree) d))
  else if v.kind = kReduce then
    let r := reduceExec kill v (tileOf d t)
    countEvents t l r.2 (onTile t (fun _ => r.1) d)
  else if v.kind = kLoad then loadExec t kill v d
  else storeExec t kill v d

/-- The pass at the head of the tile's pass list is ready and uses one of these registers: it issues first (R164). -/
def passFirst (d : Device) (t : Nat) (regs : List Nat) : Bool :=
  match (tileOf d t).passes with
  | [] => false
  | l :: _ =>
    let rd := fun off n => storeBytes d t off n
    let p := passDesc (rd (l.addr + 128 * l.index) 128)
    decide (p.kind ≠ kEnd) && p.regs.any regs.contains && (passFault rd l.origin (fun a => envOf (arrayOf (tileOf d t) a)) p).isNone &&
      !passHeld d.freeCtr (tileOf d t) p

/-- A descriptor waits to issue: a register it uses is held, or a ready pass uses it too (R164). -/
def vecHeld (d : Device) (t : Nat) (l : QList) (v : VecDesc) : Bool :=
  if l.origin == .fixed then !planTurn d t 3 else regsHeld d.freeCtr (tileOf d t) v.regs || passFirst d t v.regs

/-- A descriptor issues. DESIGN CHOICE: on a tile of the Fixed plane its reads and writes stand, among the moves of the bus plan, at its issue
cycle. -/
def issueVec (t : Nat) (l : QList) (v : VecDesc) (d : Device) : Device :=
  let at_ := (nextVecAt d t).getD 0
  let cycles := vecCycles (fun off n => storeBytes d t off n) v
  onTile t (fun ts =>
    { ts with vflight := some { knot := BitVec.ofNat 32 v.knot, regs := v.writes, reads := v.regs, cycles := cycles
                                done := if l.origin == .fixed then at_ + cycles else 0
                                tenant := l.tenant, job := l.job, layer := l.layer } })
    (vecEffect t l v (if l.origin == .fixed then runPlan t at_ d else d))

/-- The vector list goes on to its next descriptor. -/
def vecNext (ts : TileState) : TileState :=
  { ts with vecs := match ts.vecs with | l :: ls => { l with index := l.index + 1 } :: ls | [] => [] }

/-- The head of a tile's vector list (R160): a failed descriptor stops the list, one of the command's kind runs. -/
def seqVec (kind : Nat) (tile : Tile) (d : Device) : Device :=
  let t := tile.toNat
  let ts := tileOf d t
  if !coreAlive d || ts.vflight.isSome || ts.vwait.isSome then d
  else match ts.vecs with
    | [] => d
    | l :: _ =>
      let at_ := l.addr + 64 * l.index
      let rd := fun off n => storeBytes d t off n
      if at_ + 64 > storeSize then failList t l true 12 d
      else
        let v := vecDesc (rd at_ 64)
        match vecFault rd v with
        | some f => failList t l true f.cause d
        | none =>
          if v.kind ≠ kind then d
          else if kind = kEnd then layerCheck l.tenant l.job (onTile t (fun ts => { ts with vecs := ts.vecs.drop 1 }) d)
          else if kind = kWait then
            let k := word16 v.raw 16; let want := word32 v.raw 20
            let own := BitVec.ofNat 32 v.knot
            if condHolds (knotOf d k.toNat).value (2 ^ 32) (.atLeast want) then onTile t (fun ts => { ts with vflight := some (waitMet l own) }) d
            else onTile t (fun ts => { ts with vwait := some (k, want, own) }) d
          else if vecHeld d t l v then d
          else issueVec t l v d

/-! ### Commands -/

/-- STITCH (R170 to R182). -/
def execStitch (t : Tile) (s : State) : Out := run (fun d => seqVec kStitch t d) s

/-- REDUCE (R183 to R185). -/
def execReduce (t : Tile) (s : State) : Out := run (fun d => seqVec kReduce t d) s

/-- LOAD (R163). -/
def execLoad (t : Tile) (s : State) : Out := run (fun d => seqVec kLoad t d) s

/-- STORE (R163). -/
def execStore (t : Tile) (s : State) : Out := run (fun d => seqVec kStore t d) s

/-- WAIT (R161, R163, R330): once the knot satisfies its condition the descriptor completes, with its own knot signalled. -/
def execVectorWait (t : Tile) (s : State) : Out := run (fun d => seqVec kWait t d) s

/-- END (R160). -/
def execVectorEnd (t : Tile) (s : State) : Out := run (fun d => seqVec kEnd t d) s

/-- The last write of the descriptor in flight completes; its registers are free, its knot is signalled. -/
def completeVec (t : Nat) (d : Device) : Device :=
  match (tileOf d t).vflight with
  | none => d
  | some v =>
    if d.fix.mask.getLsbD t && !planTurn d t 1 then d
    else
      let d := onTile t (fun ts =>
        let ts := { ts with vflight := none }
        let ts := if d.fix.mask.getLsbD t then freeRegs (v.regs ++ v.reads) v.done { ts with vecAt := v.done } else ts
        if v.orphan then ts else vecNext ts) d
      layerCheck v.tenant v.job (knotSignalField v.knot.toNat d)

/-- VECTOR_DESCRIPTOR_COMPLETE (R161, R164). -/
def execVectorDescriptorComplete (t : Tile) (s : State) : Out := run (fun d => if coreAlive d then completeVec t.toNat d else d) s

/-! ### Change of owner (R155, R187) -/

/-- A tile as its next owner finds it: nothing of the last owner's is left but the power state of its arrays. -/
def wipeTile (tenant : Byte) (ts : TileState) : TileState :=
  { tenant := tenant, busyTo := ts.busyTo
    arrays := (List.range 4).foldl (fun m a => let s := arrayOf ts a; SMap.set {} m a { on := s.on, idleAt := s.idleAt }) [] }

end Sys2Proof.Machine
end

