-- ==== Sys2Proof/Machine/Skeins.lean ====
section
/-! DEFINITION. CONVERT and WPACK, and the mounting of skein images (03_numeric_formats R119 to R123; 07_compression R226 to R244). -/

namespace Sys2Proof.Machine

/-- Refuse with an 8-byte result: the length needed, or the image offset that failed (R240, R243). -/
def refuseAt (p : Packet) (st : W16) (n : Nat) (d : Device) : Device := finish p st (leBytes 8 n) d

/-- An arena reference with a length lies in its buffer: slot, buffer and offset, or the status to refuse with. -/
def spanOf (d : Device) (t : Nat) (r : Nat × Nat) (n : Nat) : Except W16 (Nat × Buffer × Nat) :=
  match bufOf d t r.1 with
  | none => .error stBadHandle
  | some (slot, b) => if r.2 ≥ b.size ∨ r.2 + n > b.size then .error stBadArgument else .ok (slot, b, r.2)

/-- A span's range fails. -/
def outOfRange : Except W16 (Nat × Buffer × Nat) → Bool
  | .error st => st == stBadArgument
  | .ok _ => false

/-- The status of several spans of which one fails: a range before a handle (R19). -/
def spanStatus (xs : List (Except W16 (Nat × Buffer × Nat))) : W16 := if xs.any outOfRange then stBadArgument else stBadHandle

/-! ### CONVERT (R119 to R122, R243) -/

/-- The arguments of CONVERT. -/
structure ConvArgs where
  n      : Nat
  k      : Nat
  tensor : Nat
  srcFmt : FpFmt
  target : Nat
  group  : Nat
  search : Bool
deriving DecidableEq, Repr

/-- Elements of the source, row-major. -/
def convSource (f : FpFmt) (bs : List Byte) (n : Nat) : List Fp :=
  let w := f.width / 8
  (List.range n).map fun i => fpDecode f (field bs (w * i) w)

/-- A finite value. -/
def isFinite : Fp → Bool
  | .fin _ _ => true
  | _ => false

/-- Group scales of one output channel, in order, each with its saturation flag (R97, R121). -/
def channelGroups (c : ConvArgs) (row : List Dy) : List (Nat × Bool) :=
  let g := 32 * 2 ^ c.group
  (List.range (ceilDiv c.k g)).map fun j => groupScale (codeBits c.target) c.search ((row.drop (g * j)).take g)

/-- The group scale block of a tile (R103): entry 2n and 2n + 1 of channel n. -/
def scaleBlock (c : ConvArgs) (kt kts : Nat) (scales : List (List (Nat × Bool))) : List Byte :=
  let entry := fun (row : List (Nat × Bool)) i => match row[i]? with | some s => s.1 | none => 0
  (List.range 64).flatMap fun n =>
    let row := scales.getD n []
    let (a, b) :=
      if c.target = 0x10 then (0, 0)
      else if c.group = 0 then (entry row (2 * kt), entry row (2 * kt + 1))
      else if c.group = 1 then (entry row kt, 0)
      else (if kt % 2 = 1 ∨ kt + 1 = kts then entry row (kt / 2) else 0, 0)
    leBytes 2 a ++ leBytes 2 b

/-- The code row of a channel in a tile, with the saturations it counts (R96, R122). -/
def codeRow (c : ConvArgs) (kt : Nat) (row : List Dy) (scales : List (Nat × Bool)) : List Byte × Nat :=
  let ks := (List.range 64).map fun i => kt * 64 + i
  if c.target = 0x10 then
    let vs := ks.map fun k => match row[k]? with | some w => fpEncode bf16 .rne (fpOf w) | none => (0, false)
    (vs.flatMap fun v => leBytes 2 v.1, (vs.filter (·.2)).length)
  else
    let q := qmax (codeBits c.target)
    let vs := ks.map fun k => match row[k]? with
      | some w =>
        let r := quantRaw w (gsValue (match scales[k / (32 * 2 ^ c.group)]? with | some s => s.1 | none => 0x8000))
        (clampInt (-q) q r, decide (r < -q ∨ r > q))
      | none => (0, false)
    (packCodes (codeBits c.target) 64 (vs.map (·.1)), (vs.filter (·.2)).length)

/-- One array-ready tile (R102, R108, R122) with the saturations of its codes. -/
def convTile (c : ConvArgs) (nt kt kts : Nat) (rows : List (List Dy)) (scales : List (List (Nat × Bool))) (chan : List Nat) :
    List Byte × Nat :=
  let codes := (List.range 64).map fun n => codeRow c kt (rows.getD n []) (scales.getD n [])
  let chans := (List.range 64).flatMap fun n => leBytes 2 (if kt = 0 then chan.getD n 0 else 0)
  ([BitVec.ofNat 8 c.target, BitVec.ofNat 8 (if c.target = 0x10 then 3 else c.group),
      (if kt = 0 then 1 else 0) ||| (if kt + 1 = kts then 2 else 0), 0] ++
    leBytes 2 (min 64 (c.n - 64 * nt)) ++ leBytes 2 (min 64 (c.k - 64 * kt)) ++ leBytes 4 kt ++ leBytes 4 nt ++ leBytes 4 c.tensor ++
    zeros 44 ++ scaleBlock c kt kts scales ++ chans ++ codes.flatMap (·.1), (codes.map (·.2)).sum)

/-- Every tile in the order of R122, with the saturations of scales and codes (R101, R118). -/
def convTiles (c : ConvArgs) (vals : List Dy) (chan : List (Nat × Bool)) : List Byte × Nat :=
  let kts := ceilDiv c.k 64
  let blocks := (List.range (ceilDiv c.n 64)).map fun nt =>
    let rows := (List.range (min 64 (c.n - 64 * nt))).map fun n => (vals.drop ((64 * nt + n) * c.k)).take c.k
    let scales := if c.target = 0x10 then [] else rows.map (channelGroups c)
    let tiles := (List.range kts).map fun kt => convTile c nt kt kts rows scales (((chan.drop (64 * nt)).take 64).map (·.1))
    (tiles.flatMap (·.1), (tiles.map (·.2)).sum + (scales.map fun s => (s.filter (·.2)).length).sum)
  (blocks.flatMap (·.1), (blocks.map (·.2)).sum + (chan.filter (·.2)).length)

/-- A channel scale from its FP32 pattern; none where it is zero, negative or not finite (R119). -/
def chanScale (v : Fp) : Option (Nat × Bool) :=
  match v with
  | .fin false m => if m.isZero then none else
      some (if 0 ≤ m.e then gsRound (m.m.natAbs * 2 ^ m.e.toNat) 1 else gsRound m.m.natAbs (2 ^ (-m.e).toNat))
  | _ => none

/-- Saturations go to the counters of the tile whose stream engine does the work: one of the tenant's, which one is left open. -/
def countConvert (t : Nat) (sat : Nat) (d : Device) : Device :=
  match partOf d t with
  | none => d
  | some q =>
    let ts := maskList 32 q.tileMask.toNat
    match ts[Config.freeNat d.freeCtr % ts.length]? with
    | some k => spend 1 (onTile k (fun x => { x with sat := satAdd32 x.sat sat }) d)
    | none => d

/-- The source, the destination and the scale vector overlap (R243). -/
def spansMeet (a b : Nat × Nat × Nat) : Bool := a.1 == b.1 && rangesMeet a.2.1 a.2.2 b.2.1 b.2.2

/-- CONVERT. -/
def convert (p : Packet) (b : List Byte) (d : Device) : Device :=
  let t := p.hdr.tenant.toNat
  let n := field b 24 4; let k := field b 28 4; let destLen := field b 32 4
  let srcT := field b 40 1; let tgt := field b 41 1; let group := field b 42 1; let search := field b 43 1
  if (srcT ≠ 0x10 ∧ srcT ≠ 0x11) ∨ (weightTileSize tgt).isNone ∨ (tgt ≠ 0x10 ∧ group > 2) ∨ search > 1 ∨ n = 0 ∨ k = 0 then
    refuse p stBadArgument d
  else
    let c : ConvArgs := { n := n, k := k, tensor := field b 36 4, srcFmt := if srcT = 0x10 then bf16 else fp32, target := tgt,
                          group := group, search := search == 1 }
    let srcLen := n * k * (c.srcFmt.width / 8)
    let vec := field b 16 4 ≠ 0
    let src := spanOf d t (arenaRef b 0) srcLen
    let dst := spanOf d t (arenaRef b 8) destLen
    let vsp := if vec then spanOf d t (arenaRef b 16) (4 * n) else src
    match src, dst, vsp with
    | .ok (ss, sb, so), .ok (ds, db, dd), .ok (vs, vb, vo) =>
      let need := ceilDiv n 64 * ceilDiv k 64 * tileBytes tgt
      if spansMeet (ss, so, srcLen) (ds, dd, destLen) || (vec && spansMeet (vs, vo, 4 * n) (ds, dd, destLen)) then
        refuse p stBadArgument d
      else if hostHeld sb so srcLen then holdOnHost p t ss sb so srcLen d
      else if vec ∧ hostHeld vb vo (4 * n) then holdOnHost p t vs vb vo (4 * n) d
      else withSources p (headerDeadline p) ((sb, so, srcLen) :: if vec then [(vb, vo, 4 * n)] else []) (fun bytes d =>
        let vals := convSource c.srcFmt (bytes.take srcLen) (n * k)
        let chan := if vec then (convSource fp32 (bytes.drop srcLen) n).map chanScale else List.replicate n (some (0, false))
        if !vals.all isFinite || chan.any (·.isNone) then refuse p stBadArgument d
        else if isMounted d t ds db.gen then refuse p stSkeinBusy d
        else if need > destLen then refuseAt p stDestShort need d
        else if hostHeld db dd destLen then holdOnHost p t ds db dd destLen d
        else
          let (bytes, sat) := convTiles c (vals.map fpVal) (chan.filterMap id)
          let d := countConvert t sat (touch t ds db dd bytes.length (touch t ss sb so srcLen (bufWrite t ds db dd bytes d)))
          finish p stOK (leBytes 8 need ++ leBytes 4 (need / tileBytes tgt) ++ zeros 4) d) d
    | _, _, _ => refuse p (spanStatus [src, dst, vsp]) d

def execConvert (r : Ref) (s : State) : Out := run (runOp (memSpec 0x0300 48 [(44, 4)]) r convert) s

/-! ### WPACK (R243) -/

/-- Every tile of a decoded stream passes R105 and carries the format and group of the first. -/
def tilesOk (bs : List Byte) (size count : Nat) : Bool :=
  (List.range count).all fun i =>
    (hdrFault (slice bs (i * size) 64)).isNone && slice bs (i * size) 2 == slice bs 0 2

/-- Every symbol of a decoded stream has a codeword. -/
def symbolsCoded (lens : List Nat) (size : Nat) (bs : List Byte) : Bool :=
  bs.zipIdx.all fun (b, x) => isLiteral size x || decide (lens.getD b.toNat 0 ≠ 0)

/-- WPACK. -/
def wpack (p : Packet) (b : List Byte) (d : Device) : Device :=
  let t := p.hdr.tenant.toNat
  let n := field b 24 4; let destLen := field b 28 4
  let from_ := spanOf d t (arenaRef b 0) n
  let dst := spanOf d t (arenaRef b 8) destLen
  let tab := spanOf d t (arenaRef b 16) 128
  match from_, dst, tab with
  | .ok (ss, sb, so), .ok (ds, db, dd), .ok (vs, vb, vo) =>
    if spansMeet (ss, so, n) (ds, dd, destLen) || spansMeet (vs, vo, 128) (ds, dd, destLen) then refuse p stBadArgument d
    else if hostHeld sb so n then holdOnHost p t ss sb so n d
    else if hostHeld vb vo 128 then holdOnHost p t vs vb vo 128 d
    else withSources p (headerDeadline p) [(sb, so, n), (vb, vo, 128)] (fun bytes d =>
      let src := bytes.take n
      let tbl := bytes.drop n
      let fmt := field src 0 1
      let size := tileBytes fmt
      if n = 0 ∨ (weightTileSize fmt).isNone ∨ n % size ≠ 0 ∨ !tilesOk src size (n / size) ∨ !tableOk (codeLengths tbl) ∨
          !symbolsCoded (codeLengths tbl) size src then refuse p stBadArgument d
      else if isMounted d t ds db.gen then refuse p stSkeinBusy d
      else if hostHeld db dd destLen then holdOnHost p t ds db dd destLen d
      else
        let (out, stored, empty) := packContainer fmt (field src 1 1) (field src 16 4) tbl src
        if out.length > destLen then refuseAt p stDestShort out.length d
        else
          finish p stOK (leBytes 8 out.length ++ leBytes 4 stored ++ leBytes 4 empty)
            (touch t ds db dd out.length (touch t ss sb so n (bufWrite t ds db dd out d)))) d
  | _, _, _ => refuse p (spanStatus [from_, dst, tab]) d

def execWpack (r : Ref) (s : State) : Out := run (runOp (memSpec 0x0301 32) r wpack) s

/-! ### SKEIN_MOUNT (R239, R240) -/

/-- Check 1: the header and the directory. -/
def skeinHeader (bufLen : Nat) (b : List Byte) : Option Nat :=
  let s := field b 4 4; let len := field b 8 8
  firstBad ([(decide (bufLen < 64 ∨ field b 0 4 ≠ 1), 0), (decide (s = 0 ∨ s > 64), 4), (decide (len > bufLen ∨ len < 64 + 16 * s), 8),
    (decide (field b 16 4 / 2 ≠ 0), 16)] ++ nonZeroAt b 20 12 ++
    (if field b 16 4 = 0 then nonZeroAt b 32 32 else []) ++
    (List.range (min s 64)).flatMap fun i =>
      let e := 64 + 16 * i
      [(decide (field b e 2 = 0 ∨ field b e 2 > 7), e), (decide (field b (e + 4) 4 > len), e + 4),
       (decide (field b (e + 4) 4 + field b (e + 8) 8 > len), e + 8)])

/-- Check 2 on a container (R226, R227, R229). -/
def containerFault (rd : Nat → Nat → List Byte) (len at_ : Nat) : Option Nat :=
  let h := contHdr rd at_; let b := rd at_ 64
  let index := fun i => indexEntry rd at_ i
  (firstBad ([(decide (at_ + 196 > len) || decide (field b 0 2 ≠ 1), at_), ((weightTileSize h.format).isNone, at_ + 2),
    (decide (h.group > 3 ∨ (h.group = 3 ∧ h.format ≠ 0x10) ∨ (h.group ≠ 3 ∧ h.format = 0x10)), at_ + 3),
    (decide (h.decoded = 0 ∨ h.decoded % tileBytes h.format ≠ 0), at_ + 8), (decide (h.blocks ≠ ceilDiv h.decoded codecBlock), at_ + 16),
    (decide (h.payOff ≠ roundUp (196 + 4 * h.blocks) 64), at_ + 20), (decide (h.payLen % 16 ≠ 0 ∨ at_ + h.payOff + h.payLen > len), at_ + 24)] ++
    (nonZeroAt b 32 32).map (fun x => (x.1, at_ + x.2)))).orElse fun _ =>
  firstBad ([(!tableOk (codeLengths (rd (at_ + 64) 128)), at_ + 64)] ++
    ((List.range h.blocks).map fun i =>
      (decide ((index i).1 = 3 ∨ (index i).2 > (index (i + 1)).2) || (decide ((index i).1 = 2) && decide ((index i).2 ≠ (index (i + 1)).2)),
       at_ + 192 + 4 * i)) ++
    [(decide (index h.blocks ≠ (0, h.payLen / 16)), at_ + 192 + 4 * h.blocks)] ++
    ((List.range (h.payOff - (196 + 4 * h.blocks))).map fun i =>
      let o := at_ + 196 + 4 * h.blocks + i; ((rd o 1).getD 0 0 != 0, o)))

/-- The containers of a type-3 section, one after the other (R226, R239): DESIGN CHOICE, as no rule gives the gaps between them. -/
def sectionContainers (rd : Nat → Nat → List Byte) : Nat → Nat → List Nat
  | 0, _ => []
  | n + 1, at_ => let h := contHdr rd at_; at_ :: sectionContainers rd n (at_ + h.payOff + h.payLen)

/-- The containers that an image's directory lists: those of its type-3 sections, as many as the entry counts (R239). -/
def listedContainers (rd : Nat → Nat → List Byte) : List Nat :=
  let b := rd 0 1088
  (List.range (min 64 (field b 4 4))).flatMap fun i =>
    let e := 64 + 16 * i
    if field b e 2 = 3 then sectionContainers rd (field b (e + 2) 2) (field b (e + 4) 4) else []

/-- Check 3: the stream plan meets R206, R212 and R214 and names codec modes of R234; its calibration values are those of R113. -/
def planFault (p : Plan) : Option Nat :=
  let bad := p.modes.any (fun m => decide (m > 2)) || planBreaks p || (p.atomics.any fun a => decide (a.drain ≠ 0x11)) ||
    decide (p.sites.length > 4096) || p.sites.any fun s => decide (s.h > 3 ∨ s.x < -128 ∨ s.x > 127)
  if bad then some p.planAt else none

/-- What a template's descriptor is checked against: weights and arrays as it needs them. -/
def templateEnv (p : PassDesc) : PassEnv :=
  let fmt := if p.actType = 0x10 then 0x10 else 0x04
  { loaded := some { format := fmt, group := if fmt = 0x10 then 3 else 0, loadCs := true, lastK := true, validN := 64, validK := 64,
                     ktile := 0, ntile := 0, tensor := 0 }
    carry := some (p.accId, p.rows, BitVec.ofNat 4 p.mask), hist := some p.c }

/-- Bytes of a tile that R105 accepts, of the format that a template's activations ask for. -/
def templateTile (p : PassDesc) (_ n : Nat) : List Byte :=
  padTo n [if p.actType = 0x10 then 0x10 else 0x04, if p.actType = 0x10 then 3 else 0, 3, 0, 64, 0, 64, 0]

/-- Check 4: the tile headers and the templates that the plan names. -/
def templateFault (rd : Nat → Nat → List Byte) (p : Plan) : Option Nat :=
  (p.tileHdrs.findSome? fun o => (hdrFault (rd o 64)).map (o + ·)).orElse fun _ =>
  (p.passTpl.findSome? fun o =>
    let x := passDesc (rd o 128)
    (passFault (templateTile x) .skein (fun _ => templateEnv x) x).map fun f => o + f.field).orElse fun _ =>
  p.vecTpl.findSome? fun o => (vecFault (fun _ n => zeros n) (vecDesc (rd o 64))).map fun f => o + f.field

/-- Check 5: an adapter's base is mounted and the tenant may use it. -/
def baseKnown (d : Device) (t : Byte) (base : List Byte) : Bool :=
  d.mem.skeins.any fun s => s.2.digest == base && !s.2.adapter && mayUse d t s.1

/-- The image offset behind the first check of R240 that fails. -/
def skeinFault (d : Device) (t : Byte) (bufLen : Nat) (img : List Byte) : Option Nat :=
  let rd := fun o n => slice img o n
  (skeinHeader bufLen img).orElse fun _ =>
    let plan := Config.skeinPlan img
    ((listedContainers rd ++ plan.containers).findSome? (containerFault rd img.length)).orElse fun _ =>
    (planFault plan).orElse fun _ => (templateFault rd plan).orElse fun _ =>
      if bitOf (field img 16 4) 0 && !baseKnown d t (slice img 32 32) then some 32 else none

/-- The result of SKEIN_MOUNT and SKEIN_INFO (R242). -/
def skeinResult (id : Nat) (s : Skein) : List Byte :=
  leBytes 2 id ++ leBytes 2 s.sections ++ zeros 4 ++ leBytes 8 s.length ++ s.digest

/-- SKEIN_MOUNT. -/
def skeinMount (p : Packet) (b : List Byte) (d : Device) : Device :=
  let t := p.hdr.tenant
  match spanOf d t.toNat (arenaRef b 0) 1 with
  | .error st => refuse p st d
  | .ok (slot, buf, off) =>
    let room := buf.size - off
    if (d.mem.skeins.filter fun s => s.2.tenant == t).length ≥ 64 then refuse p stSkeinLimit d
    else if hostHeld buf off room then holdOnHost p t.toNat slot buf off room d
    else
      let hdr := bufRead d buf off (min room 1088)
      match bufBad d buf off (min room (max 1088 (field hdr 8 8))), skeinHeader room hdr with
      | some x, _ => failBlock p x d
      | none, some o => refuseAt p stSkeinInvalid o d
      | none, none =>
        let img := bufRead d buf off (field hdr 8 8)
        match skeinFault d t room img with
        | some o => refuseAt p stSkeinInvalid o d
        | none =>
          let id := firstGap 0 d.mem.skeins
          let s : Skein := { tenant := t, handle := word32 b 0, off := off, length := img.length, sections := field img 4 4,
                             digest := digest32 img, adapter := bitOf (field img 16 4) 0, base := slice img 32 32,
                             plan := Config.skeinPlan img, shared := 0 }
          finish p stOK (skeinResult id s) { d with mem.skeins := Assoc.insert d.mem.skeins id s }

def execSkeinMount (r : Ref) (s : State) : Out := run (runOp (memSpec 0x0302 8) r skeinMount) s

/-- A job uses a skein, or a mounted adapter names it as base (R241). -/
def skeinInUse (d : Device) (id : Nat) (s : Skein) : Bool :=
  d.serve.jobs.any (fun j => j.2.main == id || j.2.adapter == some id || j.2.draft == some id) ||
  d.mem.skeins.any fun x => x.1 != id && x.2.adapter && x.2.base == s.digest

/-- SKEIN_UNMOUNT (R241). -/
def skeinUnmount (p : Packet) (b : List Byte) (d : Device) : Device :=
  let id := field b 0 2
  match (Assoc.find d.mem.skeins id).filter fun s => s.tenant == p.hdr.tenant with
  | none => refuse p stBadArgument d
  | some s => if skeinInUse d id s then refuse p stSkeinBusy d
    else complete p { d with mem.skeins := Assoc.erase d.mem.skeins id }

def execSkeinUnmount (r : Ref) (s : State) : Out := run (runOp (memSpec 0x0303 4 [(2, 2)]) r skeinUnmount) s

/-- SKEIN_INFO (R242). -/
def skeinInfo (p : Packet) (b : List Byte) (d : Device) : Device :=
  let id := field b 0 2
  match Assoc.find d.mem.skeins id with
  | some s => if mayUse d p.hdr.tenant id then finish p stOK (skeinResult id s) d else refuse p stBadArgument d
  | none => refuse p stBadArgument d

def execSkeinInfo (r : Ref) (s : State) : Out := run (runOp (memSpec 0x0304 4 [(2, 2)]) r skeinInfo) s

end Sys2Proof.Machine
end

