-- ==== Sys2Proof/Machine/Steps.lean ====
section
/-! DEFINITION. The step scheduler (09_serving R286 to R298), page needs and parks (08_attention_kv R261 to R264), the walks of
attention (R265 to R269), and what twin mode adds to a step (16_determinism_audit R496 to R498). -/

namespace Sys2Proof.Machine

/-! ### Token choice (R291) -/

/-- log2 e × 2^256, rounded down. -/
abbrev log2e : Nat := 167052672916848388242985626561247531987276682633131050150846402744536260568207

/-- log2(e) / temperature, rounded once to FP32. -/
def sampleScale (temp : Fp) : Fp :=
  match temp with
  | .fin _ m => laneFp 0 (roundFp 0 .rne (.fin false ⟨2 * (log2e * 2 ^ 100 / m.m.natAbs : Nat) + 1, -357 - m.e⟩)).1
  | _ => .nan

/-- One FP32 operation rounded with RNE. -/
def rne32 (x : Fp) : Fp := laneFp 0 (roundFp 0 .rne x).1

/-- A logit; a NaN counts as −∞. -/
def logitOf (w : W32) : Fp := match fpDecode fp32 w.toNat with | .nan => .inf true | x => x

/-- The largest logit, the lowest token ID among equals. -/
def greedyToken (row : List Fp) : Nat :=
  (row.zipIdx.foldl (fun (best : Option (Fp × Nat)) x => match best with
    | none => some x
    | some b => if fpLt b.1 x.1 then some x else some b) none).elim 0 (·.2)

/-- Running sums of weights. -/
def cumulate : Fp → List Fp → List Fp
  | _, [] => []
  | acc, w :: ws => let c := rne32 (fpAdd .rne acc w); c :: cumulate c ws

/-- The random number of a position, 0 to 2^24 − 1. -/
def sampleDraw (seed : W64) (seq pos : Nat) : Nat := field (digest32 (leBytes 8 seed.toNat ++ leBytes 2 seq ++ leBytes 4 pos)) 0 3

/-- Sample among the top-k logits. -/
def sampleToken (r : Request) (pos : Nat) (row : List Fp) : Nat :=
  let cand := (row.zipIdx.mergeSort fun a b => fpLt b.1 a.1 || (!fpLt a.1 b.1 && decide (a.2 ≤ b.2))).take r.topK
  let c := sampleScale (fpDecode fp32 r.temp.toNat)
  let l0 := (cand.headD (.nan, 0)).1
  let ws := cand.map fun x => rne32 (fpFunction 0x16 (rne32 (fpMul (rne32 (fpAdd .rne x.1 (fpFlip l0))) c)))
  let cums := cumulate (.fin false Dy.zero) ws
  let h := rne32 (fpMul (.fin false ⟨sampleDraw r.seed r.seq pos, -24⟩) (cums.getLastD .nan))
  match (cand.zip cums).find? fun x => fpLt h x.2 with
  | some x => x.1.2
  | none => (cand.getLastD (.nan, 0)).2

/-- The token that a request chooses for a position from a row of logits. -/
def chooseToken (r : Request) (pos : Nat) (row : List W32) : W32 :=
  let fps := row.map logitOf
  BitVec.ofNat 32 (if r.sample then sampleToken r pos fps else greedyToken fps)

/-! ### Composition (R288, R289) -/

/-- Bytes of a request's input. -/
def inputBytes (d : Device) (r : Request) : Nat :=
  match jobOf d (BitVec.ofNat 8 r.tenant) r.job with | some j => inputLen (planOf d j.main) r | none => 0

/-- The ranges of a request's input and output that the host tier holds (R202). -/
def ioHeld (d : Device) (r : Request) : List (Nat × Nat × Buffer × Nat × Nat) :=
  let range := fun (h off : W32) (n : Nat) => match bufOf d r.tenant h.toNat with | some (slot, b) => [(r.tenant, slot, b, off.toNat, n)] | none => []
  heldOf (range r.inHandle r.inOff (inputBytes d r) ++ range r.outHandle r.outOff r.outLen)

/-- A request is ready for a step but for its buffers: not ended, not parked, and admitted on both modules of a twin job (R286, R496). -/
def isReadyReq (r : Request) : Bool := r.ending.isNone && !r.twinWait && decide (1 ≤ r.state ∧ r.state ≤ 3)

/-- A request may take part in a step: ready, with input and output in the device (R202). -/
def isEligible (d : Device) (r : Request) : Bool := isReadyReq r && (ioHeld d r).isEmpty

/-- The state a request runs in, behind a park. -/
def runState (r : Request) : Nat := if r.state = 4 then r.back else r.state

/-- Order of scheduling: left out of the last step, then deadline, then admission. -/
def schedBefore (a b : Ref × Request) : Bool :=
  if a.2.leftOut != b.2.leftOut then a.2.leftOut
  else decide (a.2.deadline < b.2.deadline) || (decide (a.2.deadline = b.2.deadline) && decide (a.2.order ≤ b.2.order))

/-- Committed positions that a request stands on. -/
def basePos (d : Device) (r : Request) : Nat := match seqOf d r.seq with | some s => s.committed | none => r.fed

/-- DECODE requests in order while their rows fit; the rest are left out. -/
def takeDecode (d : Device) : Nat → List (Ref × Request) → List StepRows
  | _, [] => []
  | left, x :: rest =>
    let n := 1 + x.2.depth
    if n > left then []
    else { ref := x.1, n := n, pos := basePos d x.2, prefill := false, depth := x.2.depth } :: takeDecode d (left - n) rest

/-- PREFILL requests with their chunks. -/
def takePrefill (d : Device) : Nat → List (Ref × Request) → List StepRows
  | _, [] => []
  | left, x :: rest =>
    let remain := x.2.inCount - x.2.fed
    let n := if remain ≤ left then remain else left / 64 * 64
    if n = 0 then takePrefill d left rest
    else { ref := x.1, n := n, pos := basePos d x.2, prefill := true, depth := 0 } :: takePrefill d (left - n) rest

/-- The rows of a step over some requests (R288). -/
def composeRows (d : Device) (j : Job) (reqs : List (Ref × Request)) : List StepRows :=
  let dec := (reqs.filter fun x => decide (runState x.2 = 3)).mergeSort schedBefore
  let pre := (reqs.filter fun x => decide (runState x.2 ≠ 3)).mergeSort schedBefore
  let rows := takeDecode d (if pre.isEmpty then j.budget else j.budget - j.prefillMin) dec
  rows ++ takePrefill d (j.budget - (rows.map (·.n)).sum) pre

/-! ### Page needs and parks (R261, R262) -/

/-- Pages that a request's rows need, in its sequence and its companion. -/
def rowNeed (d : Device) (x : StepRows) : Nat :=
  match reqOf d x.ref with
  | none => 0
  | some r => pageNeed d r.seq (x.pos + x.n) +
    (match (seqOf d r.seq).bind (·.companion) with | some c => pageNeed d c (x.pos + x.n) | none => 0)

/-- A request parks (R261, R262). -/
def parkForPages (ref : Ref) (d : Device) : Device :=
  match reqOf d ref with
  | none => d
  | some r =>
    if r.state = 4 then d
    else
      let d := onSeq r.seq (fun s => { s with parked := some d.clock }) d
      let d := onPool r.tenant (fun q => { q with parks := satAdd32 q.parks 1 }) d
      setReqState ref 4 (onReq ref (fun r => { r with back := r.state, parks := r.parks + 1 }) d)

/-- A parked request leaves the park. -/
def unparkPages (ref : Ref) (d : Device) : Device :=
  match reqOf d ref with
  | none => d
  | some r => match (seqOf d r.seq).bind (·.parked) with
    | none => d
    | some at_ =>
      let us := (d.clock - at_) / 1000
      let d := onSeq r.seq (fun s => { s with parked := none }) d
      let d := onPool r.tenant (fun q => { q with longest := if us > q.longest.toNat then BitVec.ofNat 32 (min us 0xFFFF_FFFF) else q.longest }) d
      setReqState ref r.back d

/-- Serve the needs in order: whether an earlier need went uncovered, and the requests that park. A need is covered by the request's own
reservation and by pages that no reservation holds (R284). -/
def serveNeed (x : StepRows) (st : Bool × List Ref × Device) : Bool × List Ref × Device :=
  let (blocked, parked, d) := st
  match reqOf d x.ref with
  | none => st
  | some r =>
    let need := rowNeed d x
    if need = 0 then (blocked, parked, unparkPages x.ref d)
    else
      let q := poolOf d r.tenant
      let own := min need r.reserve
      if blocked ∨ need - own > freePages q - q.reserved then (true, parked ++ [x.ref], parkForPages x.ref d)
      else
        let d := onPool r.tenant (fun q => { q with reserved := q.reserved - own }) (onReq x.ref (fun r => { r with reserve := r.reserve - own }) d)
        let d := growSeq r.seq (x.pos + x.n) d
        let d := match (seqOf d r.seq).bind (·.companion) with | some c => growSeq c (x.pos + x.n) d | none => d
        (blocked, parked, unparkPages x.ref d)

/-- Requests of a tenant whose sequences are parked for pages, oldest park first (R261). -/
def parkedReqs (d : Device) (t : Nat) : List (Ref × Request) :=
  let since := fun (x : Ref × Request) => (seqOf d x.2.seq).bind (·.parked)
  (d.serve.reqs.filter fun x => x.2.tenant == t && x.2.ending.isNone && x.2.state == 4 && (since x).isSome).mergeSort
    fun a b => decide ((since a).getD 0 ≤ (since b).getD 0)

/-- The rows with which a parked request would come back: those that its job's step would give it alone. -/
def backRows (d : Device) (x : Ref × Request) : List StepRows :=
  match jobOf d (BitVec.ofNat 8 x.2.tenant) x.2.job with
  | some j => composeRows d j [x]
  | none => []

/-- The parked sequences of a pool are offered pages at a step start, oldest park first (R261, R262). -/
def offerParked (t : Nat) (d : Device) : Device :=
  ((parkedReqs d t).foldl (fun st x => (backRows st.2.2 x).foldl (fun st y => serveNeed y st) st) (false, [], d)).2.2

/-- The rows of a job's step with their needs served in the scheduler's order. A sequence whose need is not covered parks, with every later
one that has a need, and takes no rows: the step is composed again without it (R261, R288). Also the requests that parked. -/
def composeServed (j : Job) (cands : List (Ref × Request)) : Nat → Bool × List Ref × Device → List StepRows × List Ref × Device
  | 0, st => ([], st.2)
  | fuel + 1, (blocked, parked, d) =>
    let rows := composeRows d j (cands.filter fun x => !parked.contains x.1)
    let st := rows.foldl (fun st x => serveNeed x st) (blocked, parked, d)
    if st.2.1.length = parked.length then (rows, st.2) else composeServed j cands fuel st

/-! ### START (R257, R286, R287, R290) -/

/-- Layers of the draft skein's sub-steps, and of the main skein, in the order in which a step runs them, each with its adapter's lists
(R287, R497). -/
def stepLabels (d : Device) (j : Job) (subs : Nat) : List (List Nat) :=
  let main := (planOf d j.main).layers.length
  let ad := match j.adapter.bind (Assoc.find d.mem.skeins) with | some a => a.plan.adapterLayers | none => []
  let dr := match j.draft with | some k => (planOf d k).layers.length | none => 0
  ((List.range subs).flatMap fun _ => (List.range dr).map fun l => [2 * 65536 + l]) ++
  (List.range main).map fun l => if ad.contains l then [l, 65536 + l] else [l]

/-- Draft sub-steps of a step: the depth, and one for extra draft rows alone (R296, R297). -/
def subSteps (rows : List StepRows) : Nat := max ((rows.map (·.depth)).foldl max 0) (if rows.any (·.extra) then 1 else 0)

/-- Estimated cycles of a step (R290): per-token and fixed cycles of every layer it runs. -/
def stepCycles (d : Device) (j : Job) (subs n : Nat) : Nat :=
  planCycles (planOf d j.main) n + (match j.adapter with | some a => planCycles (planOf d a) n | none => 0) +
  (match j.draft with | some k => subs * planCycles (planOf d k) n | none => 0)

/-- D_step (R290). -/
def stepDeadline (d : Device) (j : Job) (rows : List StepRows) (subs : Nat) : Option Nat :=
  let ends := (rows.filterMap fun x => (reqOf d x.ref).map (·.deadline)).filter (· ≠ noDeadline)
  match ends with
  | [] => none
  | e :: es =>
    let n := (rows.map (·.n)).sum
    let est := stepCycles d j subs n * (100 + d.serve.slack.toNat) * 5 / (4 * 100)
    some (min (wallNow d + d.mem.margin.toNat * 1000 + est) (es.foldl min e))

/-- The home tiles on this device zero the destination rows of every ATOMIC tensor that a step of `n` rows will produce (R214, R215). -/
def zeroAtomics (d : Device) (j : Job) (n : Nat) : Device :=
  ((jobPlans d j).flatMap (·.2.atomics)).foldl (fun d a =>
    match homeTile d j a with
    | some t => if (homeStage j a).all fun s => s.device == ownId d then storeWrite t a.dest (zeros (a.rowBytes * min n a.rows)) d else d
    | none => d) d

/-- Every tile's walks pin the pages of the snapshots (R260). DESIGN CHOICE: the walks of a step on a tile pin a page once, so that 16 bits
hold every count (R252). -/
def pinSnaps (t : Nat) (j : Job) (snaps : List SeqSnap) (d : Device) : List (Nat × List Nat) × Device :=
  let pages := ((snaps.flatMap fun s => s.entries.map (·.1)).filter (· ≠ noPage)).eraseDups
  if pages.isEmpty then ([], d)
  else
    let tiles := tilesOf j.tiles
    (tiles.map fun k => (k, pages), tiles.foldl (fun d _ => pages.foldl (fun d k => pinPage t k d) d) d)

/-- Tags of the requests of a step, which name their sequences on both modules (R496). -/
def tagsOf (rows : List StepRows) : List W16 := rows.map fun x => x.ref.tag

/-- Requests that a step could take: those of R288, in a twin follower those its leader chose (R496). -/
def candidates (d : Device) (t : Byte) (jid : W32) (j : Job) : List (Ref × Request) :=
  let all := (reqsOf d t jid).filter fun x => isEligible d x.2
  if j.twinned && !j.leader then
    match j.leadRows with
    | some (tags, _, parked) => all.filter fun x => tags.contains x.1.tag && !parked.contains x.1.tag
    | none => []
  else all

/-- Requests of a job that only host-tier buffers keep out of its step are held by them; others are not (R202). -/
def holdRequests (t : Byte) (jid : W32) (d : Device) : Device :=
  (reqsOf d t jid).foldl (fun d x =>
    if isReadyReq x.2 && !(ioHeld d x.2).isEmpty then holdUnit (.request x.1) x.2.tenant (ioHeld d x.2) d
    else if x.2.ending.isNone then dropHold (.request x.1) d else d) d

/-! ### Stages on other devices (R349, R357, R358) -/

/-- Whether a layer of the step is a draft sub-step's, and its number in its own skein. -/
def ownLayer (st : StepRun) (l : Nat) : Bool × Nat :=
  let x := (st.labels.getD l []).headD 0
  (decide (x / 65536 = 2), x % 65536)

/-- The stage that holds a main layer, when it lies on another device (R358). -/
def remoteStage (d : Device) (j : Job) (st : StepRun) (l : Nat) : Bool :=
  let (draft, n) := ownLayer st l
  !draft && j.stages.any fun s => s.device != ownId d && decide (s.first ≤ n ∧ n ≤ s.last)

/-- The rows of a step as a work unit names them. -/
def shadowRowsOf (st : StepRun) : List ShadowRows :=
  st.walkRows.map fun w => { seq := BitVec.ofNat 16 w.seq, pos := w.pos, n := w.n, prefill := w.prefill, gone := w.gone }

/-- The next layer of a step begins a stage on another device: the manager sends it the activations and the work unit (R349, R357). DESIGN
CHOICE: both go out when the step comes to the stage, as no rule says when. -/
def dispatchStage (t : Byte) (jid : W32) (d : Device) : Device :=
  match jobOf d t jid with
  | none => d
  | some j => match j.step with
    | none => d
    | some st =>
      let (draft, n) := ownLayer st st.layer
      match j.stages.find? fun s => s.device != ownId d && s.first == n with
      | some s =>
        if draft || j.manager.isSome || decide (st.total ≤ st.layer) then d
        else
          let msg := fun kind body => ({ kind := kind, dest := s.device, tenant := t, job := jid, epoch := j.epoch, body := body } : OutMsg)
          let d := (stepActivations d j st (if n = 0 then none else some (n - 1))).foldl (fun d x => sendMsg (msg 3 (.data x)) d) d
          sendMsg (msg 2 (.work s.first (s.last + 1 - s.first) st.dstep (shadowRowsOf st) st.snapMain)) d
      | none => d

/-- The draft companion of a request's sequence. -/
def companionOf (d : Device) (r : Request) : Option Nat := (seqOf d r.seq).bind (·.companion)

/-- A request's rows without draft sub-steps come with extra draft rows where its sequence has a companion (R296). -/
def markExtra (d : Device) (x : StepRows) : StepRows :=
  { x with extra := decide (x.depth = 0) && (reqOf d x.ref).any fun r => (companionOf d r).isSome }

/-- The rows of main lists: those of the step in order. -/
def mainRows (d : Device) : List StepRows → Nat → List WalkRows
  | [], _ => []
  | x :: rest, at_ =>
    { seq := ((reqOf d x.ref).map (·.seq)).getD 0xFFFF, row := at_, n := x.n, pos := x.pos, prefill := x.prefill } :: mainRows d rest (at_ + x.n)

/-- The rows of draft lists: one for each request that drafts, in each of its sub-steps, then the extra rows (R296, R297). -/
def draftRows (d : Device) (rows : List StepRows) : List WalkRows :=
  let comp := fun (x : StepRows) => ((reqOf d x.ref).bind (companionOf d)).getD 0xFFFF
  let extras := rows.filter fun (x : StepRows) => x.extra
  ((drafters rows).zipIdx.map fun (x, i) =>
    ({ seq := comp x, row := i, n := 1, pos := x.pos, prefill := false, depth := x.depth } : WalkRows)) ++
  (extras.zip (mainRows d extras (drafters rows).length)).map fun x => { x.2 with seq := comp x.1 }

/-- The snapshots of a step: of each row's sequence and of its companion (R257). -/
def stepSnaps (d : Device) (run : List StepRows) : List SeqSnap :=
  run.flatMap fun x => match reqOf d x.ref with
    | some r => snapshot d r.seq (x.pos + x.n) ++ match companionOf d r with | some c => snapshot d c (x.pos + x.n) | none => []
    | none => []

/-- A step over some rows: its layers, the rows in its lists, and its snapshots. -/
def stepOver (d : Device) (j : Job) (run : List StepRows) (st : StepRun) : StepRun :=
  let labels := stepLabels d j (subSteps run)
  { st with rows := run, walkRows := mainRows d run 0, draftRows := draftRows d run, labels := labels, total := labels.length, snaps := stepSnaps d run }

/-- START of a job's step (R287). -/
def startStep (t : Byte) (jid : W32) (j : Job) (d : Device) : Device :=
  let d := applyEdits t.toNat j.main d
  let cands := candidates d t jid j
  let (rows, parked, d) := composeServed j cands (cands.length + 1) (!(parkedReqs d t.toNat).isEmpty, [], d)
  -- a DECODE request that the step has no row for goes first in the next one
  let d := cands.foldl (fun d x => onReq x.1 (fun r => { r with leftOut := r.state == 3 && !rows.any fun y => y.ref == x.1 }) d) d
  if rows.isEmpty then
    -- a follower tells its leader that it parks every sequence of the composition
    if j.twinned && !j.leader && !cands.isEmpty then
      sendMsg { kind := 1, dest := 0xFFE, tenant := t, job := jid, epoch := 0, body := .twinStep [] 0 (parked.map (·.tag)) }
        (onJob t jid (fun j => { j with leadRows := none }) d)
    else d
  else
    let run := rows.map (markExtra d)
    let subs := subSteps run
    let (pins, d) := pinSnaps t.toNat j (stepSnaps d run) d
    let d := run.foldl (fun d x => match reqOf d x.ref with
      | some r => if r.state = 1 then setReqState x.ref 2 d else d
      | none => d) d
    let dstep := match j.leadRows with
      | some (_, e, _) => if j.leader then stepDeadline d j run subs else if e.toNat = noDeadline then none else some e.toNat
      | none => stepDeadline d j run subs
    let twin := j.twinned
    let st := stepOver d j run
      { serial := d.mem.serial, rows := [], t0 := wallNow d, dstep := dstep, snaps := [], snapMain := j.sites.map (·.x), snapDraft := j.draftSites.map (·.x),
        pins := pins, epoch := j.epoch, awaitTwin := twin && j.leader, obsMain := j.keptMain, obsDraft := j.keptDraft }
    let d := zeroAtomics { d with mem.serial := d.mem.serial + 1 } j (run.map (·.n)).sum
    let d := onJob t jid (fun j => { j with step := some st, leadRows := none, keptMain := [], keptDraft := [] }) d
    dispatchStage t jid <| if twin then
        sendMsg { kind := 1, dest := 0xFFE, tenant := t, job := jid, epoch := 0,
                  body := if j.leader then .twinStep (tagsOf run) (BitVec.ofNat 64 (dstep.getD noDeadline)) (parked.map (·.tag))
                          else .twinStep [] 0 (parked.map (·.tag)) } d
      else d

/-- The best deadline of a job's eligible requests; the largest value where none has one. -/
def bestDeadline (d : Device) (t : Byte) (jid : W32) (j : Job) : Option Nat :=
  match (candidates d t jid j).map fun x => x.2.deadline with
  | [] => none
  | e :: es => some (es.foldl min e)

/-- A job that could run a step now on tiles of a mask (R286): no step of it or of a job on a common tile is running. -/
def mayStart (d : Device) (tiles : W32) (x : Nat × Job) : Bool :=
  decide (x.2.tiles &&& tiles ≠ 0) && x.2.manager.isNone && x.2.place != .placing && x.2.place != .broken && x.2.awaited.isEmpty &&
  !d.serve.jobs.any fun y => y.2.step.isSome && decide (y.2.tiles &&& x.2.tiles ≠ 0)

/-- The scheduler's order of jobs: earliest deadline, then tenant and job; jobs without one in round robin by their opening, behind the one
that ran last. -/
def jobBefore (at_ : Nat) (a b : Nat × Nat × Job) : Bool :=
  let past := fun (x : Nat × Nat × Job) => decide (x.2.2.order < at_)
  if a.1 ≠ b.1 then decide (a.1 < b.1)
  else if a.1 ≠ noDeadline then decide (a.2.1 ≤ b.2.1)
  else if past a != past b then past b
  else decide (a.2.2.order ≤ b.2.2.order)

/-- Steps may start: READY, fully awake, and nothing sheds serving work (R478, R480, R522). -/
def stepsOpen (d : Device) : Bool :=
  isReady d && d.boot.lp == .active && d.boot.entering.isNone && decide (d.pwr.stage < 2) && decide (d.pwr.coolant ≠ 2)

/-- The jobs that could run a step on a set of tiles, in the scheduler's order. -/
def startOrder (d : Device) (tiles : W32) : List (Nat × Nat × Job) :=
  ((d.serve.jobs.filter (mayStart d tiles)).filterMap fun x =>
    (bestDeadline d (BitVec.ofNat 8 (x.1 / 2 ^ 32)) (BitVec.ofNat 32 x.1) x.2).map fun e => (e, x)).mergeSort (jobBefore d.serve.roundAt)

/-- START of one job's step; a job without a deadline takes its turn. -/
def tryStart (x : Nat × Nat × Job) (d : Device) : Device :=
  let t := BitVec.ofNat 8 (x.2.1 / 2 ^ 32); let jid := BitVec.ofNat 32 x.2.1
  let d := startStep t jid x.2.2 d
  if x.1 = noDeadline ∧ ((jobOf d t jid).bind (·.step)).isSome then { d with serve.roundAt := x.2.2.order + 1 } else d

/-- A job of the scheduler's list runs a step. -/
def hasStep (x : Nat × Nat × Job) (d : Device) : Bool :=
  ((jobOf d (BitVec.ofNat 8 (x.2.1 / 2 ^ 32)) (BitVec.ofNat 32 x.2.1)).bind (·.step)).isSome

/-- The first job of a list whose step has rows runs it: a step with no rows is not run (R288). -/
def startFirst : List (Nat × Nat × Job) → Device → Device
  | [], d => d
  | x :: rest, d => if hasStep x (tryStart x d) then tryStart x d else startFirst rest (tryStart x d)

/-- Hold what host-tier buffers keep out of the steps that could start on a set of tiles (R202). -/
def holdJobs (tiles : W32) (d : Device) : Device :=
  (d.serve.jobs.filter (mayStart d tiles)).foldl (fun d x => holdRequests (BitVec.ofNat 8 (x.1 / 2 ^ 32)) (BitVec.ofNat 32 x.1) d) d

/-- Before a step starts on a set of tiles, the pools of the tenants that have jobs there offer pages to the parked sequences (R262). -/
def offerPools (tiles : W32) (d : Device) : Device :=
  (((d.serve.jobs.filter (mayStart d tiles)).map fun x => x.1 / 2 ^ 32).eraseDups).foldl (fun d t => offerParked t d) d

/-- STEP_START (R286, R287): the scheduler starts the next job's step on a set of tiles. -/
def execStepStart (tiles : W32) (s : State) : Out := run (fun d =>
  if !stepsOpen d then d else let d := holdJobs tiles (offerPools tiles d); startFirst (startOrder d tiles) d) s

/-- PARK_LIMIT_EXPIRY (R263): the request of a sequence still parked at its limit ends KV_EXHAUSTED, and the sequence is released at
the next boundary. -/
def execParkLimitExpiry (tenant : Byte) (tag : W16) (s : State) : Out := run (fun d =>
  match d.serve.reqs.find? fun x => x.1.tag == tag && x.2.tenant == tenant.toNat with
  | none => d
  | some (ref, r) => match (seqOf d r.seq).filter fun s => r.state == 4 && s.parked.isSome with
    | none => d
    | some sq =>
      if !isReady d then d
      else
        let d := advanceTo (sq.parked.getD 0 + r.parkMs * 1000000) d
        let d := endRequest ref stKvExhausted d
        let e : StagedEdit := { ref := none, tenant := r.tenant, skein := sq.skein, edit := .release r.seq }
        if skeinRuns d r.tenant sq.skein then { d with serve.edits := d.serve.edits ++ [e] } else applyEdit e d) s

/-! ### RUN (R207, R287) -/

/-- The layer's fetches on a tile of the job, by its ordinal: those of its plan and of the adapter's (R206, R301). -/
def layerFetch (d : Device) (j : Job) (st : StepRun) (l ordinal : Nat) : List (Nat × FetchItem) :=
  (st.labels.getD l []).flatMap fun x =>
    let skein := match x / 65536 with | 0 => some j.main | 1 => j.adapter | _ => j.draft
    match skein, labelLayer d j x with
    | some k, some p => ((p.fetch[ordinal]?).getD []).map fun i => (k, i)
    | _, _ => []

/-- Every window slot of a layer is complete on every tile (R207, R208). -/
def slotsReady (d : Device) (t : Byte) (jid : W32) (j : Job) (st : StepRun) (l : Nat) : Bool :=
  (tilesOf j.tiles).zipIdx.all fun (k, i) => (layerFetch d j st l i).isEmpty ||
    d.mem.windows.any fun w => w.tenant == t && w.job == jid && w.tile == k && w.layer == l && w.left == 0 && !w.onHost

/-- The rows of a step's lists that have left it. -/
def goneRows (st : StepRun) (draft : Bool) : List Nat :=
  ((if draft then st.draftRows else st.walkRows).filter (·.gone)).flatMap fun w => List.range' w.row w.n

/-! ### SAMPLE and COMMIT (R281, R287, R297, R298) -/

/-- Tokens up to and with the first stop token. -/
def cutStops (stops : List W32) : List W32 → List W32
  | [] => []
  | x :: xs => if stops.contains x then [x] else x :: cutStops stops xs

/-- The draft tokens that agree with the main tokens before them (R297). -/
def agreeing : List W32 → List W32 → Nat
  | x :: xs, y :: ys => if x = y then agreeing xs ys + 1 else 0
  | _, _ => 0

/-- Write tokens or rows, then the time of the commit, then the count (R281). -/
def writeOut (ref : Ref) (r : Request) (unit count : Nat) (bytes : List Byte) (d : Device) : Device :=
  let wall := wallNow d
  let d := outWrite r (192 + r.tokens * unit) bytes d
  let d := outWrite r 8 (leBytes 8 wall) d
  let d := outWrite r 0 (leBytes 4 (r.tokens + count)) d
  let d := onReq ref (fun r => { r with
    tokens := r.tokens + count, commitWall := BitVec.ofNat 64 wall
    firstWall := if r.firstWall = 0 then BitVec.ofNat 64 wall else r.firstWall }) d
  if r.knotted ∧ count > 0 then knotSignal r.knot.toNat count d else d

/-- Roll a sequence and its companion back to their committed lengths; the pages that come free return to the request's reservation. -/
def rollbackRows (ref : Ref) (r : Request) (d : Device) : Device :=
  let before := freePages (poolOf d r.tenant)
  let d := rollbackPair r.seq d
  let n := freePages (poolOf d r.tenant) - before
  onPool r.tenant (fun q => { q with reserved := q.reserved + n }) (onReq ref (fun r => { r with reserve := r.reserve + n }) d)

/-- COMMIT of positions in a sequence and its companion (R297). -/
def commitPair (i len : Nat) (toks : List W32) (d : Device) : Device :=
  let d := commitSeq i len toks d
  match (seqOf d i).bind (·.companion) with
  | some c => commitSeq c len toks d
  | none => d

/-- How the depth of a request follows its luck (R298). -/
def depthAfter (j : Job) (spec : Bool) (x : StepRows) (k : Nat) (r : Request) : Request :=
  if !spec then r
  else if x.depth ≥ 1 then
    if k ≥ 1 then { r with zeroRuns := 0 }
    else if r.zeroRuns + 1 = 16 then { r with zeroRuns := 0, depth := 0, offSteps := 0 }
    else { r with zeroRuns := r.zeroRuns + 1 }
  else if r.depth = 0 ∧ !x.prefill then
    if r.offSteps + 1 = 256 then { r with depth := j.depth, zeroRuns := 0, offSteps := 0 } else { r with offSteps := r.offSteps + 1 }
  else r

/-- Deliver tokens, and say whether the request has reached its end. -/
def deliver (ref : Ref) (toks : List W32) (d : Device) : Bool × Device :=
  match reqOf d ref with
  | none => (false, d)
  | some r =>
    let d := writeOut ref r 4 toks.length (toks.flatMap fun w => leBytes 4 w.toNat) d
    let d := onReq ref (fun r => { r with next := toks.getLastD r.next }) d
    (decide (r.tokens + toks.length ≥ r.maxTok) || r.stops.contains (toks.getLastD 0) && !toks.isEmpty, d)

/-- COMMIT of one request's rows: given its logit rows, its draft logit rows and its output rows. Answers whether it reached its end. -/
def commitRows (j : Job) (x : StepRows) (logits drafts : List (List W32)) (outs : List (List Byte)) (d : Device) : Bool × Device :=
  match reqOf d x.ref with
  | none => (false, d)
  | some r =>
    let d := onReq x.ref (fun r => { r with steps := r.steps + 1 }) d
    let spec := !r.noSpec && ((seqOf d r.seq).bind (·.companion)).isSome
    if r.forward then
      let unit := (planOf d j.main).outRow
      let d := commitPair r.seq (x.pos + x.n) [] d
      let d := writeOut x.ref r unit x.n (outs.flatMap (padTo unit)) d
      (decide (r.fed + x.n ≥ r.inCount), onReq x.ref (fun r => { r with fed := r.fed + x.n }) d)
    else if x.prefill then
      let toks := (List.range x.n).map fun i => word32 (inRead d r (4 * (r.fed + i)) 4) 0
      let d := onReq x.ref (fun r => { r with fed := r.fed + x.n }) (commitPair r.seq (x.pos + x.n) toks d)
      if r.fed + x.n ≥ r.inCount then
        let (ended, d) := deliver x.ref [chooseToken r (x.pos + x.n) (logits.headD [])] d
        (ended, setReqState x.ref 3 d)
      else (false, d)
    else
      let dr := drafts.zipIdx.map fun (row, i) => chooseToken r (x.pos + 1 + i) row
      let main := logits.zipIdx.map fun (row, i) => chooseToken r (x.pos + 1 + i) row
      let k := agreeing dr main
      let toks := (cutStops r.stops (dr.take k ++ [main.getD k 0])).take (r.maxTok - r.tokens)
      let d := commitPair r.seq (x.pos + toks.length) (r.next :: toks.dropLast) d
      let d := rollbackRows x.ref r d
      let d := onReq x.ref (fun r => depthAfter j spec x k { r with proposed := r.proposed + x.depth, accepted := r.accepted + k }) d
      deliver x.ref toks d

/-- How many logit rows a request has in a step: one per main row in DECODE, one for a chunk that finishes the input of a GENERATE. -/
def logitRows (d : Device) (x : StepRows) : Nat :=
  match reqOf d x.ref with
  | none => 0
  | some r => if r.forward then 0 else if !x.prefill then x.n else if r.fed + x.n ≥ r.inCount then 1 else 0

/-- Output rows of a request in a step. -/
def outRows (d : Device) (x : StepRows) : Nat := match reqOf d x.ref with | some r => if r.forward then x.n else 0 | none => 0

/-- Commit every request of the step in row order; those that reach their end are collected. -/
def commitAll (j : Job) : List StepRows → List (List W32) → List (List W32) → List (List Byte) → Device → List (Ref × Bool) × Device
  | [], _, _, _, d => ([], d)
  | x :: rest, lg, dr, out, d =>
    let n := logitRows d x; let k := if x.prefill then 0 else x.depth; let m := outRows d x
    if x.gone then commitAll j rest (lg.drop n) (dr.drop k) (out.drop m) d
    else
      let (ended, d) := commitRows j x (lg.take n) (dr.take k) (out.take m) d
      let (more, d) := commitAll j rest (lg.drop n) (dr.drop k) (out.drop m) d
      ((x.ref, ended) :: more, d)

/-! ### Twin mode (R497, R498) -/

/-- Compare the oldest digest vectors of both modules; the first layer that differs is the divergence point. -/
def twinCompare (t : Byte) (jid : W32) (d : Device) : Device :=
  match jobOf d t jid with
  | none => d
  | some j => match j.mine, j.theirs with
    | a :: as, b :: bs =>
      let d := { d with audit.twinSteps := d.audit.twinSteps + 1 }
      let d := onJob t jid (fun j => { j with mine := as, theirs := bs, compared := satAdd32 j.compared 1 }) d
      match (a.zip b).find? fun (x, y) => x.2 != y.2 with
      | none => d
      | some (x, y) =>
        let d := { d with audit.twinDivs := d.audit.twinDivs + 1 }
        let d := onJob t jid (fun j =>
          let j := { j with divs := satAdd32 j.divs 1 }
          if j.divStep ≠ 0 then j
          else { j with divStep := j.compared.toNat, divLayer := x.1, divAt := wallNow d, divPair := x.2 ++ y.2, twin := .diverged }) d
        if d.audit.onDiverge then endAll t jid stTwinDiverged d else d
    | _, _ => d

/-- The digest vector of a step at its COMMIT (R497). -/
def stepDigests (st : StepRun) : List (Nat × List Byte) :=
  st.labels.flatten.filterMap fun x =>
    (st.pieces.find? fun p => p.1 == x).map fun p =>
      let gone := goneRows st (decide (x / 65536 = 2))
      (x, (digest32 ((p.2.zipIdx.filter fun r => !gone.contains r.2).flatMap (·.1))).take 16)

/-- A twin job sends its step's digests and compares those it has (R497, R498). -/
def twinCommit (t : Byte) (jid : W32) (st : StepRun) (d : Device) : Device :=
  match jobOf d t jid with
  | none => d
  | some j =>
    if j.twinned then
      let v := stepDigests st
      let d := sendMsg { kind := 2, dest := 0xFFE, tenant := t, job := jid, epoch := 0, body := .twinDigest v } d
      twinCompare t jid (onJob t jid (fun j => { j with mine := j.mine ++ [v] }) d)
    else d

/-- A request that its step's COMMIT brought to its end ends (R280). -/
def commitEnd (x : Ref × Bool) (d : Device) : Device :=
  match reqOf d x.1 with
  | none => d
  | some r =>
    let late := decide (wallNow d > r.deadline)
    let d := onReq x.1 (fun r => { r with late := r.late || late }) d
    if r.abandonLate ∧ late then endRequest x.1 stDeadlinePassed d
    else if x.2 then endRequest x.1 (if r.skipped.isEmpty then stOK else stDegraded) d
    else d

/-- The other requests of a job, which the step had no rows for, parked ones among them: those with ABANDON_LATE whose deadline has passed end
at the COMMIT too (R280, R290). -/
def abandonRest (t : Byte) (jid : W32) (done : List Ref) (d : Device) : Device :=
  (reqsOf d t jid).foldl (fun d x =>
    if !done.contains x.1 && x.2.ending.isNone && x.2.abandonLate && decide (wallNow d > x.2.deadline) then
      endRequest x.1 stDeadlinePassed (rollbackPair x.2.seq (onReq x.1 (fun r => { r with late := true }) d)) else d) d

/-- STEP_SAMPLE (R287, R291, R297): tokens are chosen from the logits of the step's rows, and the step commits. -/
def execStepSample (tenant : Byte) (job : W32) (logits drafts : List (List W32)) (rows : List (List Byte)) (s : State) : Out := run (fun d =>
  match jobOf d tenant job with
  | none => d
  | some j => match j.step with
    | none => d
    | some st =>
      let held := (st.rows.filter fun x => !x.gone).filter fun x => (reqOf d x.ref).any fun r => !(ioHeld d r).isEmpty
      if !isReady d || st.awaitTwin || !st.parks.isEmpty || decide (st.layer < st.total) || !st.queued.isEmpty then d
      -- COMMIT waits while a buffer that it reads or writes is on the host tier (R195, R202)
      else if !held.isEmpty then
        held.foldl (fun d x => match reqOf d x.ref with | some r => holdUnit (.request x.ref) r.tenant (ioHeld d r) d | none => d) d
      else
        let d := st.rows.foldl (fun d x => dropHold (.request x.ref) d) d
        let (ends, d) := commitAll j st.rows logits drafts rows d
        let d := { d with serve.stepCount := d.serve.stepCount + 1 }
        let d := onPool tenant.toNat (fun q => { q with steps := satAdd32 q.steps 1 }) d
        let d := endStep tenant job (onJob tenant job (fun j => { j with stepNo := j.stepNo + 1 }) d)
        twinCommit tenant job st (abandonRest tenant job (ends.map (·.1)) (ends.foldl (fun d x => commitEnd x d) d))) s

end Sys2Proof.Machine
end

