-- ==== Sys2Proof/Machine/Stream.lean ====
section
/-! DEFINITION. Weight streaming (06_memory_tiers R206 to R219): windows, latest-service times, the deadline arbiter, misses, parks
and skips, and the sums of ATOMIC tensors (R214). -/

namespace Sys2Proof.Machine

/-! ### Parked steps (R210, R211, R480, R522) -/

/-- A running step parks for one more reason. -/
def parkStep (t : Byte) (jid : W32) (why : ParkWhy) (d : Device) : Device :=
  match (jobOf d t jid).bind (·.step) with
  | none => d
  | some st =>
    if st.parks.contains why then d
    else
      let first := st.parks.isEmpty
      let d := onJob t jid (fun j => { j with step := j.step.map fun st => { st with parks := st.parks ++ [why] } }) d
      if !first then d
      else
        let d := onArena t.toNat (fun a => { a with parks := satAdd32 a.parks 1 }) d
        (st.rows.filter fun x => !x.gone).foldl (fun d x =>
          setReqState x.ref 4 (onReq x.ref (fun r => { r with back := r.state, parks := r.parks + 1 }) d)) d

/-- A reason is gone; the step goes on when none holds it. -/
def unparkStep (t : Byte) (jid : W32) (why : ParkWhy) (d : Device) : Device :=
  match (jobOf d t jid).bind (·.step) with
  | none => d
  | some st =>
    if !st.parks.contains why then d
    else
      let left := st.parks.filter (· != why)
      let d := onJob t jid (fun j => { j with step := j.step.map fun st => { st with parks := left } }) d
      if !left.isEmpty then d
      else (st.rows.filter fun x => !x.gone).foldl (fun d x => match reqOf d x.ref with
        | some r => setReqState x.ref r.back d
        | none => d) d

/-- Every running step parks, or drops a reason. -/
def eachStep (f : Byte → W32 → Device → Device) (d : Device) : Device :=
  d.serve.jobs.foldl (fun d x => if x.2.step.isSome then f (BitVec.ofNat 8 (x.1 / 2 ^ 32)) (BitVec.ofNat 32 x.1) d else d) d

/-! ### Latest-service times (R209) -/

/-- Cycles of a step's layer for its rows. -/
def layerCycles (d : Device) (j : Job) (st : StepRun) (l : Nat) : Nat :=
  let n := rowCount st
  ((st.labels.getD l []).map fun x => match labelLayer d j x with | some p => p.a + p.b * n | none => 0).sum

/-- LST(L) in whole ns; no deadline gives the largest value. -/
def latestService (d : Device) (j : Job) (st : StepRun) (l : Nat) : Nat :=
  match st.dstep with
  | none => noDeadline
  | some e =>
    let cycles := ((List.range' l (st.labels.length - l)).map (layerCycles d j st)).sum
    (4 * (e - d.mem.margin.toNat * 1000) - 5 * cycles) / 4

/-! ### Windows (R206, R208) -/

/-- The image of a skein in its buffer: tenant, slot, buffer and offset. -/
def imageOf (d : Device) (skein : Nat) : Option (Nat × Nat × Buffer × Nat) :=
  match Assoc.find d.mem.skeins skein with
  | none => none
  | some s => (bufOf d s.tenant.toNat s.handle.toNat).map fun (slot, b) => (s.tenant.toNat, slot, b, s.off)

/-- Bytes of a skein's image. -/
def imageRead (d : Device) (skein : Nat) (off n : Nat) : List Byte :=
  match imageOf d skein with
  | some (_, _, b, o) => bufRead d b (o + off) n
  | none => zeros n

/-- A change of a window slot. -/
def onWin (serial : Nat) (f : WinSlot → WinSlot) (d : Device) : Device :=
  { d with mem.windows := d.mem.windows.map fun w => if w.serial = serial then f w else w }

/-- Bytes of a skein's image as the decoder of a block sees them: the block's stored bytes are those that its transfers have brought. -/
def fetchRead (d : Device) (f : BlockFetch) (o n : Nat) : List Byte :=
  let own := f.parts.flatMap fun x => x.2.2.getD []
  if f.off ≤ o ∧ o + n ≤ f.off + own.length then slice own (o - f.off) n else imageRead d f.skein o n

/-- Every piece of a block has come. -/
def BlockFetch.whole (f : BlockFetch) : Bool := f.parts.all fun x => x.2.2.isSome

/-- Some of a block came from DRAM. -/
def BlockFetch.fromDram (f : BlockFetch) : Bool := f.parts.any fun x => (channelOf x.1).isSome

/-- Decode a block that has come whole and place its bytes in the tile store; false where the block fails by R232, which counts where it came
from DRAM (R449). -/
def placeBlock (tile : Nat) (f : BlockFetch) (d : Device) : Bool × Device :=
  match decodeBlock (fun o n => fetchRead d f o n) f.item.container f.item.block with
  | none => (false, if f.fromDram then { d with dram.codecCount := d.dram.codecCount + 1 } else d)
  | some bs =>
    let part := slice bs f.item.skip f.item.take
    (true, storePut tile f.item.dest part d)

/-- A parked step goes on when every slot of its layer is complete (R210); slots of skipped layers go once their bursts are done. -/
def slotCheck (t : Byte) (jid : W32) (d : Device) : Device :=
  match jobOf d t jid with
  | none => d
  | some j => match j.step with
    | none => d
    | some st =>
      let d := { d with mem.windows := d.mem.windows.filter fun w =>
        !(w.tenant == t && w.job == jid && st.skipped.contains w.layer && w.left == 0 && !w.onHost) }
      if slotsReady d t jid j st st.layer && decide (st.loads = 0) then unparkStep t jid .layer d else d

/-- Start one block of a fetch: its pieces in SRAM come at once, and those in DRAM are arbitrated (R37, R219). -/
def raiseItem (t : Byte) (jid : W32) (tile serial skein lst : Nat) (i : FetchItem) (d : Device) : Device :=
  match imageOf d skein with
  | none => d
  | some (owner, slot, b, off) =>
    let (o, len) := blockPlace (fun o n => imageRead d skein o n) i.container i.block
    let d := touch owner slot b (off + o) len d
    let parts := if len = 0 then [] else piecesOf b (off + o) len
    let f : BlockFetch := { skein := skein, item := i, off := o, parts := parts.map fun x =>
      (x.1, x.2, if (channelOf x.1).isSome then none else some (fabRead d x.1 x.2)) }
    if f.whole then
      let (ok, d) := placeBlock tile f d
      if ok then d else failStep t jid stCodecError d
    else
      let n := match d.mem.windows.find? fun w => w.serial == serial with | some w => w.blocks.length | none => 0
      let far := parts.zipIdx.filter fun x => (channelOf x.1.1).isSome
      raiseAll (far.map fun x => { who := tile, lst := lst, tenant := t, job := jid, load := .window serial n x.2, addr := x.1.1, len := x.1.2 })
        (onWin serial (fun w => { w with left := w.left + far.length, blocks := w.blocks ++ [f] }) d)

/-- The next layer that a tile's window has room for (R206): none while it is full or everything is fetched. -/
def nextFetch (d : Device) (t : Byte) (jid : W32) (j : Job) (st : StepRun) (tile ordinal : Nat) : Option Nat :=
  let mine := d.mem.windows.filter fun w => w.tenant == t && w.job == jid && w.tile == tile
  let bytes := fun l => ((layerFetch d j st l ordinal).map fun x => x.2.take).sum
  let cur := (mine.map (·.layer)).foldl min st.layer
  let cap := (planOf d j.main).window.getD ordinal 0
  let used := (mine.map fun w => bytes w.layer).sum
  match (List.range' st.layer (st.total - st.layer)).find? fun l =>
      !remoteStage d j st l && !(layerFetch d j st l ordinal).isEmpty && !mine.any fun w => w.layer == l with
  | some l => if l ≤ cur + 2 ∧ used + bytes l ≤ cap then some l else none
  | none => none

/-- Fill a window slot's fetch, or wait for its host-tier extents (R202). -/
def fetchLayer (t : Byte) (jid : W32) (j : Job) (st : StepRun) (w : WinSlot) (ordinal : Nat) (d : Device) : Device :=
  let items := layerFetch d j st w.layer ordinal
  let held := heldOf (items.filterMap fun (skein, i) => (imageOf d skein).map fun (owner, slot, b, off) =>
    let (o, len) := blockPlace (fun o n => imageRead d skein o n) i.container i.block
    (owner, slot, b, off + o, len))
  if held.isEmpty then
    let d := dropHold (.window w.serial) (onWin w.serial (fun w => { w with onHost := false }) d)
    slotCheck t jid (items.foldl (fun d (skein, i) => raiseItem t jid w.tile w.serial skein (latestService d j st w.layer) i d) d)
  else holdUnit (.window w.serial) t.toNat held d

/-- WINDOW_FETCH (R206): a tile's stream engine starts the next fetch of a step, or takes up one that waited for the host tier. -/
def execWindowFetch (tenant : Byte) (job : W32) (tile : Tile) (s : State) : Out := run (fun d =>
  let k := tile.toNat
  match jobOf d tenant job with
  | none => d
  | some j => match j.step, (tilesOf j.tiles).idxOf? k with
    | some st, some ordinal =>
      if !coreAlive d then d
      else match d.mem.windows.find? fun w => w.tenant == tenant && w.job == job && w.tile == k && w.onHost with
        | some w => fetchLayer tenant job j st w ordinal d
        | none => match nextFetch d tenant job j st k ordinal with
          | none => d
          | some l =>
            let w : WinSlot := { serial := d.mem.serial, tenant := tenant, job := job, tile := k, layer := l, left := 0, onHost := true }
            fetchLayer tenant job j st w ordinal { d with mem.windows := d.mem.windows ++ [w], mem.serial := d.mem.serial + 1 }
    | _, _ => d) s

/-! ### Deadline misses (R210 to R213) -/

/-- The skip path is open for a layer: marked, sealed partition, no twin job, and every request of the step allows it. -/
def maySkip (d : Device) (t : Byte) (j : Job) (st : StepRun) (l : Nat) : Bool :=
  let (draft, n) := ownLayer st l
  !draft && (match (planOf d j.main).layers[n]? with | some p => p.skippable | none => false) &&
  (match partOf d t.toNat with | some q => q.sealed | none => false) && j.twin == .none &&
  (st.rows.filter fun x => !x.gone).all fun x => match reqOf d x.ref with | some r => r.allowSkip | none => true

/-- Layer output := layer input through the residual connection: the rows of the layer before, or the input rows of layer 0, are the rows
of this one (R210). -/
def passThrough (j : Job) (st : StepRun) (n : Nat) (d : Device) : Device :=
  let plan := planOf d j.main
  match plan.layers[n]?, (if n = 0 then some plan.inAt else (plan.layers[n - 1]?).map (·.outAt)) with
  | some l, some (i, is, _, ie) =>
    let (o, os, len, oe) := l.outAt
    (tilesOf j.tiles).foldl (fun d k => (List.range (rowCount st)).foldl (fun d r =>
      storePut k (oe + r) (storeBytes d k (ie + r) 1) (storePut k (o + r * os) (storeBytes d k (i + r * is) len) d)) d) d
  | _, _ => d

/-- A layer is skipped in a step of a request: the bitmap in its output buffer shows it (R213, R281). -/
def noteSkip (n : Nat) (ref : Ref) (d : Device) : Device :=
  let d := onReq ref (fun r => { r with skipped := if r.skipped.contains n then r.skipped else r.skipped ++ [n] }) d
  match reqOf d ref with
  | some r => outWrite r 16 (skippedMap r.skipped) (onReq ref (fun r => { r with behind := r.behind || outHeld d r }) d)
  | none => d

/-- Skip the next layer of a step: its rows pass through, the skip is counted, and the step goes on to the layer after it. -/
def skipLayer (t : Byte) (jid : W32) (j : Job) (st : StepRun) (d : Device) : Device :=
  let l := st.layer
  let n := (ownLayer st l).2
  let d := passThrough j st n { d with mem.skipCount := d.mem.skipCount + 1 }
  let d := onArena t.toNat (fun a => { a with skips := satAdd32 a.skips 1 }) d
  let d := (st.rows.filter fun x => !x.gone).foldl (fun d x => noteSkip n x.ref d) d
  dispatchStage t jid (onJob t jid (fun j => { j with step := j.step.map fun st => { st with layer := l + 1, skipped := st.skipped ++ [l] } }) d)

/-- A layer is late (R210): a window slot of it on some tile is incomplete, or tiles of its walk have not come. A fetch that the host tier
holds waits without a deadline (R202). -/
def isLate (d : Device) (t : Byte) (jid : W32) (j : Job) (st : StepRun) (l : Nat) : Bool :=
  decide (st.loads ≠ 0) || (tilesOf j.tiles).zipIdx.any fun (k, i) => !(layerFetch d j st l i).isEmpty &&
    match d.mem.windows.find? fun w => w.tenant == t && w.job == jid && w.tile == k && w.layer == l with
    | some w => decide (w.left ≠ 0) && !w.onHost
    | none => true

/-- LAYER_DEADLINE_MISS (R210): WALL reaches LST(L) while a slot of the next layer is incomplete. A step that something else has parked
misses too; one parked at this layer has missed already. -/
def execLayerDeadlineMiss (tenant : Byte) (job : W32) (s : State) : Out := run (fun d =>
  match jobOf d tenant job with
  | none => d
  | some j => match j.step with
    | none => d
    | some st =>
      let l := st.layer
      let lst := latestService d j st l
      if !coreAlive d || decide (d.pwr.stage ≥ 2) || decide (st.total ≤ l) || st.dstep.isNone || st.parks.contains .layer ||
          remoteStage d j st l || !isLate d tenant job j st l then d
      else
        let d := advance (lst - wallNow d) d
        let d := { d with mem.missCount := d.mem.missCount + 1 }
        let d := onArena tenant.toNat (fun a => { a with misses := satAdd32 a.misses 1 }) d
        if maySkip d tenant j st l && decide (st.loads = 0) then slotCheck tenant job (skipLayer tenant job j st d)
        else parkStep tenant job .layer d) s

/-! ### ATOMIC sums (R214) -/

/-- The sum of two FP32 rows, element by element, with its events. -/
def addRows : List W32 → List W32 → List W32 × NumEv
  | a :: as, b :: bs =>
    let x := fpAdd .rne (laneFp 0 a.toNat) (laneFp 0 b.toNat)
    let r := fpEncode fp32 .rne x
    let ev : NumEv := { sat := if r.2 then 1 else 0, inv := if x = .nan then 1 else 0 }
    let (rest, more) := addRows as bs
    (BitVec.ofNat 32 r.1 :: rest, ev.add more)
  | _, _ => ([], {})

/-- The ATOMIC site of a job whose destination region on a home tile has a row at an offset. -/
def atomicAt (d : Device) (j : Job) (tile off : Nat) : Option AtomicSite :=
  ((jobPlans d j).flatMap (·.2.atomics)).find? fun a => homeTile d j a == some tile &&
    decide (a.dest ≤ off ∧ off < a.dest + a.rowBytes * a.rows) && decide ((off - a.dest) % a.rowBytes = 0)

/-- Add a partial row at a destination row of a job's ATOMIC tensor, and signal its knot. -/
def addPartial (t : Byte) (jid : W32) (tile off : Nat) (row : List W32) (d : Device) : Device :=
  match jobOf d t jid with
  | none => d
  | some j => match j.step, atomicAt d j tile off with
    | some _, some a =>
      let n := a.rowBytes / 4
      let old := (List.range n).map fun i => BitVec.ofNat 32 (storeField d tile (off + 4 * i) 4)
      let (new, ev) := addRows old (row.take n)
      let d := storeWrite tile off (new.flatMap fun w => leBytes 4 w.toNat) d
      let l : QList := { addr := 0, origin := .skein, tenant := t, job := jid }
      knotSignal a.knot 1 (countEvents tile l ev d)
    | _, _ => d

/-- ATOMIC_PARTIAL_ADD (R214): a partial row reaches the home tile's stream engine. The operands say which of the rows on the mesh it is;
a row of a step that has gone is added nowhere. -/
def execAtomicPartialAdd (tile : Tile) (dest : W32) (row : List W32) (s : State) : Out := run (fun d =>
  match d.mem.partials.find? fun x => x.tile == tile.toNat && x.dest == dest.toNat && x.row == row with
  | some x =>
    if !coreAlive d then d
    else
      let d := { d with mem.partials := d.mem.partials.erase x }
      if (jobOf d x.tenant x.job).any fun j => j.step.any fun st => st.serial == x.serial then addPartial x.tenant x.job x.tile x.dest x.row d
      else d
  | none => d) s

/-! ### Counters -/

/-- A write of MEM_CTR_CLEAR (R225): the maker's alone. -/
def execMemCtrClearWrite (v : W32) (s : State) : Out := run (transact fun d => if makerActive d then memCtrClear v d else d) s

/-- A write of SERVE_CTR_CLEAR (R304): the maker's alone. -/
def serveCtrClear (v : W32) (d : Device) : Device :=
  if makerActive d ∧ v.getLsbD 0 then
    { d with serve.stepCount := 0, serve.refuseCount := 0, serve.cancelCount := 0, serve.cancelLat := 0 }
  else d

/-- SERVE_CTR_CLEAR_WRITE. -/
def execServeCtrClearWrite (v : W32) (s : State) : Out := run (transact (serveCtrClear v)) s

/-- TILE_CTR_CLEAR_WRITE (R154, R155): discarded while the tile has an owner and the maker role is not active. -/
def tileCtrClear (t : Nat) (v : W32) (d : Device) : Device :=
  if v.getLsbD 0 ∧ (makerActive d ∨ (tileOf d t).tenant = 0) then onTile t clearTileCounters d else d

def execTileCtrClearWrite (t : Tile) (v : W32) (s : State) : Out := run (transact (tileCtrClear t.toNat v)) s

end Sys2Proof.Machine
end

