-- ==== Sys2Proof/Machine/Wake.lean ====
section
/-! DEFINITION. What ends a low-power state or abandons the entry to one (17_reset_startup R521 to R524). -/

namespace Sys2Proof.Machine

/-- The state that a wake source finds: the one being entered, or the one in force. -/
def lowPowerOf (d : Device) : LowPower := d.boot.entering.getD d.boot.lp

/-- The table of R523. -/
def wakesFrom (code : Nat) : LowPower → Bool
  | .active => false
  | .doze => [1, 2, 3, 4, 6, 7].contains code
  | .nap => [1, 3, 5, 6, 7].contains code
  | .hibernate => [5, 6, 7].contains code

/-- Address of BOOT_LP_CTRL, the detail of the CONFIG entries of R522. -/
abbrev lpCtrlAddr : Nat := 0xC0020

/-- Ledger an entry to or an exit from a low-power state (R522). -/
def ledgerLp (d : Device) : Device := ledgerEvent 0x0020 (leBytes 4 lpCtrlAddr ++ zeros 4) d

/-- Every channel leaves self-refresh unless a shed stage holds it there (R460, R462). -/
def channelsUp (d : Device) : Device := if d.pwr.stage ≥ 2 then d else (List.range 32).foldl (fun d c => leaveSelfRefresh c d) d

/-- Every channel enters self-refresh (R460, R461). -/
def channelsDown (d : Device) : Device := (List.range 32).foldl (fun d c => enterSelfRefresh c d) d

/-- The ARRAY domains of Open-plane tiles go off (R479, R521). -/
def arraysDown (d : Device) : Device :=
  { d with tiles := d.tiles.map fun (t, ts) =>
      if d.fix.mask.getLsbD t then (t, ts)
      else (t, { ts with arrays := (List.range 4).foldl (fun m a => SMap.modify {} m a fun s => { s with on := false }) ts.arrays }) }

/-- Doze ends: the steps it parked go on (R522). -/
def leaveDoze (d : Device) : Device :=
  ledgerLp (eachStep (fun t j => unparkStep t j .doze) (channelsUp { d with boot.lp := .active }))

/-- A wake source arrives (R523, R524): an entry to Doze or Nap is abandoned, Doze ends, the exit from Nap begins. The exit from
Hibernate is a start-up of its own. -/
def wakeUp (code : Nat) (d : Device) : Device :=
  let x := lowPowerOf d
  if !wakesFrom code x then d
  else match d.boot.entering with
    | some .hibernate => { d with boot.wakeSrc := BitVec.ofNat 8 code }
    | some _ =>
      let d := { d with boot.entering := none, boot.wakeSrc := BitVec.ofNat 8 code }
      if d.boot.lp = .active then eachStep (fun t j => unparkStep t j .doze) d else d
    | none =>
      let d := { d with boot.wakeSrc := BitVec.ofNat 8 code }
      match x with
      | .doze => leaveDoze d
      | .nap => { d with boot.exiting := true }
      | _ => d

end Sys2Proof.Machine
end

