-- ==== Sys2Proof/Machine/FixPlane.lean ====
section
/-! DEFINITION. The Fixed plane (10_fixed_plane_gauge R305 to R321, R333, R337): reservation, images, arming, triggers and
answers. -/

namespace Sys2Proof.Machine

/-! ### Reserved tiles (R305, R306) -/

/-- A tile cleared for the Fixed plane, or given back: store scrubbed, state wiped, domains on or off (R306, R466). -/
def clearFixTile (on : Bool) (t : Nat) (d : Device) : Device :=
  onTile t (fun ts => (List.range 4).foldl (fun ts a => onArray a (fun s => { s with on := on }) ts) (wipeTile 0 ts))
    (fabScrub (tileBase t) storeSize d)

/-- What Onyx keeps now (R518). -/
def saveFix (d : Device) : Device :=
  { d with fix.saved := { mask := d.fix.mask, image := d.fix.image, fallback := d.fix.nextFb.orElse fun _ => d.fix.fallback,
                          bound := d.fix.bound, armed := d.fix.armed } }

/-- A FIX operation waits for the check run, and for a run on the normal path, to end. -/
def fixBusy (d : Device) : Bool := d.fix.arming.isSome || (match d.fix.run with | some r => r.frame.isSome | none => false)

def fixSpec (opcode size : Nat) : OpSpec :=
  { opcode := opcode, size := some size, dev := true, roles := [roleInstaller, roleMaker] }

/-- Change the reservation: tiles released and tiles taken are cleared; a release discards image and fallback. -/
def reserveTiles (m : W32) (d : Device) : Device :=
  let old := d.fix.mask
  let gone := maskList 32 (old &&& ~~~m).toNat
  let new := maskList 32 (m &&& ~~~old).toNat
  let d := gone.foldl (fun d t => clearFixTile false t d) d
  let d := { d with fix.mask := m, fix.loading := none }
  let d := new.foldl (fun d t => clearFixTile true t d) d
  if gone.isEmpty then d else { d with fix.image := none, fix.digest := [], fix.fallback := none, fix.nextFb := none }

/-- A tile that cannot be reserved: a partition holds it, or the grade lacks it. -/
def tileTaken (d : Device) (t : Nat) : Bool :=
  decide (t ≥ tileCount d) || d.sec.parts.any fun q => q.2.tileMask.getLsbD t

/-- FIX_RESERVE. -/
def fixReserve (p : Packet) (b : List Byte) (d : Device) : Device :=
  let m := word32 b 0
  privileged p (fun d =>
    if d.fix.armed then refuse p stFixState d
    else if fixBusy d then hold p d
    else if (maskList 32 m.toNat).length > 4 ∨ (maskList 32 m.toNat).any (tileTaken d) then refuse p stTileInUse d
    else
      let d := ledgerConfig p d
      if m = d.fix.mask then refuse p stAlreadyDone d else complete p (saveFix (reserveTiles m d))) d

def execFixReserve (r : Ref) (s : State) : Out := run (runOp (fixSpec 0x0500 4) r fixReserve) s

/-! ### Images (R307, R308) -/

abbrev frameMax : Nat := 32704
abbrev answerMax : Nat := 256

/-- Section offset, section length, pass list and vector list of a tile entry. -/
def imgTile (img : List Byte) (i : Nat) : Nat × Nat × Nat × Nat :=
  let e := 32 + 16 * i
  (field img e 4, field img (e + 4) 4, field img (e + 8) 4, field img (e + 12) 4)

/-- End of the padded site table. -/
def imgTableEnd (img : List Byte) : Nat := 512 + 16 * field img 10 2 + roundUp (field img 16 2) 64

/-- The answer cycle of an image (R310). -/
def imgCycle (img : List Byte) : Nat := field img 12 4 + 2

/-- Bytes of a section as its tile store will hold them. -/
def sectionRead (img : List Byte) (i : Nat) (off n : Nat) : List Byte :=
  let s := imgTile img i
  padTo n (slice img (s.1 + off) (min n (s.2.1 - off)))

/-! ### The checks of R311 -/

/-- Fields of the header, the tile entries and the fallback. -/
def imgHeader (img : List Byte) (reserved : Nat) : List (Bool × Nat) :=
  let n := field img 2 1; let lin := field img 4 4; let lout := field img 8 2; let m := field img 10 2
  let size := img.length
  [(decide (field img 0 2 ≠ 6), 0), (decide (n = 0 ∨ n > 4 ∨ n ≠ reserved), 2), (byteAt img 3 != 0, 3),
   (decide (lin % 4 ≠ 0 ∨ lin < 4 ∨ lin > frameMax), 4), (decide (lout = 0 ∨ lout > answerMax), 8),
   (decide (m = 0 ∨ m > 64 ∨ 512 + 16 * m > size), 10), (decide (field img 12 4 = 0 ∨ field img 12 4 > 79991), 12),
   (decide (field img 16 2 > 4096 ∨ imgTableEnd img > size), 16)] ++ nonZeroAt img 18 14 ++
  ((List.range 4).flatMap fun i =>
    let e := 32 + 16 * i
    let s := imgTile img i
    if i ≥ n then nonZeroAt img e 16
    else
      [(decide (s.1 + s.2.1 > size ∨ s.1 < imgTableEnd img) ||
          (List.range i).any fun j => let q := imgTile img j; rangesMeet s.1 s.2.1 q.1 q.2.1, e),
       (decide (s.2.1 > storeSize), e + 4)]) ++
  nonZeroAt img 96 160 ++ nonZeroAt img (256 + lout) (answerMax - lout)

/-- Fields of the bus plan, each move against those before it. -/
def imgPlan (img : List Byte) : List (Bool × Nat) :=
  let n := field img 2 1
  let ms := imgMoves img
  ms.zipIdx.flatMap fun (m, k) =>
    let e := 512 + 16 * k
    [((ms.take k).any fun q => q.tile == m.tile && rangesMeet q.start q.blocks m.start m.blocks, e),
     (decide (field img (e + 4) 1 > 1), e + 4), (decide (m.tile ≥ n), e + 5), (decide (m.blocks = 0 ∨ m.blocks > 511), e + 6),
     (decide (m.win % 64 ≠ 0 ∨ m.win + 64 * m.blocks > if m.out then answerMax else frameMax), e + 8),
     (decide (m.store % 64 ≠ 0 ∨ m.store + 64 * m.blocks > storeSize), e + 12)]

/-- Bytes of the padding behind the site table. -/
def imgPad (img : List Byte) : List (Bool × Nat) :=
  let last := 512 + 16 * field img 10 2 + field img 16 2
  nonZeroAt img last (imgTableEnd img - last)

/-- The image offset behind a failed descriptor: its field, or the header field where the tile lies in the section. -/
def faultAt (secOff secLen desc : Nat) (f : PassFault) : Nat := match f.hdr with
  | some h => if h < secLen then secOff + h else secOff + desc + f.field
  | none => secOff + desc + f.field

/-- The field of a pass that names an array-ready tile beyond its section (R311). DESIGN CHOICE: of the ranges that a descriptor names, these
and the program images belong to the section; rows are working storage and may lie anywhere in the tile store. -/
def tileBeyond (rd : Nat → Nat → List Byte) (len : Nat) (p : PassDesc) : Option Nat :=
  if p.holdW then none
  else (p.arrays.find? fun a => decide (p.weightAt a + (weightTileSize (field (rd (p.weightAt a) 1) 0 1)).getD 64 > len)).map fun a =>
    16 + if p.twin then 0 else 4 * a

/-- Walk a pass list of a section: the first failure, or the list's length with its END. -/
def imgPassList (img : List Byte) (i : Nat) (at_ : Nat) (env : Nat → PassEnv) : Nat → Except Nat Nat
  | 0 => .error (32 + 16 * i + 8)
  | fuel + 1 =>
    let s := imgTile img i
    let rd := sectionRead img i
    if at_ + 128 > s.2.1 then .error (32 + 16 * i + 8)
    else
      let p := passDesc (rd at_ 128)
      match passFault rd .fixed env p with
      | some f => .error (faultAt s.1 s.2.1 at_ f)
      | none =>
        if p.kind = kEnd then .ok 128
        else if p.fx && p.arrays.any (fun a => (passHdr rd env p a).any (·.lastK)) && decide (p.site ≥ field img 16 2) then
          .error (s.1 + at_ + 12)
        else if (signalKnot p.knot).any fun k => decide (k ≥ 4096) then .error (s.1 + at_ + 104)
        else if let some w := tileBeyond rd s.2.1 p then .error (s.1 + at_ + w)
        else (imgPassList img i (at_ + 128) (envAfter rd p env) fuel).map (· + 128)

/-- Walk a vector list of a section. -/
def imgVecList (img : List Byte) (i : Nat) (at_ : Nat) : Nat → Except Nat Nat
  | 0 => .error (32 + 16 * i + 12)
  | fuel + 1 =>
    let s := imgTile img i
    let rd := sectionRead img i
    if at_ + 64 > s.2.1 then .error (32 + 16 * i + 12)
    else
      let v := vecDesc (rd at_ 64)
      match vecFault rd v with
      | some f => .error (faultAt s.1 s.2.1 at_ f)
      | none =>
        if v.kind = kEnd then .ok 64
        else if v.kind = kWait then .error (s.1 + at_)
        else if v.kind = kStitch ∧ field v.raw 16 4 + 64 + 4 * field v.raw 20 1 > s.2.1 then .error (s.1 + at_ + 16)
        else if (signalKnot v.knot).any fun k => decide (k ≥ 4096) then .error (s.1 + at_ + 60)
        else (imgVecList img i (at_ + 64) fuel).map (· + 64)

/-- Ranges of a tile's store that no direction-0 move may touch (R308): lists, programs and the headers that descriptors name. -/
def guardedRanges (img : List Byte) (i passLen vecLen : Nat) : List (Nat × Nat) :=
  let s := imgTile img i
  let rd := sectionRead img i
  [(s.2.2.1, passLen), (s.2.2.2, vecLen)] ++
  ((List.range (passLen / 128)).flatMap fun k =>
    let p := passDesc (rd (s.2.2.1 + 128 * k) 128)
    if p.kind = kEnd ∨ p.holdW then [] else p.arrays.map fun a => (p.weightAt a, 64)) ++
  (List.range (vecLen / 64)).flatMap fun k =>
    let v := vecDesc (rd (s.2.2.2 + 64 * k) 64)
    if v.kind = kStitch then [(field v.raw 16 4, 64 + 4 * field v.raw 20 1)] else []

/-- The lists of a tile, then the moves onto it. -/
def imgTileFault (img : List Byte) (i : Nat) : Option Nat :=
  let s := imgTile img i
  match imgPassList img i s.2.2.1 (fun _ => {}) (s.2.1 / 128 + 1) with
  | .error o => some o
  | .ok pl => match imgVecList img i s.2.2.2 (s.2.1 / 64 + 1) with
    | .error o => some o
    | .ok vl =>
      let guarded := guardedRanges img i pl vl
      firstBad ((imgMoves img).zipIdx.map fun (m, k) =>
        (!m.out && decide (m.tile = i) && guarded.any fun g => rangesMeet g.1 g.2 m.store (64 * m.blocks), 512 + 16 * k + 12))

/-- The image offset of the first check of R311 that fails. -/
def imageFault (img : List Byte) (reserved : Nat) : Option Nat :=
  (firstBad (imgHeader img reserved ++ imgPlan img ++ imgPad img)).orElse fun _ =>
    (List.range (field img 2 1)).findSome? (imgTileFault img)

/-! ### FIX_LOAD (R311) -/

/-- Window offset of an offset of the load run. -/
def runAt (r : Nat) : Nat := if r < frameMax then r else r + 64

/-- Bytes of the load run. -/
def runBytes (d : Device) (r n : Nat) : List Byte :=
  let low := min n (frameMax - r)
  Mem.bytes d.fix.window (runAt r) low ++ Mem.bytes d.fix.window (runAt (r + low)) (n - low)

/-- Sections at offset 0 of their tiles. -/
def placeSections (img : List Byte) (d : Device) : Device :=
  (fixTiles d).zipIdx.foldl (fun d (t, i) => let s := imgTile img i; storeWrite t 0 (slice img s.1 s.2.1) d) d

/-- The fallback of an image, with its answer cycle. -/
def imgFallback (img : List Byte) : Fallback := { bytes := slice img 256 answerMax, cycle := imgCycle img }

/-- A new fallback takes effect now, or after the answer cycle of the run in progress. -/
def giveFallback (f : Fallback) (d : Device) : Device :=
  if d.fix.run.isSome then { d with fix.nextFb := some f } else { d with fix.fallback := some f, fix.nextFb := none }

/-- The load ends. DESIGN CHOICE: the ledger entry of the last chunk carries the image digest as its act digest (R311), in place of that of
header and payload (R406). The image is installed, or nothing of it and of the old program remains. -/
def endLoad (p : Packet) (img : List Byte) (d : Device) : Device :=
  let d := { d with fix.loading := none }
  match imageFault img (fixTiles d).length with
  | some o =>
    let d := (fixTiles d).foldl (fun d t => clearFixTile true t d) d
    finish p stFixImageInvalid (leBytes 8 o) (saveFix d)
  | none =>
    let dig := digest32 img
    let entry := ledgerDigest p 0x0020 (leBytes 4 p.hdr.opcode.toNat) p.hdr.tenant stOK dig
    let d := placeSections img { d with fix.image := some img, fix.digest := dig }
    finish p stOK dig (saveFix (giveFallback (imgFallback img) (entry d)))

/-- FIX_LOAD. A chunk at image offset 0 begins a load. -/
def fixLoad (p : Packet) (b : List Byte) (d : Device) : Device :=
  let off := field b 0 4; let r := field b 4 4; let n := field b 8 4; let flags := field b 12 4
  if r % 4 ≠ 0 ∨ n % 4 ≠ 0 ∨ n < 4 ∨ r + n > 65408 ∨ flags > 1 then refuse p stBadArgument d
  else privileged p (fun d =>
   if d.fix.armed ∨ d.fix.mask = 0 ∨ (off ≠ 0 ∧ some off ≠ d.fix.loading.map (·.length)) then refuse p stFixState d
   else if fixBusy d then hold p d
   else
    let got := (if off = 0 then [] else d.fix.loading.getD []) ++ runBytes d r n
    let d := { d with fix.loading := some got, fix.image := none, fix.digest := [], fix.commit0 := none, fix.commit1 := none
                      fix.part0 := 0, fix.part1 := 0 }
    if flags = 1 then endLoad p got d else complete p (ledgerConfig p d)) d

def execFixLoad (r : Ref) (s : State) : Out := run (runOp (fixSpec 0x0501 16) r fixLoad) s

/-! ### Running the program -/

/-- Plan cycle 0 (R315): the image's lists stand on their tiles, and the bus plan starts on a frame. -/
def queueImage (img frame : List Byte) (d : Device) : Device :=
  (fixTiles d).zipIdx.foldl (fun d (t, i) =>
    let s := imgTile img i
    onTile t (fun ts => { ts with ovfRows := [], planAt := ts.busyTo, vecAt := ts.busyTo, regFree := []
                                  passes := ts.passes ++ [{ addr := s.2.2.1, origin := .fixed }]
                                  vecs := ts.vecs ++ [{ addr := s.2.2.2, origin := .fixed }] }) d)
    { d with fix.plan := some { moves := imgMoves img, frame := frame.take (field img 4 4) } }

/-- The answer: what the moves carried, in the order of their cycles, onto what it holds where no move writes; bytes at or above L_out are
dropped (R308). -/
def answerOf (img : List Byte) (outs : List (Nat × Nat × List Byte)) (base : List Byte) : List Byte :=
  padTo answerMax ((outs.foldl (fun ans x => ans.take x.2.1 ++ x.2.2 ++ ans.drop (x.2.1 + 64)) base).take (field img 8 2))

/-- Every list of the image has ended on every reserved tile. -/
def listsEnded (d : Device) : Bool :=
  (fixTiles d).all fun t => let ts := tileOf d t
    ts.passes.isEmpty && ts.vecs.isEmpty && ts.flight.isEmpty && ts.vflight.isNone

/-- The cycles of 1.25 ns as whole ns, upward. -/
def cycleEnd (c : Nat) : Nat := ceilDiv (c * 5) 4

/-! ### The check run (R312) -/

/-- What comes next on a tile: the earliest event of its lists, else their END. -/
def planEvent (t : Nat) (d : Device) : Device :=
  let times := planTimes d t
  let first := fun kind => (times.getD kind none).isSome && planTurn d t kind
  let kind := ((tileOf d t).passes.head?).map fun l => (passDesc (storeBytes d t (l.addr + 128 * l.index) 128)).kind
  let vkind := ((tileOf d t).vecs.head?).map fun l => (vecDesc (storeBytes d t (l.addr + 64 * l.index) 64)).kind
  if first 0 then completePass t d
  else if first 1 then completeVec t d
  else if first 2 then seqPass (kind.getD kEnd) (BitVec.ofNat 5 t) d
  else if first 3 then seqVec (vkind.getD kEnd) (BitVec.ofNat 5 t) d
  else if kind = some kEnd then seqPass kEnd (BitVec.ofNat 5 t) d
  else seqVec kEnd (BitVec.ofNat 5 t) d

/-- The lists of a tile run out. -/
def runTile (t : Nat) : Nat → Device → Device
  | 0, d => d
  | fuel + 1, d =>
    let ts := tileOf d t
    if ts.passes.isEmpty && ts.vecs.isEmpty && ts.flight.isEmpty && ts.vflight.isNone then d else runTile t fuel (planEvent t d)

/-- A whole check run at start-up or on leaving Nap, on a zero frame (R518, R522); each descriptor of a section issues and completes. -/
def checkRun (img : List Byte) (d : Device) : Device :=
  let d := (fixTiles d).zipIdx.foldl (fun d (t, i) => runTile t ((imgTile img i).2.1 / 16 + 4) d) (queueImage img [] d)
  { finishPlan d with fix.plan := none }

/-! ### Arming (R312, R313) -/

/-- A × 1.25 ns + 8.75 ns exceeds a bound in µs. -/
def overBound (a bound : Nat) : Bool := decide (a * 5 + 35 > bound * 4000)

/-- The largest A that a bound allows. -/
def largestA (bound : Nat) : Nat := (bound * 4000 - 35) / 5

/-- FIX_ARM: the check run on a zero frame begins. -/
def fixArm (p : Packet) (b : List Byte) (d : Device) : Device :=
  let bound := field b 0 4
  if bound < 4 ∨ bound > 100 then refuse p stBadArgument d
  else privileged p (fun d => match d.fix.image with
    | none => refuse p stFixState d
    | some img =>
      if field img 2 1 ≠ (fixTiles d).length then refuse p stFixState d
      else if fixBusy d then hold p d
      else queueImage img [] { d with fix.arming := some (refOf p, bound) }) d

def execFixArm (r : Ref) (s : State) : Out := run (fun d =>
  if d.fix.arming.any (fun a => a.1 == r) then d else runOp (fixSpec 0x0502 4) r fixArm d) s

/-- FIX_ARM_CHECK_DONE: `dt` ns on, every list of the check run having ended, the device has measured its budget. -/
def execFixArmCheckDone (dt : Nat) (s : State) : Out := run (fun d =>
  match d.fix.arming, d.fix.image with
  | some (r, bound), some img =>
    if !isReady d || !listsEnded d then d
    else
      let measured := planCount img d
      let d := advance dt { finishPlan d with fix.arming := none, fix.plan := none }
      let bad := decide (measured ≠ field img 12 4) || overBound (imgCycle img) bound
      let d' := if bad then d else saveFix { d with fix.armed := true, fix.bound := BitVec.ofNat 7 bound }
      match findPacket d r with
      | none => d'
      | some p =>
        if bad then finish p stFixBudget (leBytes 4 measured ++ leBytes 4 (largestA bound)) d
        else finish p stOK (leBytes 4 measured) (ledgerConfig p d')
  | _, _ => d) s

/-- FIX_DISARM. -/
def fixDisarm (p : Packet) (_ : List Byte) (d : Device) : Device :=
  if d.fix.arming.isSome then hold p d
  else privileged p (fun d =>
    let d := ledgerConfig p d
    if d.fix.armed then complete p (saveFix { d with fix.armed := false }) else refuse p stAlreadyDone d) d

def execFixDisarm (r : Ref) (s : State) : Out := run (runOp (fixSpec 0x0503 0) r fixDisarm) s

/-! ### The input window (R316) -/

/-- The commit word of a buffer. -/
def commitOf (f : FixPart) (b : Bool) : Option FrameCommit := if b then f.commit1 else f.commit0
def setCommit (b : Bool) (c : Option FrameCommit) (f : FixPart) : FixPart := if b then { f with commit1 := c } else { f with commit0 := c }
def partOfCommit (f : FixPart) (b : Bool) : Byte := if b then f.part1 else f.part0
def setPart (b : Bool) (m : Byte) (f : FixPart) : FixPart := if b then { f with part1 := m } else { f with part0 := m }

/-- A write to a buffer now falls into the clash window of the run that consumed it. -/
def clashes (d : Device) (b : Bool) : Bool := match d.fix.run with
  | some r => (match r.frame with
      | some (n, _) => (n == 1) == b && decide (d.clock * 4 < r.clashTo)
      | none => false)
  | none => false

/-- A write to bytes of a frame buffer. -/
def bufferWrite (b : Bool) (off : Nat) (bs : List Byte) (d : Device) : Device :=
  if bs.isEmpty then d
  else if clashes d b then { d with fix.inClash := true, fix.clashes := d.fix.clashes + 1 }
  else { d with fix := setCommit b none { d.fix with window := Mem.store d.fix.window off bs } }

/-- A write to bytes of a commit word: the commit takes effect when all 8 are complete, and not during a load. -/
def commitWrite (b : Bool) (off : Nat) (bs : List Byte) (d : Device) : Device :=
  let base := if b then 0xFFC8 else 0xFFC0
  let f := { d.fix with window := Mem.store d.fix.window off bs }
  if bs.isEmpty then d
  else if f.loading.isSome then { d with fix := setPart b 0 f }
  else
    let m := partOfCommit f b ||| BitVec.ofNat 8 (2 ^ (off - base + bs.length) - 2 ^ (off - base))
    if m ≠ 0xFF then { d with fix := setPart b m f }
    else
      let c : FrameCommit := { seq := BitVec.ofNat 32 (Mem.le f.window base 4), len := BitVec.ofNat 32 (Mem.le f.window (base + 4) 4),
                               order := f.commits }
      { d with fix := { setCommit b (some c) (setPart b 0 f) with commits := f.commits + 1 } }

/-- A write to the input window, region by region; reserved bytes are discarded. -/
def windowWrite (off : Nat) (bs : List Byte) (d : Device) : Device :=
  let part := fun lo hi => slice bs (lo - off) (min (off + bs.length) hi - max lo off)
  let d := bufferWrite false (max 0 off) (part 0 frameMax) d
  let d := bufferWrite true (max 0x8000 off) (part 0x8000 (0x8000 + frameMax)) d
  let d := commitWrite false (max 0xFFC0 off) (part 0xFFC0 0xFFC8) d
  commitWrite true (max 0xFFC8 off) (part 0xFFC8 0xFFD0) d

/-- FRAME_WRITE: a host write to the input window. -/
def execFrameWrite (off : W16) (bytes : List Byte) (s : State) : Out := run (transact (windowWrite off.toNat bytes)) s

/-- FRAME_COMMIT: a host write of a whole commit word. -/
def execFrameCommit (buf : BitVec 1) (seq : W32) (len : W32) (s : State) : Out := 
  run (transact (windowWrite (0xFFC0 + 8 * buf.toNat) (leBytes 4 seq.toNat ++ leBytes 4 len.toNat))) s

/-! ### Triggers (R314, R315, R317) -/

/-- Reasons of R317. -/
abbrev whyShed : Byte := 0x01
abbrev whyIncomplete : Byte := 0x02
abbrev whyStale : Byte := 0x04
abbrev whyNotArmed : Byte := 0x08
abbrev whyForced : Byte := 0x10
abbrev whyFault : Byte := 0x20

/-- The committed buffer that a run takes: of those with a sequence other than the last consumed one, the one committed last. -/
def pickFrame (f : FixPart) : Option (Nat × FrameCommit) :=
  let fresh := ([(0, f.commit0), (1, f.commit1)].filterMap fun (n, c) => c.map fun c => (n, c)).filter fun x => x.2.seq != f.lastSeq
  fresh.foldl (fun m x => match m with
    | none => some x
    | some y => if y.2.order < x.2.order then some x else some y) none

/-- The judgement of R316 on the frame: reason bits, none where it is complete or no image is loaded. -/
def judgeFrame (f : FixPart) : Byte := match f.image with
  | none => 0
  | some img => match pickFrame f with
    | some (_, c) => if c.len.toNat = field img 4 4 then 0 else whyIncomplete
    | none => if f.commit0.isSome || f.commit1.isSome then whyStale else whyIncomplete

/-- Every reason at cycle 1 (R317). -/
def runReasons (d : Device) : Byte :=
  (if d.pwr.stage ≥ 4 then whyShed else 0) ||| judgeFrame d.fix |||
  (if d.fix.armed && d.fix.arming.isNone && d.fix.loading.isNone then 0 else whyNotArmed) ||| (if d.fix.forceFb then whyForced else 0)

/-- End of the clash window of a run that starts now, in quarters of a ns (R316). -/
def clashEnd (d : Device) (img : List Byte) : Nat :=
  d.clock * 4 + 5 * ((((imgMoves img).filter (!·.out)).map fun m => 2 + m.start + m.blocks).foldl max 2)

/-- An accepted trigger with a fallback in effect: cycles 0 to 2. -/
def startRun (fb : Fallback) (d : Device) : Device :=
  let why := runReasons d
  let r : FixRun := { number := d.fix.runNo, reasons := why, wall := wallNow d, frame := none, at_ := d.clock, fb := fb, clashTo := 0 }
  match d.fix.image, pickFrame d.fix with
  | some img, some (n, c) =>
    if why ≠ 0 then { d with fix.run := some r }
    else
      let frame := Mem.bytes d.fix.window (if n = 1 then 0x8000 else 0) (field img 4 4)
      let d := { d with fix.run := some { r with frame := some (n, c.seq), clashTo := clashEnd d img }, fix.lastSeq := c.seq }
      queueImage img frame d
  | _, _ => { d with fix.run := some r }

/-- A trigger from the pin or from the Gauge (R314). -/
def fixTrigger (d : Device) : Device :=
  if !(coreAlive d && decide (d.boot.phase = .ready ∨ d.boot.phase = .lowPower)) then d
  else if d.fix.run.isSome then { d with fix.overlap := true, fix.overlaps := d.fix.overlaps + 1 }
  else
    let d := { d with fix.rdy := false, fix.runNo := d.fix.runNo + 1 }
    match d.fix.fallback with
    | none => { d with fix.overlaps := d.fix.overlaps + 1 }
    | some fb => startRun fb d

/-- TRIG: a rising edge on the pin, if TRIG_SRC admits it; it may be a wake source (R523). -/
def execTrig (s : State) : Out := run (fun d =>
  let d := if d.fix.trigSrc = 0 ∨ d.fix.trigSrc = 2 then fixTrigger d else d
  if coreAlive d ∧ d.boot.trigWake then wakeUp 5 d else d) s

/-! ### The answer (R315, R318, R320, R321, R499) -/

/-- The status record. -/
def statusRecord (st : W16) (why : Byte) (r : FixRun) (seq : W32) : List Byte :=
  leBytes 2 st.toNat ++ [why, 0] ++ leBytes 4 r.number.toNat ++ leBytes 4 seq.toNat ++ zeros 4 ++ leBytes 8 r.wall ++ zeros 4 ++
  leBytes 4 r.number.toNat

/-- The answer selection switches, the record is written, RDY rises. -/
def putAnswer (r : FixRun) (why : Byte) (seq : W32) (ans : List Byte) (d : Device) : Device :=
  let st := if why = 0 then stOK else stDegraded
  { d with
    fix.answer := ans
    fix.record := statusRecord st why r seq
    fix.lastDegraded := decide (why ≠ 0)
    fix.degraded := if why = 0 then d.fix.degraded else d.fix.degraded + 1
    fix.rdy := true
    fix.run := none
    fix.plan := none
    panel.pulse := if why = 0 then d.panel.pulse else some d.clock
    fix.fallback := d.fix.nextFb.orElse fun _ => d.fix.fallback
    fix.nextFb := none }

/-- The twin port is UP with a TWIN partner (R494). -/
def twinUp (d : Device) : Bool := let p := SMap.get {} d.link.ports 3; p.state == .up && decide (p.mode = 2)

/-- Compare two reports of a Fixed-plane run (R499). -/
def fixCompare (seq : W32) (a b : List Byte) (d : Device) : Device :=
  let d := { d with audit.cmpCount := d.audit.cmpCount + 1 }
  if a = b then d
  else { d with audit.divCount := d.audit.divCount + 1, audit.fixDiv := true, audit.divSeq := seq }

/-- Report a run on the normal path to the twin partner, and compare it with what the partner reported (R499). -/
def reportRun (seq : W32) (d : Device) : Device :=
  if !d.audit.fixCompare || !twinUp d then d
  else
    let dig := (digest32 (d.fix.answer ++ d.fix.record.take 4)).take 16
    let d := sendMsg { kind := 3, dest := 0xFFE, tenant := 0, job := 0, epoch := 0, body := .twinFix seq dig } d
    match d.audit.theirRuns.find? fun x => x.seq == seq with
    | some x => fixCompare seq dig x.digest { d with audit.theirRuns := d.audit.theirRuns.filter fun x => x.seq != seq }
    | none => { d with audit.myRuns := d.audit.myRuns ++ [{ seq := seq, digest := dig, at_ := d.clock }] }

/-- Lists of fixed origin leave the reserved tiles. -/
def dropFixLists (d : Device) : Device :=
  (fixTiles d).foldl (fun d t => onTile t (fun ts => { ts with passes := [], vecs := [], flight := [], vflight := none }) d) d

/-- ANSWER_CYCLE: cycle A of the run in progress. -/
def execAnswerCycle (s : State) : Out := run (fun d =>
  match d.fix.run with
  | none => d
  | some r =>
    if !coreAlive d then d
    else
      let d := advanceTo (r.at_ + cycleEnd r.fb.cycle) d
      match r.frame with
      | none => putAnswer r r.reasons 0 r.fb.bytes d
      | some (_, seq) =>
        match d.fix.image with
        | some img =>
          if listsEnded d then
            let d := finishPlan d
            let outs := (d.fix.plan.map (·.outs)).getD []
            reportRun seq (putAnswer r 0 seq (answerOf img outs (freeBytes answerMax d)) (spend answerMax d))
          else reportRun seq (internalFault 1 r.number.toNat
            (putAnswer r whyFault 0 r.fb.bytes (dropFixLists { d with fix.armed := false })))
        | none => internalFault 1 r.number.toNat (putAnswer r whyFault 0 r.fb.bytes { d with fix.armed := false })) s

/-- FIX_RDY_CLR_WRITE (R337). -/
def rdyClear (v : W32) (d : Device) : Device := if v.getLsbD 0 then { d with fix.rdy := false } else d

def execFixRdyClrWrite (v : W32) (s : State) : Out := run (transact (rdyClear v)) s

/-! ### The output window (R320) and the FIX registers (R337) -/

/-- Byte of the output window. -/
def outputByte (d : Device) (off : Nat) : Byte :=
  if off < 0x100 then byteAt d.fix.answer off
  else if off < 0x120 then byteAt d.fix.record (off - 0x100)
  else if 0x200 ≤ off ∧ off < 0x300 then (match d.fix.fallback with | some f => byteAt f.bytes (off - 0x200) | none => 0)
  else 0

/-- Byte of the input window. -/
def inputByte (d : Device) (off : Nat) : Byte := Mem.byte d.fix.window off

def bitAt (b : Bool) (n : Nat) : Nat := if b then 2 ^ n else 0

/-- A FIX register. -/
def fixReg (d : Device) (off : Nat) : Nat :=
  let f := d.fix
  if off = 0x000 then bitAt f.forceFb 2 + f.trigSrc.toNat
  else if off = 0x004 then
    (fixTiles d).length * 2 ^ 28 + bitAt f.inClash 7 + bitAt f.overlap 6 + bitAt f.lastDegraded 5 + bitAt f.run.isSome 4 +
    bitAt f.loading.isSome 3 + bitAt f.fallback.isSome 2 + bitAt f.armed 1 + bitAt f.rdy 0
  else if off = 0x008 then f.mask.toNat
  else if off = 0x00C then f.bound.toNat
  else if off = 0x010 then (match f.fallback with | some x => x.cycle | none => 0)
  else if off = 0x014 then f.runNo.toNat
  else if off = 0x018 then f.degraded.toNat
  else if off = 0x01C then f.overlaps.toNat
  else if off = 0x020 then f.clashes.toNat
  else if off = 0x024 then f.lastSeq.toNat
  else if 0x040 ≤ off ∧ off ≤ 0x05C then field f.digest (off - 0x040) 4
  else 0

/-- A write to a FIX register. -/
def fixRegWrite (off : Nat) (v : W32) (d : Device) : Device :=
  if off = 0x000 then
    rwl 0x30000 byEither true (fun d => { d with fix.forceFb := v.getLsbD 2, fix.trigSrc := BitVec.ofNat 2 v.toNat }) d
  else if off = 0x004 then
    { d with fix.inClash := d.fix.inClash && !v.getLsbD 7, fix.overlap := d.fix.overlap && !v.getLsbD 6 }
  else if off = 0x028 then rdyClear v d
  else d

end Sys2Proof.Machine
end

