-- ==== Sys2Proof/Machine/Flash.lean ====
section
/-! DEFINITION. Flash arrays (13_flash): shares, the block table, the operations of the dies with their order, suspension and
transfers, wear, the OTP row, and the opcodes of 0x07xx. -/

namespace Sys2Proof.Machine

abbrev flashPage : Nat := 16384
abbrev pagesPerBlock : Nat := 512
abbrev blocksPerDie : Nat := 8192

/-- Fields of a page address (R415): its block in the whole device, its block number, channel, and die of the whole device. -/
def blockKey (page : Nat) : Nat := page / pagesPerBlock
def blockNumber (page : Nat) : Nat := page / pagesPerBlock % blocksPerDie
def flashChannel (page : Nat) : Nat := page / 2 ^ 23
def dieOf (page : Nat) : Nat := page / 2 ^ 22

def blockOf (d : Device) (k : Nat) : FlashBlock := SMap.get {} d.flash.blocks k
def onBlock (k : Nat) (f : FlashBlock → FlashBlock) (d : Device) : Device := { d with flash.blocks := SMap.modify {} d.flash.blocks k f }

/-- A block belongs to a partition's share (R416, R417). -/
def blockInShare (t : Nat) (q : Partition) (k : Nat) : Bool :=
  let n := k % blocksPerDie
  decide (8 ≤ n) && q.flashMask.getLsbD (k / (2 * blocksPerDie)) && (q.sealed || n % 8 == t - 1)

/-- A page address is one of the caller's share; its reserved bits are zero (R415, R417). -/
def pageInShare (d : Device) (t page : Nat) : Bool := match partOf d t with
  | some q => decide (page < 2 ^ 27) && blockInShare t q (blockKey page)
  | none => false

/-- Data blocks of a share (R414, R417). -/
def shareBlocks (q : Partition) : Nat := (maskList 16 q.flashMask.toNat).length * 2 * (if q.sealed then 8184 else 1023)

/-- The entries of a share's blocks. -/
def shareEntries (d : Device) (t : Nat) (q : Partition) : List (Nat × FlashBlock) := d.flash.blocks.filter fun x => blockInShare t q x.1

/-- The page has been programmed since the block's last erase, or was consumed (R421). -/
def isProgrammed (b : FlashBlock) (n : Nat) : Bool := match b.state with
  | .erased => false
  | .open_ => decide (n < b.next)
  | .full | .erasing | .worn => true

/-- Take the pages of a block away. -/
def dropPages (k : Nat) (d : Device) : Device := { d with flash.pages := d.flash.pages.filter fun p => p.1 / pagesPerBlock ≠ k }

/-- An erase ends: the block is ERASED, FRAYED by R430, or WORN (R432). -/
def eraseBlock (k : Nat) (frays worn : Bool) (d : Device) : Device :=
  dropPages k (onBlock k (fun b =>
    let n := b.erases + 1
    { state := if worn then .worn else .erased, erases := n, frayed := b.frayed || frays || decide (n.toNat > 3000) }) d)

/-! ### The operations of a die -/

def jobDie (j : FlashJob) : Nat := dieOf j.page
def onFlashJob (order : Nat) (f : FlashJob → FlashJob) (d : Device) : Device :=
  { d with flash.jobs := d.flash.jobs.map fun j => if j.order = order then f j else j }
def dropFlashJob (order : Nat) (d : Device) : Device := { d with flash.jobs := d.flash.jobs.filter fun j => j.order ≠ order }

/-- It holds its die (R422). -/
def FlashJob.active (j : FlashJob) : Bool := match j.phase with
  | .dataIn _ | .array _ | .suspending | .dataOut _ => true
  | .queued | .suspended => false

def activeJob (d : Device) (die : Nat) : Option FlashJob := d.flash.jobs.find? fun j => jobDie j == die && j.active
def suspendedJob (d : Device) (die : Nat) : Option FlashJob := d.flash.jobs.find? fun j => jobDie j == die && j.phase == .suspended

def FlashKind.reads : FlashKind → Bool
  | .read | .verify | .margin => true
  | .program | .erase => false

/-- An operation may start now: no earlier one on its block is unfinished (R424), nothing suspended stands in its way (R426), and
the shed stage allows it (R427). -/
def mayBegin (d : Device) (j : FlashJob) : Bool :=
  j.phase == .queued && decide (j.sources = 0) && !(d.flash.jobs.any fun x => blockKey x.page == blockKey j.page && decide (x.order < j.order)) &&
  (match j.kind, suspendedJob d (jobDie j) with
   | .program, none => decide (d.pwr.stage = 0)
   | .program, some s => decide (d.pwr.stage = 0) && s.kind == .erase
   | .erase, none => decide (d.pwr.stage = 0)
   | .erase, some _ => false
   | _, _ => decide (d.pwr.stage ≤ 3))

/-- The order of R422: latest-service time, then acceptance. -/
def flashBefore (a b : FlashJob) : Bool := decide (a.lst < b.lst) || (decide (a.lst = b.lst) && decide (a.order ≤ b.order))
def firstJob : List FlashJob → Option FlashJob
  | [] => none
  | j :: js => match firstJob js with
    | none => some j
    | some x => some (if flashBefore j x then j else x)

/-- Raise the arbiter request of the die's next codeword (R218, R422). -/
def raiseCodeword (j : FlashJob) (d : Device) : Device :=
  raiseReq (32 + flashChannel j.page) { who := 32, lst := j.lst, tenant := j.tenant, job := 0, load := .flash (jobDie j) } d

/-- Complete the packet of an operation and take the operation away. -/
def endFlash (j : FlashJob) (st : W16) (res : List Byte) (d : Device) : Device :=
  let d := dropFlashJob j.order d
  match j.ref.bind (findPacket d) with
  | some p => finish p st res d
  | none => d

/-- FRAYED stands over OK on a FRAYED block (R430, R439). -/
def wearStatus (d : Device) (j : FlashJob) : W16 := if (blockOf d (blockKey j.page)).frayed then stFrayed else stOK

/-- The result of FLASH_READ. -/
def readResult (j : FlashJob) (failed : Bool) : List Byte :=
  leBytes 2 j.done ++ leBytes 2 (if failed then j.page % pagesPerBlock + j.done else 0xFFFF) ++ leBytes 2 j.tight ++ zeros 2

/-- The result of FLASH_PROGRAM. -/
def programResult (d : Device) (j : FlashJob) : List Byte :=
  leBytes 2 j.done ++ [j.loops, 0] ++ leBytes 4 (blockOf d (blockKey j.page)).erases.toNat

/-- The record of FLASH_VERIFY (R434). -/
def verifyRecord (j : FlashJob) : List Byte :=
  leBytes 2 j.compared ++ leBytes 2 (j.firstBad.getD 0xFFFF) ++ leBytes 2 j.maxDiff ++ leBytes 2 j.above ++ leBytes 4 j.total ++ zeros 4

/-- A verify ends: the first F status stands, and a mismatch returns its record (R434, R439). -/
def endVerify (j : FlashJob) (d : Device) : Device :=
  if j.status = stOK then endFlash j (wearStatus d j) (verifyRecord j) d
  else if j.status = stVerifyMismatch then endFlash j stVerifyMismatch (verifyRecord j) d
  else endFlash j j.status [] d

/-- The page meets a block that has not programmed it: no die operation (R421). -/
def endUnprogrammed (j : FlashJob) (d : Device) : Device := match j.kind with
  | .read => endFlash j stNotProgrammed (readResult j true) d
  | .verify => endVerify { j with status := if j.status = stOK then stNotProgrammed else j.status } d
  | _ => endFlash j stNotProgrammed [] d

/-- The die takes an operation up, or the operation ends without one (R421, R432). -/
def beginJob (j : FlashJob) (d : Device) : Device :=
  let b := blockOf d (blockKey j.page)
  let array := fun d => onFlashJob j.order (fun j => { j with phase := .array d.clock }) d
  if b.state = .worn then endFlash j stWorn [] d
  else match j.kind with
    | .read | .verify | .margin =>
      if isProgrammed b (j.page % pagesPerBlock + j.done) then array d else endUnprogrammed j d
    | .program =>
      if j.done = 0 ∧ !((b.state = .erased ∨ b.state = .open_) ∧ b.next = j.page % pagesPerBlock) then endFlash j stPageOrder [] d
      else raiseCodeword j (onFlashJob j.order (fun j => { j with phase := .dataIn 4 }) d)
    | .erase => array (onBlock (blockKey j.page) (fun b => { b with state := .erasing }) d)

/-- A suspended operation may go on: no read waits that could run, and for an erase no program either (R425 to R427). -/
def mayResume (d : Device) (s : FlashJob) : Bool :=
  decide (d.pwr.stage = 0) && !(d.flash.jobs.any fun j => jobDie j == jobDie s && mayBegin d j &&
    (j.kind.reads || (s.kind == .erase && j.kind == .program)))

/-- A free die starts what it may start, or resumes what it suspended (R422, R425, R426). -/
def pumpDie (die : Nat) : Nat → Device → Device
  | 0, d => d
  | fuel + 1, d =>
    if (activeJob d die).isSome then d
    else match firstJob (d.flash.jobs.filter fun j => jobDie j == die && mayBegin d j) with
      | some j => pumpDie die fuel (beginJob j d)
      | none => match suspendedJob d die with
        | some s => if mayResume d s then onFlashJob s.order (fun j => { j with phase := .array d.clock }) d else d
        | none => d

/-- Minimum run in ns before an operation may be suspended (R425, R426). -/
def minRun (d : Device) (k : FlashKind) : Nat :=
  (if k = .erase then bitsOf d.flash.suspendCfg.toNat 16 16 else bitsOf d.flash.suspendCfg.toNat 0 16) * 1000

/-- Something queued on the die asks for a suspension of the operation in progress, which can be suspended (R425, R426). -/
def suspendWanted (d : Device) (j : FlashJob) : Bool :=
  (suspendedJob d (jobDie j)).isNone &&
  d.flash.jobs.any fun x => jobDie x == jobDie j && x.phase == .queued && match j.kind with
    | .erase => (x.kind.reads || x.kind == .program) && blockKey x.page != blockKey j.page
    | .program => x.kind.reads && blockKey x.page != blockKey j.page
    | _ => false

/-- Trigger a suspension that is wanted and whose minimum run has passed. -/
def considerSuspend (die : Nat) (d : Device) : Device := match activeJob d die with
  | some j => match j.phase with
    | .array since =>
      if suspendWanted d j ∧ since + minRun d j.kind ≤ d.clock then onFlashJob j.order (fun j => { j with phase := .suspending }) d else d
    | _ => d
  | none => d

/-- The die goes on after a change. -/
def serveDie (die : Nat) (d : Device) : Device := considerSuspend die (pumpDie die (d.flash.jobs.length + 1) d)

/-- A packet's operation joins its die's queue. -/
def queueFlash (j : FlashJob) (d : Device) : Device := serveDie (jobDie j) { d with flash.jobs := d.flash.jobs ++ [j] }

/-! ### Reads (R419, R433, R434) -/

/-- The class of a codeword by R419. -/
def codewordClass (d : Device) (stored : Bool) (cls : EccClass) (bits : Nat) : EccClass :=
  if !stored then .uncorrectable else if cls = .corrected ∧ bits > d.flash.bits.toNat then .tight else cls

/-- Count a decoded codeword (R441). A hard decision corrects up to 96 bits, so one that is Tight by its count alone needs no retry, and
a margin read of R433 that uses hard decision only makes none. -/
def countCodeword (d : Device) (hard : Bool) (cls : EccClass) (bits : Nat) : Device :=
  match cls with
  | .clean => d
  | .corrected => { d with flash.corrCount := d.flash.corrCount + 1 }
  | .tight =>
    let retried := !hard && (decide (bits ≤ d.flash.bits.toNat) || decide (bits > 96))
    { d with flash.corrCount := d.flash.corrCount + 1, flash.retryCount := if retried then d.flash.retryCount + 1 else d.flash.retryCount }
  | .uncorrectable =>
    { d with flash.retryCount := if hard then d.flash.retryCount else d.flash.retryCount + 1, flash.uncorrCount := d.flash.uncorrCount + 1 }

def eccCode : EccClass → Nat
  | .clean => 0
  | .corrected => 1
  | .tight => 2
  | .uncorrectable => 3

def worse (a b : EccClass) : EccClass := if eccCode a < eccCode b then b else a

/-- Bits in which two byte strings differ. -/
def bitDiff (a b : List Byte) : Nat := ((a.zip b).map fun (x, y) => ((List.range 8).filter fun i => (x ^^^ y).getLsbD i).length).sum

/-- Raw differences of a codeword from the source before ECC: known to within the bits in error, whose places are not (R434). -/
def rawDiff (d : Device) (h : Nat) (cls : EccClass) (bits : Nat) : Nat :=
  if cls = .uncorrectable then Config.freeNat d.freeCtr % 32769
  else h - min h bits + Config.freeNat d.freeCtr % (min h bits + bits + 1)

/-- The page of the arena range that a program takes next or a verify compares with (R434, R439). -/
def sourcePage (d : Device) (j : FlashJob) : List Byte := match bufOf d j.tenant.toNat j.range.1 with
  | some (_, b) => bufRead d b (j.range.2 + j.done * flashPage) flashPage
  | none => zeros flashPage

/-- The page of an operation goes on to the next, or its die takes up other work first (R422). -/
def nextPage (j : FlashJob) (d : Device) : Device := onFlashJob j.order (fun _ => { j with phase := .queued }) d

/-- A page of FLASH_READ is decoded (R419, R439). -/
def pageRead (j : FlashJob) (cls : EccClass) (data : List Byte) (d : Device) : Device :=
  if cls = .uncorrectable then endFlash j stFlashUncorrectable (readResult j true) d
  else
    let d := match j.ref, bufOf d j.tenant.toNat j.range.1 with
      | some _, some (slot, b) =>
        let off := j.range.2 + j.done * flashPage
        touch j.tenant.toNat slot b off flashPage (bufWrite j.tenant.toNat slot b off data d)
      | _, _ => d
    let j := { j with done := j.done + 1, tight := j.tight + if cls = .tight then 1 else 0 }
    if j.done = j.count then endFlash j (wearStatus d j) (readResult j false) d else nextPage j d

/-- A page of FLASH_VERIFY is compared (R434). -/
def pageVerify (j : FlashJob) (got : List (EccClass × Nat)) (data : List Byte) (d : Device) : Device :=
  let src := sourcePage d j
  let (diffs, d) := got.zipIdx.foldl (fun (acc, d) ((cls, bits), c) =>
    let h := bitDiff (slice data (4096 * c) 4096) (slice src (4096 * c) 4096)
    (acc ++ [rawDiff d h cls bits], spend 1 d)) (([] : List Nat), d)
  let above := (diffs.filter fun n => decide (n > 32)).length
  let bad := if j.mode = 0 then decide (data ≠ src) || got.any fun x => x.1 == .uncorrectable else decide (above ≠ 0)
  let j := { j with
    done := j.done + 1, compared := j.compared + 1, maxDiff := diffs.foldl max j.maxDiff, above := j.above + above,
    total := j.total + diffs.sum, status := if bad ∧ j.status = stOK then stVerifyMismatch else j.status,
    firstBad := if bad ∧ j.firstBad.isNone then some (j.page % pagesPerBlock + j.done) else j.firstBad }
  if j.done = j.count then endVerify j d else nextPage j d

/-- The result of FLASH_MARGIN (R433, R438): a codeword that a hard decision cannot decode counts 0xFFFF. -/
def marginResult (j : FlashJob) (got : List (EccClass × Nat)) : List Byte :=
  let count := fun (x : EccClass × Nat) => if j.mode ≠ 0 ∧ x.1 = .uncorrectable then 0xFFFF else min x.2 0xFFFF
  got.flatMap (fun x => leBytes 2 (count x)) ++ got.map (fun x => BitVec.ofNat 8 (eccCode x.1)) ++ zeros 4

/-- The four codewords of a margin read are decoded; WORST reads at both offsets (R433). -/
def pageMargin (j : FlashJob) (got : List (EccClass × Nat)) (d : Device) : Device :=
  if j.mode = 3 ∧ j.part.isEmpty then onFlashJob j.order (fun j => { j with part := got, phase := .array d.clock }) d
  else
    let both := if j.mode = 3 then (j.part.zip got).map fun ((c, n), (c', n')) => (worse c c', max n n') else got
    endFlash j (wearStatus d j) (marginResult j both) d

/-- The four codewords of a page have been transferred and decoded. -/
def pageDecoded (j : FlashJob) (got : List (EccClass × Nat)) (d : Device) : Device :=
  let data := match Assoc.find d.flash.pages (j.page + j.done) with | some p => p.data | none => zeros flashPage
  let cls := got.foldl (fun c x => worse c x.1) .clean
  let frays := decide (cls = .tight) && (j.kind == .read || ((j.kind == .verify || j.kind == .margin) && decide (j.mode = 0)))
  let d := if frays then onBlock (blockKey j.page) (fun b => { b with frayed := true }) d else d
  match j.kind with
  | .read => pageRead j cls data d
  | .verify => pageVerify j got data d
  | _ => pageMargin j got d

/-- FLASH_CODEWORD_TRANSFER (R422): the die's transfer, which owns its channel, ends. -/
def execFlashCodewordTransfer (die : BitVec 5) (cls : EccClass) (bits : W16) (s : State) : Out := run (fun d =>
  let n := die.toNat; let point := 32 + n / 2
  match (arbOf d point).owner, activeJob d n with
  | some r, some j =>
    if !coreAlive d || decide (r.load ≠ .flash n) then d
    else
      let d := onArb point (fun a => { a with owner := none }) d
      match j.phase with
      | .dataIn left =>
        if left ≤ 1 then onFlashJob j.order (fun j => { j with phase := .array d.clock, data := sourcePage d j }) d
        else raiseCodeword j (onFlashJob j.order (fun j => { j with phase := .dataIn (left - 1) }) d)
      | .dataOut got =>
        let stored := (Assoc.find d.flash.pages (j.page + j.done)).isSome
        let cls := codewordClass d stored cls bits.toNat
        let d := if j.kind = .verify ∧ j.mode = 1 then d else countCodeword d (j.kind == .margin && decide (j.mode ≠ 0)) cls bits.toNat
        let got := got ++ [(cls, bits.toNat)]
        if got.length < 4 then raiseCodeword j (onFlashJob j.order (fun j => { j with phase := .dataOut got }) d)
        else serveDie n (pageDecoded j got d)
      | _ => d
  | _, _ => d) s

/-! ### Programs and erases (R421, R423, R430 to R432) -/

/-- A page's program ends: it is stored, or consumed by a PROGRAM_FAIL. -/
def pageProgrammed (j : FlashJob) (out : ArrayOutcome) (d : Device) : Device :=
  let k := blockKey j.page; let at_ := j.page + j.done; let n := at_ % pagesPerBlock
  let loops := BitVec.ofNat 8 (min out.loops 255)
  let page : FlashPage := { data := j.data, erases := (blockOf d k).erases, tenant := j.tenant }
  let d := onBlock k (fun b => { b with
    state := if n = 511 then .full else .open_
    next := n + 1
    loops := if b.loops < loops then loops else b.loops
    frayed := b.frayed || out.failed || decide (out.loops > d.flash.ploops.toNat)
    lost := if out.failed then b.lost ++ [n] else b.lost }) d
  let j := { j with loops := if j.loops < loops then loops else j.loops }
  if out.failed then endFlash j stProgramFail (programResult d j) d
  else
    let d := { d with flash.pages := Assoc.insert d.flash.pages at_ page }
    let j := { j with done := j.done + 1 }
    if j.done = j.count ∨ j.ref.isNone then endFlash j (wearStatus d j) (programResult d j) d else nextPage j d

/-- FLASH_ARRAY_OP_COMPLETE (R423). A read whose packet is gone delivers nothing (R429). -/
def execFlashArrayOpComplete (die : BitVec 5) (out : ArrayOutcome) (s : State) : Out := run (fun d =>
  let n := die.toNat
  match activeJob d n with
  | some j =>
    if !coreAlive d then d
    else match j.phase, j.kind with
      | .array _, .program | .suspending, .program => serveDie n (pageProgrammed j out d)
      | .array _, .erase | .suspending, .erase =>
        let d := eraseBlock (blockKey j.page) (decide (out.loops > d.flash.eloops.toNat)) out.failed d
        let b := blockOf d (blockKey j.page)
        let res := leBytes 4 b.erases.toNat ++ [BitVec.ofNat 8 (min out.loops 255), 0, 0, 0]
        serveDie n (if out.failed then endFlash j stWorn [] d else endFlash j (wearStatus d j) res d)
      | .array _, _ =>
        if j.ref.isNone then serveDie n (dropFlashJob j.order d)
        else raiseCodeword j (onFlashJob j.order (fun j => { j with phase := .dataOut [] }) d)
      | _, _ => d
  | none => d) s

/-- FLASH_SUSPEND (R425): the suspension completes and the die is free. -/
def execFlashSuspend (die : BitVec 5) (s : State) : Out := run (fun d =>
  match activeJob d die.toNat with
  | some j =>
    if coreAlive d ∧ j.phase = .suspending then
      serveDie die.toNat { (onFlashJob j.order (fun j => { j with phase := .suspended }) d) with
        flash.suspendCount := d.flash.suspendCount + 1 }
    else d
  | none => d) s

/-- MIN_RUN_ELAPSED (R425, R426): the minimum run of the operation in progress has passed while something waits for it. -/
def execMinRunElapsed (die : BitVec 5) (s : State) : Out := run (fun d =>
  match activeJob d die.toNat with
  | some j => match j.phase with
    | .array since => if coreAlive d ∧ suspendWanted d j then considerSuspend die.toNat (advanceTo (since + minRun d j.kind) d) else d
    | _ => d
  | none => d) s

/-! ### The shed stage (R427) -/

/-- Stage 1: erases and suspendable programs in progress are suspended at once, and a program whose data is still going in does not
start. -/
def shedFlash (d : Device) : Device :=
  let inward := fun (j : FlashJob) => match j.phase with | .dataIn _ => true | _ => false
  let dies := (d.flash.jobs.filter inward).map jobDie
  let d := withdrawReqs (fun r => match r.load with | .flash n => dies.contains n | _ => false) d
  { d with
    flash.jobs := d.flash.jobs.map fun j => match j.phase, j.kind with
      | .array _, .erase => { j with phase := .suspending }
      | .array _, .program => if (suspendedJob d (jobDie j)).isNone then { j with phase := .suspending } else j
      | .dataIn _, _ => { j with phase := .queued }
      | _, _ => j }

/-- Stage 0 again: every die goes on, in die order. -/
def unshedFlash (d : Device) : Device := (List.range 32).foldl (fun d die => serveDie die d) d

/-! ### Resets (R428) -/

/-- What a reset that stops the flash leaves: an erase in progress leaves ERASING, a program in progress has consumed its page. -/
def stopFlash (d : Device) : Device :=
  let d := d.flash.jobs.foldl (fun d j =>
    match j.kind, j.phase with
    | .program, .array _ | .program, .suspending | .program, .suspended =>
      let at_ := j.page + j.done; let k := blockKey at_
      { d with flash.interrupted := d.flash.interrupted ++
          [(at_, { data := j.data, erases := (blockOf d k).erases, tenant := j.tenant })] }
    | _, _ => d) d
  { d with flash.jobs := [] }

/-- Start-up reads each interrupted page: programmed when it decodes with its own address, otherwise passed over (R428). -/
def settleInterrupted (pageOk : Bool) (d : Device) : Device :=
  d.flash.interrupted.foldl (fun d (at_, page) =>
    let n := at_ % pagesPerBlock
    let d := onBlock (blockKey at_) (fun b => { b with
      state := if n = 511 then .full else .open_, next := n + 1, lost := if pageOk then b.lost else b.lost ++ [n] }) d
    if pageOk then { d with flash.pages := Assoc.insert d.flash.pages at_ page } else d) { d with flash.interrupted := [] }

/-- ERASE_RESTART (R428): an interrupted erase of the die starts again. -/
def execEraseRestart (die : BitVec 5) (s : State) : Out := run (fun d =>
  let waits := d.flash.blocks.find? fun (k, b) =>
    k / blocksPerDie == die.toNat && b.state == .erasing && !(d.flash.jobs.any fun j => blockKey j.page == k)
  match waits with
  | some (k, _) =>
    if isReady d ∧ d.pwr.stage = 0 then
      queueFlash { ref := none, tenant := 0, kind := .erase, page := k * pagesPerBlock, order := d.cmd.nextOrder, lst := noDeadline }
        { d with cmd.nextOrder := d.cmd.nextOrder + 1 }
    else d
  | none => d) s

/-! ### Removal and kept blocks (R402, R429) -/

/-- Stage 3 of a removal: queued operations and transfers go; an array operation runs on and delivers nothing. -/
def dropFlash (t : Byte) (d : Device) : Device :=
  let keep := fun (j : FlashJob) =>
    if j.tenant ≠ t then some j
    else match j.phase with
      | .array _ | .suspending | .suspended => some { j with ref := none }
      | _ => none
  withdrawReqs (fun r => r.tenant == t) { d with flash.jobs := d.flash.jobs.filterMap keep }

/-- An erase that no packet reports: whether it wears the block out or frays it is open (R430, R432). -/
def eraseQuietly (k : Nat) (d : Device) : Device :=
  eraseBlock k (Config.freeBit d.freeCtr) (Config.freeBit (d.freeCtr + 1)) (spend 2 d)

/-- Blocks of a share that hold something. -/
def usedBlocks (d : Device) (t : Nat) (q : Partition) : List Nat :=
  ((shareEntries d t q).filter fun x => x.2.state != .erased && x.2.state != .worn).map (·.1)

/-- Stage 6 of a removal: erase the share's blocks, or tag them as kept (R402). -/
def removeBlocks (t : Nat) (q : Partition) (purge : Bool) (d : Device) : Nat × Device :=
  let ks := usedBlocks d t q
  if purge then (ks.length, ks.foldl (fun d k => eraseQuietly k d) d)
  else (0, ks.foldl (fun d k => onBlock k (fun b => { b with tag := some (digest32 q.pub) }) d) d)

/-- Kept blocks of another key on the channels of a flash mask (R373). -/
def keptBlocks (d : Device) (mask : W16) (digest : List Byte) : List Nat :=
  (d.flash.blocks.filter fun (k, b) => mask.getLsbD (k / (2 * blocksPerDie)) && b.tag.any (· != digest)).map (·.1)

/-- A new partition takes back the blocks kept for its key, and those of other keys are erased (R402). -/
def takeBlocks (t : Nat) (q : Partition) (d : Device) : Device :=
  let digest := digest32 q.pub
  let d := (keptBlocks d q.flashMask digest).foldl (fun d k => eraseQuietly k d) d
  { d with flash.blocks := d.flash.blocks.map fun (k, b) =>
      if blockInShare t q k && b.tag == some digest then (k, { b with tag := none }) else (k, b) }

/-! ### Opcodes (R438, R439) -/

def flashSpec (opcode size : Nat) (reserved : List (Nat × Nat) := []) : OpSpec :=
  { opcode := opcode, size := some size, part := true, reserved := reserved }

/-- An erase of the block is accepted and not complete (R424, R428). -/
def erasePending (d : Device) (k order : Nat) : Bool :=
  decide ((blockOf d k).state = .erasing) || d.flash.jobs.any fun j => j.kind == .erase && blockKey j.page == k && decide (j.order < order)

/-- The arguments of an operation over pages and an arena range (R439): the status to refuse with, or the buffer. -/
def pageArgs (d : Device) (t : Nat) (b : List Byte) : Except W16 (Nat × Buffer × Nat) :=
  let page := field b 0 4; let n := field b 4 2
  if n = 0 ∨ n > 512 ∨ page % pagesPerBlock + n > pagesPerBlock ∨ !pageInShare d t page then .error stBadArgument
  else spanOf d t (arenaRef b 8) (n * flashPage)

/-- An operation whose source pages lie in a buffer joins its die's queue; a stream engine of one of the tenant's tiles reads what of them is
in DRAM, with the operation's deadline, before the die takes it up (R35). -/
def queueSourced (j : FlashJob) (b : Buffer) (off n : Nat) (d : Device) : Device :=
  let far := (sourceParts b off n).filter fun r => (channelOf r.1).isSome
  if far.isEmpty then queueFlash j d
  else
    let (who, d) := streamTile j.tenant.toNat d
    queueFlash { j with sources := far.length } (raiseAll (far.map fun r =>
      { who := who, lst := j.lst, tenant := j.tenant, job := 0, load := .flashSource j.order, addr := r.1, len := r.2 }) d)

/-- The operation of a packet. -/
def packetJob (p : Packet) (b : List Byte) (kind : FlashKind) : FlashJob :=
  { ref := some (refOf p), tenant := p.hdr.tenant, kind := kind, page := field b 0 4, order := p.order, lst := headerDeadline p }

/-- A wrong state of the block refuses the operation at once. -/
def blockRefusal (d : Device) (p : Packet) (page : Nat) : Option W16 :=
  if (blockOf d (blockKey page)).state = .worn then some stWorn
  else if erasePending d (blockKey page) p.order then some stErasePending
  else none

/-- The packet's operation has been queued already. -/
def inFlash (d : Device) (r : Ref) : Bool := d.flash.jobs.any fun j => j.ref == some r

/-- An opcode whose operation is queued on a die once. -/
def runFlash (sp : OpSpec) (r : Ref) (body : Packet → List Byte → Device → Device) (d : Device) : Device :=
  if inFlash d r then d else runOp sp r body d

/-- FLASH_READ. -/
def flashRead (p : Packet) (b : List Byte) (d : Device) : Device :=
  let t := p.hdr.tenant.toNat; let n := field b 4 2
  match pageArgs d t b with
  | .error st => refuse p st d
  | .ok (slot, buf, off) => match blockRefusal d p (field b 0 4) with
    | some st => refuse p st d
    | none =>
      if isMounted d t slot buf.gen then refuse p stWrongState d
      else if hostHeld buf off (n * flashPage) then holdOnHost p t slot buf off (n * flashPage) d
      else queueFlash { packetJob p b .read with count := n, range := arenaRef b 8 } (dropHold (.packet (refOf p)) d)

def execFlashRead (r : Ref) (s : State) : Out := run (runFlash (flashSpec 0x0700 16 [(6, 2)]) r flashRead) s

/-- FLASH_PROGRAM. -/
def flashProgram (p : Packet) (b : List Byte) (d : Device) : Device :=
  let t := p.hdr.tenant.toNat; let n := field b 4 2
  match pageArgs d t b with
  | .error st => refuse p st d
  | .ok (slot, buf, off) =>
    if d.pwr.stage ≥ 1 then refuse p stShed d
    else match blockRefusal d p (field b 0 4) with
      | some st => refuse p st d
      | none =>
        if hostHeld buf off (n * flashPage) then holdOnHost p t slot buf off (n * flashPage) d
        else queueSourced { packetJob p b .program with count := n, range := arenaRef b 8 } buf off (n * flashPage)
          (touch t slot buf off (n * flashPage) (dropHold (.packet (refOf p)) d))

def execFlashProgram (r : Ref) (s : State) : Out := run (runFlash (flashSpec 0x0701 16 [(6, 2)]) r flashProgram) s

/-- FLASH_ERASE. -/
def flashErase (p : Packet) (b : List Byte) (d : Device) : Device :=
  let page := field b 0 4
  if page % pagesPerBlock ≠ 0 ∨ !pageInShare d p.hdr.tenant.toNat page then refuse p stBadArgument d
  else if d.pwr.stage ≥ 1 then refuse p stShed d
  else if (blockOf d (blockKey page)).state = .worn then refuse p stWorn d
  else queueFlash (packetJob p b .erase) d

def execFlashErase (r : Ref) (s : State) : Out := run (runFlash (flashSpec 0x0702 4) r flashErase) s

/-- FLASH_VERIFY. -/
def flashVerify (p : Packet) (b : List Byte) (d : Device) : Device :=
  let t := p.hdr.tenant.toNat; let n := field b 4 2; let mode := field b 6 1
  if mode > 1 then refuse p stBadArgument d
  else match pageArgs d t b with
    | .error st => refuse p st d
    | .ok (slot, buf, off) => match blockRefusal d p (field b 0 4) with
      | some st => refuse p st d
      | none =>
        if hostHeld buf off (n * flashPage) then holdOnHost p t slot buf off (n * flashPage) d
        else queueSourced { packetJob p b .verify with count := n, mode := mode, range := arenaRef b 8 } buf off (n * flashPage)
          (touch t slot buf off (n * flashPage) (dropHold (.packet (refOf p)) d))

def execFlashVerify (r : Ref) (s : State) : Out := run (runFlash (flashSpec 0x0703 16 [(7, 1)]) r flashVerify) s

/-- FLASH_MARGIN. -/
def flashMargin (p : Packet) (b : List Byte) (d : Device) : Device :=
  let page := field b 0 4; let mode := field b 4 1
  if mode > 3 ∨ !pageInShare d p.hdr.tenant.toNat page then refuse p stBadArgument d
  else match blockRefusal d p page with
    | some st => refuse p st d
    | none => queueFlash { packetJob p b .margin with mode := mode } d

def execFlashMargin (r : Ref) (s : State) : Out := run (runFlash (flashSpec 0x0704 8 [(5, 3)]) r flashMargin) s

def BlockState.code : BlockState → Byte
  | .erased => 0
  | .open_ => 1
  | .full => 2
  | .erasing => 3
  | .worn => 4

/-- FLASH_BLOCK_INFO. -/
def flashBlockInfo (p : Packet) (b : List Byte) (d : Device) : Device :=
  let page := field b 0 4
  if page % pagesPerBlock ≠ 0 ∨ !pageInShare d p.hdr.tenant.toNat page then refuse p stBadArgument d
  else
    let k := blockOf d (blockKey page)
    finish p stOK ([k.state.code, if k.frayed then 1 else 0] ++ leBytes 2 k.next ++ leBytes 4 k.erases.toNat ++ [k.loops] ++ zeros 7) d

def execFlashBlockInfo (r : Ref) (s : State) : Out := run (runOp (flashSpec 0x0705 4) r flashBlockInfo) s

/-- The summary of a share (R432, R438): a WORN block has left the count of its blocks. -/
def shareInfo (d : Device) (t : Nat) (q : Partition) : List Byte :=
  let bs := (shareEntries d t q).map (·.2)
  let count := fun (f : FlashBlock → Bool) => (bs.filter f).length
  let worn := count fun b => b.state == .worn
  [shareBlocks q - worn, shareBlocks q - count fun b => b.state != .erased, count fun b => b.state == .open_,
   count fun b => b.state == .full, worn, count fun b => b.frayed && b.state != .worn,
   (bs.map (·.erases.toNat)).foldl max 0, 0].flatMap (leBytes 4)

/-- FLASH_INFO. -/
def flashInfo (p : Packet) (_ : List Byte) (d : Device) : Device :=
  match partOf d p.hdr.tenant.toNat with
  | some q => finish p stOK (shareInfo d p.hdr.tenant.toNat q) d
  | none => refuse p stNoTenant d

def execFlashInfo (r : Ref) (s : State) : Out := run (runOp (flashSpec 0x0706 0) r flashInfo) s

/-- FLASH_OTP_READ: the row as it is programmed (R436). -/
def execFlashOtpRead (r : Ref) (s : State) : Out := run (runOp { opcode := 0x0707, size := some 0, dev := true } r
  fun p _ d => finish p stOK (otpBytes d.boot.otpRow) d) s

/-- FLASH_OTP_BURN (R437, R439): READOUT_FUSED, or a higher security version, in both copies. -/
def otpBurn (p : Packet) (b : List Byte) (d : Device) : Device :=
  let f := field b 0 1; let v := field b 2 2; let o := d.boot.otpRow
  if f = 2 ∧ (v < o.security ∨ v > 255) then refuse p stBadArgument d
  else if d.pwr.stage ≥ 1 then refuse p stShed d
  else privileged p (fun d =>
   if f ≠ 1 ∧ f ≠ 2 then refuse p stOtpLocked d
   else
    let d := ledgerConfig p d
    if f = 1 then
      if o.fuse.getLsbD 1 then refuse p stAlreadyDone d
      else complete p { d with boot.otpRow := { o with fuse := o.fuse ||| 2 } }
    else if v = o.security then refuse p stAlreadyDone d
    else complete p { d with boot.otpRow := { o with security := v } }) d

def execFlashOtpBurn (r : Ref) (s : State) : Out := run (runOp
  { opcode := 0x0708, size := some 4, dev := true, roles := byMaker, reserved := [(1, 1)] } r otpBurn) s

/-! ### Registers (R441) -/

/-- Data blocks of the whole device (R414). -/
abbrev dataBlocks : Nat := 261888

/-- A register of the FLASH block; offset 0x008 is the low word of FLASH_CAPACITY. -/
def flashReg (d : Device) (off : Nat) : Nat :=
  let f := d.flash
  let worn := (f.blocks.filter fun x => x.2.state == .worn).length
  let own := fun (n : Nat) => if makerActive d then n else 0
  let capacity := (dataBlocks - worn) * 2 ^ 23
  if off = 0x000 then
    let held := fun (ph : FlashPhase → Bool) => f.jobs.any fun j => ph j.phase
    let susp := held fun ph => ph == .suspended
    let stopped := susp || held fun ph => ph == .suspending
    bitAt d.boot.otpLost 3 + bitAt (decide (d.pwr.stage ≥ 1) && stopped) 2 +
    own (bitAt susp 1 + bitAt (held fun ph => match ph with | .array _ | .suspending => true | _ => false) 0)
  else if off = 0x008 then own (capacity % 2 ^ 32)
  else if off = 0x00C then own (capacity / 2 ^ 32)
  else if off = 0x010 then f.suspendCfg.toNat
  else if off = 0x014 then f.bits.toNat * 256 + f.ploops.toNat * 16 + f.eloops.toNat
  else if off = 0x020 then own worn
  else if off = 0x024 then own (f.blocks.filter fun x => x.2.frayed && x.2.state != .worn).length
  else if off = 0x028 then own f.corrCount.toNat
  else if off = 0x02C then own f.retryCount.toNat
  else if off = 0x030 then own f.uncorrCount.toNat
  else if off = 0x034 then own f.codecCount.toNat
  else if off = 0x038 then own f.suspendCount.toNat
  else 0

/-- FLASH_CTR_CLEAR: the maker's write of 1 zeroes the counters at 0x028 to 0x038. -/
def flashCtrClear (v : W32) (d : Device) : Device :=
  if makerActive d ∧ v.getLsbD 0 then
    { d with flash.corrCount := 0, flash.retryCount := 0, flash.uncorrCount := 0, flash.codecCount := 0, flash.suspendCount := 0 }
  else d

def execFlashCtrClearWrite (v : W32) (s : State) : Out := run (transact (flashCtrClear v)) s

/-- A write to the FLASH block. -/
def flashRegWrite (off : Nat) (v : W32) (d : Device) : Device :=
  let n := v.toNat
  if off = 0x010 then
    let e := bitsOf n 16 16; let g := bitsOf n 0 16
    rwl 0x60010 byInstaller (decide (100 ≤ e) && decide (e ≤ 5000) && decide (50 ≤ g) && decide (g ≤ 1000))
      (fun d => { d with flash.suspendCfg := v }) d
  else if off = 0x014 then
    let b := bitsOf n 8 8; let g := bitsOf n 4 4; let e := bitsOf n 0 4
    rwl 0x60014 byInstaller (decide (8 ≤ b) && decide (b ≤ 96) && decide (4 ≤ g) && decide (1 ≤ e) && decide (e ≤ 7))
      (fun d => { d with flash.bits := BitVec.ofNat 8 b, flash.ploops := BitVec.ofNat 4 g, flash.eloops := BitVec.ofNat 4 e }) d
  else if off = 0x03C then flashCtrClear v d
  else d

end Sys2Proof.Machine
end

