-- ==== Sys2Proof/Machine/Submit.lean ====
section
/-! DEFINITION. Submission of packets on any channel (02_command_protocol R58 to R68, R397), and the device-range opcodes
(R81 to R86). -/

namespace Sys2Proof.Machine

/-! ### Submission -/

/-- The header at the front of a packet (R53). -/
def headerOf (b : List Byte) : Header :=
  { opcode := word16 b 0, tag := word16 b 2, tenant := byteAt b 4, flags := byteAt b 5, job := word32 b 8, len := word32 b 12,
    deadline := BitVec.ofNat 64 (field b 16 8) }

/-- The tag may be taken (R76, R397). -/
def tagFree (d : Device) (c : Chan) (tag : W16) : Bool := match c with
  | .host => (tagState d tag).1 == 0
  | _ => decide (tag.toNat < 256) && !(d.cmd.flight.any fun p => p.chan == c && p.hdr.tag == tag)

/-- The first cause of R61 that applies to a submission; none when it passes. -/
def headerFault (d : Device) (c : Chan) (atStart : Bool) (b : List Byte) : Option Nat :=
  let h := headerOf b; let n := h.len.toNat
  if !atStart then some 1
  else if b.length < 32 ∨ n % 4 ≠ 0 ∨ n > 65504 ∨ n + 32 ≠ b.length then some 2
  else if crc32c (b.take 28 ++ b.drop 32) ≠ word32 b 28 then some 3
  else if field b 6 2 ≠ 0 ∨ field b 24 4 ≠ 0 ∨ h.flags &&& 0xF8 ≠ 0 then some 4
  else if !tagFree d c h.tag then some 5
  else if h.flags.getLsbD 0 ∧ n < 24 then some 6
  else none

/-- Record why a submission was refused (R61). -/
def noteCause (n : Nat) (b : List Byte) (d : Device) : Device :=
  { d with cmd.errCause := BitVec.ofNat 4 n, cmd.errHdr := padTo 16 (b.take 16) }

/-- A submission is rejected and counted (R61, R63). -/
def rejectWith (n : Nat) (b : List Byte) (d : Device) : Device :=
  setEvent evReject (noteCause n b { d with cmd.rejectCount := d.cmd.rejectCount + 1, cmd.reject := true })

/-- The accepted packet of a submission. -/
def packetOf (d : Device) (c : Chan) (b : List Byte) : Packet :=
  let h := headerOf b; let (role, cred) := roleFor d c
  { chan := c, hdr := h, raw := b.take 28, payload := b.drop 32, order := d.cmd.nextOrder,
    key := if h.flags.getLsbD 0 then keyFor d c h.tenant else [], role := role, cred := cred, at_ := d.clock, started := false, plain := [] }

/-- A submission finds the device ready: the command processor, or Onyx for its two channels (R63, R502, R516). -/
def takesPackets (d : Device) (c : Chan) : Bool :=
  isReady d || (decide (c ≠ .host) && (isFrozen d || decide (d.boot.phase = .fault))) ||
  (decide (c = .mgmt) && decide (d.boot.phase = .lowPower))

/-- A submission on a channel: not ready, overrun, the header checks, then acceptance (R61). An accepted packet wakes the device from
Doze, or abandons the entry to a low-power state; one that Onyx accepts on the management port wakes it from Nap and Hibernate too
(R523, R524). -/
def submitPacket (p : Packet) (fault : Option Nat) (b : List Byte) (d : Device) : Device :=
  let h := p.hdr; let c := p.chan
  if !takesPackets d c then rejectWith 8 b d
  else if c = .host ∧ intakeUsed d + b.length > 262144 then
    setEvent evOverrun (noteCause 7 b (unboundRecord c h.tag stOverrun h.opcode h.tenant
      { d with cmd.overrunCount := d.cmd.overrunCount + 1, cmd.overrun := true }))
  else match fault with
    | some n => unboundRecord c h.tag stBadPacket h.opcode h.tenant (rejectWith n b d)
    | none =>
      wakeUp (if c = .mgmt then 6 else 2) { d with
        cmd.flight := d.cmd.flight ++ [p]
        cmd.nextOrder := d.cmd.nextOrder + 1
        cmd.acceptCount := d.cmd.acceptCount + 1 }

/-- A submission of some bytes. -/
def submitOn (c : Chan) (atStart : Bool) (b : List Byte) (d : Device) : Device := submitPacket (packetOf d c b) (headerFault d c atStart b) b d

/-- PACKET_SUBMIT (R58): one WRITE transaction that starts in the command window. -/
def execPacketSubmit (addr : W32) (bytes : List Byte) (s : State) : Out := run (transact fun d =>
  if 0x0100_0000 ≤ addr.toNat ∧ addr.toNat < 0x0101_0000 then submitOn .host (decide (addr = 0x0100_0000)) bytes d else d) s

/-- BAD_OPCODE (R21): an accepted packet of an unassigned opcode. -/
def execBadOpcode (r : Ref) (s : State) : Out := run (fun d =>
  match findPacket d r with
  | some p => if !assignedOpcodes.contains p.hdr.opcode.toNat ∧ served d p ∧ canStart d p then refuse p stBadOpcode d else d
  | none => d) s

/-! ### Device-range opcodes (R81) -/

/-- What an opcode of the range presents: its length rules are BAD_ARGUMENT. -/
def devSpec (opcode : Nat) (reserved : List (Nat × Nat) := []) : OpSpec := { opcode := opcode, size := none, dev := true, reserved := reserved }

def nop (p : Packet) (b : List Byte) (d : Device) : Device := if b.isEmpty then complete p d else refuse p stBadArgument d

def execNop (r : Ref) (s : State) : Out := run (runOp { devSpec 0x0100 with part := true } r nop) s

/-- The bytes of R82. -/
def identifyBytes (d : Device) : List Byte :=
  let o := d.boot.otp
  leBytes 2 o.part.toNat ++ [o.tiles, 4, BitVec.ofNat 8 o.stepping.toNat, 0, 0, 0] ++ serialBytes d ++
  leBytes 2 d.host.deviceId.toNat ++ zeros 2 ++ leBytes 4 d.host.fwCp.toNat ++ leBytes 4 d.host.fwOnyx.toNat ++ zeros 4 ++
  leBytes 8 0x0000_001E_0000_0000 ++ leBytes 8 0x0000_01FF_8000_0000 ++
  [8, BitVec.ofNat 8 d.sec.parts.length, 4, 0] ++ leBytes 4 65536 ++ leBytes 4 65536 ++ zeros 4

def identify (p : Packet) (b : List Byte) (d : Device) : Device :=
  if b.isEmpty then finish p stOK (identifyBytes d) d else refuse p stBadArgument d

def execIdentify (r : Ref) (s : State) : Out := run (runOp (devSpec 0x0101) r identify) s

/-- ECHO (R81, R83): its sealed result is 24 bytes longer. -/
def echo (p : Packet) (b : List Byte) (d : Device) : Device :=
  if b.length > (if isSealed p then 32744 else 32768) then refuse p stBadArgument d else finish p stOK b d

def execEcho (r : Ref) (s : State) : Out := run (runOp (devSpec 0x0102) r echo) s

/-- TAG_QUERY (R84), over the tags of its own channel. -/
def tagQuery (p : Packet) (b : List Byte) (d : Device) : Device :=
  if b.length ≠ 4 then refuse p stBadArgument d
  else
    let tag := word16 b 0
    let (st, op, t) := match p.chan with
      | .host => tagState d tag
      | c => match findPacket d { chan := c, tag := tag } with
        | some q => (1, q.hdr.opcode, q.hdr.tenant)
        | none => (0, 0, 0)
    finish p stOK ([BitVec.ofNat 8 st, 0] ++ leBytes 2 op.toNat ++ [t, 0, 0, 0]) d

def execTagQuery (r : Ref) (s : State) : Out := run (runOp (devSpec 0x0103 [(2, 2)]) r tagQuery) s

/-- RESET (R85): a warm reset, once its record has been consumed or 10 ms have passed. -/
def resetOp (p : Packet) (b : List Byte) (d : Device) : Device :=
  if b.length ≠ 4 ∨ byteAt b 0 ≠ 1 then refuse p stBadArgument d
  else privileged p (fun d =>
    let d := complete p (ledgerConfig p d)
    { d with cmd.resetPending := d.cmd.resetPending ++ [(refOf p, d.clock)] }) d

def execReset (r : Ref) (s : State) : Out := run (runOp { devSpec 0x0104 [(1, 3)] with roles := byEither } r resetOp) s

end Sys2Proof.Machine
end

