-- ==== Sys2Proof/Machine/Gauge.lean ====
section
/-! DEFINITION. The Gauge (10_fixed_plane_gauge R322 to R328, R333, R338, R562): ROTOR, GRID, WALL and the schedule. -/

namespace Sys2Proof.Machine

/-- The Gauge runs: it stops only while the device is frozen (R501). -/
def gaugeAlive (d : Device) : Bool := !isFrozen d

/-- A change of the Gauge, with DEV_EVENT.GAUGE_LOCK when the state of a base changes (R562). -/
def onGauge (f : GaugePart → GaugePart) (d : Device) : Device :=
  let g := f d.gauge
  let d' := { d with gauge := g }
  if g.rotor = d.gauge.rotor ∧ g.grid = d.gauge.grid ∧ g.wallSt = d.gauge.wallSt then d' else setEvent evGaugeLock d'

/-- One second in ns. -/
abbrev second : Nat := 1000000000

/-! ### ROTOR (R322, R323) -/

abbrev rotorM : Nat := 2 ^ 24

/-- 4N. -/
def rotorEdges (g : GaugePart) : Nat := 4 * (g.linesM1.toNat + 1)

/-- E(e), also for e = 4N. -/
def edgeCount (g : GaugePart) (e : Nat) : Nat := rotorM * e / rotorEdges g

/-- The quadrature place of the two pins: one step up when A leads B. -/
def quadrature (a b : Bool) : Nat := match a, b with
  | false, false => 0
  | true, false => 1
  | true, true => 2
  | false, true => 3

/-- The interpolation stands: an edge, an interval, the same direction twice, and less than 1 s (R323). -/
def rotorMoving (d : Device) : Option Nat :=
  let g := d.gauge
  match g.edgeAt with
  | some at_ => if g.interval > 0 ∧ d.clock - at_ < second then some (d.clock - at_) else none
  | none => none

/-- The position of R323, before it is reduced to a turn. -/
def rotorFar (d : Device) : Int :=
  let g := d.gauge
  let n := rotorEdges g
  let e := g.e % n
  let here := edgeCount g e
  let part := match rotorMoving d with
    | some t => if g.same then rotorM * t / (n * g.interval) else 0
    | none => 0
  let gap := if g.up then edgeCount g (e + 1) - here else if e = 0 then rotorM - edgeCount g (n - 1) else here - edgeCount g (e - 1)
  let off : Int := (min part (gap - 1) : Nat)
  g.turns * (rotorM : Nat) + here + (if g.up then off else -off) + g.zoff.toNat

/-- The position of R323. -/
def rotorPos (d : Device) : Nat := (rotorFar d % (rotorM : Nat)).toNat

/-- The speed of R323, in 2^−16 revolutions per second, signed. -/
def rotorSpeed (d : Device) : Int :=
  let g := d.gauge
  match rotorMoving d with
  | some _ => let v : Int := (2 ^ 16 * second / (rotorEdges g * g.interval) : Nat); if g.up then v else -v
  | none => 0

/-- A tick of the Gauge, in nanoseconds (R562). -/
abbrev tickNs : Nat := 10

/-- A quadrature edge, given the levels of the pins and the ticks for which they have been stable: a level that has been stable for less than
FILTER ticks is not accepted. -/
def rotorStep (now : Nat) (a b : Bool) (stableA stableB : Nat) (g : GaugePart) : GaugePart :=
  let a := if stableA < g.filter.toNat then g.pinA else a
  let b := if stableB < g.filter.toNat then g.pinB else b
  let pins := fun (g : GaugePart) => { g with pinA := a, pinB := b }
  if g.rotor = .off ∨ (a = g.pinA ∧ b = g.pinB) then pins g
  else if a ≠ g.pinA ∧ b ≠ g.pinB then pins { g with qErr := satAdd16 g.qErr 1, rotor := .unref }
  else
    let n := rotorEdges g
    let up := (quadrature a b == (quadrature g.pinA g.pinB + 1) % 4) != g.invert
    let e := g.e % n
    pins { g with
      e := if up then (e + 1) % n else (e + n - 1) % n
      revs := if up ∧ e + 1 = n then (g.revs + 1) % 256 else if !up ∧ e = 0 then (g.revs + 255) % 256 else g.revs
      turns := if up ∧ e + 1 = n then g.turns + 1 else if !up ∧ e = 0 then g.turns - 1 else g.turns
      edgeAt := some now
      interval := match g.edgeAt with | some t => now - t | none => 0
      up := up
      same := g.edgeAt.isSome && up == g.up }

/-- ROTOR_EDGE: `dt` ns on, the levels of A and B and how long they have stood. -/
def execRotorEdge (dt : Nat) (a b : PinLevel) (s : State) : Out := run (fun d =>
  if gaugeAlive d then let d := advance dt d; onGauge (rotorStep d.clock a.level b.level a.stable b.stable) d else d) s

/-- Entries of a base count crossings from where it stands now on: its position has been set, not moved. -/
def rebase (b : SchedBase) (pos : Int) (g : GaugePart) : GaugePart :=
  { g with sched := g.sched.map fun x => (x.1, if x.2.base = b then { x.2 with seen := pos } else x.2) }

/-- ROTOR_Z: a rising edge of Z, accepted once Z has been stable for FILTER ticks. -/
def execRotorZ (s : State) : Out := run (fun d =>
  if gaugeAlive d ∧ d.gauge.rotor ≠ .off then
    let d := advance (tickNs * d.gauge.filter.toNat) d
    let d := onGauge (fun g => { g with zErr := if g.e % rotorEdges g = 0 then g.zErr else satAdd16 g.zErr 1, e := 0, rotor := .locked }) d
    { d with gauge := rebase .rotor (rotorFar d) d.gauge }
  else d) s

/-- ROTOR_IDLE_TIMEOUT: 1 s without an edge. -/
def execRotorIdleTimeout (s : State) : Out := run (fun d =>
  match d.gauge.edgeAt with
  | some at_ =>
    if gaugeAlive d ∧ d.gauge.rotor ≠ .off then { advanceTo (at_ + second) d with gauge.interval := 0, gauge.same := false } else d
  | none => d) s

/-! ### GRID (R324) -/

abbrev gridM : Nat := 2 ^ 16

/-- Phase, in units not reduced to a cycle, at a time. -/
def gridTotal (g : GaugePart) (now : Nat) : Nat := g.phase.toNat + g.freq.toNat * (now - g.phaseAt) / second

/-- Bring phase and cycle count up to a time. -/
def gridTo (now : Nat) (g : GaugePart) : GaugePart :=
  let p := gridTotal g now
  { g with phase := BitVec.ofNat 16 p, phaseAt := now, cycles := g.cycles + BitVec.ofNat 16 (p / gridM), gridTurns := g.gridTurns + (p / gridM : Nat) }

/-- An interval implies 45 to 65 Hz. -/
def mainsOk (dt : Nat) : Bool := decide (45 * dt ≤ second) && decide (second ≤ 65 * dt)

/-- 1.5 periods at the present frequency. -/
def gridLate (g : GaugePart) : Nat := if g.freq = 0 then 3 * second / 2 else 3 * second * gridM / (2 * g.freq.toNat)

/-- The state after an edge with a phase error. -/
def gridJudge (err : Int) (now : Nat) (g : GaugePart) : GaugePart :=
  let good := if err.natAbs < 128 then g.good + 1 else 0
  let bad := if err.natAbs > 1024 then g.bad + 1 else 0
  let g := { g with good := good, bad := bad }
  if good ≥ 8 then { g with grid := .locked }
  else if g.grid = .locked ∧ bad ≥ 2 then { g with grid := .holdover, holdAt := now }
  else g

/-- The selected edge: rejected, or taken by the loop. In HOLDOVER the phase goes on at the last frequency. -/
def gridStep (now : Nat) (g : GaugePart) : GaugePart :=
  let since := fun (t : Option Nat) => t.map fun t => now - t
  let dt := ((since g.gridAt).filter mainsOk).orElse fun _ => (since g.gridSeen).filter mainsOk
  match g.gridSeen, dt with
  | none, _ => { g with gridSeen := some now }
  | some _, none => { g with gridSeen := some now, rejected := g.rejected + 1 }
  | some _, some dt =>
    let g := gridTo now g
    let err := signedOf 16 (g.phase.toNat + g.gridOff.toNat)
    let g := { g with gridSeen := some now, gridAt := some now }
    let g := if g.grid = .holdover then g
      else { g with
        freq := BitVec.ofNat 32 (Config.pllFrequency g.bw.toNat dt g.freq.toNat err)
        phase := BitVec.ofNat 16 (patternOf 16 (g.phase.toNat - Config.pllPhase g.bw.toNat dt g.freq.toNat err))
        gridTurns := g.gridTurns + (g.phase.toNat - Config.pllPhase g.bw.toNat dt g.freq.toNat err) / (gridM : Nat) }
    gridJudge err now g

/-- GRID_EDGE: `dt` ns on, the selected edge of the phase reference. -/
def execGridEdge (dt : Nat) (s : State) : Out := run (fun d =>
  if gaugeAlive d then
    let d := advance dt d
    if d.gauge.grid = .off then d else onGauge (gridStep d.clock) d
  else d) s

/-- GRID_EDGE_TIMEOUT: no accepted edge for 1.5 periods. -/
def execGridEdgeTimeout (s : State) : Out := run (fun d =>
  if gaugeAlive d ∧ d.gauge.grid = .locked then
    let d := advanceTo (d.gauge.gridAt.getD d.clock + gridLate d.gauge) d
    onGauge (fun g => { g with grid := .holdover, holdAt := d.clock, bad := 0, good := 0 }) d
  else d) s

/-- GRID_HOLDOVER_TIMEOUT: 1 s in HOLDOVER. -/
def execGridHoldoverTimeout (s : State) : Out := run (fun d =>
  if gaugeAlive d ∧ d.gauge.grid = .holdover then
    let d := advanceTo (d.gauge.holdAt + second) d
    onGauge (fun g => { g with grid := .acquire, bad := 0, good := 0 }) d
  else d) s

/-! ### WALL (R325, R326) -/

/-- Step WALL, never backward, and ledger the step with the value before it (R325, R407). -/
def stepWall (target : Nat) (d : Device) : Device :=
  let before := wallNow d
  ledgerEvent 0x0022 (leBytes 8 before) { d with gauge.wall := target, gauge.slewRem := 0, gauge.slew := 0, gauge.slewLeft := 0 }

/-- The next whole second. -/
def nextSecond (w : Nat) : Nat := ceilDiv w second * second

/-- The offset of n from the nearest whole second. -/
def secondOffset (w : Nat) : Int := let n := w % second; if n < second / 2 then n else (n : Int) - second

/-- A pending GAUGE_WALL_SET is applied at this edge, unless WALL has passed its value. -/
def applySet (r : Ref) (secs : Nat) (d : Device) : Device :=
  let target := secs * second
  match findPacket d r with
  | none => d
  | some p =>
    if target < wallNow d then refuse p stWallBackward d
    else complete p (ledgerAct p 0x0022 (leBytes 8 (wallNow d)) 0 stOK { d with gauge.wall := target, gauge.slewRem := 0, gauge.slew := 0, gauge.slewLeft := 0, gauge.stepped := true })

/-- The slew in ppm that removes an offset, within a second where 500 ppm allow; how much above that rate it is is left open. -/
def slewFor (off : Int) : Int :=
  let least := min 500 (ceilDiv off.natAbs 1000)
  let rate : Int := (least + Config.ppsSlew off % (501 - least) : Nat)
  if off > 0 then -rate else if off < 0 then rate else 0

/-- The offset measured at an edge sets the slew and the state. -/
def disciplineWall (d : Device) : Device :=
  let off := secondOffset (wallNow d)
  onGauge (fun g =>
    let n := if off.natAbs < 1000 then g.closeOnes + 1 else 0
    { g with ppsOffset := off, slew := slewFor off, slewLeft := -off, slewRem := 0, closeOnes := n
             wallSt := if n ≥ 3 then .locked else g.wallSt }) d

/-- PPS_EDGE: `dt` ns on, an accepted PPS edge. -/
def execPpsEdge (dt : Nat) (s : State) : Out := run (fun d =>
  if !gaugeAlive d then d
  else
    let d := advance dt d
    if !d.gauge.ppsEn then d
    else
      let first := decide (d.gauge.wallSt = .free) && !d.gauge.stepped
      -- DESIGN CHOICE: pending sets are applied before the offset is measured
      let d := d.gauge.settings.foldl (fun d y => applySet y.1 y.2.1 d) { d with gauge.ppsAt := d.clock, gauge.settings := [] }
      if !first then disciplineWall d
      else if d.gauge.stepped then d
      else
        let d := { d with gauge.stepped := true }
        if wallNow d = nextSecond (wallNow d) then d else stepWall (nextSecond (wallNow d)) d) s

/-- 1.5 s. -/
abbrev ppsLate : Nat := 1500000000

/-- PPS_TIMEOUT: no PPS edge for 1.5 s. -/
def execPpsTimeout (s : State) : Out := run (fun d =>
  if gaugeAlive d ∧ d.gauge.ppsEn ∧ d.gauge.stepped ∧ d.gauge.wallSt ≠ .holdover then
    let d := advanceTo (d.gauge.ppsAt + ppsLate) d
    onGauge (fun g => { g with wallSt := .holdover, closeOnes := 0 }) d
  else d) s

/-- GAUGE_WALL_SET (R326). -/
def gaugeWallSet (p : Packet) (b : List Byte) (d : Device) : Device :=
  let secs := field b 0 8; let ns := field b 8 4
  let target := secs * second + if d.gauge.ppsEn then 0 else ns
  if ns ≥ second ∨ target ≥ 2 ^ 64 then refuse p stBadArgument d
  else privileged p (fun d =>
    if target < wallNow d then refuse p stWallBackward d
    else if d.gauge.ppsEn then { d with gauge.settings := d.gauge.settings ++ [(refOf p, secs, d.clock)] }
    else complete p (ledgerAct p 0x0022 (leBytes 8 (wallNow d)) 0 stOK { d with gauge.wall := target, gauge.slewRem := 0, gauge.slew := 0, gauge.slewLeft := 0 })) d

def execGaugeWallSet (r : Ref) (s : State) : Out := run (fun d =>
  if d.gauge.settings.any (fun x => x.1 == r) then d
  else runOp { opcode := 0x0510, size := some 16, dev := true, roles := [roleOperator, roleInstaller, roleMaker], reserved := [(12, 4)] }
    r gaugeWallSet d) s

/-- WALL_SET_PPS_TIMEOUT: 1.5 s passed without an edge. -/
def execWallSetPpsTimeout (s : State) : Out := run (fun d =>
  match d.gauge.settings with
  | (r, _, began) :: rest =>
    if gaugeAlive d ∧ isReady d then
      let d := { advanceTo (began + ppsLate) d with gauge.settings := rest }
      match findPacket d r with
      | some p => refuse p stGaugeNoPps d
      | none => d
    else d
  | [] => d) s

/-! ### Registers (R338, R562) -/

/-- The values a configuration register takes. -/
def gaugeCfgOk (off : Nat) (v : W32) : Bool :=
  if off = 0x004 then decide (bitsOf v.toNat 26 4 ≠ 0) && decide (bitsOf v.toNat 0 16 ≥ 15)
  else if off = 0x014 then decide (bitsOf v.toNat 16 2 ≠ 3)
  else true

/-- What a configuration write changes, field by field (R557): a value out of range leaves its field; enabling and disabling a base
change its state. -/
def gaugeCfg (off : Nat) (v : W32) (g : GaugePart) : GaugePart :=
  if off = 0x004 then
    let on := v.getLsbD 31
    let filter := if bitsOf v.toNat 26 4 = 0 then g.filter else BitVec.ofNat 4 (v.toNat / 2 ^ 26)
    let lines := if bitsOf v.toNat 0 16 < 15 then g.linesM1 else BitVec.ofNat 16 v.toNat
    let g := { g with invert := v.getLsbD 30, filter := filter, linesM1 := lines }
    if !on then { g with rotor := .off }
    else if g.rotor = .off then { g with rotor := .unref, edgeAt := none, interval := 0, same := false }
    else g
  else if off = 0x008 then { g with zoff := BitVec.ofNat 24 v.toNat }
  else if off = 0x014 then
    let on := v.getLsbD 31
    let bw := if bitsOf v.toNat 16 2 = 3 then g.bw else BitVec.ofNat 2 (v.toNat / 2 ^ 16)
    let g := { g with gridEdge := v.getLsbD 30, bw := bw, gridOff := BitVec.ofNat 16 v.toNat }
    if !on then { g with grid := .off }
    else if g.grid = .off then { g with grid := .acquire, gridAt := none, gridSeen := none, good := 0, bad := 0 }
    else g
  else if off = 0x020 then
    let on := v.getLsbD 31
    let g := { g with ppsEdge := v.getLsbD 30 }
    if on then { g with ppsEn := true } else { g with ppsEn := false, wallSt := .free, slew := 0, slewLeft := 0, stepped := false, closeOnes := 0 }
  else g

/-- A write to a GAUGE register; a discarded field is ledgered REFUSED besides (R12). -/
def gaugeRegWrite (off : Nat) (v : W32) (d : Device) : Device :=
  if off = 0x004 ∨ off = 0x008 ∨ off = 0x014 ∨ off = 0x020 then
    let d' := rwl (0x40000 + off) byEither true (fun d =>
      let d := onGauge (gaugeCfg off v) d
      { d with gauge := rebase .rotor (rotorFar d) d.gauge }) d
    if byEither.contains (activeRole d) && !gaugeCfgOk off v then ledgerReg 0x0003 (0x40000 + off) stBadArgument d' else d'
  else d

/-- GAUGE_CFG_WRITE: a write to a register of the GAUGE block. -/
def execGaugeCfgWrite (addr : W32) (v : W32) (s : State) : Out := run (transact fun d =>
  if 0x40000 ≤ addr.toNat ∧ addr.toNat < 0x50000 then gaugeRegWrite (addr.toNat - 0x40000) v d else d) s

def RotorState.code : RotorState → Nat
  | .off => 0
  | .unref => 1
  | .locked => 2

def GridState.code : GridState → Nat
  | .off => 0
  | .acquire => 1
  | .locked => 2
  | .holdover => 3

def WallState.code : WallState → Nat
  | .free => 0
  | .locked => 1
  | .holdover => 2

/-- A GAUGE register. -/
def gaugeReg (d : Device) (off : Nat) : Nat :=
  let g := d.gauge
  if off = 0x000 then g.rotor.code * 16 + g.grid.code * 4 + g.wallSt.code
  else if off = 0x004 then bitAt (g.rotor != .off) 31 + bitAt g.invert 30 + g.filter.toNat * 2 ^ 26 + g.linesM1.toNat
  else if off = 0x008 then g.zoff.toNat
  else if off = 0x00C then if g.rotor = .off then 0 else g.revs * 2 ^ 24 + rotorPos d
  else if off = 0x010 then if g.rotor = .off then 0 else patternOf 32 (rotorSpeed d)
  else if off = 0x014 then bitAt (g.grid != .off) 31 + bitAt g.gridEdge 30 + g.bw.toNat * 2 ^ 16 + g.gridOff.toNat
  else if off = 0x018 then
    let g := if g.grid = .off then g else gridTo d.clock g
    g.cycles.toNat * 2 ^ 16 + g.phase.toNat
  else if off = 0x01C then g.freq.toNat
  else if off = 0x020 then bitAt g.ppsEn 31 + bitAt g.ppsEdge 30
  else if off = 0x028 then wallNow d % 2 ^ 32
  else if off = 0x02C then wallNow d / 2 ^ 32
  else if off = 0x030 then patternOf 32 g.ppsOffset
  else if !makerActive d then 0
  else if off = 0x034 then g.sched.length
  else if off = 0x038 then g.zErr.toNat * 2 ^ 16 + g.qErr.toNat
  else if off = 0x03C then g.missCount.toNat
  else 0

/-! ### The schedule (R327, R328, R333) -/

def schedSpec (opcode size : Nat) (reserved : List (Nat × Nat)) (bits : List (Nat × Byte) := []) : OpSpec :=
  { opcode := opcode, size := some size, dev := true, part := true, roles := [roleInstaller, roleMaker], reserved := reserved, bits := bits }

/-- Count misses of an entry. -/
def schedMiss (i n : Nat) (d : Device) : Device :=
  { d with gauge.sched := Assoc.adjust d.gauge.sched i fun e => { e with misses := e.misses + BitVec.ofNat 32 n }
           gauge.missCount := d.gauge.missCount + BitVec.ofNat 32 n }

/-- The first target after WALL of a periodic entry, and the targets passed over (R327). -/
def nextTarget (target period now : Nat) : Nat × Nat :=
  if target > now ∨ period = 0 then (target, 0) else let j := (now - target) / period + 1; (target + j * period, j)

/-- An entry from its payload. -/
def entryOf (t : Byte) (b : List Byte) : Option SchedEntry :=
  let flags := field b 2 1
  let base? : Option SchedBase := match field b 0 1 with | 0 => some .rotor | 1 => some .grid | 2 => some .wall | _ => none
  let action? : Option SchedAction := match field b 1 1 with | 0 => some .fixedRun | 1 => some .knot | 2 => some .submit | _ => none
  match base?, action? with
  | some base, some action =>
    some { owner := t, base := base, action := action, dir := bitsOf flags 1 2, once := bitOf flags 0, n := field b 4 2,
           knot := word16 b 6, inc := word32 b 8, offset := field b 16 8, period := field b 24 8, target := field b 16 8,
           tag := word16 b 32, job := word32 b 36, rel := field b 40 8, payload := slice b 48 80 }
  | _, _ => none

/-- The ranges of an entry's fields. -/
def entryOk (size : Nat) (e : SchedEntry) : Bool :=
  decide ((size = 128) = (e.action = .submit)) && decide (e.dir ≤ 2) &&
  (match e.base with
    | .wall => decide (e.n = 0) && decide ((e.period = 0) = (e.once = true))
    | .rotor => decide (e.n > 0) && decide (e.period = 0) && decide (e.offset < rotorM)
    | .grid => decide (e.n > 0) && decide (e.period = 0) && decide (e.offset < gridM)) &&
  (if e.owner = 0 then e.action != .submit else e.action != .fixedRun)

/-- The position of a base with its whole turns (R323, R324). -/
def baseFar (d : Device) : SchedBase → Int
  | .rotor => rotorFar d
  | .grid => let g := gridTo d.clock d.gauge; g.gridTurns * (gridM : Nat) + g.phase.toNat
  | .wall => wallNow d

def baseModulus : SchedBase → Nat
  | .rotor => rotorM
  | .grid => gridM
  | .wall => 2 ^ 64

/-- The position of a base. -/
def basePosition (d : Device) (b : SchedBase) : Nat := (baseFar d b % (baseModulus b : Nat)).toNat

/-- GAUGE_SCHED_ADD. -/
def gaugeSchedAdd (p : Packet) (b : List Byte) (d : Device) : Device :=
  let t := p.hdr.tenant
  match entryOf t b with
  | none => refuse p stBadArgument d
  | some e =>
    if !entryOk b.length e then refuse p stBadArgument d
    else roomFor p (fun d =>
      if e.action = .knot ∧ !ownsKnot d t e.knot.toNat then refuse p stKnotNotOwned d
      else if d.gauge.sched.length ≥ 256 ∨ (t ≠ 0 ∧ (d.gauge.sched.filter fun x => x.2.owner == t).length ≥ 32) then
        refuse p stSchedFull d
      else gatedAct p (fun d =>
        let i := firstGap 0 d.gauge.sched
        let next := if e.base = .wall ∧ !e.once then nextTarget e.target e.period (wallNow d) else (e.target, 0)
        let d := { d with gauge.sched := Assoc.insert d.gauge.sched i { e with target := next.1, seen := baseFar d e.base } }
        finish p stOK (leBytes 2 i ++ [0, 0]) (schedMiss i next.2 d)) d) d

def execGaugeSchedAdd (r : Ref) (s : State) : Out := run (fun d =>
  let size := match findPacket d r with | some p => if plainLen p = 128 then 128 else 32 | none => 32
  runOp (schedSpec 0x0520 size [(3, 1), (12, 4), (34, 2)] [(2, 0xF8)]) r gaugeSchedAdd d) s

/-- An entry that the caller owns. -/
def ownEntry (d : Device) (t : Byte) (i : Nat) : Option SchedEntry := (Assoc.find d.gauge.sched i).filter fun e => e.owner == t

/-- GAUGE_SCHED_REMOVE. -/
def gaugeSchedRemove (p : Packet) (b : List Byte) (d : Device) : Device :=
  let i := field b 0 2
  if (ownEntry d p.hdr.tenant i).isNone then refuse p stBadArgument d
  else gatedAct p (fun d => complete p { d with gauge.sched := Assoc.erase d.gauge.sched i }) d

def execGaugeSchedRemove (r : Ref) (s : State) : Out := run (runOp (schedSpec 0x0521 4 [(2, 2)]) r gaugeSchedRemove) s

/-- The targets of a ROTOR or GRID entry (R327). -/
def entryTargets (e : SchedEntry) : List Nat :=
  let m := baseModulus e.base
  (List.range e.n).map fun k => (e.offset + k * m / e.n) % m

/-- The next target of an entry: the nearest ahead of the position, behind it for an entry that fires in reverse. -/
def entryNext (d : Device) (e : SchedEntry) : Nat :=
  if e.base = .wall then e.target
  else
    let m := baseModulus e.base
    let pos := basePosition d e.base
    let far := fun t => if e.dir = 1 then (pos + m - t - 1) % m else (t + m - pos - 1) % m
    (entryTargets e).foldl (fun best t => if far t < far best then t else best) e.offset

/-- GAUGE_SCHED_QUERY. -/
def gaugeSchedQuery (p : Packet) (b : List Byte) (d : Device) : Device :=
  match ownEntry d p.hdr.tenant (field b 0 2) with
  | none => refuse p stBadArgument d
  | some e => gatedAct p (fun d =>
      let base : Byte := match e.base with | .rotor => 0 | .grid => 1 | .wall => 2
      let action : Byte := match e.action with | .fixedRun => 0 | .knot => 1 | .submit => 2
      finish p stOK ([base, action, 0, 0] ++ leBytes 4 e.firings.toNat ++ leBytes 4 e.misses.toNat ++ zeros 4 ++ leBytes 8 (entryNext d e)) d) d

def execGaugeSchedQuery (r : Ref) (s : State) : Out := run (runOp (schedSpec 0x0522 4 [(2, 2)]) r gaugeSchedQuery) s

/-- A base fires its entries now (R327). -/
def baseFires (g : GaugePart) : SchedBase → Bool
  | .rotor => g.rotor == .locked
  | .grid => g.grid == .locked || g.grid == .holdover
  | .wall => true

/-- Time in ns until WALL reaches a target at its present rate. -/
def untilWall (d : Device) (target : Nat) : Nat := ceilDiv ((target - wallNow d) * 1000000) (1000000 + d.gauge.slew).toNat

/-- Targets of an entry that lie above one position of its base and not above another. -/
def targetsWithin (e : SchedEntry) (lo hi : Int) : Nat :=
  let m := (baseModulus e.base : Nat)
  ((entryTargets e).map fun t => ((hi - t) / m - (lo - t) / m).toNat).sum

/-- Targets that a base has crossed for an entry in a direction that its DIR admits, since they were last counted. DESIGN CHOICE: from the net
movement, so that a target crossed to and fro in between is not counted. -/
def crossed (d : Device) (e : SchedEntry) : Nat :=
  let pos := baseFar d e.base
  (if e.dir ≠ 1 then targetsWithin e e.seen pos else 0) + if e.dir ≠ 0 then targetsWithin e (pos - 1) (e.seen - 1) else 0

/-- An entry's firing (R327): its count, its misses, its next target or its removal. Answers the entry with its firing number; none where it is
not of this action, no target has been crossed, or the crossing is a miss. -/
def schedFire (action : SchedAction) (i dt : Nat) (d : Device) : Option (SchedEntry × Nat) × Device :=
  match Assoc.find d.gauge.sched i with
  | none => (none, d)
  | some e =>
    if e.action ≠ action ∨ !(coreAlive d && decide (d.boot.phase = .ready ∨ d.boot.phase = .lowPower)) then (none, d)
    else
      let d := advance (if e.base = .wall then untilWall d e.target else dt) d
      let next := nextTarget e.target e.period (wallNow d)
      let n := if e.base = .wall then 1 else crossed d e
      let fires := decide (n > 0) && baseFires d.gauge e.base
      let passed := if e.base = .wall then next.2 - 1 else if fires then n - 1 else n
      let e' := { e with firings := if fires then e.firings + 1 else e.firings, target := if e.base = .wall then next.1 else e.target
                         seen := if n > 0 then baseFar d e.base else e.seen }
      let d := { d with gauge.sched := if fires && e.once then Assoc.erase d.gauge.sched i else Assoc.adjust d.gauge.sched i fun _ => e' }
      (if fires then some (e, e.firings.toNat + 1) else none, schedMiss i passed d)

/-- SCHED_FIXED_RUN: a trigger, if TRIG_SRC admits the Gauge. -/
def execSchedFixedRun (entry : Byte) (ticks ns : Nat) (s : State) : Out := run (fun d =>
  match schedFire .fixedRun entry.toNat (tickNs * ticks + ns) d with
  | (some _, d) => if d.fix.trigSrc = 1 ∨ d.fix.trigSrc = 2 then fixTrigger d else d
  | (none, d) => d) s

/-- SCHED_KNOT: the knot's signal; a wake source (R523). -/
def execSchedKnot (entry : Byte) (ticks ns : Nat) (s : State) : Out := run (fun d =>
  match schedFire .knot entry.toNat (tickNs * ticks + ns) d with
  | (some (e, _), d) => knotSignal e.knot.toNat e.inc.toNat (wakeUp 3 d)
  | (none, d) => d) s

/-- The packet that a SUBMIT entry makes: its header as R53 lays it out, its result's counter as R328 gives it. -/
def schedPacket (d : Device) (i n : Nat) (e : SchedEntry) : Packet :=
  let deadline := if e.rel = 0 then 0 else (wallNow d + e.rel) % 2 ^ 64
  let h : Header := { opcode := 0x0402, tag := e.tag, tenant := e.owner, flags := 1, job := e.job, len := 104,
                      deadline := BitVec.ofNat 64 deadline }
  { chan := .host, hdr := h
    raw := leBytes 2 0x0402 ++ leBytes 2 e.tag.toNat ++ [e.owner, 1, 0, 0] ++ leBytes 4 e.job.toNat ++ leBytes 4 104 ++
           leBytes 8 deadline ++ zeros 4
    payload := leBytes 8 (i * 2 ^ 32 + n), order := d.cmd.nextOrder, key := keyFor d .host e.owner, role := 0, cred := []
    at_ := d.clock, started := false, plain := e.payload, sched := true }

/-- SCHED_SUBMIT: a SERVE_SUBMIT of the owner, admitted or refused as a packet would be: not ready, overrun, a tag whose record is held or in the
ring, then the order of R79 and the checks of the opcode. A wake source (R523). -/
def execSchedSubmit (entry : Byte) (ticks ns : Nat) (s : State) : Out := run (fun d =>
  match schedFire .submit entry.toNat (tickNs * ticks + ns) d with
  | (some (e, n), d) =>
    let d := wakeUp 3 d
    if (tagState d e.tag).1 = 1 then schedMiss entry.toNat 1 d
    else
      let p := schedPacket d entry.toNat n e
      runOp submitSpec (refOf p) serveSubmit (submitPacket p (if tagFree d .host e.tag then none else some 5) (p.raw ++ zeros 108) d)
  | (none, d) => d) s

end Sys2Proof.Machine
end

