-- ==== Sys2Proof/Machine/Attention.lean ====
section
/-! DEFINITION. The attention engine (08_attention_kv R248, R256, R260, R265 to R272): the writes of a step, the tiles and lists of a walk,
its split along the sequence, and the fold of partials. -/

namespace Sys2Proof.Machine

/-! ### The attention of a layer -/

/-- The attention of a step's layer: the plan, the layer's metadata, o(l) of R254, and whether it is a draft sub-step's. -/
structure AttnAt where
  plan  : Plan
  a     : AttnLayer
  first : Nat
  draft : Bool
deriving DecidableEq, Repr

/-- The attention that a layer of the step has on this device. -/
def attnOf (d : Device) (j : Job) (st : StepRun) (l : Nat) : Option AttnAt :=
  let (draft, n) := ownLayer st l
  let plan := planOf d (if draft then j.draft.getD j.main else j.main)
  if remoteStage d j st l then none
  else (plan.attn.zipIdx.find? fun x => x.1.layer == n).map fun x =>
    { plan := plan, a := x.1, first := ((plan.attn.take x.2).map (·.groups)).sum, draft := draft }

/-- The draft sub-step that a layer belongs to: how often its label came before. -/
def subStep (st : StepRun) (l : Nat) : Nat := ((st.labels.take l).filter (· == st.labels.getD l [])).length

/-- The rows of a layer's lists that are still in the step. In draft sub-step i a request that drafts has its row at position p + i (R297). -/
def rowsOf (st : StepRun) (l : Nat) (draft : Bool) : List WalkRows :=
  if draft then
    let i := subStep st l
    ((st.draftRows.filter fun w => !w.gone && decide (i < w.depth)).map fun w => { w with pos := w.pos + i })
  else st.walkRows.filter fun w => !w.gone

/-- The tiles of a job that a plan gives a layer, in increasing order (R270, R271). DESIGN CHOICE: a plan that names none gives it all. -/
def attnTiles (j : Job) (a : AttnLayer) : List Nat :=
  let named := a.tiles.filterMap fun i => (tilesOf j.tiles)[i]?
  (if named.isEmpty then tilesOf j.tiles else named).mergeSort fun x y => decide (x ≤ y)

/-- The tile of a region. -/
def regionTile (j : Job) (r : Region) : Nat := (tilesOf j.tiles).getD r.tile 0

/-- X_site of a site in the step's snapshot (R114). -/
def snapSite (st : StepRun) (draft : Bool) (site : Nat) : Int := (if draft then st.snapDraft else st.snapMain).getD site 0

/-! ### The writes of a step (R248, R256, R266) -/

/-- Write the K and V rows of a step row into its slot of one group's page: only a page with one reference is written (R256). -/
def placeRow (j : Job) (st : StepRun) (x : AttnAt) (s : Seq) (row pos g : Nat) (d : Device) : Device :=
  match s.entries[pos / 32 * sumGroups x.plan + x.first + g]?, x.a.kRows[g]?, x.a.vRows[g]? with
  | some e, some rk, some rv =>
    if e.2 ∨ e.1 = noPage ∨ pageRefs d s.tenant e.1 ≠ 1 then d
    else
      let get := fun (r : Region) => mantissas d (regionTile j r) (r.at_ + row * r.stride) x.a.width
      fillSlot (pageAddr (poolOf d s.tenant) e.1) x.a.mode x.a.width (pos % 32) (get rk) (get rv)
        (snapSite st x.draft x.a.kSite) (snapSite st x.draft x.a.vSite) d
  | _, _, _ => d

/-- The positions of a sequence's rows are placed in the pages of a layer. -/
def placeRows (j : Job) (st : StepRun) (x : AttnAt) (w : WalkRows) (d : Device) : Device :=
  match seqOf d w.seq with
  | none => d
  | some s => (List.range w.n).foldl (fun d i => (List.range x.a.groups).foldl (fun d g => placeRow j st x s (w.row + i) (w.pos + i) g d) d) d

/-! ### K and V tiles (R102, R265) -/

/-- A position's K or V element of a KV head, as BF16: the page named by the snapshot, its slot's exponent, and the mode's code (R265). -/
def kvElement (d : Device) (sn : SeqSnap) (t : Nat) (x : AttnAt) (kv : Nat) (v : Bool) (pos dim : Nat) : Nat :=
  let per := x.a.width / x.a.d
  match sn.entries[pos / 32 * sumGroups x.plan + x.first + kv / per]? with
  | none => 0
  | some e =>
    let base := pageAddr (poolOf d t) e.1
    let n := planeSize x.a.mode x.a.width
    let slot := pos % 32
    let row := fabRead d (base + 256 + (if v then 32 * n else 0) + slot * n) n
    let ex := signedOf 8 (leNat (fabRead d (base + (if v then 96 else 64) + slot) 1))
    (fpEncode bf16 .rne (fpOf ⟨planeElem x.a.mode row (kv % per * x.a.d + dim), ex - 15⟩)).1

/-- Which tile of a chunk: K or V, its first position and their number, its first dimension and their number, and its place along both axes;
the first and the last tile of an accumulation load the scales and end the column block (R102, R265). -/
structure KvTile where
  v     : Bool
  p     : Nat
  nPos  : Nat
  i     : Nat
  nDim  : Nat
  kt    : Nat
  nt    : Nat
  first : Bool
  last  : Bool

/-- The bytes of a K or V tile. -/
def kvTile (d : Device) (sn : SeqSnap) (t : Nat) (x : AttnAt) (kv : Nat) (w : KvTile) : List Byte :=
  let elem := fun n k =>
    let (p, i) := if w.v then (k, n) else (n, k)
    if p < w.nPos ∧ i < w.nDim then kvElement d sn t x kv w.v (w.p + p) (w.i + i) else 0
  let (vn, vk) := if w.v then (w.nDim, w.nPos) else (w.nPos, w.nDim)
  [0x10, 3, (if w.first then 1 else 0) ||| (if w.last then 2 else 0), 0] ++ leBytes 2 vn ++ leBytes 2 vk ++ leBytes 4 w.kt ++ leBytes 4 w.nt ++
  zeros 4 ++ zeros 44 ++ zeros 384 ++ (List.range 64).flatMap fun n => (List.range 64).flatMap fun k => leBytes 2 (elem n k)

/-- The largest unbiased exponent among the BF16 values of a tile; none when all are zero. -/
def tileExp (b : List Byte) : Option Int :=
  ((elems16 (b.drop 448)).map fun w => if w.toNat % 2 ^ 15 = 0 then none else some ((max 1 (w.toNat / 128 % 256) : Nat) - 127 : Int)).foldl maxOpt none

/-- EA of an accumulation (R267). -/
def tilesEa (l : List (List Byte)) : Int := ((l.map tileExp).foldl maxOpt none).getD 0

/-- Size of a BF16 array-ready tile. -/
abbrev kvTileSize : Nat := 8640

/-! ### Chunks (R267) -/

/-- A chunk of up to 8 pages of a unit's run: its first position and the one behind its last. -/
structure Chunk where
  u     : WalkUnit
  start : Nat
  stop  : Nat

def chunkAt (u : WalkUnit) (c : Nat) : Chunk := { u := u, start := u.lo + 256 * c, stop := min u.hi (u.lo + 256 * c + 256) }
/-- Blocks of 64 positions of a chunk. -/
def Chunk.blocks (c : Chunk) : Nat := ceilDiv (c.stop - c.start) 64
/-- Positions in a block. -/
def Chunk.inBlock (c : Chunk) (b : Nat) : Nat := min 64 (c.stop - c.start - 64 * b)

/-- Slices of 64 elements of d. -/
def slices (x : AttnAt) : Nat := ceilDiv x.a.d 64
def inSlice (x : AttnAt) (s : Nat) : Nat := min 64 (x.a.d - 64 * s)

/-- The K tiles of a chunk by slice and block, each with its offset. -/
def kTiles (d : Device) (sn : SeqSnap) (t : Nat) (x : AttnAt) (kv : Nat) (c : Chunk) : List (Nat × List Byte) :=
  (List.range (slices x)).flatMap fun s => (List.range c.blocks).map fun b =>
    (x.a.area.k + (s * 4 + b) * kvTileSize, kvTile d sn t x kv
      { v := false, p := c.start + 64 * b, nPos := c.inBlock b, i := 64 * s, nDim := inSlice x s, kt := s, nt := b, first := s == 0, last := s + 1 == slices x })

/-- The V tiles of a chunk by block and slice. -/
def vTiles (d : Device) (sn : SeqSnap) (t : Nat) (x : AttnAt) (kv : Nat) (c : Chunk) : List (Nat × List Byte) :=
  (List.range c.blocks).flatMap fun b => (List.range (slices x)).map fun s =>
    (x.a.area.v + (b * 4 + s) * kvTileSize, kvTile d sn t x kv
      { v := true, p := c.start + 64 * b, nPos := c.inBlock b, i := 64 * s, nDim := inSlice x s, kt := b, nt := s, first := b == 0, last := b + 1 == c.blocks })

/-! ### The engine's lists (R147, R161, R267, R268) -/

/-- What varies in a pass of the engine. -/
structure WalkPass where
  kind   : Byte
  arrays : Nat
  accIn  : Bool
  rows   : Nat
  ea     : Int
  weight : Nat
  act    : Nat
  actExp : Nat
  stride : Nat
  out    : Nat

/-- The descriptor of a pass of the engine: sharing mode, FX16 activations, FP32 drain with RNE, rows of 1,024 bytes, array a at 256 bytes
from array a − 1, its tiles one behind the other. Its site field, which an FP32 drain does not use, is zero. -/
def passBytes (p : WalkPass) : List Byte :=
  [p.kind, BitVec.ofNat 8 (2 ^ p.arrays - 1), 0x12, 0x11] ++ leBytes 2 p.rows ++ [(if p.accIn then 2 else 0), 0, BitVec.ofNat 8 (patternOf 8 p.ea)] ++
  zeros 7 ++ ((List.range 4).flatMap fun a => leBytes 4 (p.weight + a * kvTileSize)) ++ leBytes 4 p.act ++ zeros 12 ++ leBytes 4 p.actExp ++ zeros 12 ++
  leBytes 4 p.stride ++ leBytes 4 1024 ++ ((List.range 4).flatMap fun a => leBytes 4 (p.out + 256 * a)) ++ zeros 40

/-- The END descriptor of a pass list and of a vector list. -/
def passEnd : List Byte := 0xFF :: zeros 127
def vecEnd : List Byte := 0xFF :: zeros 63

/-- Bytes between the engine's query rows. -/
def qStride (x : AttnAt) : Nat := 2 * roundUp x.a.d 64

/-- The score passes of a chunk (R267): one for each 64 elements of d, chained, the last one draining. -/
def scoreList (x : AttnAt) (c : Chunk) (ea : Int) : List Byte :=
  ((List.range (slices x)).flatMap fun s => passBytes
    { kind := 3, arrays := c.blocks, accIn := s != 0, rows := c.u.n, ea := ea, weight := x.a.area.k + s * 4 * kvTileSize, act := x.a.area.q + 128 * s
      actExp := x.a.area.qExp, stride := qStride x, out := x.a.area.score }) ++ passEnd

/-- The value passes of a chunk (R267): one for each block of 64 positions, chained, the last one draining. -/
def valueList (x : AttnAt) (c : Chunk) (ea : Int) : List Byte :=
  ((List.range c.blocks).flatMap fun b => passBytes
    { kind := 1, arrays := slices x, accIn := b != 0, rows := c.u.n, ea := ea, weight := x.a.area.v + b * 4 * kvTileSize, act := x.a.area.e + 128 * b
      actExp := x.a.area.eExp, stride := 512, out := x.a.area.part }) ++ passEnd

/-- An instruction word (R171), rounding with RNE. -/
def stitchWord (op dst a b c ty : Nat) : W32 := BitVec.ofNat 32 (op * 2 ^ 26 + dst * 2 ^ 22 + a * 2 ^ 17 + b * 2 ^ 12 + c * 2 ^ 7 + ty * 2 ^ 4)

/-- −∞ in FP32. -/
abbrev negInf : W32 := 0xFF80_0000

/-- c = log2(e) / √d, rounded once to FP32 with RNE (R268). -/
def scaleOf (dim : Nat) : W32 :=
  BitVec.ofNat 32 (roundFp 0 .rne (.fin false ⟨2 * (log2e * 2 ^ 400 / isqrt (dim * 2 ^ 800) : Nat) + 1, -257⟩)).1

/-- A program image (R170): constants, then instructions. -/
def programBytes (consts words : List W32) : List Byte :=
  ((List.range 16).flatMap fun i => leBytes 4 (consts.getD i 0).toNat) ++ words.flatMap fun w => leBytes 4 w.toNat

/-- Constants of step 2: c, −∞, and in columns of the chunk the bound of its positions below the snapshot length, the distance of its first
position from the block's first query, and the same plus the window. -/
def maskConsts (x : AttnAt) (c : Chunk) : List W32 :=
  let far : Int := (c.start : Int) - c.u.pos
  [scaleOf x.a.d, negInf, BitVec.ofNat 32 (c.stop - c.start), BitVec.ofNat 32 (patternOf 32 far), BitVec.ofNat 32 (patternOf 32 (far + x.a.window))]

/-- The program of step 2 (R268, R269): scale, then mask positions at or beyond the snapshot length, ahead of the query where the layer is
causal, and behind the window where it gives one. -/
def maskProgram (x : AttnAt) : List W32 :=
  [stitchWord 0x01 0 0 0 0 0, stitchWord 0x06 0 0 16 0 0, stitchWord 0x1C 1 1 0 0 0, stitchWord 0x0E 2 1 18 0 2, stitchWord 0x0D 0 2 0 17 0] ++
  (if x.a.causal ∨ x.a.window ≠ 0 then [stitchWord 0x1C 3 0 0 0 0] else []) ++
  (if x.a.causal then [stitchWord 0x04 4 1 19 0 2, stitchWord 0x0E 2 3 4 0 2, stitchWord 0x0D 0 2 17 0 0] else []) ++
  (if x.a.window ≠ 0 then [stitchWord 0x04 4 1 20 0 2, stitchWord 0x0E 2 3 4 0 2, stitchWord 0x0D 0 2 0 17 0] else []) ++
  [stitchWord 0x02 0 0 0 0 0]

/-- The program of step 4: EXP2(s′ − m_c), and 0 where s′ = −∞: there 0 is taken off, so no NaN arises where m_c is −∞ too. -/
def expConsts : List W32 := [negInf, 0]
def expProgram : List W32 :=
  [stitchWord 0x01 0 0 0 0 0, stitchWord 0x0F 1 0 16 0 0, stitchWord 0x1A 2 0 0 0 0, stitchWord 0x0D 2 1 17 2 0, stitchWord 0x05 0 0 2 0 0,
   stitchWord 0x16 0 0 0 0 0, stitchWord 0x02 0 0 0 0 0]

/-- Where the second program image stands. -/
def expAt (x : AttnAt) : Nat := x.a.area.prog + 512

/-- A vector descriptor of the engine over a span of 4, rounding with RNE: kind, source and destination slot 0, destination mode, kind fields. -/
def vecBytes (kind src dst mode : Byte) (fields : List Byte) : List Byte :=
  [kind, 4, 0, 0, src, 0, 0, 0, dst, 0, mode, 0] ++ zeros 4 ++ padTo 48 fields

/-- The six steps of R268, and END: scores in register pairs 0 to 7, e in registers 8 to 11, m_c in VA0, l_c in VA1. -/
def vectorList (x : AttnAt) (u : WalkUnit) : List Byte :=
  let n := BitVec.ofNat 8 u.n
  vecBytes 0x13 0 0xC0 0 (leBytes 4 x.a.area.score ++ leBytes 4 1024 ++ zeros 4 ++ [n, 0]) ++
  vecBytes 0x11 0xC0 0xC0 0 (leBytes 4 x.a.area.prog ++ [BitVec.ofNat 8 (maskProgram x).length]) ++
  vecBytes 0x12 0xC0 0 0 [2, 0, 1, 0] ++
  vecBytes 0x11 0xC0 0x88 1 (leBytes 4 (expAt x) ++ [BitVec.ofNat 8 expProgram.length]) ++
  vecBytes 0x12 0x88 0 0 [0, 0, 2, 1] ++
  vecBytes 0x14 0x88 0 0 (leBytes 4 x.a.area.e ++ leBytes 4 512 ++ leBytes 4 x.a.area.eExp ++ [n, 1]) ++ vecEnd

/-! ### Partials (R272) -/

/-- One FP32 operation with RNE. -/
def op32 (op : Nat) (a b c : W32) : W32 × NumEv := let r := arithOp op 0 .rne a.toNat b.toNat c.toNat; (BitVec.ofNat 32 r.1, r.2)

/-- One operation on every element of a row. -/
def mapEv {α : Type} (f : α → W32 × NumEv) (l : List α) : List W32 × NumEv :=
  let rs := l.map f
  (rs.map (·.1), rs.foldl (fun e r => e.add r.2) {})

/-- merge (R272). -/
def mergePart (x y : Part) : Part × NumEv :=
  if x.m = negInf then (y, {})
  else if y.m = negInf then (x, {})
  else
    let m := (op32 0x09 x.m y.m 0).1
    let a := (op32 0x16 (op32 0x05 x.m m 0).1 0 0).1
    let b := (op32 0x16 (op32 0x05 y.m m 0).1 0 0).1
    let t := op32 0x06 y.l b 0
    let l := op32 0x07 x.l a t.1
    let o := mapEv (fun (p : W32 × W32) => let u := op32 0x06 p.2 b 0; let r := op32 0x07 p.1 a u.1; (r.1, u.2.add r.2)) (x.o.zip y.o)
    ({ m := m, l := l.1, o := o.1 }, (t.2.add l.2).add o.2)

/-- finish (R272): a row whose l is zero is a zero row. -/
def finishPart (p : Part) : List W32 × NumEv :=
  if fpIsZero (laneFp 0 p.l.toNat) then (p.o.map fun _ => 0, {})
  else
    let r := op32 0x18 p.l 0 0
    let o := mapEv (fun v => op32 0x06 v r.1 0) p.o
    (o.1, r.2.add o.2)

/-- The partials of some rows merged with those of the next positions. -/
def mergeParts (xs ys : List Part) : List Part × NumEv :=
  let rs := (xs.zip ys).map fun p => mergePart p.1 p.2
  (rs.map (·.1), rs.foldl (fun e r => e.add r.2) {})

/-- Fold from the left in increasing position order (R272). -/
def foldParts : List (List Part) → List Part × NumEv
  | [] => ([], {})
  | p :: rest => rest.foldl (fun acc q => let r := mergeParts acc.1 q; (r.1, acc.2.add r.2)) (p, {})

/-- The bytes of a partial: m, l, then o. -/
def partBytes (p : Part) : List Byte := (p.m :: p.l :: p.o).flatMap fun w => leBytes 4 w.toNat

/-- 32-bit words of a tile's store. -/
def storeWords (d : Device) (k off n : Nat) : List W32 := (List.range n).map fun i => BitVec.ofNat 32 (storeField d k (off + 4 * i) 4)

/-- Partials that stand in a tile's store. -/
def readParts (d : Device) (x : AttnAt) (h : HomePart) : List Part :=
  (List.range h.n).map fun i => match storeWords d h.home (h.at_ + i * (8 + 4 * x.a.d)) (2 + x.a.d) with
    | m :: l :: o => { m := m, l := l, o := o }
    | _ => { m := negInf, l := 0, o := [] }

/-! ### A walk on a tile -/

/-- What the walks of a layer stand on. -/
structure WalkCtx where
  t   : Byte
  jid : W32
  j   : Job
  st  : StepRun
  l   : Nat
  x   : AttnAt

/-- A list of the engine for the job's layer. Token row 0 of its passes is step row `row`; token rows beyond the unit's are masked. -/
def WalkCtx.list (c : WalkCtx) (row n : Nat) : QList :=
  { addr := c.x.a.area.lists, origin := .engine, tenant := c.t, job := c.jid, epoch := c.j.epoch, layer := c.l, draft := c.x.draft
    kill := goneRows c.st c.x.draft ++ List.range' (row + n) (64 - n), rows := List.replicate 8 row }

/-- The engine queues a list for a unit. -/
def queueWalk (c : WalkCtx) (tile : Nat) (u : WalkUnit) (vector : Bool) (bytes : List Byte) (d : Device) : Device :=
  let q := c.list u.row u.n
  onTile tile (fun ts => if vector then { ts with vecs := ts.vecs ++ [q] } else { ts with passes := ts.passes ++ [q] })
    (storePut tile c.x.a.area.lists bytes d)

/-- The query rows of a unit are brought to its tile, with their exponents. -/
def bringRows (c : WalkCtx) (tile : Nat) (u : WalkUnit) (d : Device) : Device :=
  match c.x.a.heads[u.head]? with
  | none => d
  | some h => (List.range u.n).foldl (fun d i =>
      let k := regionTile c.j h.q
      let row := padTo (qStride c.x) (storeBytes d k (h.q.at_ + (u.row + i) * h.q.stride) (2 * c.x.a.d))
      storePut tile (c.x.a.area.qExp + i) (storeBytes d k (h.q.exps + u.row + i) 1) (storePut tile (c.x.a.area.q + i * qStride c.x) row d)) d

/-- The snapshot that a unit walks. -/
def WalkCtx.snap (c : WalkCtx) (u : WalkUnit) : SeqSnap :=
  (c.st.snaps.find? fun s => s.seq == u.seq).getD { seq := u.seq, gen := 0, len := 0, entries := [] }

/-- KV head of a unit. -/
def WalkCtx.kv (c : WalkCtx) (u : WalkUnit) : Nat := ((c.x.a.heads[u.head]?).map (·.kv)).getD 0

/-- The chunk's tiles and programs are built, and its score passes queued. -/
def buildChunk (c : WalkCtx) (tile : Nat) (ch : Chunk) (d : Device) : Device :=
  let sn := c.snap ch.u
  let ks := kTiles d sn c.t.toNat c.x (c.kv ch.u) ch
  let vs := vTiles d sn c.t.toNat c.x (c.kv ch.u) ch
  let d := bringRows c tile ch.u ((ks ++ vs).foldl (fun d t => storePut tile t.1 t.2 d) d)
  let d := storePut tile c.x.a.area.prog (programBytes (maskConsts c.x ch) (maskProgram c.x)) d
  let d := storePut tile (expAt c.x) (programBytes expConsts expProgram) d
  queueWalk c tile ch.u false (scoreList c.x ch (tilesEa (ks.map (·.2)))) d

/-- The chunk's value passes are queued over the V tiles that stand in the store. -/
def queueValues (c : WalkCtx) (tile : Nat) (ch : Chunk) (d : Device) : Device :=
  let at_ := fun b s => storeBytes d tile (c.x.a.area.v + (b * 4 + s) * kvTileSize) kvTileSize
  let vs := (List.range ch.blocks).flatMap fun b => (List.range (slices c.x)).map fun s => at_ b s
  queueWalk c tile ch.u false (valueList c.x ch (tilesEa vs)) d

/-- m_c and l_c of a unit's rows, which its vector list leaves in VA0 and VA1. -/
def maxSums (d : Device) (tile n : Nat) : List (W32 × W32) :=
  (List.range n).map fun r => (BitVec.ofNat 32 (vaEntry (tileOf d tile) 0 r), BitVec.ofNat 32 (vaEntry (tileOf d tile) 1 r))

/-- The partials of a chunk whose value passes have drained. -/
def chunkParts (c : WalkCtx) (d : Device) (tile : Nat) (ml : List (W32 × W32)) : List Part :=
  ml.zipIdx.map fun (x, r) => { m := x.1, l := x.2, o := storeWords d tile (c.x.a.area.part + 1024 * r) c.x.a.d }

/-- The result of a query row is converted to FX16 at the attention output, a TIGHT site (R178, R272). DESIGN CHOICE: a row of that site is the
output of one head. -/
def putOut (c : WalkCtx) (head row : Nat) (p : Part) (d : Device) : Device :=
  match c.x.a.heads[head]? with
  | none => d
  | some h =>
    let f := finishPart p
    let vals := f.1.map fun w => laneFp 0 w.toNat
    let ex := fxRowExponent .rne vals
    let q := vals.map fun v => fxOfFp .rne v ex
    let k := regionTile c.j h.out
    countEvents k (c.list row 1) (q.foldl (fun e m => e.add m.2) f.2)
      (storePut k (h.out.exps + row) [BitVec.ofNat 8 (patternOf 8 ex)]
        (storePut k (h.out.at_ + row * h.out.stride) (q.flatMap fun m => leBytes 2 (patternOf 16 m.1)) d))

/-- The results of a run of rows. -/
def putOuts (c : WalkCtx) (head row : Nat) (ps : List Part) (d : Device) : Device := ps.zipIdx.foldl (fun d (p, i) => putOut c head (row + i) p d) d

/-- A row with no chunk to walk. -/
def emptyPart (x : AttnAt) : Part := { m := negInf, l := 0, o := List.replicate x.a.d 0 }

/-- A unit is walked: its rows are finished here, or in decode its partials are copied to the home tile's store (R271), the tile of the
head's output. DESIGN CHOICE: the partials that arrive there stand one behind the other. -/
def finishUnit (c : WalkCtx) (w : TileWalk) (u : WalkUnit) (hs : List HomePart) (d : Device) : List HomePart × Device :=
  let ps := if w.acc.isEmpty then List.replicate u.n (emptyPart c.x) else w.acc
  if !u.split then (hs, putOuts c u.head u.row ps d)
  else match c.x.a.heads[u.head]? with
    | none => (hs, d)
    | some h =>
      let k := regionTile c.j h.out
      let at_ := c.x.a.area.home + (8 + 4 * c.x.a.d) * ((hs.filter fun p => p.home == k).map (·.n)).sum
      (hs ++ [{ home := k, head := u.head, row := u.row, n := u.n, lo := u.lo, at_ := at_ }], storePut k at_ (ps.flatMap partBytes) d)

/-- The rows of a unit have left the step. -/
def unitGone (c : WalkCtx) (u : WalkUnit) : Bool := !(rowsOf c.st c.l c.x.draft).any fun w => w.seq == u.seq

/-- Go on to the next chunk of a tile: units that are walked are finished, those whose rows have gone are dropped. -/
def nextChunk (c : WalkCtx) : Nat → TileWalk × List HomePart × Device → TileWalk × List HomePart × Device
  | 0, s => s
  | fuel + 1, (w, hs, d) => match w.units with
    | [] => ({ w with stage := 0 }, hs, d)
    | u :: rest =>
      let next : TileWalk := { w with units := rest, chunk := 0, stage := 0, ml := [], acc := [] }
      if unitGone c u then nextChunk c fuel (next, hs, d)
      else if u.lo + 256 * w.chunk < u.hi then ({ w with stage := 1 }, hs, buildChunk c w.tile (chunkAt u w.chunk) d)
      else let r := finishUnit c w u hs d; nextChunk c fuel (next, r.1, r.2)

/-- What a tile's walk does next, once nothing of the layer is queued or running there: the vector list of the chunk, its value passes, the
fold of its partials and the next chunk (R267, R268, R272). -/
def advanceWalk (c : WalkCtx) (s : TileWalk × List HomePart × Device) : TileWalk × List HomePart × Device :=
  let (w, hs, d) := s
  if !tileClear (tileOf d w.tile) c.t c.jid c.l then s
  else match w.units with
    | [] => s
    | u :: _ =>
      let fuel := w.units.length + 1
      if w.stage = 0 ∨ unitGone c u then nextChunk c fuel s
      else if w.stage = 1 then ({ w with stage := 2 }, hs, queueWalk c w.tile u true (vectorList c.x u) d)
      else if w.stage = 2 then ({ w with stage := 3, ml := maxSums d w.tile u.n }, hs, queueValues c w.tile (chunkAt u w.chunk) d)
      else
        let ps := chunkParts c d w.tile w.ml
        let r := foldParts (if w.acc.isEmpty then [ps] else [w.acc, ps])
        nextChunk c fuel ({ w with chunk := w.chunk + 1, stage := 0, acc := r.1 }, hs, countEvents w.tile (c.list u.row u.n) r.2 d)

/-- The home tiles fold the tile partials of every decode row in increasing order of position range, and finish (R271, R272). -/
def foldHomes (c : WalkCtx) (hs : List HomePart) (d : Device) : Device :=
  (hs.map fun h => (h.home, h.head, h.row)).eraseDups.foldl (fun d k =>
    let mine := (hs.filter fun h => (h.home, h.head, h.row) == k).mergeSort fun a b => decide (a.lo ≤ b.lo)
    let r := foldParts (mine.map (readParts d c.x))
    putOuts c k.2.1 k.2.2 r.1 (countEvents k.1 (c.list k.2.2 1) r.2 d)) d

/-! ### The split of a layer's walks (R270, R271) -/

/-- The new rows of a prefill chunk in blocks of 64, dealt back and forth over the tiles. A block walks from position 0 on; where the layer is
causal no chunk beyond its last query is walked, whose every position is masked. -/
def prefillUnits (x : AttnAt) (tiles : List Nat) (len : Nat) (w : WalkRows) : List (Nat × WalkUnit) :=
  (List.range x.a.heads.length).flatMap fun h => (List.range (ceilDiv w.n 64)).map fun i =>
    let s := tiles.length
    let n := min 64 (w.n - 64 * i)
    let pos := w.pos + 64 * i
    (tiles.getD (if i / s % 2 = 0 then i % s else s - 1 - i % s) 0,
     { head := h, seq := w.seq, row := w.row + 64 * i, n := n, pos := pos, lo := 0, hi := if x.a.causal then min len (pos + n) else len, split := false })

/-- Tiles that share the blocks of a decode snapshot (R271). -/
def splitCount (plan blocks : Nat) : Nat := max 1 (min plan (ceilDiv blocks 16))

/-- First block of tile i of S: the first B mod S tiles receive one block more. -/
def runStart (blocks s i : Nat) : Nat := blocks / s * i + min i (blocks % s)

/-- The query rows of a decode request over the split of its snapshot. -/
def decodeUnits (x : AttnAt) (tiles : List Nat) (len : Nat) (w : WalkRows) : List (Nat × WalkUnit) :=
  let b := ceilDiv len 32
  let s := splitCount tiles.length b
  (List.range x.a.heads.length).flatMap fun h => (List.range s).map fun i =>
    (tiles.getD i 0, { head := h, seq := w.seq, row := w.row, n := w.n, pos := w.pos, lo := 32 * runStart b s i
                       hi := min len (32 * runStart b s (i + 1)), split := true })

/-- The walks of a layer's rows, by tile. -/
def layerWalks (c : WalkCtx) : List TileWalk :=
  let tiles := attnTiles c.j c.x.a
  let units := (rowsOf c.st c.l c.x.draft).flatMap fun w =>
    let len := ((c.st.snaps.find? fun s => s.seq == w.seq).map (·.len)).getD 0
    if w.prefill then prefillUnits c.x tiles len w else decodeUnits c.x tiles len w
  tiles.map fun k => { tile := k, units := (units.filter fun u => u.1 == k).map (·.2) }

/-- The pages of the KV head that a unit reads. -/
def unitPages (c : WalkCtx) (u : WalkUnit) : List Nat :=
  let g := c.kv u / (c.x.a.width / c.x.a.d)
  (List.range' (u.lo / 32) (ceilDiv u.hi 32 - u.lo / 32)).filterMap fun b =>
    ((c.snap u).entries[b * sumGroups c.x.plan + c.x.first + g]?).map (·.1)

/-- The page reads of a tile's walks, with the latest-service time of the layer (R209, R266), as transfers of 4 KiB at most. -/
def walkReads (c : WalkCtx) (lst : Nat) (d : Device) (w : TileWalk) : List ArbReq :=
  ((w.units.flatMap (unitPages c)).eraseDups.flatMap fun k =>
    cutRange block4k (pageAddr (poolOf d c.t.toNat) k) (256 + 64 * planeSize c.x.a.mode c.x.a.width)).map fun r =>
      { who := w.tile, lst := lst, tenant := c.t, job := c.jid, load := .step c.st.serial, addr := r.1, len := r.2 }

/-! ### The course of a layer's attention (R249, R260, R266) -/

/-- What the walks of a layer of a running step stand on. -/
def walkCtx (t : Byte) (jid : W32) (d : Device) : Option WalkCtx :=
  match jobOf d t jid with
  | none => none
  | some j => match j.step with
    | none => none
    | some st => (attnOf d j st st.layer).map fun x => { t := t, jid := jid, j := j, st := st, l := st.layer, x := x }

/-- A change of a job's step. -/
def onStep (t : Byte) (jid : W32) (f : StepRun → StepRun) (d : Device) : Device := onJob t jid (fun j => { j with step := j.step.map f }) d

/-- Rows leave a stage job's lists and walks. -/
def dropJobRows (t : Byte) (jid : W32) (tiles : W32) (rows : List Nat) (d : Device) : Device :=
  onStep t jid (fun st => { st with walkRows := goneAt rows st.walkRows }) ((tilesOf tiles).foldl (fun d k => markTile t jid rows rows k d) d)

/-- The request of the step whose lists have a row. -/
def rowRef (st : StepRun) (draft : Bool) (row : Nat) : Option Ref :=
  (st.rows.find? fun x => (if draft then draftRowAt x.ref st.rows else rowsAt x.ref st.rows 0).contains row).map (·.ref)

/-- A walk would reach a retired entry: it ends its sequence with KEY_RETIRED (R249). On a worker the rows leave the stage's walks, and the
manager hears of the sequence with the result of the work unit. -/
def endRetired (c : WalkCtx) (d : Device) : Device :=
  (rowsOf c.st c.l c.x.draft).foldl (fun d w =>
    if !meetsRetired d w.seq c.x.a.layer then d
    else match rowRef c.st c.x.draft w.row with
      | some ref => endRequest ref stKeyRetired (match reqOf d ref with | some r => rollbackPair r.seq d | none => d)
      | none => onStep c.t c.jid (fun st => { st with retired := st.retired ++ [w.seq] })
          (dropJobRows c.t c.jid c.j.tiles ((List.range w.n).map (w.row + ·)) d)) d

/-- Requests whose walk would read a block that is known to be Uncorrectable end INTERNAL (R449). -/
def endBroken (c : WalkCtx) (d : Device) : Device :=
  (rowsOf c.st c.l c.x.draft).foldl (fun d w =>
    match rowRef c.st c.x.draft w.row, meetsBad d w.seq c.x.a.layer with
    | some ref, some k => match reqOf d ref with
      | some r => endRequest ref stInternal (rollbackPair r.seq (dramUncorrectable k srcStream d))
      | none => d
    | _, _ => d) d

/-- The lists that project K, V and Q have run out: the positions that the step writes are placed in their pages, then the page reads of the
layer's walks are raised (R266). DESIGN CHOICE: the order of the two stands for the engine's knots, which no rule numbers. -/
def startWalks (t : Byte) (jid : W32) (d : Device) : Device :=
  match walkCtx t jid d with
  | none => d
  | some c0 =>
    let d := endBroken c0 (endRetired c0 d)
    match walkCtx t jid d with
    | none => d
    | some c =>
      let d := (rowsOf c.st c.l c.x.draft).foldl (fun d w => placeRows c.j c.st c.x w d) d
      let walks := layerWalks c
      let reads := walks.flatMap (walkReads c (latestService d c.j c.st c.l) d)
      raiseAll reads (onStep t jid (fun st => { st with phase := 2, walks := walks, homes := [], loads := st.loads + reads.length }) d)

/-- No later layer of the step has attention on this device. -/
def lastWalk (d : Device) (c : WalkCtx) : Bool :=
  !(List.range' (c.l + 1) (c.st.total - (c.l + 1))).any fun k => (attnOf d c.j c.st k).isSome

/-- Release the pins of tiles (R260). -/
def releasePins (t : Byte) (jid : W32) (done : Nat → Bool) (d : Device) : Device :=
  match (jobOf d t jid).bind (·.step) with
  | none => d
  | some st =>
    onStep t jid (fun st => { st with pins := st.pins.filter fun x => !done x.1 })
      ((st.pins.filter fun x => done x.1).foldl (fun d x => x.2.foldl (fun d k => unpinPage t.toNat k d) d) d)

/-- The walks of the layer go on, each tile by itself; a tile that has made the step's last walk releases its pins, and once every tile is
done the home tiles fold (R260, R271). -/
def runWalks (t : Byte) (jid : W32) (d : Device) : Device :=
  match walkCtx t jid d with
  | none => d
  | some c =>
    let (walks, hs, d) := c.st.walks.foldl (fun (acc : List TileWalk × List HomePart × Device) w =>
      let r := advanceWalk c (w, acc.2.1, acc.2.2)
      (acc.1 ++ [r.1], r.2.1, r.2.2)) ([], c.st.homes, d)
    let all := walks.all fun w => w.units.isEmpty
    let d := onStep t jid (fun st => { st with walks := walks, homes := hs, phase := if all then 3 else 2 }) d
    let d := if all then foldHomes c hs d else d
    if lastWalk d c then releasePins t jid (fun k => all || (walks.find? fun w => w.tile == k).all fun w => w.units.isEmpty) d else d

end Sys2Proof.Machine
end

