-- ==== Sys2Proof/Machine/Layers.lean ====
section
/-! DEFINITION. The queueing of a layer's lists (06_memory_tiers R207, 09_serving R287, 10_fixed_plane_gauge R331) with the spill extents
that its tiles write and read (R35, 07_compression R234 to R238), and the course of a layer with attention (R266). -/

namespace Sys2Proof.Machine

/-! ### Spill extents (R35, R234 to R238) -/

/-- The buffer of a spill extent: C is a multiple of 32, the mode is one that the skein's plan names (R237), and the tensor lies in the
buffer. -/
def spillBuffer (d : Device) (t : Byte) (j : Job) (x : SpillSpec) : Option (Nat × Buffer) :=
  (bufOf d t.toNat x.handle.toNat).filter fun b => decide (x.cols % 32 = 0 ∧ x.off.toNat + codedLen x.mode x.rows x.cols ≤ b.2.size) &&
    (x.mode == 0 || (decide (x.mode ≤ 2) && (jobPlans d j).any fun p => p.2.modes.contains x.mode))

/-- A tile's stream engine writes rows to a spill extent, encoded. -/
def spillStore (t : Byte) (tile : Nat) (j : Job) (x : SpillSpec) (d : Device) : Device :=
  match spillBuffer d t j x with
  | none => d
  | some (slot, b) =>
    let bs := encodeTensor x.mode x.rows x.cols (mantissas d tile x.at_.toNat (x.rows * x.cols)) (storeBytes d tile x.exps.toNat x.rows)
    touch t.toNat slot b x.off.toNat bs.length (bufWrite t.toNat slot b x.off.toNat bs d)

/-- It reads rows back, decoded. -/
def spillLoad (t : Byte) (tile : Nat) (j : Job) (x : SpillSpec) (d : Device) : Device :=
  match spillBuffer d t j x with
  | none => d
  | some (slot, b) =>
    let r := decodeTensor x.mode x.rows x.cols (bufRead d b x.off.toNat (codedLen x.mode x.rows x.cols))
    storePut tile x.exps.toNat r.2 (storePut tile x.at_.toNat r.1
      (touch t.toNat slot b x.off.toNat (codedLen x.mode x.rows x.cols) d))

/-- The spill extents of some lists, each with its tile. -/
def spillsOf (ls : List ListSpec) : List (Nat × SpillSpec) := ls.flatMap fun l => l.spills.map fun x => (l.tile.toNat, x)

/-- The ranges of spill extents that the host tier holds (R202). -/
def spillHeld (d : Device) (t : Byte) (j : Job) (xs : List (Nat × SpillSpec)) : List (Nat × Nat × Buffer × Nat × Nat) :=
  heldOf (xs.filterMap fun x => (spillBuffer d t j x.2).map fun (slot, b) => (t.toNat, slot, b, x.2.off.toNat, codedLen x.2.mode x.2.rows x.2.cols))

/-- The arbitrated reads of a spill extent (R35, R216), with the latest-service time of the layer. -/
def spillReads (d : Device) (t : Byte) (jid : W32) (j : Job) (serial lst : Nat) (x : Nat × SpillSpec) : List ArbReq :=
  match spillBuffer d t j x.2 with
  | none => []
  | some (_, b) => ((sourceParts b x.2.off.toNat (codedLen x.2.mode x.2.rows x.2.cols)).filter fun r => (channelOf r.1).isSome).map fun r =>
      { who := x.1, lst := lst, tenant := t, job := jid, load := .step serial, addr := r.1, len := r.2 }

/-! ### Queueing (R146, R160, R207, R331) -/

/-- The bytes of a list, as the command processor instantiates them in the tile store. -/
def placeList (l : ListSpec) (d : Device) : Device := storePut l.tile.toNat l.addr.toNat l.bytes d

/-- A list names only knots that its tenant owns (R331). -/
def listKnotsOk (d : Device) (t : Byte) (l : ListSpec) : Bool :=
  let rd := fun off n => storeBytes d l.tile.toNat off n
  let a := l.addr.toNat
  (if l.vector then vecListKnots rd a (listFuel a 64) else passListKnots rd a (listFuel a 128)).all fun k => ownsKnot d t k

/-- Queue one list of a layer (R146, R160). -/
def queueList (t : Byte) (jid : W32) (epoch : W16) (layer : Nat) (draft : Bool) (kill : List Nat) (l : ListSpec) (d : Device) : Device :=
  let q : QList := { addr := l.addr.toNat, origin := if l.engine then .engine else .skein, tenant := t, job := jid, epoch := epoch,
                     layer := layer, draft := draft, kill := kill, rows := l.rows.map (·.toNat) }
  onTile l.tile.toNat (fun ts => if l.vector then { ts with vecs := ts.vecs ++ [q] } else { ts with passes := ts.passes ++ [q] }) d

/-- Every list of a layer on a job's tiles has run out. -/
def layerClear (d : Device) (t : Byte) (jid : W32) (j : Job) (l : Nat) : Bool := (tilesOf j.tiles).all fun k => tileClear (tileOf d k) t jid l

/-- All lists of the next layer are queued: the step goes on to the layer after it, and slots whose weights are all staged are released. -/
def layerDone (t : Byte) (jid : W32) (j : Job) (l : Nat) (d : Device) : Device :=
  let d := onStep t jid (fun st => { st with layer := l + 1, queued := st.queued ++ [l], phase := 0, walks := [], homes := [], spillsIn := [] }) d
  layerCheck t jid ((tilesOf j.tiles).foldl (fun d k => releaseSlot k { addr := 0, origin := .skein, tenant := t, job := jid, layer := l } d) (dispatchStage t jid d))

/-- The lists of the next layer are placed and queued; a knot that its tenant does not own ends the requests of the step with BAD_ARGUMENT,
and nothing is queued (R331). -/
def queueLists (t : Byte) (jid : W32) (j : Job) (st : StepRun) (mine : List ListSpec) (d : Device) : Device :=
  let d := mine.foldl (fun d q => placeList q d) d
  if !mine.all (listKnotsOk d t) then failStep t jid stBadArgument d
  else
    let draft := (ownLayer st st.layer).1
    let d := mine.foldl (fun d q => queueList t jid j.epoch st.layer draft (goneRows st draft) q d) d
    -- a layer with attention has more lists to come
    if st.phase = 0 ∧ (attnOf d j st st.layer).isSome then onStep t jid (fun st => { st with phase := 1 }) d
    else layerDone t jid j st.layer d

/-- Spill extents come first: those that are stored are written once the earlier layers have run out on the tiles, and those that are loaded
are read through the arbiter; the lists are queued when nothing of them is held or under way. -/
def queueLayer (t : Byte) (jid : W32) (j : Job) (st : StepRun) (lists : List ListSpec) (d : Device) : Device :=
  let mine := lists.filter fun q => j.tiles.getLsbD q.tile.toNat
  let xs := spillsOf mine
  let held := spillHeld d t j xs
  let fresh := xs.filter fun x => x.2.load && !st.spillsIn.contains x.2
  if !xs.isEmpty && !(st.queued.all fun l => layerClear d t jid j l) then d
  else if !held.isEmpty then holdUnit (.step st.serial) t.toNat held d
  else
    let d := dropHold (.step st.serial) d
    let stores := fun (d : Device) => xs.foldl (fun d x => if x.2.load then d else spillStore t x.1 j x.2 d) d
    if fresh.isEmpty then
      -- with loads, the stores were made when the loads began
      let d := if xs.any fun x => x.2.load then d else stores d
      queueLists t jid j st mine (xs.foldl (fun d x => if x.2.load then spillLoad t x.1 j x.2 d else d) d)
    else
      let d := stores d
      let reads := fresh.flatMap (spillReads d t jid j st.serial (latestService d j st st.layer))
      raiseAll reads (onStep t jid (fun st => { st with spillsIn := st.spillsIn ++ fresh.map (·.2), loads := st.loads + reads.length }) d)

/-- LAYER_QUEUE (R207, R287): the command processor goes on with the next layer of a running step. Its lists are queued once its window slots
are complete. For a layer with attention the first lists project K, V and Q; when they have run out the engine writes the new positions and
reads the pages, then it walks (R265 to R272), and the lists that follow are queued once its walks are done. -/
def layerQueue (tenant : Byte) (job : W32) (lists : List ListSpec) (d : Device) : Device :=
  match jobOf d tenant job with
  | none => d
  | some j => match j.step with
    | none => d
    | some st =>
      if !isReady d || st.awaitTwin || !st.parks.isEmpty || decide (st.total ≤ st.layer) || remoteStage d j st st.layer ||
          !slotsReady d tenant job j st st.layer || decide (st.loads ≠ 0) then d
      else if st.phase = 0 ∨ st.phase = 3 then queueLayer tenant job j st lists d
      else if st.phase = 1 then (if layerClear d tenant job j st.layer then startWalks tenant job d else d)
      else runWalks tenant job d

/-- LAYER_QUEUE. -/
def execLayerQueue (tenant : Byte) (job : W32) (lists : List ListSpec) (s : State) : Out := run (layerQueue tenant job lists) s

end Sys2Proof.Machine
end

