-- ==== Sys2Proof/Machine/Links.lean ====
section
/-! DEFINITION. Yarn-link ports (11_links_pods R339 to R356, R368, R371): training, flits, replay, routing, reassembly and the seal of
messages. -/

namespace Sys2Proof.Machine

/-- Port states as LINK_STAT shows them (R371). -/
def PortState.code : PortState → Nat
  | .off => 0
  | .down => 1
  | .training => 2
  | .up => 3
  | .shed => 4

/-- The manager of this device's pod (R27). -/
def managerId (d : Device) : BitVec 12 := BitVec.ofNat 12 (d.link.pod.toNat * 64)

/-! ### Port states (R341, R343, R500) -/

/-- Ledger a port (R407). -/
def ledgerLink (p : Nat) (d : Device) : Device :=
  let x := portOf d p
  ledgerEvent 0x0023 ([BitVec.ofNat 8 p, BitVec.ofNat 8 x.state.code, BitVec.ofNat 8 x.lanes.toNat, BitVec.ofNat 8 x.cause.toNat] ++ zeros 4) d

/-- Change a port: a new state sets DEV_EVENT.LINK, a new width or a fall to DOWN is ledgered (R343). -/
def changePort (p : Nat) (f : LinkPort → LinkPort) (d : Device) : Device :=
  let old := portOf d p
  let d := onPort p f d
  let new := portOf d p
  let d := if new.state = old.state then d else setEvent evLink d
  let d := if new.state = .down ∧ old.state ≠ .down then latchBead 5 d else d
  if (new.state = .down ∧ old.state ≠ .down) ∨ (new.state = .up ∧ new.lanes ≠ old.lanes) then ledgerLink p d else d

/-- Twin mode ends: twin jobs go on unpaired, and a pairing that waits fails (R495, R500). -/
def twinLost (d : Device) : Device :=
  d.serve.jobs.foldl (fun d x =>
    let t := BitVec.ofNat 8 (x.1 / 2 ^ 32); let jid := BitVec.ofNat 32 x.1
    if x.2.twin = .paired ∨ x.2.twin = .diverged then
      let d := onJob t jid (fun j => { j with
        twin := .lost, leadRows := none, mine := [], theirs := []
        step := j.step.map fun st => { st with awaitTwin := false } }) { d with audit.lost := true }
      { d with serve.reqs := d.serve.reqs.map fun r =>
          if r.2.tenant = t.toNat ∧ r.2.job = jid then (r.1, { r.2 with twinWait := false }) else r }
    else if x.2.twin = .requested then
      let d := onJob t jid (fun j => { j with twin := .none, pairer := none }) d
      match x.2.pairer.bind (findPacket d) with
      | some p => refuse p stTwinUnpaired d
      | none => d
    else d) { d with audit.offers := [], audit.notes := [] }

/-- A port leaves UP: a twin port ends twin mode. -/
def leaveUp (was : LinkPort) (d : Device) : Device := if was.state = .up ∧ was.mode = modeTwin then twinLost d else d

/-- A new epoch's number (R359). -/
def nextEpoch (e : W16) : W16 := if e = 0xFFFF then 1 else e + 1

/-- The running step of a job is abandoned: lists go, uncommitted positions are rolled back, and it starts again (R362). -/
def abandonStep (t : Byte) (jid : W32) (d : Device) : Device :=
  match (jobOf d t jid).bind (·.step) with
  | none => d
  | some st =>
    let d := (st.rows.filter fun x => !x.gone).foldl (fun d x => match reqOf d x.ref with
      | some r =>
        let d := rollbackPair r.seq d
        if r.state = 4 then setReqState x.ref r.back d else d
      | none => d) d
    onJob t jid (fun j => { j with reissued := j.reissued + 1 }) (dropStep t jid d)

/-- A job's new epoch comes into force: notices go to every device of the old and the new placement (R360, R362). -/
def newEpoch (t : Byte) (jid : W32) (more : List (BitVec 12)) (d : Device) : Device :=
  match jobOf d t jid with
  | none => d
  | some j =>
    let e := nextEpoch j.epoch
    let devs := ((stageDevices d j ++ more).filter (· != ownId d)).eraseDups
    let d := abandonStep t jid d
    let d := onJob t jid (fun j => { j with epoch := e, awaited := devs }) d
    devs.foldl (fun d dev => sendMsg { kind := 1, dest := dev, tenant := t, job := jid, epoch := e, body := .epoch jid false } d) d

/-- Route tables from the manager's picture of the pod: its own at once, the others as CONTROL messages (R354). -/
def sendRoutes (d : Device) : Device :=
  let members := ((d.link.topo.map (·.1)) ++ d.link.topo.map (·.2.2)).eraseDups.filter fun i => decide (i ≠ (ownId d).toNat)
  let d := { d with link.routes := Config.routeTable d.link.topo (ownId d).toNat }
  members.foldl (fun d i => sendMsg
    { kind := 0, dest := BitVec.ofNat 12 i, tenant := 0, job := 0, epoch := 0, body := .control (.routeTable (Config.routeTable d.link.topo i)) } d) d

/-- A device's port changed: the manager rebuilds the routes, and on a DOWN brings a new epoch into force for every pod job with a
stage on either device (R366). -/
def portReport (src : BitVec 12) (p : Nat) (up : Bool) (peer : BitVec 12) (d : Device) : Device :=
  let rest := d.link.topo.filter fun x => !(x.1 == src.toNat && x.2.1 == p)
  let d := { d with link.topo := if up then rest ++ [(src.toNat, p, peer.toNat)] else rest
                    link.lost := if up then d.link.lost.filter (· != peer) else d.link.lost }
  let d := sendRoutes d
  if up then d
  else d.serve.jobs.foldl (fun d x =>
    let coming := if x.2.epochOut then x.2.nextStages else []
    if x.2.manager.isNone && (x.2.place == .placed || x.2.place == .placing) &&
        (x.2.stages ++ coming).any fun s => s.device == src || s.device == peer then
      newEpoch (BitVec.ofNat 8 (x.1 / 2 ^ 32)) (BitVec.ofNat 32 x.1) (coming.map (·.device)) d
    else d) d

/-- Report a change of a POD port to the manager (R366). -/
def reportPort (p : Nat) (up : Bool) (peer : BitVec 12) (d : Device) : Device :=
  if (portOf d p).mode ≠ modePod then d
  else if d.link.manager then portReport (ownId d) p up peer d
  else sendMsg { kind := 0, dest := managerId d, tenant := 0, job := 0, epoch := 0,
                 body := .control (.portReport (BitVec.ofNat 2 p) up peer) } d

/-- The neighbour of a port. -/
def neighbour (x : LinkPort) : BitVec 12 := match x.peer with | some q => q.deviceId | none => 0

/-- A port goes DOWN: its replay buffer and what waits for it are discarded (R343), with the receive buffers that it held free again. -/
def portDown (p : Nat) (cause : BitVec 4) (d : Device) : Device :=
  let was := portOf d p
  let d : Device := { d with link := was.waiting.foldl (fun k w => k.freeHeld w) d.link }
  let d := changePort p (fun x => { x with
    state := .down, cause := cause, lanes := 0, replay := [], waiting := [], retrain := false, failedAt := some d.clock, peer := none
    nakAt := none, replays := 0, recent := [], wire := [], sentParams := none }) d
  let d := leaveUp was d
  if was.peer.isSome then reportPort p false (neighbour was) d else d

/-- A port retrains from BIT_LOCK and keeps its replay buffer (R343, R348). -/
def retrainPort (p : Nat) (d : Device) : Device :=
  let was := portOf d p
  leaveUp was (changePort p (fun x => { x with
    state := .training, train := .bitLock, trying := 0xF, trainAt := d.clock, bitAt := d.clock, retrain := true, retrainCount := x.retrainCount + 1
    nakAt := none, replays := 0, recent := [], wire := [] }) d)

/-- A training attempt begins in DETECT. -/
def startTraining (p : Nat) (d : Device) : Device :=
  changePort p (fun x => { x with state := .training, train := .detect, trying := 0xF, trainAt := d.clock, retrain := false,
                                  failedAt := none, wire := [] }) d

/-- LINK_TRAIN_START (R341, R342): a DOWN port starts an attempt, 100 ms after a failure began; a port held for a cause of 1 to 3
waits for a change of its configuration, or of the identity of the device at the other end. -/
def execLinkTrainStart (t : TrainTry) (s : State) : Out := run (fun d =>
  let x := portOf d t.port.toNat
  if coreAlive d ∧ x.state = .down ∧ x.mode ≠ modeOff ∧ (t.peerChanged = true ∨ ¬(1 ≤ x.cause.toNat ∧ x.cause.toNat ≤ 3)) then
    startTraining t.port.toNat (match x.failedAt with | some t => advanceTo (t + 100000000) d | none => d)
  else d) s

/-- 50 ms, the limit of an attempt (R341). -/
abbrev attemptNs : Nat := 50000000

/-- An attempt fails when a moment lies beyond its limit, else it goes on at that moment. -/
def attempt (p at_ : Nat) (f : Device → Device) (d : Device) : Device :=
  let limit := (portOf d p).trainAt + attemptNs
  if at_ > limit then portDown p 0 (advanceTo limit d) else f (advanceTo at_ d)

/-- BIT_LOCK_TIMEOUT (R341): 10 ms in BIT_LOCK without bit lock drop a lane. A port still in DETECT has entered BIT_LOCK after `detect` ns. -/
def execBitLockTimeout (p : Port) (w : LaneWait) (s : State) : Out := run (fun d =>
  let x := portOf d p.toNat
  if coreAlive d ∧ x.state = .training ∧ (x.train = .detect ∨ x.train = .bitLock) ∧ x.trying.getLsbD w.lane.toNat then
    let began := if x.train = .detect then x.trainAt + w.detect else x.bitAt
    attempt p.toNat (began + 10000000) (fun d =>
      let left := x.trying &&& ~~~(1#4 <<< w.lane.toNat)
      let d := onPort p.toNat (fun x => { x with train := .bitLock, bitAt := began, trying := left }) d
      if left = 0 then portDown p.toNat 4 d else d) d
  else d) s

/-- LINK_TRAIN_TIMEOUT (R341): 50 ms without passing. -/
def execLinkTrainTimeout (p : Port) (s : State) : Out := run (fun d =>
  let x := portOf d p.toNat
  if coreAlive d ∧ x.state = .training then portDown p.toNat 0 (advanceTo (x.trainAt + 50000000) d) else d) s

/-- The widest set of R339 that lanes and MAX_WIDTH allow. -/
def widestSet (maxWidth : BitVec 2) (lanes : BitVec 4) : BitVec 4 :=
  if maxWidth = 0 ∧ lanes = 0xF then 0xF
  else if maxWidth.toNat ≤ 1 ∧ lanes &&& 0x3 = 0x3 then 0x3
  else if maxWidth.toNat ≤ 1 ∧ lanes &&& 0xC = 0xC then 0xC
  else lanes &&& (-lanes)

/-- The first check of R342 that fails; 0 where all pass. -/
def paramCause (d : Device) (x : LinkPort) (q : PeerParams) (lanes : BitVec 4) : BitVec 4 :=
  if q.mode ≠ x.mode then 1
  else if x.mode = modePod ∧ q.deviceId = ownId d then 2
  else if !(q.pod == d.link.pod || (q.manager && d.link.manager)) then 3
  else if lanes = 0 then 4
  else 0

/-- LINK_SIGNAL_LOSS (R343): an UP port goes DOWN, and no retrain is tried. -/
def execLinkSignalLoss (p : Port) (s : State) : Out := run (fun d =>
  let x := portOf d p.toNat
  if coreAlive d ∧ x.state = .up then portDown p.toNat 0 d else d) s

/-- LINK_LOCK_LOSS (R343): the port retrains. -/
def execLinkLockLoss (p : Port) (s : State) : Out := run (fun d =>
  if coreAlive d ∧ (portOf d p.toNat).state = .up then retrainPort p.toNat d else d) s

/-- A port enters SHED (R368). -/
def shedPort (p : Nat) (d : Device) : Device := changePort p (fun x => { x with state := .shed, wire := [] }) d

/-- Every POD port enters SHED (R368). -/
def shedPorts (d : Device) : Device :=
  (List.range 4).foldl (fun d p => if (portOf d p).mode = modePod then shedPort p d else d) d

/-- POD ports are in SHED while shed stage 3 or 4 is in force, and in Nap (R368, R521). -/
def mustShed (d : Device) : Bool := decide (d.pwr.stage ≥ 3) || d.boot.lp == .nap

/-- A port starts to train, or enters SHED where POD ports must. -/
def enterTraining (p : Nat) (d : Device) : Device :=
  if (portOf d p).mode = modePod ∧ mustShed d then shedPort p d else startTraining p d

/-- Every SHED port retrains (R368); one that was not UP before starts to train anew. -/
def unshedPorts (d : Device) : Device :=
  (List.range 4).foldl (fun d p =>
    let x := portOf d p
    if x.state ≠ .shed then d else if x.peer.isSome then retrainPort p d else startTraining p d) d

/-! ### Training to UP (R341, R342) -/

/-- The parameters that this end sends in PARAM. -/
def ownParams (d : Device) (p : Nat) : PeerParams :=
  let x := portOf d p
  { deviceId := ownId d, pod := d.link.pod, manager := d.link.manager, port := BitVec.ofNat 2 p, mode := x.mode, buffers := [64, 64, 64, 64]
    lastSeq := x.accepted, lanes := x.trying, serial := d.boot.otp.serial }

/-- A port passes from one training state to the next after some ns, unless the attempt's limit comes first; ALIGN flits go out in DESKEW. -/
def passState (p : Nat) (next : TrainState) (dt : Nat) (f : Device → Device) (d : Device) : Device :=
  attempt p (d.clock + dt) (fun d => f (onPort p (fun x => { x with
    train := next, bitAt := if next = .bitLock then d.clock else x.bitAt
    wire := if next = .deskew then [plainFlit x flitAlign] else x.wire }) d)) d

/-- The training states from the present one on (R341), with the time spent in each. -/
def throughStates (p : Nat) (t : TrainTimes) (f : Device → Device) (d : Device) : Device :=
  let deskew := passState p .deskew t.blockLock (passState p .param t.deskew (attempt' t.param))
  let block := passState p .blockLock t.bitLock deskew
  if (portOf d p).train = .detect then passState p .bitLock t.detect block d else block d
where
  attempt' (dt : Nat) (d : Device) : Device := attempt p (d.clock + dt) f d

/-- PARAM is exchanged: the port enters UP and replays what the peer has not accepted, or is held DOWN with a cause (R342, R343, R346, R347). -/
def enterUp (p : Nat) (peer : PeerParams) (d : Device) : Device :=
  let x := portOf d p
  let lanes := widestSet x.maxWidth (x.trying &&& peer.lanes)
  let cause := paramCause d x peer lanes
  if cause ≠ 0 then portDown p cause d
  else
    let kept := if x.retrain then
        (match x.replay.findIdx? fun r => r.seq == peer.lastSeq with
          | some i => x.replay.drop (i + 1)
          | none => x.replay)
      else []
    let d := changePort p (fun x => { x with
      state := .up, train := .param, cause := 0, lanes := lanes, peer := some peer, sentParams := some (ownParams d p)
      failedAt := none, retrain := false
      sent := if x.retrain then x.sent else peer.lastSeq
      replay := kept.map fun r => { r with at_ := d.clock }
      credits := [64, 64, 64, 64], peerFreed := [0, 0, 0, 0], freed := [0, 0, 0, 0] }) d
    let d := onPort p (fun x => { x with wire := x.replay.map fun r => r.flit x }) d
    pumpPort p (reportPort p true peer.deviceId d)

/-- LINK_UP. -/
def execLinkUp (p : Port) (x : Trained) (s : State) : Out := run (fun d =>
  if coreAlive d && (portOf d p.toNat).state == .training then throughStates p.toNat x.times (enterUp p.toNat x.peer) d else d) s

/-! ### Flits received (R345 to R348, R355) -/

/-- Drop a flit or a message (R349, R353, R355). -/
def countDrop (d : Device) : Device := { d with link.dropCount := d.link.dropCount + 1 }

/-- Forward a flit (R355). The port is chosen with the message's first flit. -/
def forwardFlit (inPort vc dest : Nat) (flit : List Byte) (d : Device) : Device :=
  let src := BitVec.ofNat 12 (field flit 14 2); let msg := word16 flit 24
  let idx := field flit 26 2
  let hops := field flit 30 1 + 1
  let drop := fun d => freeBuffer inPort vc (countDrop d)
  let known := d.link.transit.find? fun x => x.1 == src && x.2.1 == msg
  let port := if idx % 32768 = 0 then outPort d dest vc else known.map (·.2.2)
  let live := fun p => let st := (portOf d p).state; st == .up || st == .shed
  match port.filter live with
  | none => drop d
  | some p =>
    if hops > 8 then drop d
    else
      let others := d.link.transit.filter fun x => !(x.1 == src && x.2.1 == msg)
      let d := { d with link.transit := if bitOf idx 15 then others else others ++ [(src, msg, p)] }
      let body := slice flit 12 18 ++ [BitVec.ofNat 8 hops] ++ (flit.drop 31).take 221
      pumpPort p (onPort p (fun x => { x with waiting := x.waiting ++ [{ vc := vc, held := some inPort, body := body }] }) d)

/-! ### Messages (R349 to R352) -/

/-- Keys that may open a message: the pod keys, the keys of the tenant's generations, or the keys of its jobs (R350, R390, R494). -/
def messageKeys (d : Device) (twin : Bool) (kind : Nat) (tenant : Byte) (jid : W32) : List (List Byte) :=
  let gens := tenantGens d tenant
  if twin then (if kind = 0 ∨ kind = 3 then d.sec.podKeys else (gens.take 1).map (kWrap tenant))
  else if kind = 0 then d.sec.podKeys
  else if kind = 7 then gens.map (kMig tenant)
  else if kind = 1 then (d.serve.jobs.filter fun x => x.1 / 2 ^ 32 == tenant.toNat).map (·.2.key)
  else match jobOf d tenant jid with | some j => [j.key] | none => []

/-- The source value in the IV: the device ID, or the partner's role on a TWIN port (R351, R494). -/
def ivSource (d : Device) (twin : Bool) (src : Nat) : Nat :=
  if !twin then src
  else match (portOf d 3).peer with
    | some q => if q.serial.toNat < d.boot.otp.serial.toNat then 0x1001 else 0x1002
    | none => src

/-- Counters that the replay window may accept: the 64 above the highest, then the highest and the 64 below it that were not seen
(R352). The manual gives the counter no place in a flit, so the receiver finds it by its tag. -/
def counterGuesses (w : Window) : List Nat :=
  ((List.range 64).map fun i => w.top + 1 + i) ++
  ((List.range 65).map fun i => w.top - i).filter fun c => decide (c > 0) && !w.seen.contains c

/-- The replay window of a key and a source. -/
def windowOf (d : Device) (key : List Byte) (src : Nat) : Window :=
  (d.link.windows.find? fun w => w.key == key && w.src == src).getD { key := key, src := src, top := 0, seen := [] }

/-- Note a counter as seen. -/
def noteCounter (key : List Byte) (src c : Nat) (d : Device) : Device :=
  let w := windowOf d key src
  let top := max w.top c
  let w' : Window := { w with top := top, seen := (w.seen ++ [c]).filter fun x => decide (x + 64 ≥ top) }
  { d with link.windows := (d.link.windows.filter fun w => !(w.key == key && w.src == src)) ++ [w'] }

/-- Open a message under some key and counter: checks 2 and 3 of R352. -/
def openMessage (d : Device) (twin : Bool) (m : Reasm) : Option (List Byte × Nat × Nat × List Byte) :=
  let kind := field m.head 11 1; let tenant := byteAt m.head 10; let jid := word32 m.head 4
  let src := ivSource d twin m.src.toNat
  (messageKeys d twin kind tenant jid).findSome? fun key =>
    let w := windowOf d key src
    (counterGuesses w ++ [w.top + 65 + Config.counterAhead m.head m.bytes]).findSome? fun c =>
      (gcmOpen key (leBytes 2 src ++ [tenant, BitVec.ofNat 8 kind] ++ leBytes 8 c) m.head m.bytes).map fun pl => (key, src, c, pl)

/-- A message is complete: it is opened, or discarded and counted. -/
def completeMessage (twin : Bool) (m : Reasm) (d : Device) : Device :=
  match openMessage d twin m with
  | some (key, src, c, pl) =>
    let d := noteCounter key src c d
    { d with link.inbox := d.link.inbox ++ [{ twin := twin, head := m.head, plain := pl }] }
  | none => { d with link.tagFailCount := d.link.tagFailCount + 1 }

/-- A message that passed its checks, of a kind and a source and with a fitting header, is taken up by the layer above; it sees no other
(R352). -/
def takeMsg (twin : Bool) (kind : Nat) (src : Option (BitVec 12)) (fits : List Byte → Bool) (d : Device) : Option Device :=
  (d.link.inbox.find? fun m => m.twin == twin && field m.head 11 1 == kind && (src.all fun s => field m.head 2 2 == s.toNat) && fits m.head).map
    fun m => { d with link.inbox := d.link.inbox.erase m }

/-- A flit for this device joins its message (R349). A flit out of place discards the message. -/
def consumeFlit (twin : Bool) (flit : List Byte) (d : Device) : Device :=
  let src := BitVec.ofNat 12 (field flit 14 2); let msg := word16 flit 24
  let idx := field flit 26 2; let valid := field flit 28 2
  let last := bitOf idx 15
  let old := d.link.reasm.find? fun m => m.src == src && m.msg == msg
  let rest := d.link.reasm.filter fun m => !(m.src == src && m.msg == msg)
  let m : Reasm := if idx % 32768 = 0 then { src := src, msg := msg, head := slice flit 12 14, bytes := [], next := 0, at_ := d.clock }
    else old.getD { src := src, msg := msg, head := [], bytes := [], next := 0, at_ := d.clock }
  let d := { d with link.reasm := rest }
  let m' : Reasm := { m with bytes := m.bytes ++ slice flit 32 valid, next := m.next + 1 }
  if m.next ≠ idx % 32768 ∨ (!last ∧ valid ≠ 220) ∨ valid = 0 ∨ valid > 220 ∨ m.head ≠ slice flit 12 14 ∨ m'.bytes.length > 65552 then
    countDrop d
  else if last then completeMessage twin m' d
  else { d with link.reasm := rest ++ [m'] }

/-- An accepted DATA flit goes to this device, on, or nowhere (R352, R353, R355). -/
def takeFlit (p : Nat) (flit : List Byte) (d : Device) : Device :=
  let vc := field flit 1 1 % 4; let dest := field flit 12 2; let kind := field flit 23 1
  let twin := (portOf d p).mode == modeTwin
  let here := fun d => freeBuffer p vc (consumeFlit twin flit d)
  let drop := fun d => freeBuffer p vc (countDrop d)
  if twin then (if dest = 0xFFE ∨ dest = 0xFFF then here d else drop d)
  else if dest = 0xFFF ∨ dest = (ownId d).toNat then here d
  else if dest < 0x800 then forwardFlit p vc dest flit d
  else if dest < 0x820 then
    if kind ≠ 0 then drop d else if dest - 0x800 = d.link.pod.toNat then here d else forwardFlit p vc dest flit d
  else drop d

/-- Send a NAK with the last accepted sequence number, unless one went within 256 ns of this gap (R347). -/
def sendNak (p : Nat) (d : Device) : Device :=
  onPort p (fun x =>
    if x.nakAt.any fun t => decide (d.clock - t < 256) then x
    else { x with nakAt := some d.clock, wire := x.wire ++ [plainFlit x flitNak] }) d

/-- Resend every unacknowledged flit, with the ack and the credits of now. After 8 replays without an advance of ack the port retrains in place
of the next, and after more than 64 within 1 ms at once (R347, R348). -/
def goBack (p : Nat) (d : Device) : Device :=
  let x := portOf d p
  if x.replay.isEmpty then d
  else if x.replays ≥ 8 then retrainPort p d
  else
    let recent := (x.recent.filter fun t => decide (d.clock - t < 1000000)) ++ [d.clock]
    let d := onPort p (fun x => { x with
      replayCount := x.replayCount + 1, replays := x.replays + 1, recent := recent
      replay := x.replay.map fun r => { r with at_ := d.clock }, wire := x.wire ++ x.replay.map fun r => r.flit x }) d
    if recent.length > 64 then retrainPort p d else d

/-- Take the ack and the credits of a flit (R346, R347). -/
def takeAck (p : Nat) (flit : List Byte) (d : Device) : Device :=
  let ack := word16 flit 4
  onPort p (fun x =>
    let x := match x.replay.findIdx? fun r => r.seq == ack with
      | some i => { x with replay := x.replay.drop (i + 1), replays := 0 }
      | none => x
    let now := (List.range 4).map fun v => field flit (6 + v) 1
    { x with
      credits := (List.range 4).map fun v => x.credits.getD v 0 + (now.getD v 0 + 256 - x.peerFreed.getD v 0) % 256
      peerFreed := now }) d

/-- FLIT_RECEIVE. -/
def execFlitReceive (p : Port) (flit : List Byte) (s : State) : Out := run (fun d =>
  let n := p.toNat
  if !(coreAlive d && (portOf d n).state == .up && decide (flit.length = 256)) then d
  else
    let d := onPort n (fun x => { x with wire := [] }) d
    if (crc32c (flit.take 252)).toNat ≠ field flit 252 4 then sendNak n (onPort n (fun x => { x with crcCount := x.crcCount + 1 }) d)
    else
      let type := field flit 0 1
      if type > 3 then d
      else
        let d := takeAck n flit d
        let d := if type = flitNak then goBack n d else d
        let d := if type ≠ flitData then d
          else if word16 flit 2 = (portOf d n).accepted + 1 then
            takeFlit n flit (onPort n (fun x => { x with accepted := x.accepted + 1, nakAt := none }) d)
          else sendNak n d
        pumpPort n d) s

/-- REPLAY_TIMER (R347): the oldest flit has waited 2 µs. -/
def execReplayTimer (p : Port) (s : State) : Out := run (fun d =>
  let x := portOf d p.toNat
  match x.replay with
  | r :: _ =>
    if coreAlive d ∧ x.state = .up then
      pumpPort p.toNat (goBack p.toNat (onPort p.toNat (fun x => { x with wire := [] }) (advanceTo (r.at_ + 2000) d)))
    else d
  | [] => d) s

/-- Some POD port is in SHED: the timers of R349 and R367 stop (R368). -/
def anyShed (d : Device) : Bool := (List.range 4).any fun p => (portOf d p).state == .shed

/-- REASSEMBLY_TIMEOUT (R349): a message incomplete 1 ms after its first flit. -/
def execReassemblyTimeout (src : BitVec 12) (msg : W16) (s : State) : Out := run (fun d =>
  match d.link.reasm.find? fun m => m.src == src && m.msg == msg with
  | some m =>
    if coreAlive d ∧ !anyShed d then
      countDrop { advanceTo (m.at_ + 1000000) d with link.reasm := d.link.reasm.filter fun m => !(m.src == src && m.msg == msg) }
    else d
  | none => d) s

/-! ### Registers (R371) -/

/-- The values that LINK_Pn_CFG takes. -/
def linkCfgOk (p : Nat) (v : W32) : Bool :=
  let mode := v.toNat % 4
  decide (mode ≠ 3) && decide (bitsOf v.toNat 2 2 ≠ 3) && (decide (mode ≠ 2) || decide (p = 3))

/-- LINK_Pn_CFG takes effect by retraining the port; OFF powers the lanes down. A port that changes its mode keeps nothing of the old one,
and a port in SHED retrains when it leaves SHED. -/
def linkCfg (p : Nat) (v : W32) (d : Device) : Device :=
  let was := portOf d p
  let mode := BitVec.ofNat 2 v.toNat
  let set := fun (x : LinkPort) => { x with mode := mode, maxWidth := BitVec.ofNat 2 (v.toNat / 4), cause := 0 }
  if mode = was.mode ∧ (was.state = .up ∨ (was.state = .training ∧ was.retrain)) then retrainPort p (onPort p set d)
  else if mode = was.mode ∧ was.state = .shed then onPort p set d
  else
    let d := if was.peer.isSome then portDown p 0 d else d
    if mode = modeOff then changePort p (fun x => { set x with state := .off, failedAt := none, retrain := false }) d
    else enterTraining p (onPort p set d)

/-- LINK_CTR_CLEAR: the maker's alone. -/
def linkCtrClear (v : W32) (d : Device) : Device :=
  if makerActive d ∧ v.getLsbD 0 then
    (List.range 4).foldl (fun d p => onPort p (fun x => { x with crcCount := 0, replayCount := 0, retrainCount := 0 }) d)
      { d with link.staleCount := 0, link.tagFailCount := 0, link.dropCount := 0 }
  else d

/-- A write to a LINK register. -/
def linkRegWrite (off : Nat) (v : W32) (d : Device) : Device :=
  if off = 0x01C then linkCtrClear v d
  else if off ≥ 0x100 ∧ off < 0x200 ∧ off % 0x40 = 0 then
    let p := (off - 0x100) / 0x40
    rwl (0x80000 + off) byEither (linkCfgOk p v) (linkCfg p v) d
  else d

def execLinkPnCfgWrite (p : Port) (v : W32) (s : State) : Out := 
  run (transact (linkRegWrite (0x100 + 0x40 * p.toNat) v)) s

def execLinkCtrClearWrite (v : W32) (s : State) : Out := run (transact (linkRegWrite 0x01C v)) s

/-- A LINK register. -/
def linkReg (d : Device) (off : Nat) : Nat :=
  if off = 0x000 then ((List.range 4).map fun p => (portOf d p).state.code * 16 ^ p).sum
  else if off = 0x004 then (if d.link.manager then 2 ^ 31 else 0) + d.link.pod.toNat * 256 + d.link.member.toNat
  else if off = 0x010 then (if makerActive d then d.link.staleCount.toNat else 0)
  else if off = 0x014 then (if makerActive d then d.link.tagFailCount.toNat else 0)
  else if off = 0x018 then (if makerActive d then d.link.dropCount.toNat else 0)
  else if off ≥ 0x100 ∧ off < 0x200 then
    let x := portOf d ((off - 0x100) / 0x40)
    let r := off % 0x40
    if r = 0x00 then x.maxWidth.toNat * 4 + x.mode.toNat
    else if r = 0x04 then (if x.state = .up then (neighbour x).toNat else 0) * 2 ^ 20 + x.cause.toNat * 2 ^ 16 + x.lanes.toNat * 2 ^ 12 + x.state.code
    else if r = 0x08 then x.crcCount.toNat
    else if r = 0x0C then x.replayCount.toNat
    else if r = 0x10 then x.retrainCount.toNat
    else 0
  else 0

end Sys2Proof.Machine
end

