-- ==== Sys2Proof/Machine/Pods.lean ====
section
/-! DEFINITION. Pods, placements and job messages (11_links_pods R356 to R367, R369): what a message that passed the checks of R352 up to
its replay window does, and the opcodes of the range. -/

namespace Sys2Proof.Machine

/-- A message arrives while the core die runs: it does something only once it has passed the checks of R352. A job message ends Doze (R523). -/
def onMessage (kind : Nat) (src : BitVec 12) (fits : List Byte → Bool) (f : Device → Device) (s : State) : Out := run (fun d =>
  if !coreAlive d then d
  else match takeMsg false kind (some src) fits d with
    | none => d
    | some d => f (if kind = 0 then d else wakeUp 4 d)) s

/-- The header of a job message names its tenant, epoch and job; one of kind EPOCH names no job (R344). -/
def headFits (kind : Nat) (m : JobMsg) (head : List Byte) : Bool :=
  byteAt head 10 == m.tenant && field head 8 2 == m.epoch.toNat && (kind == 1 || field head 4 4 == m.job.toNat)

/-- A job message. -/
def onJobMessage (kind : Nat) (m : JobMsg) (f : Device → Device) (s : State) : Out := onMessage kind m.src (headFits kind m) f s

/-! ### The epoch check (R361) -/

/-- A stale message: discarded whole and counted. -/
def countStale (m : JobMsg) (d : Device) : Device :=
  onJob m.tenant m.job (fun j => { j with stale := j.stale + 1 }) { d with link.staleCount := d.link.staleCount + 1 }

/-- The job of a current message. -/
def currentJob (d : Device) (m : JobMsg) : Option Job := (jobOf d m.tenant m.job).filter fun j => j.epoch == m.epoch

/-- The device holds a stage job for the manager that sent the message (R357). -/
def fromManager (j : Job) (m : JobMsg) : Bool := j.manager == some m.src

/-! ### CONTROL (R354, R364, R366, R389) -/

/-- A mounted skein of a tenant by its digest. -/
def skeinBy (d : Device) (t : Byte) (dig : List Byte) : Option Nat :=
  (d.mem.skeins.find? fun x => x.2.tenant == t && x.2.digest == dig).map (·.1)

/-- A worker takes K_job, sealed under K_wrap of a generation it holds, and the stage it is for. -/
def takeJobKey (src : BitVec 12) (t : Byte) (jid : W32) (epoch : W16) (kgen : BitVec 2) (counter : W64) (sealed : List Byte)
    (st : StageInfo) (d : Device) : Device :=
  match (tenantGens d t).find? (fun g => g.num == kgen), skeinBy d t st.main with
  | some g, some main =>
    let iv := leBytes 2 src.toNat ++ [t, 0xFF] ++ leBytes 8 counter.toNat
    let aad := leBytes 4 jid.toNat ++ leBytes 2 epoch.toNat ++ [BitVec.ofNat 8 kgen.toNat]
    match gcmOpen (kWrap t g) iv aad sealed with
    | none => { d with link.tagFailCount := d.link.tagFailCount + 1 }
    | some key =>
      let stages : List Stage := [{ first := st.first, last := st.first + st.count - 1, device := ownId d, tiles := st.tiles }]
      match jobOf d t jid with
      | some j =>
        if j.manager ≠ some src then d
        -- the stages of one placement on this device come one by one
        else if j.epoch = 0 ∧ j.nextStages.isEmpty ∧ !j.stages.any fun s => s.first == st.first then
          onJob t jid (fun j => { j with key := key, stages := j.stages ++ stages }) d
        else onJob t jid (fun j => { j with key := key, nextStages := j.nextStages.filter (fun s => s.first != st.first) ++ stages }) d
      | none =>
        let j : Job := { main := main, adapter := skeinBy d t st.adapter, draft := skeinBy d t st.draft, tiles := st.tiles, budget := 0,
                         prefillMin := 0, key := key, order := d.serve.nextOrder, manager := some src, stages := stages }
        { d with serve.jobs := Assoc.insert d.serve.jobs (jobKey t jid) j, serve.nextOrder := d.serve.nextOrder + 1 }
  | _, _ => d

/-- A stage job goes: its work, its shadows, its key (R363, R367, R389). -/
def releaseStage (t : Byte) (jid : W32) (d : Device) : Device :=
  match jobOf d t jid with
  | none => d
  | some j =>
    let d := dropStep t jid (clearLists t jid j.tiles d)
    let d := j.shadows.foldl (fun d x => releaseSeq x.2 d) d
    { d with serve.jobs := Assoc.erase d.serve.jobs (jobKey t jid) }

/-- A layer was on this device under a placement; without one every layer is. -/
def layerHere (d : Device) (stages : List Stage) (l : Nat) : Bool :=
  stages.isEmpty || stages.any fun s => s.device == ownId d && decide (s.first ≤ l ∧ l ≤ s.last)

/-- A page goes in two messages, as one carries 65,536 bytes with what it says of the page. -/
abbrev halfPage : Nat := pageSize / 2

/-- The committed pages of a sequence for a run of layers that were here, half by half (R363). -/
def pagesFor (d : Device) (j : Job) (s : Seq) (st : Stage) : List PageCopy :=
  let q := poolOf d s.tenant
  let plan := planOf d s.skein
  (s.entries.zipIdx.filterMap fun (e, i) =>
    match groupAt 0 plan.attn (i % sumGroups plan) with
    | some (_, a, _) =>
      if !e.2 && decide (e.1 ≠ noPage) && decide (st.first ≤ a.layer ∧ a.layer ≤ st.last) && layerHere d j.stages a.layer then
        some ((List.range 2).map fun h => { index := i, kgen := ((SMap.get {} q.pages e.1).kgen).getD 0, off := halfPage * h
                                            bytes := fabRead d (pageAddr q e.1 + halfPage * h) halfPage })
      else none
    | none => none).flatten

/-- The pages of a sequence go to a device that takes over layers, each sealed under K_mig of its own generation (R249, R350, R363). DESIGN
CHOICE: what of the pages a message carries, which the manual leaves open, is half a page. -/
def sendMoved (t : Byte) (jid : W32) (epoch : W16) (dest : BitVec 12) (seq committed : Nat) (pages : List PageCopy) (d : Device) : Device :=
  pages.foldl (fun d c => sendMsg { kind := 7, dest := dest, tenant := t, job := jid, epoch := epoch,
                                    body := .migrate (BitVec.ofNat 16 seq) committed [c] } d) d

/-- A worker sends the committed pages of its shadows for the layers that move to another device (R363). -/
def moveShadows (t : Byte) (jid : W32) (j : Job) (next : List Stage) (d : Device) : Device :=
  (next.filter fun s => s.device != ownId d).foldl (fun d st =>
    j.shadows.foldl (fun d x => match seqOf d x.2 with
      | some s =>
        sendMoved t jid j.epoch st.device x.1 s.committed (pagesFor d j s st) d
      | none => d) d) d

/-- A shadow keeps no page of a layer that a device no longer holds. -/
def dropLayers (i : Nat) (mine : List Stage) (d : Device) : Device :=
  match seqOf d i with
  | none => d
  | some s =>
    let plan := planOf d s.skein
    let here : Nat → Bool := fun n => match groupAt 0 plan.attn (n % sumGroups plan) with
      | some (_, a, _) => mine.any fun st => decide (st.first ≤ a.layer ∧ a.layer ≤ st.last)
      | none => false
    let gone := s.entries.zipIdx.filter fun x => !here x.2
    let d := onSeq i (fun s => { s with entries := s.entries.zipIdx.map fun x => if here x.2 then x.1 else (noPage, false) }) d
    syncList i (gone.foldl (fun d x => dropRef s.tenant x.1.1 d) d)

/-- The manager says where a job's layers are: pages of layers that move are sent on, and the stage is released or takes its new layers
and tiles (R277, R363). -/
def moveStage (t : Byte) (jid : W32) (next : List (Nat × Nat × BitVec 12)) (d : Device) : Device :=
  match jobOf d t jid with
  | none => d
  | some j =>
    let stages : List Stage := next.map fun x => { first := x.1, last := x.1 + x.2.1 - 1, device := x.2.2, tiles := 0 }
    let d := moveShadows t jid j stages d
    let mine := stages.filter fun s => s.device == ownId d
    if mine.isEmpty then releaseStage t jid d
    else
      let d := j.shadows.foldl (fun d x => dropLayers x.2 mine d) d
      onJob t jid (fun j => match j.nextStages with
        | [] => j
        | st :: _ => { j with stages := j.nextStages, tiles := st.tiles, nextStages := [] }) d

/-- A worker has confirmed a withdrawal: the request ends once every stage device has (R364). -/
def withdrawDone (src : BitVec 12) (ref : Ref) (d : Device) : Device :=
  match reqOf d ref with
  | none => d
  | some r =>
    let left := r.awaited.filter (· != src)
    match r.ending with
    | none => d
    | some st => if left.isEmpty then endRequest ref st d else onReq ref (fun r => { r with awaited := left }) d

/-- CONTROL_MESSAGE. -/
def control (src : BitVec 12) (c : Control) (d : Device) : Device :=
  match c with
  | .portReport p up peer => if d.link.manager then portReport src p.toNat up peer d else d
  | .routeTable es => if src = managerId d ∧ !d.link.manager then { d with link.routes := es } else d
  | .jobKey t jid epoch kgen counter sealed st => takeJobKey src t jid epoch kgen counter sealed st d
  | .withdrawAck _ _ tag => match d.serve.reqs.find? fun x => x.1.tag == tag && x.2.awaited.contains src with
    | some x => withdrawDone src x.1 d
    | none => d
  | .release t jid next => if (jobOf d t jid).any fun j => j.manager == some src then moveStage t jid next d else d

def execControlMessage (src : BitVec 12) (c : Control) (s : State) : Out := onMessage 0 src (fun _ => true) (control src c) s

/-! ### Work on a worker (R357, R360, R364) -/

/-- EPOCH_NOTICE: older work is withdrawn, the epoch adopted and acknowledged (R360, R362). -/
def epochNotice (m : JobMsg) (d : Device) : Device :=
  match jobOf d m.tenant m.job with
  | none => d
  | some j =>
    if !fromManager j m then d
    else
      let d := dropStep m.tenant m.job (clearLists m.tenant m.job j.tiles d)
      let d := j.shadows.foldl (fun d x => rollback x.2 d) d
      sendMsg { kind := 1, dest := m.src, tenant := m.tenant, job := m.job, epoch := m.epoch, body := .epoch m.job true }
        (onJob m.tenant m.job (fun j => { j with epoch := m.epoch }) d)

def execEpochNotice (m : JobMsg) (s : State) : Out := onJobMessage 1 m (epochNotice m) s

/-- The local shadow of a sequence of the manager, taken anew where there is none yet (R358). -/
def shadowOf (m : JobMsg) (j : Job) (seq : Nat) (d : Device) : Option (Nat × Device) :=
  match ((jobOf d m.tenant m.job).map (·.shadows)).getD [] |>.find? fun x => x.1 == seq with
  | some x => some (x.2, d)
  | none => if seqRoom d m.tenant.toNat 1 then
      let (i, d) := newSeq m.tenant.toNat j.main false false d
      some (i, onJob m.tenant m.job (fun j => { j with shadows := j.shadows ++ [(seq, i)] }) d)
    else none

/-- APPEND one entry to a shadow: a page where the layer is the stage's own, else none (R358). -/
def appendShadow (i : Nat) (stages : List Stage) (d : Device) : Device :=
  match seqOf d i with
  | none => d
  | some s =>
    let plan := planOf d s.skein
    let mine := match groupAt 0 plan.attn (s.entries.length % sumGroups plan) with
      | some (_, a, _) => stages.any fun st => decide (st.first ≤ a.layer ∧ a.layer ≤ st.last)
      | none => false
    if mine && decide (freePages (poolOf d s.tenant) > 0) then appendEntry i d
    else onSeq i (fun s => { s with entries := s.entries ++ [(noPage, false)] }) d

/-- The rows of a work unit for one sequence: what lies below them is committed and what lay beyond is rolled back (R362), and the shadow takes
the pages that they need (R358). -/
def shadowRows (m : JobMsg) (x : ShadowRows) (d : Device) : Device :=
  match jobOf d m.tenant m.job with
  | none => d
  | some j => if x.gone then d else match shadowOf m j x.seq.toNat d with
    | none => d
    | some (i, d) =>
      let d := rollback i (onSeq i (fun s => { s with committed := x.pos }) d)
      match seqOf d i with
      | none => d
      | some s =>
        let n := entriesFor d s (x.pos + x.n) - s.entries.length
        let d := times n (appendShadow i j.stages) d
        syncList i (growList i 64 (if n = 0 then d else bumpGen i d))

/-- The rows of a work unit in the lists of its layers, each on its shadow. -/
def shadowWalks (j : Job) : List ShadowRows → Nat → List WalkRows
  | [], _ => []
  | x :: rest, at_ =>
    { seq := ((j.shadows.find? fun s => s.1 == x.seq.toNat).map (·.2)).getD 0xFFFF, row := at_, n := x.n, pos := x.pos, prefill := x.prefill,
      gone := x.gone } :: shadowWalks j rest (at_ + x.n)

/-- WORK_MESSAGE: the shadows of its rows are made ready, their snapshot is taken and its pages pinned (R257, R260), and the stage's layers run
as a step under the X_site snapshot that came with the work unit (R114, R349, R358). The lists of the first layer come with it; the others are
queued by LAYER_QUEUE. -/
def workMessage (m : JobMsg) (w : WorkUnit) (sites : List Int) (lists : List ListSpec) (d : Device) : Device :=
  match currentJob d m with
  | none => countStale m d
  | some j => match j.stages.find? fun s => s.first == w.first with
    | none => d
    | some s =>
      if !fromManager j m then d
      else
        let d := w.rows.foldl (fun d x => shadowRows m x d) d
        let j := (jobOf d m.tenant m.job).getD j
        let rows := shadowWalks j w.rows 0
        let snaps := rows.flatMap fun x => if x.gone then [] else snapshot d x.seq (x.pos + x.n)
        let (pins, d) := pinSnaps m.tenant.toNat j snaps d
        let st : StepRun :=
          { serial := d.mem.serial, rows := [], t0 := wallNow d, dstep := w.dstep, snaps := snaps, snapMain := sites, snapDraft := []
            total := s.last + 1 - s.first, labels := (stepLabels d j 0).drop s.first, walkRows := rows, pins := pins, epoch := m.epoch
            obsMain := j.keptMain, obsDraft := j.keptDraft }
        let d := zeroAtomics { d with mem.serial := d.mem.serial + 1 } j ((rows.map (·.n)).sum)
        layerQueue m.tenant m.job lists (onJob m.tenant m.job (fun j => { j with step := some st, keptMain := [], keptDraft := [] }) d)

def execWorkMessage (m : JobMsg) (w : WorkUnit) (sites : List Int) (lists : List ListSpec) (s : State) : Out :=
  onJobMessage 2 m (workMessage m w sites lists) s

/-- Activations of a message are decoded into a tile's store, row by row (R234, R352); false where their length is not that of the coded
tensor. -/
def placeActivation (tiles : W32) (x : Activation) (d : Device) : Bool × Device :=
  match (tilesOf tiles)[x.tile.toNat]? with
  | none => (true, d)
  | some k =>
    if x.coded.length ≠ codedLen x.mode x.rows x.cols ∨ x.mode > 2 then (false, d)
    else
      let r := decodeTensor x.mode x.rows x.cols x.coded
      (true, storePut k x.exps.toNat r.2 ((List.range x.rows).foldl (fun d i =>
        storePut k (x.at_.toNat + i * x.stride.toNat) (slice r.1 (2 * x.cols * i) (2 * x.cols)) d) d))

/-- Activations for a job's tiles; where they cannot be decoded its work unit fails with CODEC_ERROR (R232, R238). -/
def takeActivations (m : JobMsg) (j : Job) (xs : List Activation) (d : Device) : Device :=
  xs.foldl (fun d x => let r := placeActivation j.tiles x d; if r.1 then r.2 else failStep m.tenant m.job stCodecError r.2) d

/-- DATA_MESSAGE: activations reach the tiles of a stage, by tile ordinal (R349, R357). -/
def dataMessage (m : JobMsg) (x : Activation) (d : Device) : Device :=
  match currentJob d m with
  | none => countStale m d
  | some j => if fromManager j m then takeActivations m j [x] d else d

def execDataMessage (m : JobMsg) (t : Tile) (x : RowBlock) (coded : List Byte) (s : State) : Out :=
  onJobMessage 3 m (dataMessage m { x with tile := t, coded := coded }) s

/-- WITHDRAW_MESSAGE: the rows of a cancelled request, or everything of the epoch, leave the tile queues; the manager hears of it
(R152, R169, R294, R364). -/
def withdrawMessage (m : JobMsg) (tag : Option W16) (rows : List Nat) (d : Device) : Device :=
  match currentJob d m with
  | none => countStale m d
  | some j =>
    if !fromManager j m then d
    else match tag with
      | none => dropStep m.tenant m.job (clearLists m.tenant m.job j.tiles d)
      | some g => sendMsg { kind := 0, dest := m.src, tenant := 0, job := 0, epoch := 0, body := .control (.withdrawAck m.tenant m.job g) }
          (dropJobRows m.tenant m.job j.tiles rows d)

def execWithdrawMessage (m : JobMsg) (tag : Option W16) (rows : List Nat) (s : State) : Out :=
  onJobMessage 6 m (withdrawMessage m tag rows) s

/-- Put part of a page of a shadow in its place; the page keeps its generation (R363). -/
def landPage (t i : Nat) (c : PageCopy) (d : Device) : Device :=
  let put := fun (k : Nat) (d : Device) => fabWrite (pageAddr (poolOf d t) k + c.off) (c.bytes.take (pageSize - c.off)) d
  match (seqOf d i).bind fun s => (s.entries[c.index]?).filter fun e => decide (e.1 ≠ noPage) with
  | some e => put e.1 d
  | none => match takePage t false d with
    | none => d
    | some (k, d) =>
      let d := put k (onPage t k (fun x => { x with kgen := some c.kgen }) d)
      syncList i (growList i 64 (onSeq i (fun s => { s with
        entries := (s.entries ++ List.replicate (c.index + 1 - s.entries.length) (noPage, false)).set c.index (k, false) }) d))

/-- MIGRATE_MESSAGE: pages and length build the shadow of a sequence (R363). -/
def migrateMessage (m : JobMsg) (seq : W16) (committed : Nat) (pages : List PageCopy) (d : Device) : Device :=
  match currentJob d m with
  | none => countStale m d
  | some j =>
    let t := m.tenant.toNat
    let have_ := shadowOf m j seq.toNat d
    match have_ with
    | none => d
    | some (i, d) => onSeq i (fun s => { s with committed := committed }) (pages.foldl (fun d c => landPage t i c d) d)

def execMigrateMessage (m : JobMsg) (seq : W16) (committed : Nat) (pages : List PageCopy) (s : State) : Out :=
  onJobMessage 7 m (migrateMessage m seq committed pages) s

/-- KNOT_MESSAGE (R365): the knot must be the tenant's, and no device knot. -/
def knotMessage (m : JobMsg) (knot : W16) (n : W32) (d : Device) : Device :=
  match currentJob d m with
  | none => countStale m d
  | some _ => if knot.toNat ≥ 4096 ∧ ownsKnot d m.tenant knot.toNat ∧ m.tenant ≠ 0 then knotSignal knot.toNat n.toNat d else countDrop d

def execKnotMessage (m : JobMsg) (knot : W16) (n : W32) (s : State) : Out := onJobMessage 5 m (knotMessage m knot n) s

/-! ### Results on the manager (R215, R357) -/

/-- Merge the X_obs of a stage by maximum. -/
def mergeObs (t : Byte) (jid : W32) (xobs : List (Nat × Int)) (d : Device) : Device :=
  onJob t jid (fun j => { j with step := j.step.map fun st => { st with
    obsMain := xobs.foldl (fun m x => SMap.modify none m x.1 (maxOpt · (some x.2))) st.obsMain } }) d

/-- A stage on another device has run: the step goes on behind it. -/
def stageDone (t : Byte) (jid : W32) (src : BitVec 12) (d : Device) : Device :=
  match jobOf d t jid with
  | none => d
  | some j => match j.step with
    | none => d
    | some st =>
      let (draft, n) := ownLayer st st.layer
      match j.stages.find? fun s => s.device == src && decide (s.first ≤ n ∧ n ≤ s.last) with
      | some s => if draft then d else dispatchStage t jid (onStep t jid (fun st => { st with layer := st.layer + (s.last - n) + 1 }) d)
      | none => d

/-- Walks on a stage device met retired pages: their requests end KEY_RETIRED (R249). -/
def endStageRetired (t : Byte) (jid : W32) (seqs : List W16) (d : Device) : Device :=
  (reqsOf d t jid).foldl (fun d x =>
    if seqs.contains (BitVec.ofNat 16 x.2.seq) then endRequest x.1 stKeyRetired (rollbackPair x.2.seq d) else d) d

/-- RESULT_MESSAGE: from a stage device its rows, X_obs and completion or failure; a partial row from any device of the job (R215, R349, R357). -/
def resultMessage (m : JobMsg) (body : ResultBody) (d : Device) : Device :=
  match currentJob d m with
  | none => countStale m d
  | some j =>
    let d := match body.partialRow with
      | some (t, off, row) => addPartial m.tenant m.job t.toNat off.toNat row d
      | none => d
    if !(j.manager.isNone && (stageDevices d j).contains m.src) then d
    else
      let d := mergeObs m.tenant m.job body.xobs d
      if body.status ≠ 0 then failStep m.tenant m.job body.status d
      else
        let d := endStageRetired m.tenant m.job body.retired (takeActivations m j body.rows d)
        if body.done then stageDone m.tenant m.job m.src d else d

def execResultMessage (m : JobMsg) (body : ResultBody) (s : State) : Out := onJobMessage 4 m (resultMessage m body) s

/-! ### Placement (R358 to R360, R363) -/

/-- The stages that a payload names. -/
def stagesOf (b : List Byte) : List Stage :=
  (List.range (field b 0 1)).map fun k =>
    let e := 8 + 16 * k
    { first := field b e 2, last := field b e 2 + field b (e + 2) 2 - 1, device := BitVec.ofNat 12 (field b (e + 4) 2), tiles := word32 b (e + 8) }

/-- Stages follow each other without gaps from a layer on; the layer after the last. -/
def stagesEnd : Nat → List Stage → Option Nat
  | n, [] => some n
  | n, s :: rest => if s.first = n ∧ s.last + 1 > n then stagesEnd (s.last + 1) rest else none

/-- The shape of a LINK_PLACE payload. -/
def stagesOk (b : List Byte) : Bool :=
  let n := field b 0 1
  decide (1 ≤ n ∧ n ≤ 8) && (stagesEnd 0 (stagesOf b)).isSome &&
  ((List.range n).all fun k => decide (field b (8 + 16 * k + 2) 2 > 0) && decide (field b (8 + 16 * k + 4) 2 < 0x800)) &&
  (b.drop (8 + 16 * n)).all (· == 0)

/-- A device that LINK_PLACE can reach: this one, or one with a route and not lost. -/
def canReach (d : Device) (dev : BitVec 12) : Bool :=
  dev == ownId d || (!d.link.lost.contains dev && (routePorts d dev.toNat).any fun p => (portOf d p).state == .up)

/-- K_job goes to a stage device, sealed under K_wrap of the current generation (R389). -/
def sendKey (t : Byte) (jid : W32) (j : Job) (s : Stage) (d : Device) : Device :=
  match (partOf d t.toNat).bind (·.cur) with
  | none => d
  | some g =>
    let (c, d) := takeCounter (kWrap t g) d
    let e := nextEpoch j.epoch
    let sealed := gcmSeal (kWrap t g) (leBytes 2 (ownId d).toNat ++ [t, 0xFF] ++ leBytes 8 c)
      (leBytes 4 jid.toNat ++ leBytes 2 e.toNat ++ [BitVec.ofNat 8 g.num.toNat]) j.key
    sendMsg { kind := 0, dest := s.device, tenant := 0, job := 0, epoch := 0,
              body := .control (.jobKey t jid e g.num (BitVec.ofNat 64 c) sealed
                { first := s.first, count := s.last + 1 - s.first, main := skeinDigest d (some j.main), adapter := skeinDigest d j.adapter,
                  draft := skeinDigest d j.draft, tiles := s.tiles }) } d

/-- Pages of the stages that leave this device (R363). -/
def sendPages (t : Byte) (jid : W32) (j : Job) (d : Device) : Device :=
  (j.nextStages.filter fun s => s.device != ownId d).foldl (fun d st =>
    (d.serve.seqs.filter fun s => s.2.tenant == t.toNat && s.2.skein == j.main).foldl (fun d s =>
      sendMoved t jid j.epoch st.device s.1 s.2.committed (pagesFor d j s.2 st) d) d) d

/-- Every device has acknowledged: pages move, the devices of the old placement hear where the layers are now, LINK_PLACE completes
(R363). -/
def finishPlace (t : Byte) (jid : W32) (d : Device) : Device :=
  match jobOf d t jid with
  | none => d
  | some j =>
    let d := sendPages t jid j d
    let next := j.nextStages.map fun s => (s.first, s.last + 1 - s.first, s.device)
    let d := (stageDevices d j).foldl (fun d dev => sendMsg
      { kind := 0, dest := dev, tenant := 0, job := 0, epoch := 0, body := .control (.release t jid next) } d) d
    let d := onJob t jid (fun j => { j with
      place := .placed, stages := j.nextStages, nextStages := [], placer := none, moving := false, epochOut := false
      migrated := if j.moving then j.migrated + 1 else j.migrated }) d
    match j.placer.bind (findPacket d) with
    | some p => finish p stOK (leBytes 2 j.epoch.toNat ++ [0, 0]) d
    | none => d

/-- At the job's step boundary, with no other epoch still to be acknowledged, the new epoch comes into force; until then the operation
waits. -/
def goOnPlacing (p : Packet) (t : Byte) (jid : W32) (d : Device) : Device :=
  match jobOf d t jid with
  | none => d
  | some j =>
    if j.step.isSome || (!j.awaited.isEmpty && !j.epochOut) then hold p d
    else if !j.awaited.isEmpty then d
    else
      let away := j.nextStages.filter fun s => s.device != ownId d
      let d := away.foldl (fun d s => sendKey t jid j s d) d
      let d := hold p (newEpoch t jid (away.map (·.device)) (onJob t jid (fun j => { j with epochOut := true }) d))
      if ((jobOf d t jid).map (·.awaited)).getD [] |>.isEmpty then finishPlace t jid d else d

/-- LINK_PLACE. What a worker's own state says of a stage is left open. -/
def linkPlace (p : Packet) (b : List Byte) (d : Device) : Device :=
  let t := p.hdr.tenant; let jid := p.hdr.job
  if !stagesOk b then refuse p stBadArgument d
  else if !d.link.manager then refuse p stNotManager d
  else match (jobOf d t jid).filter (fun j => j.manager.isNone) with
    | none => refuse p stJobUnknown d
    | some j =>
      if j.place = .placing then (if j.placer = some (refOf p) then goOnPlacing p t jid d else refuse p stLinkBusy d)
      else
        let stages := stagesOf b
        if stagesEnd 0 stages ≠ some (planOf d j.main).layers.length then refuse p stBadArgument d
        else if !stages.all fun s => canReach d s.device then refuse p stPlaceUnreachable d
        else
          let away := (stages.filter fun s => s.device != ownId d).length
          let ok := (List.range away).all fun i => Config.freeBit (d.freeCtr + i)
          let room := (List.range away).all fun i => Config.freeBit (d.freeCtr + away + i)
          let moving := !(reqsOf d t jid).isEmpty
          let d := spend (2 * away) d
          if !ok then refuse p stPlaceMismatch d
          else if moving && !room then refuse p stAdmitMemory d
          else goOnPlacing p t jid (onJob t jid (fun j => { j with
            place := .placing, nextStages := stages, placer := some (refOf p), moving := moving }) d)

def execLinkPlace (r : Ref) (s : State) : Out := run (runOp
  { opcode := 0x0801, size := some 136, part := true
    reserved := (1, 7) :: (List.range 8).flatMap fun k => [(8 + 16 * k + 6, 2), (8 + 16 * k + 12, 4)] } r linkPlace) s

/-- EPOCH_ACK: the last acknowledgement brings the epoch into force (R360). -/
def epochAck (m : JobMsg) (d : Device) : Device :=
  match currentJob d m with
  | none => countStale m d
  | some j =>
    if j.manager.isSome then d
    else
      let left := j.awaited.filter (· != m.src)
      let d := onJob m.tenant m.job (fun j => { j with awaited := left }) d
      if left.isEmpty ∧ !j.awaited.isEmpty ∧ j.place = .placing ∧ j.epochOut then finishPlace m.tenant m.job d else d

def execEpochAck (m : JobMsg) (s : State) : Out := onJobMessage 1 m (epochAck m) s

/-- LINK_QUERY. -/
def linkQuery (p : Packet) (_ : List Byte) (d : Device) : Device :=
  if !d.link.manager then refuse p stNotManager d
  else match (jobOf d p.hdr.tenant p.hdr.job).filter (fun j => j.manager.isNone) with
    | none => refuse p stJobUnknown d
    | some j =>
      let st : Byte := match j.place with | .none => 0 | .placed => 1 | .placing => 2 | .broken => 3
      finish p stOK (leBytes 2 j.epoch.toNat ++ [st, BitVec.ofNat 8 j.stages.length] ++ leBytes 4 j.stale.toNat ++ leBytes 4 j.reissued.toNat ++
        leBytes 4 j.migrated.toNat ++ leBytes 4 j.staleEnds.toNat ++ zeros 12) d

def execLinkQuery (r : Ref) (s : State) : Out := run (runOp { opcode := 0x0802, size := some 0, part := true } r linkQuery) s

/-! ### Lost devices (R367) -/

/-- A pod job with a stage on a lost device: its requests end, its sequences with a shadow there go, its placement is broken. -/
def breakPlacement (t : Byte) (jid : W32) (d : Device) : Device :=
  match jobOf d t jid with
  | none => d
  | some j =>
    let n := (reqsOf d t jid).length
    let d := endAll t jid stStaleEpoch (abandonStep t jid d)
    let d := (d.serve.seqs.filter fun s => s.2.tenant == t.toNat && s.2.skein == j.main && !s.2.draft).foldl (fun d s => releasePair s.1 d) d
    let d := onJob t jid (fun j => { j with place := .broken, awaited := [], nextStages := [], placer := none, epochOut := false
                                            staleEnds := j.staleEnds + BitVec.ofNat 32 n }) d
    match j.placer.bind (findPacket d) with
    | some p => refuse p stPlaceUnreachable d
    | none => d

/-- DEVICE_LOST: 100 ms out of the manager's reach; suspended while ports are in SHED (R368). -/
def deviceLost (id : BitVec 12) (d : Device) : Device :=
  if !d.link.manager || anyShed d || id == ownId d then d
  else
    let d := { d with link.lost := (d.link.lost ++ [id]).eraseDups }
    let d := d.serve.jobs.foldl (fun d x =>
      if x.2.manager.isNone && ((x.2.stages ++ x.2.nextStages).any fun s => s.device == id) then
        breakPlacement (BitVec.ofNat 8 (x.1 / 2 ^ 32)) (BitVec.ofNat 32 x.1) d
      else d) d
    d.serve.reqs.foldl (fun d x => if x.2.awaited.contains id then withdrawDone id x.1 d else d) d

def execDeviceLost (id : BitVec 12) (s : State) : Out := run (fun d => if coreAlive d then deviceLost id d else d) s

/-- MANAGER_LOST: a worker releases every stage job and shadow of its manager's jobs. -/
def execManagerLost (s : State) : Out := run (fun d =>
  if !coreAlive d || d.link.manager || anyShed d then d
  else d.serve.jobs.foldl (fun d x =>
    if x.2.manager.isSome then releaseStage (BitVec.ofNat 8 (x.1 / 2 ^ 32)) (BitVec.ofNat 32 x.1) d else d) d) s

/-! ### LINK_POD_CFG (R356) -/

/-- The new identity is in force; every UP POD port retrains, and ports held for a cause of 1 to 3 are checked again (R342). -/
def setIdentity (pod member : Nat) (d : Device) : Device :=
  let d := { d with link.pod := BitVec.ofNat 5 pod, link.member := BitVec.ofNat 6 member, link.manager := decide (member = 0)
                    host.deviceId := BitVec.ofNat 12 (pod * 64 + member), link.routes := [], link.topo := [] }
  (List.range 4).foldl (fun d p =>
    let x := portOf d p
    if x.mode = modePod ∧ x.state = .up then retrainPort p d
    else if 1 ≤ x.cause.toNat ∧ x.cause.toNat ≤ 3 then onPort p (fun x => { x with cause := 0 }) d
    else d) d

/-- LINK_POD_CFG. -/
def linkPodCfg (p : Packet) (b : List Byte) (d : Device) : Device :=
  let pod := field b 0 1; let member := field b 1 1; let leave := bitOf (field b 2 1) 0
  if pod > 31 ∨ member > 63 then refuse p stBadArgument d
  else privileged p (fun d =>
    if d.serve.jobs.any fun x => x.2.place != .none || x.2.manager.isSome then refuse p stLinkBusy d
    else complete p (if leave then setIdentity 0 0 (ledgerConfig p d) else setIdentity pod member (ledgerConfig p d))) d

def execLinkPodCfg (r : Ref) (s : State) : Out := run (runOp
  { opcode := 0x0800, size := some 4, dev := true, roles := byEither, reserved := [(3, 1)], bits := [(2, 0xFE)] } r linkPodCfg) s

end Sys2Proof.Machine
end

