-- ==== Sys2Proof/Machine/Tenants.lean ====
section
/-! DEFINITION. Partitions and their keys (12_security_tenancy R372 to R402): creation, keying, rotation and removal. -/

namespace Sys2Proof.Machine

/-! ### The tiles of a partition (R155, R187, R374, R466) -/

/-- TILE_STAT.TENANT becomes a value on the tiles of a mask; a tile whose value changes is wiped. -/
def ownTiles (owner : Byte) (mask : W32) (d : Device) : Device :=
  (maskList 32 mask.toNat).foldl (fun d t => onTile t (fun ts => if ts.tenant = owner then ts else wipeTile owner ts) d) d

/-- The tile stores of a mask are scrubbed. -/
def scrubStores (mask : W32) (d : Device) : Device := (maskList 32 mask.toNat).foldl (fun d t => fabScrub (tileBase t) storeSize d) d
/-- The commons banks of a mask are scrubbed. -/
def scrubBanks (mask : W32) (d : Device) : Device := (maskList 32 mask.toNat).foldl (fun d b => fabScrub (b * bankSize) bankSize d) d
/-- The data ranges of the channels of a mask are scrubbed, and nothing waits in their write queues. -/
def scrubChannels (mask : W32) (d : Device) : Device := (maskList 32 mask.toNat).foldl (fun d c =>
  onChan c (fun x => { x with queue := [], draining := false }) (fabScrub (channelBase c) channelSize d)) d

/-- The value of TILE_STAT.TENANT for a partition (R374). -/
def tileOwner (t : Nat) (q : Partition) : Byte := if q.sealed then BitVec.ofNat 8 t else 0x80

/-- The other shared-pool partitions. -/
def poolPeers (d : Device) (t : Nat) : List (Nat × Partition) := d.sec.parts.filter fun x => x.1 != t && !x.2.sealed

/-- Channel offset at which a page pool of a size fits on every channel (R250). -/
def poolBase (d : Device) (chans : List Nat) (count : Nat) : Option Nat :=
  let held := heldRanges d
  let fits := fun base => (poolRanges { count := count, chans := chans, base := base }).all fun r =>
    match channelOf r.1 with
    | some c => fitsAt (channelBase c) (channelBase c + channelSize) r.2 held r.1
    | none => false
  let ends := chans.flatMap fun c => (held.filter fun r => channelOf r.1 == some c).map fun r => roundUp (r.1 + r.2 - channelBase c) pageSize
  leastOf ((0 :: ends).filter fits)

/-- Carve an empty page pool (R250, R517); where no offset fits, it starts at 0. -/
def carvePool (t : Nat) (q : Partition) (d : Device) : Device :=
  let chans := maskList 32 q.dramMask.toNat
  let pool : Pool := { count := q.pageCount, chans := chans, base := (poolBase d chans q.pageCount).getD 0 }
  let d := { d with serve.pools := Assoc.insert d.serve.pools t pool }
  (poolRanges pool).foldl (fun d r => fabScrub r.1 r.2 d) d

/-! ### SEC_PART_CREATE (R372 to R374, R383) -/

/-- The partition that a descriptor describes. -/
def describe (b : List Byte) : Partition :=
  { sealed := byteAt b 1 == 1, tileMask := word32 b 4, dramMask := word32 b 8, flashMask := word16 b 12, commonsMask := word32 b 16,
    storeQuota := field b 20 2, pageCount := field b 24 4, seqQuota := field b 28 2, knotQuota := field b 30 2, pub := slice b 64 56,
    ktr := none, cur := none, prev := none, removal := none }

/-- The first check of R373: ranges, and masks that name only what the grade has. -/
def descriptorOk (d : Device) (b : List Byte) (q : Partition) : Bool :=
  let t := field b 0 1; let kind := field b 1 1
  decide (1 ≤ t) && decide (t ≤ 8) && (kind == 1 || kind == 2) && (maskList 32 q.tileMask.toNat).all (fun x => decide (x < tileCount d)) &&
  decide (q.storeQuota ≤ 96) && decide (q.pageCount ≤ 1966080) && decide (1 ≤ q.seqQuota) && decide (q.seqQuota ≤ 16384) &&
  decide (q.knotQuota ≤ 61440) && q.pub.any (· != 0)

/-- Two masks share a bit. -/
def masksMeet (a b : Partition) : Bool :=
  decide (a.tileMask &&& b.tileMask ≠ 0) || decide (a.dramMask &&& b.dramMask ≠ 0) || decide (a.flashMask &&& b.flashMask ≠ 0)

/-- A conflict of R373, from the second check on. -/
def partConflict (d : Device) (t : Nat) (erase : Bool) (q : Partition) : Bool :=
  let others := d.sec.parts
  let pool := poolPeers d t
  d.dram.mapBusy || (partOf d t).isSome || decide (q.tileMask &&& d.fix.mask ≠ 0) ||
  decide (q.tileMask = 0) || decide (q.dramMask = 0) || decide (q.flashMask = 0) ||
  (if q.sealed then others.any fun x => masksMeet q x.2
   else others.any (fun x => x.2.sealed && masksMeet q x.2) ||
     pool.any fun x => x.2.tileMask != q.tileMask || x.2.dramMask != q.dramMask || x.2.flashMask != q.flashMask) ||
  others.any (fun x => decide (q.commonsMask &&& x.2.commonsMask ≠ 0)) ||
  (!erase && !(keptBlocks d q.flashMask (digest32 q.pub)).isEmpty) ||
  (let pages := q.pageCount + if q.sealed then 0 else (pool.map (·.2.pageCount)).sum
   decide (pages > 61440 * (maskList 32 q.dramMask.toNat).length)) ||
  decide (q.seqQuota + (others.map (·.2.seqQuota)).sum > 16384) || decide (q.knotQuota + (others.map (·.2.knotQuota)).sum > 61440) ||
  (poolBase d (maskList 32 q.dramMask.toNat) q.pageCount).isNone

/-- Storage, tiles and pool of a new partition (R374 steps 1 to 3). Storage that the shared pool already uses stays as it is. -/
def formPartition (t : Nat) (q : Partition) (d : Device) : Device :=
  let fresh := q.sealed || (poolPeers d t).isEmpty
  let d := if fresh then scrubChannels q.dramMask (scrubStores q.tileMask d) else d
  let d := ownTiles (tileOwner t q) q.tileMask (scrubBanks q.commonsMask d)
  let d := carvePool t q d
  { d with
    sec.parts := Assoc.insert d.sec.parts t q, mem.arenas := Assoc.insert d.mem.arenas t {}
    pwr.groups := if fresh then SMap.del d.pwr.groups (groupOf t q)
      else SMap.modify {} d.pwr.groups (groupOf t q) fun x => { x with attention := none, prefill := none, decode := none }
    pwr.partTimes := SMap.clear d.pwr.partTimes (t * 8) (t * 8 + 8) }

/-- SEC_PART_CREATE. -/
def partCreate (p : Packet) (b : List Byte) (d : Device) : Device :=
  let t := field b 0 1; let erase := bitOf (field b 2 1) 0; let q := describe b
  let (priv, d) := drawBytes 56 d
  let z := x448 priv q.pub
  if !descriptorOk d b q || z.all (· == 0) then refuse p stBadArgument d
  else privileged p (fun d =>
    if partConflict d t erase q then refuse p stPartConflict d
    else if d.pwr.stage ≥ 1 ∧ !(keptBlocks d q.flashMask (digest32 q.pub)).isEmpty then hold p d
    else
        let pubD := x448 priv x448Base
        let q := { q with ktr := some (kdf z "LN-TR" (keyContext d (BitVec.ofNat 8 t))) }
        let sig := edSign Config.identityKey (ascii "LN-PART" ++ serialBytes d ++ b ++ pubD)
        let d := formPartition t q (takeBlocks t q d)
        let d := ledgerAct p 0x0010 (leBytes 4 (field b 2 1) ++ zeros 4) (BitVec.ofNat 8 t) stOK (setEvent evTenant d)
        finish p stOK (pubD ++ zeros 8 ++ sig) d) d

def execSecPartCreate (r : Ref) (s : State) : Out := run (runOp
  { opcode := 0x0910, size := some 128, dev := true, roles := byInstaller,
    reserved := [(3, 1), (14, 2), (22, 2), (32, 32), (120, 8)], bits := [(2, 0xFE)] } r partCreate) s

/-! ### Keys (R384 to R390) -/

def onPart (t : Nat) (f : Partition → Partition) (d : Device) : Device := { d with sec.parts := Assoc.adjust d.sec.parts t f }

/-- SEC_KEY_LOAD (R384). -/
def keyLoad (p : Packet) (b : List Byte) (d : Device) : Device :=
  let t := field b 0 1
  if t < 1 ∨ t > 8 then refuse p stBadArgument d
  else match partOf d t with
    | none => refuse p stNoTenant d
    | some q =>
      if q.removal.isSome then refuse p stPartRemoving d
      else match q.ktr.bind fun k => gcmOpen k (slice b 4 12) (keyContext d (byteAt b 0)) (slice b 16 48) with
        | none => refuse p stAuthFail d
        | some g =>
          if q.cur.isSome then refuse p stKeyPresent d
          else
            let d := onPart t (fun q => { q with cur := some { num := 0, secret := g }, ktr := none }) d
            complete p (ledgerAct p 0x0012 (zeros 8) (byteAt b 0) stOK d)

def execSecKeyLoad (r : Ref) (s : State) : Out := run (runOp
  { opcode := 0x0911, size := some 64, dev := true, reserved := [(1, 3)] } r keyLoad) s

/-- SEC_KEY_ROTATE (R386 to R388). -/
def keyRotate (p : Packet) (b : List Byte) (d : Device) : Device :=
  let t := p.hdr.tenant.toNat; let force := bitOf (field b 0 4) 0
  match partOf d t with
  | none => refuse p stNoTenant d
  | some q => match q.cur with
    | none => refuse p stAuthFail d
    | some old =>
      if q.prev.isSome ∧ !force then refuse p stRotateBusy d
      else
        let (pages, d) := match q.prev with
          | some g => let (n, d) := forceRetire t g.num d; (n, retireCheck t d)
          | none => (0, d)
        let num := old.num + 1
        let d := onPart t (fun q => { q with cur := some { num := num, secret := slice b 4 32 }, prev := some old }) d
        let d := ledgerAct p 0x0013 (leBytes 4 num.toNat ++ leBytes 4 pages) p.hdr.tenant stOK d
        finish p stOK [BitVec.ofNat 8 num.toNat, 0, 0, 0] (retireCheck t d)

def execSecKeyRotate (r : Ref) (s : State) : Out := run (runOp
  { opcode := 0x0912, size := some 36, part := true, bits := [(0, 0xFE), (1, 0xFF), (2, 0xFF), (3, 0xFF)] } r keyRotate) s

/-- SEC_POD_KEY (R390): the key before the current one is kept. -/
def podKey (p : Packet) (b : List Byte) (d : Device) : Device :=
  privileged p (fun d =>
    complete p (ledgerAct p 0x0015 (zeros 8) 0 stOK { d with sec.podKeys := b :: d.sec.podKeys.take 1 })) d

def execSecPodKey (r : Ref) (s : State) : Out := run (runOp
  { opcode := 0x0915, size := some 32, dev := true, roles := byInstaller } r podKey) s

/-! ### Removal (R399 to R401) -/

/-- The jobs of a partition. -/
def jobsOf (d : Device) (t : Nat) : List (W32 × Job) :=
  (d.serve.jobs.filter fun x => x.1 / 2 ^ 32 == t).map fun x => (BitVec.ofNat 32 x.1, x.2)

/-- Every request of a partition ends and every job closes (R400 stage 2, R512). -/
def closeJobs (t : Byte) (status : W16) (d : Device) : Device :=
  (jobsOf d t.toNat).foldl (fun d x => deleteJob t x.1 (endAll t x.1 status d)) d

/-- Stage 2 on a pod manager: WITHDRAW messages release the tenant's stages and shadows. -/
def withdrawStages (t : Byte) (d : Device) : Device :=
  (jobsOf d t.toNat).foldl (fun d (jid, j) => (stageDevices d j).foldl (fun d dev => sendMsg
    { kind := 6, dest := dev, tenant := t, job := jid, epoch := j.epoch, body := .withdraw none [] } d) d) d

/-- Every started operation of a partition but one ends CANCELLED (R400 stage 2). -/
def cancelOps (t : Byte) (except : Ref) (d : Device) : Device :=
  let d := (d.cmd.flight.filter fun q => q.hdr.tenant == t && q.started && refOf q != except).foldl (fun d q => refuse q stCancelled d) d
  { d with
    serve.edits := d.serve.edits.filter fun e => e.tenant != t.toNat
    knots.waiters := d.knots.waiters.filter fun w => (findPacket d w.ref).isSome }

/-- Stages 1 to 4: fence, cancel, drop, zeroise. -/
def startRemoval (p : Packet) (t : Byte) (purge : Bool) (d : Device) : Device :=
  let requests := (d.serve.reqs.filter fun x => x.2.tenant == t.toNat).length
  let rm : Removal := { stage := .scrub, purge := purge, reply := some (refOf p), requests := requests, extents := 0, pages := 0, blocks := 0 }
  let d := onPart t.toNat (fun q => { q with removal := some rm }) d
  let d := { d with gauge.sched := d.gauge.sched.filter fun x => x.2.owner != t }
  let d := { d with link.outbox := d.link.outbox.filter fun m => m.tenant != t }
  let d := cancelOps t (refOf p) (closeJobs t stCancelled (withdrawStages t d))
  let d := dropFlash t { d with mem.windows := d.mem.windows.filter fun w => w.tenant != t }
  onPart t.toNat (fun q => { q with ktr := none, cur := none, prev := none }) d

/-- SEC_PART_REMOVE (R399). A full ledger does not stop it (R409); a full buffer does (R408). -/
def partRemove (p : Packet) (b : List Byte) (d : Device) : Device :=
  let t := byteAt b 0
  if (p.hdr.tenant ≠ 0 ∧ t ≠ p.hdr.tenant) ∨ t = 0 ∨ t.toNat > 8 then refuse p stBadArgument d
  else match partOf d t.toNat with
    | none => refuse p stNoTenant d
    | some q =>
      if q.removal.isSome then (if q.removal.any (fun x => x.reply == some (refOf p)) then d else refuse p stPartRemoving d)
      else if p.hdr.tenant = 0 ∧ ledgerRoom d = some stShed then refuse p stShed d
      else startRemoval p t (bitOf (field b 1 1) 0) d

def removeSpec : OpSpec :=
  { opcode := 0x0913, size := some 4, dev := true, part := true, roles := [roleOperator, roleInstaller], reserved := [(2, 2)],
    bits := [(1, 0xFE)] }

def execSecPartRemove (r : Ref) (s : State) : Out := run (runOp removeSpec r partRemove) s

/-- Change a removal in progress. -/
def onRemoval (t : Nat) (f : Removal → Removal) (d : Device) : Device := onPart t (fun q => { q with removal := q.removal.map f }) d

/-- Stage 5: storage, pages and tile state are scrubbed, and what lived in them is gone. -/
def removeScrub (t : Nat) (q : Partition) (d : Device) : Device :=
  let alone := q.sealed || (poolPeers d t).isEmpty
  let exts := extentsOf (arenaOf d t)
  let clear := fun (at_ : Option Nat) (n : Nat) (d : Device) => match at_ with | some a => fabScrub a n d | none => d
  let d := exts.foldl (fun d (_, _, _, e) => clear e.copy e.size (clear e.home e.size d)) d
  let pool := poolOf d t
  let d := (poolRanges pool).foldl (fun d r => fabScrub r.1 r.2 d) d
  let d := scrubBanks q.commonsMask d
  let d := if alone then scrubStores q.tileMask d else d
  let n := (exts.filter fun (_, _, _, e) => e.home.isSome || e.copy.isSome).length
  let own := fun (s : Skein) => s.tenant.toNat == t
  let d := { d with
    mem.arenas := Assoc.erase d.mem.arenas t
    mem.skeins := (d.mem.skeins.filter fun x => !own x.2).map fun (i, s) => (i, { s with shared := s.shared &&& ~~~(1#8 <<< (t - 1)) })
    serve.pools := Assoc.erase d.serve.pools t
    serve.seqs := d.serve.seqs.filter fun x => x.2.tenant != t
    knots.knots := d.knots.knots.filter fun x => !(x.2.allocated && x.2.owner == BitVec.ofNat 8 t) }
  onRemoval t (fun r => { r with stage := .flash, extents := n, pages := pool.count }) d

/-- Stage 6: blocks are erased, or kept (R402). -/
def removeFlash (t : Nat) (q : Partition) (r : Removal) (d : Device) : Device :=
  let (n, d) := removeBlocks t q r.purge d
  onRemoval t (fun r => { r with stage := .confirm, blocks := n }) d

/-- Stage 7: the resources are free, the removal is ledgered and its record queued. -/
def removeConfirm (t : Nat) (q : Partition) (r : Removal) (d : Device) : Device :=
  let d := if q.sealed || (poolPeers d t).isEmpty then ownTiles 0 q.tileMask d else d
  let detail := leBytes 4 (if r.purge then 1 else 0) ++ leBytes 4 r.pages
  let res := leBytes 4 r.requests ++ leBytes 4 r.extents ++ leBytes 4 r.pages ++ leBytes 4 r.blocks
  let packet := r.reply.bind (findPacket d)
  let d := match packet with
    | some p => ledgerAct p 0x0011 detail (BitVec.ofNat 8 t) stOK d
    | none => ledgerEvent 0x0011 detail d (BitVec.ofNat 8 t)
  let d := setEvent evTenant { d with sec.parts := Assoc.erase d.sec.parts t }
  match packet with
  | some p => finish p stOK res d
  | none => d

/-- A removal at a stage, with its partition. -/
def removingAt (d : Device) (t : Byte) (st : RemovalStage) : Option (Partition × Removal) :=
  match partOf d t.toNat with
  | some q => match q.removal with
    | some r => if r.stage = st then some (q, r) else none
    | none => none
  | none => none

/-- REMOVAL_SCRUB (R400 stage 5, R401): once the shed stage is below 2. -/
def execRemovalScrub (tenant : Byte) (s : State) : Out := run (fun d =>
  match removingAt d tenant .scrub with
  | some (q, _) => if coreAlive d ∧ d.pwr.stage < 2 then removeScrub tenant.toNat q d else d
  | none => d) s

/-- REMOVAL_FLASH (R400 stage 6, R401): once the shed stage is 0. -/
def execRemovalFlash (tenant : Byte) (s : State) : Out := run (fun d =>
  match removingAt d tenant .flash with
  | some (q, r) => if coreAlive d ∧ d.pwr.stage = 0 then removeFlash tenant.toNat q r d else d
  | none => d) s

/-- REMOVAL_CONFIRM (R400 stage 7). -/
def execRemovalConfirm (tenant : Byte) (s : State) : Out := run (fun d =>
  match removingAt d tenant .confirm with
  | some (q, r) => if coreAlive d then removeConfirm tenant.toNat q r d else d
  | none => d) s

end Sys2Proof.Machine
end

