-- ==== Sys2Proof/Machine/Security.lean ====
section
/-! DEFINITION. Roles, sessions, the Opal report, reading the ledger, the management port and the SEC block
(12_security_tenancy R391 to R413). -/

namespace Sys2Proof.Machine

/-! ### Credentials (R391, R411) -/

def credKey (role table slot : Nat) : Nat := role * 64 + table * 32 + slot

/-- Slots of a role in a table: 0 local, 1 management. -/
def credSlots (role table : Nat) : Nat := match role, table with
  | 1, 0 => 8
  | 1, 1 => 4
  | 2, 0 => 4
  | 2, 1 => 2
  | 3, 0 => 2
  | _, _ => 0

/-- The credential in a slot; slot 0 of the maker is the one whose digest the OTP row holds. -/
def credAt (d : Device) (role table slot : Nat) : Option (List Byte) :=
  if role = 3 ∧ table = 0 ∧ slot = 0 then some makerZero else Assoc.find d.sec.creds (credKey role table slot)

/-- The key is enrolled for a role in a channel's table. -/
def isEnrolled (d : Device) (role : Nat) (c : Chan) (key : List Byte) : Bool :=
  let table := if c = .mgmt then 1 else 0
  (List.range (credSlots role table)).any fun s => credAt d role table s == some key

/-- The acts that only the maker may do to credentials (R392). -/
def makerOnly (role : Nat) : Bool := role == 2 || role == 3

/-- The fields of a credential payload: role, table, slot; the checks of R392 and R411 that come before its state. -/
def credRefusal (p : Packet) (b : List Byte) : Option W16 :=
  let role := field b 0 1; let table := field b 1 1; let slot := field b 2 1
  if makerOnly role ∧ p.role ≠ roleMaker then some stDeniedRole
  else if table > 1 ∨ slot ≥ credSlots role table ∨ (role = 3 ∧ slot = 0) then some stBadArgument
  else none

/-- Refuse an act, and ledger the refusal when it is for want of a right. -/
def refuseAct (p : Packet) (st : W16) (d : Device) : Device :=
  refuse p st (if st = stDeniedRole then ledgerRefused p st d else d)

/-- Detail of a CRED entry (R407). -/
def credDetail (b : List Byte) (enrol : Byte) : List Byte := b.take 3 ++ [enrol] ++ zeros 4

/-- SEC_CRED_ENROL. -/
def credEnrol (p : Packet) (b : List Byte) (d : Device) : Device :=
  match credRefusal p b with
  | some st => refuseAct p st d
  | none => privileged p (fun d =>
      let role := field b 0 1; let table := field b 1 1; let slot := field b 2 1
      if (credAt d role table slot).isSome then refuse p stSlotInUse d
      else complete p (ledgerAct p 0x0005 (credDetail b 1) 0 stOK
        { d with sec.creds := Assoc.insert d.sec.creds (credKey role table slot) (slice b 4 57) })) d

def execSecCredEnrol (r : Ref) (s : State) : Out := run (runOp
  { opcode := 0x0903, size := some 64, dev := true, roles := byEither, reserved := [(3, 1), (61, 3)] } r credEnrol) s

/-- SEC_CRED_REVOKE. -/
def credRevoke (p : Packet) (b : List Byte) (d : Device) : Device :=
  match credRefusal p b with
  | some st => refuseAct p st d
  | none => privileged p (fun d =>
      let role := field b 0 1; let table := field b 1 1; let slot := field b 2 1
      let st := if (credAt d role table slot).isSome then stOK else stAlreadyDone
      refuse p st (ledgerAct p 0x0005 (credDetail b 0) 0 st
        { d with sec.creds := Assoc.erase d.sec.creds (credKey role table slot) })) d

def execSecCredRevoke (r : Ref) (s : State) : Out := run (runOp
  { opcode := 0x0904, size := some 4, dev := true, roles := byEither, reserved := [(3, 1)] } r credRevoke) s

/-! ### Sessions (R393 to R396) -/

/-- The open session ends (R396). -/
def endSession (cause : Nat) (d : Device) : Device :=
  match d.sec.session with
  | none => d
  | some s => ledgerEvent 0x0002 (leBytes 4 s.id.toNat ++ leBytes 4 cause) (setEvent evRole { d with sec.session := none })

/-- Key switch position that a role needs; none for the operator (R391). -/
def keyPosition (role : Nat) : Option Byte := match role with
  | 2 => some 1
  | 3 => some 2
  | _ => none

abbrev challengeLife : Nat := 30 * second

/-- The challenge that is valid on a channel now (R394). -/
def challengeOn (d : Device) (c : Chan) : Option Challenge :=
  (Assoc.find d.sec.challenges (chanCode c).toNat).filter fun x => decide (d.clock ≤ x.issued + challengeLife)

def dropChallenge (c : Chan) (d : Device) : Device :=
  { d with sec.challenges := Assoc.erase d.sec.challenges (chanCode c).toNat }

/-- SEC_SESSION_CHALLENGE (R394). -/
def sessionChallenge (p : Packet) (b : List Byte) (d : Device) : Device :=
  let role := field b 0 1
  if role < 1 ∨ role > 3 then refuse p stBadArgument d
  else
    let (nonce, d) := drawBytes 32 d
    let (priv, d) := drawBytes 56 d
    let d := { d with sec.challenges := Assoc.insert d.sec.challenges (chanCode p.chan).toNat { nonce := nonce, priv := priv, issued := d.clock } }
    finish p stOK (nonce ++ x448 priv x448Base) d

def execSecSessionChallenge (r : Ref) (s : State) : Out := run (runOp
  { opcode := 0x0900, size := some 4, dev := true, reserved := [(1, 3)], onyx := true } r sessionChallenge) s

/-- CHALLENGE_EXPIRY (R394): a challenge that no attempt has used is 30 s old. -/
def execChallengeExpiry (c : Chan) (s : State) : Out := run (fun d =>
  match Assoc.find d.sec.challenges (chanCode c).toNat with
  | some x => dropChallenge c (advanceTo (x.issued + challengeLife) d)
  | none => d) s

/-- The entry of a session open or of a failed one: the role asked for and the key offered (R394, R406). -/
def openBody (d : Device) (p : Packet) (kind : W16) (detail : List Byte) (status : W16) (role : Byte) (key : List Byte) : LedgerBody :=
  { wall := BitVec.ofNat 64 (wallNow d), kind := kind, role := role, tenant := 0, status := status, chan := chanCode p.chan,
    detail := detail, actor := digest32 key, act := digest32 (p.raw ++ p.plain) }

/-- A failed open is counted and ledgered as REFUSED (R394). -/
def openFailed (p : Packet) (st : W16) (role : Byte) (key : List Byte) (d : Device) : Device :=
  refuse p st (ledgerWrite (openBody d p 0x0003 (leBytes 4 0x0901 ++ zeros 4) st role key)
    { d with sec.failCount := d.sec.failCount + 1 })

/-- An open operator session gives way to an installer or a maker (R395). -/
def preempts (d : Device) (role : Nat) : Bool := match d.sec.session with
  | some s => s.role == roleOperator && (role == 2 || role == 3)
  | none => true

/-- SEC_SESSION_OPEN (R394, R395). One attempt uses the challenge up. -/
def sessionOpen (p : Packet) (b : List Byte) (d : Device) : Device :=
  let role := field b 0 1; let key := slice b 4 57; let h := slice b 64 56; let sig := slice b 120 114
  if role < 1 ∨ role > 3 then refuse p stBadArgument d
  else
    let ch := challengeOn d p.chan
    let d := dropChallenge p.chan d
    let fail := fun st => openFailed p st (byteAt b 0) key d
    match ch with
    | none => fail stNoChallenge
    | some c =>
      let msg := ascii "LN-SESSION" ++ serialBytes d ++ [byteAt b 0] ++ c.nonce ++ x448 c.priv x448Base ++ h
      if !isEnrolled d role p.chan key then fail stCredUnknown
      else if !edVerify key msg sig then fail stAuthFail
      else if (keyPosition role).any (· != d.sec.keysw) then fail stDeniedRole
      else if !preempts d role then fail stSessionBusy
      else
        let d := endSession 5 d
        let id := d.sec.nextSession
        let k := kdf (x448 c.priv h) (if p.chan = .mgmt then "LN-MEURA" else "LN-ROLE") c.nonce
        let s : Session := { role := byteAt b 0, chan := p.chan, id := id, key := k, cred := key, lastUsed := d.clock }
        let d := setEvent evRole { d with sec.session := some s, sec.nextSession := id + 1 }
        let d := ledgerWrite (openBody d p 0x0001 (leBytes 4 id.toNat ++ zeros 4) stOK (byteAt b 0) key) d
        finish p stOK (leBytes 4 id.toNat ++ leBytes 4 d.sec.idleS.toNat) d

def execSecSessionOpen (r : Ref) (s : State) : Out := run (runOp
  { opcode := 0x0901, size := some 236, dev := true, reserved := [(1, 3), (61, 3), (234, 2)], onyx := true } r sessionOpen) s

/-- SEC_SESSION_CLOSE: cause 0. -/
def sessionClose (p : Packet) (_ : List Byte) (d : Device) : Device :=
  match d.sec.session with
  | none => refuse p stAuthFail d
  | some s =>
    if ledgerRoom d = some stShed then refuse p stShed d
    else complete p (ledgerAct p 0x0002 (leBytes 4 s.id.toNat ++ zeros 4) 0 stOK (setEvent evRole { d with sec.session := none }))

def anyRole : List Byte := [roleOperator, roleInstaller, roleMaker]

def execSecSessionClose (r : Ref) (s : State) : Out := run (runOp
  { opcode := 0x0902, size := some 0, dev := true, roles := anyRole, onyx := true } r sessionClose) s

/-- SESSION_IDLE_TIMEOUT (R396 cause 1). -/
def execSessionIdleTimeout (s : State) : Out := run (fun d =>
  match d.sec.session with
  | some x => endSession 1 (advanceTo (x.lastUsed + d.sec.idleS.toNat * second) d)
  | none => d) s

/-- NETWORK_LOSS_TIMEOUT (R396 cause 4): the Ethernet link has been down for 5 s under a session of the management port. -/
def execNetworkLossTimeout (s : State) : Out := run (fun d =>
  match d.sec.session, d.sec.linkLostAt with
  | some x, some t => if x.chan = .mgmt then endSession 4 (advanceTo (t + 5 * second) d) else d
  | _, _ => d) s

/-- Position of the key switch from its two contacts, and the code a ledger entry gives it (R545, R546). -/
def keyPositionOf (inst serv : Bool) : Byte := match inst, serv with
  | true, false => 1
  | false, true => 2
  | _, _ => 0
def keyCode (inst serv : Bool) : Nat := if inst ∧ serv then 3 else (keyPositionOf inst serv).toNat

/-- KEY_SWITCH_CHANGE (R393, R546): the combination of the debounced contacts changes. -/
def execKeySwitchChange (inst serv : Bool) (s : State) : Out := run (fun d =>
  if inst = d.sec.inst ∧ serv = d.sec.serv then d
  else
    let detail := leBytes 4 (keyCode d.sec.inst d.sec.serv) ++ leBytes 4 (keyCode inst serv)
    let d := { d with sec.inst := inst, sec.serv := serv, sec.keysw := keyPositionOf inst serv }
    let d := setEvent evKeysw (ledgerEvent 0x0004 detail d 0 stOK 4)
    let d := wakeUp 7 d
    match d.sec.session with
    | some x => if (keyPosition x.role.toNat).any (· != d.sec.keysw) then endSession 2 d else d
    | none => d) s

/-! ### SEC_PART_INFO and the Opal report (R404, R405) -/

/-- A partition entry (R405). -/
def partEntry (t : Nat) : Option Partition → List Byte
  | none => zeros 64
  | some q =>
    [BitVec.ofNat 8 t, if q.removal.isSome then 3 else if q.sealed then 1 else 2,
     match q.cur with | some g => BitVec.ofNat 8 g.num.toNat | none => 0xFF, if q.prev.isSome then 1 else 0] ++
    leBytes 4 q.tileMask.toNat ++ leBytes 4 q.dramMask.toNat ++ leBytes 2 q.flashMask.toNat ++ zeros 2 ++
    leBytes 4 q.commonsMask.toNat ++ leBytes 4 q.pageCount ++ zeros 8 ++ digest32 q.pub

/-- SEC_PART_INFO. -/
def partInfo (p : Packet) (b : List Byte) (d : Device) : Device :=
  let t := byteAt b 0
  if (p.hdr.tenant ≠ 0 ∧ t ≠ p.hdr.tenant) ∨ t = 0 ∨ t.toNat > 8 then refuse p stBadArgument d
  else finish p stOK (partEntry t.toNat (partOf d t.toNat)) d

def execSecPartInfo (r : Ref) (s : State) : Out := run (runOp
  { opcode := 0x0914, size := some 4, dev := true, part := true, roles := anyRole, reserved := [(1, 3)], removal := true } r partInfo) s

/-- The read-out conditions of R506. -/
def deviceOpen (d : Device) : Bool := isFrozen d && !d.boot.otp.fuse.getLsbD 1 && activeRole d == roleMaker
def tenantOpen (d : Device) : Bool := deviceOpen d && (match d.boot.frozen with | some f => f.parts == 0 | none => false)

/-- Fuse state of R404. -/
def fuseState (d : Device) : Nat := d.boot.otp.fuse.toNat % 4 + d.boot.otp.security * 256

/-- Debug state of R404. -/
def debugState (d : Device) : Nat := bitAt (deviceOpen d) 0 + bitAt (activeRole d == roleMaker) 1 + bitAt (tenantOpen d) 2

/-- Bytes 0 to 823 of the report (R404). -/
def opalBody (d : Device) (tenant : Byte) (nonce : List Byte) : List Byte :=
  let o := d.boot.otp
  leBytes 2 1 ++ leBytes 2 940 ++ leBytes 4 tenant.toNat ++ padTo 32 nonce ++ serialBytes d ++ leBytes 2 o.part.toNat ++
  [o.tiles, BitVec.ofNat 8 o.stepping.toNat] ++ zeros 4 ++ padTo 57 identityPublic ++ zeros 7 ++ padTo 32 (digest32 (otpBytes o)) ++
  padTo 32 Config.onyxDigest ++ padTo 32 Config.cpDigest ++ padTo 32 d.fix.digest ++ leBytes 4 (fuseState d) ++ leBytes 4 (debugState d) ++
  leBytes 8 (wallNow d) ++ leBytes 8 d.sec.nextSeq ++ padTo 32 d.sec.chain ++
  [d.sec.keysw, activeRole d, BitVec.ofNat 8 d.sec.parts.length, 0] ++ leBytes 4 d.fix.mask.toNat ++
  (List.range 8).flatMap fun i => partEntry (i + 1) (partOf d (i + 1))

/-- SEC_OPAL (R404). -/
def opal (p : Packet) (b : List Byte) (d : Device) : Device :=
  let body := opalBody d p.hdr.tenant b
  finish p stOK (body ++ edSign Config.identityKey body ++ zeros 2) d

def execSecOpal (r : Ref) (s : State) : Out := run (runOp
  { opcode := 0x0920, size := some 32, dev := true, part := true, onyx := true } r opal) s

/-- The certificate of R563. -/
def certificate (d : Device) : List Byte :=
  let o := d.boot.otp
  leBytes 2 1 ++ leBytes 2 268 ++ zeros 4 ++ serialBytes d ++ leBytes 2 o.part.toNat ++ [BitVec.ofNat 8 o.stepping.toNat] ++ zeros 5 ++
  padTo 57 identityPublic ++ zeros 7 ++ padTo 57 Config.mfgPublic ++ zeros 7 ++ padTo 114 Config.mfgSignature ++ zeros 2

def execSecCert (r : Ref) (s : State) : Out := run (runOp { opcode := 0x0923, size := some 0, dev := true } r
  fun p _ d => finish p stOK (certificate d) d) s

/-! ### The ledger (R409, R410) -/

/-- SEC_LEDGER_READ: every entry under a role, its own for a tenant. -/
def ledgerRead (p : Packet) (b : List Byte) (d : Device) : Device :=
  let first := field b 0 8; let count := field b 8 4
  if count < 1 ∨ count > 255 then refuse p stBadArgument d
  else
    let mine := d.sec.ledger.filter fun e => decide (first ≤ e.seq) && (decide (p.hdr.tenant = 0) || e.body.tenant == p.hdr.tenant)
    let es := mine.take count
    let next := match es.getLast? with | some e => e.seq + 1 | none => max first d.sec.nextSeq
    finish p stOK (leBytes 4 es.length ++ zeros 4 ++ leBytes 8 next ++ es.flatMap ledgerBytes) d

def execSecLedgerRead (r : Ref) (s : State) : Out := run (runOp
  { opcode := 0x0921, size := some 16, dev := true, part := true, roles := anyRole, reserved := [(12, 4)], onyx := true } r ledgerRead) s

/-- SEC_LEDGER_TRIM: the entry's act digest is the chain value of the last entry discarded. -/
def ledgerTrim (p : Packet) (b : List Byte) (d : Device) : Device :=
  let n := field b 0 8
  if n ≥ d.sec.nextSeq then refuse p stBadArgument d
  else if ledgerRoom d = some stShed then refuse p stShed d
  else match (d.sec.ledger.filter fun e => decide (e.seq ≤ n)).getLast? with
    | none => refuse p stAlreadyDone d
    | some e =>
      let d := { d with sec.ledger := d.sec.ledger.filter fun x => decide (n < x.seq) }
      let (role, actor) := actorOf d p
      complete p (ledgerWrite
        { wall := BitVec.ofNat 64 (wallNow d), kind := 0x0040, role := role, tenant := 0, status := stOK, chan := chanCode p.chan,
          detail := leBytes 8 n, actor := actor, act := e.chain } d)

def execSecLedgerTrim (r : Ref) (s : State) : Out := run (runOp
  { opcode := 0x0922, size := some 8, dev := true, roles := byMaker } r ledgerTrim) s

/-! ### The management port (R398) -/

/-- The port runs and its link is up. -/
def mgmtUp (d : Device) : Bool := d.sec.mgmtEnable && d.sec.mgmtLink

def mgmtDrop (d : Device) : Device := { d with sec.mgmtDropped := satAdd16 d.sec.mgmtDropped 1 }

/-- ARP_REQUEST: answered for SEC_MGMT_IPV4. -/
def execArpRequest (ip : W32) (s : State) : Out := run (fun d =>
  if !mgmtUp d then d
  else if ip = d.sec.mgmtIp ∧ d.sec.mgmtIp ≠ 0 then { d with cmd.arpReplies := d.cmd.arpReplies + 1 }
  else mgmtDrop d) s

/-- OTHER_FRAME: dropped and counted. -/
def execOtherFrame (s : State) : Out := run (fun d => if mgmtUp d then mgmtDrop d else d) s

/-- A whole packet has come: it is submitted, and its reply will go to its source. -/
def submitMgmt (b : List Byte) (ip : W32) (port : W16) (d : Device) : Device :=
  let tag := (headerOf b).tag
  let d := { d with cmd.meura := none }
  let d := if tagFree d .mgmt tag then { d with cmd.mgmtPeer := Assoc.insert d.cmd.mgmtPeer tag.toNat (ip, port) } else d
  submitOn .mgmt true b d

/-- A Meura header by R398. -/
def meuraOk (b : List Byte) : Bool := decide (9 ≤ b.length) && decide (b.length ≤ 1472) && byteAt b 0 == 1 && byteAt b 1 == 0 && field b 2 2 == 0

/-- MEURA_SEGMENT (R398): segments arrive in offset order from 0. -/
def execMeuraSegment (srcIp : W32) (srcPort : W16) (dstPort : W16) (datagram : List Byte) (s : State) : Out := run (fun d =>
  if !mgmtUp d then d
  else if d.sec.mgmtIp = 0 ∨ dstPort ≠ d.sec.mgmtPort ∨ !meuraOk datagram then mgmtDrop d
  else
    let off := field datagram 4 4; let seg := datagram.drop 8
    let started := match d.cmd.meura with
      | some (bs, ip, port, t) =>
        if off = 0 then some ([], d.clock)
        else if ip = srcIp ∧ port = srcPort ∧ off = bs.length ∧ d.clock ≤ t + 100000000 then some (bs, t) else none
      | none => if off = 0 then some ([], d.clock) else none
    match started with
    | none => mgmtDrop d
    | some (bs, t) =>
      let b := bs ++ seg
      let whole := 32 + (headerOf b).len.toNat
      if b.length < 32 ∨ b.length < whole then { d with cmd.meura := some (b, srcIp, srcPort, t) }
      else if b.length = whole then submitMgmt b srcIp srcPort d
      else mgmtDrop { d with cmd.meura := none }) s

/-- MEURA_REASSEMBLY_TIMEOUT: 100 ms after the first segment the packet is discarded. -/
def execMeuraReassemblyTimeout (s : State) : Out := run (fun d =>
  match d.cmd.meura with
  | some (_, _, _, t) => { (advanceTo (t + 100000000) d) with cmd.meura := none }
  | none => d) s

/-! ### Registers (R413) -/

/-- A mask of partitions, bit n − 1 for partition n. -/
def partMask (d : Device) (f : Partition → Bool) : Nat :=
  ((List.range 8).map fun i => bitAt ((partOf d (i + 1)).any f) i).sum

/-- A register of the SEC block. -/
def secReg (d : Device) (off : Nat) : Nat :=
  let x := d.sec
  if off = 0x000 then
    partMask d (·.removal.isSome) * 2 ^ 24 + x.keysw.toNat * 2 ^ 10 +
    (match x.session with | some s => (chanCode s.chan).toNat * 2 ^ 8 | none => 0) + (activeRole d).toNat
  else if off = 0x004 then partMask d (·.cur.isSome) * 2 ^ 16 + partMask d (·.sealed) * 2 ^ 8 + partMask d fun _ => true
  else if off = 0x008 then x.idleS.toNat
  else if off = 0x010 then x.nextSeq % 2 ^ 32
  else if off = 0x014 then x.nextSeq / 2 ^ 32
  else if off = 0x018 then bitAt (decide (x.ledger.length ≥ ledgerMax)) 31 + bitAt x.cfgDropped 30 + x.buffer.length
  else if off = 0x01C then x.failCount.toNat
  else if off = 0x020 then bitAt x.mgmtEnable 31 + bitAt x.mgmtSpeed 30 + x.mgmtPort.toNat
  else if off = 0x024 then x.mgmtIp.toNat
  else if off = 0x028 then x.mgmtMask.toNat
  else if off = 0x02C then bitAt x.mgmtLink 31 + x.mgmtDropped.toNat
  else 0

/-- A write to the SEC block. -/
def secRegWrite (off : Nat) (v : W32) (d : Device) : Device :=
  let put := fun (ok : Bool) (f : Sec → Sec) (d : Device) => rwl (0x90000 + off) byInstaller ok (fun d => { d with sec := f d.sec }) d
  if off = 0x008 then put (decide (bitsOf v.toNat 0 16 ≥ 60)) (fun x => { x with idleS := BitVec.ofNat 16 v.toNat }) d
  else if off = 0x018 then { d with sec.cfgDropped := d.sec.cfgDropped && !v.getLsbD 30 }
  else if off = 0x020 then put true (fun x =>
    { x with phyLowTo := if v.getLsbD 31 && !x.mgmtEnable then d.clock + phyReset else x.phyLowTo
             mgmtEnable := v.getLsbD 31, mgmtSpeed := v.getLsbD 30, mgmtPort := BitVec.ofNat 16 v.toNat }) d
  else if off = 0x024 then put true (fun x => { x with mgmtIp := v }) d
  else if off = 0x028 then put true (fun x => { x with mgmtMask := v }) d
  else d

end Sys2Proof.Machine
end

