-- ==== Sys2Proof/Machine/Resets.lean ====
section
/-! DEFINITION. Resets, start-up and low power (17_reset_startup). -/

namespace Sys2Proof.Machine

abbrev kindCold : Byte := 1
abbrev kindSupply : Byte := 2
abbrev kindWarm : Byte := 3
abbrev kindFault : Byte := 4
abbrev kindHibernate : Byte := 6

/-! ### The beginning of a reset (R511) -/

/-- Counters after a reset: those of a tenant key go on above the floor (R513). -/
def pastFloor (k : KeyCounter) : KeyCounter := { k with last := max k.last k.floor }

/-- A device-wide reset begins: the device is HELD, RDY low; tags, records and packets are gone; sessions end; it is ledgered. The
commits of a supply or warm reset are done first; a fault reset commits during its start-up (R510). -/
def beginReset (kind source : Byte) (d : Device) : Device :=
  let d := endSession 6 (stopFlash d)
  let detail := leBytes 4 kind.toNat ++ leBytes 4 source.toNat
  let d := if kind = kindWarm ∨ kind = kindHibernate then ledgerEvent 0x0021 detail d else d
  let d := if kind = kindSupply ∨ kind = kindWarm then ledgerFlush d else d
  let d := { d with
    boot.phase := .held, boot.begun := some (kind, source), boot.lp := .active, boot.entering := none, boot.exiting := false
    boot.waitFrom := none
    cmd := { counters := d.cmd.counters, arpReplies := d.cmd.arpReplies }
    fix.run := none, fix.plan := none, fix.rdy := false, fix.arming := none
    sec.parts := d.sec.parts.map fun (t, q) => (t, { q with fencedTo := 0, removal := q.removal.map fun r => { r with reply := none } }) }
  if kind = kindFault then ledgerEvent 0x0021 detail d else d

/-! ### What a reset leaves (R525) -/

/-- The Gauge after a reset: restarted after cold and supply resets; kept otherwise, in FREE, UNREF and ACQUIRE after a freeze. -/
def resetGauge (hard freeze : Bool) (g : GaugePart) : GaugePart :=
  let g := { g with sched := [], settings := [], missCount := 0, zErr := 0, qErr := 0, rejected := 0 }
  let rotor : RotorState := if g.rotor = .off then .off else .unref
  let grid : GridState := if g.grid = .off then .off else .acquire
  if hard then
    { rotor := rotor, invert := g.invert, filter := g.filter, linesM1 := g.linesM1, zoff := g.zoff, pinA := g.pinA, pinB := g.pinB,
      grid := grid, gridEdge := g.gridEdge, bw := g.bw, gridOff := g.gridOff, ppsEn := g.ppsEn, ppsEdge := g.ppsEdge }
  else if freeze then { g with rotor := rotor, grid := grid, wallSt := .free, stepped := false, slew := 0, slewLeft := 0 }
  else g

/-- The device as start-up finds it: every item of R525 by its code. -/
def resetDevice (kind : Byte) (freeze : Bool) (d : Device) : Device :=
  let hard := kind == kindCold || kind == kindSupply
  { host := { deviceId := d.host.deviceId }
    cmd := { counters := d.cmd.counters.map pastFloor, arpReplies := d.cmd.arpReplies }
    sec := { d.sec with session := none, challenges := [], failCount := 0, cfgDropped := false, mgmtDropped := 0,
                        buffer := if kind = kindCold then [] else d.sec.buffer }
    mem := { margin := d.mem.margin }
    serve := { stepTokens := d.serve.stepTokens, prefillMin := d.serve.prefillMin, slack := d.serve.slack }
    fix := { forceFb := d.fix.forceFb, trigSrc := d.fix.trigSrc, saved := d.fix.saved }
    gauge := resetGauge hard freeze d.gauge
    link := { pod := d.link.pod, member := d.link.member, manager := d.link.manager
              counters := d.link.counters.map fun c => { c with last := max c.last c.floor }
              windows := d.link.windows
              ports := d.link.ports.map fun (p, x) => (p, { mode := x.mode, maxWidth := x.maxWidth }) }
    flash := { blocks := d.flash.blocks, pages := d.flash.pages, interrupted := d.flash.interrupted, suspendCfg := d.flash.suspendCfg
               bits := d.flash.bits, ploops := d.flash.ploops, eloops := d.flash.eloops }
    dram := { order := d.dram.order, high := d.dram.high, low := d.dram.low, hours := d.dram.hours, period := d.dram.period }
    pwr := { cap := d.pwr.cap, hostLimit := d.pwr.hostLimit, temps := d.pwr.temps }
    audit := { onDiverge := d.audit.onDiverge, fixCompare := d.audit.fixCompare }
    boot := { phase := .booting, otp := if kind = kindCold then d.boot.otpRow else d.boot.otp, otpRow := d.boot.otpRow
              otpLost := d.boot.otpLost, gaugeWait := d.boot.gaugeWait, trigWake := d.boot.trigWake
              scratch := if kind = kindWarm ∨ kind = kindFault then d.boot.scratch else 0
              wakeSrc := if kind = kindHibernate then d.boot.wakeSrc else 0
              resets := if hard then 0 else d.boot.resets + 1, dramFault := d.boot.dramFault
              tap := d.boot.tap, roReg := d.boot.roReg, roAddr := d.boot.roAddr, tdo := d.boot.tdo }
    panel := { level := d.panel.level, latches := if hard then 0 else d.panel.latches, usb := !hard && d.panel.usb
               usbHs := !hard && d.panel.usbHs }
    clock := d.clock, freeCtr := d.freeCtr }

/-! ### Start-up (R515 to R519) -/

/-- Start-up stops in FAULT at a step (R516). -/
def stopAt (step code : Nat) (d : Device) : Device :=
  { d with boot.phase := .fault, boot.step := step, boot.faultStep := BitVec.ofNat 8 step, boot.faultCode := BitVec.ofNat 8 code }

/-- What stops start-up, in the order of the steps: step and cause. -/
def startFault (kind : Byte) (full : Bool) (env : BootEnv) : Option (Nat × Nat) :=
  let early := kind == kindCold || kind == kindSupply
  if early && ((!env.otp0 && !env.otp1) || (env.otp0 && env.otp1 && !env.otpSame)) then some (1, 1)
  else if early && !env.slotA && !env.slotB then some (2, 2)
  else if early && !env.cfgOk then some (3, 6)
  else if decide (env.tj > 85) then some (4, 5)
  else if !env.slotA && !env.slotB then some (4, 2)
  else if (full || !env.reuseOk) && env.trainFail.isSome then some (5, 3)
  else if env.tileFail.isSome then some (7, 4)
  else none

/-- DRAM training (R457, R515 step 5): the full sequence, or the stored results. -/
def trainDram (reused : Bool) (env : BootEnv) (d : Device) : Device :=
  let lanes := fun (c : Nat) => env.lanes.getD c 0
  { d with
    dram.trained := true
    boot.trainReused := reused
    dram.chans := (List.range 32).foldl (fun m c => SMap.modify {} m c fun x => { x with lanes := lanes c }) d.dram.chans }

/-- Step 8 (R401, R517): partitions are re-formed, previous generations retired, interrupted removals completed. -/
def reformPartitions (d : Device) : Device :=
  let d := d.sec.parts.foldl (fun d (t, q) =>
    let d := { d with mem.arenas := Assoc.insert d.mem.arenas t {} }
    retireCheck t (ownTiles (tileOwner t q) q.tileMask (carvePool t q d))) d
  let finishOne := fun (d : Device) (x : Nat × Partition) =>
    let t := x.1
    let go := fun (d : Device) => match partOf d t with
      | some q => match q.removal with
        | some r => match r.stage with
          | .scrub => removeScrub t q d
          | .flash => removeFlash t q r d
          | .confirm => removeConfirm t q r d
        | none => d
      | none => d
    go (go (go d))
  d.sec.parts.foldl finishOne d

/-- The Fixed plane is armed again if its check run comes out as before (R518, R522). -/
def rearmFix (d : Device) : Device :=
  match d.fix.image with
  | none => d
  | some img =>
    let d := checkRun img d
    let measured := planCount img d
    if measured ≠ field img 12 4 ∨ overBound (imgCycle img) d.fix.bound.toNat then saveFix (internalFault 3 measured d)
    else { d with fix.armed := true }

/-- Step 9 (R518): the reservation, the image or the fallback alone, and the armed state by the check run. -/
def restoreFix (d : Device) : Device :=
  let s := d.fix.saved
  let d := reserveTiles s.mask d
  let d := { d with fix.fallback := s.fallback, fix.bound := s.bound }
  match s.image with
  | none => d
  | some img =>
    let d := placeSections img { d with fix.image := some img, fix.digest := digest32 img, boot.fixRestored := true }
    if s.armed then rearmFix { d with fix.armed := false } else d

/-- POD and TWIN ports begin training (R515 step 9). -/
def trainPorts (d : Device) : Device :=
  (List.range 4).foldl (fun d p => if (portOf d p).mode = modeOff then d else enterTraining p d) d

/-- Every Gauge base that is enabled is LOCKED (R519). -/
def basesLocked (g : GaugePart) : Bool :=
  decide (g.rotor ≠ .unref) && (g.grid == .off || g.grid == .locked) && (!g.ppsEn || g.wallSt == .locked)

/-- Step 10 ends: PHASE is READY. -/
def becomeReady (d : Device) : Device := { d with boot.phase := .ready, boot.step := 0, boot.waitFrom := none }

/-- Step 10 (R519): READY at once, or the wait for the Gauge bases. -/
def stepTen (d : Device) : Device :=
  if d.boot.gaugeWait = 0 ∨ basesLocked d.gauge then becomeReady d else { d with boot.step := 10, boot.waitFrom := some d.clock }

/-- Steps 3 to 10 once nothing stops them. -/
def runSteps (kind source : Byte) (full : Bool) (env : BootEnv) (d : Device) : Device :=
  let reused := !full && env.reuseOk
  let d := trainDram reused env d
  let d := settleInterrupted env.pageOk d
  let d := trainPorts (restoreFix (reformPartitions d))
  let d := { d with boot.us := env.us, boot.dramFault := false }
  stepTen (if kind = kindFault then latchBead (if source = 1 then 2 else 0) d else d)

/-- Start-up to its end: READY, the wait of step 10, or FAULT. -/
def runStartUp (kind source : Byte) (full : Bool) (env : BootEnv) (d : Device) : Device :=
  match startFault kind full env with
  | some (step, code) =>
    let d := if step > 3 then ledgerFlush d else d
    let d := match env.trainFail with
      | some (c, st) => if code = 3 then { d with dram.errChan := c, dram.errStep := st, dram.errSource := srcTrain } else d
      | none => d
    stopAt step code d
  | none =>
    let d := ledgerFlush d
    let d := if kind = kindCold then ledgerEvent 0x0021 (leBytes 4 1 ++ zeros 4) d else d
    runSteps kind source full env d

/-- Start-up from the step of its kind: it takes the time given, and ends in READY, in the wait of step 10, or in FAULT. A thermal hold
stops it at step 4 until the sensors are cool (R516). -/
def startUp (kind source : Byte) (env : BootEnv) (d : Device) : Device :=
  let freeze := kind == kindFault && source == 2
  let hard := kind == kindCold || kind == kindSupply
  let full := hard || (kind == kindFault && source == 4 && d.boot.dramFault)
  let d := resetDevice kind freeze { d with boot.frozen := none }
  let d := { d with
    pwr.temps := [env.tj], host.fwCp := env.fwCp, host.fwOnyx := env.fwOnyx
    sec.phyLowTo := if hard then d.clock + phyReset else d.sec.phyLowTo
    boot.kind := kind, boot.source := source, boot.fwSlot := !env.slotA
    boot.otpLost := if hard then env.otp0 != env.otp1 else d.boot.otpLost }
  if startFault kind full env = some (4, 5) then
    runStartUp kind source full env
      { d with boot.heldStart := some { kind := kind, source := source, full := full, env := env, at_ := d.clock } }
  else runStartUp kind source full env (advance (env.us.toNat * 1000) d)

/-- A start-up that waits for its sensors goes on from step 4 by itself (R516). -/
def thermalRelease (d : Device) : Device := match d.boot.heldStart with
  | none => d
  | some h =>
    let d := advanceTo (h.at_ + h.env.us.toNat * 1000) { d with boot.heldStart := none, boot.phase := .booting }
    let us := max h.env.us.toNat ((d.clock - h.at_) / 1000)
    runStartUp h.kind h.source h.full { h.env with tj := 85, us := BitVec.ofNat 32 us } d

/-- A reset that begins now, unless it has begun, and starts up at once. -/
def resetAndStart (kind source : Byte) (env : BootEnv) (d : Device) : Device :=
  match d.boot.begun with
  | some (k, s) => if k = kind then startUp k s env d else startUp kind source env (beginReset kind source d)
  | none => startUp kind source env (beginReset kind source d)

/-- COLD_RESET (R510): input power is applied with every rail off. -/
def execColdReset (env : BootEnv) (s : State) : Out := run (fun d => startUp kindCold 0 env (beginReset kindCold 0 { d with boot.frozen := none })) s

/-- A warm or fault reset may come: not while frozen (R501), not after a supply reset, which waits for V_in (R510), and in FAULT only the
fault reset that RESTART makes (R516). -/
def mayReset (kind source : Byte) (d : Device) : Bool :=
  !isFrozen d && (decide (d.boot.phase ≠ .fault) || (kind == kindFault && source == 6)) &&
  (match d.boot.begun with | some (k, _) => k != kindSupply | none => true)

/-- WARM_RESET (R510): one that RESET or RESTART has begun, or one with the source given. -/
def execWarmReset (source : Byte) (env : BootEnv) (s : State) : Out := run (fun d =>
  if mayReset kindWarm source d then resetAndStart kindWarm source env d else d) s

/-- FAULT_RESET (R510): one that has begun, or one with the source given. -/
def execFaultReset (source : Byte) (env : BootEnv) (s : State) : Out := run (fun d =>
  if mayReset kindFault source d then resetAndStart kindFault source env d else d) s

/-- START_THRESHOLD_REACHED (R510): after a supply reset, V_in has been at or above 40.0 V for 20 ms. -/
def execStartThresholdReached (env : BootEnv) (s : State) : Out := run (fun d =>
  match d.boot.begun with
  | some (k, src) => if k = kindSupply ∧ !isFrozen d then startUp k src env d else d
  | none => d) s

/-- RESET_RECORD_TIMEOUT (R85): 10 ms after a RESET packet's record was queued. -/
def execResetRecordTimeout (s : State) : Out := run (fun d =>
  match d.cmd.resetPending with
  | (_, t) :: _ => if coreAlive d then beginReset kindWarm 1 (advanceTo (t + 10000000) d) else d
  | [] => d) s

/-- WATCHDOG_EXPIRY (R514). -/
def execWatchdogExpiry (env : BootEnv) (s : State) : Out := run (fun d =>
  if !isFrozen d ∧ (d.boot.phase = .booting ∨ d.boot.phase = .ready) then resetAndStart kindFault 3 env d else d) s

/-- STARTUP_READY (R519): the enabled bases are LOCKED, or GAUGE_WAIT has passed. -/
def execStartupReady (s : State) : Out := run (fun d =>
  match d.boot.waitFrom with
  | none => d
  | some t =>
    if isFrozen d then d
    else
      let locked := basesLocked d.gauge
      let d := if locked then d else advanceTo (t + d.boot.gaugeWait.toNat * 1000000) { d with boot.gaugeTimeout := true }
      becomeReady { d with boot.us := d.boot.us + BitVec.ofNat 32 ((d.clock - t) / 1000) }) s

/-- The restart of BOOT_CTRL.RESTART (R526): a warm reset, or a fault reset from FAULT. -/
def restartReset (d : Device) : Device :=
  if d.boot.phase = .fault then beginReset kindFault 6 d else beginReset kindWarm 2 d

/-- RESTART (R526): the write of 1 under the installer or maker role, and the reset it causes. -/
def execRestart (env : BootEnv) (s : State) : Out := run (transact fun d =>
  let d := rwl 0xC0014 byEither true restartReset d
  match d.boot.begun with
  | some (k, src) => startUp k src env d
  | none => d) s

/-! ### Partition resets (R512) -/

/-- The partitions that a reset of a mask acts on: every shared-pool partition with any one of them. -/
def resetParts (d : Device) (mask : Byte) : List (Nat × Partition) :=
  let named := d.sec.parts.filter fun x => mask.getLsbD (x.1 - 1)
  let pooled := named.any fun x => !x.2.sealed
  d.sec.parts.filter fun x => (mask.getLsbD (x.1 - 1) || (pooled && !x.2.sealed)) && x.2.removal.isNone

/-- One partition's requests end, its jobs close, its tiles and job areas are cleared. -/
def resetPart (status : W16) (t : Nat) (q : Partition) (d : Device) : Device :=
  let tb := BitVec.ofNat 8 t
  let d := (d.serve.reqs.filter fun x => x.2.tenant == t).foldl (fun d x => rollbackPair x.2.seq d) d
  let d := closeJobs tb status d
  let d := (d.flash.jobs.filter fun j => j.tenant == tb).foldl (fun d j => match j.ref.bind (findPacket d) with
    | some p => refuse p status d
    | none => d) d
  let d := dropFlash tb { d with mem.windows := d.mem.windows.filter fun w => w.tenant != tb }
  (maskList 32 q.tileMask.toNat).foldl (fun d k =>
    let share := (d.sec.parts.map fun p => if p.2.tileMask.getLsbD k then p.2.storeQuota * 0x1_0000 else 0).sum
    onTile k (wipeTile (tileOwner t q)) (fabScrub (tileBase k) (storeSize - share) d)) d

/-- The longest time that the fence of a partition reset stands, in ns (R512). -/
abbrev fenceMax : Nat := 30000000

/-- A partition reset over a mask: INTERNAL after a fault, CANCELLED after a write. The fence stands for a free time up to 30 ms; a tile
that fails its pattern test escalates the event to a fault reset. -/
def partReset (mask : Byte) (fault failed : Bool) (d : Device) : Device :=
  let upTo := d.clock + Config.freeNat d.freeCtr % (fenceMax + 1)
  let ps := resetParts d mask
  let d := ps.foldl (fun d (t, q) => onPart t (fun q => { q with fencedTo := upTo })
    (resetPart (if fault then stInternal else stCancelled) t q d)) (spend 1 d)
  if failed && !ps.isEmpty then beginReset kindFault 5 d else d

/-- PARTITION_RESET (R512): a fault confined to the partitions' tiles, or the write to BOOT_PART_RESET. -/
def execPartitionReset (mask : Byte) (fault failed : Bool) (s : State) : Out := run (fun d =>
  if fault then (if isReady d then partReset mask true failed d else d)
  else transact (rwl 0xC0018 byEither true (partReset mask false failed)) d) s

/-! ### Low power (R521 to R524) -/

/-- A request is refused by R521, or in FAULT. -/
def lpRefusal (d : Device) : LowPower → Bool
  | .nap => decide (d.boot.phase = .fault) || !d.serve.reqs.isEmpty
  | .hibernate => decide (d.boot.phase = .fault) || !d.serve.jobs.isEmpty
  | _ => decide (d.boot.phase = .fault)

def lpDepth : LowPower → Nat
  | .active => 0
  | .doze => 1
  | .nap => 2
  | .hibernate => 3

/-- A request that the role allows: refused, already met, or the entry begins; running steps park for Doze (R522). -/
def lpRequest (x : LowPower) (d : Device) : Device :=
  if lpRefusal d x then { d with boot.lpRefused := true }
  else if (d.boot.phase ≠ .ready ∧ d.boot.phase ≠ .lowPower) ∨ d.boot.exiting ∨ lpDepth x ≤ lpDepth (lowPowerOf d) then d
  else eachStep (fun t j => parkStep t j .doze) { d with boot.entering := some x }

/-- What REQ asks for; 0 asks for nothing. -/
def lpAsk (req : Nat) (d : Device) : Device := match req with
  | 1 => lpRequest .doze d
  | 2 => lpRequest .nap d
  | 3 => lpRequest .hibernate d
  | _ => d

/-- BOOT_LP_CTRL: the wake, and the two RWL fields. Under the installer or maker role one entry stands for both fields; under the
operator role REQ is taken and TRIG_WAKE is refused; without a role both are refused under one entry (R12, R557). -/
def lpCtrlWrite (v : W32) (d : Device) : Device :=
  let d := if v.getLsbD 8 then wakeUp 1 d else d
  let ask := lpAsk (bitsOf v.toNat 0 2)
  if activeRole d = roleOperator then
    ledgerReg 0x0003 lpCtrlAddr stDeniedRole (rwl lpCtrlAddr anyRole true ask d)
  else rwl lpCtrlAddr byEither true (fun d => ask { d with boot.trigWake := v.getLsbD 2 }) d

/-- A write of a value to BOOT_LP_CTRL.REQ that leaves TRIG_WAKE as it stands. -/
def lpWrite (req : Nat) (d : Device) : Device := lpCtrlWrite (BitVec.ofNat 32 (req + bitAt d.boot.trigWake 2)) d

/-- DOZE_REQUEST, NAP_REQUEST and HIBERNATE_REQUEST (R522): the writes of 1, 2 and 3. -/
def execDozeRequest (s : State) : Out := run (transact (lpWrite 1)) s
def execNapRequest (s : State) : Out := run (transact (lpWrite 2)) s
def execHibernateRequest (s : State) : Out := run (transact (lpWrite 3)) s

/-- Every running step stands at its layer boundary. -/
def stepsParked (d : Device) : Bool := d.serve.jobs.all fun x => match x.2.step with
  | some st => st.queued.isEmpty
  | none => true

/-- The state is entered: what it powers off goes off (R521, R522). -/
def enterLp (x : LowPower) (d : Device) : Device :=
  let d := ledgerLp { d with boot.entering := none, boot.lp := x }
  match x with
  | .active => d
  | .doze => channelsDown (arraysDown d)
  | .nap =>
    let d := channelsDown (arraysDown (shedPorts d))
    { d with boot.phase := .lowPower, boot.rearm := d.boot.rearm || d.fix.armed, fix.armed := false }
  | .hibernate =>
    let d := (List.range 4).foldl (fun d p => if (portOf d p).state = .up then portDown p 0 d else d) (stopFlash (arraysDown d))
    { d with boot.phase := .lowPower, fix.rdy := false, fix.run := none, fix.plan := none }

/-- LP_ENTRY_COMPLETE (R522): Doze waits until the running steps have parked. -/
def execLpEntryComplete (s : State) : Out := run (fun d =>
  match d.boot.entering with
  | some x => if coreAlive d ∧ stepsParked d then enterLp x d else d
  | none => d) s

/-- WAKE (R523): the write of 1 to BOOT_LP_CTRL.WAKE. -/
def execWake (s : State) : Out := run (transact (wakeUp 1)) s

/-- NAP_EXIT_COMPLETE (R522): `dt` ns on, DRAM and the ports come back, and the Fixed plane is armed again by a check run. -/
def execNapExitComplete (dt : Nat) (s : State) : Out := run (fun d =>
  if !d.boot.exiting || isFrozen d then d
  else
    let d := channelsUp { advance dt d with boot.exiting := false, boot.lp := .active, boot.phase := .ready }
    let d := if mustShed d then d else unshedPorts d
    let d := if d.boot.rearm then rearmFix d else d
    ledgerLp { d with boot.rearm := false }) s

/-- HIBERNATE_EXIT (R521, R523): a wake source starts the device up from step 4. -/
def execHibernateExit (source : Byte) (env : BootEnv) (s : State) : Out := run (fun d =>
  if d.boot.lp = .hibernate ∧ !isFrozen d ∧ wakesFrom source.toNat .hibernate then
    startUp kindHibernate 0 env (beginReset kindHibernate 0 (ledgerLp { d with boot.wakeSrc := source }))
  else d) s

/-! ### Registers (R526) -/

/-- A register of the BOOT block. -/
def bootReg (d : Device) (off : Nat) : Nat :=
  let b := d.boot
  if off = 0x000 then b.source.toNat * 256 + b.kind.toNat
  else if off = 0x004 then bitAt b.gaugeTimeout 7 + bitAt b.fixRestored 6 + bitAt b.trainReused 5 + bitAt b.fwSlot 4 + b.step % 16
  else if off = 0x008 then b.faultStep.toNat * 256 + b.faultCode.toNat
  else if off = 0x00C then b.resets.toNat
  else if off = 0x010 then b.us.toNat
  else if off = 0x01C then b.gaugeWait.toNat
  else if off = 0x020 then bitAt b.trigWake 2
  else if off = 0x024 then
    b.wakeSrc.toNat * 256 + bitAt b.lpRefused 4 + (match b.lp with | .active => 0 | .doze => 1 | .nap => 2 | .hibernate => 3)
  else if off = 0x028 then b.scratch.toNat
  else 0

/-- A write to the BOOT block; BOOT_CTRL.RESTART begins its reset, whose start-up is the RESTART or WARM_RESET command's. -/
def bootRegWrite (off : Nat) (v : W32) (d : Device) : Device :=
  if off = 0x014 then rwl 0xC0014 byEither true (fun d => if v.getLsbD 0 then restartReset d else d) d
  else if off = 0x018 then
    rwl 0xC0018 byEither true (partReset (BitVec.ofNat 8 v.toNat) false false) d
  else if off = 0x01C then rwl 0xC001C byEither true (fun d => { d with boot.gaugeWait := BitVec.ofNat 16 v.toNat }) d
  else if off = 0x020 then lpCtrlWrite v d
  else if off = 0x024 then { d with boot.lpRefused := d.boot.lpRefused && !v.getLsbD 4 }
  else if off = 0x028 then { d with boot.scratch := v }
  else d

end Sys2Proof.Machine
end

