-- ==== Sys2Proof/Machine/Power.lean ====
section
/-! DEFINITION. Power, cooling and supply sag (15_power_thermal). -/

namespace Sys2Proof.Machine

/-! ### The voltage table (R467, R468) -/

/-- A field of the voltage table. -/
def volt (d : Device) (off n : Nat) : Nat := field d.boot.otp.voltage off n

/-- P_TILEMAX in mW. -/
def tileMaxMw (d : Device) : Nat := volt d 14 2 * 10

/-- The physical tiles that are enabled. -/
def physicalTiles (d : Device) : List Nat := maskList 32 d.boot.otp.map.toNat

/-- The core rail setpoint in tenths of mV, whole mV as PWR_VCORE shows it being a floor (log entry 40). -/
def coreSetpoint (d : Device) : Nat :=
  let need := (physicalTiles d).foldl (fun m p => max m (6000 + 25 * volt d (16 + p) 1)) 0
  let cold : Nat := match d.pwr.temps with
    | [] => 0
    | t :: ts => ceilDiv (25 - ts.foldl min t).toNat 10
  min (max (need + 10 * volt d 6 1 + 10 * volt d 7 1 * cold) (10 * volt d 2 2)) (10 * volt d 4 2)

/-- VCORE_UPDATE. -/
def execVcoreUpdate (s : State) : Out := run (fun d =>
  if coreAlive d then { d with pwr.vcore := coreSetpoint d / 10 } else d) s

/-! ### The cap controller (R472 to R474) -/

/-- Tiles reserved for the Fixed plane, and T_open. -/
def reservedTiles (d : Device) : Nat := (maskList 32 d.fix.mask.toNat).length
def openTiles (d : Device) : Nat := tileCount d - reservedTiles d

/-- B less the reserve, in mW. -/
def openBudget (d : Device) : Nat := (d.pwr.cap.toNat - 60) * 900 - tileMaxMw d * reservedTiles d

/-- Tiles of a partition; those of the shared pool count for each of its partitions (R469). -/
def groupTiles (q : Partition) : List Nat := maskList 32 q.tileMask.toNat

/-- The phases of R474. -/
inductive TilePhase where
  | idle | attention | prefill | decode
deriving DecidableEq, Repr

/-- The list that runs on a tile: the pass list in front, else the vector list. -/
def runningList (ts : TileState) : Option QList := ts.passes.head? <|> ts.vecs.head?

/-- The step of a list has more prefill and FORWARD rows than decode rows. -/
def mostlyPrefill (d : Device) (l : QList) : Bool :=
  match (jobOf d l.tenant l.job).bind (·.step) with
  | none => false
  | some st =>
    let isFill := fun (x : StepRows) => x.prefill || (match reqOf d x.ref with | some r => r.forward | none => false)
    let count : (StepRows → Bool) → Nat := fun f => ((st.rows.filter f).map (·.n)).sum
    decide (count (fun x => !isFill x) < count isFill)

/-- The phase of a tile. -/
def tilePhase (d : Device) (t : Nat) : TilePhase :=
  match runningList (tileOf d t) with
  | none => .idle
  | some l =>
    if l.origin = .engine then .attention else if mostlyPrefill d l then .prefill else .decode

/-- E(φ) of a group in mW. -/
def profileOf (d : Device) (g : Nat) : TilePhase → Nat
  | .idle => 0
  | .attention => (powerGroup d g).attention.getD (tileMaxMw d)
  | .prefill => (powerGroup d g).prefill.getD (tileMaxMw d)
  | .decode => (powerGroup d g).decode.getD (tileMaxMw d)

/-- Σ E(φ) over the active tiles. -/
def activeDraw (d : Device) (g : Nat) (q : Partition) : Nat := ((groupTiles q).map fun t => profileOf d g (tilePhase d t)).sum

/-- A draw in mW is within Bp with a margin of `num` / `den`. -/
def withinBudget (d : Device) (q : Partition) (draw num den : Nat) : Bool :=
  decide (draw * openTiles d * den ≤ openBudget d * (groupTiles q).length * num)

/-- The largest k of R472 step 5; 1 where no k meets it (log entry 41). -/
def capKeep (d : Device) (g : Nat) (q : Partition) (idle : Nat) : Nat :=
  (List.range 65).foldl (fun best k =>
    if k ≥ 1 ∧ withinBudget d q (activeDraw d g q * k + 64 * idle) 64 1 then k else best) 1

/-- The partition's power group is recomputed (R472). -/
def capStep (g : Nat) (q : Partition) (idle measured : Nat) (d : Device) : Device :=
  let k := capKeep d g q idle
  let above := !withinBudget d q measured 102 100
  onGroup g (fun x =>
    let lowered := if above then some (d.clock + 100000) else x.lowered.filter (d.clock < ·)
    { x with idle := idle, lowered := lowered, cap := if lowered.isSome then max 1 (k - 4) else k }) d

/-- CAP_RECOMPUTE: D_idle and the power over the last 100 µs of a partition, in mW. -/
def execCapRecompute (tenant : Byte) (idle measured : Nat) (s : State) : Out := run (fun d =>
  match partOf d tenant.toNat with
  | some q => if coreAlive d then capStep (groupOf tenant.toNat q) q idle measured d else d
  | none => d) s

/-- E moves an eighth of the way to a measurement, to whole mW downward (log entry 42). -/
def learn (e x : Nat) : Nat := ((e : Int) + ((x : Int) - e) / 8).toNat

/-- A tile's partition: the first that holds it; the pool's partitions are one group. -/
def holderOf (d : Device) (t : Nat) : Option (Nat × Partition) := d.sec.parts.find? fun x => x.2.tileMask.getLsbD t

/-- PROFILE_UPDATE: a tile's power over 100 µs in one active phase at one k, in mW. -/
def execProfileUpdate (t : Tile) (mw : Nat) (s : State) : Out := run (fun d =>
  match holderOf d t.toNat with
  | some (n, q) =>
    if !coreAlive d then d
    else
      let g := groupOf n q; let x := mw * 64 / groupK d g; let ph := tilePhase d t.toNat
      let e := learn (profileOf d g ph) x
      match ph with
      | .idle => d
      | .attention => onGroup g (fun y => { y with attention := some e }) d
      | .prefill => onGroup g (fun y => { y with prefill := some e }) d
      | .decode => onGroup g (fun y => { y with decode := some e }) d
  | none => d) s

/-- A partition's tile current in A exceeds Ip; without a core rail nothing is compared. -/
def overCurrent (d : Device) (q : Partition) (amps : Nat) : Bool :=
  let v := d.pwr.vcore
  let share : Int := ((95 * volt d 12 2 * v : Nat) : Int) - (100 * tileMaxMw d * reservedTiles d : Nat)
  decide (v ≠ 0) && decide (share * (groupTiles q).length < (100 * amps * v * openTiles d : Nat))

/-- CURRENT_LIMIT_CHECK: a partition's tile current over 10 µs, in A. -/
def execCurrentLimitCheck (tenant : Byte) (amps : Nat) (s : State) : Out := run (fun d =>
  match partOf d tenant.toNat with
  | some q =>
    if coreAlive d then
      onGroup (groupOf tenant.toNat q)
        (fun x => { x with current := if overCurrent d q amps then max 1 (x.current - 8) else min 64 (x.current + 1) }) d
    else d
  | none => d) s

/-! ### Temperature (R475, R476) -/

/-- Ledger a THERMAL event (R407). -/
def ledgerThermal (event value : Nat) (d : Device) : Device := ledgerEvent 0x0031 (leBytes 4 event ++ leBytes 4 value) d

/-- THERMAL comes into force or leaves it. -/
def judgeThermal (d : Device) : Device :=
  let t := tjMax d
  if !d.pwr.thermal ∧ t ≥ 95 then latchBead 2 (ledgerThermal 1 (patternOf 32 t) { d with pwr.thermal := true })
  else if d.pwr.thermal ∧ t ≤ 92 then ledgerThermal 2 (patternOf 32 t) { d with pwr.thermal := false }
  else d

/-- The trip of R476: flash stops, the entry is written, a fault reset begins. -/
def thermalTrip (d : Device) : Device :=
  beginReset kindFault 1 (ledgerThermal 3 (patternOf 32 (tjMax d)) (latchBead 2 (shedFlash { d with fix.rdy := false })))

/-- THERMAL_SAMPLE: the readings of the enabled blocks in °C. -/
def execThermalSample (temps : List Int) (s : State) : Out := run (fun d =>
  let d := { d with pwr.temps := temps }
  if !coreAlive d then d
  else
   let d := judgeThermal d
   if d.boot.phase = .fault then
    if d.boot.faultCode = 5 ∧ tjMax d ≤ 85 then thermalRelease d else d
   else
    let n := if tjMax d ≥ 105 then d.pwr.trips + 1 else 0
    let d := { d with pwr.trips := n }
    if n ≥ 2 then thermalTrip d else d) s

/-! ### Coolant (R477, R478) -/

abbrev ms : Nat := 1000000

/-- A condition that holds now: since when. -/
def since (now : Nat) (holds : Bool) (was : Option Nat) : Option Nat := if holds then some (was.getD now) else none

/-- A condition has held for a span. -/
def heldFor (now span : Nat) (t : Option Nat) : Bool := match t with
  | some t => decide (t + span ≤ now)
  | none => false

/-- The coolant state that a sample leads to. -/
def coolantNext (now : Nat) (p : PowerPart) : Nat :=
  let good := heldFor now (5000 * ms) p.rangeAt
  if heldFor now (1000 * ms) p.dryAt then 2
  else if p.coolant = 2 then (if heldFor now (5000 * ms) p.flowAt then (if good then 0 else 1) else 2)
  else if p.coolant = 1 then (if good then 0 else 1)
  else if heldFor now (100 * ms) p.badAt then 1 else 0

/-- What a change of the coolant state does. -/
def enterCoolant (n : Nat) (d : Device) : Device :=
  let was := d.pwr.coolant
  let d := setEvent evCoolant (ledgerThermal 4 n { d with pwr.coolant := n })
  if n = 2 then latchBead 2 (eachStep (fun t j => parkStep t j .coolant) d)
  else if was = 2 then eachStep (fun t j => unparkStep t j .coolant) d
  else d

/-- COOLANT_SAMPLE: temperatures in °C, flow in mL/min. -/
def execCoolantSample (inlet outlet : Int) (flow : Nat) (s : State) : Out := run (fun d =>
  let now := d.clock
  let good := decide (flow ≥ 1500) && decide (-25 ≤ inlet) && decide (inlet ≤ 55)
  let dry := decide (flow < 300)
  let d := { d with
    pwr.inlet := inlet, pwr.outlet := outlet, pwr.flow := flow
    pwr.badAt := since now (!good) d.pwr.badAt, pwr.rangeAt := since now good d.pwr.rangeAt
    pwr.dryAt := since now dry d.pwr.dryAt, pwr.flowAt := since now (!dry) d.pwr.flowAt }
  let n := coolantNext now d.pwr
  if coreAlive d ∧ n ≠ d.pwr.coolant then enterCoolant n d else d) s

/-! ### Supply sag (R479 to R483) -/

/-- The threshold of a stage in mV. -/
def stageBelow : Nat → Nat
  | 1 => 38000
  | 2 => 36500
  | 3 => 35000
  | _ => 34000

/-- The highest stage whose threshold V_in is below. -/
def stageFor (mv : Nat) : Nat := (List.range 5).foldl (fun n k => if k ≥ 1 ∧ mv < stageBelow k then k else n) 0

/-- The actions of a stage taken. -/
def stageActions (n : Nat) (d : Device) : Device :=
  match n with
  | 1 => shedFlash d
  | 2 => arraysIdle (channelsDown (eachStep (fun t j => parkStep t j .sag) d))
  | 3 =>
    let d := shedPorts { d with panel.usb := false, panel.usbHs := false }
    match d.sec.session with
    | some x => if x.chan = .usb then endSession 3 d else d
    | none => d
  | _ => { ledgerFlush d with pwr.stage4At := some d.clock }
where
  /-- The ARRAY domains of Open-plane tiles without work go off. -/
  arraysIdle (d : Device) : Device :=
    { d with tiles := d.tiles.map fun (t, ts) =>
        if d.fix.mask.getLsbD t || (runningList ts).isSome || !ts.flight.isEmpty then (t, ts)
        else (t, { ts with arrays := (List.range 4).foldl (fun m a => SMap.modify {} m a fun s => { s with on := false }) ts.arrays }) }

/-- Take one stage (R479); the first opens a sag. -/
def takeStage (n : Nat) (d : Device) : Device :=
  let d := if n = 1 then { d with pwr.sagAt := some d.clock, pwr.minMv := d.pwr.vin, pwr.peak := 0 } else d
  stageActions n (setEvent evShed { d with pwr.stage := n, pwr.peak := max d.pwr.peak n })

/-- The stages from the one in force up to a given one, in increasing order. -/
def takeStages (n : Nat) (d : Device) : Device :=
  ((List.range 5).filter fun k => decide (d.pwr.stage < k) && decide (k ≤ n)).foldl (fun d k => takeStage k d) d

/-- The waits of R482 after a sample. -/
def judgeGood (d : Device) : Device :=
  let v := d.pwr.vin
  if d.pwr.stage = 0 then { d with pwr.goodAt := none, pwr.liftAt := none }
  else if d.pwr.liftAt.isSome ∧ v ≥ stageBelow 1 then d
  else { d with pwr.liftAt := none, pwr.goodAt := since d.clock (decide (v ≥ 40000)) d.pwr.goodAt }

/-- V_in and MIN_MV after a sample. -/
def noteVin (mv : Nat) (d : Device) : Device :=
  let xs := (mv :: d.pwr.samples).take 4
  let v := xs.sum / xs.length
  { d with pwr.samples := xs, pwr.vin := v, pwr.minMv := if d.pwr.stage ≥ 1 then min d.pwr.minMv v else d.pwr.minMv }

/-- VIN_SAMPLE: the input in mV. -/
def execVinSample (mv : Nat) (s : State) : Out := run (fun d =>
  let d := noteVin mv d
  if coreAlive d then judgeGood (takeStages (stageFor d.pwr.vin) d) else d) s

/-- The effect of lifting a stage (R482, R483): the device is already in the stage below it. -/
def liftActions (n : Nat) (d : Device) : Device :=
  match n with
  | 4 => unshedFlash { d with pwr.stage4At := none }
  | 3 => if d.boot.lp = .nap then d else unshedPorts d
  | 2 => if d.boot.lp = .active then eachStep (fun t j => unparkStep t j .sag) (channelsUp d)
    else eachStep (fun t j => unparkStep t j .sag) d
  | _ =>
    let d := ledgerFlush (unshedFlash { d with pwr.liftAt := none, pwr.goodAt := none })
    let us := (d.clock - d.pwr.sagAt.getD d.clock) / 1000
    latchBead 1 (ledgerEvent 0x0030 (leBytes 4 d.pwr.minMv ++ leBytes 4 us)
      { d with pwr.sagAt := none, pwr.sagCount := d.pwr.sagCount + 1 })

/-- When the next stage may be lifted. -/
def liftDue (d : Device) : Option Nat := d.pwr.liftAt <|> d.pwr.goodAt.map (· + 20 * ms)

/-- Lift the highest stage. -/
def liftStage (d : Device) : Device :=
  let n := d.pwr.stage
  liftActions n (setEvent evShed { d with pwr.stage := n - 1, pwr.goodAt := none, pwr.liftAt := some (d.clock + 2 * ms) })

/-- SHED_STAGE_LIFT: the wait is over and one stage is lifted. -/
def execShedStageLift (s : State) : Out := run (fun d =>
  match liftDue d with
  | some t => if coreAlive d ∧ d.pwr.stage ≥ 1 then liftStage (advanceTo t d) else d
  | none => d) s

/-- SUPPLY_RESET (R481): V_in is below 33.0 V and stage 4, whose commit is done, is in force or the core die is not running. -/
def execSupplyReset (s : State) : Out := run (fun d =>
  if d.pwr.vin < 33000 ∧ !d.pwr.samples.isEmpty ∧ (d.pwr.stage = 4 ∨ !coreAlive d) then
    beginReset kindSupply 0 { d with boot.frozen := none }
  else d) s

/-! ### Opcodes (R484) -/

/-- Bp in mW. -/
def budgetMw (d : Device) (q : Partition) : Nat := openBudget d * (groupTiles q).length / openTiles d

/-- The µs of a reason on a partition's tiles. -/
def partUs (d : Device) (t n : Nat) : Nat := SMap.get 0 d.pwr.partTimes (t * 8 + n) / 1000

/-- The result of PWR_QUERY; the power measured over the last 1 ms is a free value (log entry 45). -/
def queryBytes (t : Nat) (q : Partition) (d : Device) : List Byte :=
  let g := groupOf t q; let mine := q.sealed
  let reasons := reasonsOf d g &&& (if mine then 0xFF else 0xED)
  leBytes 4 (budgetMw d q) ++ (if mine then freeBytes 4 d ++ [BitVec.ofNat 8 (groupK d g), BitVec.ofNat 8 (rateOf d g)]
    else zeros 6) ++
  [reasons, BitVec.ofNat 8 d.pwr.stage, BitVec.ofNat 8 d.pwr.coolant] ++ zeros 3 ++
  (List.range 6).flatMap fun n => leBytes 8 (if mine || (n != 1 && n != 4) then partUs d t n else 0)

/-- PWR_QUERY. -/
def execPwrQuery (r : Ref) (s : State) : Out := run (runOp
  { opcode := 0x0A00, size := some 0, part := true } r
  fun p _ d => match partOf d p.hdr.tenant.toNat with
    | some q => finish p stOK (queryBytes p.hdr.tenant.toNat q d) (if q.sealed then spend 4 d else d)
    | none => refuse p stNoTenant d) s

/-- PWR_SET_CAP. -/
def execPwrSetCap (r : Ref) (s : State) : Out := run (runOp
  { opcode := 0x0A01, size := some 4, dev := true, roles := byInstaller, reserved := [(2, 2)] } r
  fun p b d =>
    let w := field b 0 2
    if w < 130 ∨ w > 300 then refuse p stBadArgument d
    else privileged p (fun d => complete p (ledgerConfig p { d with pwr.cap := BitVec.ofNat 9 w })) d) s

/-- Set the profile of a group back to P_TILEMAX. -/
def resetProfile (g : Nat) (d : Device) : Device :=
  onGroup g (fun x => { x with attention := none, prefill := none, decode := none }) d

/-- PWR_PROFILE_RESET. -/
def execPwrProfileReset (r : Ref) (s : State) : Out := run (runOp
  { opcode := 0x0A02, size := some 4, dev := true, roles := byInstaller, reserved := [(1, 3)] } r
  fun p b d =>
    let t := field b 0 1
    let act := fun (gs : List Nat) => privileged p (fun d => complete p (ledgerConfig p (gs.foldl (fun d g => resetProfile g d) d))) d
    if t = 0 then act (groupsHeld d)
    else match partOf d t with
      | some q => act [groupOf t q]
      | none => refuse p stBadArgument d) s

/-! ### Domains and registers (R465, R466, R485) -/

/-- A tile that no partition holds and that is not reserved is off. -/
def tileHeld (d : Device) (t : Nat) : Bool := (holderOf d t).isSome

/-- An Open-plane tile's ARRAY, SLIVER and STREAM domains are off by shed stage 2, Doze or Nap. -/
def tileDown (d : Device) (t : Nat) : Bool :=
  let ts := tileOf d t
  decide (d.boot.lp ≠ .active) || (decide (d.pwr.stage ≥ 2) && (runningList ts).isNone && ts.flight.isEmpty && ts.vflight.isNone)

/-- Domain 7t + n is on. -/
def tileDomain (d : Device) (t n : Nat) : Bool :=
  if d.fix.mask.getLsbD t then true
  else if !tileHeld d t then false
  else if n < 4 then !tileDown d t && (arrayOf (tileOf d t) n).on
  else n == 5 || !tileDown d t

/-- PAIR p is on. -/
def pairDomain (d : Device) (p : Nat) : Bool :=
  [2 * p, 2 * p + 1].any fun t => d.fix.mask.getLsbD t || (tileHeld d t && !tileDown d t)

/-- A domain of the shared blocks, by s of R465. -/
def sharedDomain (d : Device) (s : Nat) : Bool :=
  let low := decide (d.pwr.stage ≥ 3)
  if s < 5 then true
  else if s = 5 then !low
  else if s = 6 then !low || (portOf d 3).mode == modeTwin
  else !low

/-- A domain by its number (R465). -/
def domainOn (d : Device) (n : Nat) : Bool :=
  let t := tileCount d
  if n < 7 * t then tileDomain d (n / 7) (n % 7)
  else if n < 7 * t + t / 2 then pairDomain d (n - 7 * t)
  else if n < 7 * t + t / 2 + 8 then sharedDomain d (n - 7 * t - t / 2)
  else false

/-- A word of PWR_DOMAIN_ON. -/
def domainWord (d : Device) (w : Nat) : Nat :=
  ((List.range 32).map fun b => if domainOn d (32 * w + b) then 2 ^ b else 0).sum

/-- µs of PWR_THR_US_n; reasons 1 and 4 for the maker alone. -/
def throttleUs (d : Device) (n : Nat) : Nat :=
  if (n = 1 ∨ n = 4) ∧ !makerActive d then 0 else SMap.get 0 d.pwr.times n / 1000 % 2 ^ 64

/-- A register of the PWR block but for PWR_PIN, which is a measurement. -/
def pwrReg (d : Device) (off : Nat) : Nat :=
  let p := d.pwr
  if off = 0x000 then
    patternOf 8 (tjMax d) * 2 ^ 24 + p.coolant * 2 ^ 16 + (reasonsAny d &&& (if makerActive d then 0x3F else 0x2D)).toNat * 256
  else if off = 0x004 then
    p.minMv % 65536 * 65536 + p.peak * 16 + (if p.goodAt.isSome || p.liftAt.isSome then 8 else 0) + p.stage
  else if off = 0x008 then p.vin % 65536
  else if off = 0x00C then p.cap.toNat
  else if off = 0x010 then p.hostLimit.toNat
  else if off = 0x014 then p.flow % 65536 * 65536 + patternOf 8 p.outlet * 256 + patternOf 8 p.inlet
  else if off = 0x018 then p.vcore % 65536
  else if 0x020 ≤ off ∧ off < 0x050 then throttleUs d ((off - 0x020) / 8) / (if off % 8 = 0 then 1 else 2 ^ 32) % 2 ^ 32
  else if off = 0x054 then p.sagCount.toNat
  else if 0x060 ≤ off ∧ off < 0x080 then (if makerActive d then domainWord d ((off - 0x060) / 4) else 0)
  else 0

/-- PWR_CTR_CLEAR. -/
def pwrCtrClear (v : W32) (d : Device) : Device :=
  if makerActive d && v.getLsbD 0 then { d with pwr.times := [], pwr.sagCount := 0 } else d

/-- A write to the PWR block; a value out of range is discarded whole. -/
def pwrRegWrite (off : Nat) (v : W32) (d : Device) : Device :=
  let w := bitsOf v.toNat 0 9; let k := bitsOf v.toNat 0 7
  if off = 0x00C then
    rwl 0xA000C byInstaller (decide (130 ≤ w) && decide (w ≤ 300)) (fun d => { d with pwr.cap := BitVec.ofNat 9 w }) d
  else if off = 0x010 then
    rwl 0xA0010 byInstaller (decide (1 ≤ k) && decide (k ≤ 64)) (fun d => { d with pwr.hostLimit := BitVec.ofNat 7 k }) d
  else if off = 0x080 then pwrCtrClear v d
  else d

/-- PWR_CTR_CLEAR_WRITE. -/
def execPwrCtrClearWrite (v : W32) (s : State) : Out := run (transact (pwrCtrClear v)) s

end Sys2Proof.Machine
end

