-- ==== Sys2Proof/Machine/Audit.lean ====
section
/-! DEFINITION. Audit records, twin mode and the pattern test (16_determinism_audit R491 to R500, R507 to R509). -/

namespace Sys2Proof.Machine

/-! ### Jobs by the packet header (R283 step 1) -/

/-- The job a packet's header names, open and not closing, or the packet's failure. -/
def withJob (p : Packet) (d : Device) (f : Job → Device) : Device :=
  match jobOf d p.hdr.tenant p.hdr.job with
  | none => refuse p stJobUnknown d
  | some j => if j.closing then refuse p stJobClosing d else f j

/-! ### Audit records (R491, R493) -/

/-- AUDIT_JOB_CFG. With ENABLE = 0 the other fields are not looked at. -/
def auditJobCfg (p : Packet) (b : List Byte) (d : Device) : Device :=
  let h := word32 b 0; let off := word32 b 4; let n := field b 8 4; let on := bitOf (field b 12 1) 0
  let range := if on then rangeError d p.hdr.tenant.toNat h off.toNat (128 * n) else none
  if on && (decide (n = 0) || decide (n > 65536) || range == some stBadArgument) then refuse p stBadArgument d
  else withJob p d fun _ =>
    if on && range.isSome then refuse p stBadHandle d
    else complete p (onJob p.hdr.tenant p.hdr.job
      (fun j => { j with audit := if on then some { handle := h, off := off, cap := n } else none }) d)

def execAuditJobCfg (r : Ref) (s : State) : Out := run (runOp
  { opcode := 0x0B00, size := some 16, part := true, reserved := [(13, 3)], bits := [(12, 0xFE)] } r auditJobCfg) s

/-- The message that AUDIT_ATTEST signs: the digests are the count that the payload states. -/
def attestMessage (d : Device) (tenant : Byte) (b : List Byte) : List Byte :=
  ascii "LN-AUDIT-ATT" ++ serialBytes d ++ [tenant] ++ slice b 0 32 ++ slice b 40 (32 * field b 32 4)

/-- AUDIT_ATTEST. -/
def auditAttest (p : Packet) (b : List Byte) (d : Device) : Device :=
  let n := field b 32 4
  if n = 0 ∨ n > 16 ∨ !((b.drop (40 + 32 * n)).all (· == 0)) then refuse p stBadArgument d
  else finish p stOK (padTo 120 (edSign Config.identityKey (attestMessage d p.hdr.tenant b))) d

def execAuditAttest (r : Ref) (s : State) : Out := run (runOp
  { opcode := 0x0B01, size := some 552, part := true, reserved := [(36, 4)] } r auditAttest) s

/-! ### Pairing (R494, R495) -/

/-- Hand a message to the twin port. -/
def sendTwin (c : TwinCtrl) (d : Device) : Device :=
  sendMsg { kind := 0, dest := 0xFFE, tenant := 0, job := 0, epoch := 0, body := .twin c } d

/-- DEV_SERIAL of the partner while twin mode holds, otherwise 0. -/
def partnerSerial (d : Device) : Nat :=
  if twinUp d then (match (portOf d 3).peer with | some q => q.serial.toNat | none => 0) else 0

/-- This module is the leader (R494). -/
def isLeader (d : Device) : Bool := twinUp d && decide (d.boot.otp.serial.toNat < partnerSerial d)

/-- The three skein digests of a job. -/
def jobDigests (d : Device) (j : Job) : List Byte :=
  skeinDigest d (some j.main) ++ skeinDigest d j.adapter ++ skeinDigest d j.draft

/-- What R495 compares as numbers: draft depth, tile count, budget, prefill minimum, and whether the job has a placement. -/
def jobSettings (j : Job) : List Nat :=
  [j.depth, (tilesOf j.tiles).length, j.budget, j.prefillMin, if j.place = .none then 0 else 1]

/-- A step of the job has run or runs. -/
def hasRun (j : Job) : Bool := decide (j.stepNo ≠ 0) || j.step.isSome

/-- The conditions of R495 hold for a job and the partner's offer. -/
def pairOk (d : Device) (j : Job) (o : TwinOffer) : Bool :=
  o.digests == jobDigests d j && o.settings == jobSettings j && decide (j.place = .none) && (planOf d j.main).atomics.isEmpty &&
  !hasRun j && !o.started

/-- Both requests are present: they succeed or fail together. -/
def judgePair (p : Packet) (j : Job) (o : TwinOffer) (d : Device) : Device :=
  let t := p.hdr.tenant; let jid := p.hdr.job
  let d := { d with audit.offers := d.audit.offers.filter (· != o) }
  if pairOk d j o then
    let lead := isLeader d
    finish p stOK (leBytes 4 (if lead then 1 else 0))
      (onJob t jid (fun j => { j with twin := .paired, leader := lead, pairer := none }) { d with audit.lost := false })
  else refuse p stTwinMismatch (onJob t jid (fun j => { j with twin := .none, pairer := none }) d)

/-- The partner's request that matches a job's, if it is no more than 1 s old. -/
def offerFor (d : Device) (t : Byte) (jid partner : W32) : Option TwinOffer :=
  d.audit.offers.find? fun o => o.tenant == t && o.mine == jid && o.job == partner && decide (d.clock ≤ o.at_ + 1000000000)

/-- AUDIT_TWIN_PAIR: the request waits for the partner's unless that is present. -/
def auditTwinPair (p : Packet) (b : List Byte) (d : Device) : Device :=
  if p.held then d
  else
    let t := p.hdr.tenant; let jid := p.hdr.job; let partner := word32 b 0
    withJob p d fun j =>
      if !twinUp d then refuse p stTwinUnpaired d
      else if j.twin ≠ .none then refuse p stTwinMismatch d
      else
        let d := onJob t jid (fun j => { j with twin := .requested, twinJob := partner, pairer := some (refOf p), pairAt := d.clock })
          (sendTwin (.pair t jid partner (jobDigests d j) (jobSettings j) (hasRun j)) d)
        match offerFor d t jid partner with
        | some o => judgePair p j o d
        | none => hold p d

def execAuditTwinPair (r : Ref) (s : State) : Out := run (runOp
  { opcode := 0x0B02, size := some 8, part := true, reserved := [(4, 4)] } r auditTwinPair) s

/-- TWIN_PAIR_TIMEOUT: 1 s without the partner's request. -/
def execTwinPairTimeout (r : Ref) (s : State) : Out := run (fun d =>
  match findPacket d r with
  | none => d
  | some p =>
    if !isReady d || !p.held || p.hdr.opcode != 0x0B02 then d
    else match jobOf d p.hdr.tenant p.hdr.job with
      | none => refuse p stTwinMismatch d
      | some j => refuse p stTwinMismatch
          (onJob p.hdr.tenant p.hdr.job (fun j => { j with twin := .none, pairer := none }) (advanceTo (j.pairAt + 1000000000) d))) s

/-- The state of AUDIT_TWIN_QUERY. -/
def twinCode : TwinState → Byte
  | .none | .requested => 0
  | .paired => 1
  | .diverged => 2
  | .lost => 3

/-- The 48 bytes of AUDIT_TWIN_QUERY: its last 16 hold 8 bytes of either digest (log entry 46). -/
def twinQueryBytes (j : Job) : List Byte :=
  [twinCode j.twin, BitVec.ofNat 8 (j.divLayer / 65536)] ++ leBytes 2 (j.divLayer % 65536) ++ leBytes 4 j.compared.toNat ++
  leBytes 4 j.divs.toNat ++ zeros 4 ++ leBytes 8 j.divStep ++ leBytes 8 j.divAt ++
  padTo 8 (slice j.divPair 0 8) ++ padTo 8 (slice j.divPair 16 8)

/-- AUDIT_TWIN_QUERY. -/
def execAuditTwinQuery (r : Ref) (s : State) : Out := run (runOp { opcode := 0x0B03, size := some 0, part := true } r
  fun p _ d => withJob p d fun j => finish p stOK (twinQueryBytes j) d) s

/-! ### Messages of the twin port (R495 to R499) -/

/-- The local job that a partner's job is paired with: its ID, and the job. -/
def twinOf (d : Device) (t : Byte) (partner : W32) : Option (W32 × Job) :=
  (d.serve.jobs.find? fun x => x.1 / 2 ^ 32 == t.toNat && x.2.twinned && x.2.twinJob == partner).map fun x => (BitVec.ofNat 32 x.1, x.2)

/-- A request of a job by its tag. -/
def twinReq (d : Device) (t : Byte) (jid : W32) (tag : W16) : Option (Ref × Request) :=
  (reqsOf d t jid).find? fun x => x.1.tag == tag

/-- The partner's pairing request: judged at once where this module's waits. -/
def takeOffer (o : TwinOffer) (d : Device) : Device :=
  let d := { d with audit.offers := d.audit.offers ++ [o] }
  match jobOf d o.tenant o.mine with
  | none => d
  | some j =>
    if j.twin = .requested ∧ j.twinJob = o.job then match j.pairer.bind (findPacket d) with
      | some p => judgePair p j o d
      | none => d
    else d

/-- The partner admitted a request (R496). -/
def takeAdmit (t : Byte) (jid : W32) (tag : W16) (digest : List Byte) (d : Device) : Device :=
  match twinReq d t jid tag with
  | none => { d with audit.notes := d.audit.notes ++ [{ tenant := t, job := jid, tag := tag, digest := digest }] }
  | some (ref, r) =>
    if !r.twinWait then d
    else if r.twinDigest = digest then onReq ref (fun r => { r with twinWait := false }) d
    else endRequest ref stTwinMismatch d

/-- A message of the twin port arrives while the module takes part in twin mode (R494): it does something only once it has passed the checks of
R352. -/
def onTwin (kind : Nat) (alive : Device → Bool) (fits : List Byte → Bool) (f : Device → Device) (s : State) : Out := run (fun d =>
  if !alive d || !twinUp d then d
  else match takeMsg true kind none fits d with
    | some d => f d
    | none => d) s

/-- The header names the tenant and the job as the partner knows it. -/
def twinFits (tenant : Byte) (job : W32) (head : List Byte) : Bool := byteAt head 10 == tenant && field head 4 4 == job.toNat

/-- TWIN_CTRL. -/
def execTwinCtrl (c : TwinCtrl) (s : State) : Out := onTwin 0 isReady (fun _ => true) (fun d =>
  match c with
    | .pair t job mine digests settings started =>
      takeOffer { tenant := t, job := job, mine := mine, digests := digests, settings := settings, started := started, at_ := d.clock } d
    | .admission t job tag digest => match twinOf d t job with
      | some (jid, _) => takeAdmit t jid tag digest d
      | none => d
    | .cancel t tag =>
      let d := { d with audit.notes := d.audit.notes.filter fun n => !(n.tenant == t && n.tag == tag) }
      match d.serve.reqs.find? fun x => x.2.tenant == t.toNat && x.1.tag == tag &&
          (match jobOf d t x.2.job with | some j => j.twinned | none => false) with
      | some x => if x.2.ending.isSome then d else cancelRequest x.1 d
      | none => d) s

/-- TWIN_STEP: the leader's composition reaches the follower, or the follower's parked set the leader, whose step goes on without
those sequences (R496). -/
def execTwinStep (tenant : Byte) (job : W32) (seqs : List W16) (dStep : W64) (parked : List W16) (s : State) : Out := onTwin 1 isReady (twinFits tenant job) (fun d =>
  match twinOf d tenant job with
    | none => d
    | some (jid, j) =>
      if !j.leader then onJob tenant jid (fun j => { j with leadRows := some (seqs, dStep, parked) }) d
      else
        let keep := fun (st : StepRun) => stepOver d j (st.rows.filter fun x => !parked.contains x.ref.tag) { st with awaitTwin := false }
        stepCheck tenant jid (onJob tenant jid (fun j => { j with step := j.step.map fun st => if st.awaitTwin then keep st else st }) d)) s

/-- TWIN_DIGEST: the partner's digest vector of a step (R498). -/
def execTwinDigest (tenant : Byte) (job : W32) (digests : List (Nat × List Byte)) (s : State) : Out := onTwin 2 isReady (twinFits tenant job) (fun d =>
  match twinOf d tenant job with
    | none => d
    | some (jid, _) => twinCompare tenant jid (onJob tenant jid (fun j => { j with theirs := j.theirs ++ [digests] }) d)) s

/-- The span in which a Fixed-plane run is matched. -/
abbrev fixSpan : Nat := 10000000

/-- TWIN_FIX: the partner's report of a Fixed-plane run (R499). -/
def execTwinFix (seq : W32) (digest : List Byte) (s : State) : Out := onTwin 3 coreAlive (fun _ => true) (fun d =>
  if !d.audit.fixCompare then d
  else match d.audit.myRuns.find? fun x => x.seq == seq with
    | some x => fixCompare seq x.digest digest { d with audit.myRuns := d.audit.myRuns.filter fun x => x.seq != seq }
    | none =>
      let fresh := d.audit.theirRuns.filter fun x => decide (d.clock ≤ x.at_ + fixSpan)
      { d with audit.theirRuns := fresh ++ [{ seq := seq, digest := digest, at_ := d.clock }] }) s

/-- TWIN_FIX_UNMATCHED: 10 ms without the partner's report. -/
def execTwinFixUnmatched (seq : W32) (s : State) : Out := run (fun d =>
  match d.audit.myRuns.find? fun x => x.seq == seq with
  | none => d
  | some x =>
    if !coreAlive d then d
    else
      let d := advanceTo (x.at_ + fixSpan) d
      { d with audit.myRuns := d.audit.myRuns.filter fun x => x.seq != seq, audit.unmatched := d.audit.unmatched + 1 }) s

/-! ### The pattern test (R507) -/

/-- DIAG_TILE_TEST: what the test found, its failing unit and index, and its cycles. -/
def diagTest (failing : Option (Byte × W16)) (cycles : W32) (p : Packet) (b : List Byte) (d : Device) : Device :=
  let t := field b 0 1
  if t ≥ tileCount d then refuse p stBadArgument d
  else if d.pwr.stage ≥ 2 then refuse p stShed d
  else privileged p (fun d =>
    if tileHeld d t || d.fix.mask.getLsbD t then refuse p stTileInUse d
    else
      let (st, unit, index) : W16 × Byte × W16 := match failing with | some (u, i) => (stTestFail, u, i) | none => (stOK, 0xFF, 0)
      finish p st ([unit, 0] ++ leBytes 2 index.toNat ++ leBytes 4 cycles.toNat) (if failing.isNone then ledgerConfig p d else d)) d

def execDiagTileTest (r : Ref) (failing : Option (Byte × W16)) (cycles : W32) (s : State) : Out := run (runOp
  { opcode := 0x0B10, size := some 4, dev := true, roles := byEither, reserved := [(1, 3)] } r (diagTest failing cycles)) s

/-! ### The AUDIT block (R509) -/

/-- AUDIT_STAT.TWIN. -/
def twinStat (d : Device) : Nat :=
  if (portOf d 3).mode ≠ modeTwin then 0 else if d.audit.lost then 3 else if twinUp d then 2 else 1

/-- A register of the AUDIT block. -/
def auditReg (d : Device) (off : Nat) : Nat :=
  let a := d.audit
  if off = 0x000 then bitAt a.fixDiv 4 + bitAt (isLeader d) 3 + twinStat d
  else if off = 0x004 then bitAt a.onDiverge 1 + bitAt a.fixCompare 0
  else if off = 0x008 then partnerSerial d % 2 ^ 32
  else if off = 0x00C then partnerSerial d / 2 ^ 32
  else if off = 0x010 then a.cmpCount.toNat
  else if off = 0x014 then a.divCount.toNat
  else if off = 0x018 then a.divSeq.toNat
  else if off = 0x01C then a.unmatched.toNat
  else if off = 0x020 then (if makerActive d then a.twinSteps.toNat else 0)
  else if off = 0x024 then (if makerActive d then a.twinDivs.toNat else 0)
  else 0

/-- AUDIT_CTR_CLEAR, the maker's alone. -/
def auditCtrClear (v : W32) (d : Device) : Device :=
  if makerActive d && v.getLsbD 0 then
    { d with audit.cmpCount := 0, audit.divCount := 0, audit.divSeq := 0, audit.unmatched := 0, audit.twinSteps := 0, audit.twinDivs := 0 }
  else d

/-- A write to the AUDIT block. -/
def auditRegWrite (off : Nat) (v : W32) (d : Device) : Device :=
  if off = 0x000 then { d with audit.fixDiv := d.audit.fixDiv && !v.getLsbD 4 }
  else if off = 0x004 then
    rwl 0xB0004 byInstaller true (fun d => { d with audit.onDiverge := v.getLsbD 1, audit.fixCompare := v.getLsbD 0 }) d
  else if off = 0x028 then auditCtrClear v d
  else d

/-- AUDIT_CTR_CLEAR_WRITE. -/
def execAuditCtrClearWrite (v : W32) (s : State) : Out := run (transact (auditCtrClear v)) s

end Sys2Proof.Machine
end

