-- ==== Sys2Proof/Machine/Panel.lean ====
section
/-! DEFINITION. The faceplate, the service receptacle and the Ethernet link of the management port (18_module_hardware R547 to
R556, 12_security_tenancy R396, R413). -/

namespace Sys2Proof.Machine

/-! ### Beads (R549, R550) -/

inductive BeadColour where
  | white | red | green | blue | amber | cyan | magenta
deriving DecidableEq, Repr

inductive BeadPattern where
  | off | steady | slow | fast | beat
deriving DecidableEq, Repr

/-- What a bead shows, and whether it is a latch. -/
structure BeadShow where
  colour  : BeadColour
  pattern : BeadPattern
  latch   : Bool := false
deriving DecidableEq, Repr

/-- The PANEL domain is on (R479). -/
def panelOn (d : Device) : Bool := decide (d.pwr.stage < 3)

/-- SERVE_STAT.ADMIT_CLOSED (R283, R478). -/
def admitClosed (d : Device) : Bool := decide (d.pwr.stage ≥ 2) || decide (d.pwr.coolant = 2)

/-- A port is in POD or TWIN mode. -/
def portUsed (p : LinkPort) : Bool := decide (p.mode ≠ modeOff)

/-- The conditions of a bead in the order of its row, each with what it shows. -/
def beadRow (d : Device) (n : Nat) : List (Bool × BeadShow) :=
  let latched := d.panel.latches.getLsbD n
  let ports := (List.range 4).map (portOf d)
  let ph := d.boot.phase
  match n with
  | 0 =>
    [(d.panel.refused.isSome, ⟨.red, .fast, false⟩), (decide (ph = .fault), ⟨.red, .steady, false⟩),
     (decide (ph = .held ∨ ph = .booting), ⟨.green, .slow, false⟩), (latched, ⟨.red, .beat, true⟩),
     (decide (d.boot.lp = .hibernate), ⟨.blue, .beat, false⟩), (decide (d.boot.lp = .nap), ⟨.blue, .steady, false⟩),
     (decide (d.boot.lp = .doze), ⟨.cyan, .steady, false⟩), (decide (ph = .ready), ⟨.green, .steady, false⟩)]
  | 1 =>
    [(decide (d.pwr.stage = 2), ⟨.amber, .fast, false⟩), (decide (d.pwr.stage = 1), ⟨.amber, .steady, false⟩),
     (latched, ⟨.amber, .beat, true⟩)]
  | 2 =>
    [(decide (d.pwr.coolant = 2), ⟨.red, .fast, false⟩), (d.pwr.thermal, ⟨.amber, .fast, false⟩),
     (decide (d.pwr.coolant = 1), ⟨.amber, .steady, false⟩), (latched, ⟨.red, .beat, true⟩)]
  | 3 =>
    [(decide (d.fix.mask = 0), ⟨.blue, .off, false⟩), (d.fix.fallback.isNone, ⟨.red, .slow, false⟩),
     (d.fix.armed, ⟨.blue, .steady, false⟩), (true, ⟨.blue, .slow, false⟩)]
  | 4 =>
    [(d.sec.parts.isEmpty, ⟨.green, .off, false⟩), (admitClosed d, ⟨.amber, .slow, false⟩),
     (decide (reasonsOf d 0 &&& 0x2D ≠ 0), ⟨.amber, .steady, false⟩), (d.serve.jobs.any (·.2.step.isSome), ⟨.green, .steady, false⟩),
     (true, ⟨.green, .beat, false⟩)]
  | 5 =>
    [(!ports.any portUsed, ⟨.green, .off, false⟩), (ports.any fun p => portUsed p && p.state != .up, ⟨.amber, .steady, false⟩),
     (latched, ⟨.amber, .beat, true⟩), (twinUp d, ⟨.magenta, .steady, false⟩), (true, ⟨.green, .steady, false⟩)]
  | 6 =>
    [(decide (d.gauge.rotor = .off) && decide (d.gauge.grid = .off) && !d.gauge.ppsEn, ⟨.green, .off, false⟩),
     (!basesLocked d.gauge, ⟨.amber, .steady, false⟩), (true, ⟨.green, .steady, false⟩)]
  | _ =>
    [(d.sec.inst && d.sec.serv, ⟨.red, .fast, false⟩), (activeRole d == roleMaker, ⟨.red, .steady, false⟩),
     (activeRole d == roleInstaller, ⟨.amber, .steady, false⟩), (activeRole d == roleOperator, ⟨.white, .steady, false⟩),
     (decide (d.sec.keysw ≠ 0), ⟨.white, .slow, false⟩)]

/-- What a bead shows, by the first condition of its row that holds; the lamp test and locate override it. -/
def beadShows (d : Device) (n : Nat) : BeadShow :=
  match (beadRow d n).find? (·.1) with
  | some (_, x) => x
  | none => ⟨.white, .off, false⟩

/-- The 50 ms flash of bead 3 lasts (R549). -/
def pulsing (d : Device) : Bool := match d.panel.pulse with
  | some t => decide (d.clock ≤ t + 50000000)
  | none => false

/-- A bead as it is seen: dark while the domain is off, under the lamp test its four colours in turn, under locate blue. -/
def beadSeen (d : Device) (n : Nat) : BeadShow :=
  if !panelOn d then ⟨.white, .off, false⟩
  else match d.panel.lamp, d.panel.locate with
    | some t, _ => match (d.clock - t) / 750000000 with
      | 0 => ⟨.white, .steady, false⟩
      | 1 => ⟨.red, .steady, false⟩
      | 2 => ⟨.green, .steady, false⟩
      | _ => ⟨.blue, .steady, false⟩
    | none, some _ => ⟨.blue, .fast, false⟩
    | none, none => if n = 3 ∧ pulsing d then ⟨.white, .steady, false⟩ else beadShows d n

/-- PANEL_STAT.LATCHED. -/
def latchedBits (d : Device) : Nat := ((List.range 8).map fun n => if (beadShows d n).latch then 2 ^ n else 0).sum

/-! ### Buttons (R547, R548) -/

/-- Record a press: kind and button. -/
def recordPress (kind button : BitVec 2) (d : Device) : Device :=
  { d with panel.presses := d.panel.presses + 1, panel.kind := kind, panel.button := button }

/-- A press: recorded, then its action, or the wake alone where it ends a low-power state (R523). -/
def press (kind button : BitVec 2) (act : Device → Device) (d : Device) : Device :=
  if !panelOn d then d
  else
    let d := recordPress kind button d
    if isFrozen d ∨ lowPowerOf d = .active then act d else wakeUp 7 d

/-- ACK_SHORT_PRESS: the latches are cleared and a locate ends. -/
def execAckShortPress (s : State) : Out := run (press 1 0 fun d => { d with panel.latches := 0, panel.locate := none }) s

/-- ACK_LONG_PRESS: locate. -/
def execAckLongPress (s : State) : Out := run (press 2 0 fun d => { d with panel.locate := some d.clock }) s

/-- TEST_SHORT_PRESS: the lamp test. -/
def execTestShortPress (s : State) : Out := run (press 1 1 fun d => { d with panel.lamp := some d.clock }) s

/-- TEST_LONG_PRESS: the bead check, which finds the beads given to fail. -/
def execTestLongPress (failing : Byte) (s : State) : Out := run (press 2 1 fun d => { d with panel.beadFail := failing }) s

/-- The request of a SAFE long press: ledgered on channel 4, and refused with the key at OPERATE. -/
def safePress (d : Device) : Device :=
  let detail := leBytes 4 lpCtrlAddr ++ zeros 4
  if (ledgerRoom d).isSome then { d with sec.cfgDropped := true }
  else if d.sec.keysw = 0 then ledgerEvent 0x0003 detail d 0 stDeniedRole 4
  else
    let d := ledgerEvent 0x0020 detail d 0 stOK 4
    if !coreAlive d then d
    else
      let d := if lpRefusal d .nap then { d with panel.refused := some d.clock } else d
      lpRequest .nap d

/-- SAFE_LONG_PRESS. -/
def execSafeLongPress (s : State) : Out := run (press 2 2 safePress) s

/-- CHORD: recorded, and no button acts. -/
def execChord (button : BitVec 2) (s : State) : Out := run (press 3 button id) s

/-- A pattern that began at some time ends after a span. -/
def patternEnd (t : Option Nat) (span : Nat) (f : Device → Device) (d : Device) : Device := match t with
  | some t => f (advanceTo (t + span) d)
  | none => d

/-- LOCATE_END: 30 s. -/
def execLocateEnd (s : State) : Out := run (fun d =>
  patternEnd d.panel.locate 30000000000 (fun d => { d with panel.locate := none }) d) s

/-- LAMP_TEST_END: four colours of 0.75 s. -/
def execLampTestEnd (s : State) : Out := run (fun d =>
  patternEnd d.panel.lamp 3000000000 (fun d => { d with panel.lamp := none }) d) s

/-- NAP_REFUSAL_FLASH_END: 2 s. -/
def execNapRefusalFlashEnd (s : State) : Out := run (fun d =>
  patternEnd d.panel.refused 2000000000 (fun d => { d with panel.refused := none }) d) s

/-! ### The PANEL block (R556) -/

/-- A register of the PANEL block but for BUTTONS, which are pins. -/
def panelReg (d : Device) (off : Nat) : Nat :=
  let p := d.panel
  if off = 0x000 then
    bitAt p.usb 31 + bitAt p.usbHs 30 + p.beadFail.toNat * 2 ^ 16 + latchedBits d * 256 + bitAt (d.sec.inst && d.sec.serv) 4 +
    bitAt (panelOn d) 3
  else if off = 0x004 then p.level.toNat
  else if off = 0x008 then p.presses.toNat * 65536 + p.kind.toNat * 256 + p.button.toNat
  else 0

/-- PANEL_CTRL: the three actions. -/
def panelAck (d : Device) : Device := { d with panel.latches := 0 }
def panelLampTest (d : Device) : Device := { d with panel.lamp := some d.clock }
def panelLocate (d : Device) : Device := { d with panel.locate := some d.clock }

/-- A write to the PANEL block. -/
def panelRegWrite (off : Nat) (v : W32) (d : Device) : Device :=
  if off = 0x004 then rwl 0xD0004 byInstaller true (fun d => { d with panel.level := BitVec.ofNat 4 v.toNat }) d
  else if off = 0x00C then
    let d := if v.getLsbD 0 then panelAck d else d
    let d := if v.getLsbD 1 then panelLampTest d else d
    if v.getLsbD 2 then panelLocate d else d
  else d

/-- PANEL_ACK, PANEL_LAMP_TEST, PANEL_LOCATE: the writes of 1 to their bits of PANEL_CTRL. -/
def execPanelAck (s : State) : Out := run (transact panelAck) s
def execPanelLampTest (s : State) : Out := run (transact panelLampTest) s
def execPanelLocate (s : State) : Out := run (transact panelLocate) s

/-! ### The service receptacle (R552, R553) and the Ethernet link (R396) -/

/-- USB_ATTACH. -/
def execUsbAttach (highSpeed : Bool) (s : State) : Out := run (fun d =>
  if panelOn d then { d with panel.usb := true, panel.usbHs := highSpeed } else d) s

/-- USB_DETACH: a session on the receptacle ends with cause UNPLUG. -/
def execUsbDetach (s : State) : Out := run (fun d =>
  let d := { d with panel.usb := false, panel.usbHs := false }
  match d.sec.session with
  | some x => if x.chan = .usb then endSession 3 d else d
  | none => d) s

/-- USB_PACKET: an OUT transfer; with 8 packets in flight it is answered NAK and nothing is taken. -/
def execUsbPacket (bytes : List Byte) (s : State) : Out := run (fun d =>
  if !d.panel.usb || !panelOn d || decide ((d.cmd.flight.filter fun p => p.chan == .usb).length ≥ 8) then d
  else submitOn .usb true bytes d) s

/-- ETHERNET_LINK_CHANGE: the loss timer of R396 starts or is cancelled. -/
def execEthernetLinkChange (up : Bool) (s : State) : Out := run (fun d =>
  if up = d.sec.mgmtLink then d
  else { d with sec.mgmtLink := up, sec.linkLostAt := if up then none else some d.clock }) s

end Sys2Proof.Machine
end

