-- ==== Sys2Proof/Machine/Port.lean ====
section
/-! DEFINITION. The host port and its address map, the DEV and CMD blocks, the aperture, and the registers of the blocks MEM,
SERVE, DRAM and of the tiles (02_command_protocol, 00_scope R12 to R15, R557, 06_memory_tiers R203, R205, R225, 09_serving R304,
04_matrix_arrays R154, R155, 14_dram R464). -/

namespace Sys2Proof.Machine

/-! ### Registers by block -/

def Phase.code : Phase → Nat
  | .held => 0
  | .booting => 1
  | .ready => 2
  | .fault => 3
  | .lowPower => 4

/-- DEV_IDENT. -/
def devIdent (d : Device) : Nat := let o := d.boot.otp; o.part.toNat * 65536 + o.tiles.toNat * 256 + o.stepping.toNat * 16

/-- A register of the DEV block (R87). -/
def devReg (d : Device) (off : Nat) : Nat :=
  let h := d.host
  if off = 0x000 then devIdent d
  else if off = 0x004 then 0x0008_0404
  else if off = 0x008 then d.boot.otp.serial.toNat % 2 ^ 32
  else if off = 0x00C then d.boot.otp.serial.toNat / 2 ^ 32
  else if off = 0x010 then h.fwCp.toNat
  else if off = 0x014 then h.fwOnyx.toNat
  else if off = 0x018 then h.deviceId.toNat * 65536 + d.boot.phase.code
  else if off = 0x020 then h.event.toNat
  else if off = 0x024 then h.eventEn.toNat
  else if off = 0x028 then h.scratch.toNat
  else if off = 0x030 then h.apBase.toNat % 2 ^ 32
  else if off = 0x034 then h.apBase.toNat / 2 ^ 32
  else if off = 0x038 then bitAt h.apEnable 31 + h.apTenant.toNat
  else if off = 0x040 then h.xspiCfg.toNat
  else if off = 0x044 then h.lateCount.toNat * 65536 + bitAt h.badInstr 1 + bitAt h.late 0
  else 0

/-- The bound record of the tag in CMD_RESULT_SEL, while it is in the ring (R75). -/
def selected (d : Device) : Option Record := d.cmd.ring.find? fun r => r.bound && r.tag == d.cmd.resultSel

/-- Tags of the host port in flight or completed (R76). -/
def tagsHeld (d : Device) : Nat :=
  (d.cmd.flight.filter fun p => p.chan == .host).length + (d.cmd.held.filter (·.bound)).length + (d.cmd.ring.filter (·.bound)).length

/-- A register of the CMD block (R88). -/
def cmdReg (d : Device) (off : Nat) : Nat :=
  let c := d.cmd
  if off = 0x000 then
    bitAt c.unboundLost 5 + bitAt (!c.held.isEmpty) 4 + bitAt c.tailErr 3 + bitAt c.reject 2 + bitAt c.overrun 1 +
    bitAt (decide (intakeUsed d = 0)) 0
  else if off = 0x004 then 262144 - intakeUsed d
  else if off = 0x008 then c.head.toNat
  else if off = 0x00C then c.tail.toNat
  else if off = 0x010 then tagsHeld d
  else if off = 0x014 then c.held.length
  else if off = 0x018 then c.alertCtrl.toNat
  else if off = 0x01C then bitAt (selected d).isSome 31 + c.resultSel.toNat
  else if off = 0x020 then (match selected d with | some r => r.result.length | none => 0)
  else if off = 0x030 then c.acceptCount.toNat
  else if off = 0x034 then c.rejectCount.toNat
  else if off = 0x038 then c.overrunCount.toNat
  else if off = 0x03C then c.authFailCount.toNat
  else if off = 0x040 then c.errCause.toNat
  else if 0x044 ≤ off ∧ off ≤ 0x050 then field c.errHdr (off - 0x044) 4
  else if off = 0x054 then c.lostCount.toNat
  else 0

/-- The arbitration point that MEM_ARB_SEL shows. -/
def arbShown (d : Device) : ArbPoint :=
  SMap.get {} d.mem.arb (if d.mem.arbSel.getLsbD 5 then 32 + d.mem.arbSel.toNat % 32 else d.mem.arbSel.toNat % 32)

/-- A register of the MEM block (R225). -/
def memReg (d : Device) (off : Nat) : Nat :=
  let own := fun (n : Nat) => if makerActive d then n else 0
  let want := hostWant d
  if off = 0x000 then own (bitAt want 2) + bitAt d.mem.denied 1 + own (bitAt (!d.mem.scrubbing.isEmpty) 0)
  else if off = 0x004 then d.mem.margin.toNat
  else if off = 0x008 then d.mem.denyCount.toNat
  else if off = 0x010 then own d.mem.arbSel.toNat
  else if off = 0x014 then own (arbShown d).grants.toNat
  else if off = 0x018 then own (arbShown d).preempts.toNat
  else if off = 0x01C then own (match (arbShown d).owner with | some r => 2 ^ 31 + r.who % 64 | none => 0)
  else if off = 0x020 then own d.mem.missCount.toNat
  else if off = 0x024 then own d.mem.skipCount.toNat
  else 0

/-- A register of the SERVE block (R304). -/
def serveReg (d : Device) (off : Nat) : Nat :=
  let own := fun (n : Nat) => if makerActive d then n else 0
  let v := d.serve
  if off = 0x000 then bitAt (admitClosed d) 1 + own (bitAt (v.jobs.any (·.2.step.isSome)) 0)
  else if off = 0x004 then v.stepTokens.toNat * 65536 + v.prefillMin.toNat
  else if off = 0x008 then v.slack.toNat
  else if off = 0x010 then own v.seqs.length
  else if off = 0x014 then own v.reqs.length
  else if off = 0x018 then own v.stepCount.toNat
  else if off = 0x01C then own v.refuseCount.toNat
  else if off = 0x020 then own v.cancelCount.toNat
  else if off = 0x024 then own v.cancelLat.toNat
  else 0

/-- A register of the DRAM block (R464). -/
def dramReg (d : Device) (off : Nat) : Nat :=
  let own := fun (n : Nat) => if makerActive d then n else 0
  let x := d.dram
  let chans := List.range 32
  if off = 0x000 then
    bitAt x.trained 31 + bitAt x.mapBusy 30 + bitAt x.patrolBusy 29 + bitAt (chans.any fun c => (chanOf d c).high) 28 +
    bitAt x.uncorr 1 + bitAt x.corr 0
  else if off = 0x004 then (chans.map fun c => bitAt (chanOf d c).selfRef c).sum
  else if off = 0x008 then x.order.toNat
  else if off = 0x00C then x.high.toNat * 256 + x.low.toNat
  else if off = 0x010 then x.hours.toNat
  else if off = 0x014 then x.period.toNat
  else if off = 0x020 then own x.corrCount.toNat
  else if off = 0x024 then own x.uncorrCount.toNat
  else if off = 0x028 then own x.codecCount.toNat
  else if off = 0x02C then own x.rmwCount.toNat
  else if off = 0x030 then own (x.errAddr % 2 ^ 32)
  else if off = 0x034 then own (x.errAddr / 2 ^ 32 % 2 ^ 12)
  else if off = 0x038 then own (x.errSource.toNat * 65536 + x.errStep.toNat * 256 + x.errChan.toNat)
  else if 0x100 ≤ off ∧ off < 0x300 then
    let c := chanOf d ((off - 0x100) / 0x10)
    if off % 0x10 = 0 then c.lanes.toNat else if off % 0x10 = 4 then c.retrains.toNat else 0
  else 0

/-- The tile's own registers are hidden: it has an owner and the maker role is not active (R155). -/
def tileHidden (d : Device) (t : Nat) : Bool := (tileOf d t).tenant != 0 && !makerActive d

/-- A register of a tile's status block (R154, R155). -/
def tileReg (d : Device) (t off : Nat) : Nat :=
  let x := tileOf d t
  let own := fun (n : Nat) => if tileHidden d t then 0 else n
  if tileCount d ≤ t then 0
  else if off = 0x000 then
    x.tenant.toNat * 2 ^ 24 + own ((x.flight.foldl (fun (m : BitVec 4) (f : FlightPass) => m ||| f.arrays) 0).toNat * 2 ^ 20 + bitAt x.xmis 7 + bitAt x.listErr 6) +
    bitAt (d.fix.mask.getLsbD t) 2 + bitAt (d.fix.mask.getLsbD t && d.fix.armed) 1 +
    own (bitAt (!x.passes.isEmpty || !x.flight.isEmpty) 0)
  else if off = 0x004 then own x.passCount.toNat
  else if off = 0x008 then own (x.errIndex.toNat * 65536 + x.errCause.toNat)
  else if off = 0x010 then own (x.activeCyc.toNat % 2 ^ 32)
  else if off = 0x014 then own (x.activeCyc.toNat / 2 ^ 32)
  else if off = 0x018 then own (x.bubbleCyc.toNat % 2 ^ 32)
  else if off = 0x01C then own (x.bubbleCyc.toNat / 2 ^ 32)
  else if off = 0x020 then own x.fxRows.toNat
  else if off = 0x024 then own x.fxElems.toNat
  else if off = 0x028 then own x.sat.toNat
  else if off = 0x02C then own x.invalid.toNat
  else 0

/-- The value of an aligned word of control space as it stands (R48 to R50); pins and measurements are free values. -/
def regValue (d : Device) (a : Nat) : Nat :=
  let off := a % 65536
  if a < 0x10000 then devReg d off
  else if a < 0x20000 then cmdReg d off
  else if a < 0x30000 then memReg d off
  else if a < 0x40000 then fixReg d off
  else if a < 0x50000 then gaugeReg d off
  else if a < 0x60000 then serveReg d off
  else if a < 0x70000 then flashReg d off
  else if a < 0x80000 then dramReg d off
  else if a < 0x90000 then linkReg d off
  else if a < 0xA0000 then secReg d off
  else if a = 0xA0050 then (if makerActive d then Config.freeNat d.freeCtr % 65536 else 0)
  else if a < 0xB0000 then pwrReg d off
  else if a < 0xC0000 then auditReg d off
  else if a < 0xD0000 then bootReg d off
  else if a = 0xD0000 then panelReg d off + (if panelOn d then Config.freeNat d.freeCtr % 8 else 0)
  else if a < 0xE0000 then panelReg d off
  else if 0x100000 ≤ a ∧ a < 0x120000 then tileReg d ((a - 0x100000) / 0x1000) (a % 0x1000)
  else if 0x400000 ≤ a ∧ a < 0x404000 then (knotOf d ((a - 0x400000) / 4)).value.toNat
  else 0

/-- The low words of the 64-bit registers (R15). -/
def isLow (a : Nat) : Bool :=
  a == 0x00008 || a == 0x00030 || a == 0x40028 || a == 0x60008 || a == 0x70030 || a == 0x90010 || a == 0xB0008 ||
  (decide (0xA0020 ≤ a) && decide (a < 0xA0050) && a % 8 == 0) ||
  (decide (0x100000 ≤ a) && decide (a < 0x120000) && (a % 0x1000 == 0x010 || a % 0x1000 == 0x018))

/-- Read a word of control space: a low word latches its high word, and the next read of the high word returns the shadow. -/
def readWord (a : Nat) (d : Device) : Nat × Device :=
  let v := regValue d a
  let d := if a = 0xA0050 ∨ a = 0xD0000 then spend 1 d else d
  if isLow a then (v, { d with host.shadow := Assoc.insert d.host.shadow a (BitVec.ofNat 32 (regValue d (a + 4))) })
  else if a ≥ 4 ∧ isLow (a - 4) then
    match Assoc.find d.host.shadow (a - 4) with
    | some s => (s.toNat, { d with host.shadow := Assoc.erase d.host.shadow (a - 4) })
    | none => (v, d)
  else (v, d)

/-! ### Register writes (R13, R14, R557) -/

/-- CMD_CQ_TAIL (R73): records are consumed, held ones follow, and a RESET whose record is passed begins (R85). -/
def tailWrite (v : W32) (d : Device) : Device :=
  let t := BitVec.ofNat 12 v.toNat
  let n := (t - d.cmd.tail).toNat
  if n > (d.cmd.head - d.cmd.tail).toNat then { d with cmd.tailErr := true }
  else
    let passed := d.cmd.ring.take n
    let d := refillRing { d with cmd.ring := d.cmd.ring.drop n, cmd.tail := t }
    if d.cmd.resetPending.any fun (r, _) => r.chan == .host && passed.any (fun x => x.bound && x.tag == r.tag && x.opcode == 0x0104)
    then beginReset kindWarm 1 d else d

/-- DEV_XSPI_CFG: a value out of range in any field is discarded whole. -/
def xspiWrite (v : W32) (d : Device) : Device :=
  if bitsOf v.toNat 16 8 < 16 ∨ bitsOf v.toNat 8 5 < 8 then d else { d with host.xspiCfg := v &&& 0x01FF1F03 }

/-- The high word of DEV_APERTURE_BASE makes the register take effect (R15). -/
def baseWrite (v : W32) (d : Device) : Device :=
  let low := (Assoc.find d.host.heldLow 0x00030).getD (BitVec.ofNat 32 d.host.apBase.toNat)
  { d with
    host.apBase := BitVec.ofNat 64 (v.toNat * 2 ^ 32 + low.toNat) &&& 0x00000FFF80000000
    host.heldLow := Assoc.erase d.host.heldLow 0x00030 }

/-- A write to the DEV block. -/
def devRegWrite (off : Nat) (v : W32) (d : Device) : Device :=
  if off = 0x020 then { d with host.event := d.host.event &&& ~~~(BitVec.ofNat 12 v.toNat) }
  else if off = 0x024 then { d with host.eventEn := BitVec.ofNat 12 v.toNat }
  else if off = 0x028 then { d with host.scratch := v }
  else if off = 0x030 then { d with host.heldLow := Assoc.insert d.host.heldLow 0x00030 v }
  else if off = 0x034 then baseWrite v d
  else if off = 0x038 then { d with host.apEnable := v.getLsbD 31, host.apTenant := BitVec.ofNat 8 v.toNat }
  else if off = 0x040 then xspiWrite v d
  else if off = 0x044 then { d with host.badInstr := d.host.badInstr && !v.getLsbD 1, host.late := d.host.late && !v.getLsbD 0 }
  else d

/-- CMD_RESULT_SEL. -/
def selWrite (v : W32) (d : Device) : Device := { d with cmd.resultSel := BitVec.ofNat 16 v.toNat }

/-- A write to the CMD block. -/
def cmdRegWrite (off : Nat) (v : W32) (d : Device) : Device :=
  let keep := fun (b : Bool) n => b && !v.getLsbD n
  if off = 0x000 then { d with
    cmd.unboundLost := keep d.cmd.unboundLost 5, cmd.tailErr := keep d.cmd.tailErr 3, cmd.reject := keep d.cmd.reject 2
    cmd.overrun := keep d.cmd.overrun 1 }
  else if off = 0x00C then tailWrite v d
  else if off = 0x018 then { d with cmd.alertCtrl := v &&& 0x0003FFFF }
  else if off = 0x01C then selWrite v d
  else d

/-- A write to the MEM block. -/
def memRegWrite (off : Nat) (v : W32) (d : Device) : Device :=
  if off = 0x000 then { d with mem.denied := d.mem.denied && !v.getLsbD 1 }
  else if off = 0x004 then rwl 0x20004 byInstaller true (fun d => { d with mem.margin := BitVec.ofNat 16 v.toNat }) d
  else if off = 0x010 then (if makerActive d then { d with mem.arbSel := BitVec.ofNat 6 v.toNat } else d)
  else if off = 0x028 then memCtrClear v d
  else d

/-- The ranges of R275. -/
def defaultsOk (b p : Nat) : Bool :=
  b % 64 == 0 && decide (64 ≤ b) && decide (b ≤ 4096) && p % 64 == 0 && decide (64 ≤ p) && decide (p ≤ b)

/-- A write to the SERVE block. -/
def serveRegWrite (off : Nat) (v : W32) (d : Device) : Device :=
  let b := bitsOf v.toNat 16 13; let p := bitsOf v.toNat 0 13
  if off = 0x004 then
    rwl 0x50004 byInstaller (defaultsOk b p) (fun d => { d with serve.stepTokens := BitVec.ofNat 13 b, serve.prefillMin := BitVec.ofNat 13 p }) d
  else if off = 0x008 then rwl 0x50008 byInstaller true (fun d => { d with serve.slack := BitVec.ofNat 8 v.toNat }) d
  else if off = 0x028 then serveCtrClear v d
  else d

/-- A write to the DRAM block. -/
def dramRegWrite (off : Nat) (v : W32) (d : Device) : Device :=
  let hi := bitsOf v.toNat 8 8; let lo := bitsOf v.toNat 0 8; let w := bitsOf v.toNat 0 16
  if off = 0x000 then { d with dram.uncorr := d.dram.uncorr && !v.getLsbD 1, dram.corr := d.dram.corr && !v.getLsbD 0 }
  else if off = 0x008 then mapCfgWrite v d
  else if off = 0x00C then
    rwl 0x7000C byInstaller (decide (lo < hi) && decide (hi ≤ 128)) (fun d => { d with dram.high := BitVec.ofNat 8 hi, dram.low := BitVec.ofNat 8 lo }) d
  else if off = 0x010 then rwl 0x70010 byInstaller (decide (w ≤ 8760)) (fun d => { d with dram.hours := BitVec.ofNat 16 w }) d
  else if off = 0x014 then
    rwl 0x70014 byInstaller (decide (10 ≤ w) && decide (w ≤ 1000)) (fun d => { d with dram.period := BitVec.ofNat 16 w }) d
  else if off = 0x03C then dramCtrClear v d
  else d

/-- A write to a tile's status block. -/
def tileRegWrite (t off : Nat) (v : W32) (d : Device) : Device :=
  if tileCount d ≤ t then d
  else if off = 0x000 then
    (if tileHidden d t then d
     else onTile t (fun x => { x with xmis := x.xmis && !v.getLsbD 7, listErr := x.listErr && !v.getLsbD 6 }) d)
  else if off = 0x030 then tileCtrClear t v d
  else d

/-- One register write. -/
def regWrite (a : Nat) (v : W32) (d : Device) : Device :=
  let off := a % 65536
  if a < 0x10000 then devRegWrite off v d
  else if a < 0x20000 then cmdRegWrite off v d
  else if a < 0x30000 then memRegWrite off v d
  else if a < 0x40000 then fixRegWrite off v d
  else if a < 0x50000 then gaugeRegWrite off v d
  else if a < 0x60000 then serveRegWrite off v d
  else if a < 0x70000 then flashRegWrite off v d
  else if a < 0x80000 then dramRegWrite off v d
  else if a < 0x90000 then linkRegWrite off v d
  else if a < 0xA0000 then secRegWrite off v d
  else if a < 0xB0000 then pwrRegWrite off v d
  else if a < 0xC0000 then auditRegWrite off v d
  else if a < 0xD0000 then bootRegWrite off v d
  else if a < 0xE0000 then panelRegWrite off v d
  else if 0x100000 ≤ a ∧ a < 0x120000 then tileRegWrite ((a - 0x100000) / 0x1000) (a % 0x1000) v d
  else if 0x400000 ≤ a ∧ a < 0x404000 then (if v = 0 then d else knotSignal ((a - 0x400000) / 4) v.toNat d)
  else d

/-- The complete aligned words of a transaction to control space, in address order (R14). -/
def wordsWrite : Nat → Nat → List Byte → Device → Device
  | 0, _, _, d => d
  | fuel + 1, a, bs, d =>
    if bs.length < 4 then d
    else if a % 4 ≠ 0 then wordsWrite fuel (a + 1) (bs.drop 1) d
    else wordsWrite fuel (a + 4) (bs.drop 4) (regWrite a (word32 bs 0) d)

/-! ### The aperture (R33, R51, R203, R205) -/

/-- A fabric address that R33 names: no storage answers, and nothing is counted. -/
def noStorage (d : Device) (f : Nat) : Bool :=
  if f < commonsSize then false
  else if f < tileBase (tileCount d) then let t := (f - tileBase 0) / storeSize; d.fix.mask.getLsbD t
  else (channelOf f).isNone

/-- The open extent whose storage holds a fabric address: slot, index, buffer, extent and the byte's place in it. -/
def apertureExtent (d : Device) (f : Nat) : Option (Nat × Nat × Buffer × Extent × Nat) :=
  let t := d.host.apTenant.toNat
  if t = 0 ∨ t > 8 ∨ (partOf d t).isNone then none
  else (extentsOf (arenaOf d t)).findSome? fun (slot, i, b, e) =>
    match readBase e with
    | some base => if isOpen e ∧ base ≤ f ∧ f < base + e.size then some (slot, i, b, e, f - base) else none
    | none => none

/-- The keystream of R205 for `n` bytes from byte `j` of an extent. -/
def apStream (key : List Byte) (h i : Nat) (j n : Nat) : List Byte :=
  (List.range n).map fun k => byteAt (aes256 key (leBytes 4 h ++ leBytes 2 i ++ zeros 2 ++ leBytes 8 ((j + k) / 16))) ((j + k) % 16)

/-- K_ap of the aperture's tenant. -/
def apKey (d : Device) : Option (List Byte) :=
  let t := d.host.apTenant
  ((partOf d t.toNat).bind (·.cur)).map (kAp d t)

/-- What an aperture access meets at a fabric address. -/
inductive ApTarget where
  /-- R33, or the aperture is off. -/
  | nothing
  /-- Refused by R203. -/
  | denied
  | storage (slot i : Nat) (b : Buffer) (e : Extent) (j : Nat) (key : List Byte)

def apTarget (d : Device) (f : Nat) (write : Bool) : ApTarget :=
  if !d.host.apEnable || noStorage d f then .nothing
  else match apertureExtent d f, apKey d with
    | some (slot, i, b, e, j), some key => if write && (e.state == .outbound || isMounted d d.host.apTenant.toNat slot b.gen) then .denied else .storage slot i b e j key
    | _, _ => .denied

/-- The fabric address behind an aperture address. -/
def apFabric (d : Device) (a : Nat) : Nat := d.host.apBase.toNat + (a - 0x8000_0000)

/-- The byte that the host reads: ciphertext. -/
def apByte (d : Device) (a : Nat) : Byte × Bool :=
  match apTarget d (apFabric d a) false with
  | .nothing => (0, false)
  | .denied => (0, true)
  | .storage slot i b _ j key =>
    ((fabRead d (apFabric d a) 1).getD 0 0 ^^^ (apStream key (handleOf d.host.apTenant.toNat b.gen slot) i j 1).getD 0 0, false)

/-- The Uncorrectable block that an aperture read of a byte meets (R449). -/
def apBad (d : Device) (a : Nat) : Option Nat :=
  match apTarget d (apFabric d a) false with
  | .storage _ _ _ _ _ _ => badIn d (apFabric d a) 1
  | _ => none

/-- A transaction had bytes that R203 refuses: counted once. -/
def countDenied (denied : Bool) (d : Device) : Device :=
  if denied then { d with mem.denied := true, mem.denyCount := d.mem.denyCount + 1 } else d

/-- Aperture writes, extent by extent. -/
def apWrite : Nat → Nat → List Byte → Bool → Device → Bool × Device
  | 0, _, _, den, d => (den, d)
  | fuel + 1, a, bs, den, d =>
    if bs.isEmpty then (den, d)
    else match apTarget d (apFabric d a) true with
      | .nothing => apWrite fuel (a + 1) (bs.drop 1) den d
      | .denied => apWrite fuel (a + 1) (bs.drop 1) true d
      | .storage slot i b e j key =>
        let n := min bs.length (e.size - j)
        let t := d.host.apTenant.toNat
        let plain := ((bs.take n).zip (apStream key (handleOf t b.gen slot) i j n)).map fun (x, k) => x ^^^ k
        apWrite fuel (a + n) (bs.drop n) den (extWrite t slot i j plain d)

/-! ### Reads (R45, R46, R48) -/

/-- The bytes of a record (R71). -/
def recordBytes (r : Record) : List Byte :=
  leBytes 2 r.tag.toNat ++ leBytes 2 r.status.toNat ++ leBytes 4 (if r.bound then r.result.length else 0xFFFF_FFFF) ++ leBytes 8 r.wall.toNat

/-- The record that a slot holds: valid from the moment head passes it until tail passes it (R72). -/
def slotRecord (d : Device) (slot : Nat) : Option Record := d.cmd.ring[(slot + 2048 - d.cmd.tail.toNat % 2048) % 2048]?

/-- A read in progress: bytes so far, the word of control space last read, whether R203 refused a byte, and the Uncorrectable block that
it met last. -/
structure ReadRun where
  dev    : Device
  out    : List Byte := []
  word   : Option (Nat × Nat) := none
  denied : Bool := false
  bad    : Option Nat := none

/-- One byte of a READ. -/
def readByte (a : Nat) (r : ReadRun) : ReadRun :=
  let d := r.dev
  if a < 0x0100_0000 then
    let w := a / 4 * 4
    let (v, d) := match r.word with
      | some (x, v) => if x = w then (v, d) else readWord w d
      | none => readWord w d
    { r with dev := d, word := some (w, v), out := r.out ++ [BitVec.ofNat 8 (v / 256 ^ (a % 4))] }
  else if 0x0110_0000 ≤ a ∧ a < 0x0110_8000 then
    match slotRecord d ((a - 0x0110_0000) / 16) with
    | some x => { r with out := r.out ++ [byteAt (recordBytes x) (a % 16)] }
    | none => { r with dev := spend 1 d, out := r.out ++ [Config.freeByte d.freeCtr] }
  else if 0x0110_8000 ≤ a ∧ a < 0x0111_0000 then
    { r with out := r.out ++ [match selected d with | some x => byteAt x.result (a - 0x0110_8000) | none => 0] }
  else if 0x0200_0000 ≤ a ∧ a < 0x0201_0000 then { r with out := r.out ++ [inputByte d (a - 0x0200_0000)] }
  else if 0x0210_0000 ≤ a ∧ a < 0x0210_1000 then { r with out := r.out ++ [outputByte d (a - 0x0210_0000)] }
  else if 0x8000_0000 ≤ a then
    match apBad d a with
    | some k => { r with dev := if r.bad = some k then d else dramUncorrectable k srcMaint d, bad := some k, out := r.out ++ [0xFF] }
    | none =>
      let (b, den) := apByte d a
      { r with out := r.out ++ [b], denied := r.denied || den }
  else { r with out := r.out ++ [0] }

/-- The bytes of a READ in address order, wrapping at the top. -/
def readBytes : Nat → Nat → ReadRun → ReadRun
  | 0, _, r => r
  | n + 1, a, r => readBytes n ((a + 1) % 2 ^ 32) (readByte a r)

/-- Time in ns within which a READ's target has its first data, and whether it waits on a self-refresh exit besides (R45, R463). R45's table
names no time for an address that R48 maps to nothing: DESIGN CHOICE, the 80 ns of control space. -/
def readyTime (d : Device) (a : Nat) : Nat × Bool :=
  if a < 0x8000_0000 then (80, false)
  else match apTarget d (apFabric d a) false with
    | .storage _ _ _ _ _ _ => match channelOf (apFabric d a) with
      | some c => (700, (chanOf d c).selfRef)
      | none => (400, false)
    | _ => (80, false)

/-- The READ may be late: its latency, in CK periods of `ckPs` picoseconds, is shorter than its target's time. -/
def mayBeLate (d : Device) (a ckPs : Nat) : Bool :=
  let cycles := if a ≥ 0x8000_0000 then bitsOf d.host.xspiCfg.toNat 16 8 else bitsOf d.host.xspiCfg.toNat 8 5
  let (ns, waits) := readyTime d a
  decide (cycles * ckPs < ns * 1000) || waits


/-- A late READ (R45). -/
def lateRead (len : Nat) (d : Device) : Device :=
  setEvent evLateRead { d with
    host.dq := .data (List.replicate len 0xFF), host.late := true, host.lateCount := satAdd16 d.host.lateCount 1 }

/-- A READ of `len` bytes. -/
def readAt (addr len ckPs : Nat) (d : Device) : Device :=
  let may := mayBeLate d addr ckPs
  if may && Config.freeBit d.freeCtr then lateRead len (spend 1 d)
  else
    let r := readBytes len addr { dev := if may then spend 1 d else d }
    countDenied r.denied { r.dev with host.dq := .data r.out }


/-- READ (R43, R45): `ckPs` is the CK period. -/
def execRead (addr : W32) (len ckPs : Nat) (s : State) : Out := run (transact (readAt addr.toNat len ckPs)) s

/-! ### Writes (R46) -/

/-- A WRITE outside the command window, region by region. -/
def writeAt : Nat → Nat → List Byte → Bool → Device → Bool × Device
  | 0, _, _, den, d => (den, d)
  | fuel + 1, a, bs, den, d =>
    if bs.isEmpty then (den, d)
    else
      let top := if a < 0x0100_0000 then 0x0100_0000 else if a < 0x0200_0000 then 0x0200_0000 else if a < 0x0201_0000 then 0x0201_0000
        else if a < 0x8000_0000 then 0x8000_0000 else 2 ^ 32
      let n := min bs.length (top - a)
      let part := bs.take n
      let (den, d) :=
        if a < 0x0100_0000 then (den, wordsWrite (n + 1) a part d)
        else if 0x0200_0000 ≤ a ∧ a < 0x0201_0000 then (den, windowWrite (a - 0x0200_0000) part d)
        else if 0x8000_0000 ≤ a then apWrite n a part den d
        else (den, d)
      writeAt fuel ((a + n) % 2 ^ 32) (bs.drop n) den d

/-- A WRITE transaction: a packet submission where it starts in the command window (R46). -/
def writeTransaction (addr : Nat) (bs : List Byte) (d : Device) : Device :=
  if 0x0100_0000 ≤ addr ∧ addr < 0x0101_0000 then submitOn .host (decide (addr = 0x0100_0000)) bs d
  else
    let (den, d) := writeAt (bs.length + 1) addr bs false d
    countDenied den d

/-- WRITE. -/
def execWrite (addr : W32) (data : List Byte) (s : State) : Out := run (transact (writeTransaction addr.toNat data)) s

/-! ### The other instructions of the port (R43, R44, R47, R559) -/

/-- READ_ID: DEV_IDENT, then zeros. -/
def execReadId (len : Nat) (s : State) : Out := run (transact fun d =>
  { d with host.dq := .data (padTo len (leBytes 4 (devIdent d))) }) s

/-- RESET_ENABLE. -/
def execResetEnable (s : State) : Out := run (fun d => if hostAlive d then { d with host.resetEnabled := true } else portOff d) s

/-- RESET_PORT: effective directly after RESET_ENABLE. -/
def execResetPort (s : State) : Out := run (fun d =>
  if !hostAlive d then portOff d
  else if d.host.resetEnabled then { noEnable d with host.xspiCfg := 0x00A01401 }
  else d) s

/-- The instructions of the port (R43). -/
inductive PortInstr where
  | read
  | write
  | readId
  | resetEnable
  | resetPort
deriving DecidableEq, Repr

/-- The instruction of a code in 1S-1S-1S mode. -/
def instr1S (c : Byte) : Option PortInstr :=
  if c = 0x0C then some .read
  else if c = 0x12 then some .write
  else if c = 0x9F then some .readId
  else if c = 0x66 then some .resetEnable
  else if c = 0x99 then some .resetPort
  else none

/-- The instruction of two command bytes in 8D-8D-8D mode: the second is the complement of the first. -/
def instr8D (c0 c1 : Byte) : Option PortInstr :=
  if c1 ≠ ~~~c0 then none
  else if c0 = 0xEE then some .read
  else if c0 = 0x12 then some .write
  else if c0 = 0x9F then some .readId
  else if c0 = 0x66 then some .resetEnable
  else if c0 = 0x99 then some .resetPort
  else none

/-- The instruction that the command bytes of a transaction spell in the present mode. -/
def portInstr (d : Device) (c0 c1 : Byte) : Option PortInstr := if d.host.xspiCfg.getLsbD 24 then instr8D c0 c1 else instr1S c0

/-- The command bytes are an instruction of R43. -/
def knownInstr (d : Device) (c0 c1 : Byte) : Bool := (portInstr d c0 c1).isSome

/-- BAD_INSTR: a command outside the table, or whose bytes are no complements in 8D mode, is ignored. -/
def execBadInstr (c0 c1 : Byte) (s : State) : Out := run (fun d =>
  if !hostAlive d then portOff d
  else if knownInstr d c0 c1 then d
  else { noEnable d with host.dq := .highZ, host.badInstr := true }) s

/-- REGISTER_WRITE: a WRITE of one aligned word of control space. -/
def execRegisterWrite (addr v : W32) (s : State) : Out := run (transact fun d =>
  if addr.toNat < 0x0100_0000 ∧ addr.toNat % 4 = 0 then regWrite addr.toNat v d else d) s

/-- LOW_WORD_READ (R15): a READ of the low word of a 64-bit register, in time. -/
def execLowWordRead (addr : W32) (s : State) : Out := run (transact fun d =>
  if isLow addr.toNat then
    let (v, d) := readWord addr.toNat d
    { d with host.dq := .data (leBytes 4 v) }
  else d) s

/-- DEV_XSPI_CFG_WRITE. -/
def execDevXspiCfgWrite (v : W32) (s : State) : Out := run (transact (xspiWrite v)) s

/-- CMD_CQ_TAIL_WRITE. -/
def execCmdCqTailWrite (v : W32) (s : State) : Out := run (transact (tailWrite v)) s

/-- CMD_RESULT_SEL_WRITE. -/
def execCmdResultSelWrite (v : W32) (s : State) : Out := run (transact (selWrite v)) s

/-- ALERT_HOLDOFF_EXPIRY (R77): the oldest pending record reaches its age. -/
def execAlertHoldoffExpiry (s : State) : Out := run (fun d =>
  let hold := bitsOf d.cmd.alertCtrl.toNat 8 10
  match d.cmd.ring with
  | r :: _ => if coreAlive d ∧ hold ≠ 0 then advanceTo (r.at_ + hold * 1000) d else d
  | [] => d) s

end Sys2Proof.Machine
end

