-- ==== Sys2Proof/Machine/Freeze.lean ====
section
/-! DEFINITION. The freeze and the test port with its read-out chain (16_determinism_audit R501 to R506). -/

namespace Sys2Proof.Machine

/-! ### The freeze (R501, R502) -/

/-- Tiles with a pass in flight. -/
def tilesInFlight (d : Device) : Nat := (d.tiles.filter fun x => !x.2.flight.isEmpty).length

/-- Every channel enters self-refresh as it stands, its write queue with it (R501). -/
def channelsStop (d : Device) : Device := (List.range 32).foldl (fun d c => onChan c (fun x => { x with selfRef := true }) d) d

/-- What FREEZE does: RDY low, DRAM in self-refresh, everything but Onyx stopped in place, and an entry in Onyx's buffer. -/
def enterFreeze (d : Device) : Device :=
  let d := channelsStop d
  let n := tilesInFlight d
  let d := { d with
    boot.frozen := some { tilesBusy := n, parts := BitVec.ofNat 8 (partMask d fun _ => true) }
    fix.rdy := false, fix.run := none, fix.plan := none, host.dq := .highZ }
  ledgerEvent 0x0033 (leBytes 4 1 ++ leBytes 4 n) d

/-- FREEZE: the pin is asserted. -/
def execFreeze (s : State) : Out := run (fun d => if isFrozen d then d else enterFreeze d) s

/-- FREEZE_RELEASE (R502): a fault reset starts. -/
def execFreezeRelease (env : BootEnv) (s : State) : Out := run (fun d =>
  if isFrozen d then resetAndStart kindFault 2 env { d with boot.frozen := none } else d) s

/-! ### Tile images (R505) -/

/-- Bytes of one column of a list of words, zeros where nothing is stored. -/
def wordBytes (ws : List W16) (n : Nat) : List Byte := leBytes 2 (ws.getD n 0).toNat

/-- The 16 bytes of cell (k, n). -/
def cellBytes (a : ArrayState) (k n : Nat) : List Byte :=
  let (acc, p) := (a.acc.getD n []).getD k (0, 0)
  wordBytes (a.cw.getD n []) k ++ wordBytes (a.nw.getD n []) k ++ leBytes 4 (patternOf 32 p) ++ leBytes 5 (patternOf 40 acc) ++ zeros 3

/-- The 577 bytes of a carry bank entry. -/
def carryBytes (a : ArrayState) (e : Nat) : List Byte :=
  match a.carry.bind fun c => c.rows[e]? with
  | none => []
  | some r =>
    (List.range 64).flatMap (fun n => let (acc, p) := r.cols.getD n (0, 0)
      leBytes 5 (patternOf 40 acc) ++ leBytes 4 (patternOf 32 p)) ++ [BitVec.ofNat 8 (patternOf 8 r.xr)]

/-- A byte of an array's image. -/
def arrayByte (a : ArrayState) (off : Nat) : Byte :=
  if off < 0x1_0000 then byteAt (cellBytes a (off / 1024) (off / 16 % 64)) (off % 16)
  else if off < 0x1_0080 then byteAt (wordBytes a.scales ((off - 0x1_0000) / 2)) (off % 2)
  else if off < 0x1_0100 then byteAt (wordBytes (a.pending.getD []) ((off - 0x1_0080) / 2)) (off % 2)
  else if off < 0x1_0300 then
    let n := off / 2 % 64
    let w : W16 := match (off - 0x1_0100) / 128 with
      | 0 => (a.cs.getD n (0, 0)).1
      | 1 => (a.ns.getD n (0, 0)).1
      | 2 => (a.cs.getD n (0, 0)).2
      | _ => (a.ns.getD n (0, 0)).2
    byteAt (leBytes 2 w.toNat) (off % 2)
  else if 0x2_0000 ≤ off ∧ off < 0x3_0000 then byteAt (carryBytes a ((off - 0x2_0000) / 1024)) (off % 1024)
  else 0

/-- A byte of the image of the sliver cores. -/
def sliverByte (t : TileState) (off : Nat) : Byte :=
  if off < 0x2_0000 then
    byteAt (wordBytes (SMap.get [] t.tregs (off / 8192 * 64 + off % 8192 / 128)) (off % 128 / 2)) (off % 2)
  else if off < 0x2_0400 then SMap.get 0 t.texp (off - 0x2_0000)
  else if off < 0x2_0C00 then
    byteAt (leBytes 4 (SMap.get 0 t.va ((off - 0x2_0400) / 4)).toNat) (off % 4)
  else if 0x3_0000 ≤ off ∧ off < 0x4_0000 then
    let c := (off - 0x3_0000) / 512; let l := off % 512 / 32; let i := off % 32 / 4
    byteAt (leBytes 4 (SMap.get 0 t.lanes ((c / 2 * 64 + (32 * (c % 2) + 24 + i)) * 16 + l)).toNat) (off % 4)
  else 0

/-- A byte of region 2. -/
def tileByte (d : Device) (a : Nat) : Byte :=
  let t := bitsOf a 32 5; let unit := bitsOf a 28 4; let off := a % 2 ^ 28
  if tileCount d ≤ t ∨ a ≥ 2 ^ 37 then 0
  else if unit < 4 then arrayByte (arrayOf (tileOf d t) unit) off
  else if unit = 4 then sliverByte (tileOf d t) off
  else 0

/-! ### The read-out chain (R503, R504, R506) -/

/-- A byte of fabric space held by a partition: its tile store, commons bank or DRAM channel. -/
def heldFabric (d : Device) (f : Nat) : Bool :=
  d.sec.parts.any fun x =>
    if f < commonsSize then x.2.commonsMask.getLsbD (f / bankSize)
    else if f < tileBase 32 then x.2.tileMask.getLsbD ((f - tileBase 0) / storeSize)
    else match channelOf f with
      | some c => x.2.dramMask.getLsbD c
      | none => false

/-- The address is of the tenant class. -/
def tenantClass (d : Device) (region a : Nat) : Bool :=
  if region = 0 then heldFabric d a
  else if region = 2 then (tileOf d (bitsOf a 32 5)).tenant != 0
  else if region = 3 then (match d.boot.frozen with | some f => f.parts != 0 | none => false)
  else false

/-- The 8 bytes at a region address: zeros out of range; the command processor's SRAM has no stated contents. -/
def regionBytes (d : Device) (region a : Nat) : List Byte :=
  if region = 0 then
    (if a + 8 ≤ tileBase (tileCount d) ∨ (channelOf a).isSome then fabRead d a 8 else zeros 8)
  else if region = 1 then (if a + 8 ≤ 2 ^ 24 then leBytes 4 (regValue d a) ++ leBytes 4 (regValue d (a + 4)) else zeros 8)
  else if region = 2 then (List.range 8).map fun i => tileByte d (a + i)
  else if region = 3 then (if a + 8 ≤ 0x40_0000 then freeBytes 8 d else zeros 8)
  else if region = 4 then (List.range 8).map fun i =>
    if a + i < 0x1_0000 then inputByte d (a + i) else if a + i < 0x1_1000 then outputByte d (a + i - 0x1_0000) else 0
  else zeros 8

/-- A DRAM read-out takes its channel out of self-refresh, which it re-enters after 1 ms (R504). -/
def wakeChannel (region a : Nat) (d : Device) : Device :=
  if region ≠ 0 then d
  else match channelOf a with
    | some c => onChan c (fun x => { x with selfRef := false, wokenAt := some d.clock }) d
    | none => d

/-- RO_DATA: the 8 bytes where R506 allows them, otherwise zeros; then the address rises by 8. -/
def readOut (d : Device) : Device :=
  let region := d.boot.roReg.toNat; let a := d.boot.roAddr
  let allowed := if tenantClass d region a then tenantOpen d else deviceOpen d
  let bytes := if allowed then regionBytes d region a else zeros 8
  let d := if allowed then wakeChannel region a (if region = 3 ∨ region = 1 then spend 8 d else d) else d
  { d with boot.tdo := bytes, boot.roAddr := (a + 8) % 2 ^ 44 }

/-- Load an instruction of the test port, and shift out its data register. -/
def tapLoad (i : TapInstr) (bytes : List Byte) (d : Device) : Device := { d with boot.tap := i, boot.tdo := bytes }

/-- BYPASS: a register of one bit, which captures 0. -/
def tapBypass (d : Device) : Device := tapLoad .bypass [0] d

/-- TEST_LOGIC_RESET: the instruction is IDCODE. -/
def execTestLogicReset (s : State) : Out := run (fun d => { d with boot.tap := .idcode }) s

/-- EXTEST: the boundary register while frozen with the maker role active, otherwise BYPASS. -/
def execExtest (s : State) : Out := run (fun d => if isFrozen d && makerActive d then tapLoad .extest Config.boundary d else tapBypass d) s

/-- The 32 bits of IDCODE. -/
def idcodeValue (d : Device) : Nat := let o := d.boot.otp; o.stepping.toNat * 2 ^ 28 + o.part.toNat * 2 ^ 12 + 0x2D9 * 2 + 1

/-- IDCODE. -/
def execIdcode (s : State) : Out := run (fun d => tapLoad .idcode (leBytes 4 (idcodeValue d)) d) s

/-- SAMPLE_PRELOAD: the boundary register. -/
def execSamplePreload (s : State) : Out := run (fun d => tapLoad .sample Config.boundary d) s

/-- RO_ADDR: region and address; the address is taken down to a multiple of 8. -/
def execRoAddr (v : W64) (s : State) : Out := run (fun d =>
  { tapLoad .roAddr (leBytes 8 (d.boot.roReg.toNat * 2 ^ 56 + d.boot.roAddr)) d with
    boot.roReg := BitVec.ofNat 8 (bitsOf v.toNat 56 8), boot.roAddr := bitsOf v.toNat 0 44 / 8 * 8 }) s

/-- RO_DATA. -/
def execRoData (s : State) : Out := run (fun d => readOut { d with boot.tap := .roData }) s

/-- RO_STATUS. -/
def execRoStatus (s : State) : Out := run (fun d =>
  tapLoad .roStatus (leBytes 4 (bitAt (tenantOpen d) 2 + bitAt (deviceOpen d) 1 + bitAt (isFrozen d) 0)) d) s

/-- BYPASS, and every code that the port does not support. -/
def execBypass (s : State) : Out := run tapBypass s

end Sys2Proof.Machine
end

