-- ==== Sys2Proof/Machine/Transfers.lean ====
section
/-! DEFINITION. The end of an arbitrated transfer from DRAM, by what it carries (06_memory_tiers R199, R200, R208, R216, R221; R35, R227,
R243, R449). -/

namespace Sys2Proof.Machine

/-- Blocks of 64 bytes that a piece starts in: the one an error is reported at. -/
def blockAt (a : Nat) : Nat := a / 64 * 64

/-- A piece of a window's block has come: once the block is whole it is decoded and placed (R208, R227, R232). A burst of a step that has
gone finds no slot. -/
def landWindow (r : ArbReq) (serial k i : Nat) (bad : Bool) (d : Device) : Device :=
  if !d.mem.windows.any fun w => w.serial == serial then d
  else
    let got := fabRead d r.addr r.len
    let d := onWin serial (fun w => { w with
      left := w.left - 1
      blocks := w.blocks.modify k fun f => { f with parts := f.parts.modify i fun x => (x.1, x.2.1, some got) } }) d
    if bad then failStep r.tenant r.job stInternal d
    else match (d.mem.windows.find? fun w => w.serial == serial).bind fun w => w.blocks[k]? with
      | some f =>
        if !f.whole then d
        else
          let (ok, d) := placeBlock r.who f d
          if ok then slotCheck r.tenant r.job d else failStep r.tenant r.job stCodecError d
      | none => d

/-- A packet's transfer has ended: the count of those that have not, and what follows the last. -/
def endOne (ref : Ref) (k : Packet → Device → Device) (d : Device) : Device :=
  let d := onPacket ref (fun q => { q with left := q.left - 1 }) d
  match findPacket d ref with
  | some p => if p.left = 0 then k p d else d
  | none => d

/-- A packet's operation ends with INTERNAL, and its other transfers are withdrawn (R449). -/
def failTransfers (p : Packet) (d : Device) : Device :=
  refuse p stInternal (withdrawReqs (fun r => match r.load with
    | .copy ref _ _ => ref == refOf p
    | .source ref => ref == refOf p
    | _ => false) d)

/-- A burst of MEM_COPY has come and is written; where the destination is on the host tier now, the burst waits and starts again (R202,
R221). -/
def landCopy (r : ArbReq) (ref : Ref) (slot off : Nat) (bad : Bool) (d : Device) : Device :=
  let t := r.tenant.toNat
  match findPacket d ref, Assoc.find (arenaOf d t).bufs slot with
  | some p, some b =>
    if bad then failTransfers p d
    else if hostHeld b off r.len then raiseAll [r] (holdUnit (.packet ref) t [(t, slot, b, off, r.len)] d)
    else endOne ref complete (bufWrite t slot b off (fabRead d r.addr r.len) (dropHold (.packet ref) d))
  | _, _ => d

/-- An operation whose sources have come goes on (R243). -/
def resumeOp (p : Packet) (d : Device) : Device :=
  if p.hdr.opcode = 0x0300 then convert p p.plain d
  else if p.hdr.opcode = 0x0301 then wpack p p.plain d
  else d

/-- A source read of CONVERT or WPACK has ended. -/
def landSource (ref : Ref) (bad : Bool) (d : Device) : Device :=
  match findPacket d ref with
  | some p => if bad then failTransfers p d else endOne ref resumeOp d
  | none => d

/-- A source read of a flash operation has ended: the die may take the operation up after the last (R35). -/
def landFlash (order : Nat) (bad : Bool) (d : Device) : Device :=
  match d.flash.jobs.find? fun j => j.order == order with
  | none => d
  | some j =>
    if bad then
      serveDie (jobDie j) (endFlash j stInternal [] (withdrawReqs (fun r => match r.load with | .flashSource n => n == order | _ => false) d))
    else serveDie (jobDie j) (onFlashJob order (fun j => { j with sources := j.sources - 1 }) d)

/-- A promotion that met an Uncorrectable block: the extent stays in D, and a MEM_MIGRATE of its buffer that waits ends INTERNAL (R449). -/
def failPromotion (t slot gen i : Nat) (d : Device) : Device :=
  match extentOf d t slot i with
  | none => d
  | some e =>
    let d := toScrub e.copy e.size (onExtent t slot i (fun e => { e with state := .d, copy := none, place := 0xFF }) d)
    (d.cmd.flight.filter fun p => p.held && decide (p.hdr.opcode = 0x0202 ∧ p.hdr.tenant.toNat = t ∧ field p.plain 0 4 = handleOf t gen slot)).foldl
      (fun d p => refuse p stInternal d) d

/-- The copier of a promotion has read a block, and goes on to the next (R199). -/
def landPromotion (r : ArbReq) (slot gen i k : Nat) (bad : Bool) (d : Device) : Device :=
  let t := r.tenant.toNat
  match Assoc.find (arenaOf d t).bufs slot, extentOf d t slot i with
  | some b, some e =>
    if b.gen ≠ gen ∨ e.state ≠ .promoting then d
    else if bad then failPromotion t slot gen i d
    else if (k + 1) * block4k < e.size then readBlock r.who t slot gen i (k + 1) e d
    else d
  | _, _ => d

/-- A read of a step has ended: the layer may go on after the last. -/
def landStep (r : ArbReq) (serial : Nat) (bad : Bool) (d : Device) : Device :=
  if !(jobOf d r.tenant r.job).any fun j => j.step.any fun st => st.serial == serial then d
  else
    let d := onJob r.tenant r.job (fun j => { j with step := j.step.map fun st => { st with loads := st.loads - 1 } }) d
    if bad then failStep r.tenant r.job stInternal d else slotCheck r.tenant r.job d

/-- What a transfer from DRAM brings. -/
def landed (r : ArbReq) (bad : Bool) (d : Device) : Device :=
  match r.load with
  | .window serial k i => landWindow r serial k i bad d
  | .copy ref slot off => landCopy r ref slot off bad d
  | .source ref => landSource ref bad d
  | .flashSource order => landFlash order bad d
  | .promote slot gen i k => landPromotion r slot gen i k bad d
  | .step serial => landStep r serial bad d
  | .flash _ => d

/-- TRANSFER_END (R216, R449): the owner's transfer ends, its request drops, and its data lands, read from the copy that it began on (R200).
A codeword's end is FLASH_CODEWORD_TRANSFER. -/
def execTransferEnd (point : BitVec 6) (ecc : EccClass) (s : State) : Out := run (fun d =>
  match (arbOf d point.toNat).owner with
  | none => d
  | some r =>
    if !coreAlive d || (match r.load with | .flash _ => true | _ => false) then d
    else
      let cls := if (badIn d r.addr r.len).isSome then .uncorrectable else ecc
      let block := (badIn d r.addr r.len).getD (blockAt r.addr)
      landed r (cls == .uncorrectable) (dramRead block srcStream cls (onArb point.toNat (fun a => { a with owner := none }) d))) s

end Sys2Proof.Machine
end

