-- ==== Sys2Proof/Machine/Dispatch.lean ====
section
/-! DEFINITION. One arm per command: its effect on everything but the queue. -/

namespace Sys2Proof.Machine

def exec (i : Instr) (s : State) : Host.Outcome State Fault Refusal :=
  match i with
  | .read addr len ckPs => Sys2Proof.Machine.execRead addr len ckPs s
  | .write addr data => Sys2Proof.Machine.execWrite addr data s
  | .readId len => Sys2Proof.Machine.execReadId len s
  | .resetEnable => Sys2Proof.Machine.execResetEnable s
  | .resetPort => Sys2Proof.Machine.execResetPort s
  | .badInstr c0 c1 => Sys2Proof.Machine.execBadInstr c0 c1 s
  | .packetSubmit addr bytes => Sys2Proof.Machine.execPacketSubmit addr bytes s
  | .badOpcode r => Sys2Proof.Machine.execBadOpcode r s
  | .registerWrite addr v => Sys2Proof.Machine.execRegisterWrite addr v s
  | .lowWordRead addr => Sys2Proof.Machine.execLowWordRead addr s
  | .devXspiCfgWrite v => Sys2Proof.Machine.execDevXspiCfgWrite v s
  | .cmdCqTailWrite v => Sys2Proof.Machine.execCmdCqTailWrite v s
  | .cmdResultSelWrite v => Sys2Proof.Machine.execCmdResultSelWrite v s
  | .alertHoldoffExpiry => Sys2Proof.Machine.execAlertHoldoffExpiry s
  | .nop r => Sys2Proof.Machine.execNop r s
  | .identify r => Sys2Proof.Machine.execIdentify r s
  | .echo r => Sys2Proof.Machine.execEcho r s
  | .tagQuery r => Sys2Proof.Machine.execTagQuery r s
  | .reset r => Sys2Proof.Machine.execReset r s
  | .resetRecordTimeout => Sys2Proof.Machine.execResetRecordTimeout s
  | .matmul t => Sys2Proof.Machine.execMatmul t s
  | .conv t => Sys2Proof.Machine.execConv t s
  | .score t => Sys2Proof.Machine.execScore t s
  | .passListEnd t => Sys2Proof.Machine.execPassListEnd t s
  | .passComplete t => Sys2Proof.Machine.execPassComplete t s
  | .tileCtrClearWrite t v => Sys2Proof.Machine.execTileCtrClearWrite t v s
  | .arrayDomainIdleOff t a => Sys2Proof.Machine.execArrayDomainIdleOff t a s
  | .stitch t => Sys2Proof.Machine.execStitch t s
  | .reduce t => Sys2Proof.Machine.execReduce t s
  | .load t => Sys2Proof.Machine.execLoad t s
  | .store t => Sys2Proof.Machine.execStore t s
  | .vectorWait t => Sys2Proof.Machine.execVectorWait t s
  | .vectorEnd t => Sys2Proof.Machine.execVectorEnd t s
  | .memAlloc r => Sys2Proof.Machine.execMemAlloc r s
  | .memFree r => Sys2Proof.Machine.execMemFree r s
  | .memMigrate r => Sys2Proof.Machine.execMemMigrate r s
  | .memOpen r => Sys2Proof.Machine.execMemOpen r s
  | .memClose r => Sys2Proof.Machine.execMemClose r s
  | .memSettle r => Sys2Proof.Machine.execMemSettle r s
  | .memCopy r => Sys2Proof.Machine.execMemCopy r s
  | .memFlush r => Sys2Proof.Machine.execMemFlush r s
  | .memQuery r => Sys2Proof.Machine.execMemQuery r s
  | .memArenaInfo r => Sys2Proof.Machine.execMemArenaInfo r s
  | .promotionComplete h ext => Sys2Proof.Machine.execPromotionComplete h ext s
  | .evictionComplete h ext => Sys2Proof.Machine.execEvictionComplete h ext s
  | .scrubComplete => Sys2Proof.Machine.execScrubComplete s
  | .memCtrClearWrite v => Sys2Proof.Machine.execMemCtrClearWrite v s
  | .windowFetch tenant job t => Sys2Proof.Machine.execWindowFetch tenant job t s
  | .arbiterGrant point => Sys2Proof.Machine.execArbiterGrant point s
  | .transferEnd point ecc => Sys2Proof.Machine.execTransferEnd point ecc s
  | .layerDeadlineMiss tenant job => Sys2Proof.Machine.execLayerDeadlineMiss tenant job s
  | .atomicPartialAdd t dest row => Sys2Proof.Machine.execAtomicPartialAdd t dest row s
  | .convert r => Sys2Proof.Machine.execConvert r s
  | .wpack r => Sys2Proof.Machine.execWpack r s
  | .skeinMount r => Sys2Proof.Machine.execSkeinMount r s
  | .skeinUnmount r => Sys2Proof.Machine.execSkeinUnmount r s
  | .skeinInfo r => Sys2Proof.Machine.execSkeinInfo r s
  | .serveJobOpen r => Sys2Proof.Machine.execServeJobOpen r s
  | .serveJobClose r => Sys2Proof.Machine.execServeJobClose r s
  | .serveSubmit r => Sys2Proof.Machine.execServeSubmit r s
  | .serveCancel r => Sys2Proof.Machine.execServeCancel r s
  | .seqFork r => Sys2Proof.Machine.execSeqFork r s
  | .seqTruncate r => Sys2Proof.Machine.execSeqTruncate r s
  | .seqRelease r => Sys2Proof.Machine.execSeqRelease r s
  | .serveQuery r => Sys2Proof.Machine.execServeQuery r s
  | .serveBaseShare r => Sys2Proof.Machine.execServeBaseShare r s
  | .stepStart tiles => Sys2Proof.Machine.execStepStart tiles s
  | .parkLimitExpiry tenant tag => Sys2Proof.Machine.execParkLimitExpiry tenant tag s
  | .layerQueue tenant job lists => Sys2Proof.Machine.execLayerQueue tenant job lists s
  | .stepSample tenant job logits drafts rows => Sys2Proof.Machine.execStepSample tenant job logits drafts rows s
  | .serveCtrClearWrite v => Sys2Proof.Machine.execServeCtrClearWrite v s
  | .fixReserve r => Sys2Proof.Machine.execFixReserve r s
  | .fixLoad r => Sys2Proof.Machine.execFixLoad r s
  | .fixArm r => Sys2Proof.Machine.execFixArm r s
  | .fixArmCheckDone dt => Sys2Proof.Machine.execFixArmCheckDone dt s
  | .fixDisarm r => Sys2Proof.Machine.execFixDisarm r s
  | .trig => Sys2Proof.Machine.execTrig s
  | .answerCycle => Sys2Proof.Machine.execAnswerCycle s
  | .frameWrite off bytes => Sys2Proof.Machine.execFrameWrite off bytes s
  | .frameCommit buf seq len => Sys2Proof.Machine.execFrameCommit buf seq len s
  | .fixRdyClrWrite v => Sys2Proof.Machine.execFixRdyClrWrite v s
  | .gaugeWallSet r => Sys2Proof.Machine.execGaugeWallSet r s
  | .wallSetPpsTimeout => Sys2Proof.Machine.execWallSetPpsTimeout s
  | .gaugeCfgWrite addr v => Sys2Proof.Machine.execGaugeCfgWrite addr v s
  | .rotorEdge dt a b => Sys2Proof.Machine.execRotorEdge dt a b s
  | .rotorZ => Sys2Proof.Machine.execRotorZ s
  | .rotorIdleTimeout => Sys2Proof.Machine.execRotorIdleTimeout s
  | .gridEdge dt => Sys2Proof.Machine.execGridEdge dt s
  | .gridEdgeTimeout => Sys2Proof.Machine.execGridEdgeTimeout s
  | .gridHoldoverTimeout => Sys2Proof.Machine.execGridHoldoverTimeout s
  | .ppsEdge dt => Sys2Proof.Machine.execPpsEdge dt s
  | .ppsTimeout => Sys2Proof.Machine.execPpsTimeout s
  | .gaugeSchedAdd r => Sys2Proof.Machine.execGaugeSchedAdd r s
  | .gaugeSchedRemove r => Sys2Proof.Machine.execGaugeSchedRemove r s
  | .gaugeSchedQuery r => Sys2Proof.Machine.execGaugeSchedQuery r s
  | .schedFixedRun entry ticks ns => Sys2Proof.Machine.execSchedFixedRun entry ticks ns s
  | .schedKnot entry ticks ns => Sys2Proof.Machine.execSchedKnot entry ticks ns s
  | .schedSubmit entry ticks ns => Sys2Proof.Machine.execSchedSubmit entry ticks ns s
  | .knotAlloc r => Sys2Proof.Machine.execKnotAlloc r s
  | .knotFree r => Sys2Proof.Machine.execKnotFree r s
  | .knotSignal r => Sys2Proof.Machine.execKnotSignal r s
  | .knotWait r => Sys2Proof.Machine.execKnotWait r s
  | .knotWaitTimeout r => Sys2Proof.Machine.execKnotWaitTimeout r s
  | .knotRead r => Sys2Proof.Machine.execKnotRead r s
  | .knotSet r => Sys2Proof.Machine.execKnotSet r s
  | .knotWindowWrite k n => Sys2Proof.Machine.execKnotWindowWrite k n s
  | .linkTrainStart x => Sys2Proof.Machine.execLinkTrainStart x s
  | .bitLockTimeout p w => Sys2Proof.Machine.execBitLockTimeout p w s
  | .linkTrainTimeout p => Sys2Proof.Machine.execLinkTrainTimeout p s
  | .linkUp p x => Sys2Proof.Machine.execLinkUp p x s
  | .linkSignalLoss p => Sys2Proof.Machine.execLinkSignalLoss p s
  | .linkLockLoss p => Sys2Proof.Machine.execLinkLockLoss p s
  | .flitReceive p flit => Sys2Proof.Machine.execFlitReceive p flit s
  | .replayTimer p => Sys2Proof.Machine.execReplayTimer p s
  | .reassemblyTimeout src msg => Sys2Proof.Machine.execReassemblyTimeout src msg s
  | .controlMessage src c => Sys2Proof.Machine.execControlMessage src c s
  | .epochNotice m => Sys2Proof.Machine.execEpochNotice m s
  | .epochAck m => Sys2Proof.Machine.execEpochAck m s
  | .workMessage m w sites lists => Sys2Proof.Machine.execWorkMessage m w sites lists s
  | .dataMessage m t x coded => Sys2Proof.Machine.execDataMessage m t x coded s
  | .resultMessage m body => Sys2Proof.Machine.execResultMessage m body s
  | .knotMessage m knot n => Sys2Proof.Machine.execKnotMessage m knot n s
  | .withdrawMessage m tag rows => Sys2Proof.Machine.execWithdrawMessage m tag rows s
  | .migrateMessage m seq committed pages => Sys2Proof.Machine.execMigrateMessage m seq committed pages s
  | .deviceLost id => Sys2Proof.Machine.execDeviceLost id s
  | .managerLost => Sys2Proof.Machine.execManagerLost s
  | .linkPodCfg r => Sys2Proof.Machine.execLinkPodCfg r s
  | .linkPlace r => Sys2Proof.Machine.execLinkPlace r s
  | .linkQuery r => Sys2Proof.Machine.execLinkQuery r s
  | .linkPnCfgWrite p v => Sys2Proof.Machine.execLinkPnCfgWrite p v s
  | .linkCtrClearWrite v => Sys2Proof.Machine.execLinkCtrClearWrite v s
  | .secSessionChallenge r => Sys2Proof.Machine.execSecSessionChallenge r s
  | .challengeExpiry c => Sys2Proof.Machine.execChallengeExpiry c s
  | .secSessionOpen r => Sys2Proof.Machine.execSecSessionOpen r s
  | .secSessionClose r => Sys2Proof.Machine.execSecSessionClose r s
  | .sessionIdleTimeout => Sys2Proof.Machine.execSessionIdleTimeout s
  | .networkLossTimeout => Sys2Proof.Machine.execNetworkLossTimeout s
  | .secCredEnrol r => Sys2Proof.Machine.execSecCredEnrol r s
  | .secCredRevoke r => Sys2Proof.Machine.execSecCredRevoke r s
  | .secPartCreate r => Sys2Proof.Machine.execSecPartCreate r s
  | .secKeyLoad r => Sys2Proof.Machine.execSecKeyLoad r s
  | .secKeyRotate r => Sys2Proof.Machine.execSecKeyRotate r s
  | .secPartRemove r => Sys2Proof.Machine.execSecPartRemove r s
  | .removalScrub tenant => Sys2Proof.Machine.execRemovalScrub tenant s
  | .removalFlash tenant => Sys2Proof.Machine.execRemovalFlash tenant s
  | .removalConfirm tenant => Sys2Proof.Machine.execRemovalConfirm tenant s
  | .secPartInfo r => Sys2Proof.Machine.execSecPartInfo r s
  | .secPodKey r => Sys2Proof.Machine.execSecPodKey r s
  | .secOpal r => Sys2Proof.Machine.execSecOpal r s
  | .secLedgerRead r => Sys2Proof.Machine.execSecLedgerRead r s
  | .secLedgerTrim r => Sys2Proof.Machine.execSecLedgerTrim r s
  | .secCert r => Sys2Proof.Machine.execSecCert r s
  | .keySwitchChange inst serv => Sys2Proof.Machine.execKeySwitchChange inst serv s
  | .arpRequest ip => Sys2Proof.Machine.execArpRequest ip s
  | .meuraSegment srcIp srcPort dstPort datagram => Sys2Proof.Machine.execMeuraSegment srcIp srcPort dstPort datagram s
  | .meuraReassemblyTimeout => Sys2Proof.Machine.execMeuraReassemblyTimeout s
  | .otherFrame => Sys2Proof.Machine.execOtherFrame s
  | .flashRead r => Sys2Proof.Machine.execFlashRead r s
  | .flashProgram r => Sys2Proof.Machine.execFlashProgram r s
  | .flashErase r => Sys2Proof.Machine.execFlashErase r s
  | .flashVerify r => Sys2Proof.Machine.execFlashVerify r s
  | .flashMargin r => Sys2Proof.Machine.execFlashMargin r s
  | .flashBlockInfo r => Sys2Proof.Machine.execFlashBlockInfo r s
  | .flashInfo r => Sys2Proof.Machine.execFlashInfo r s
  | .flashOtpRead r => Sys2Proof.Machine.execFlashOtpRead r s
  | .flashOtpBurn r => Sys2Proof.Machine.execFlashOtpBurn r s
  | .flashArrayOpComplete die out => Sys2Proof.Machine.execFlashArrayOpComplete die out s
  | .flashCodewordTransfer die cls bits => Sys2Proof.Machine.execFlashCodewordTransfer die cls bits s
  | .flashSuspend die => Sys2Proof.Machine.execFlashSuspend die s
  | .minRunElapsed die => Sys2Proof.Machine.execMinRunElapsed die s
  | .eraseRestart die => Sys2Proof.Machine.execEraseRestart die s
  | .flashCtrClearWrite v => Sys2Proof.Machine.execFlashCtrClearWrite v s
  | .dramWriteDrain c ecc => Sys2Proof.Machine.execDramWriteDrain c ecc s
  | .patrolRead c ecc => Sys2Proof.Machine.execPatrolRead c ecc s
  | .refresh c bank high => Sys2Proof.Machine.execRefresh c bank high s
  | .oscillatorCheck c drift lanes => Sys2Proof.Machine.execOscillatorCheck c drift lanes s
  | .dramMapCfgWrite v => Sys2Proof.Machine.execDramMapCfgWrite v s
  | .mapScrubComplete => Sys2Proof.Machine.execMapScrubComplete s
  | .selfRefreshExit c => Sys2Proof.Machine.execSelfRefreshExit c s
  | .selfRefreshReentry c => Sys2Proof.Machine.execSelfRefreshReentry c s
  | .dramCtrClearWrite v => Sys2Proof.Machine.execDramCtrClearWrite v s
  | .vinSample mv => Sys2Proof.Machine.execVinSample mv s
  | .shedStageLift => Sys2Proof.Machine.execShedStageLift s
  | .supplyReset => Sys2Proof.Machine.execSupplyReset s
  | .thermalSample temps => Sys2Proof.Machine.execThermalSample temps s
  | .coolantSample inlet outlet flow => Sys2Proof.Machine.execCoolantSample inlet outlet flow s
  | .capRecompute tenant idle measured => Sys2Proof.Machine.execCapRecompute tenant idle measured s
  | .profileUpdate t mw => Sys2Proof.Machine.execProfileUpdate t mw s
  | .currentLimitCheck tenant amps => Sys2Proof.Machine.execCurrentLimitCheck tenant amps s
  | .vcoreUpdate => Sys2Proof.Machine.execVcoreUpdate s
  | .pwrQuery r => Sys2Proof.Machine.execPwrQuery r s
  | .pwrSetCap r => Sys2Proof.Machine.execPwrSetCap r s
  | .pwrProfileReset r => Sys2Proof.Machine.execPwrProfileReset r s
  | .pwrCtrClearWrite v => Sys2Proof.Machine.execPwrCtrClearWrite v s
  | .auditJobCfg r => Sys2Proof.Machine.execAuditJobCfg r s
  | .auditAttest r => Sys2Proof.Machine.execAuditAttest r s
  | .auditTwinPair r => Sys2Proof.Machine.execAuditTwinPair r s
  | .twinPairTimeout r => Sys2Proof.Machine.execTwinPairTimeout r s
  | .auditTwinQuery r => Sys2Proof.Machine.execAuditTwinQuery r s
  | .diagTileTest r failing cycles => Sys2Proof.Machine.execDiagTileTest r failing cycles s
  | .twinCtrl c => Sys2Proof.Machine.execTwinCtrl c s
  | .twinStep tenant job seqs dStep parked => Sys2Proof.Machine.execTwinStep tenant job seqs dStep parked s
  | .twinDigest tenant job digests => Sys2Proof.Machine.execTwinDigest tenant job digests s
  | .twinFix seq digest => Sys2Proof.Machine.execTwinFix seq digest s
  | .twinFixUnmatched seq => Sys2Proof.Machine.execTwinFixUnmatched seq s
  | .auditCtrClearWrite v => Sys2Proof.Machine.execAuditCtrClearWrite v s
  | .freeze => Sys2Proof.Machine.execFreeze s
  | .freezeRelease env => Sys2Proof.Machine.execFreezeRelease env s
  | .testLogicReset => Sys2Proof.Machine.execTestLogicReset s
  | .extest => Sys2Proof.Machine.execExtest s
  | .idcode => Sys2Proof.Machine.execIdcode s
  | .samplePreload => Sys2Proof.Machine.execSamplePreload s
  | .roAddr v => Sys2Proof.Machine.execRoAddr v s
  | .roData => Sys2Proof.Machine.execRoData s
  | .roStatus => Sys2Proof.Machine.execRoStatus s
  | .bypass => Sys2Proof.Machine.execBypass s
  | .coldReset env => Sys2Proof.Machine.execColdReset env s
  | .warmReset source env => Sys2Proof.Machine.execWarmReset source env s
  | .restart env => Sys2Proof.Machine.execRestart env s
  | .faultReset source env => Sys2Proof.Machine.execFaultReset source env s
  | .partitionReset mask fault failed => Sys2Proof.Machine.execPartitionReset mask fault failed s
  | .watchdogExpiry env => Sys2Proof.Machine.execWatchdogExpiry env s
  | .startupReady => Sys2Proof.Machine.execStartupReady s
  | .dozeRequest => Sys2Proof.Machine.execDozeRequest s
  | .napRequest => Sys2Proof.Machine.execNapRequest s
  | .hibernateRequest => Sys2Proof.Machine.execHibernateRequest s
  | .lpEntryComplete => Sys2Proof.Machine.execLpEntryComplete s
  | .wake => Sys2Proof.Machine.execWake s
  | .napExitComplete dt => Sys2Proof.Machine.execNapExitComplete dt s
  | .hibernateExit source env => Sys2Proof.Machine.execHibernateExit source env s
  | .ackShortPress => Sys2Proof.Machine.execAckShortPress s
  | .ackLongPress => Sys2Proof.Machine.execAckLongPress s
  | .testShortPress => Sys2Proof.Machine.execTestShortPress s
  | .testLongPress failing => Sys2Proof.Machine.execTestLongPress failing s
  | .safeLongPress => Sys2Proof.Machine.execSafeLongPress s
  | .chord button => Sys2Proof.Machine.execChord button s
  | .locateEnd => Sys2Proof.Machine.execLocateEnd s
  | .lampTestEnd => Sys2Proof.Machine.execLampTestEnd s
  | .panelAck => Sys2Proof.Machine.execPanelAck s
  | .panelLampTest => Sys2Proof.Machine.execPanelLampTest s
  | .panelLocate => Sys2Proof.Machine.execPanelLocate s
  | .usbAttach highSpeed => Sys2Proof.Machine.execUsbAttach highSpeed s
  | .usbDetach => Sys2Proof.Machine.execUsbDetach s
  | .usbPacket bytes => Sys2Proof.Machine.execUsbPacket bytes s
  | .startThresholdReached env => Sys2Proof.Machine.execStartThresholdReached env s
  | .ethernetLinkChange up => Sys2Proof.Machine.execEthernetLinkChange up s
  | .vectorDescriptorComplete t => Sys2Proof.Machine.execVectorDescriptorComplete t s
  | .napRefusalFlashEnd => Sys2Proof.Machine.execNapRefusalFlashEnd s

end Sys2Proof.Machine
end

