-- ==== Sys2Proof/Safety.lean ====
section
/-! DEFINITION. The terms in which claims are stated: what a packet needs before its operation runs (R19, R63 to R79), the state a
command leaves once the device has settled, and the relations that every step keeps. -/

namespace Sys2Proof.Machine

/-- The state that a command leaves when its effect on the device is `d`: the queue as it was, the device settled (R77, R78, R471). -/
def settled (s : State) (d : Device) : State := { s with dev := settle d }

/-- The checks of R19 up to the tenant field, the order of R79 and the readiness of R63, all passed: the packet that a command names
is accepted and not started, and its plaintext is `b`, with counter `c` when it is sealed (R65 to R67). -/
structure Admits (sp : OpSpec) (r : Ref) (p : Packet) (b : List Byte) (c : Option Nat) (d : Device) : Prop where
  found : findPacket d r = some p
  opcode : p.hdr.opcode.toNat = sp.opcode
  ready : isReady d = true
  fresh : p.held = false
  turn : canStart d p = true
  size : sp.size.all (fun n => plainLen p == n) = true
  range : p.hdr.tenant.toNat ≤ 8
  formed : p.hdr.tenant ≠ 0 → (partOf d p.hdr.tenant.toNat).isSome = true
  staying : isRemoving d p.hdr.tenant.toNat = true → sp.removal = true
  authentic : openPacket d (decide (p.hdr.tenant = 0) && !sp.roles.isEmpty) p = some (b, c)
  zero : reservedOk sp b = true
  role : p.hdr.tenant = 0 → sp.roles ≠ [] → sp.roles.contains p.role = true
  dev : p.hdr.tenant = 0 → sp.dev = true
  part : p.hdr.tenant ≠ 0 → sp.part = true

/-- The packet as its operation sees it: started, with its plaintext. -/
def begun (p : Packet) (b : List Byte) : Packet := { p with started := true, plain := b }

/-- The device as the operation of an admitted packet finds it: the packet has left the intake buffer (R59) and its counter and the
session's idle time are noted (R67, R396). -/
def admitted (p : Packet) (b : List Byte) (c : Option Nat) (d : Device) : Device := acceptPacket p c (startPacket p b d)

/-- The ring holds what head and tail say, and no more than its 2,048 slots (R72). -/
def RingOk (d : Device) : Prop :=
  d.cmd.ring.length ≤ ringSlots ∧ d.cmd.head - d.cmd.tail = BitVec.ofNat 12 d.cmd.ring.length

/-- Records are held outside the ring only while it is full (R74). -/
def HeldOk (d : Device) : Prop := d.cmd.held ≠ [] → d.cmd.ring.length = ringSlots

/-- Each entry of a list of ledger entries carries the next number and the chain value of R406, from a number and a chain value on. -/
def Chained : Nat → List Byte → List LedgerEntry → Prop
  | _, _, [] => True
  | n, h, e :: es => e.seq = n ∧ e.chain = digest32 (h ++ ledgerHead n e.body) ∧ Chained (n + 1) e.chain es

/-- The ledger from its first entry held: numbers and chain values run to the next number and the last chain value (R406). -/
def LedgerOk (n : Nat) (h : List Byte) (d : Device) : Prop :=
  Chained n h d.sec.ledger ∧ d.sec.nextSeq = n + d.sec.ledger.length ∧
  d.sec.chain = (match d.sec.ledger.getLast? with | some e => e.chain | none => h)

/-- ALERT# and the device-wide reasons shown follow their conditions (R77, R471). -/
def Settled (d : Device) : Prop :=
  d.host.alert = alertCond d ∧ (coreAlive d = true → d.pwr.shown = reasonsOf d 0 &&& 0x2D)

/-- What a pass or a vector descriptor on tile `k` leaves alone: the other tiles, the tile's queues but those named, and every byte
outside the ranges it writes. -/
def tileFrame (k : Nat) (outs : List (Nat × Nat)) (d e : Device) : Prop :=
  (∀ j, j ≠ k → tileOf e j = tileOf d j) ∧
  (∀ x, (∀ o ∈ outs, x < tileBase k + o.1 ∨ tileBase k + o.1 + o.2 ≤ x) → Mem.byte e.fab x = Mem.byte d.fab x) ∧
  e.knots = d.knots ∧ e.cmd = d.cmd ∧ e.sec = d.sec ∧ e.gauge = d.gauge ∧ e.link = d.link ∧ e.fix = d.fix ∧ e.flash = d.flash ∧
  (tileOf e k).tenant = (tileOf d k).tenant ∧ (tileOf e k).listErr = (tileOf d k).listErr ∧
  (tileOf e k).passCount = (tileOf d k).passCount ∧ (tileOf e k).vwait = (tileOf d k).vwait

/-- The ranges of the tile store that a row writes as it drains (R136, R147). -/
def rowOuts (p : PassDesc) (a i : Nat) (es : List Nat) : List (Nat × Nat) :=
  if isReg (p.out.getD a 0) then []
  else [(p.out.getD a 0 + i * p.outStride, p.elem * es.length)] ++ if p.fx then [(p.outExp.getD a 0 + i, 1)] else []

/-- The ranges that a row in flight writes. -/
def PendingRow.outs (f : FlightPass) (x : PendingRow) : List (Nat × Nat) :=
  if x.carry then [] else rowOuts (passDesc f.raw) x.array x.row x.elems

end Sys2Proof.Machine
end

