-- ==== Sys2Proof/Certificates/Slice0/Obligations.lean ====
section
/-! DEFINITION. The statements for the provers, family by family. A command's statement says on which states and operands it has its own
effect and which next state it then answers; what every command shares (acceptance, completion, settling) is stated once. -/

open Sys2Proof Sys2Proof.Machine

/-! ### Steps, the queue, and what follows every command -/

/-- A step takes the command at the front and runs it on the queue's rest. -/
def Obligations.StepRunsFront : Prop :=
  ∀ (c : Instr) (q : List Instr) (d : Device), step { dev := d, pending := c :: q } = exec c { dev := d, pending := q }

/-- With no command waiting, a step is one Gauge tick of 10 ns: the model's clock goes on by 10, and WALL by 10 modulo 2^64 while the
Gauge runs unslewed. The model's choice (log entry 1). -/
def Obligations.EmptyQueueTicks : Prop :=
  ∀ d : Device, ∃ t, step { dev := d } = .next { dev := t } ∧ t = tick d ∧ t.clock = d.clock + 10 ∧
    (isFrozen d = false → d.gauge.slew = 0 → d.gauge.slewRem = 0 → t.gauge.wall = (d.gauge.wall + 10) % 2 ^ 64) ∧
    (isFrozen d = true → t.gauge = d.gauge)

/-- No command and no tick stops the machine: from every state a step answers a next state, and the queue is then what followed the
front. Every failure of the manual is a status code, a counter or a reset. -/
def Obligations.NoStepStops : Prop :=
  ∀ s : State, ∃ t, step s = .next t ∧ t.pending = s.pending.tail

/-- The invariant of R77 and R471, kept by every step, from every state: ALERT# is asserted exactly while the core die runs and one of
its three conditions holds, and the device-wide reasons last shown are those in force while it runs. -/
def Obligations.StepKeepsSettled : Prop :=
  ∀ s t : State, step s = .next t →
    Settled t.dev ∧
    (coreAlive t.dev = true →
      (t.dev.host.alert = true ↔
        (bitsOf t.dev.cmd.alertCtrl.toNat 0 8 ≠ 0 ∧ bitsOf t.dev.cmd.alertCtrl.toNat 0 8 ≤ t.dev.cmd.ring.length) ∨
        (bitsOf t.dev.cmd.alertCtrl.toNat 8 10 ≠ 0 ∧ ∃ r rs, t.dev.cmd.ring = r :: rs ∧
          r.at_ + bitsOf t.dev.cmd.alertCtrl.toNat 8 10 * 1000 ≤ t.dev.clock) ∨
        t.dev.host.event &&& t.dev.host.eventEn ≠ 0)) ∧
    (coreAlive t.dev = false → t.dev.host.alert = false)

/-- The state after reset meets that invariant. -/
def Obligations.ResetIsSettled : Prop := Settled State.reset.dev

/-- The values that the manual gives for reset: phase HELD (R514), DEV_EVENT_EN 0x200 and DEV_XSPI_CFG 0x00A0_1401 (R87),
CMD_ALERT_CTRL 1 (R88), every knot at 0 (R329), WALL 0 and FREE (R325), no flash or DRAM work, shed stage 0, an empty ring and an
empty queue; and, as the model's choice (log entry 10), fabric memory that reads zero before start-up scrubs it. -/
def Obligations.ResetValues : Prop :=
  State.reset.pending = [] ∧ State.reset.dev.boot.phase = .held ∧ State.reset.dev.host.eventEn = 0x200 ∧
  State.reset.dev.host.xspiCfg = 0x00A01401 ∧ State.reset.dev.host.event = 0 ∧ State.reset.dev.cmd.alertCtrl = 1 ∧
  State.reset.dev.cmd.ring = [] ∧ State.reset.dev.cmd.flight = [] ∧ (∀ k, (knotOf State.reset.dev k).value = 0) ∧
  State.reset.dev.gauge.wall = 0 ∧ State.reset.dev.gauge.wallSt = .free ∧ State.reset.dev.pwr.stage = 0 ∧
  State.reset.dev.fix.armed = false ∧ State.reset.dev.sec.session = none ∧ (∀ a, Mem.byte State.reset.dev.fab a = 0)

/-! ### Frames of what every command shares -/

/-- What acceptance, completion and settling leave alone. Completing a packet changes the CMD part and nothing else; accepting one
changes CMD and, of SEC, the session's idle time; settling changes ALERT#, DEV_EVENT.THROTTLE and the power controller's records. -/
def Obligations.SharedFrames : Prop :=
  (∀ (p : Packet) (st : W16) (x : List Byte) (d : Device), finish p st x d = { d with cmd := (finish p st x d).cmd }) ∧
  (∀ (p : Packet) (b : List Byte) (c : Option Nat) (d : Device), admitted p b c d =
    { d with cmd := (admitted p b c d).cmd, sec := { d.sec with session := (admitted p b c d).sec.session } }) ∧
  (∀ d : Device, settle d = { d with
    host := { d.host with alert := (settle d).host.alert, event := (settle d).host.event }
    pwr := { d.pwr with groups := (settle d).pwr.groups, shown := (settle d).pwr.shown } }) ∧
  (∀ (d : Device) (n : Nat), n ≠ evThrottle → (settle d).host.event.getLsbD n = d.host.event.getLsbD n) ∧
  (∀ d : Device, coreAlive d = false → settle d = { d with host := { d.host with alert := false } })

/-! ### Records and the ring -/

/-- Queueing a record, moving held records up and a write to CMD_CQ_TAIL keep the ring's count equal to head minus tail and within its
2,048 slots, and records are held outside it only while it is full (R72 to R74). -/
def Obligations.RingInvariant : Prop :=
  ∀ d : Device, RingOk d → HeldOk d →
    (∀ r, RingOk (queueRecord r d) ∧ HeldOk (queueRecord r d)) ∧
    (RingOk (refillRing d) ∧ HeldOk (refillRing d)) ∧
    (∀ p st x, RingOk (finish p st x d) ∧ HeldOk (finish p st x d)) ∧
    (∀ v, d.cmd.resetPending = [] → RingOk (tailWrite v d) ∧ HeldOk (tailWrite v d))

/-- R73: a value is accepted only if it lies between the old tail and head; otherwise the tail stays and TAIL_ERR is set. An accepted
value frees the records it passes, and held records take the freed slots in the order of completion (R74); nothing more happens, unless a
RESET waits for a record that the write passes: then its warm reset begins (R85). -/
def Obligations.TailWriteConsumes : Prop :=
  ∀ (v : W32) (d : Device), let t := BitVec.ofNat 12 v.toNat; let n := (t - d.cmd.tail).toNat
    (n ≤ (d.cmd.head - d.cmd.tail).toNat → ∃ e : Device,
      e.cmd.tail = t ∧ e.cmd.ring ++ e.cmd.held = d.cmd.ring.drop n ++ d.cmd.held ∧
      (e.cmd.held ≠ [] → ringSlots ≤ e.cmd.ring.length) ∧ e.cmd.tailErr = d.cmd.tailErr ∧ e = { d with cmd := e.cmd } ∧
      let passes := fun (x : Ref × Nat) => x.1.chan = .host ∧
        (d.cmd.ring.take n).any (fun y => y.bound && y.tag == x.1.tag && y.opcode == 0x0104) = true
      ((∃ x ∈ d.cmd.resetPending, passes x) → tailWrite v d = beginReset kindWarm 1 e) ∧
      ((∀ x ∈ d.cmd.resetPending, ¬passes x) → tailWrite v d = e)) ∧
    ((d.cmd.head - d.cmd.tail).toNat < n → tailWrite v d = { d with cmd := { d.cmd with tailErr := true } })

/-- Completing a packet of the host port (R70 to R76): the packet leaves flight; unless it is QUIET, ends OK and has no result, one
bound record with its tag, status and result goes to the end of the ring while a slot is free, and is held otherwise; and every
AUTH_FAIL is counted (R67). -/
def Obligations.CompletionQueuesRecord : Prop :=
  ∀ (p : Packet) (st : W16) (x : List Byte) (d : Device), p.chan = .host →
    findPacket (finish p st x d) (refOf p) = none ∧
    (finish p st x d).cmd.authFailCount = d.cmd.authFailCount + (if st = stAuthFail then 1 else 0) ∧
    (isQuiet p = true → st = stOK → x = [] → (finish p st x d).cmd.ring = d.cmd.ring ∧ (finish p st x d).cmd.held = d.cmd.held) ∧
    ((isQuiet p = false ∨ st ≠ stOK ∨ x ≠ []) →
      ∃ r : Record, r.tag = p.hdr.tag ∧ r.status = st ∧ r.bound = true ∧ r.result = resultOut p st x ∧
        r.wall = BitVec.ofNat 64 (wallNow d) ∧
        (d.cmd.ring.length < ringSlots → (finish p st x d).cmd.ring = d.cmd.ring ++ [r] ∧ (finish p st x d).cmd.held = d.cmd.held) ∧
        (ringSlots ≤ d.cmd.ring.length → (finish p st x d).cmd.ring = d.cmd.ring ∧ (finish p st x d).cmd.held = d.cmd.held ++ [r]))

/-- R66, R67: a packet sealed under its key with a counter above every one accepted under that key opens to its plaintext, and the
same packet after its acceptance does not. One that a schedule entry makes (R328) carries what its entry was added with. -/
def Obligations.SealedPacketOpensOnce : Prop :=
  ∀ (d : Device) (gated : Bool) (p : Packet),
    (p.sched = true → openPacket d gated p = some (p.plain, none)) ∧
    (∀ (n : Nat) (plain : List Byte), p.sched = false →
      isSealed p = true → p.key ≠ [] → 0 < n → n < 2 ^ 64 → (countersOf d p.key).last < n →
      p.payload = leBytes 8 n ++ gcmSeal p.key (packetIv 0 p) p.raw plain →
        openPacket d gated p = some (plain, some n) ∧
        openPacket (acceptPacket p (some n) d) gated p = none)

/-- R19: the operation of a packet that is served and next in order is reached only through the checks in their order; the first that
fails is reported, alone. -/
def Obligations.FailureOrder : Prop :=
  ∀ (sp : OpSpec) (p : Packet) (body : Packet → List Byte → Device → Device) (d : Device),
    let t := p.hdr.tenant.toNat
    let badSize := sp.size.any (fun n => plainLen p != n) = true
    let noTenant := t > 8 ∨ (t ≠ 0 ∧ (partOf d t).isNone = true)
    let removing := isRemoving d t = true ∧ sp.removal = false
    (badSize → runChecked sp p body d = refuse p stBadPacket d) ∧
    (¬badSize → noTenant → runChecked sp p body d = refuse p stNoTenant d) ∧
    (¬badSize → ¬noTenant → removing → runChecked sp p body d = refuse p stPartRemoving d) ∧
    (¬badSize → ¬noTenant → ¬removing → openPacket d (decide (p.hdr.tenant = 0) && !sp.roles.isEmpty) p = none →
      runChecked sp p body d = refuse p stAuthFail d) ∧
    (¬badSize → ¬noTenant → ¬removing → ∀ b c, openPacket d (decide (p.hdr.tenant = 0) && !sp.roles.isEmpty) p = some (b, c) →
      (reservedOk sp b = false → runChecked sp p body d = refuse (begun p b) stBadPacket (admitted p b c d)) ∧
      (reservedOk sp b = true → p.hdr.tenant = 0 → sp.roles ≠ [] → sp.roles.contains p.role = false →
        runChecked sp p body d = refuse (begun p b) stDeniedRole (ledgerRefused (begun p b) stDeniedRole (admitted p b c d))))

/-! ### The ledger -/

/-- R406: whatever is written, the ledger stays one chain: every entry carries the next number and the digest of the chain value before
it and its own first 96 bytes. -/
def Obligations.LedgerStaysChained : Prop :=
  ∀ (n : Nat) (h : List Byte) (d : Device), LedgerOk n h d →
    (∀ b, LedgerOk n h (ledgerCommit b d)) ∧ (∀ b, LedgerOk n h (ledgerWrite b d)) ∧ LedgerOk n h (ledgerFlush d) ∧
    (∀ b, d.sec.ledger.length < ledgerMax → ∃ e, (ledgerCommit b d).sec.ledger = d.sec.ledger ++ [e] ∧ e.body = b) ∧
    (∀ b, ledgerMax ≤ d.sec.ledger.length → ledgerCommit b d = d)

/-! ### Fabric memory -/

/-- A write to fabric space is read back byte for byte, every other byte reads as before, a scrubbed range reads zero (R194), and a
memory in canonical form stays so, whatever the DRAM write queues do (R450 to R453). -/
def Obligations.FabricReadsWhatWasWritten : Prop :=
  ∀ (d : Device) (a : Nat) (bs : List Byte),
    fabRead (fabWrite a bs d) a bs.length = bs ∧
    (∀ x, x < a ∨ a + bs.length ≤ x → Mem.byte (fabWrite a bs d).fab x = Mem.byte d.fab x) ∧
    (∀ n x, a ≤ x → x < a + n → Mem.byte (fabScrub a n d).fab x = 0) ∧
    (∀ n x, x < a ∨ a + n ≤ x → Mem.byte (fabScrub a n d).fab x = Mem.byte d.fab x) ∧
    (Mem.wf d.fab = true → Mem.wf (fabWrite a bs d).fab = true ∧ ∀ n, Mem.wf (fabScrub a n d).fab = true)

/-! ### The host port -/

/-- R47: RESET_PORT takes effect only if the immediately preceding transaction was RESET_ENABLE; it then loads the reset value into
DEV_XSPI_CFG and changes nothing else. -/
def Obligations.ResetPortNeedsEnable : Prop :=
  ∀ s : State, hostAlive s.dev = true →
    (s.dev.host.resetEnabled = true → exec .resetPort s =
      .next (settled s { s.dev with host := { s.dev.host with resetEnabled := false, xspiCfg := 0x00A01401 } })) ∧
    (s.dev.host.resetEnabled = false → exec .resetPort s = .next (settled s s.dev)) ∧
    exec .resetEnable s = .next (settled s { s.dev with host := { s.dev.host with resetEnabled := true } }) ∧
    (∀ n, ∃ t, exec (.readId n) s = .next t ∧ t.dev.host.resetEnabled = false)

/-- READ_ID puts DEV_IDENT and then zeros on DQ; an instruction outside the table of R43 puts nothing there and sets BAD_INSTR (R44);
neither changes anything else, and a device that is frozen, HELD or in Hibernate leaves DQ in high impedance (R501, R511). -/
def Obligations.PortInstructions : Prop :=
  ∀ s : State,
    (hostAlive s.dev = true →
      (∀ n, exec (.readId n) s = .next (settled s { s.dev with host := { s.dev.host with
        resetEnabled := false, dq := .data (padTo n (leBytes 4 (devIdent s.dev))) } })) ∧
      (∀ c0 c1, knownInstr s.dev c0 c1 = false → exec (.badInstr c0 c1) s = .next (settled s { s.dev with host := { s.dev.host with
        resetEnabled := false, dq := .highZ, badInstr := true } }))) ∧
    (hostAlive s.dev = false →
      ∀ c ∈ [Instr.readId 4, .resetEnable, .resetPort, .badInstr 0 0, .read 0 4 10000, .write 0 [], .lowWordRead 8, .registerWrite 0 0,
          .devXspiCfgWrite 0, .cmdCqTailWrite 0, .cmdResultSelWrite 0, .packetSubmit 0x01000000 []],
        exec c s = .next { s with dev := { s.dev with host := { s.dev.host with dq := .highZ, alert := false } } })

/-- A READ of one aligned word of control space whose latency covers 80 ns returns the register's four bytes, little-endian (R7, R45,
R48); one whose latency does not may be late, and then returns 0xFF, sets LATE and DEV_EVENT.LATE_READ, and counts (R45). Reading a low
word latches its high word, and the next read of the high word returns what was latched, whatever happened to the register in between
(R15). -/
def Obligations.ReadsReturnRegisters : Prop :=
  ∀ (s : State) (a : W32), hostAlive s.dev = true →
    (∀ ck : Nat, a.toNat < 0x01000000 → a.toNat % 4 = 0 →
      let d0 : Device := { s.dev with host := { s.dev.host with resetEnabled := false } }
      let d1 := (readWord a.toNat d0).2
      (80000 ≤ bitsOf s.dev.host.xspiCfg.toNat 8 5 * ck →
        exec (.read a 4 ck) s = .next (settled s { d1 with host := { d1.host with dq := .data (leBytes 4 (readWord a.toNat d0).1) } })) ∧
      (bitsOf s.dev.host.xspiCfg.toNat 8 5 * ck < 80000 → Config.freeBit s.dev.freeCtr = true →
        ∃ t, exec (.read a 4 ck) s = .next t ∧ t.dev.host.dq = .data [0xFF, 0xFF, 0xFF, 0xFF] ∧ t.dev.host.late = true ∧
          t.dev.host.event.getLsbD evLateRead = true ∧ t.dev.host.lateCount = satAdd16 s.dev.host.lateCount 1 ∧
          t.dev.cmd = s.dev.cmd ∧ t.dev.fab = s.dev.fab)) ∧
    (isLow a.toNat = true →
      ∃ t, exec (.lowWordRead a) s = .next t ∧ t.dev.host.dq = .data (leBytes 4 (regValue s.dev a.toNat)) ∧
        ∀ e : Device, e.host.shadow = t.dev.host.shadow →
          (readWord (a.toNat + 4) e).1 =
            regValue { s.dev with host := { s.dev.host with resetEnabled := false } } (a.toNat + 4) % 2 ^ 32)

/-- A WRITE (R14, R46, R48, R58): one aligned word of control space is a register write; one that starts in the command window is a packet
submission; bytes of the frame window and of the aperture go there in address order; and where nothing is mapped nothing happens. A device
that takes commands completes it, whatever its address and its bytes. -/
def Obligations.WriteIsRegisterWrites : Prop :=
  ∀ (s : State) (a : W32) (bs : List Byte), hostAlive s.dev = true →
    let d := noEnable s.dev
    (a.toNat % 4 = 0 → a.toNat < 0x01000000 → bs.length = 4 →
      exec (.write a bs) s = .next (settled s (regWrite a.toNat (word32 bs 0) d)) ∧
      exec (.registerWrite a (word32 bs 0)) s = .next (settled s (regWrite a.toNat (word32 bs 0) d))) ∧
    (0x01000000 ≤ a.toNat → a.toNat < 0x01010000 →
      exec (.write a bs) s = .next (settled s (submitOn .host (decide (a.toNat = 0x01000000)) bs d)) ∧
      exec (.packetSubmit a bs) s = .next (settled s (submitOn .host (decide (a.toNat = 0x01000000)) bs d))) ∧
    (0x02000000 ≤ a.toNat → a.toNat + bs.length ≤ 0x02010000 → bs ≠ [] →
      exec (.write a bs) s = .next (settled s (windowWrite (a.toNat - 0x02000000) bs d))) ∧
    (0x02010000 ≤ a.toNat → a.toNat + bs.length ≤ 0x80000000 → exec (.write a bs) s = .next (settled s d)) ∧
    (0x80000000 ≤ a.toNat → a.toNat + bs.length ≤ 2 ^ 32 → bs ≠ [] → exec (.write a bs) s =
      .next (settled s (let x := apWrite bs.length a.toNat bs false d; countDenied x.1 x.2))) ∧
    (∃ t, exec (.write a bs) s = .next t ∧ t.pending = s.pending)

/-- Register writes of the DEV and CMD blocks (R73, R75, R87): DEV_SCRATCH takes the word, a flag of DEV_EVENT is cleared by writing 1,
DEV_XSPI_CFG takes a value whose fields are all in range and discards any other whole, CMD_RESULT_SEL takes its tag, and CMD_CQ_TAIL
consumes records. Nothing else changes. -/
def Obligations.PortRegisterWrites : Prop :=
  ∀ (s : State) (v : W32), hostAlive s.dev = true →
    let d0 : Device := { s.dev with host := { s.dev.host with resetEnabled := false } }
    exec (.registerWrite 0x28 v) s = .next (settled s { d0 with host := { d0.host with scratch := v } }) ∧
    exec (.registerWrite 0x20 v) s =
      .next (settled s { d0 with host := { d0.host with event := d0.host.event &&& ~~~(BitVec.ofNat 12 v.toNat) } }) ∧
    (16 ≤ bitsOf v.toNat 16 8 ∧ 8 ≤ bitsOf v.toNat 8 5 →
      exec (.devXspiCfgWrite v) s = .next (settled s { d0 with host := { d0.host with xspiCfg := v &&& 0x01FF1F03 } })) ∧
    (bitsOf v.toNat 16 8 < 16 ∨ bitsOf v.toNat 8 5 < 8 → exec (.devXspiCfgWrite v) s = .next (settled s d0)) ∧
    exec (.cmdResultSelWrite v) s = .next (settled s { d0 with cmd := { d0.cmd with resultSel := BitVec.ofNat 16 v.toNat } }) ∧
    exec (.cmdCqTailWrite v) s = .next (settled s (tailWrite v d0))

/-- R77: when HOLDOFF µs have passed since the oldest pending record was queued, ALERT# is asserted. -/
def Obligations.HoldoffAsserts : Prop :=
  ∀ (s : State) (r : Record) (rs : List Record), coreAlive s.dev = true → s.dev.cmd.ring = r :: rs →
    bitsOf s.dev.cmd.alertCtrl.toNat 8 10 ≠ 0 →
      ∃ t, exec .alertHoldoffExpiry s = .next t ∧ t.dev.host.alert = true ∧
        t.dev.clock = max s.dev.clock (r.at_ + bitsOf s.dev.cmd.alertCtrl.toNat 8 10 * 1000) ∧ t.dev.cmd = s.dev.cmd ∧
        t.dev.tiles = s.dev.tiles ∧ t.dev.fab = s.dev.fab ∧ t.dev.sec = s.dev.sec

/-! ### Submission -/

/-- PACKET_SUBMIT (R58 to R63): in READY, a packet that starts the window, fits the intake buffer and passes the header checks is
accepted; one that fails a check is refused with BAD_PACKET and its cause; one that finds the device not ready is dropped with cause 8;
one that overruns the buffer is dropped with OVERRUN. -/
def Obligations.SubmissionAcceptsOrRefuses : Prop :=
  ∀ (s : State) (bs : List Byte), hostAlive s.dev = true →
    let d := noEnable s.dev; let h := headerOf bs
    (isReady s.dev = true → intakeUsed s.dev + bs.length ≤ 262144 → headerFault s.dev .host true bs = none →
      exec (.packetSubmit 0x01000000 bs) s = .next (settled s (wakeUp 2 { d with cmd := { d.cmd with
        flight := d.cmd.flight ++ [packetOf s.dev .host bs]
        nextOrder := d.cmd.nextOrder + 1
        acceptCount := d.cmd.acceptCount + 1 } }))) ∧
    (∀ n, isReady s.dev = true → intakeUsed s.dev + bs.length ≤ 262144 → headerFault s.dev .host true bs = some n →
      ∃ t, exec (.packetSubmit 0x01000000 bs) s = .next t ∧ t.dev.cmd.flight = s.dev.cmd.flight ∧
        t.dev.cmd.rejectCount = s.dev.cmd.rejectCount + 1 ∧ t.dev.cmd.errCause = BitVec.ofNat 4 n ∧
        t.dev.host.event.getLsbD evReject = true ∧
        (s.dev.cmd.ring.length < ringSlots → ∃ r : Record, t.dev.cmd.ring = s.dev.cmd.ring ++ [r] ∧ r.bound = false ∧
          r.status = stBadPacket ∧ r.tag = h.tag)) ∧
    (isReady s.dev = true → 262144 < intakeUsed s.dev + bs.length →
      ∃ t, exec (.packetSubmit 0x01000000 bs) s = .next t ∧ t.dev.cmd.flight = s.dev.cmd.flight ∧
        t.dev.cmd.overrunCount = s.dev.cmd.overrunCount + 1 ∧ t.dev.cmd.overrun = true ∧ t.dev.cmd.errCause = 7 ∧
        t.dev.host.event.getLsbD evOverrun = true) ∧
    (isReady s.dev = false →
      ∃ t, exec (.packetSubmit 0x01000000 bs) s = .next t ∧ t.dev.cmd.flight = s.dev.cmd.flight ∧ t.dev.cmd.ring = s.dev.cmd.ring ∧
        t.dev.cmd.rejectCount = s.dev.cmd.rejectCount + 1 ∧ t.dev.cmd.errCause = 8)

/-! ### The device range -/

/-- R83: ECHO has no effect beyond its completion: its result is its payload. -/
def Obligations.EchoOnlyCompletes : Prop :=
  ∀ (s : State) (r : Ref) (p : Packet) (b : List Byte) (c : Option Nat),
    Admits (devSpec 0x0102) r p b c s.dev → b.length ≤ (if isSealed p then 32744 else 32768) →
      exec (.echo r) s = .next (settled s (finish (begun p b) stOK b (admitted p b c s.dev)))

/-- NOP, IDENTIFY, TAG_QUERY and RESET (R81 to R85), and a packet of an unassigned opcode (R21): each completes with the status and the
result stated, TAG_QUERY with the state of the tag it names, RESET ledgered and waiting for its record to be consumed. -/
def Obligations.DeviceRangeCompletes : Prop :=
  ∀ (s : State) (r : Ref) (p : Packet) (b : List Byte) (c : Option Nat),
    (Admits { devSpec 0x0100 with part := true } r p b c s.dev → b = [] →
      exec (.nop r) s = .next (settled s (complete (begun p b) (admitted p b c s.dev)))) ∧
    (Admits (devSpec 0x0101) r p b c s.dev → b = [] →
      exec (.identify r) s =
        .next (settled s (finish (begun p b) stOK (identifyBytes (admitted p b c s.dev)) (admitted p b c s.dev)))) ∧
    (Admits (devSpec 0x0103 [(2, 2)]) r p b c s.dev → b.length = 4 → p.chan = .host →
      exec (.tagQuery r) s =
        (let d := admitted p b c s.dev; let x := tagState d (word16 b 0)
         .next (settled s (finish (begun p b) stOK
          ([BitVec.ofNat 8 x.1, 0] ++ leBytes 2 x.2.1.toNat ++ [x.2.2, 0, 0, 0]) d)))) ∧
    (Admits { devSpec 0x0104 [(1, 3)] with roles := byEither } r p b c s.dev → b.length = 4 → byteAt b 0 = 1 →
      ledgerRoom (admitted p b c s.dev) = none →
      exec (.reset r) s =
        (let d := complete (begun p b) (ledgerConfig (begun p b) (admitted p b c s.dev))
         .next (settled s { d with cmd := { d.cmd with resetPending := d.cmd.resetPending ++ [(refOf p, d.clock)] } }))) ∧
    (findPacket s.dev r = some p → assignedOpcodes.contains p.hdr.opcode.toNat = false → isReady s.dev = true → canStart s.dev p = true →
      exec (.badOpcode r) s = .next (settled s (finish p stBadOpcode [] s.dev)))

/-! ### Registers that a role guards, and the counters that the maker clears -/

/-- A write to an RWL field (R12, R557): without the role the field stays and the write is ledgered REFUSED; with the role and a value
the field takes, the write is ledgered CONFIG and takes effect; when the ledger cannot take the entry nothing changes but CFG_DROPPED. -/
def Obligations.RoleGuardsRegisterWrites : Prop :=
  ∀ (addr : Nat) (roles : List Byte) (ok : Bool) (f : Device → Device) (d : Device),
    (roles.contains (activeRole d) = true → ok = true → ledgerRoom d = none → rwl addr roles ok f d = f (ledgerReg 0x0020 addr stOK d)) ∧
    (roles.contains (activeRole d) = true → ok = true → ledgerRoom d ≠ none →
      rwl addr roles ok f d = { d with sec := { d.sec with cfgDropped := true } }) ∧
    (roles.contains (activeRole d) = false → rwl addr roles ok f d = ledgerReg 0x0003 addr stDeniedRole d) ∧
    (∀ kind st, ledgerReg kind addr st d = { d with sec := (ledgerReg kind addr st d).sec } ∧
      (ledgerRoom d = none → ledgerDurable d = true →
        ∃ e, (ledgerReg kind addr st d).sec.ledger = d.sec.ledger ++ [e] ∧ e.body.kind = kind ∧ e.body.status = st ∧
          e.body.role = activeRole d ∧ e.body.detail = leBytes 4 addr ++ zeros 4) ∧
      (ledgerRoom d ≠ none → ledgerReg kind addr st d = { d with sec := { d.sec with cfgDropped := true } }))

/-- The configuration writes of the blocks GAUGE, LINK and DRAM, each by its role and with a value its fields take (R338, R371, R445):
the write is ledgered and its field takes the value; a change of the bank layout scrubs DRAM (R445). -/
def Obligations.ConfigurationWrites : Prop :=
  ∀ (s : State) (v : W32), hostAlive s.dev = true → ledgerRoom s.dev = none →
    let d := noEnable s.dev
    (∀ off ∈ [0x004, 0x008, 0x014, 0x020], byEither.contains (activeRole s.dev) = true → gaugeCfgOk off v = true →
      exec (.gaugeCfgWrite (BitVec.ofNat 32 (0x40000 + off)) v) s =
        .next (settled s (let e := onGauge (gaugeCfg off v) (ledgerReg 0x0020 (0x40000 + off) stOK d)
          { e with gauge := rebase .rotor (rotorFar e) e.gauge }))) ∧
    (∀ p : Port, byEither.contains (activeRole s.dev) = true → linkCfgOk p.toNat v = true →
      exec (.linkPnCfgWrite p v) s =
        .next (settled s (linkCfg p.toNat v (ledgerReg 0x0020 (0x80100 + 0x40 * p.toNat) stOK d)))) ∧
    (activeRole s.dev = roleInstaller → v.toNat % 4 ≠ 3 → s.dev.sec.parts = [] →
      ∃ t, exec (.dramMapCfgWrite v) s = .next t ∧ t.dev.dram.order = BitVec.ofNat 2 v.toNat ∧ t.dev.dram.mapBusy = true ∧
        (∀ a, dramBase ≤ a → a < dramBase + 32 * channelSize → Mem.byte t.dev.fab a = 0) ∧
        (∀ a, a < dramBase → Mem.byte t.dev.fab a = Mem.byte s.dev.fab a))

/-- The counter-clear writes are the maker's alone: with bit 0 set and the maker role active they clear their block's counters and
nothing else; without the role nothing changes (R154, R155, R225, R304, R371, R441, R464, R488, R509). -/
def Obligations.MakerClearsCounters : Prop :=
  ∀ (s : State) (v : W32), hostAlive s.dev = true →
    let d := noEnable s.dev
    (makerActive s.dev = true → v.getLsbD 0 = true →
      exec (.serveCtrClearWrite v) s = .next (settled s { d with serve := { d.serve with
        stepCount := 0, refuseCount := 0, cancelCount := 0, cancelLat := 0 } }) ∧
      exec (.flashCtrClearWrite v) s = .next (settled s { d with flash := { d.flash with
        corrCount := 0, retryCount := 0, uncorrCount := 0, codecCount := 0, suspendCount := 0 } }) ∧
      exec (.pwrCtrClearWrite v) s = .next (settled s { d with pwr := { d.pwr with times := [], sagCount := 0 } }) ∧
      exec (.auditCtrClearWrite v) s = .next (settled s { d with audit := { d.audit with
        cmpCount := 0, divCount := 0, divSeq := 0, unmatched := 0, twinSteps := 0, twinDivs := 0 } }) ∧
      (∃ t, exec (.memCtrClearWrite v) s = .next t ∧ t.dev.mem.denyCount = 0 ∧ t.dev.mem.missCount = 0 ∧ t.dev.mem.skipCount = 0 ∧
        t.dev.mem.arenas = s.dev.mem.arenas ∧ t.dev.fab = s.dev.fab) ∧
      (∃ t, exec (.dramCtrClearWrite v) s = .next t ∧ t.dev.dram.corrCount = 0 ∧ t.dev.dram.uncorrCount = 0 ∧
        t.dev.dram.codecCount = 0 ∧ t.dev.dram.rmwCount = 0 ∧ t.dev.dram.corr = s.dev.dram.corr ∧ t.dev.fab = s.dev.fab) ∧
      (∃ t, exec (.linkCtrClearWrite v) s = .next t ∧ t.dev.link.staleCount = 0 ∧ t.dev.link.tagFailCount = 0 ∧
        t.dev.link.dropCount = 0 ∧ t.dev.link.manager = s.dev.link.manager ∧ t.dev.cmd = s.dev.cmd) ∧
      (∀ k : Tile, exec (.tileCtrClearWrite k v) s = .next (settled s (onTile k.toNat clearTileCounters d)))) ∧
    (makerActive s.dev = false →
      (∀ c ∈ [Instr.serveCtrClearWrite v, .flashCtrClearWrite v, .pwrCtrClearWrite v, .auditCtrClearWrite v, .memCtrClearWrite v,
          .dramCtrClearWrite v, .linkCtrClearWrite v], exec c s = .next (settled s d)) ∧
      (∀ k : Tile, (tileOf s.dev k.toNat).tenant ≠ 0 → exec (.tileCtrClearWrite k v) s = .next (settled s d)))

/-! ### The faceplate, the receptacle and the Ethernet port -/

/-- A press while the panel has power and the device is awake is recorded and has its action (R546 to R550): ACK short clears the bead
latches and ends a locate, ACK long starts one, TEST short starts the lamp test, TEST long shows the beads that failed, a chord does
nothing more; a press in a low-power state wakes the device and does nothing else (R523). -/
def Obligations.ButtonPresses : Prop :=
  ∀ s : State, panelOn s.dev = true →
    let d := fun k b => recordPress k b s.dev
    (isFrozen s.dev = true ∨ lowPowerOf s.dev = .active →
      exec .ackShortPress s = .next (settled s { d 1 0 with panel := { (d 1 0).panel with latches := 0, locate := none } }) ∧
      exec .ackLongPress s = .next (settled s { d 2 0 with panel := { (d 2 0).panel with locate := some s.dev.clock } }) ∧
      exec .testShortPress s = .next (settled s { d 1 1 with panel := { (d 1 1).panel with lamp := some s.dev.clock } }) ∧
      (∀ f, exec (.testLongPress f) s = .next (settled s { d 2 1 with panel := { (d 2 1).panel with beadFail := f } })) ∧
      exec .safeLongPress s = .next (settled s (safePress (d 2 2))) ∧
      (∀ b, exec (.chord b) s = .next (settled s (d 3 b)))) ∧
    (isFrozen s.dev = false → lowPowerOf s.dev ≠ .active →
      exec .ackShortPress s = .next (settled s (wakeUp 7 (d 1 0))) ∧ exec .safeLongPress s = .next (settled s (wakeUp 7 (d 2 2)))) ∧
    (∀ k b, (d k b).panel.presses = s.dev.panel.presses + 1 ∧ (d k b).panel.kind = k ∧ (d k b).panel.button = b ∧
      (d k b).panel.latches = s.dev.panel.latches ∧ d k b = { s.dev with panel := (d k b).panel })

/-- The patterns of R548 end by time, and a write to PANEL_CTRL acts as the button does but for a locate (R556). -/
def Obligations.PanelPatterns : Prop :=
  ∀ (s : State) (t0 : Nat),
    (s.dev.panel.locate = some t0 → ∃ t, exec .locateEnd s = .next t ∧ t.dev.panel = { s.dev.panel with locate := none } ∧
      t.dev.clock = max s.dev.clock (t0 + 30000000000) ∧ t.dev.cmd = s.dev.cmd) ∧
    (s.dev.panel.lamp = some t0 → ∃ t, exec .lampTestEnd s = .next t ∧ t.dev.panel = { s.dev.panel with lamp := none } ∧
      t.dev.clock = max s.dev.clock (t0 + 3000000000) ∧ t.dev.cmd = s.dev.cmd) ∧
    (s.dev.panel.refused = some t0 → ∃ t, exec .napRefusalFlashEnd s = .next t ∧ t.dev.panel = { s.dev.panel with refused := none } ∧
      t.dev.clock = max s.dev.clock (t0 + 2000000000) ∧ t.dev.cmd = s.dev.cmd) ∧
    (hostAlive s.dev = true →
      let d := noEnable s.dev
      exec .panelAck s = .next (settled s { d with panel := { d.panel with latches := 0 } }) ∧
      exec .panelLampTest s = .next (settled s { d with panel := { d.panel with lamp := some d.clock } }) ∧
      exec .panelLocate s = .next (settled s { d with panel := { d.panel with locate := some d.clock } }))

/-- The receptacle and the management link (R396, R551 to R555): attaching shows USB and its speed; detaching ends a session opened
there, and no other; a command packet at the receptacle is a submission on its own channel; a link change is noted with its time. -/
def Obligations.ReceptacleAndEthernet : Prop :=
  ∀ s : State,
    (∀ hs, panelOn s.dev = true →
      exec (.usbAttach hs) s = .next (settled s { s.dev with panel := { s.dev.panel with usb := true, usbHs := hs } })) ∧
    (let d : Device := { s.dev with panel := { s.dev.panel with usb := false, usbHs := false } }
     (∀ x, s.dev.sec.session = some x → x.chan = .usb → exec .usbDetach s = .next (settled s (endSession 3 d))) ∧
     (∀ x, s.dev.sec.session = some x → x.chan ≠ .usb → exec .usbDetach s = .next (settled s d)) ∧
     (s.dev.sec.session = none → exec .usbDetach s = .next (settled s d))) ∧
    (∀ bs, s.dev.panel.usb = true → panelOn s.dev = true → (s.dev.cmd.flight.filter fun p => p.chan == .usb).length < 8 →
      exec (.usbPacket bs) s = .next (settled s (submitOn .usb true bs s.dev))) ∧
    (exec (.ethernetLinkChange (!s.dev.sec.mgmtLink)) s = .next (settled s { s.dev with sec := { s.dev.sec with
      mgmtLink := !s.dev.sec.mgmtLink, linkLostAt := if s.dev.sec.mgmtLink then some s.dev.clock else none } })) ∧
    (exec (.ethernetLinkChange s.dev.sec.mgmtLink) s = .next (settled s s.dev))

/-! ### Knots -/

/-- R329, R330: a signal by n adds n to the knot modulo 2^32, or modulo Q for a barrier knot, and changes no other knot; every waiter
whose condition then holds completes with the value, and the others wait on. -/
def Obligations.SignalAddsAndReleases : Prop :=
  ∀ (d : Device) (k n : Nat),
    let v := BitVec.ofNat 32 (((knotOf d k).value.toNat + n) % knotModulus (knotOf d k))
    (knotOf (knotSignal k n d) k).value = v ∧
    (knotOf (knotSignal k n d) k).party = (knotOf d k).party ∧
    (∀ j, j ≠ k → knotOf (knotSignal k n d) j = knotOf d j) ∧
    (knotSignal k n d).knots.waiters =
      d.knots.waiters.filter (fun w => !waitDone k v w) ∧
    (∀ w ∈ d.knots.waiters, waitDone k v w = true → findPacket (knotSignal k n d) w.ref = none) ∧
    (SMap.wf {} d.knots.knots = true → SMap.wf {} (knotSignal k n d).knots.knots = true)

/-- The knot packets (R330, R335): each completes with its result when the caller owns what it names. A wait whose condition holds
completes at once with the value, one whose condition does not waits with its timeout, and a barrier waiter signals first. -/
def Obligations.KnotPacketsComplete : Prop :=
  ∀ (s : State) (r : Ref) (p : Packet) (b : List Byte) (c : Option Nat),
    let d := admitted p b c s.dev; let q := begun p b; let k := field b 0 2; let t := p.hdr.tenant
    (Admits { opcode := 0x0602, size := some 8, dev := true, part := true, reserved := [(2, 2)] } r p b c s.dev → ownsKnot d t k = true →
      exec (.knotSignal r) s = .next (settled s (complete q (knotSignal k (field b 4 4) d)))) ∧
    (Admits { opcode := 0x0604, size := some 4, dev := true, part := true, reserved := [(2, 2)] } r p b c s.dev → ownsKnot d t k = true →
      exec (.knotRead r) s = .next (settled s (finish q stOK
        (leBytes 4 (knotOf d k).value.toNat ++ leBytes 2 (knotOf d k).party.toNat ++ [0, 0]) d))) ∧
    (Admits { opcode := 0x0605, size := some 8, dev := true, part := true, roles := knotRoles, reserved := [(2, 2)] } r p b c s.dev →
      t ≠ 0 → ownsKnot d t k = true → (word32 b 4).toNat < knotModulus (knotOf d k) →
      exec (.knotSet r) s = .next (settled s (complete q (knotEvaluate k (knotPut k (word32 b 4) d))))) ∧
    (Admits { opcode := 0x0603, size := some 12, dev := true, part := true, reserved := [(3, 1)] } r p b c s.dev → ownsKnot d t k = true →
      (field b 2 1 ≤ 1 →
        let cond := if field b 2 1 = 0 then KnotCond.atLeast (word32 b 4) else .equal (word32 b 4)
        (condHolds (knotOf d k).value (2 ^ 32) cond = true →
          exec (.knotWait r) s = .next (settled s (finish q stOK (leBytes 4 (knotOf d k).value.toNat) d))) ∧
        (condHolds (knotOf d k).value (2 ^ 32) cond = false →
          exec (.knotWait r) s = .next (settled s { d with knots := { d.knots with waiters := d.knots.waiters ++
            [{ ref := refOf p, knot := BitVec.ofNat 16 k, cond := cond, modulus := 2 ^ 32,
               due := if field b 8 4 = 0 then none else some (d.clock + field b 8 4 * 1000) }] } }))) ∧
      (field b 2 1 = 2 → (knotOf d k).party ≠ 0 →
        let x := knotOf d k; let e := knotSignal k 1 d
        let want := BitVec.ofNat 32 ((x.value.toNat / x.party.toNat * x.party.toNat + x.party.toNat) % knotModulus x)
        (condHolds (knotOf e k).value (knotModulus x) (.atLeast want) = true →
          exec (.knotWait r) s = .next (settled s (finish q stOK (leBytes 4 (knotOf e k).value.toNat) e))) ∧
        (condHolds (knotOf e k).value (knotModulus x) (.atLeast want) = false → exec (.knotWait r) s =
          .next (settled s { e with knots := { e.knots with waiters := e.knots.waiters ++
            [{ ref := refOf p, knot := BitVec.ofNat 16 k, cond := .atLeast want, modulus := knotModulus x,
               due := if field b 8 4 = 0 then none else some (e.clock + field b 8 4 * 1000) }] } })))) ∧
    (Admits { opcode := 0x0600, size := some 4, dev := true, part := true, roles := knotRoles } r p b c s.dev → t ≠ 0 →
      (∀ n x pa, field b 0 2 = n → 1 ≤ n → n ≤ 1024 → pickRun d n 4096 65536 = some x → partOf d t.toNat = some pa →
        knotsHeld d t + n ≤ pa.knotQuota →
        4096 ≤ x ∧ x + n ≤ 65536 ∧ (∀ i, i < n → (knotOf d (x + i)).allocated = false) ∧
        exec (.knotAlloc r) s = .next (settled s (finish q stOK (leBytes 2 x ++ [0, 0])
          { spend 1 d with knots := { d.knots with knots := (List.range n).foldl (fun m i =>
              SMap.set {} m (x + i) { value := 0, party := word16 b 2, owner := t, allocated := true }) d.knots.knots } })))) ∧
    (Admits { opcode := 0x0601, size := some 4, dev := true, part := true, roles := knotRoles } r p b c s.dev → t ≠ 0 →
      (∀ n, field b 2 2 = n → 1 ≤ n → n ≤ 1024 → k + n ≤ 65536 →
        (∀ i, i < n → ownsKnot d t (k + i) = true ∧ knotBusy d (k + i) = false) →
        exec (.knotFree r) s = .next (settled s (complete q
          { d with knots := { d.knots with knots := ((List.range n).map fun i => k + i).foldl SMap.del d.knots.knots } }))))

/-- R332, R336: a write to the knot window signals its device knot by n, a write of 0 has no effect, a read of it returns the value; and
a wait whose timeout passes ends with KNOT_TIMEOUT at that time and waits no more. -/
def Obligations.KnotWindowAndTimeout : Prop :=
  ∀ s : State,
    (∀ (k : BitVec 12) (n : W32), hostAlive s.dev = true → n ≠ 0 →
      exec (.knotWindowWrite k n) s = .next (settled s (knotSignal k.toNat n.toNat (noEnable s.dev)))) ∧
    (∀ k : BitVec 12, hostAlive s.dev = true → exec (.knotWindowWrite k 0) s = .next (settled s (noEnable s.dev))) ∧
    (∀ k : BitVec 12, regValue s.dev (0x400000 + 4 * k.toNat) = (knotOf s.dev k.toNat).value.toNat) ∧
    (∀ (r : Ref) (w : KnotWaiter) (p : Packet) (t : Nat), isReady s.dev = true → s.dev.knots.waiters.find? (fun w => w.ref == r) = some w →
      findPacket s.dev r = some p → w.due = some t →
      ∃ u, exec (.knotWaitTimeout r) s = .next u ∧ u.dev.clock = max s.dev.clock t ∧
        (∀ x ∈ u.dev.knots.waiters, x.ref ≠ r) ∧ findPacket u.dev (refOf p) = none ∧ u.dev.knots.knots = s.dev.knots.knots)

/-! ### The Gauge -/

/-- A legal quadrature edge of levels that have stood for FILTER ticks moves the edge index by one, up or down, and wraps it at N with a
revolution (R322); no other rotor field but the times and pins of R322 and R323 changes, and two pins that change at once are an error that
loses the reference. Levels that have not stood so long change nothing. -/
def Obligations.RotorCounts : Prop :=
  ∀ (now : Nat) (a b : Bool) (sa sb : Nat) (g : GaugePart), g.rotor ≠ .off → g.e < rotorEdges g →
    let r := rotorStep now a b sa sb g
    (g.filter.toNat ≤ sa → g.filter.toNat ≤ sb →
      ((a = g.pinA ↔ b ≠ g.pinB) →
        (r.up = true → g.e + 1 < rotorEdges g → r.e = g.e + 1 ∧ r.revs = g.revs) ∧
        (r.up = true → g.e + 1 = rotorEdges g → r.e = 0 ∧ r.revs = (g.revs + 1) % 256) ∧
        (r.up = false → 0 < g.e → r.e = g.e - 1 ∧ r.revs = g.revs) ∧
        (r.up = false → g.e = 0 → r.e = rotorEdges g - 1 ∧ r.revs = (g.revs + 255) % 256) ∧
        r.up = ((a != g.pinB) != g.invert) ∧ r.rotor = g.rotor ∧ r.qErr = g.qErr) ∧
      (a ≠ g.pinA → b ≠ g.pinB → r.rotor = .unref ∧ r.qErr = satAdd16 g.qErr 1 ∧ r.e = g.e) ∧
      r.pinA = a ∧ r.pinB = b ∧ r.wall = g.wall ∧ r.grid = g.grid ∧ r.sched = g.sched) ∧
    (sa < g.filter.toNat → sb < g.filter.toNat → r = g)

/-- The events of ROTOR and GRID while the Gauge runs (R322 to R324): an edge is counted at its time; Z, once it has stood for FILTER
ticks, sets the index to 0 and references the rotor; and the three times that R323 and R324 name set the interval to none, enter HOLDOVER and
return to ACQUIRE. -/
def Obligations.RotorAndGridEvents : Prop :=
  ∀ s : State, isFrozen s.dev = false →
    (∀ dt (a b : PinLevel), exec (.rotorEdge dt a b) s =
      .next (settled s (onGauge (rotorStep (advance dt s.dev).clock a.level b.level a.stable b.stable) (advance dt s.dev)))) ∧
    (s.dev.gauge.rotor = .off → exec .rotorZ s = .next (settled s s.dev)) ∧
    (s.dev.gauge.rotor ≠ .off → ∃ t, exec .rotorZ s = .next t ∧ t.dev.clock = s.dev.clock + 10 * s.dev.gauge.filter.toNat ∧ t.dev.gauge.e = 0 ∧ t.dev.gauge.rotor = .locked ∧
      t.dev.gauge.zErr = (if s.dev.gauge.e % rotorEdges s.dev.gauge = 0 then s.dev.gauge.zErr else satAdd16 s.dev.gauge.zErr 1) ∧
      t.dev.gauge.wall = (advance (10 * s.dev.gauge.filter.toNat) s.dev).gauge.wall ∧ t.dev.gauge.grid = s.dev.gauge.grid) ∧
    (∀ t0, s.dev.gauge.edgeAt = some t0 → s.dev.gauge.rotor ≠ .off →
      ∃ t, exec .rotorIdleTimeout s = .next t ∧ t.dev.gauge.interval = 0 ∧ t.dev.clock = max s.dev.clock (t0 + 1000000000)) ∧
    (∀ dt, s.dev.gauge.grid ≠ .off → exec (.gridEdge dt) s =
      .next (settled s (onGauge (gridStep (advance dt s.dev).clock) (advance dt s.dev)))) ∧
    (s.dev.gauge.grid = .locked → ∃ t, exec .gridEdgeTimeout s = .next t ∧ t.dev.gauge.grid = .holdover ∧
      t.dev.host.event.getLsbD evGaugeLock = true) ∧
    (s.dev.gauge.grid = .holdover → ∃ t, exec .gridHoldoverTimeout s = .next t ∧ t.dev.gauge.grid = .acquire ∧
      t.dev.host.event.getLsbD evGaugeLock = true ∧ t.dev.clock = max s.dev.clock (s.dev.gauge.holdAt + 1000000000))

/-- WALL and its reference (R325, R326): a GAUGE_WALL_SET without a reference sets WALL at once, ledgered WALL_STEP; with one it waits,
and the next accepted PPS edge sets WALL to its whole second; an edge of a running reference measures the offset from the nearest second and slews
WALL against it, by 500 ppm at most and at a rate that removes within a second what 500 ppm remove; 1.5 s without an edge ends it with GAUGE_NO_PPS, and takes a disciplined
WALL to HOLDOVER. -/
def Obligations.WallFollowsItsReference : Prop :=
  ∀ s : State,
    (∀ (r : Ref) (p : Packet) (b : List Byte) (c : Option Nat),
      Admits { opcode := 0x0510, size := some 16, dev := true, roles := [roleOperator, roleInstaller, roleMaker], reserved := [(12, 4)] }
        r p b c s.dev →
      (s.dev.gauge.settings.any fun x => x.1 == r) = false → field b 8 4 < 1000000000 →
      let d := admitted p b c s.dev; let q := begun p b
      ledgerRoom d = none →
      (s.dev.gauge.ppsEn = false → field b 0 8 * 1000000000 + field b 8 4 < 2 ^ 64 →
        wallNow d ≤ field b 0 8 * 1000000000 + field b 8 4 →
        exec (.gaugeWallSet r) s = .next (settled s (complete q (ledgerAct q 0x0022 (leBytes 8 (wallNow d)) 0 stOK
          { d with gauge := { d.gauge with wall := field b 0 8 * 1000000000 + field b 8 4, slewRem := 0, slew := 0, slewLeft := 0 } })))) ∧
      (s.dev.gauge.ppsEn = true → field b 0 8 * 1000000000 < 2 ^ 64 → wallNow d ≤ field b 0 8 * 1000000000 →
        exec (.gaugeWallSet r) s = .next (settled s
          { d with gauge := { d.gauge with settings := d.gauge.settings ++ [(refOf p, field b 0 8, d.clock)] } }))) ∧
    (∀ (dt : Nat) (r : Ref) (n began : Nat) (p : Packet), isFrozen s.dev = false → s.dev.gauge.ppsEn = true →
      s.dev.gauge.settings = [(r, n, began)] → findPacket s.dev r = some p → wallNow (advance dt s.dev) ≤ n * 1000000000 →
      ∃ t, exec (.ppsEdge dt) s = .next t ∧ t.dev.gauge.wall = n * 1000000000 ∧ t.dev.gauge.settings = [] ∧ findPacket t.dev (refOf p) = none ∧
        t.dev.gauge.slew = 0) ∧
    (∀ dt : Nat, isFrozen s.dev = false → s.dev.gauge.ppsEn = true → s.dev.gauge.stepped = true → s.dev.gauge.settings = [] →
      let w := wallNow (advance dt s.dev)
      let off : Int := if w % 1000000000 < 500000000 then w % 1000000000 else (w % 1000000000 : Nat) - 1000000000
      ∃ t, exec (.ppsEdge dt) s = .next t ∧ t.dev.gauge.ppsOffset = off ∧ t.dev.gauge.slewLeft = -off ∧ t.dev.gauge.slew.natAbs ≤ 500 ∧
        (0 < off → t.dev.gauge.slew < 0) ∧ (off < 0 → 0 < t.dev.gauge.slew) ∧
        (off.natAbs ≤ 500000 → off.natAbs ≤ t.dev.gauge.slew.natAbs * 1000) ∧ t.dev.gauge.wall = (advance dt s.dev).gauge.wall) ∧
    (∀ (r : Ref) (n began : Nat) rest (p : Packet), isReady s.dev = true → s.dev.gauge.settings = (r, n, began) :: rest →
      findPacket s.dev r = some p →
      ∃ t, exec .wallSetPpsTimeout s = .next t ∧ t.dev.gauge.settings = rest ∧ findPacket t.dev (refOf p) = none ∧
        t.dev.clock = max s.dev.clock (began + 1500000000)) ∧
    (isFrozen s.dev = false → s.dev.gauge.ppsEn = true → s.dev.gauge.stepped = true → s.dev.gauge.wallSt = .locked →
      ∃ t, exec .ppsTimeout s = .next t ∧ t.dev.gauge.wallSt = .holdover ∧ t.dev.host.event.getLsbD evGaugeLock = true)

/-! ### The schedule -/

/-- The schedule's packets (R333): an entry with legal fields goes into the first free slot and its index is the result; an entry of the
caller's is removed or reported. (Tenants'; a role's are ledgered as well.) -/
def Obligations.SchedulePacketsComplete : Prop :=
  ∀ (s : State) (r : Ref) (p : Packet) (b : List Byte) (c : Option Nat), p.hdr.tenant ≠ 0 →
    let d := admitted p b c s.dev; let q := begun p b; let t := p.hdr.tenant
    (∀ e, Admits (schedSpec 0x0520 (if plainLen p = 128 then 128 else 32) [(3, 1), (12, 4), (34, 2)] [(2, 0xF8)]) r p b c s.dev →
      entryOf t b = some e → entryOk b.length e = true → (e.action = .knot → ownsKnot d t e.knot.toNat = true) →
      d.gauge.sched.length < 256 → (d.gauge.sched.filter fun x => x.2.owner == t).length < 32 → e.base ≠ .wall →
      exec (.gaugeSchedAdd r) s = .next (settled s (finish q stOK (leBytes 2 (firstGap 0 d.gauge.sched) ++ [0, 0])
        (schedMiss (firstGap 0 d.gauge.sched) 0 { d with gauge := { d.gauge with
          sched := Assoc.insert d.gauge.sched (firstGap 0 d.gauge.sched) { e with seen := baseFar d e.base } } })))) ∧
    (∀ e, Admits (schedSpec 0x0521 4 [(2, 2)]) r p b c s.dev → ownEntry d t (field b 0 2) = some e →
      exec (.gaugeSchedRemove r) s = .next (settled s (complete q { d with gauge := { d.gauge with
        sched := Assoc.erase d.gauge.sched (field b 0 2) } }))) ∧
    (∀ e, Admits (schedSpec 0x0522 4 [(2, 2)]) r p b c s.dev → ownEntry d t (field b 0 2) = some e →
      ∃ x : List Byte, exec (.gaugeSchedQuery r) s = .next (settled s (finish q stOK x d)) ∧ x.length = 24 ∧
        slice x 4 4 = leBytes 4 e.firings.toNat ∧ slice x 8 4 = leBytes 4 e.misses.toNat ∧ slice x 16 8 = leBytes 8 (entryNext d e))

/-- R327, R328: an entry fires once its base has crossed a target of its in a direction that its DIR admits, and its action follows: a
Fixed-plane run, a signal of its knot by its increment, or an admitted copy of its SERVE_SUBMIT; a tag in flight is a miss instead, and one
whose record is held or in the ring is refused as a packet would be (R61). -/
def Obligations.ScheduleFirings : Prop :=
  ∀ (s : State) (i : Byte) (ticks ns : Nat) (e : SchedEntry) (n : Nat) (d : Device), let dt := 10 * ticks + ns
    (schedFire .fixedRun i.toNat dt s.dev = (some (e, n), d) → d.fix.trigSrc = 1 ∨ d.fix.trigSrc = 2 →
      exec (.schedFixedRun i ticks ns) s = .next (settled s (fixTrigger d))) ∧
    (schedFire .knot i.toNat dt s.dev = (some (e, n), d) →
      exec (.schedKnot i ticks ns) s = .next (settled s (knotSignal e.knot.toNat e.inc.toNat (wakeUp 3 d)))) ∧
    (schedFire .submit i.toNat dt s.dev = (some (e, n), d) →
      let w := wakeUp 3 d; let p := schedPacket w i.toNat n e
      ((tagState w e.tag).1 = 1 → exec (.schedSubmit i ticks ns) s = .next (settled s (schedMiss i.toNat 1 w))) ∧
      ((tagState w e.tag).1 ≠ 1 → takesPackets w .host = true → intakeUsed w + 136 ≤ 262144 →
        (tagFree w .host e.tag = true → ∀ b c,
          let x := wakeUp 2 { w with cmd := { w.cmd with
            flight := w.cmd.flight ++ [p], nextOrder := w.cmd.nextOrder + 1, acceptCount := w.cmd.acceptCount + 1 } }
          Admits submitSpec (refOf p) p b c x →
          exec (.schedSubmit i ticks ns) s = .next (settled s (serveSubmit (begun p b) b (admitted p b c x)))) ∧
        (tagFree w .host e.tag = false → ∃ t, exec (.schedSubmit i ticks ns) s = .next t ∧ t.dev.cmd.flight = w.cmd.flight ∧
          t.dev.cmd.rejectCount = w.cmd.rejectCount + 1 ∧ t.dev.cmd.errCause = 5))) ∧
    (coreAlive s.dev = true → s.dev.boot.phase = .ready → Assoc.find s.dev.gauge.sched i.toNat = some e → e.base ≠ .wall →
      0 < crossed (advance dt s.dev) e → baseFires s.dev.gauge e.base = true →
      ∃ d, schedFire e.action i.toNat dt s.dev = (some (e, e.firings.toNat + 1), d)) ∧
    (e.base ≠ .wall → e.n = 1 → e.dir = 0 → e.offset < baseModulus e.base → e.seen ≤ baseFar d e.base →
      (0 < crossed d e ↔ ∃ k : Int, e.seen < e.offset + k * baseModulus e.base ∧ e.offset + k * baseModulus e.base ≤ baseFar d e.base))

/-! ### The Fixed plane -/

/-- The Fixed plane's packets (R309 to R313), for the role that may send them while the ledger has room: a reservation of free tiles
takes effect on a disarmed plane; a load takes its bytes from the input window, and its last chunk installs an image that passes the checks of
R311; an arm writes the image's zero frame and queues its
check run; the check run's end arms the plane when the count it has measured is the stated one and within the bound, and fails with FIX_BUDGET
otherwise; a disarm takes effect at once. -/
def Obligations.FixPacketsComplete : Prop :=
  ∀ (s : State) (r : Ref) (p : Packet) (b : List Byte) (c : Option Nat),
    let d := admitted p b c s.dev; let q := begun p b
    (Admits (fixSpec 0x0500 4) r p b c s.dev → fixBusy d = false → ledgerRoom d = none → d.fix.armed = false →
      (maskList 32 (word32 b 0).toNat).length ≤ 4 → (maskList 32 (word32 b 0).toNat).any (tileTaken d) = false →
      (word32 b 0 ≠ d.fix.mask →
        exec (.fixReserve r) s = .next (settled s (complete q (saveFix (reserveTiles (word32 b 0) (ledgerConfig q d)))))) ∧
      (word32 b 0 = d.fix.mask → exec (.fixReserve r) s = .next (settled s (refuse q stAlreadyDone (ledgerConfig q d))))) ∧
    (Admits (fixSpec 0x0501 16) r p b c s.dev → fixBusy d = false → ledgerRoom d = none → d.fix.armed = false → d.fix.mask ≠ 0 →
      field b 4 4 % 4 = 0 → field b 8 4 % 4 = 0 → 4 ≤ field b 8 4 → field b 4 4 + field b 8 4 ≤ 65408 → field b 0 4 = 0 → field b 12 4 = 0 →
      ∃ t, exec (.fixLoad r) s = .next t ∧ t.dev.fix.loading = some (runBytes d (field b 4 4) (field b 8 4)) ∧ t.dev.fix.image = none ∧
        t.dev.fix.commit0 = none ∧ t.dev.fix.commit1 = none ∧ findPacket t.dev (refOf p) = none ∧ t.dev.fix.mask = s.dev.fix.mask ∧
        t.dev.fix.fallback = s.dev.fix.fallback) ∧
    (Admits (fixSpec 0x0501 16) r p b c s.dev → fixBusy d = false → ledgerRoom d = none → d.fix.armed = false → d.fix.mask ≠ 0 →
      field b 4 4 % 4 = 0 → field b 8 4 % 4 = 0 → 4 ≤ field b 8 4 → field b 4 4 + field b 8 4 ≤ 65408 → field b 0 4 = 0 → field b 12 4 = 1 →
      let img := runBytes d (field b 4 4) (field b 8 4)
      ∃ t, exec (.fixLoad r) s = .next t ∧ t.dev.fix.loading = none ∧ findPacket t.dev (refOf p) = none ∧ t.dev.fix.mask = s.dev.fix.mask ∧
        (imageFault img (fixTiles d).length = none → t.dev.fix.image = some img ∧ t.dev.fix.digest = digest32 img) ∧
        (imageFault img (fixTiles d).length ≠ none → t.dev.fix.image = none)) ∧
    (∀ img, Admits (fixSpec 0x0502 4) r p b c s.dev → s.dev.fix.arming = none → fixBusy d = false → ledgerRoom d = none →
      d.fix.image = some img → field img 2 1 = (fixTiles d).length → 4 ≤ field b 0 4 → field b 0 4 ≤ 100 →
      exec (.fixArm r) s = .next (settled s (queueImage img []
        { d with fix := { d.fix with arming := some (refOf p, field b 0 4) } }))) ∧
    (Admits (fixSpec 0x0503 0) r p b c s.dev → s.dev.fix.arming = none → ledgerRoom d = none →
      (d.fix.armed = true → ∃ t, exec (.fixDisarm r) s = .next t ∧ t.dev.fix.armed = false ∧ t.dev.fix.mask = s.dev.fix.mask ∧
        t.dev.fix.image = s.dev.fix.image ∧ findPacket t.dev (refOf p) = none)) ∧
    (∀ (dt : Nat) (img : List Byte) (bound : Nat), isReady s.dev = true → listsEnded s.dev = true → s.dev.fix.arming = some (r, bound) →
      s.dev.fix.image = some img → findPacket s.dev r = some p →
      (planCount img s.dev = field img 12 4 → overBound (imgCycle img) bound = false →
        ∃ t, exec (.fixArmCheckDone dt) s = .next t ∧ t.dev.fix.armed = true ∧ t.dev.fix.arming = none ∧
          t.dev.fix.bound = BitVec.ofNat 7 bound ∧ findPacket t.dev (refOf p) = none) ∧
      (planCount img s.dev ≠ field img 12 4 ∨ overBound (imgCycle img) bound = true →
        ∃ t, exec (.fixArmCheckDone dt) s = .next t ∧ t.dev.fix.armed = s.dev.fix.armed ∧ t.dev.fix.arming = none ∧
          findPacket t.dev (refOf p) = none))

/-- Triggers and answers (R315 to R319): a trigger while a run is in progress only counts an overlap; otherwise RDY falls, the run is
numbered, and it runs on the fallback in effect. At its answer cycle a run without a frame gives the fallback with its reasons, marked
DEGRADED; one with a frame gives the image's outputs once its lists have ended; either way RDY rises and the run is over. -/
def Obligations.TriggerAndAnswer : Prop :=
  ∀ s : State, coreAlive s.dev = true → s.dev.boot.phase = .ready → s.dev.boot.trigWake = false →
    (s.dev.fix.trigSrc = 0 →
      (∀ x, s.dev.fix.run = some x → exec .trig s = .next (settled s { s.dev with fix := { s.dev.fix with
        overlap := true, overlaps := s.dev.fix.overlaps + 1 } })) ∧
      (∀ fb, s.dev.fix.run = none → s.dev.fix.fallback = some fb → exec .trig s =
        .next (settled s (startRun fb { s.dev with fix := { s.dev.fix with rdy := false, runNo := s.dev.fix.runNo + 1 } })))) ∧
    (∀ x, s.dev.fix.run = some x → x.frame = none →
      exec .answerCycle s = .next (settled s (putAnswer x x.reasons 0 x.fb.bytes (advanceTo (x.at_ + cycleEnd x.fb.cycle) s.dev)))) ∧
    (∀ x f q img, s.dev.fix.run = some x → x.frame = some (f, q) →
      let d := advanceTo (x.at_ + cycleEnd x.fb.cycle) s.dev
      d.fix.image = some img → listsEnded d = true →
      let e := finishPlan d
      exec .answerCycle s = .next (settled s (reportRun q
        (putAnswer x 0 q (answerOf img ((e.fix.plan.map (·.outs)).getD []) (freeBytes answerMax e)) (spend answerMax e))))) ∧
    (∀ x why q ans d, (putAnswer x why q ans d).fix.rdy = true ∧ (putAnswer x why q ans d).fix.run = none ∧
      (putAnswer x why q ans d).fix.answer = ans ∧ ((putAnswer x why q ans d).fix.lastDegraded = true ↔ why ≠ 0))

/-- The windows (R316, R337): bytes written into a frame buffer outside its clash window are read back, no other byte changes, and the
buffer's commit is no longer in effect; in the clash window they are discarded and counted. FRAME_COMMIT puts a commit of its sequence and
length in effect, unless a load is in progress. Writing 1 to RDY_CLR drops RDY. -/
def Obligations.FrameWindow : Prop :=
  ∀ s : State, hostAlive s.dev = true →
    let d := noEnable s.dev
    (∀ (off : W16) (bs : List Byte), exec (.frameWrite off bs) s = .next (settled s (windowWrite off.toNat bs d))) ∧
    (∀ (b : Bool) (off : W16) (bs : List Byte), bs ≠ [] → (if b then 0x8000 else 0) ≤ off.toNat →
      off.toNat + bs.length ≤ (if b then 0x8000 else 0) + 32704 →
      (clashes s.dev b = false → ∃ t, exec (.frameWrite off bs) s = .next t ∧
        (∀ i, i < bs.length → inputByte t.dev (off.toNat + i) = byteAt bs i) ∧
        (∀ x, x < off.toNat ∨ off.toNat + bs.length ≤ x → inputByte t.dev x = inputByte s.dev x) ∧
        commitOf t.dev.fix b = none ∧ commitOf t.dev.fix (!b) = commitOf s.dev.fix (!b) ∧ t.dev.fix.run = s.dev.fix.run) ∧
      (clashes s.dev b = true → exec (.frameWrite off bs) s = .next (settled s { d with fix := { d.fix with
        inClash := true, clashes := d.fix.clashes + 1 } }))) ∧
    (∀ (buf : BitVec 1) (q n : W32),
      exec (.frameCommit buf q n) s = .next (settled s (windowWrite (0xFFC0 + 8 * buf.toNat) (leBytes 4 q.toNat ++ leBytes 4 n.toNat) d)) ∧
      (s.dev.fix.loading = none → ∃ t, exec (.frameCommit buf q n) s = .next t ∧
        commitOf t.dev.fix (buf == 1) = some { seq := q, len := n, order := s.dev.fix.commits } ∧
        commitOf t.dev.fix (buf != 1) = commitOf s.dev.fix (buf != 1) ∧ t.dev.fix.commits = s.dev.fix.commits + 1) ∧
      (s.dev.fix.loading.isSome = true → ∃ t, exec (.frameCommit buf q n) s = .next t ∧
        t.dev.fix.commit0 = s.dev.fix.commit0 ∧ t.dev.fix.commit1 = s.dev.fix.commit1)) ∧
    (∀ v : W32, (v.getLsbD 0 = true → exec (.fixRdyClrWrite v) s = .next (settled s { d with fix := { d.fix with rdy := false } })) ∧
      (v.getLsbD 0 = false → exec (.fixRdyClrWrite v) s = .next (settled s d)))

/-! ### The arrays -/

/-- MATMUL, CONV and SCORE (R126 to R153): the valid pass at the head of a tile's list, of the command's kind and not held by R150 or
R164, issues: the list goes on to the next descriptor, the pass is in flight with its knot, its registers and the rows that it will drain,
its arrays are on and hold the tile it names, or under HOLD_W the weights they held; and nothing outside the tile, and no byte of fabric
space, changes until it drains (on a tile of the Fixed plane the bus plan has run up to the issue cycle). A pass that is held waits, one
whose every row is marked is removed (R152), and one that fails a check takes its list away with TILE_ERR and LIST_ERR (R149). -/
def Obligations.PassesIssueInOrder : Prop :=
  ∀ (s : State) (k : Tile) (l : QList) (ls : List QList), coreAlive s.dev = true → (tileOf s.dev k.toNat).passes = l :: ls →
    l.addr + 128 * l.index + 128 ≤ storeSize →
    let d := s.dev
    let rd := fun off n => storeBytes d k.toNat off n
    let p := passDesc (rd (l.addr + 128 * l.index) 128)
    let env := fun a => envOf (arrayOf (tileOf d k.toNat) a)
    let gone := !l.kill.isEmpty && (List.range p.rows).all l.marked
    ∀ x ∈ [(Instr.matmul k, 1), (.conv k, 2), (.score k, 3)], p.kind = x.2 →
      (gone = true → exec x.1 s = .next (settled s (onTile k.toNat (fun ts =>
        { ts with passes := { l with index := l.index + 1 } :: ls }) d))) ∧
      (gone = false → passFault rd l.origin env p = none → passWaits d k.toNat l p = true → exec x.1 s = .next (settled s d)) ∧
      (gone = false → ∀ f, passFault rd l.origin env p = some f → exec x.1 s = .next (settled s (failList k.toNat l false f.cause d))) ∧
      (gone = false → passFault rd l.origin env p = none → passWaits d k.toNat l p = false →
        let e := if l.origin == .fixed then runPlan k.toNat (passIssue k.toNat l p d).1 d else d
        ∃ t, exec x.1 s = .next t ∧
          (tileOf t.dev k.toNat).passes = { l with index := l.index + 1 } :: ls ∧
          (∃ f, (tileOf t.dev k.toNat).flight = (tileOf e k.toNat).flight ++ [f] ∧ f.list = l ∧ f.arrays = BitVec.ofNat 4 p.mask ∧
            f.knot = BitVec.ofNat 32 p.knot ∧ f.regs = p.writes ∧ f.reads = p.reads ∧ f.rows = pendingRows k.toNat l p e ∧
            f.start = (passIssue k.toNat l p e).1) ∧
          (∀ a ∈ p.arrays, (arrayOf (tileOf t.dev k.toNat) a).on = true ∧
            (arrayOf (tileOf t.dev k.toNat) a).loaded = (if p.holdW then (arrayOf (tileOf e k.toNat) a).loaded
              else some (usedHdr k.toNat p e a)) ∧
            (p.holdW = true → (arrayOf (tileOf t.dev k.toNat) a).cw = (arrayOf (tileOf e k.toNat) a).cw) ∧
            ((usedHdr k.toNat p e a).lastK = true →
              (arrayOf (tileOf t.dev k.toNat) a).carry = (arrayOf (tileOf e k.toNat) a).carry) ∧
            ((usedHdr k.toNat p e a).lastK = false → ∃ c, (arrayOf (tileOf t.dev k.toNat) a).carry = some c ∧ c.accId = p.accId ∧
              c.arrays = BitVec.ofNat 4 p.mask)) ∧
          (∀ a, a ∉ p.arrays → arrayOf (tileOf t.dev k.toNat) a = arrayOf (tileOf e k.toNat) a) ∧
          (tileOf t.dev k.toNat).vecs = (tileOf d k.toNat).vecs ∧ (tileOf t.dev k.toNat).vflight = (tileOf d k.toNat).vflight ∧
          tileFrame k.toNat [] e t.dev)

/-- END, completion and the idle time of an array (R146, R147, R154, R466): END takes the list away; the oldest pass in flight makes its
drains, which write the ranges of its rows and no other byte, and leaves the tile with TILE_PASS_COUNT one up and its knot signalled by one,
and no other knot changed; on the Fixed plane it waits for the turn of its cycle; an array idle for 1 ms goes off. -/
def Obligations.PassesEndAndComplete : Prop :=
  ∀ (s : State) (k : Tile), coreAlive s.dev = true →
    (∀ l ls, (tileOf s.dev k.toNat).passes = l :: ls → l.addr + 128 * l.index + 128 ≤ storeSize →
      (storeBytes s.dev k.toNat (l.addr + 128 * l.index) 128) = 0xFF :: zeros 127 →
      ∃ t, exec (.passListEnd k) s = .next t ∧ (tileOf t.dev k.toNat).passes = ls ∧
        (tileOf t.dev k.toNat).flight = (tileOf s.dev k.toNat).flight ∧ (∀ j, j ≠ k.toNat → tileOf t.dev j = tileOf s.dev j) ∧
        t.dev.fab = s.dev.fab ∧ t.dev.knots = s.dev.knots ∧ t.dev.cmd = s.dev.cmd) ∧
    (∀ f fs, (tileOf s.dev k.toNat).flight = f :: fs →
      (f.list.origin = .fixed → planTurn s.dev k.toNat 0 = false → exec (.passComplete k) s = .next (settled s s.dev)) ∧
      ((f.list.origin = .fixed → planTurn s.dev k.toNat 0 = true) →
        let e := if f.list.origin == .fixed then runPlan k.toNat f.done s.dev else s.dev
        ∃ t, exec (.passComplete k) s = .next t ∧ (tileOf t.dev k.toNat).flight = (tileOf e k.toNat).flight.drop 1 ∧
          (tileOf t.dev k.toNat).passCount = (tileOf s.dev k.toNat).passCount + 1 ∧
          (tileOf t.dev k.toNat).passes = (tileOf s.dev k.toNat).passes ∧
          (∀ x, (∀ g ∈ (tileOf e k.toNat).flight.head?, ∀ r ∈ g.rows, ∀ o ∈ r.outs f,
            x < tileBase k.toNat + o.1 ∨ tileBase k.toNat + o.1 + o.2 ≤ x) → Mem.byte t.dev.fab x = Mem.byte e.fab x) ∧
          (∀ n, (knotOf t.dev n).value = if f.knot.getLsbD 31 ∧ n = f.knot.toNat % 65536 then
            BitVec.ofNat 32 (((knotOf s.dev n).value.toNat + 1) % knotModulus (knotOf s.dev n)) else (knotOf s.dev n).value))) ∧
    (∀ a : BitVec 2, (arrayOf (tileOf s.dev k.toNat) a.toNat).on = true → s.dev.fix.mask.getLsbD k.toNat = false →
      ((tileOf s.dev k.toNat).flight.any fun f => f.arrays.getLsbD a.toNat) = false →
      ∃ t, exec (.arrayDomainIdleOff k a) s = .next t ∧
        tileOf t.dev k.toNat = onArray a.toNat (fun x => { x with on := false }) (tileOf s.dev k.toNat) ∧
        (∀ j, j ≠ k.toNat → tileOf t.dev j = tileOf s.dev j) ∧ t.dev.fab = s.dev.fab ∧
        t.dev.clock = max s.dev.clock ((arrayOf (tileOf s.dev k.toNat) a.toNat).idleAt + 1000000))

/-! ### The vector engine -/

/-- STITCH, REDUCE, LOAD and STORE (R160 to R186): the valid descriptor at the head of a tile's vector list, with none in flight and no
register of it held, runs: it is in flight with its knot, registers and cost, the list stands until it completes, and nothing changes
but the tile's registers, accumulators, program, lanes and counters, and the bytes that a STORE writes (on a tile of the Fixed plane the bus
plan has run up to its issue cycle). -/
def Obligations.VectorDescriptorsRun : Prop :=
  ∀ (s : State) (k : Tile) (l : QList) (ls : List QList), coreAlive s.dev = true → (tileOf s.dev k.toNat).vecs = l :: ls →
    (tileOf s.dev k.toNat).vflight = none → (tileOf s.dev k.toNat).vwait = none → l.addr + 64 * l.index + 64 ≤ storeSize →
    let d := s.dev
    let rd := fun off n => storeBytes d k.toNat off n
    let v := vecDesc (rd (l.addr + 64 * l.index) 64)
    ∀ x ∈ [(Instr.stitch k, 0x11), (.reduce k, 0x12), (.load k, 0x13), (.store k, 0x14)], v.kind = x.2 →
      (∀ f, vecFault rd v = some f → exec x.1 s = .next (settled s (failList k.toNat l true f.cause d))) ∧
      (vecFault rd v = none → vecHeld d k.toNat l v = true → exec x.1 s = .next (settled s d)) ∧
      (vecFault rd v = none → vecHeld d k.toNat l v = false →
        let at_ := (nextVecAt d k.toNat).getD 0
        let e := if l.origin == .fixed then runPlan k.toNat at_ d else d
        ∃ t, exec x.1 s = .next t ∧
          (tileOf t.dev k.toNat).vflight = some
            { knot := BitVec.ofNat 32 v.knot, regs := v.writes, reads := v.regs, cycles := vecCycles rd v
              done := if l.origin == .fixed then at_ + vecCycles rd v else 0, tenant := l.tenant, job := l.job, layer := l.layer } ∧
          (tileOf t.dev k.toNat).vecs = l :: ls ∧ (tileOf t.dev k.toNat).passes = (tileOf d k.toNat).passes ∧
          (tileOf t.dev k.toNat).arrays = (tileOf d k.toNat).arrays ∧ (tileOf t.dev k.toNat).flight = (tileOf e k.toNat).flight ∧
          tileFrame k.toNat (if v.kind ≠ 0x14 then [] else if v.acc then [(field v.raw 16 4, 256)] else
            (List.range (field v.raw 28 1)).map (fun i =>
              (field v.raw 16 4 + i * field v.raw 20 4, slotRow (v.src.getD 0 (slotOf 0)) v.span)) ++
            if bitOf (field v.raw 29 1) 0 then [(field v.raw 24 4, field v.raw 28 1)] else []) e t.dev)

/-- WAIT, END and completion (R160, R161, R163, R330): a WAIT whose knot has reached its value completes in one cycle like any descriptor,
with its own knot to signal, one whose knot has not waits for it; END takes the list away; the descriptor in flight completes with its knot
signalled by one, and its list goes on. -/
def Obligations.VectorListsWaitAndEnd : Prop :=
  ∀ (s : State) (k : Tile), coreAlive s.dev = true →
    (∀ l ls, (tileOf s.dev k.toNat).vecs = l :: ls → (tileOf s.dev k.toNat).vflight = none → (tileOf s.dev k.toNat).vwait = none →
      l.addr + 64 * l.index + 64 ≤ storeSize →
      let b := storeBytes s.dev k.toNat (l.addr + 64 * l.index) 64
      (b = 0xFF :: zeros 63 → ∃ t, exec (.vectorEnd k) s = .next t ∧
        tileOf t.dev k.toNat = { tileOf s.dev k.toNat with vecs := ls } ∧ t.dev.fab = s.dev.fab ∧ t.dev.knots = s.dev.knots ∧
        t.dev.cmd = s.dev.cmd ∧ ∀ j, j ≠ k.toNat → tileOf t.dev j = tileOf s.dev j) ∧
      (vecFault (fun off n => storeBytes s.dev k.toNat off n) (vecDesc b) = none → field b 0 1 = 0x15 →
        (condHolds (knotOf s.dev (field b 16 2)).value (2 ^ 32) (.atLeast (word32 b 20)) = true →
          exec (.vectorWait k) s = .next (settled s (onTile k.toNat (fun ts => { ts with
            vflight := some { knot := word32 b 60, regs := [], cycles := 1, tenant := l.tenant, job := l.job, layer := l.layer } })
            s.dev))) ∧
        (condHolds (knotOf s.dev (field b 16 2)).value (2 ^ 32) (.atLeast (word32 b 20)) = false →
          exec (.vectorWait k) s = .next (settled s (onTile k.toNat (fun ts =>
            { ts with vwait := some (word16 b 16, word32 b 20, word32 b 60) }) s.dev))))) ∧
    (∀ v, (tileOf s.dev k.toNat).vflight = some v → (tileOf s.dev k.toNat).vwait = none →
      (s.dev.fix.mask.getLsbD k.toNat = true → planTurn s.dev k.toNat 1 = false →
        exec (.vectorDescriptorComplete k) s = .next (settled s s.dev)) ∧
      ((s.dev.fix.mask.getLsbD k.toNat = true → planTurn s.dev k.toNat 1 = true) →
        ∃ t, exec (.vectorDescriptorComplete k) s = .next t ∧ (tileOf t.dev k.toNat).vflight = none ∧
          (∀ l ls, (tileOf s.dev k.toNat).vecs = l :: ls → (tileOf t.dev k.toNat).vecs =
            if v.orphan then l :: ls else { l with index := l.index + 1 } :: ls) ∧
          (s.dev.fix.mask.getLsbD k.toNat = false →
            tileOf t.dev k.toNat = { tileOf s.dev k.toNat with vflight := none, vecs := (tileOf t.dev k.toNat).vecs }) ∧
          t.dev.fab = s.dev.fab ∧
          (∀ n, (knotOf t.dev n).value = if v.knot.getLsbD 31 ∧ n = v.knot.toNat % 65536 then
            BitVec.ofNat 32 (((knotOf s.dev n).value.toNat + 1) % knotModulus (knotOf s.dev n)) else (knotOf s.dev n).value)))

/-! ### Arenas and their storage -/

/-- The 0x02xx packets (R188 to R205, R220 to R224, R447): what each does to the buffer and extent it names. An allocation forms a buffer
of the size asked for, in whole 4 KiB, whose handle is the result; a free makes the handle stale and sends its storage to scrubbing; a
migration changes the extents it names one after the other, and ends at once where no byte moves; a copy is cut into bursts of at most the
size given, each within a channel: those from SRAM land at once, those from DRAM are raised with the header's deadline (R219, R221); the
others open, close, settle, flush and report. -/
def Obligations.MemoryPacketsComplete : Prop :=
  ∀ (s : State) (r : Ref) (p : Packet) (b : List Byte) (c : Option Nat),
    let d := admitted p b c s.dev; let q := begun p b; let t := p.hdr.tenant.toNat; let i := field b 4 2
    (∀ pt full ext slot a' homes d', Admits (memSpec 0x0200 16 [(14, 2)]) r p b c s.dev → partOf d t = some pt →
      full = roundUp (field b 0 8) 4096 → ext = (if field b 8 4 = 0 then 0x400000 else field b 8 4) →
      1 ≤ field b 0 8 → field b 0 8 ≤ 2 ^ 32 → ext % 4096 = 0 → 4096 ≤ ext → ext ≤ 0x4000000 → field b 12 1 ≤ 3 →
      (field b 12 1 ≤ 1 → affinityOk pt (byteAt b 13) = true) → (field b 12 1 = 0 → min ext full ≤ 0x800000) →
      (extentsOf (arenaOf d t)).length + ceilDiv full ext ≤ 4096 → (arenaOf d t).bufs.length < 4096 →
      nextSlot (arenaOf d t) = some (slot, a') →
      (if field b 12 1 = 0 then some [] else homesFor (maskList 32 pt.dramMask.toNat) (extentSizes full ext)
        (roomiest (heldRanges d) (maskList 32 pt.dramMask.toNat)) (heldRanges d)) = some homes →
      (if field b 12 1 ≤ 1 then placeCopies t slot (field b 12 1) (placesOf pt (byteAt b 13)) (extentSizes full ext).zipIdx
        (formBuffer t slot full ext (field b 12 1) (byteAt b 13) (extentSizes full ext) homes a' d)
        else some (formBuffer t slot full ext (field b 12 1) (byteAt b 13) (extentSizes full ext) homes a' d)) = some d' →
      exec (.memAlloc r) s = .next (settled s (finish q stOK
        (leBytes 4 (handleOf t (SMap.get 1 a'.gens slot) slot) ++ leBytes 2 (ceilDiv full ext) ++ [0, 0]) d'))) ∧
    (∀ slot buf, bufOf d t (field b 0 4) = some (slot, buf) →
      (Admits (memSpec 0x0201 8 [(4, 4)]) r p b c s.dev → isMounted d t slot buf.gen = false → buf.extents.any isOpen = false →
        (d.cmd.flight.any fun x => namesHandle d q x (field b 0 4)) = false →
        ∃ u, exec (.memFree r) s = .next u ∧ bufOf u.dev t (field b 0 4) = none ∧ findPacket u.dev (refOf p) = none ∧
          u.dev.mem.scrubbing = s.dev.mem.scrubbing ++ buf.extents.flatMap (fun e =>
            (e.home.toList ++ e.copy.toList).map fun a => (a, e.size)) ∧
          u.dev.fab = s.dev.fab ∧ (∀ t', t' ≠ t → arenaOf u.dev t' = arenaOf s.dev t')) ∧
      (∀ pt tier n, Admits (memSpec 0x0202 16 [(10, 6)]) r p b c s.dev → partOf d t = some pt → tier = field b 8 1 → n = field b 6 2 →
        tier ≤ 3 → 1 ≤ n → (tier ≤ 1 → affinityOk pt (byteAt b 9) = true) → i + n ≤ buf.extents.length →
        exec (.memMigrate r) s = .next (settled s
          (migWalk q t slot tier i (i + n) (byteAt b 9) pt ((List.range n).map (i + ·)) false true d)) ∧
        (∀ e, n = 1 → buf.extents[i]? = some e → e.opened = false →
          (tier = 3 → e.state = .d → isMounted d t slot buf.gen = false → exec (.memMigrate r) s =
            .next (settled s (complete q (onExtent t slot i (fun e => { e with state := .outbound }) d)))) ∧
          (tier = 2 → e.state = .ds → buf.flag ≠ 0 → exec (.memMigrate r) s =
            .next (settled s (hold q (onExtent t slot i (fun e => { e with state := .evicting }) d)))) ∧
          (∀ x, tier = 1 → e.state = .d → buf.flag = 1 ∨ buf.flag = 2 → e.size ≤ 0x800000 →
            sramFor d t e.size [0xFE] = some x → exec (.memMigrate r) s =
            .next (settled s (hold q (startPromotion t slot i x d)))))) ∧
      (Admits (memSpec 0x0207 8 [(4, 4)]) r p b c s.dev →
        exec (.memFlush r) s = .next (settled s (finish q stOK
          (leBytes 4 ((buf.extents.filter (·.state == .ds)).map (·.dirty.length)).sum)
          ((buf.extents.zipIdx.filter fun x => x.1.state == .ds).foldl (fun d x => writeHome t slot x.2 d) d)))) ∧
      (∀ e, buf.extents[i]? = some e →
        (Admits (memSpec 0x0203 8 [(6, 2)]) r p b c s.dev →
          (((extentsOf (arenaOf d t)).filter fun x => isOpen x.2.2.2).length < 64 ∨ isOpen e = true) →
          (e.state = .d ∨ e.state = .ds ∨ e.state = .s → exec (.memOpen r) s = .next (settled s (finish q stOK
            (leBytes 8 ((readBase e).getD 0)) (onExtent t slot i (fun e => { e with opened := true }) d)))) ∧
          (e.state = .outbound ∨ e.state = .inbound → exec (.memOpen r) s =
            .next (settled s (finish q stOK (leBytes 8 ((readBase e).getD 0)) d)))) ∧
        (Admits (memSpec 0x0204 8 [(6, 2)]) r p b c s.dev → onHostTier e = false → e.opened = true →
          exec (.memClose r) s = .next (settled s (complete q (onExtent t slot i (fun e => { e with opened := false }) d)))) ∧
        (Admits (memSpec 0x0205 8 [(6, 2)]) r p b c s.dev →
          (e.state = .outbound → exec (.memSettle r) s = .next (settled s (resumeRequests (complete q
            (toScrub e.home e.size (onExtent t slot i (fun e => { e with state := .h, home := none }) d)))))) ∧
          (e.state = .inbound → exec (.memSettle r) s = .next (settled s (resumeRequests (autoPromote t (complete q
            (onExtent t slot i (fun e => { e with state := .d }) d))))))) ∧
        (Admits (memSpec 0x0208 8 [(6, 2)]) r p b c s.dev → ∃ x : List Byte,
          exec (.memQuery r) s = .next (settled s (finish q stOK x d)) ∧ x.length = 24 ∧ byteAt x 0 = e.state.code ∧
          byteAt x 1 = BitVec.ofNat 8 buf.flag ∧ byteAt x 2 = e.place ∧
          byteAt x 3 = (if isOpen e then 2 else 0) ||| (if isWanted d t slot i then 1 else 0) ∧ slice x 4 4 = leBytes 4 e.size ∧
          slice x 8 4 = leBytes 4 e.dirty.length ∧ (isOpen e = false → slice x 16 8 = zeros 8)))) ∧
    (∀ ss sb ds db n, Admits (memSpec 0x0206 24) r p b c s.dev → n = field b 16 4 → bufOf d t (field b 0 4) = some (ss, sb) →
      bufOf d t (field b 8 4) = some (ds, db) → 1 ≤ n → 1 ≤ field b 20 4 → field b 20 4 % 64 = 0 → field b 20 4 ≤ 0x100000 →
      field b 4 4 + n ≤ sb.size → field b 12 4 + n ≤ db.size → (ss = ds → rangesMeet (field b 4 4) n (field b 12 4) n = false) →
      isMounted d t ds db.gen = false → hostHeld sb (field b 4 4) n = false → hostHeld db (field b 12 4) n = false →
      p.reads = none →
      let bursts := copyBursts sb (field b 4 4) (field b 12 4) n (field b 20 4)
      let far := bursts.filter fun x => (channelOf x.1).isSome
      let d' := (bursts.filter fun x => (channelOf x.1).isNone).foldl (fun d x => bufWrite t ds db x.2.2 (fabRead d x.1 x.2.1) d)
        (touch t ds db (field b 12 4) n (touch t ss sb (field b 4 4) n (dropHold (.packet (refOf p)) d)))
      (∀ x ∈ bursts, x.2.1 ≤ field b 20 4 ∧ ∀ c, channelOf x.1 = some c → x.1 + x.2.1 ≤ channelBase c + channelSize) ∧
      (far = [] → exec (.memCopy r) s = .next (settled s (complete q d'))) ∧
      (far ≠ [] → exec (.memCopy r) s = .next (settled s (raiseAll
        (far.map fun x => { who := (streamTile t d').1, lst := (if p.hdr.deadline = 0 then 2 ^ 64 - 1 else p.hdr.deadline.toNat),
                            tenant := p.hdr.tenant, job := p.hdr.job, load := .copy (refOf p) ds x.2.2, addr := x.1, len := x.2.1 })
        (onPacket (refOf p) (fun q => { q with reads := some [], left := far.length }) (hold q (streamTile t d').2)))))) ∧
    (∀ pt, Admits (memSpec 0x0209 0) r p b c s.dev → partOf d t = some pt →
      exec (.memArenaInfo r) s = .next (settled s (finish q stOK (arenaInfo d t pt) d)))

/-- R190, R447: the homes an allocation gets lie each within one channel of those the partition has, and meet neither each other nor any
storage that was held. -/
def Obligations.HomesAreFree : Prop :=
  ∀ (chans sizes : List Nat) (start : Nat) (busy : List (Nat × Nat)) (homes : List Nat),
    homesFor chans sizes start busy = some homes →
      homes.length = sizes.length ∧
      (∀ x ∈ homes.zip sizes, (∃ ch ∈ chans, channelBase ch ≤ x.1 ∧ x.1 + x.2 ≤ channelBase ch + channelSize) ∧
        ∀ y ∈ busy, x.1 + x.2 ≤ y.1 ∨ y.1 + y.2 ≤ x.1) ∧
      (homes.zip sizes).Pairwise fun x y => x.1 + x.2 ≤ y.1 ∨ y.1 + y.2 ≤ x.1

/-- The movement engine (R194, R197 to R200): once its copier has read it all, a promotion's copy holds what the home holds and the extent is in DS; an eviction's
dirty blocks go home first, the extent is in D and the copy's storage goes to scrubbing; a scrub's storage reads zero. Operations that
waited are taken up again. -/
def Obligations.MovementEngine : Prop :=
  ∀ s : State, coreAlive s.dev = true →
    (∀ (h : W32) (x : W16) slot buf e, bufOf s.dev (h.toNat / 2 ^ 28) h.toNat = some (slot, buf) → buf.extents[x.toNat]? = some e →
      let t := h.toNat / 2 ^ 28
      (∀ a k, e.state = .promoting → e.home = some a → e.copy = some k → copying s.dev t slot buf.gen x.toNat = false →
        exec (.promotionComplete h x) s = .next (settled s (retryMem (onArena t (fun a => { a with promotions := satAdd32 a.promotions 1 })
          (onExtent t slot x.toNat (fun e => { e with state := .ds, dirty := [], used := s.dev.clock })
            (fabWrite k (fabRead s.dev a e.size) s.dev)))))) ∧
      (e.state = .evicting →
        exec (.evictionComplete h x) s = .next (settled s (retryMem (onArena t (fun a => { a with evictions := satAdd32 a.evictions 1 })
          (toScrub e.copy e.size (onExtent t slot x.toNat (fun e => { e with state := .d, copy := none, place := 0xFF })
            (writeHome t slot x.toNat s.dev))))))) ∧
      (∀ a k, extentOf s.dev t slot x.toNat = some e → e.home = some a → e.copy = some k →
        ∀ y, (∀ n ∈ e.dirty, y < a + n * 4096 ∨ a + n * 4096 + 4096 ≤ y) →
          Mem.byte (writeHome t slot x.toNat s.dev).fab y = Mem.byte s.dev.fab y)) ∧
    (exec .scrubComplete s = .next (settled s (autoPromoteAll (retryMem
      { (s.dev.mem.scrubbing.foldl (fun d r => fabScrub r.1 r.2 d) s.dev) with mem := { s.dev.mem with scrubbing := [] } })))) ∧
    (∀ x, (∃ r ∈ s.dev.mem.scrubbing, r.1 ≤ x ∧ x < r.1 + r.2) →
      Mem.byte (s.dev.mem.scrubbing.foldl (fun d r => fabScrub r.1 r.2 d) s.dev).fab x = 0)

/-- The stream engine (R200, R206 to R219): a grant goes to the waiting request with the smallest latest-service time, ties to the lower
requester, at a point without an owner; a request takes a grant from an owner of another requester only with a strictly smaller time; a
fetch opens the slot of the next layer that the window has room for, at most two ahead; a transfer's end frees the point and its data lands:
a window's block is decoded once it is whole, a copy's burst is written, a promotion's copier goes on; a missed deadline skips a layer marked
for it where every condition of R210 holds and parks the step otherwise; a partial row of an ATOMIC tensor that reaches its home tile is
added there. -/
def Obligations.StreamEngine : Prop :=
  ∀ s : State, coreAlive s.dev = true →
    (∀ pt : BitVec 6, (arbOf s.dev pt.toNat).owner = none → (arbOf s.dev pt.toNat).waiting ≠ [] → pointOpen s.dev pt.toNat = true →
      ∃ r ∈ (arbOf s.dev pt.toNat).waiting,
        (∀ x ∈ (arbOf s.dev pt.toNat).waiting, r.lst < x.lst ∨ (r.lst = x.lst ∧ r.who ≤ x.who)) ∧
        exec (.arbiterGrant pt) s = .next (settled s (onArb pt.toNat (fun a =>
          { a with owner := some r, waiting := dropReq r a.waiting, grants := a.grants + 1 }) s.dev))) ∧
    (∀ (n : Nat) (x o : ArbReq) (d : Device), (arbOf d n).owner = some o →
      (x.lst < o.lst → x.who ≠ o.who → (arbOf (raiseReq n x d) n).owner = some x ∧ o ∈ (arbOf (raiseReq n x d) n).waiting ∧
        (arbOf (raiseReq n x d) n).preempts = (arbOf d n).preempts + 1) ∧
      (o.lst ≤ x.lst ∨ x.who = o.who → (arbOf (raiseReq n x d) n).owner = some o ∧ x ∈ (arbOf (raiseReq n x d) n).waiting)) ∧
    (∀ (tn : Byte) (jid : W32) (k : Tile) j st o, jobOf s.dev tn jid = some j → j.step = some st →
      (tilesOf j.tiles).idxOf? k.toNat = some o →
      (∀ w, (s.dev.mem.windows.find? fun w => w.tenant == tn && w.job == jid && w.tile == k.toNat && w.onHost) = some w →
        exec (.windowFetch tn jid k) s = .next (settled s (fetchLayer tn jid j st w o s.dev))) ∧
      (∀ l, (s.dev.mem.windows.find? fun w => w.tenant == tn && w.job == jid && w.tile == k.toNat && w.onHost) = none →
        nextFetch s.dev tn jid j st k.toNat o = some l →
        st.layer ≤ l ∧ l < st.total ∧ l ≤ st.layer + 2 ∧
        (∀ w ∈ s.dev.mem.windows, w.tenant = tn → w.job = jid → w.tile = k.toNat → w.layer ≠ l) ∧
        let w : WinSlot := { serial := s.dev.mem.serial, tenant := tn, job := jid, tile := k.toNat, layer := l, left := 0, onHost := true }
        exec (.windowFetch tn jid k) s = .next (settled s (fetchLayer tn jid j st w o { s.dev with mem := { s.dev.mem with
          windows := s.dev.mem.windows ++ [w], serial := s.dev.mem.serial + 1 } })))) ∧
    (∀ (pt : BitVec 6) (ecc : EccClass) r, (arbOf s.dev pt.toNat).owner = some r → (∀ die, r.load ≠ .flash die) →
      let x := badIn s.dev r.addr r.len; let ecc' := if x.isSome then .uncorrectable else ecc
      let d := dramRead (x.getD (blockAt r.addr)) srcStream ecc' (onArb pt.toNat (fun a => { a with owner := none }) s.dev)
      let bad := ecc' == .uncorrectable
      exec (.transferEnd pt ecc) s = .next (settled s (landed r bad d)) ∧
      (∀ n k i, r.load = .window n k i →
        let d' := onWin n (fun w => { w with left := w.left - 1, blocks := w.blocks.modify k fun f =>
          { f with parts := f.parts.modify i fun y => (y.1, y.2.1, some (fabRead d r.addr r.len)) } }) d
        ((d.mem.windows.any fun w => w.serial == n) = false → landed r bad d = d) ∧
        ((d.mem.windows.any fun w => w.serial == n) = true →
          (bad = true → landed r bad d = failStep r.tenant r.job stInternal d') ∧
          (∀ f, bad = false → ((d'.mem.windows.find? fun w => w.serial == n).bind fun w => w.blocks[k]?) = some f →
            (f.whole = false → landed r bad d = d') ∧
            (f.whole = true → (placeBlock r.who f d').1 = true → landed r bad d = slotCheck r.tenant r.job (placeBlock r.who f d').2) ∧
            (f.whole = true → (placeBlock r.who f d').1 = false →
              landed r bad d = failStep r.tenant r.job stCodecError (placeBlock r.who f d').2)))) ∧
      (∀ ref slot off p b, r.load = .copy ref slot off → findPacket d ref = some p →
        Assoc.find (arenaOf d r.tenant.toNat).bufs slot = some b →
        (bad = true → landed r bad d = refuse p stInternal (withdrawReqs (fun y => match y.load with
          | .copy z _ _ => z == refOf p
          | .source z => z == refOf p
          | _ => false) d)) ∧
        (bad = false → hostHeld b off r.len = false →
          let d' := onPacket ref (fun q => { q with left := q.left - 1 })
            (bufWrite r.tenant.toNat slot b off (fabRead d r.addr r.len) (dropHold (.packet ref) d))
          landed r bad d = match findPacket d' ref with
            | some q => if q.left = 0 then complete q d' else d'
            | none => d')) ∧
      (∀ slot gen i k b e, r.load = .promote slot gen i k → Assoc.find (arenaOf d r.tenant.toNat).bufs slot = some b →
        extentOf d r.tenant.toNat slot i = some e → b.gen = gen → e.state = .promoting → bad = false →
        landed r bad d = if (k + 1) * 4096 < e.size then readBlock r.who r.tenant.toNat slot gen i (k + 1) e d else d)) ∧
    (∀ (tn : Byte) (jid : W32) j st, jobOf s.dev tn jid = some j → j.step = some st → s.dev.pwr.stage < 2 → st.layer < st.total →
      st.dstep.isSome = true → st.parks.contains .layer = false → remoteStage s.dev j st st.layer = false →
      isLate s.dev tn jid j st st.layer = true →
      let e := advance (latestService s.dev j st st.layer - wallNow s.dev) s.dev
      let d := onArena tn.toNat (fun a => { a with misses := satAdd32 a.misses 1 })
        { e with mem := { e.mem with missCount := e.mem.missCount + 1 } }
      (maySkip d tn j st st.layer = false ∨ st.loads ≠ 0 →
        exec (.layerDeadlineMiss tn jid) s = .next (settled s (parkStep tn jid .layer d))) ∧
      (maySkip d tn j st st.layer = true → st.loads = 0 →
        exec (.layerDeadlineMiss tn jid) s = .next (settled s (slotCheck tn jid (skipLayer tn jid j st d))) ∧
        (skipLayer tn jid j st d).mem.skipCount = d.mem.skipCount + 1 ∧
        (jobOf (skipLayer tn jid j st d) tn jid).bind (·.step) =
          some { st with layer := st.layer + 1, skipped := st.skipped ++ [st.layer] })) ∧
    (∀ (k : Tile) (dest : W32) (row : List W32) x,
      (s.dev.mem.partials.find? fun x => x.tile == k.toNat && x.dest == dest.toNat && x.row == row) = some x →
      let d := { s.dev with mem := { s.dev.mem with partials := s.dev.mem.partials.erase x } }
      exec (.atomicPartialAdd k dest row) s = .next (settled s
        (if (jobOf d x.tenant x.job).any fun j => j.step.any fun st => st.serial == x.serial then
          addPartial x.tenant x.job k.toNat dest.toNat row d else d)))

/-! ### Skeins -/

/-- The 0x03xx packets (R119 to R122, R226 to R243): CONVERT writes the array-ready tiles of a finite source and answers their length and
count; WPACK writes the container of a stream of valid tiles and answers its length and its stored and empty blocks. Both read their sources
first: what lies in DRAM is arbitrated with the header's deadline, and the operation goes on with the bytes that came. A mount of an image
that passes R240 takes the first free ID; an unmount of a skein that nothing uses removes it; INFO reports it. -/
def Obligations.SkeinPacketsComplete : Prop :=
  ∀ (s : State) (r : Ref) (p : Packet) (b : List Byte) (c : Option Nat),
    let d := admitted p b c s.dev; let q := begun p b; let t := p.hdr.tenant
    (∀ (x : ConvArgs) (vec : Bool) ss sb so ds db dd vs vb vo need len vals chan, Admits (memSpec 0x0300 48 [(44, 4)]) r p b c s.dev →
      x = { n := field b 24 4, k := field b 28 4, tensor := field b 36 4, srcFmt := if field b 40 1 = 0x10 then bf16 else fp32,
            target := field b 41 1, group := field b 42 1, search := field b 43 1 == 1 } →
      vec = decide (field b 16 4 ≠ 0) → len = x.n * x.k * (x.srcFmt.width / 8) →
      field b 40 1 = 0x10 ∨ field b 40 1 = 0x11 → (weightTileSize x.target).isSome = true →
      x.target = 0x10 ∨ x.group ≤ 2 → field b 43 1 ≤ 1 → 1 ≤ x.n → 1 ≤ x.k →
      spanOf d t.toNat (arenaRef b 0) len = .ok (ss, sb, so) → spanOf d t.toNat (arenaRef b 8) (field b 32 4) = .ok (ds, db, dd) →
      (if vec then spanOf d t.toNat (arenaRef b 16) (4 * x.n) else spanOf d t.toNat (arenaRef b 0) len) = .ok (vs, vb, vo) →
      need = ceilDiv x.n 64 * ceilDiv x.k 64 * tileBytes x.target →
      spansMeet (ss, so, len) (ds, dd, field b 32 4) = false →
      (vec = true → spansMeet (vs, vo, 4 * x.n) (ds, dd, field b 32 4) = false) → isMounted d t.toNat ds db.gen = false →
      need ≤ field b 32 4 → hostHeld sb so len = false → hostHeld db dd (field b 32 4) = false →
      (vec = true → hostHeld vb vo (4 * x.n) = false) →
      let rs := ((sb, so, len) :: if vec then [(vb, vo, 4 * x.n)] else []).flatMap fun y => sourceParts y.1 y.2.1 y.2.2
      let bytes := rs.flatMap fun y => fabRead d y.1 y.2
      let far := rs.filter fun y => (channelOf y.1).isSome
      (vals = convSource x.srcFmt (bytes.take len) (x.n * x.k) →
        chan = (if vec then (convSource fp32 (bytes.drop len) x.n).map chanScale else List.replicate x.n (some (0, false))) →
        vals.all isFinite = true → (∀ y ∈ chan, y.isSome = true) →
        let y := convTiles x (vals.map fpVal) (chan.filterMap id)
        let fin := fun q d => finish q stOK (leBytes 8 need ++ leBytes 4 (need / tileBytes x.target) ++ zeros 4)
          (countConvert t.toNat y.2 (touch t.toNat ds db dd y.1.length (touch t.toNat ss sb so len (bufWrite t.toNat ds db dd y.1 d))))
        (p.reads = none → far = [] → exec (.convert r) s = .next (settled s (fin q (dropHold (.packet (refOf p)) d)))) ∧
        convert { q with reads := some rs, left := 0 } b d = fin { q with reads := some rs, left := 0 } d) ∧
      (p.reads = none → far ≠ [] → exec (.convert r) s = .next (settled s (let d' := dropHold (.packet (refOf p)) d
        raiseAll (far.map fun y => { who := (streamTile t.toNat d').1, lst := (if p.hdr.deadline = 0 then 2 ^ 64 - 1 else p.hdr.deadline.toNat),
                                     tenant := t, job := p.hdr.job, load := .source (refOf p), addr := y.1, len := y.2 })
          (onPacket (refOf p) (fun q => { q with reads := some rs, left := far.length }) (hold q (streamTile t.toNat d').2)))))) ∧
    (∀ ss sb so ds db dd vs vb vo n, Admits (memSpec 0x0301 32) r p b c s.dev → n = field b 24 4 →
      spanOf d t.toNat (arenaRef b 0) n = .ok (ss, sb, so) → spanOf d t.toNat (arenaRef b 8) (field b 28 4) = .ok (ds, db, dd) →
      spanOf d t.toNat (arenaRef b 16) 128 = .ok (vs, vb, vo) →
      spansMeet (ss, so, n) (ds, dd, field b 28 4) = false → spansMeet (vs, vo, 128) (ds, dd, field b 28 4) = false →
      isMounted d t.toNat ds db.gen = false → hostHeld sb so n = false → hostHeld db dd (field b 28 4) = false →
      hostHeld vb vo 128 = false →
      let rs := [(sb, so, n), (vb, vo, 128)].flatMap fun y => sourceParts y.1 y.2.1 y.2.2
      let far := rs.filter fun y => (channelOf y.1).isSome
      (∀ src tbl out stored empty, src = (rs.flatMap fun y => fabRead d y.1 y.2).take n → tbl = (rs.flatMap fun y => fabRead d y.1 y.2).drop n →
        1 ≤ n → (weightTileSize (field src 0 1)).isSome = true → n % tileBytes (field src 0 1) = 0 →
        tilesOk src (tileBytes (field src 0 1)) (n / tileBytes (field src 0 1)) = true →
        tableOk (codeLengths tbl) = true → symbolsCoded (codeLengths tbl) (tileBytes (field src 0 1)) src = true →
        packContainer (field src 0 1) (field src 1 1) (field src 16 4) tbl src = (out, stored, empty) → out.length ≤ field b 28 4 →
        let fin := fun q d => finish q stOK (leBytes 8 out.length ++ leBytes 4 stored ++ leBytes 4 empty)
          (touch t.toNat ds db dd out.length (touch t.toNat ss sb so n (bufWrite t.toNat ds db dd out d)))
        (p.reads = none → far = [] → exec (.wpack r) s = .next (settled s (fin q (dropHold (.packet (refOf p)) d)))) ∧
        wpack { q with reads := some rs, left := 0 } b d = fin { q with reads := some rs, left := 0 } d) ∧
      (p.reads = none → far ≠ [] → exec (.wpack r) s = .next (settled s (let d' := dropHold (.packet (refOf p)) d
        raiseAll (far.map fun y => { who := (streamTile t.toNat d').1, lst := (if p.hdr.deadline = 0 then 2 ^ 64 - 1 else p.hdr.deadline.toNat),
                                     tenant := t, job := p.hdr.job, load := .source (refOf p), addr := y.1, len := y.2 })
          (onPacket (refOf p) (fun q => { q with reads := some rs, left := far.length }) (hold q (streamTile t.toNat d').2)))))) ∧
    (∀ slot buf off img, Admits (memSpec 0x0302 8) r p b c s.dev → spanOf d t.toNat (arenaRef b 0) 1 = .ok (slot, buf, off) →
      (d.mem.skeins.filter fun x => x.2.tenant == t).length < 64 → hostHeld buf off (buf.size - off) = false →
      skeinHeader (buf.size - off) (bufRead d buf off (min (buf.size - off) 1088)) = none →
      bufBad d buf off (min (buf.size - off) (max 1088 (field (bufRead d buf off (min (buf.size - off) 1088)) 8 8))) = none →
      img = bufRead d buf off (field (bufRead d buf off (min (buf.size - off) 1088)) 8 8) →
      skeinFault d t (buf.size - off) img = none →
      ∃ k, k.tenant = t ∧ k.handle = word32 b 0 ∧ k.off = off ∧ k.digest = digest32 img ∧ k.sections = field img 4 4 ∧
        k.length = img.length ∧ k.shared = 0 ∧
        exec (.skeinMount r) s = .next (settled s (finish q stOK
          (leBytes 2 (firstGap 0 d.mem.skeins) ++ leBytes 2 k.sections ++ zeros 4 ++ leBytes 8 k.length ++ k.digest)
          { d with mem := { d.mem with skeins := Assoc.insert d.mem.skeins (firstGap 0 d.mem.skeins) k } }))) ∧
    (∀ k, Assoc.find d.mem.skeins (field b 0 2) = some k →
      (Admits (memSpec 0x0303 4 [(2, 2)]) r p b c s.dev → k.tenant = t → skeinInUse d (field b 0 2) k = false →
        exec (.skeinUnmount r) s = .next (settled s (complete q { d with mem := { d.mem with
          skeins := Assoc.erase d.mem.skeins (field b 0 2) } }))) ∧
      (Admits (memSpec 0x0304 4 [(2, 2)]) r p b c s.dev → mayUse d t (field b 0 2) = true →
        exec (.skeinInfo r) s = .next (settled s (finish q stOK
          (leBytes 2 (field b 0 2) ++ leBytes 2 k.sections ++ zeros 4 ++ leBytes 8 k.length ++ k.digest) d))))

/-! ### Serving -/

/-- The 0x04xx packets but SERVE_SUBMIT (R274 to R277, R292 to R295, R299, R300, R302): a job opens; it closes when its requests have ended;
a cancel ends its request where its completion does not win, and its own record follows the request's; forks, truncates and releases
take effect at once while no step of the skein runs and at its end otherwise; and the queries report. -/
def Obligations.ServingPacketsComplete : Prop :=
  ∀ (s : State) (r : Ref) (p : Packet) (b : List Byte) (c : Option Nat),
    let d := admitted p b c s.dev; let q := begun p b; let t := p.hdr.tenant; let jid := p.hdr.job
    (Admits (serveSpec 0x0400 16 [(7, 1)]) r p b c s.dev →
      jobOpenError d t jid (field b 0 2) (if field b 2 2 = 0xFFFF then none else some (field b 2 2))
        (if field b 4 2 = 0xFFFF then none else some (field b 4 2)) (field b 6 1) (word32 b 8)
        (if field b 12 2 = 0 then d.serve.stepTokens.toNat else field b 12 2)
        (if field b 14 2 = 0 then d.serve.prefillMin.toNat else field b 14 2) = none →
      ∃ u j, exec (.serveJobOpen r) s = .next u ∧ jobOf u.dev t jid = some j ∧ j.main = field b 0 2 ∧ j.depth = field b 6 1 ∧
        j.tiles = word32 b 8 ∧ j.step = none ∧ j.closing = false ∧ findPacket u.dev (refOf p) = none ∧
        (∀ k, k ≠ jobKey t jid → Assoc.find u.dev.serve.jobs k = Assoc.find s.dev.serve.jobs k) ∧
        u.dev.serve.reqs = s.dev.serve.reqs ∧ u.dev.fab = s.dev.fab) ∧
    (∀ j, Admits { opcode := 0x0401, size := some 4, part := true, reserved := [(1, 3)], bits := [(0, 0xFE)] } r p b c s.dev →
      jobOf d t jid = some j → j.closing = false → j.manager = none → bitOf (field b 0 4) 0 = false →
      exec (.serveJobClose r) s = .next (settled s (closeCheck t jid
        (hold q (onJob t jid (fun j => { j with closing := true, closer := some (refOf p) }) d))))) ∧
    (∀ j, Admits { opcode := 0x0401, size := some 4, part := true, reserved := [(1, 3)], bits := [(0, 0xFE)] } r p b c s.dev →
      jobOf d t jid = some j → j.closing = false → j.manager = none → bitOf (field b 0 4) 0 = true →
      let d' := hold q (onJob t jid (fun j => { j with closing := true, closer := some (refOf p) }) d)
      exec (.serveJobClose r) s = .next (settled s (closeCheck t jid ((reqsOf d' t jid).foldl
        (fun d x => if completionWins d x.1 x.2 || x.2.ending.isSome then d else cancelRequest x.1 d) d')))) ∧
    (Admits (serveSpec 0x0403 4 [(2, 2)]) r p b c s.dev →
      (∀ x, findPacket d { chan := p.chan, tag := word16 b 0 } = some x → x.hdr.opcode = 0x0402 → x.hdr.tenant = t →
        (reqOf d { chan := p.chan, tag := word16 b 0 } = none → x.started = false →
          ∃ u, exec (.serveCancel r) s = .next u ∧ findPacket u.dev (refOf x) = none ∧ findPacket u.dev (refOf p) = none ∧
            u.dev.serve.cancelCount = s.dev.serve.cancelCount + 1) ∧
        (∀ y, reqOf d { chan := p.chan, tag := word16 b 0 } = some y → y.ending = none →
          (completionWins d { chan := p.chan, tag := word16 b 0 } y = false →
            let d' := noteLatency q (cancelRequest { chan := p.chan, tag := word16 b 0 } (twinCancel { chan := p.chan, tag := word16 b 0 } y d))
            (reqOf d' { chan := p.chan, tag := word16 b 0 } = none → exec (.serveCancel r) s = .next (settled s (complete q d'))) ∧
            (reqOf d' { chan := p.chan, tag := word16 b 0 } ≠ none → exec (.serveCancel r) s = .next (settled s
              (hold q (onReq { chan := p.chan, tag := word16 b 0 } (fun z => { z with waiters := z.waiters ++ [(refOf p, true)] }) d'))))) ∧
          (completionWins d { chan := p.chan, tag := word16 b 0 } y = true → exec (.serveCancel r) s =
            .next (settled s (hold q (onReq { chan := p.chan, tag := word16 b 0 }
              (fun z => { z with waiters := z.waiters ++ [(refOf p, false)] }) d))))))) ∧
    (∀ x, hostSeq d t (field b 0 2) = some x →
      (Admits (serveSpec 0x0404 8 [(2, 2)]) r p b c s.dev →
        exec (.seqFork r) s = .next (settled s (stageEdit q x.skein (.fork (field b 0 2) (field b 4 4)) d))) ∧
      (Admits (serveSpec 0x0405 8 [(2, 2)]) r p b c s.dev → field b 4 4 ≤ x.committed → seqBusy d (field b 0 2) = false →
        exec (.seqTruncate r) s = .next (settled s (stageEdit q x.skein (.truncate (field b 0 2) (field b 4 4)) d))) ∧
      (Admits (serveSpec 0x0406 4 [(2, 2)]) r p b c s.dev → seqBusy d (field b 0 2) = false →
        exec (.seqRelease r) s = .next (settled s (stageEdit q x.skein (.release (field b 0 2)) d)))) ∧
    (∀ (e : HostEdit) (k : Nat) (f : Device),
      (skeinRuns f t.toNat k = false → stageEdit q k e f = applyEdit { ref := some (refOf p), tenant := t.toNat, skein := k, edit := e } f) ∧
      (skeinRuns f t.toNat k = true → (stageEdit q k e f).serve.edits =
        f.serve.edits ++ [{ ref := some (refOf p), tenant := t.toNat, skein := k, edit := e }])) ∧
    (Admits (serveSpec 0x0407 0) r p b c s.dev → ∃ x : List Byte,
      exec (.serveQuery r) s = .next (settled s (finish q stOK x d)) ∧ x.take 64 = poolRecord d t.toNat ∧ x.length = 128) ∧
    (∀ k pt, Admits (serveSpec 0x0408 4 [(3, 1)]) r p b c s.dev → Assoc.find d.mem.skeins (field b 0 2) = some k → k.tenant = t →
      k.adapter = false → partOf d t.toNat = some pt → pt.sealed = false →
      (∀ n, n < 8 → (byteAt b 2).getLsbD n = true → ∃ x, partOf d (n + 1) = some x ∧ x.sealed = false) →
      exec (.serveBaseShare r) s = .next (settled s (complete q { d with mem := { d.mem with
        skeins := Assoc.adjust d.mem.skeins (field b 0 2) fun k => { k with shared := byteAt b 2 } } })))

/-- SERVE_SUBMIT (R278, R283 to R285, R299): a request whose job is open and placed, whose arguments and references are legal, and which
the pool, the sequence quota and the deadlines of R285 allow, is admitted with the pages of R284 reserved; one for which pages are short
ends ADMIT_MEMORY, and one that would miss a deadline ADMIT_TIME, each counted and with no other effect. -/
def Obligations.AdmissionReservesPages : Prop :=
  ∀ (s : State) (r : Ref) (p : Packet) (b : List Byte) (c : Option Nat) (j : Job), Admits submitSpec r p b c s.dev →
    let d := admitted p b c s.dev; let q := begun p b; let t := p.hdr.tenant; let x := requestOf q b d j.depth
    jobOf d t p.hdr.job = some j → j.manager = none → s.dev.pwr.stage < 2 → s.dev.pwr.coolant ≠ 2 → j.closing = false → j.place ≠ .broken →
    argError d t (planOf d j.main) (j.draft.map (planOf d)) x b = none → x.forward = false → x.newSeq = true →
    ((bufOf d t.toNat x.inHandle.toNat).filter fun y => (j.twinned || j.audit.isSome) &&
      hostHeld y.2 x.inOff.toNat (inputLen (planOf d j.main) x)) = none →
    ((bufOf d t.toNat x.inHandle.toNat).bind fun y => bufBad d y.2 x.inOff.toNat (inputLen (planOf d j.main) x)) = none →
    seqRoom d t.toNat (if j.draft.isSome then 2 else 1) = true → lengthOk 0 x j.depth = true →
    ∀ need, need = admitNeed d j.main none (if field b 32 4 = 0 then x.inCount + x.maxTok else field b 32 4) +
        (match j.draft with
          | some k => admitNeed d k none ((if field b 32 4 = 0 then x.inCount + x.maxTok else field b 32 4) + j.depth)
          | none => 0) →
      (freePages (poolOf d t.toNat) < (poolOf d t.toNat).reserved + need →
        exec (.serveSubmit r) s = .next (settled s (refuse q stAdmitMemory (countRefused t.toNat stAdmitMemory d)))) ∧
      ((poolOf d t.toNat).reserved + need ≤ freePages (poolOf d t.toNat) → admitsTime d t p.hdr.job j x = false →
        exec (.serveSubmit r) s = .next (settled s (refuse q stAdmitTime (countRefused t.toNat stAdmitTime d)))) ∧
      ((poolOf d t.toNat).reserved + need ≤ freePages (poolOf d t.toNat) → admitsTime d t p.hdr.job j x = true →
        exec (.serveSubmit r) s = .next (settled s (admitRequest q b j x need d)) ∧
        (j.twinned = false → reqOf d (refOf p) = none → ∃ y, reqOf (admitRequest q b j x need d) (refOf p) = some y ∧ y.job = p.hdr.job ∧
          y.reserve = need ∧ y.seq = firstGap 0 s.dev.serve.seqs ∧ y.tokens = 0))

/-- A step of a job (R202, R207, R266, R286, R287, R297): before the scheduler chooses, the pools offer pages to parked sequences and host-tier
buffers hold their requests; the first job of its order whose step has rows starts. A layer whose slots are complete is queued and the next one
follows: one with attention queues its projections, then walks, then queues the rest; a knot that the tenant does not own ends the step's
requests; spill extents are stored before, and loads are read first. The sampling of a step whose layers have all run commits it. A request
still parked at its limit ends KV_EXHAUSTED. A draft token is accepted while it and those before it agree with the main model's. -/
def Obligations.StepsRun : Prop :=
  ∀ s : State,
    (∀ (m : W32), stepsOpen s.dev = true →
      let d := holdJobs m (offerPools m s.dev)
      (startOrder d m = [] → exec (.stepStart m) s = .next (settled s d)) ∧
      (∀ x rest, startOrder d m = x :: rest →
        let v := startStep (BitVec.ofNat 8 (x.2.1 / 2 ^ 32)) (BitVec.ofNat 32 x.2.1) x.2.2 d
        let u := if x.1 = noDeadline ∧ hasStep x v = true then { v with serve := { v.serve with roundAt := x.2.2.order + 1 } } else v
        (hasStep x v = true → exec (.stepStart m) s = .next (settled s u)) ∧
        (hasStep x v = false → exec (.stepStart m) s = .next (settled s (startFirst rest v))))) ∧
    (∀ (tn : Byte) (tag : W16) ref x sq, (s.dev.serve.reqs.find? fun x => x.1.tag == tag && x.2.tenant == tn.toNat) = some (ref, x) →
      seqOf s.dev x.seq = some sq → x.state = 4 → sq.parked.isSome = true → isReady s.dev = true →
      let d := endRequest ref stKvExhausted (advanceTo (sq.parked.getD 0 + x.parkMs * 1000000) s.dev)
      let e : StagedEdit := { ref := none, tenant := x.tenant, skein := sq.skein, edit := .release x.seq }
      exec (.parkLimitExpiry tn tag) s = .next (settled s
        (if skeinRuns d x.tenant sq.skein then { d with serve := { d.serve with edits := d.serve.edits ++ [e] } } else applyEdit e d))) ∧
    (∀ (tn : Byte) (jid : W32) j st, jobOf s.dev tn jid = some j → j.step = some st → isReady s.dev = true → st.awaitTwin = false →
      st.parks = [] →
      (∀ lists, st.layer < st.total → remoteStage s.dev j st st.layer = false → slotsReady s.dev tn jid j st st.layer = true → st.loads = 0 →
        let mine := lists.filter fun q => j.tiles.getLsbD q.tile.toNat
        let xs := spillsOf mine
        let d := dropHold (.step st.serial) s.dev
        let stored := xs.foldl (fun d x => if x.2.load then d else spillStore tn x.1 j x.2 d) d
        (st.phase = 1 → exec (.layerQueue tn jid lists) s =
          .next (settled s (if layerClear s.dev tn jid j st.layer then startWalks tn jid s.dev else s.dev))) ∧
        (st.phase = 2 → exec (.layerQueue tn jid lists) s = .next (settled s (runWalks tn jid s.dev))) ∧
        (st.phase = 0 ∨ st.phase = 3 → spillHeld s.dev tn j xs = [] → (xs = [] ∨ ∀ l ∈ st.queued, layerClear s.dev tn jid j l = true) →
          ((∀ x ∈ xs, x.2.load = false) → exec (.layerQueue tn jid lists) s = .next (settled s (queueLists tn jid j st mine stored))) ∧
          (∀ fresh, fresh = (xs.filter fun x => x.2.load && !st.spillsIn.contains x.2) → fresh ≠ [] →
            let reads := fresh.flatMap (spillReads stored tn jid j st.serial (latestService stored j st st.layer))
            exec (.layerQueue tn jid lists) s = .next (settled s (raiseAll reads (onStep tn jid (fun st =>
              { st with spillsIn := st.spillsIn ++ fresh.map (·.2), loads := st.loads + reads.length }) stored)))) ∧
          ((∃ x ∈ xs, x.2.load = true) → (∀ x ∈ xs, x.2.load = true → x.2 ∈ st.spillsIn) → exec (.layerQueue tn jid lists) s =
            .next (settled s (queueLists tn jid j st mine
              (xs.foldl (fun d x => if x.2.load then spillLoad tn x.1 j x.2 d else d) d)))))) ∧
      (∀ (mine : List ListSpec) (e : Device), (jobOf e tn jid).bind (·.step) = some st →
        let d := mine.foldl (fun d q => placeList q d) e
        (mine.all (listKnotsOk d tn) = false → queueLists tn jid j st mine e = failStep tn jid stBadArgument d) ∧
        (mine.all (listKnotsOk d tn) = true → ∃ u,
          (∀ k, (tileOf u k).passes.map (·.addr) = (tileOf d k).passes.map (·.addr) ++
              ((mine.filter fun q => q.tile.toNat == k && !q.vector).map (·.addr.toNat)) ∧
            (tileOf u k).vecs.map (·.addr) = (tileOf d k).vecs.map (·.addr) ++
              ((mine.filter fun q => q.tile.toNat == k && q.vector).map (·.addr.toNat))) ∧
          (st.phase = 0 → (attnOf d j st st.layer).isSome = true → queueLists tn jid j st mine e = u ∧
            (jobOf u tn jid).bind (·.step) = some { st with phase := 1 }) ∧
          (st.phase ≠ 0 ∨ (attnOf d j st st.layer).isSome = false → queueLists tn jid j st mine e = layerCheck tn jid u ∧
            (jobOf u tn jid).bind (·.step) = some 
              { st with layer := st.layer + 1, queued := st.queued ++ [st.layer], phase := 0, walks := [], homes := [], spillsIn := [] }))) ∧
      (∀ (lg dr : List (List W32)) (rows : List (List Byte)), st.total ≤ st.layer → st.queued = [] →
        (∀ x ∈ st.rows, x.gone = false → ∀ y, reqOf s.dev x.ref = some y → ioHeld s.dev y = []) →
        let x := commitAll j st.rows lg dr rows (st.rows.foldl (fun d x => dropHold (.request x.ref) d) s.dev)
        let d := onPool tn.toNat (fun q => { q with steps := satAdd32 q.steps 1 })
          { x.2 with serve := { x.2.serve with stepCount := x.2.serve.stepCount + 1 } }
        let d := endStep tn jid (onJob tn jid (fun j => { j with stepNo := j.stepNo + 1 }) d)
        (jobOf d tn jid).bind (·.step) = none ∧
        exec (.stepSample tn jid lg dr rows) s = .next (settled s (twinCommit tn jid st
          (abandonRest tn jid (x.1.map (·.1)) (x.1.foldl (fun d x => commitEnd x d) d)))))) ∧
    (∀ a b : List W32, a.take (agreeing a b) = b.take (agreeing a b) ∧
      (agreeing a b < a.length → agreeing a b < b.length → a[agreeing a b]? ≠ b[agreeing a b]?))

/-! ### Yarn links -/

/-- Training and flits (R339, R341 to R343, R346 to R351). A DOWN port starts an attempt 100 ms after its failure; a lane without bit lock
after 10 ms in BIT_LOCK leaves it, and the attempt fails with the last one, at 50 ms, or on signal loss; a port that passes every training
state within the 50 ms exchanges PARAM, which brings it UP with the widest set of its lanes and its kept flits sent again, or DOWN with a
cause; a fall to DOWN discards what waits; lock loss retrains and keeps the replay buffer. A flit of a bad CRC is counted and answered by a
NAK, one in sequence is taken, one out of sequence is not; the oldest unacknowledged flit is replayed at 2 µs, and after 8 replays in vain the
port retrains; a message is numbered, takes a counter and waits for its port; one incomplete 1 ms after its first flit is dropped. -/
def Obligations.LinksTrainAndCarryFlits : Prop :=
  (∀ (s : State) (p : Port), coreAlive s.dev = true → let x := portOf s.dev p.toNat
    (∀ changed : Bool, x.state = .down → x.mode ≠ modeOff → changed = true ∨ ¬(1 ≤ x.cause.toNat ∧ x.cause.toNat ≤ 3) →
      ∃ u, exec (.linkTrainStart ⟨p, changed⟩) s = .next u ∧
      portOf u.dev p.toNat = { x with
        state := .training, train := .detect, trying := 0xF, retrain := false, failedAt := none, wire := []
        trainAt := match x.failedAt with | some t => max s.dev.clock (t + 100000000) | none => s.dev.clock } ∧
      (∀ q, q ≠ p.toNat → portOf u.dev q = portOf s.dev q) ∧ u.dev.host.event.getLsbD evLink = true) ∧
    (∀ (lane : BitVec 2) (dt : Nat), x.state = .training → (x.train = .detect ∨ x.train = .bitLock) → x.trying.getLsbD lane.toNat = true →
      let began := if x.train = .detect then x.trainAt + dt else x.bitAt
      let left := x.trying &&& ~~~(1#4 <<< lane.toNat)
      let e := onPort p.toNat (fun x => { x with train := .bitLock, bitAt := began, trying := left }) (advanceTo (began + 10000000) s.dev)
      (began + 10000000 ≤ x.trainAt + 50000000 →
        exec (.bitLockTimeout p ⟨lane, dt⟩) s = .next (settled s (if left = 0 then portDown p.toNat 4 e else e))) ∧
      (x.trainAt + 50000000 < began + 10000000 →
        exec (.bitLockTimeout p ⟨lane, dt⟩) s = .next (settled s (portDown p.toNat 0 (advanceTo (x.trainAt + 50000000) s.dev))))) ∧
    (x.state = .training → exec (.linkTrainTimeout p) s = .next (settled s (portDown p.toNat 0 (advanceTo (x.trainAt + 50000000) s.dev)))) ∧
    (x.state = .up → exec (.linkSignalLoss p) s = .next (settled s (portDown p.toNat 0 s.dev))) ∧
    (x.state = .up → exec (.linkLockLoss p) s = .next (settled s (retrainPort p.toNat s.dev))) ∧
    (∀ (peer : PeerParams) (t : TrainTimes), x.state = .training →
      let passed := s.dev.clock + (if x.train = .detect then t.detect else 0) + t.bitLock + t.blockLock + t.deskew + t.param
      (passed ≤ x.trainAt + 50000000 → ∃ e, exec (.linkUp p ⟨peer, t⟩) s = .next (settled s (enterUp p.toNat peer e)) ∧ e.clock = passed ∧
        portOf e p.toNat = { x with train := .param, bitAt := (portOf e p.toNat).bitAt, wire := (portOf e p.toNat).wire } ∧
        (∀ q, q ≠ p.toNat → portOf e q = portOf s.dev q) ∧ e.link.pod = s.dev.link.pod ∧ e.link.manager = s.dev.link.manager) ∧
      (x.trainAt + 50000000 < passed → ∃ e, exec (.linkUp p ⟨peer, t⟩) s = .next (settled s (portDown p.toNat 0 e)) ∧
        e.clock = max s.dev.clock (x.trainAt + 50000000) ∧ (∀ q, q ≠ p.toNat → portOf e q = portOf s.dev q)))) ∧
  (∀ (d : Device) (p : Nat) (peer : PeerParams), let x := portOf d p; let lanes := widestSet x.maxWidth (x.trying &&& peer.lanes)
    (paramCause d x peer lanes ≠ 0 → enterUp p peer d = portDown p (paramCause d x peer lanes) d) ∧
    (paramCause d x peer lanes = 0 → ∃ e, enterUp p peer d = pumpPort p (reportPort p true peer.deviceId e) ∧
      (portOf e p).state = .up ∧ (portOf e p).lanes = lanes ∧ (portOf e p).peer = some peer ∧ (portOf e p).cause = 0 ∧
      (portOf e p).sentParams = some (ownParams d p) ∧ (portOf e p).accepted = x.accepted ∧ (portOf e p).credits = [64, 64, 64, 64] ∧
      (portOf e p).wire = (portOf e p).replay.map (fun r => r.flit (portOf e p)) ∧
      (x.retrain = false → (portOf e p).replay = [] ∧ (portOf e p).sent = peer.lastSeq) ∧
      (x.retrain = true → ((portOf e p).replay.map (·.seq)) <:+ (x.replay.map (·.seq))) ∧
      (∀ q, q ≠ p → portOf e q = portOf d q))) ∧
  (∀ (d : Device) (p : Nat) (cause : BitVec 4), ∃ e,
    portDown p cause d = (if (portOf d p).peer.isSome then reportPort p false (neighbour (portOf d p)) e else e) ∧
    portOf e p = { portOf d p with
      state := .down, cause := cause, lanes := 0, replay := [], waiting := [], retrain := false, sentParams := none
      failedAt := some d.clock, peer := none, nakAt := none, replays := 0, recent := [], wire := [], freed := (portOf e p).freed } ∧
    (∀ q, q ≠ p → portOf e q = { portOf d q with freed := (portOf e q).freed }) ∧
    ((∀ w ∈ (portOf d p).waiting, w.held = none) → ∀ q, (portOf e q).freed = (portOf d q).freed)) ∧
  (∀ (d : Device) (p : Nat), (portOf (retrainPort p d) p).state = .training ∧ (portOf (retrainPort p d) p).train = .bitLock ∧
    (portOf (retrainPort p d) p).replay = (portOf d p).replay ∧
    (portOf (retrainPort p d) p).retrainCount = (portOf d p).retrainCount + 1 ∧
    ∀ q, q ≠ p → portOf (retrainPort p d) q = portOf d q) ∧
  (∀ (s : State) (p : Port), coreAlive s.dev = true → let x := portOf s.dev p.toNat; let n := p.toNat
    let d := onPort n (fun x => { x with wire := [] }) s.dev
    (∀ flit : List Byte, x.state = .up → flit.length = 256 →
      ((crc32c (flit.take 252)).toNat ≠ field flit 252 4 →
        exec (.flitReceive p flit) s = .next (settled s (sendNak n (onPort n (fun x => { x with crcCount := x.crcCount + 1 }) d)))) ∧
      ((crc32c (flit.take 252)).toNat = field flit 252 4 → field flit 0 1 = 1 →
        (word16 flit 2 = x.accepted + 1 → exec (.flitReceive p flit) s = .next (settled s (pumpPort n (takeFlit n flit
          (onPort n (fun x => { x with accepted := x.accepted + 1, nakAt := none }) (takeAck n flit d)))))) ∧
        (word16 flit 2 ≠ x.accepted + 1 →
          exec (.flitReceive p flit) s = .next (settled s (pumpPort n (sendNak n (takeAck n flit d)))))) ∧
      ((crc32c (flit.take 252)).toNat = field flit 252 4 → field flit 0 1 = 2 →
        exec (.flitReceive p flit) s = .next (settled s (pumpPort n (goBack n (takeAck n flit d))))) ∧
      ((crc32c (flit.take 252)).toNat = field flit 252 4 → field flit 0 1 = 0 ∨ field flit 0 1 = 3 →
        exec (.flitReceive p flit) s = .next (settled s (pumpPort n (takeAck n flit d))))) ∧
    (∀ r rest, x.state = .up → x.replay = r :: rest → let e := onPort n (fun x => { x with wire := [] }) (advanceTo (r.at_ + 2000) s.dev)
      (8 ≤ x.replays → exec (.replayTimer p) s = .next (settled s (pumpPort n (retrainPort n e)))) ∧
      (x.replays < 8 → x.recent.length < 64 → ∃ u,
        exec (.replayTimer p) s = .next (settled s (pumpPort n u)) ∧ u.clock = max s.dev.clock (r.at_ + 2000) ∧
        (portOf u n).wire = x.replay.map (fun r => r.flit x) ∧ (portOf u n).replayCount = x.replayCount + 1 ∧
        (portOf u n).replays = x.replays + 1 ∧ (portOf u n).replay = x.replay.map (fun r => { r with at_ := u.clock }) ∧
        ∀ q, q ≠ n → portOf u q = portOf s.dev q))) ∧
  (∀ (m : OutMsg) (d : Device),
    (sealKey d m = none → sendMsg m d = d) ∧
    (∀ key stored, sealKey d m = some (key, stored) →
      (ownPort d m = none → sendMsg m d = { d with link := { d.link with dropCount := d.link.dropCount + 1 } }) ∧
      (∀ p, ownPort d m = some p → (sendMsg m d).link.outbox = d.link.outbox ++ [m] ∧ (sendMsg m d).link.nextMsg = d.link.nextMsg + 1 ∧
        (sendMsg m d).link.counters = (d.link.counter key stored).2.counters ∧ (sendMsg m d).link.reasm = d.link.reasm ∧
        ∀ q, (portOf (sendMsg m d) q).state = (portOf d q).state))) ∧
  (∀ (s : State) (src : BitVec 12) (msg : W16) m, coreAlive s.dev = true → anyShed s.dev = false →
    (s.dev.link.reasm.find? fun m => m.src == src && m.msg == msg) = some m → ∃ u, exec (.reassemblyTimeout src msg) s = .next u ∧
      u.dev.link.dropCount = s.dev.link.dropCount + 1 ∧ u.dev.clock = max s.dev.clock (m.at_ + 1000000) ∧
      u.dev.link.reasm = s.dev.link.reasm.filter (fun m => !(m.src == src && m.msg == msg)))

/-- What a message of a pod does once it has passed the checks of R352 (R249, R353, R354, R357 to R367, R389); one that has not does nothing:
the manager's reports and routes, job keys and releases; the epoch check of a job's messages, the notice that a worker adopts and acknowledges,
and the work, data, results, signals, withdrawals and migrated pages of a current epoch; the ends that a lost device or manager brings; and the
three opcodes. -/
def Obligations.PodsCarryJobs : Prop :=
  (∀ (s : State) (src : BitVec 12), coreAlive s.dev = true →
    (takeMsg false 0 (some src) (fun _ => true) s.dev = none → ∀ c, exec (.controlMessage src c) s = .next (settled s s.dev)) ∧
    (∀ d, takeMsg false 0 (some src) (fun _ => true) s.dev = some d →
      (∀ p up peer, d.link.manager = true →
        exec (.controlMessage src (.portReport p up peer)) s = .next (settled s (portReport src p.toNat up peer d))) ∧
      (∀ es, src = managerId d → d.link.manager = false → ∃ u, exec (.controlMessage src (.routeTable es)) s = .next u ∧
        u.dev.link = { d.link with routes := es } ∧ u.dev.serve = s.dev.serve) ∧
      (∀ t jid epoch kgen counter sealed st g main key, (tenantGens d t).find? (fun g => g.num == kgen) = some g →
        skeinBy d t st.main = some main →
        gcmOpen (kWrap t g) (leBytes 2 src.toNat ++ [t, 0xFF] ++ leBytes 8 counter.toNat)
          (leBytes 4 jid.toNat ++ leBytes 2 epoch.toNat ++ [BitVec.ofNat 8 kgen.toNat]) sealed = some key → jobOf d t jid = none →
        ∃ u j, exec (.controlMessage src (.jobKey t jid epoch kgen counter sealed st)) s = .next u ∧ jobOf u.dev t jid = some j ∧
          j.key = key ∧ j.manager = some src ∧ j.main = main ∧ j.tiles = st.tiles ∧
          j.stages = [{ first := st.first, last := st.first + st.count - 1, device := ownId d, tiles := st.tiles }]) ∧
      (∀ t jid tag ref x st, (d.serve.reqs.find? fun x => x.1.tag == tag && x.2.awaited.contains src) = some (ref, x) →
        reqOf d ref = some x → x.ending = some st → exec (.controlMessage src (.withdrawAck t jid tag)) s = .next (settled s
          (let left := x.awaited.filter (· != src)
           if left.isEmpty then endRequest ref st d else onReq ref (fun r => { r with awaited := left }) d))) ∧
      (∀ t jid next j, jobOf d t jid = some j → j.manager = some src → (∀ x ∈ next, x.2.2 ≠ ownId d) →
        ∃ u, exec (.controlMessage src (.release t jid next)) s = .next u ∧ jobOf u.dev t jid = none))) ∧
  (∀ (s : State) (m : JobMsg), coreAlive s.dev = true →
    let got := fun k => (takeMsg false k (some m.src) (headFits k m) s.dev).map (wakeUp 4)
    ((got 1 = none → exec (.epochNotice m) s = .next (settled s s.dev) ∧ exec (.epochAck m) s = .next (settled s s.dev)) ∧
      (got 2 = none → ∀ w sites lists, exec (.workMessage m w sites lists) s = .next (settled s s.dev)) ∧
      (got 3 = none → ∀ t x coded, exec (.dataMessage m t x coded) s = .next (settled s s.dev)) ∧
      (got 4 = none → ∀ b, exec (.resultMessage m b) s = .next (settled s s.dev)) ∧
      (got 5 = none → ∀ k n, exec (.knotMessage m k n) s = .next (settled s s.dev)) ∧
      (got 6 = none → ∀ g rows, exec (.withdrawMessage m g rows) s = .next (settled s s.dev)) ∧
      (got 7 = none → ∀ q n ps, exec (.migrateMessage m q n ps) s = .next (settled s s.dev))) ∧
    (∀ d, currentJob d m = none →
      (got 1 = some d → exec (.epochAck m) s = .next (settled s (countStale m d))) ∧
      (got 2 = some d → ∀ w sites lists, exec (.workMessage m w sites lists) s = .next (settled s (countStale m d))) ∧
      (got 3 = some d → ∀ t x coded, exec (.dataMessage m t x coded) s = .next (settled s (countStale m d))) ∧
      (got 4 = some d → ∀ b, exec (.resultMessage m b) s = .next (settled s (countStale m d))) ∧
      (got 5 = some d → ∀ k n, exec (.knotMessage m k n) s = .next (settled s (countStale m d))) ∧
      (got 6 = some d → ∀ g rows, exec (.withdrawMessage m g rows) s = .next (settled s (countStale m d))) ∧
      (got 7 = some d → ∀ q n ps, exec (.migrateMessage m q n ps) s = .next (settled s (countStale m d)))) ∧
    (∀ d j, got 1 = some d → jobOf d m.tenant m.job = some j → j.manager = some m.src → ∃ e,
      exec (.epochNotice m) s = .next (settled s (sendMsg
        { kind := 1, dest := m.src, tenant := m.tenant, job := m.job, epoch := m.epoch, body := .epoch m.job true }
        (onJob m.tenant m.job (fun j => { j with epoch := m.epoch }) e))) ∧
      e = j.shadows.foldl (fun d x => rollback x.2 d) (dropStep m.tenant m.job (clearLists m.tenant m.job j.tiles d))) ∧
    (∀ d j w sites lists sg, got 2 = some d → currentJob d m = some j → j.manager = some m.src → (j.stages.find? fun x => x.first == w.first) = some sg →
      ∃ e st, exec (.workMessage m w sites lists) s = .next (settled s (layerQueue m.tenant m.job lists e)) ∧
        (jobOf e m.tenant m.job).bind (·.step) = some st ∧ st.snapMain = sites ∧ st.dstep = w.dstep ∧ st.epoch = m.epoch ∧
        st.total = sg.last + 1 - sg.first ∧ st.layer = 0 ∧ st.queued = [] ∧ st.walkRows.map (·.pos) = w.rows.map (·.pos)) ∧
    (∀ d j t (x : RowBlock) coded, got 3 = some d → currentJob d m = some j → j.manager = some m.src →
      (∀ k, (tilesOf j.tiles)[t.toNat]? = some k → coded.length = codedLen x.mode x.rows x.cols → x.mode ≤ 2 →
        exec (.dataMessage m t x coded) s = .next (settled s (let y := decodeTensor x.mode x.rows x.cols coded
          storePut k x.exps.toNat y.2 ((List.range x.rows).foldl (fun d i =>
            storePut k (x.at_.toNat + i * x.stride.toNat) (slice y.1 (2 * x.cols * i) (2 * x.cols)) d) d)))) ∧
      (∀ k, (tilesOf j.tiles)[t.toNat]? = some k → coded.length ≠ codedLen x.mode x.rows x.cols ∨ 2 < x.mode →
        exec (.dataMessage m t x coded) s = .next (settled s (failStep m.tenant m.job stCodecError d)))) ∧
    (∀ d j (b : ResultBody), got 4 = some d → currentJob d m = some j →
      let e := match b.partialRow with | some (t, off, row) => addPartial m.tenant m.job t.toNat off.toNat row d | none => d
      (j.manager.isSome = true ∨ (stageDevices e j).contains m.src = false → exec (.resultMessage m b) s = .next (settled s e)) ∧
      (j.manager = none → (stageDevices e j).contains m.src = true →
        (b.status ≠ 0 → exec (.resultMessage m b) s =
          .next (settled s (failStep m.tenant m.job b.status (mergeObs m.tenant m.job b.xobs e)))) ∧
        (b.status = 0 → exec (.resultMessage m b) s = .next (settled s
          (let f := endStageRetired m.tenant m.job b.retired (takeActivations m j b.rows (mergeObs m.tenant m.job b.xobs e))
           if b.done then stageDone m.tenant m.job m.src f else f))))) ∧
    (∀ d j k n, got 5 = some d → currentJob d m = some j → exec (.knotMessage m k n) s = .next (settled s
      (if 4096 ≤ k.toNat ∧ ownsKnot d m.tenant k.toNat = true ∧ m.tenant ≠ 0 then knotSignal k.toNat n.toNat d
       else { d with link := { d.link with dropCount := d.link.dropCount + 1 } }))) ∧
    (∀ d j rows, got 6 = some d → currentJob d m = some j → j.manager = some m.src →
      exec (.withdrawMessage m none rows) s = .next (settled s (dropStep m.tenant m.job (clearLists m.tenant m.job j.tiles d))) ∧
      ∀ g, exec (.withdrawMessage m (some g) rows) s = .next (settled s (sendMsg
        { kind := 0, dest := m.src, tenant := 0, job := 0, epoch := 0, body := .control (.withdrawAck m.tenant m.job g) }
        (dropJobRows m.tenant m.job j.tiles rows d)))) ∧
    (∀ d j q n ps, got 7 = some d → currentJob d m = some j →
      (∀ i, (q.toNat, i) ∈ j.shadows → (∀ x ∈ j.shadows, x.1 = q.toNat → x.2 = i) → shadowOf m j q.toNat d = some (i, d)) ∧
      (∀ i e, shadowOf m j q.toNat d = some (i, e) → exec (.migrateMessage m q n ps) s = .next (settled s
        (onSeq i (fun x => { x with committed := n }) (ps.foldl (fun d c => landPage m.tenant.toNat i c d) e))))) ∧
    (∀ d j, got 1 = some d → currentJob d m = some j → j.manager = none → exec (.epochAck m) s = .next (settled s
      (let left := j.awaited.filter (· != m.src)
       let e := onJob m.tenant m.job (fun j => { j with awaited := left }) d
       if left.isEmpty ∧ !j.awaited.isEmpty ∧ j.place = .placing ∧ j.epochOut then finishPlace m.tenant m.job e else e)))) ∧
  (∀ s : State, coreAlive s.dev = true → anyShed s.dev = false →
    (∀ id, s.dev.link.manager = true → id ≠ ownId s.dev → exec (.deviceLost id) s = .next (settled s
      (let e := { s.dev with link := { s.dev.link with lost := (s.dev.link.lost ++ [id]).eraseDups } }
       let e := e.serve.jobs.foldl (fun d x =>
         if x.2.manager.isNone && ((x.2.stages ++ x.2.nextStages).any fun s => s.device == id) then
           breakPlacement (BitVec.ofNat 8 (x.1 / 2 ^ 32)) (BitVec.ofNat 32 x.1) d else d) e
       e.serve.reqs.foldl (fun d x => if x.2.awaited.contains id then withdrawDone id x.1 d else d) e))) ∧
    (s.dev.link.manager = false → exec .managerLost s = .next (settled s (s.dev.serve.jobs.foldl (fun d x =>
      if x.2.manager.isSome then releaseStage (BitVec.ofNat 8 (x.1 / 2 ^ 32)) (BitVec.ofNat 32 x.1) d else d) s.dev)))) ∧
  (∀ (s : State) (r : Ref) (p : Packet) (b : List Byte) (c : Option Nat),
    let d := admitted p b c s.dev; let q := begun p b; let t := p.hdr.tenant; let jid := p.hdr.job
    (Admits { opcode := 0x0800, size := some 4, dev := true, roles := byEither, reserved := [(3, 1)], bits := [(2, 0xFE)] } r p b c s.dev →
      field b 0 1 ≤ 31 → field b 1 1 ≤ 63 → ledgerRoom d = none →
      (∀ x ∈ d.serve.jobs, x.2.place = .none ∧ x.2.manager = none) → ∃ u, exec (.linkPodCfg r) s = .next u ∧
        (let pod := if bitOf (field b 2 1) 0 then 0 else field b 0 1; let member := if bitOf (field b 2 1) 0 then 0 else field b 1 1
         u.dev.link.pod.toNat = pod ∧ u.dev.link.member.toNat = member ∧ u.dev.link.manager = decide (member = 0) ∧
         u.dev.host.deviceId.toNat = pod * 64 + member ∧ u.dev.link.routes = []) ∧ findPacket u.dev (refOf p) = none) ∧
    (∀ j, Admits { opcode := 0x0801, size := some 136, part := true
                   reserved := (1, 7) :: (List.range 8).flatMap fun k => [(8 + 16 * k + 6, 2), (8 + 16 * k + 12, 4)] } r p b c s.dev →
      stagesOk b = true → d.link.manager = true → jobOf d t jid = some j → j.manager = none → j.place ≠ .placing →
      stagesEnd 0 (stagesOf b) = some (planOf d j.main).layers.length → (∀ x ∈ stagesOf b, x.device = ownId d) →
      exec (.linkPlace r) s = .next (settled s (goOnPlacing q t jid (onJob t jid (fun j => { j with
        place := .placing, nextStages := stagesOf b, placer := some (refOf p), moving := !(reqsOf d t jid).isEmpty }) (spend (2 * 0) d))))) ∧
    (∀ j, Admits { opcode := 0x0802, size := some 0, part := true } r p b c s.dev → d.link.manager = true → jobOf d t jid = some j →
      j.manager = none → ∃ st : Byte, exec (.linkQuery r) s = .next (settled s (finish q stOK (leBytes 2 j.epoch.toNat ++
        [st, BitVec.ofNat 8 j.stages.length] ++ leBytes 4 j.stale.toNat ++ leBytes 4 j.reissued.toNat ++ leBytes 4 j.migrated.toNat ++
        leBytes 4 j.staleEnds.toNat ++ zeros 12) d)) ∧
        (j.place = .none → st = 0) ∧ (j.place = .placed → st = 1) ∧ (j.place = .placing → st = 2) ∧ (j.place = .broken → st = 3)))

/-! ### Security and tenancy -/

/-- Sessions, credentials, partitions, keys, the reports, the ledger and the management port (R373, R374, R384 to R406, R409 to R411,
R545, R546, R563). A challenge is used up by one attempt or by 30 s; a session that a proof opens has the next number, sets
DEV_EVENT.ROLE and ends by a close, by idling, by the loss of the network, or by a key switch that leaves its position. A partition is
formed of what no other holds; its first generation comes sealed under its transport key and each rotation keeps the one before; a removal
runs from the fence to the confirmation, and ends with the partition gone. -/
def Obligations.SecurityCommandsComplete : Prop :=
  (∀ (s : State) (r : Ref) (p : Packet) (b : List Byte) (c : Option Nat),
    let d := admitted p b c s.dev; let q := begun p b
    (Admits { opcode := 0x0900, size := some 4, dev := true, reserved := [(1, 3)], onyx := true } r p b c s.dev →
      1 ≤ field b 0 1 → field b 0 1 ≤ 3 → ∃ u x, exec (.secSessionChallenge r) s = .next u ∧
        Assoc.find u.dev.sec.challenges (chanCode p.chan).toNat = some x ∧ x.issued = s.dev.clock ∧ x.nonce = freeBytes 32 d ∧
        x.priv = freeBytes 56 (spend 32 d) ∧ u.dev.sec.session = d.sec.session ∧ findPacket u.dev (refOf p) = none) ∧
    (∀ x, Admits { opcode := 0x0901, size := some 236, dev := true, reserved := [(1, 3), (61, 3), (234, 2)], onyx := true } r p b c s.dev →
      1 ≤ field b 0 1 → field b 0 1 ≤ 3 → challengeOn d p.chan = some x → isEnrolled d (field b 0 1) p.chan (slice b 4 57) = true →
      edVerify (slice b 4 57) (ascii "LN-SESSION" ++ serialBytes d ++ [byteAt b 0] ++ x.nonce ++ x448 x.priv x448Base ++ slice b 64 56)
        (slice b 120 114) = true →
      (keyPosition (field b 0 1)).any (· != d.sec.keysw) = false → preempts d (field b 0 1) = true →
      ∃ u, exec (.secSessionOpen r) s = .next u ∧ u.dev.host.event.getLsbD evRole = true ∧
        u.dev.sec.session = some { role := byteAt b 0, chan := p.chan, id := d.sec.nextSession, key := (kdf (x448 x.priv (slice b 64 56))
          (if p.chan = .mgmt then "LN-MEURA" else "LN-ROLE") x.nonce), cred := slice b 4 57, lastUsed := s.dev.clock } ∧
        u.dev.sec.nextSession = d.sec.nextSession + 1 ∧ Assoc.find u.dev.sec.challenges (chanCode p.chan).toNat = none ∧
        findPacket u.dev (refOf p) = none) ∧
    (∀ x, Admits { opcode := 0x0902, size := some 0, dev := true, roles := anyRole, onyx := true } r p b c s.dev →
      d.sec.session = some x → ledgerRoom d ≠ some stShed → ∃ u, exec (.secSessionClose r) s = .next u ∧ u.dev.sec.session = none ∧
        u.dev.host.event.getLsbD evRole = true ∧ findPacket u.dev (refOf p) = none) ∧
    (credRefusal q b = none → ledgerRoom d = none → let key := credKey (field b 0 1) (field b 1 1) (field b 2 1)
      (Admits { opcode := 0x0903, size := some 64, dev := true, roles := byEither, reserved := [(3, 1), (61, 3)] } r p b c s.dev →
        credAt d (field b 0 1) (field b 1 1) (field b 2 1) = none → exec (.secCredEnrol r) s = .next (settled s (complete q
          (ledgerAct q 0x0005 (credDetail b 1) 0 stOK { d with sec := { d.sec with creds := Assoc.insert d.sec.creds key (slice b 4 57) } })))) ∧
      (Admits { opcode := 0x0904, size := some 4, dev := true, roles := byEither, reserved := [(3, 1)] } r p b c s.dev →
        exec (.secCredRevoke r) s = .next (settled s
          (let st := if (credAt d (field b 0 1) (field b 1 1) (field b 2 1)).isSome then stOK else stAlreadyDone
           refuse q st (ledgerAct q 0x0005 (credDetail b 0) 0 st { d with sec := { d.sec with creds := Assoc.erase d.sec.creds key } }))))) ∧
    (∀ e priv, Admits { opcode := 0x0910, size := some 128, dev := true, roles := byInstaller,
                        reserved := [(3, 1), (14, 2), (22, 2), (32, 32), (120, 8)], bits := [(2, 0xFE)] } r p b c s.dev →
      priv = freeBytes 56 d → e = spend 56 d → descriptorOk e b (describe b) = true →
      (x448 priv (describe b).pub).all (· == 0) = false → ledgerRoom e = none →
      partConflict e (field b 0 1) (bitOf (field b 2 1) 0) (describe b) = false → e.pwr.stage = 0 →
      let t := field b 0 1
      let x := { describe b with ktr := some (kdf (x448 priv (describe b).pub) "LN-TR" (keyContext e (BitVec.ofNat 8 t))) }
      exec (.secPartCreate r) s = .next (settled s (finish q stOK (x448 priv x448Base ++ zeros 8 ++ edSign Config.identityKey
          (ascii "LN-PART" ++ serialBytes e ++ b ++ x448 priv x448Base))
        (ledgerAct q 0x0010 (leBytes 4 (field b 2 1) ++ zeros 4) (BitVec.ofNat 8 t) stOK (setEvent evTenant
          (formPartition t x (takeBlocks t x e))))))) ∧
    (∀ x k g, Admits { opcode := 0x0911, size := some 64, dev := true, reserved := [(1, 3)] } r p b c s.dev →
      1 ≤ field b 0 1 → field b 0 1 ≤ 8 → partOf d (field b 0 1) = some x → x.removal = none → x.ktr = some k →
      gcmOpen k (slice b 4 12) (keyContext d (byteAt b 0)) (slice b 16 48) = some g → x.cur = none →
      ∃ u, exec (.secKeyLoad r) s = .next u ∧
        partOf u.dev (field b 0 1) = some { x with cur := some { num := 0, secret := g }, ktr := none } ∧ findPacket u.dev (refOf p) = none) ∧
    (∀ x old, Admits { opcode := 0x0912, size := some 36, part := true, bits := [(0, 0xFE), (1, 0xFF), (2, 0xFF), (3, 0xFF)] } r p b c s.dev →
      partOf d p.hdr.tenant.toNat = some x → x.cur = some old → x.prev = none →
      exec (.secKeyRotate r) s = .next (settled s (finish q stOK [BitVec.ofNat 8 (old.num + 1).toNat, 0, 0, 0]
        (retireCheck p.hdr.tenant.toNat (ledgerAct q 0x0013 (leBytes 4 (old.num + 1).toNat ++ leBytes 4 0) p.hdr.tenant stOK
          (onPart p.hdr.tenant.toNat (fun x => { x with cur := some { num := old.num + 1, secret := slice b 4 32 }, prev := some old }) d)))))) ∧
    (Admits { opcode := 0x0915, size := some 32, dev := true, roles := byInstaller } r p b c s.dev → ledgerRoom d = none →
      exec (.secPodKey r) s = .next (settled s (complete q (ledgerAct q 0x0015 (zeros 8) 0 stOK
        { d with sec := { d.sec with podKeys := b :: d.sec.podKeys.take 1 } })))) ∧
    (∀ x, Admits removeSpec r p b c s.dev → (p.hdr.tenant = 0 ∨ byteAt b 0 = p.hdr.tenant) → byteAt b 0 ≠ 0 → (byteAt b 0).toNat ≤ 8 →
      partOf d (byteAt b 0).toNat = some x → x.removal = none → (p.hdr.tenant = 0 → ledgerRoom d ≠ some stShed) →
      exec (.secPartRemove r) s = .next (settled s (startRemoval q (byteAt b 0) (bitOf (field b 1 1) 0) d))) ∧
    (Admits { opcode := 0x0914, size := some 4, dev := true, part := true, roles := anyRole, reserved := [(1, 3)], removal := true } r p b c
        s.dev → (p.hdr.tenant = 0 ∨ byteAt b 0 = p.hdr.tenant) → byteAt b 0 ≠ 0 → (byteAt b 0).toNat ≤ 8 →
      exec (.secPartInfo r) s = .next (settled s (finish q stOK (partEntry (byteAt b 0).toNat (partOf d (byteAt b 0).toNat)) d))) ∧
    (Admits { opcode := 0x0920, size := some 32, dev := true, part := true, onyx := true } r p b c s.dev → ∃ body sig : List Byte,
      exec (.secOpal r) s = .next (settled s (finish q stOK (body ++ sig ++ zeros 2) d)) ∧ sig = edSign Config.identityKey body ∧
      body.take 8 = leBytes 2 1 ++ leBytes 2 940 ++ leBytes 4 p.hdr.tenant.toNat) ∧
    (Admits { opcode := 0x0923, size := some 0, dev := true } r p b c s.dev →
      exec (.secCert r) s = .next (settled s (finish q stOK (certificate d) d))) ∧
    (Admits { opcode := 0x0921, size := some 16, dev := true, part := true, roles := anyRole, reserved := [(12, 4)], onyx := true } r p b c
        s.dev → 1 ≤ field b 8 4 → field b 8 4 ≤ 255 → ∃ (es : List LedgerEntry) (next : Nat), exec (.secLedgerRead r) s =
          .next (settled s (finish q stOK (leBytes 4 es.length ++ zeros 4 ++ leBytes 8 next ++ es.flatMap ledgerBytes) d)) ∧
        es = (d.sec.ledger.filter fun e => decide (field b 0 8 ≤ e.seq) &&
          (decide (p.hdr.tenant = 0) || e.body.tenant == p.hdr.tenant)).take (field b 8 4)) ∧
    (∀ e, Admits { opcode := 0x0922, size := some 8, dev := true, roles := byMaker } r p b c s.dev → field b 0 8 < d.sec.nextSeq →
      ledgerRoom d ≠ some stShed → (d.sec.ledger.filter fun e => decide (e.seq ≤ field b 0 8)).getLast? = some e → d.pwr.stage = 0 →
      (d.sec.ledger.filter fun x => decide (field b 0 8 < x.seq)).length < ledgerMax → ∃ u x, exec (.secLedgerTrim r) s = .next u ∧
        u.dev.sec.ledger = (d.sec.ledger.filter fun x => decide (field b 0 8 < x.seq)) ++ [x] ∧ x.seq = d.sec.nextSeq ∧
        x.body.kind = 0x0040 ∧ x.body.act = e.chain ∧ findPacket u.dev (refOf p) = none)) ∧
  (∀ s : State,
    (∀ ch x, Assoc.find s.dev.sec.challenges (chanCode ch).toNat = some x → ∃ u, exec (.challengeExpiry ch) s = .next u ∧
      Assoc.find u.dev.sec.challenges (chanCode ch).toNat = none ∧ u.dev.clock = max s.dev.clock (x.issued + 30 * second)) ∧
    (∀ x, s.dev.sec.session = some x →
      (∃ u, exec .sessionIdleTimeout s = .next u ∧ u.dev.sec.session = none ∧ u.dev.host.event.getLsbD evRole = true ∧
        u.dev.clock = max s.dev.clock (x.lastUsed + s.dev.sec.idleS.toNat * second)) ∧
      (∀ t, s.dev.sec.linkLostAt = some t → x.chan = .mgmt → ∃ u, exec .networkLossTimeout s = .next u ∧ u.dev.sec.session = none ∧
        u.dev.clock = max s.dev.clock (t + 5 * second))) ∧
    (∀ inst serv, (inst, serv) ≠ (s.dev.sec.inst, s.dev.sec.serv) → ∃ u, exec (.keySwitchChange inst serv) s = .next u ∧
      u.dev.sec.keysw = keyPositionOf inst serv ∧ u.dev.host.event.getLsbD evKeysw = true) ∧
    (∀ tenant q x, removingAt s.dev tenant .scrub = some (q, x) → coreAlive s.dev = true → s.dev.pwr.stage < 2 →
      exec (.removalScrub tenant) s = .next (settled s (removeScrub tenant.toNat q s.dev))) ∧
    (∀ tenant q x, removingAt s.dev tenant .flash = some (q, x) → coreAlive s.dev = true → s.dev.pwr.stage = 0 →
      exec (.removalFlash tenant) s = .next (settled s (removeFlash tenant.toNat q x s.dev))) ∧
    (∀ tenant q x, removingAt s.dev tenant .confirm = some (q, x) → coreAlive s.dev = true → ∃ u, exec (.removalConfirm tenant) s = .next u ∧
      partOf u.dev tenant.toNat = none ∧ u.dev.host.event.getLsbD evTenant = true) ∧
    (mgmtUp s.dev = true →
      (∀ ip, exec (.arpRequest ip) s = .next (settled s (if ip = s.dev.sec.mgmtIp ∧ s.dev.sec.mgmtIp ≠ 0
        then { s.dev with cmd := { s.dev.cmd with arpReplies := s.dev.cmd.arpReplies + 1 } } else mgmtDrop s.dev))) ∧
      exec .otherFrame s = .next (settled s (mgmtDrop s.dev)) ∧
      (∀ ip port bs, s.dev.sec.mgmtIp ≠ 0 → meuraOk bs = true → field bs 4 4 = 0 →
        let pkt := bs.drop 8
        (pkt.length < 32 ∨ pkt.length < 32 + (headerOf pkt).len.toNat → exec (.meuraSegment ip port s.dev.sec.mgmtPort bs) s =
          .next (settled s { s.dev with cmd := { s.dev.cmd with meura := some (pkt, ip, port, s.dev.clock) } })) ∧
        (32 ≤ pkt.length → pkt.length = 32 + (headerOf pkt).len.toNat →
          exec (.meuraSegment ip port s.dev.sec.mgmtPort bs) s = .next (settled s (submitMgmt pkt ip port s.dev)))) ∧
      (∀ ip port dst bs, s.dev.sec.mgmtIp = 0 ∨ dst ≠ s.dev.sec.mgmtPort ∨ meuraOk bs = false →
        exec (.meuraSegment ip port dst bs) s = .next (settled s (mgmtDrop s.dev)))) ∧
    (∀ bs ip port t, s.dev.cmd.meura = some (bs, ip, port, t) → ∃ u, exec .meuraReassemblyTimeout s = .next u ∧ u.dev.cmd.meura = none ∧
      u.dev.clock = max s.dev.clock (t + 100000000)))

/-! ### Flash -/

/-- The flash (R415 to R441). A read, program, erase, verify or margin whose address, range and block state R439 accepts joins its die's
queue, and one whose pages a DRAM buffer holds has a stream engine fetch them first; the queries and the OTP row report; a burn sets its field. The end of an array operation stores a page, consumes it, or erases a
block and may wear it; four codewords make a page; a minimum run triggers a suspension, and a suspended die takes up what waited; an erase
that a reset interrupted starts again. -/
def Obligations.FlashRunsOnItsDies : Prop :=
  (∀ (s : State) (r : Ref) (p : Packet) (b : List Byte) (c : Option Nat), inFlash s.dev r = false →
    let d := admitted p b c s.dev; let q := begun p b; let t := p.hdr.tenant.toNat; let n := field b 4 2
    (∀ slot buf off, pageArgs d t b = .ok (slot, buf, off) → blockRefusal d q (field b 0 4) = none →
      hostHeld buf off (n * flashPage) = false →
      (Admits (flashSpec 0x0700 16 [(6, 2)]) r p b c s.dev → isMounted d t slot buf.gen = false →
        exec (.flashRead r) s = .next (settled s (queueFlash { packetJob q b .read with count := n, range := arenaRef b 8 } (dropHold (.packet (refOf p)) d)))) ∧
      (let far := (sourceParts buf off (n * flashPage)).filter fun x => (channelOf x.1).isSome
       let e := touch t slot buf off (n * flashPage) (dropHold (.packet (refOf p)) d)
       let ask : ArbReq := { who := (streamTile t e).1, lst := headerDeadline p, tenant := q.hdr.tenant, job := 0, load := .flashSource q.order }
       let fetch (x : Nat × Nat) : ArbReq := { ask with addr := x.1, len := x.2 }
       let begun_ (j : FlashJob) : Device := if far = [] then queueFlash j e else queueFlash { j with sources := far.length }
         (raiseAll (far.map fun x => fetch x) (streamTile t e).2)
       (Admits (flashSpec 0x0701 16 [(6, 2)]) r p b c s.dev → d.pwr.stage = 0 →
         exec (.flashProgram r) s = .next (settled s (begun_ { packetJob q b .program with count := n, range := arenaRef b 8 }))) ∧
       (Admits (flashSpec 0x0703 16 [(7, 1)]) r p b c s.dev → field b 6 1 ≤ 1 →
         exec (.flashVerify r) s = .next (settled s (begun_
           { packetJob q b .verify with count := n, mode := field b 6 1, range := arenaRef b 8 }))))) ∧
    (pageInShare d t (field b 0 4) = true →
      (Admits (flashSpec 0x0702 4) r p b c s.dev → field b 0 4 % 512 = 0 → d.pwr.stage = 0 → (blockOf d (blockKey (field b 0 4))).state ≠ .worn →
        exec (.flashErase r) s = .next (settled s (queueFlash (packetJob q b .erase) d))) ∧
      (Admits (flashSpec 0x0704 8 [(5, 3)]) r p b c s.dev → field b 4 1 ≤ 3 → blockRefusal d q (field b 0 4) = none →
        exec (.flashMargin r) s = .next (settled s (queueFlash { packetJob q b .margin with mode := field b 4 1 } d))) ∧
      (Admits (flashSpec 0x0705 4) r p b c s.dev → field b 0 4 % 512 = 0 → let k := blockOf d (blockKey (field b 0 4))
        exec (.flashBlockInfo r) s = .next (settled s (finish q stOK ([k.state.code, if k.frayed then 1 else 0] ++ leBytes 2 k.next ++
          leBytes 4 k.erases.toNat ++ [k.loops] ++ zeros 7) d)))) ∧
    (∀ x, Admits (flashSpec 0x0706 0) r p b c s.dev → partOf d t = some x →
      exec (.flashInfo r) s = .next (settled s (finish q stOK (shareInfo d t x) d))) ∧
    (Admits { opcode := 0x0707, size := some 0, dev := true } r p b c s.dev →
      exec (.flashOtpRead r) s = .next (settled s (finish q stOK (otpBytes d.boot.otpRow) d))) ∧
    (Admits { opcode := 0x0708, size := some 4, dev := true, roles := byMaker, reserved := [(1, 1)] } r p b c s.dev →
      d.pwr.stage = 0 → ledgerRoom d = none → let o := d.boot.otpRow
      (field b 0 1 = 1 → o.fuse.getLsbD 1 = false → ∃ u, exec (.flashOtpBurn r) s = .next u ∧
        u.dev.boot.otpRow = { o with fuse := o.fuse ||| 2 } ∧ findPacket u.dev (refOf p) = none) ∧
      (field b 0 1 = 2 → o.security < field b 2 2 → field b 2 2 ≤ 255 → ∃ u, exec (.flashOtpBurn r) s = .next u ∧
        u.dev.boot.otpRow = { o with security := field b 2 2 } ∧ findPacket u.dev (refOf p) = none))) ∧
  (∀ (s : State) (die : BitVec 5) j, coreAlive s.dev = true → activeJob s.dev die.toNat = some j →
    (∀ since out, j.phase = .array since →
      (j.kind = .program → exec (.flashArrayOpComplete die out) s = .next (settled s (serveDie die.toNat (pageProgrammed j out s.dev)))) ∧
      (j.kind = .erase → exec (.flashArrayOpComplete die out) s = .next (settled s
        (let e := eraseBlock (blockKey j.page) (decide (out.loops > s.dev.flash.eloops.toNat)) out.failed s.dev
         serveDie die.toNat (endFlash j (if out.failed then stWorn else wearStatus e j) (if out.failed then [] else
           leBytes 4 (blockOf e (blockKey j.page)).erases.toNat ++ [BitVec.ofNat 8 (min out.loops 255), 0, 0, 0]) e)))) ∧
      (j.kind.reads = true → exec (.flashArrayOpComplete die out) s = .next (settled s
        (if j.ref.isNone then serveDie die.toNat (dropFlashJob j.order s.dev)
         else raiseCodeword j (onFlashJob j.order (fun j => { j with phase := .dataOut [] }) s.dev))))) ∧
    (∀ r cls bits, (arbOf s.dev (32 + die.toNat / 2)).owner = some r → r.load = .flash die.toNat →
      let d := onArb (32 + die.toNat / 2) (fun a => { a with owner := none }) s.dev
      (∀ left, j.phase = .dataIn left → exec (.flashCodewordTransfer die cls bits) s = .next (settled s
        (if left ≤ 1 then onFlashJob j.order (fun j => { j with phase := .array d.clock, data := sourcePage d j }) d
         else raiseCodeword j (onFlashJob j.order (fun j => { j with phase := .dataIn (left - 1) }) d)))) ∧
      (∀ got, j.phase = .dataOut got → exec (.flashCodewordTransfer die cls bits) s = .next (settled s
        (let cls := codewordClass d (Assoc.find d.flash.pages (j.page + j.done)).isSome cls bits.toNat
         let e := if j.kind = .verify ∧ j.mode = 1 then d else countCodeword d (j.kind == .margin && decide (j.mode ≠ 0)) cls bits.toNat
         if got.length < 3 then raiseCodeword j (onFlashJob j.order (fun j => { j with phase := .dataOut (got ++ [(cls, bits.toNat)]) }) e)
         else serveDie die.toNat (pageDecoded j (got ++ [(cls, bits.toNat)]) e))))) ∧
    (j.phase = .suspending → exec (.flashSuspend die) s = .next (settled s (serveDie die.toNat
      (let e := onFlashJob j.order (fun j => { j with phase := .suspended }) s.dev
       { e with flash := { e.flash with suspendCount := s.dev.flash.suspendCount + 1 } })))) ∧
    (∀ since, j.phase = .array since → suspendWanted s.dev j = true → ∃ u, exec (.minRunElapsed die) s = .next u ∧
      u.dev.clock = max s.dev.clock (since + minRun s.dev j.kind) ∧
      u.dev.flash.jobs = s.dev.flash.jobs.map (fun x => if x.order = j.order then { x with phase := .suspending } else x))) ∧
  (∀ (s : State) (die : BitVec 5) k blk, isReady s.dev = true → s.dev.pwr.stage = 0 →
    (s.dev.flash.blocks.find? fun (k, b) => k / blocksPerDie == die.toNat && b.state == .erasing &&
      !(s.dev.flash.jobs.any fun j => blockKey j.page == k)) = some (k, blk) →
    exec (.eraseRestart die) s = .next (settled s (queueFlash
      { ref := none, tenant := 0, kind := .erase, page := k * 512, order := s.dev.cmd.nextOrder, lst := noDeadline }
      { s.dev with cmd := { s.dev.cmd with nextOrder := s.dev.cmd.nextOrder + 1 } }))) ∧
  (∀ (d : Device) (j : FlashJob) (out : ArrayOutcome), let k := blockKey j.page; let n := (j.page + j.done) % 512
    let e := pageProgrammed j out d
    (blockOf e k).next = n + 1 ∧ (blockOf e k).state = (if n = 511 then .full else .open_) ∧ (∀ i, i ≠ k → blockOf e i = blockOf d i) ∧
    (out.failed = true → e.flash.pages = d.flash.pages) ∧
    (out.failed = false → ∃ x, Assoc.find e.flash.pages (j.page + j.done) = some x ∧ x.tenant = j.tenant ∧
      x.erases = (blockOf d k).erases ∧ ∀ i, i ≠ j.page + j.done → Assoc.find e.flash.pages i = Assoc.find d.flash.pages i))

/-! ### DRAM and power -/

/-- DRAM (R446, R449 to R452, R455, R459 to R463): a channel serves its oldest write, and a partial one whose read is Uncorrectable is not
performed; a patrol read moves on; a due refresh is postponed while the channel is busy; a drift of more than 1/16 UI retrains; the map
scrub ends; self-refresh is left and entered again. -/
def Obligations.DramChannelsRun : Prop :=
  ∀ (s : State) (ch : BitVec 5), coreAlive s.dev = true → let c := ch.toNat; let x := chanOf s.dev c
    (x.selfRef = false →
      (∀ e q ecc, x.queue = e :: q → readPending s.dev c = false ∨ x.draining = true → ∃ f,
        (chanOf f c).queue = q ∧ (chanOf f c).draining = (x.draining && decide (q.length > s.dev.dram.low.toNat)) ∧ f.fab = s.dev.fab ∧
        (e.mask = BitVec.allOnes 64 → exec (.dramWriteDrain ch ecc) s = .next (settled s f)) ∧
        (e.mask ≠ BitVec.allOnes 64 → f.dram.rmwCount = s.dev.dram.rmwCount + 1 ∧
          (readClass s.dev e.block ecc = .uncorrectable → exec (.dramWriteDrain ch ecc) s = .next (settled s (dramUncorrectable e.block srcRmw (revertBlock e f)))) ∧
          (readClass s.dev e.block ecc = .corrected → exec (.dramWriteDrain ch ecc) s =
            .next (settled s { f with dram := { f.dram with corrCount := f.dram.corrCount + 1, corr := true } })) ∧
          (readClass s.dev e.block ecc = .clean → exec (.dramWriteDrain ch ecc) s = .next (settled s f)))) ∧
      (∀ ecc, s.dev.dram.hours ≠ 0 → readPending s.dev c = false → x.queue = [] → ∃ f,
        exec (.patrolRead ch ecc) s = .next (settled s (dramRead (channelBase c + x.patrol) srcPatrol ecc f)) ∧
        (chanOf f c).patrol = (x.patrol + 64) % channelSize ∧ f.fab = s.dev.fab) ∧
      (∀ bank high, ∃ u, exec (.refresh ch bank high) s = .next u ∧ (chanOf u.dev c).high = high ∧
        SMap.get 0 (chanOf u.dev c).postponed bank.toNat = (if readPending s.dev c || !x.queue.isEmpty
          then (let n := SMap.get 0 x.postponed bank.toNat; if n < 8 then n + 1 else n) else 0) ∧ u.dev.fab = s.dev.fab) ∧
      (∀ drift lanes, 4 < drift → ∃ u, exec (.oscillatorCheck ch drift lanes) s = .next u ∧ (chanOf u.dev c).lanes = lanes ∧
        (chanOf u.dev c).retrains = x.retrains + 1)) ∧
    exec .mapScrubComplete s = .next (settled s { s.dev with dram := { s.dev.dram with mapBusy := false } }) ∧
    (x.selfRef = true → ∃ u, exec (.selfRefreshExit ch) s = .next u ∧ (chanOf u.dev c).selfRef = false ∧
      (chanOf u.dev c).wokenAt = (if s.dev.pwr.stage ≥ 2 then some s.dev.clock else none)) ∧
    (∀ t, x.wokenAt = some t → 2 ≤ s.dev.pwr.stage → ∃ u, exec (.selfRefreshReentry ch) s = .next u ∧ (chanOf u.dev c).selfRef = true ∧
      u.dev.clock = max s.dev.clock (t + 1000000))

/-- Power (R467, R468, R472 to R484): V_in as the mean of the last samples takes the stages of R479 and starts the waits of R482; a wait
that is over lifts one stage; an input below 33.0 V in stage 4 begins a supply reset; two samples at 105 °C trip; the cap controller keeps
the largest k within the budget; the profile moves an eighth of the way; the current limit falls by 8 and rises by 1; and the opcodes. -/
def Obligations.PowerFollowsItsSamples : Prop :=
  (∀ mv : Nat, stageFor mv = if mv < 34000 then 4 else if mv < 35000 then 3 else if mv < 36500 then 2 else if mv < 38000 then 1 else 0) ∧
  (∀ s : State,
    (∀ mv, let e := noteVin mv s.dev
      e.pwr.vin = ((mv :: s.dev.pwr.samples).take 4).sum / ((mv :: s.dev.pwr.samples).take 4).length ∧
      (coreAlive s.dev = true → exec (.vinSample mv) s = .next (settled s (judgeGood (takeStages (stageFor e.pwr.vin) e))))) ∧
    (∀ t, liftDue s.dev = some t → coreAlive s.dev = true → 1 ≤ s.dev.pwr.stage →
      exec .shedStageLift s = .next (settled s (liftActions s.dev.pwr.stage
        (let e := advanceTo t s.dev
         setEvent evShed { e with pwr := { e.pwr with stage := e.pwr.stage - 1, goodAt := none, liftAt := some (e.clock + 2 * ms) } })))) ∧
    (s.dev.pwr.vin < 33000 → s.dev.pwr.samples ≠ [] → s.dev.pwr.stage = 4 ∨ coreAlive s.dev = false →
      exec .supplyReset s = .next (settled s (beginReset kindSupply 0 { s.dev with boot := { s.dev.boot with frozen := none } }))) ∧
    (∀ temps, coreAlive s.dev = true → let d := { s.dev with pwr := { s.dev.pwr with temps := temps } }
      (s.dev.boot.phase = .fault → s.dev.boot.faultCode = 5 → tjMax d ≤ 85 →
        exec (.thermalSample temps) s = .next (settled s (thermalRelease (judgeThermal d)))) ∧
      (s.dev.boot.phase ≠ .fault → exec (.thermalSample temps) s = .next (settled s
        (let e := judgeThermal d; let n := if tjMax d ≥ 105 then s.dev.pwr.trips + 1 else 0
         let e := { e with pwr := { e.pwr with trips := n } }
         if n ≥ 2 then thermalTrip e else e))) ∧
      ((judgeThermal d).pwr.thermal = (if s.dev.pwr.thermal then decide (92 < tjMax d) else decide (95 ≤ tjMax d)))) ∧
    (∀ inlet outlet flow, coreAlive s.dev = true → ∃ e, e.pwr.inlet = inlet ∧ e.pwr.outlet = outlet ∧ e.pwr.flow = flow ∧
      e.pwr.coolant = s.dev.pwr.coolant ∧ e.fab = s.dev.fab ∧ exec (.coolantSample inlet outlet flow) s = .next (settled s
        (if coolantNext s.dev.clock e.pwr ≠ s.dev.pwr.coolant then enterCoolant (coolantNext s.dev.clock e.pwr) e else e))) ∧
    (∀ t q, coreAlive s.dev = true → partOf s.dev (BitVec.toNat t) = some q →
      (∀ idle measured, exec (.capRecompute t idle measured) s = .next (settled s (capStep (groupOf t.toNat q) q idle measured s.dev))) ∧
      (∀ amps, exec (.currentLimitCheck t amps) s = .next (settled s (onGroup (groupOf t.toNat q) (fun x =>
        { x with current := if overCurrent s.dev q amps then max 1 (x.current - 8) else min 64 (x.current + 1) }) s.dev)))) ∧
    (∀ (t : Tile) mw n q, coreAlive s.dev = true → holderOf s.dev t.toNat = some (n, q) →
      let g := groupOf n q; let e := learn (profileOf s.dev g (tilePhase s.dev t.toNat)) (mw * 64 / groupK s.dev g)
      exec (.profileUpdate t mw) s = .next (settled s (match tilePhase s.dev t.toNat with
        | .idle => s.dev
        | .attention => onGroup g (fun y => { y with attention := some e }) s.dev
        | .prefill => onGroup g (fun y => { y with prefill := some e }) s.dev
        | .decode => onGroup g (fun y => { y with decode := some e }) s.dev))) ∧
    (coreAlive s.dev = true → ∃ u, exec .vcoreUpdate s = .next u ∧ u.dev.pwr.vcore = coreSetpoint s.dev / 10)) ∧
  (∀ (d : Device) g q idle, let k := capKeep d g q idle
    let fits := fun k => withinBudget d q (activeDraw d g q * k + 64 * idle) 64 1
    1 ≤ k ∧ k ≤ 64 ∧ (fits k = true ∨ k = 1) ∧ ∀ j, 1 ≤ j → j ≤ 64 → fits j = true → j ≤ k) ∧
  (∀ (s : State) (r : Ref) (p : Packet) (b : List Byte) (c : Option Nat), let d := admitted p b c s.dev; let q := begun p b
    (∀ x, Admits { opcode := 0x0A00, size := some 0, part := true } r p b c s.dev → partOf d p.hdr.tenant.toNat = some x →
      exec (.pwrQuery r) s = .next (settled s (finish q stOK (queryBytes p.hdr.tenant.toNat x d) (if x.sealed then spend 4 d else d)))) ∧
    (Admits { opcode := 0x0A01, size := some 4, dev := true, roles := byInstaller, reserved := [(2, 2)] } r p b c s.dev →
      130 ≤ field b 0 2 → field b 0 2 ≤ 300 → ledgerRoom d = none → exec (.pwrSetCap r) s = .next (settled s (complete q
        (ledgerConfig q { d with pwr := { d.pwr with cap := BitVec.ofNat 9 (field b 0 2) } })))) ∧
    (Admits { opcode := 0x0A02, size := some 4, dev := true, roles := byInstaller, reserved := [(1, 3)] } r p b c s.dev → ledgerRoom d = none →
      (field b 0 1 = 0 → exec (.pwrProfileReset r) s = .next (settled s (complete q (ledgerConfig q
        ((groupsHeld d).foldl (fun d g => resetProfile g d) d))))) ∧
      (∀ x, field b 0 1 ≠ 0 → partOf d (field b 0 1) = some x → exec (.pwrProfileReset r) s = .next (settled s (complete q
        (ledgerConfig q (resetProfile (groupOf (field b 0 1) x) d)))))))

/-! ### Audit, twin mode, the freeze and the test port -/

/-- Audit records and twin mode (R491 to R500, R507). A job's audit buffer is set or taken away; ATTEST signs what it is sent; pairing needs
both requests, alike, within 1 s; the partner's admissions, cancels, compositions, digests and Fixed-plane runs, which a message that passed
the checks of R352 brings, are compared; the tile
test reports. A freeze stops the device until it is released by a fault reset (R501, R502), and the test port reads what its role and the
fuses allow (R503 to R506). -/
def Obligations.AuditTwinAndTestPort : Prop :=
  (∀ (s : State) (r : Ref) (p : Packet) (b : List Byte) (c : Option Nat),
    let d := admitted p b c s.dev; let q := begun p b; let t := p.hdr.tenant; let jid := p.hdr.job
    (∀ j, jobOf d t jid = some j → j.closing = false →
      (Admits { opcode := 0x0B00, size := some 16, part := true, reserved := [(13, 3)], bits := [(12, 0xFE)] } r p b c s.dev →
        (bitOf (field b 12 1) 0 = false → exec (.auditJobCfg r) s =
          .next (settled s (complete q (onJob t jid (fun j => { j with audit := none }) d)))) ∧
        (bitOf (field b 12 1) 0 = true → 1 ≤ field b 8 4 → field b 8 4 ≤ 65536 →
          rangeError d t.toNat (word32 b 0) (word32 b 4).toNat (128 * field b 8 4) = none → exec (.auditJobCfg r) s =
          .next (settled s (complete q (onJob t jid (fun j =>
            { j with audit := some { handle := word32 b 0, off := word32 b 4, cap := field b 8 4 } }) d))))) ∧
      (Admits { opcode := 0x0B02, size := some 8, part := true, reserved := [(4, 4)] } r p b c s.dev → twinUp d = true → j.twin = .none →
        exec (.auditTwinPair r) s = .next (settled s
          (let e := onJob t jid (fun j => { j with
              twin := .requested, twinJob := word32 b 0, pairer := some (refOf p), pairAt := d.clock })
            (sendTwin (.pair t jid (word32 b 0) (jobDigests d j) (jobSettings j) (hasRun j)) d)
           match offerFor e t jid (word32 b 0) with | some o => judgePair q j o e | none => hold q e))) ∧
      (Admits { opcode := 0x0B03, size := some 0, part := true } r p b c s.dev →
        exec (.auditTwinQuery r) s = .next (settled s (finish q stOK (twinQueryBytes j) d)))) ∧
    (Admits { opcode := 0x0B01, size := some 552, part := true, reserved := [(36, 4)] } r p b c s.dev →
      1 ≤ field b 32 4 → field b 32 4 ≤ 16 → (b.drop (40 + 32 * field b 32 4)).all (· == 0) = true → exec (.auditAttest r) s =
        .next (settled s (finish q stOK (padTo 120 (edSign Config.identityKey (ascii "LN-AUDIT-ATT" ++ serialBytes d ++ [t] ++
          slice b 0 32 ++ slice b 40 (32 * field b 32 4)))) d))) ∧
    (∀ fail cyc, Admits { opcode := 0x0B10, size := some 4, dev := true, roles := byEither, reserved := [(1, 3)] } r p b c s.dev →
      field b 0 1 < tileCount d → d.pwr.stage < 2 → ledgerRoom d = none → tileHeld d (field b 0 1) = false →
      d.fix.mask.getLsbD (field b 0 1) = false → exec (.diagTileTest r fail cyc) s = .next (settled s (match fail with
        | some (u, i) => finish q stTestFail ([u, 0] ++ leBytes 2 i.toNat ++ leBytes 4 cyc.toNat) d
        | none => finish q stOK ([0xFF, 0] ++ leBytes 2 0 ++ leBytes 4 cyc.toNat) (ledgerConfig q d)))) ∧
    (∀ x j, findPacket s.dev r = some x → isReady s.dev = true → x.held = true → x.hdr.opcode = 0x0B02 →
      jobOf s.dev x.hdr.tenant x.hdr.job = some j → exec (.twinPairTimeout r) s = .next (settled s (refuse x stTwinMismatch
        (onJob x.hdr.tenant x.hdr.job (fun j => { j with twin := .none, pairer := none }) (advanceTo (j.pairAt + 1000000000) s.dev)))))) ∧
  (∀ s : State, isReady s.dev = true → twinUp s.dev = true →
    (takeMsg true 0 none (fun _ => true) s.dev = none → ∀ c, exec (.twinCtrl c) s = .next (settled s s.dev)) ∧
    (∀ d, takeMsg true 0 none (fun _ => true) s.dev = some d →
      (∀ t job mine ds xs st, exec (.twinCtrl (.pair t job mine ds xs st)) s = .next (settled s (takeOffer
        { tenant := t, job := job, mine := mine, digests := ds, settings := xs, started := st, at_ := d.clock } d))) ∧
      (∀ t job jid j tag dg, twinOf d t job = some (jid, j) →
        exec (.twinCtrl (.admission t job tag dg)) s = .next (settled s (takeAdmit t jid tag dg d)))) ∧
    (∀ t job, (takeMsg true 1 none (twinFits t job) s.dev = none → ∀ seqs dStep parked,
      exec (.twinStep t job seqs dStep parked) s = .next (settled s s.dev))) ∧
    (∀ t job jid j d, takeMsg true 1 none (twinFits t job) s.dev = some d → twinOf d t job = some (jid, j) →
      (∀ seqs dStep parked, j.leader = false → exec (.twinStep t job seqs dStep parked) s =
        .next (settled s (onJob t jid (fun j => { j with leadRows := some (seqs, dStep, parked) }) d))) ∧
      (∀ seqs dStep parked, j.leader = true → exec (.twinStep t job seqs dStep parked) s =
        .next (settled s
          (let keep (st : StepRun) := stepOver d j (st.rows.filter fun y => !parked.contains y.ref.tag) { st with awaitTwin := false }
           stepCheck t jid (onJob t jid (fun x => { x with step := x.step.map fun st => if st.awaitTwin then keep st else st }) d))))) ∧
    (∀ t job jid j d ds, takeMsg true 2 none (twinFits t job) s.dev = some d → twinOf d t job = some (jid, j) →
      exec (.twinDigest t job ds) s = .next (settled s (twinCompare t jid (onJob t jid (fun j => { j with theirs := j.theirs ++ [ds] }) d)))) ∧
    (∀ seq dg d, takeMsg true 3 none (fun _ => true) s.dev = some d → d.audit.fixCompare = true →
      (∀ x, (d.audit.myRuns.find? fun x => x.seq == seq) = some x → exec (.twinFix seq dg) s = .next (settled s
        (fixCompare seq x.digest dg { d with audit := { d.audit with myRuns := d.audit.myRuns.filter fun x => x.seq != seq } }))) ∧
      ((d.audit.myRuns.find? fun x => x.seq == seq) = none → ∃ u, exec (.twinFix seq dg) s = .next u ∧
        u.dev.audit.theirRuns.getLast? = some { seq := seq, digest := dg, at_ := d.clock } ∧ u.dev.audit.myRuns = d.audit.myRuns)) ∧
    (∀ seq x, (s.dev.audit.myRuns.find? fun x => x.seq == seq) = some x → ∃ u, exec (.twinFixUnmatched seq) s = .next u ∧
      u.dev.audit.unmatched = s.dev.audit.unmatched + 1 ∧ u.dev.clock = max s.dev.clock (x.at_ + 10000000) ∧
      u.dev.audit.myRuns = s.dev.audit.myRuns.filter fun x => x.seq != seq)) ∧
  (∀ s : State,
    (isFrozen s.dev = false → ∃ u, exec .freeze s = .next u ∧ isFrozen u.dev = true ∧ u.dev.fix.rdy = false ∧
      u.dev.boot.frozen.map (·.tilesBusy) = some (tilesInFlight s.dev) ∧ u.dev.tiles = s.dev.tiles ∧
      u.dev.fab = s.dev.fab) ∧
    (isFrozen s.dev = true → ∀ env, exec (.freezeRelease env) s =
      .next (settled s (resetAndStart kindFault 2 env { s.dev with boot := { s.dev.boot with frozen := none } }))) ∧
    exec .testLogicReset s = .next (settled s { s.dev with boot := { s.dev.boot with tap := .idcode } }) ∧
    (∃ u, exec .idcode s = .next u ∧ u.dev.boot.tap = .idcode ∧ u.dev.boot.tdo = leBytes 4
      (s.dev.boot.otp.stepping.toNat * 2 ^ 28 + s.dev.boot.otp.part.toNat * 2 ^ 12 + 0x2D9 * 2 + 1)) ∧
    exec .samplePreload s = .next (settled s { s.dev with boot := { s.dev.boot with tap := .sample, tdo := Config.boundary } }) ∧
    exec .bypass s = .next (settled s { s.dev with boot := { s.dev.boot with tap := .bypass, tdo := [0] } }) ∧
    (exec .extest s = .next (settled s (if isFrozen s.dev && makerActive s.dev
      then { s.dev with boot := { s.dev.boot with tap := .extest, tdo := Config.boundary } }
      else { s.dev with boot := { s.dev.boot with tap := .bypass, tdo := [0] } }))) ∧
    (∀ v : W64, ∃ u, exec (.roAddr v) s = .next u ∧ u.dev.boot.tap = .roAddr ∧ u.dev.boot.roReg.toNat = v.toNat / 2 ^ 56 ∧
      u.dev.boot.roAddr = v.toNat % 2 ^ 44 / 8 * 8 ∧
      u.dev.boot.tdo = leBytes 8 (s.dev.boot.roReg.toNat * 2 ^ 56 + s.dev.boot.roAddr)) ∧
    (∃ u, exec .roData s = .next u ∧ u.dev.boot.tap = .roData ∧ u.dev.boot.roAddr = (s.dev.boot.roAddr + 8) % 2 ^ 44 ∧
      ((if tenantClass s.dev s.dev.boot.roReg.toNat s.dev.boot.roAddr then tenantOpen s.dev else deviceOpen s.dev) = false →
        u.dev.boot.tdo = zeros 8 ∧ u.dev.dram = s.dev.dram)) ∧
    (∃ u, exec .roStatus s = .next u ∧ u.dev.boot.tap = .roStatus ∧
      u.dev.boot.tdo = leBytes 4 (bitAt (tenantOpen s.dev) 2 + bitAt (deviceOpen s.dev) 1 + bitAt (isFrozen s.dev) 0)))

/-! ### Resets and low power -/

/-- Resets, start-up and the low-power states (R85, R510 to R526). A reset begins by leaving the device HELD, RDY low, without packets,
records, session or Fixed-plane run; start-up ends in READY, in the wait of step 10, or in FAULT with its step and code, which a warm
reset does not leave and a fault reset leaves for RESTART alone; a partition reset is taken under its role, or by RESET; a low-power
request needs its role, is refused, or is entered once the running steps have parked, and its wake sources end it; the exit from Nap arms
the Fixed plane again when a check run counts as the image says. -/
def Obligations.ResetsAndLowPower : Prop :=
  (∀ (d : Device) (kind source : Byte), let e := beginReset kind source d
    e.boot.phase = .held ∧ e.boot.begun = some (kind, source) ∧ e.boot.lp = .active ∧ e.cmd.flight = [] ∧ e.cmd.ring = [] ∧
    e.cmd.held = [] ∧ e.cmd.counters = d.cmd.counters ∧ e.sec.session = none ∧ e.fix.run = none ∧ e.fix.rdy = false ∧ e.flash.jobs = [] ∧
    e.fab = d.fab ∧ e.tiles = d.tiles) ∧
  (∀ (kind source : Byte) (env : BootEnv) (d : Device),
    let full := kind == kindCold || kind == kindSupply || (kind == kindFault && source == 4 && d.boot.dramFault)
    (∀ step code, startFault kind full env = some (step, code) → let e := startUp kind source env d
      e.boot.phase = .fault ∧ e.boot.faultStep = BitVec.ofNat 8 step ∧ e.boot.faultCode = BitVec.ofNat 8 code) ∧
    (startFault kind full env = none → let e := startUp kind source env d
      (e.boot.phase = .ready ∧ e.boot.waitFrom = none) ∨ (e.boot.step = 10 ∧ e.boot.waitFrom.isSome = true))) ∧
  (∀ (s : State) (env : BootEnv),
    exec (.coldReset env) s = .next (settled s (startUp kindCold 0 env
      (beginReset kindCold 0 { s.dev with boot := { s.dev.boot with frozen := none } }))) ∧
    (∀ src, mayReset kindWarm src s.dev = true → exec (.warmReset src env) s = .next (settled s (resetAndStart kindWarm src env s.dev))) ∧
    (∀ src, mayReset kindFault src s.dev = true → exec (.faultReset src env) s = .next (settled s (resetAndStart kindFault src env s.dev))) ∧
    (∀ src, s.dev.boot.phase = .fault → exec (.warmReset src env) s = .next (settled s s.dev) ∧
      (src ≠ 6 → exec (.faultReset src env) s = .next (settled s s.dev))) ∧
    (isFrozen s.dev = false →
      (s.dev.boot.phase = .booting ∨ s.dev.boot.phase = .ready →
        exec (.watchdogExpiry env) s = .next (settled s (resetAndStart kindFault 3 env s.dev))) ∧
      (∀ src, s.dev.boot.begun = some (kindSupply, src) →
        exec (.startThresholdReached env) s = .next (settled s (startUp kindSupply src env s.dev))) ∧
      (∀ src : Byte, s.dev.boot.lp = .hibernate → wakesFrom src.toNat .hibernate = true → exec (.hibernateExit src env) s = .next (settled s
        (startUp kindHibernate 0 env (beginReset kindHibernate 0 (ledgerLp { s.dev with boot := { s.dev.boot with wakeSrc := src } }))))) ∧
      (∀ t, s.dev.boot.waitFrom = some t → ∃ u, exec .startupReady s = .next u ∧ u.dev.boot.phase = .ready ∧ u.dev.boot.waitFrom = none ∧
        (basesLocked s.dev.gauge = false → u.dev.boot.gaugeTimeout = true ∧
          u.dev.clock = max s.dev.clock (t + s.dev.boot.gaugeWait.toNat * 1000000))) ∧
      (∀ dt, s.dev.boot.exiting = true → exec (.napExitComplete dt) s = .next (settled s
        (let e := channelsUp { advance dt s.dev with boot := { (advance dt s.dev).boot with exiting := false, lp := .active, phase := .ready } }
         let f := if mustShed e then e else unshedPorts e
         let g := if f.boot.rearm then rearmFix f else f
         ledgerLp { g with boot := { g.boot with rearm := false } })))) ∧
    (coreAlive s.dev = true → ∀ tag t rest, s.dev.cmd.resetPending = (tag, t) :: rest →
      exec .resetRecordTimeout s = .next (settled s (beginReset kindWarm 1 (advanceTo (t + 10000000) s.dev)))) ∧
    (hostAlive s.dev = true → let h := noEnable s.dev
      (∀ k src, (rwl 0xC0014 byEither true restartReset h).boot.begun = some (k, src) →
        exec (.restart env) s = .next (settled s (startUp k src env (rwl 0xC0014 byEither true restartReset h)))) ∧
      (∀ mask bad, exec (.partitionReset mask false bad) s = .next (settled s (rwl 0xC0018 byEither true (partReset mask false bad) h))) ∧
      exec .dozeRequest s = .next (settled s (lpWrite 1 h)) ∧ exec .napRequest s = .next (settled s (lpWrite 2 h)) ∧
      exec .hibernateRequest s = .next (settled s (lpWrite 3 h)) ∧ exec .wake s = .next (settled s (wakeUp 1 h))) ∧
    (isReady s.dev = true → ∀ mask bad, exec (.partitionReset mask true bad) s = .next (settled s (partReset mask true bad s.dev))) ∧
    (∀ x, s.dev.boot.entering = some x → x ≠ .active → coreAlive s.dev = true → stepsParked s.dev = true → ∃ u,
      exec .lpEntryComplete s = .next u ∧ u.dev.boot.lp = x ∧ u.dev.boot.entering = none ∧
      (x = .doze → u.dev.boot.phase = s.dev.boot.phase) ∧ (x ≠ .doze → u.dev.boot.phase = .lowPower) ∧
      (x ≠ .hibernate → ∀ c, c < 32 → (chanOf u.dev c).selfRef = true) ∧ (x = .nap → u.dev.fix.armed = false) ∧
      (x = .hibernate → u.dev.fix.rdy = false))) ∧
  (∀ (x : LowPower) (d : Device), (lpRefusal d x = true → lpRequest x d = { d with boot := { d.boot with lpRefused := true } }) ∧
    (lpRefusal d x = false → d.boot.phase = .ready → d.boot.exiting = false → lpDepth (lowPowerOf d) < lpDepth x →
      (lpRequest x d).boot.entering = some x ∧ (lpRequest x d).boot.lp = d.boot.lp ∧ (lpRequest x d).sec = d.sec)) ∧
  (∀ (req : Nat) (d : Device), req ≤ 3 → let e := ledgerReg 0x0020 lpCtrlAddr stOK d
    (byEither.contains (activeRole d) = true → ledgerRoom d = none →
      lpWrite req d = lpAsk req { e with boot := { e.boot with trigWake := d.boot.trigWake } }) ∧
    (activeRole d = roleOperator → ledgerRoom d = none → lpWrite req d = ledgerReg 0x0003 lpCtrlAddr stDeniedRole (lpAsk req e)) ∧
    (anyRole.contains (activeRole d) = false → lpWrite req d = ledgerReg 0x0003 lpCtrlAddr stDeniedRole d)) ∧
  (∀ (d : Device) (img : List Byte), d.fix.image = some img → let e := checkRun img d; let n := planCount img e
    (n = field img 12 4 → overBound (imgCycle img) e.fix.bound.toNat = false →
      rearmFix d = { e with fix := { e.fix with armed := true } }) ∧
    (n ≠ field img 12 4 → rearmFix d = saveFix (internalFault 3 n e)))
end

