-- ==== Sys2Proof/Laws/Cipher.lean ====
section
/-! SUPPORT. AES-256-GCM opens what it seals (R66, R70). -/

namespace Sys2Proof.Machine

theorem xorBytes_length (a b : List Byte) : (xorBytes a b).length = min a.length b.length := by
  induction a generalizing b with
  | nil => cases b <;> simp [xorBytes]
  | cons x xs ih => cases b with
    | nil => simp [xorBytes]
    | cons y ys => simp [xorBytes, ih]

/-- Xor with a string that is long enough undoes itself. -/
theorem xorBytes_twice (a k : List Byte) (h : a.length ≤ k.length) : xorBytes (xorBytes a k) k = a := by
  induction a generalizing k with
  | nil => cases k <;> rfl
  | cons x xs ih =>
    cases k with
    | nil => simp at h
    | cons y ys =>
      simp only [List.length_cons, Nat.add_le_add_iff_right] at h
      simp only [xorBytes, ih ys h, List.cons.injEq, and_true]
      rw [BitVec.xor_assoc, BitVec.xor_self, BitVec.xor_zero]

/-- Every word of the key schedule has four bytes, and there are eight at least. -/
theorem keyWords_words (k i : Nat) (rcon : Byte) (ws : List (List Byte)) (h8 : 8 ≤ ws.length) (h4 : ∀ w ∈ ws, w.length = 4) :
    (keyWords k i rcon ws).length = k + ws.length ∧ ∀ w ∈ keyWords k i rcon ws, w.length = 4 := by
  induction k generalizing i rcon ws with
  | zero => exact ⟨(Nat.zero_add _).symm, h4⟩
  | succ k ih =>
    have hp : (ws.getD 0 []).length = 4 := by
      rw [List.getD_eq_getElem _ _ (by omega)]; exact h4 _ (List.getElem_mem _)
    have hb : (ws.getD 7 []).length = 4 := by
      rw [List.getD_eq_getElem _ _ (by omega)]; exact h4 _ (List.getElem_mem _)
    have step : ∀ (t : List Byte) (i' : Nat) (rc : Byte), t.length = 4 →
        (keyWords k i' rc (xorBytes (ws.getD 7 []) t :: ws)).length = k + 1 + ws.length ∧
        ∀ w ∈ keyWords k i' rc (xorBytes (ws.getD 7 []) t :: ws), w.length = 4 := by
      intro t i' rc ht
      have := ih i' rc (xorBytes (ws.getD 7 []) t :: ws) (by simp; omega) (by
        intro w hw
        rcases List.mem_cons.mp hw with rfl | hw
        · rw [xorBytes_length]; omega
        · exact h4 w hw)
      refine ⟨?_, this.2⟩
      rw [this.1]; simp; omega
    simp only [keyWords]
    split
    · apply step
      obtain ⟨a, b, c, e, he⟩ : ∃ a b c e, ws.getD 0 [] = [a, b, c, e] := by
        match ws.getD 0 [], hp with
        | [a, b, c, e], _ => exact ⟨a, b, c, e, rfl⟩
      rw [he]; rfl
    · split
      · exact step _ _ _ (by rw [List.length_map]; exact hp)
      · exact step _ _ _ hp

theorem padTo_length (n : Nat) (bs : List Byte) : (padTo n bs).length = n := by
  simp [padTo, zeros]; omega

theorem roundKeys_spec (key : List Byte) : (roundKeys key).length = 15 ∧ ∀ k ∈ roundKeys key, k.length = 16 := by
  unfold roundKeys
  obtain ⟨hl, hw⟩ := keyWords_words 52 8 1 ((List.range 8).map fun i => slice (padTo 32 key) (4 * i) 4).reverse (by simp) (by
    intro w hw
    simp only [List.mem_reverse, List.mem_map, List.mem_range] at hw
    obtain ⟨i, hi, rfl⟩ := hw
    simp only [slice, List.length_take, List.length_drop, padTo_length]; omega)
  refine ⟨by simp, ?_⟩
  intro k hk
  simp only [List.mem_map, List.mem_range] at hk
  obtain ⟨r, hr, rfl⟩ := hk
  set ws := (keyWords 52 8 1 ((List.range 8).map fun i => slice (padTo 32 key) (4 * i) 4).reverse).reverse with hws
  have hl' : ws.length = 60 := by rw [hws, List.length_reverse, hl]; simp
  have h4 : ∀ w ∈ (ws.drop (4 * r)).take 4, w.length = 4 := by
    intro w hw'
    exact hw w (by rw [← List.mem_reverse]; exact List.mem_of_mem_drop (List.mem_of_mem_take hw'))
  have hn : ((ws.drop (4 * r)).take 4).length = 4 := by simp [hl']; omega
  match h : (ws.drop (4 * r)).take 4, hn with
  | [a, b, c, e], _ =>
    rw [h] at h4
    simp [h4 a (by simp), h4 b (by simp), h4 c (by simp), h4 e (by simp)]

theorem aesRounds_length (ks : List (List Byte)) (s : List Byte) (h : ∀ k ∈ ks, k.length = 16) (hn : ks ≠ []) :
    (aesRounds ks s).length = 16 := by
  induction ks generalizing s with
  | nil => exact absurd rfl hn
  | cons k ks ih =>
    cases ks with
    | nil => simp [aesRounds, xorBytes_length, shiftRows, h k (by simp)]
    | cons k' ks => exact ih _ (fun x hx => h x (List.mem_cons_of_mem _ hx)) (by simp)

/-- A block of AES-256 has 16 bytes, whatever the key and the input. -/
theorem aes256_length (key blk : List Byte) : (aes256 key blk).length = 16 := by
  obtain ⟨hl, hk⟩ := roundKeys_spec key
  unfold aes256
  match h : roundKeys key with
  | [] => rw [h] at hl; simp at hl
  | [k] => rw [h] at hl; simp at hl
  | k :: k' :: ks =>
    rw [h] at hk
    exact aesRounds_length _ _ (fun x hx => hk x (List.mem_cons_of_mem _ hx)) (by simp)

/-- Counter mode over the blocks of a string, from block counter `i`. -/
theorem ctr_step (key iv : List Byte) (i : Nat) (b : List Byte) (bs : List (List Byte)) :
    (((b :: bs).zipIdx i).flatMap fun x => xorBytes x.1 (aes256 key (iv ++ beBytes 4 x.2))) =
    xorBytes b (aes256 key (iv ++ beBytes 4 i)) ++
      ((bs.zipIdx (i + 1)).flatMap fun x => xorBytes x.1 (aes256 key (iv ++ beBytes 4 x.2))) := by
  simp [List.zipIdx_cons]

theorem ctr_length (key iv : List Byte) (fuel i : Nat) (bs : List Byte) (h : bs.length ≤ 16 * fuel) :
    (((blocksOf 16 fuel bs).zipIdx i).flatMap fun x => xorBytes x.1 (aes256 key (iv ++ beBytes 4 x.2))).length = bs.length := by
  induction fuel generalizing i bs with
  | zero =>
    have : bs = [] := List.length_eq_zero_iff.mp (by omega)
    subst this; rfl
  | succ n ih =>
    cases bs with
    | nil => rfl
    | cons x xs =>
      simp only [blocksOf]
      rw [ctr_step key iv i, List.length_append, ih _ _ (by simp at h ⊢; omega), xorBytes_length, aes256_length]
      simp; omega

theorem ctr_twice (key iv : List Byte) (fuel i : Nat) (bs : List Byte) (h : bs.length ≤ 16 * fuel) :
    (((blocksOf 16 fuel (((blocksOf 16 fuel bs).zipIdx i).flatMap fun x => xorBytes x.1 (aes256 key (iv ++ beBytes 4 x.2)))).zipIdx i).flatMap
      fun x => xorBytes x.1 (aes256 key (iv ++ beBytes 4 x.2))) = bs := by
  induction fuel generalizing i bs with
  | zero =>
    have : bs = [] := List.length_eq_zero_iff.mp (by omega)
    subst this; rfl
  | succ n ih =>
    cases hb : bs with
    | nil => rfl
    | cons x xs =>
      have h' : (bs.drop 16).length ≤ 16 * n := by simp; omega
      rw [← hb]
      have e1 : blocksOf 16 (n + 1) bs = bs.take 16 :: blocksOf 16 n (bs.drop 16) := by rw [hb]; rfl
      rw [e1, ctr_step key iv i]
      set k := aes256 key (iv ++ beBytes 4 i) with hk
      set r := ((blocksOf 16 n (bs.drop 16)).zipIdx (i + 1)).flatMap
        (fun x => xorBytes x.1 (aes256 key (iv ++ beBytes 4 x.2))) with hr
      have hkl : k.length = 16 := aes256_length _ _
      have hrl : r.length = (bs.drop 16).length := ctr_length key iv n (i + 1) _ h'
      have hfl : (xorBytes (bs.take 16) k).length = (bs.take 16).length := by
        rw [xorBytes_length, hkl]; simp
      have htake : (xorBytes (bs.take 16) k ++ r).take 16 = xorBytes (bs.take 16) k := by
        by_cases h16 : 16 ≤ bs.length
        · rw [List.take_append_of_le_length (by rw [hfl]; simp; omega), List.take_of_length_le (by rw [hfl]; simp)]
        · have : r = [] := List.length_eq_zero_iff.mp (by rw [hrl]; simp; omega)
          rw [this, List.append_nil, List.take_of_length_le (by rw [hfl]; simp)]
      have hdrop : (xorBytes (bs.take 16) k ++ r).drop 16 = r := by
        by_cases h16 : 16 ≤ bs.length
        · have : (xorBytes (bs.take 16) k).length = 16 := by rw [hfl]; simp; omega
          exact List.drop_left' this
        · have : r = [] := List.length_eq_zero_iff.mp (by rw [hrl]; simp; omega)
          rw [this, List.append_nil, List.drop_of_length_le (by rw [hfl]; simp)]
      have hne : xorBytes (bs.take 16) k ++ r ≠ [] := by
        intro h0
        have := congrArg List.length h0
        rw [List.length_append, hfl, hb] at this
        simp at this
      have e2 : blocksOf 16 (n + 1) (xorBytes (bs.take 16) k ++ r) =
          (xorBytes (bs.take 16) k ++ r).take 16 :: blocksOf 16 n ((xorBytes (bs.take 16) k ++ r).drop 16) := by
        match hm : xorBytes (bs.take 16) k ++ r with
        | [] => exact absurd hm hne
        | y :: ys => rfl
      rw [e2, ctr_step key iv i, htake, hdrop, ← hk, xorBytes_twice _ _ (by rw [hkl]; simp), hr, ih (i + 1) _ h']
      exact List.take_append_drop 16 bs

theorem gcmCtr_length (key iv bs : List Byte) : (gcmCtr key iv bs).length = bs.length :=
  ctr_length key iv _ 2 bs (by omega)

theorem gcmCtr_twice (key iv bs : List Byte) : gcmCtr key iv (gcmCtr key iv bs) = bs := by
  have h : (gcmCtr key iv bs).length / 16 + 1 = bs.length / 16 + 1 := by rw [gcmCtr_length]
  have e : gcmCtr key iv (gcmCtr key iv bs) = ((blocksOf 16 ((gcmCtr key iv bs).length / 16 + 1) (gcmCtr key iv bs)).zipIdx 2).flatMap
      fun x => xorBytes x.1 (aes256 key (iv ++ beBytes 4 x.2)) := rfl
  rw [e, h]
  exact ctr_twice key iv (bs.length / 16 + 1) 2 bs (by omega)

theorem gcmTag_length (key iv aad ct : List Byte) : (gcmTag key iv aad ct).length = 16 := by
  have hle : ∀ n v, (leBytes n v).length = n := by
    intro n; induction n with
    | zero => intro v; rfl
    | succ n ih => intro v; simp [leBytes, ih]
  unfold gcmTag
  simp [xorBytes_length, aes256_length, beBytes, hle]

theorem gcmSeal_length (key iv aad pt : List Byte) : (gcmSeal key iv aad pt).length = pt.length + 16 := by
  simp [gcmSeal, gcmCtr_length, gcmTag_length]

/-- What is sealed under a key, IV and additional data opens under the same. -/
theorem gcmOpen_gcmSeal (key iv aad pt : List Byte) : gcmOpen key iv aad (gcmSeal key iv aad pt) = some pt := by
  have hn : (gcmSeal key iv aad pt).length - 16 = (gcmCtr key iv pt).length := by rw [gcmSeal_length, gcmCtr_length]; omega
  have h1 : (gcmSeal key iv aad pt).take (gcmCtr key iv pt).length = gcmCtr key iv pt := List.take_left' rfl
  have h2 : (gcmSeal key iv aad pt).drop (gcmCtr key iv pt).length = gcmTag key iv aad (gcmCtr key iv pt) := List.drop_left' rfl
  unfold gcmOpen
  simp only [hn, h1, h2]
  rw [if_neg (by rw [gcmSeal_length]; omega), if_pos trivial, gcmCtr_twice]

end Sys2Proof.Machine
end

