-- ==== Sys2Proof/Laws/State.lean ====
section
/-! SUPPORT. What an update of the state leaves alone: one lemma per shared operation and part of the device, and what follows every
command (R77, R471). -/

namespace Sys2Proof.Machine

/-! ### Updates of one part leave every other part -/

@[simp] theorem setEvent_cmd (n : Nat) (d : Device) : (setEvent n d).cmd = d.cmd := rfl
@[simp] theorem setEvent_sec (n : Nat) (d : Device) : (setEvent n d).sec = d.sec := rfl
@[simp] theorem setEvent_mem (n : Nat) (d : Device) : (setEvent n d).mem = d.mem := rfl
@[simp] theorem setEvent_serve (n : Nat) (d : Device) : (setEvent n d).serve = d.serve := rfl
@[simp] theorem setEvent_fix (n : Nat) (d : Device) : (setEvent n d).fix = d.fix := rfl
@[simp] theorem setEvent_gauge (n : Nat) (d : Device) : (setEvent n d).gauge = d.gauge := rfl
@[simp] theorem setEvent_knots (n : Nat) (d : Device) : (setEvent n d).knots = d.knots := rfl
@[simp] theorem setEvent_link (n : Nat) (d : Device) : (setEvent n d).link = d.link := rfl
@[simp] theorem setEvent_flash (n : Nat) (d : Device) : (setEvent n d).flash = d.flash := rfl
@[simp] theorem setEvent_dram (n : Nat) (d : Device) : (setEvent n d).dram = d.dram := rfl
@[simp] theorem setEvent_pwr (n : Nat) (d : Device) : (setEvent n d).pwr = d.pwr := rfl
@[simp] theorem setEvent_audit (n : Nat) (d : Device) : (setEvent n d).audit = d.audit := rfl
@[simp] theorem setEvent_boot (n : Nat) (d : Device) : (setEvent n d).boot = d.boot := rfl
@[simp] theorem setEvent_panel (n : Nat) (d : Device) : (setEvent n d).panel = d.panel := rfl
@[simp] theorem setEvent_tiles (n : Nat) (d : Device) : (setEvent n d).tiles = d.tiles := rfl
@[simp] theorem setEvent_fab (n : Nat) (d : Device) : (setEvent n d).fab = d.fab := rfl
@[simp] theorem setEvent_clock (n : Nat) (d : Device) : (setEvent n d).clock = d.clock := rfl
@[simp] theorem setEvent_freeCtr (n : Nat) (d : Device) : (setEvent n d).freeCtr = d.freeCtr := rfl
@[simp] theorem latchBead_host (n : Nat) (d : Device) : (latchBead n d).host = d.host := rfl
@[simp] theorem latchBead_cmd (n : Nat) (d : Device) : (latchBead n d).cmd = d.cmd := rfl
@[simp] theorem latchBead_sec (n : Nat) (d : Device) : (latchBead n d).sec = d.sec := rfl
@[simp] theorem latchBead_mem (n : Nat) (d : Device) : (latchBead n d).mem = d.mem := rfl
@[simp] theorem latchBead_serve (n : Nat) (d : Device) : (latchBead n d).serve = d.serve := rfl
@[simp] theorem latchBead_fix (n : Nat) (d : Device) : (latchBead n d).fix = d.fix := rfl
@[simp] theorem latchBead_gauge (n : Nat) (d : Device) : (latchBead n d).gauge = d.gauge := rfl
@[simp] theorem latchBead_knots (n : Nat) (d : Device) : (latchBead n d).knots = d.knots := rfl
@[simp] theorem latchBead_link (n : Nat) (d : Device) : (latchBead n d).link = d.link := rfl
@[simp] theorem latchBead_flash (n : Nat) (d : Device) : (latchBead n d).flash = d.flash := rfl
@[simp] theorem latchBead_dram (n : Nat) (d : Device) : (latchBead n d).dram = d.dram := rfl
@[simp] theorem latchBead_pwr (n : Nat) (d : Device) : (latchBead n d).pwr = d.pwr := rfl
@[simp] theorem latchBead_audit (n : Nat) (d : Device) : (latchBead n d).audit = d.audit := rfl
@[simp] theorem latchBead_boot (n : Nat) (d : Device) : (latchBead n d).boot = d.boot := rfl
@[simp] theorem latchBead_tiles (n : Nat) (d : Device) : (latchBead n d).tiles = d.tiles := rfl
@[simp] theorem latchBead_fab (n : Nat) (d : Device) : (latchBead n d).fab = d.fab := rfl
@[simp] theorem latchBead_clock (n : Nat) (d : Device) : (latchBead n d).clock = d.clock := rfl
@[simp] theorem latchBead_freeCtr (n : Nat) (d : Device) : (latchBead n d).freeCtr = d.freeCtr := rfl
@[simp] theorem spend_host (n : Nat) (d : Device) : (spend n d).host = d.host := rfl
@[simp] theorem spend_cmd (n : Nat) (d : Device) : (spend n d).cmd = d.cmd := rfl
@[simp] theorem spend_sec (n : Nat) (d : Device) : (spend n d).sec = d.sec := rfl
@[simp] theorem spend_mem (n : Nat) (d : Device) : (spend n d).mem = d.mem := rfl
@[simp] theorem spend_serve (n : Nat) (d : Device) : (spend n d).serve = d.serve := rfl
@[simp] theorem spend_fix (n : Nat) (d : Device) : (spend n d).fix = d.fix := rfl
@[simp] theorem spend_gauge (n : Nat) (d : Device) : (spend n d).gauge = d.gauge := rfl
@[simp] theorem spend_knots (n : Nat) (d : Device) : (spend n d).knots = d.knots := rfl
@[simp] theorem spend_link (n : Nat) (d : Device) : (spend n d).link = d.link := rfl
@[simp] theorem spend_flash (n : Nat) (d : Device) : (spend n d).flash = d.flash := rfl
@[simp] theorem spend_dram (n : Nat) (d : Device) : (spend n d).dram = d.dram := rfl
@[simp] theorem spend_pwr (n : Nat) (d : Device) : (spend n d).pwr = d.pwr := rfl
@[simp] theorem spend_audit (n : Nat) (d : Device) : (spend n d).audit = d.audit := rfl
@[simp] theorem spend_boot (n : Nat) (d : Device) : (spend n d).boot = d.boot := rfl
@[simp] theorem spend_panel (n : Nat) (d : Device) : (spend n d).panel = d.panel := rfl
@[simp] theorem spend_tiles (n : Nat) (d : Device) : (spend n d).tiles = d.tiles := rfl
@[simp] theorem spend_fab (n : Nat) (d : Device) : (spend n d).fab = d.fab := rfl
@[simp] theorem spend_clock (n : Nat) (d : Device) : (spend n d).clock = d.clock := rfl
@[simp] theorem onTile_host (t : Nat) (f : TileState → TileState) (d : Device) : (onTile t f d).host = d.host := rfl
@[simp] theorem onTile_cmd (t : Nat) (f : TileState → TileState) (d : Device) : (onTile t f d).cmd = d.cmd := rfl
@[simp] theorem onTile_sec (t : Nat) (f : TileState → TileState) (d : Device) : (onTile t f d).sec = d.sec := rfl
@[simp] theorem onTile_mem (t : Nat) (f : TileState → TileState) (d : Device) : (onTile t f d).mem = d.mem := rfl
@[simp] theorem onTile_serve (t : Nat) (f : TileState → TileState) (d : Device) : (onTile t f d).serve = d.serve := rfl
@[simp] theorem onTile_fix (t : Nat) (f : TileState → TileState) (d : Device) : (onTile t f d).fix = d.fix := rfl
@[simp] theorem onTile_gauge (t : Nat) (f : TileState → TileState) (d : Device) : (onTile t f d).gauge = d.gauge := rfl
@[simp] theorem onTile_knots (t : Nat) (f : TileState → TileState) (d : Device) : (onTile t f d).knots = d.knots := rfl
@[simp] theorem onTile_link (t : Nat) (f : TileState → TileState) (d : Device) : (onTile t f d).link = d.link := rfl
@[simp] theorem onTile_flash (t : Nat) (f : TileState → TileState) (d : Device) : (onTile t f d).flash = d.flash := rfl
@[simp] theorem onTile_dram (t : Nat) (f : TileState → TileState) (d : Device) : (onTile t f d).dram = d.dram := rfl
@[simp] theorem onTile_pwr (t : Nat) (f : TileState → TileState) (d : Device) : (onTile t f d).pwr = d.pwr := rfl
@[simp] theorem onTile_audit (t : Nat) (f : TileState → TileState) (d : Device) : (onTile t f d).audit = d.audit := rfl
@[simp] theorem onTile_boot (t : Nat) (f : TileState → TileState) (d : Device) : (onTile t f d).boot = d.boot := rfl
@[simp] theorem onTile_panel (t : Nat) (f : TileState → TileState) (d : Device) : (onTile t f d).panel = d.panel := rfl
@[simp] theorem onTile_fab (t : Nat) (f : TileState → TileState) (d : Device) : (onTile t f d).fab = d.fab := rfl
@[simp] theorem onTile_clock (t : Nat) (f : TileState → TileState) (d : Device) : (onTile t f d).clock = d.clock := rfl
@[simp] theorem onTile_freeCtr (t : Nat) (f : TileState → TileState) (d : Device) : (onTile t f d).freeCtr = d.freeCtr := rfl
@[simp] theorem onGroup_host (g : Nat) (f : PowerGroup → PowerGroup) (d : Device) : (onGroup g f d).host = d.host := rfl
@[simp] theorem onGroup_cmd (g : Nat) (f : PowerGroup → PowerGroup) (d : Device) : (onGroup g f d).cmd = d.cmd := rfl
@[simp] theorem onGroup_sec (g : Nat) (f : PowerGroup → PowerGroup) (d : Device) : (onGroup g f d).sec = d.sec := rfl
@[simp] theorem onGroup_mem (g : Nat) (f : PowerGroup → PowerGroup) (d : Device) : (onGroup g f d).mem = d.mem := rfl
@[simp] theorem onGroup_serve (g : Nat) (f : PowerGroup → PowerGroup) (d : Device) : (onGroup g f d).serve = d.serve := rfl
@[simp] theorem onGroup_fix (g : Nat) (f : PowerGroup → PowerGroup) (d : Device) : (onGroup g f d).fix = d.fix := rfl
@[simp] theorem onGroup_gauge (g : Nat) (f : PowerGroup → PowerGroup) (d : Device) : (onGroup g f d).gauge = d.gauge := rfl
@[simp] theorem onGroup_knots (g : Nat) (f : PowerGroup → PowerGroup) (d : Device) : (onGroup g f d).knots = d.knots := rfl
@[simp] theorem onGroup_link (g : Nat) (f : PowerGroup → PowerGroup) (d : Device) : (onGroup g f d).link = d.link := rfl
@[simp] theorem onGroup_flash (g : Nat) (f : PowerGroup → PowerGroup) (d : Device) : (onGroup g f d).flash = d.flash := rfl
@[simp] theorem onGroup_dram (g : Nat) (f : PowerGroup → PowerGroup) (d : Device) : (onGroup g f d).dram = d.dram := rfl
@[simp] theorem onGroup_audit (g : Nat) (f : PowerGroup → PowerGroup) (d : Device) : (onGroup g f d).audit = d.audit := rfl
@[simp] theorem onGroup_boot (g : Nat) (f : PowerGroup → PowerGroup) (d : Device) : (onGroup g f d).boot = d.boot := rfl
@[simp] theorem onGroup_panel (g : Nat) (f : PowerGroup → PowerGroup) (d : Device) : (onGroup g f d).panel = d.panel := rfl
@[simp] theorem onGroup_tiles (g : Nat) (f : PowerGroup → PowerGroup) (d : Device) : (onGroup g f d).tiles = d.tiles := rfl
@[simp] theorem onGroup_fab (g : Nat) (f : PowerGroup → PowerGroup) (d : Device) : (onGroup g f d).fab = d.fab := rfl
@[simp] theorem onGroup_clock (g : Nat) (f : PowerGroup → PowerGroup) (d : Device) : (onGroup g f d).clock = d.clock := rfl
@[simp] theorem onGroup_freeCtr (g : Nat) (f : PowerGroup → PowerGroup) (d : Device) : (onGroup g f d).freeCtr = d.freeCtr := rfl
@[simp] theorem accrueReasons_host (n : Nat) (d : Device) : (accrueReasons n d).host = d.host := rfl
@[simp] theorem accrueReasons_cmd (n : Nat) (d : Device) : (accrueReasons n d).cmd = d.cmd := rfl
@[simp] theorem accrueReasons_sec (n : Nat) (d : Device) : (accrueReasons n d).sec = d.sec := rfl
@[simp] theorem accrueReasons_mem (n : Nat) (d : Device) : (accrueReasons n d).mem = d.mem := rfl
@[simp] theorem accrueReasons_serve (n : Nat) (d : Device) : (accrueReasons n d).serve = d.serve := rfl
@[simp] theorem accrueReasons_fix (n : Nat) (d : Device) : (accrueReasons n d).fix = d.fix := rfl
@[simp] theorem accrueReasons_gauge (n : Nat) (d : Device) : (accrueReasons n d).gauge = d.gauge := rfl
@[simp] theorem accrueReasons_knots (n : Nat) (d : Device) : (accrueReasons n d).knots = d.knots := rfl
@[simp] theorem accrueReasons_link (n : Nat) (d : Device) : (accrueReasons n d).link = d.link := rfl
@[simp] theorem accrueReasons_flash (n : Nat) (d : Device) : (accrueReasons n d).flash = d.flash := rfl
@[simp] theorem accrueReasons_dram (n : Nat) (d : Device) : (accrueReasons n d).dram = d.dram := rfl
@[simp] theorem accrueReasons_audit (n : Nat) (d : Device) : (accrueReasons n d).audit = d.audit := rfl
@[simp] theorem accrueReasons_boot (n : Nat) (d : Device) : (accrueReasons n d).boot = d.boot := rfl
@[simp] theorem accrueReasons_panel (n : Nat) (d : Device) : (accrueReasons n d).panel = d.panel := rfl
@[simp] theorem accrueReasons_tiles (n : Nat) (d : Device) : (accrueReasons n d).tiles = d.tiles := rfl
@[simp] theorem accrueReasons_fab (n : Nat) (d : Device) : (accrueReasons n d).fab = d.fab := rfl
@[simp] theorem accrueReasons_clock (n : Nat) (d : Device) : (accrueReasons n d).clock = d.clock := rfl
@[simp] theorem accrueReasons_freeCtr (n : Nat) (d : Device) : (accrueReasons n d).freeCtr = d.freeCtr := rfl
@[simp] theorem dropPacket_host (p : Packet) (d : Device) : (dropPacket p d).host = d.host := rfl
@[simp] theorem dropPacket_sec (p : Packet) (d : Device) : (dropPacket p d).sec = d.sec := rfl
@[simp] theorem dropPacket_mem (p : Packet) (d : Device) : (dropPacket p d).mem = d.mem := rfl
@[simp] theorem dropPacket_serve (p : Packet) (d : Device) : (dropPacket p d).serve = d.serve := rfl
@[simp] theorem dropPacket_fix (p : Packet) (d : Device) : (dropPacket p d).fix = d.fix := rfl
@[simp] theorem dropPacket_gauge (p : Packet) (d : Device) : (dropPacket p d).gauge = d.gauge := rfl
@[simp] theorem dropPacket_knots (p : Packet) (d : Device) : (dropPacket p d).knots = d.knots := rfl
@[simp] theorem dropPacket_link (p : Packet) (d : Device) : (dropPacket p d).link = d.link := rfl
@[simp] theorem dropPacket_flash (p : Packet) (d : Device) : (dropPacket p d).flash = d.flash := rfl
@[simp] theorem dropPacket_dram (p : Packet) (d : Device) : (dropPacket p d).dram = d.dram := rfl
@[simp] theorem dropPacket_pwr (p : Packet) (d : Device) : (dropPacket p d).pwr = d.pwr := rfl
@[simp] theorem dropPacket_audit (p : Packet) (d : Device) : (dropPacket p d).audit = d.audit := rfl
@[simp] theorem dropPacket_boot (p : Packet) (d : Device) : (dropPacket p d).boot = d.boot := rfl
@[simp] theorem dropPacket_panel (p : Packet) (d : Device) : (dropPacket p d).panel = d.panel := rfl
@[simp] theorem dropPacket_tiles (p : Packet) (d : Device) : (dropPacket p d).tiles = d.tiles := rfl
@[simp] theorem dropPacket_fab (p : Packet) (d : Device) : (dropPacket p d).fab = d.fab := rfl
@[simp] theorem dropPacket_clock (p : Packet) (d : Device) : (dropPacket p d).clock = d.clock := rfl
@[simp] theorem dropPacket_freeCtr (p : Packet) (d : Device) : (dropPacket p d).freeCtr = d.freeCtr := rfl
@[simp] theorem startPacket_host (p : Packet) (b : List Byte) (d : Device) : (startPacket p b d).host = d.host := rfl
@[simp] theorem startPacket_sec (p : Packet) (b : List Byte) (d : Device) : (startPacket p b d).sec = d.sec := rfl
@[simp] theorem startPacket_mem (p : Packet) (b : List Byte) (d : Device) : (startPacket p b d).mem = d.mem := rfl
@[simp] theorem startPacket_serve (p : Packet) (b : List Byte) (d : Device) : (startPacket p b d).serve = d.serve := rfl
@[simp] theorem startPacket_fix (p : Packet) (b : List Byte) (d : Device) : (startPacket p b d).fix = d.fix := rfl
@[simp] theorem startPacket_gauge (p : Packet) (b : List Byte) (d : Device) : (startPacket p b d).gauge = d.gauge := rfl
@[simp] theorem startPacket_knots (p : Packet) (b : List Byte) (d : Device) : (startPacket p b d).knots = d.knots := rfl
@[simp] theorem startPacket_link (p : Packet) (b : List Byte) (d : Device) : (startPacket p b d).link = d.link := rfl
@[simp] theorem startPacket_flash (p : Packet) (b : List Byte) (d : Device) : (startPacket p b d).flash = d.flash := rfl
@[simp] theorem startPacket_dram (p : Packet) (b : List Byte) (d : Device) : (startPacket p b d).dram = d.dram := rfl
@[simp] theorem startPacket_pwr (p : Packet) (b : List Byte) (d : Device) : (startPacket p b d).pwr = d.pwr := rfl
@[simp] theorem startPacket_audit (p : Packet) (b : List Byte) (d : Device) : (startPacket p b d).audit = d.audit := rfl
@[simp] theorem startPacket_boot (p : Packet) (b : List Byte) (d : Device) : (startPacket p b d).boot = d.boot := rfl
@[simp] theorem startPacket_panel (p : Packet) (b : List Byte) (d : Device) : (startPacket p b d).panel = d.panel := rfl
@[simp] theorem startPacket_tiles (p : Packet) (b : List Byte) (d : Device) : (startPacket p b d).tiles = d.tiles := rfl
@[simp] theorem startPacket_fab (p : Packet) (b : List Byte) (d : Device) : (startPacket p b d).fab = d.fab := rfl
@[simp] theorem startPacket_clock (p : Packet) (b : List Byte) (d : Device) : (startPacket p b d).clock = d.clock := rfl
@[simp] theorem startPacket_freeCtr (p : Packet) (b : List Byte) (d : Device) : (startPacket p b d).freeCtr = d.freeCtr := rfl
@[simp] theorem hold_host (p : Packet) (d : Device) : (hold p d).host = d.host := rfl
@[simp] theorem hold_sec (p : Packet) (d : Device) : (hold p d).sec = d.sec := rfl
@[simp] theorem hold_mem (p : Packet) (d : Device) : (hold p d).mem = d.mem := rfl
@[simp] theorem hold_serve (p : Packet) (d : Device) : (hold p d).serve = d.serve := rfl
@[simp] theorem hold_fix (p : Packet) (d : Device) : (hold p d).fix = d.fix := rfl
@[simp] theorem hold_gauge (p : Packet) (d : Device) : (hold p d).gauge = d.gauge := rfl
@[simp] theorem hold_knots (p : Packet) (d : Device) : (hold p d).knots = d.knots := rfl
@[simp] theorem hold_link (p : Packet) (d : Device) : (hold p d).link = d.link := rfl
@[simp] theorem hold_flash (p : Packet) (d : Device) : (hold p d).flash = d.flash := rfl
@[simp] theorem hold_dram (p : Packet) (d : Device) : (hold p d).dram = d.dram := rfl
@[simp] theorem hold_pwr (p : Packet) (d : Device) : (hold p d).pwr = d.pwr := rfl
@[simp] theorem hold_audit (p : Packet) (d : Device) : (hold p d).audit = d.audit := rfl
@[simp] theorem hold_boot (p : Packet) (d : Device) : (hold p d).boot = d.boot := rfl
@[simp] theorem hold_panel (p : Packet) (d : Device) : (hold p d).panel = d.panel := rfl
@[simp] theorem hold_tiles (p : Packet) (d : Device) : (hold p d).tiles = d.tiles := rfl
@[simp] theorem hold_fab (p : Packet) (d : Device) : (hold p d).fab = d.fab := rfl
@[simp] theorem hold_clock (p : Packet) (d : Device) : (hold p d).clock = d.clock := rfl
@[simp] theorem hold_freeCtr (p : Packet) (d : Device) : (hold p d).freeCtr = d.freeCtr := rfl
@[simp] theorem knotPut_host (k : Nat) (v : W32) (d : Device) : (knotPut k v d).host = d.host := rfl
@[simp] theorem knotPut_cmd (k : Nat) (v : W32) (d : Device) : (knotPut k v d).cmd = d.cmd := rfl
@[simp] theorem knotPut_sec (k : Nat) (v : W32) (d : Device) : (knotPut k v d).sec = d.sec := rfl
@[simp] theorem knotPut_mem (k : Nat) (v : W32) (d : Device) : (knotPut k v d).mem = d.mem := rfl
@[simp] theorem knotPut_serve (k : Nat) (v : W32) (d : Device) : (knotPut k v d).serve = d.serve := rfl
@[simp] theorem knotPut_fix (k : Nat) (v : W32) (d : Device) : (knotPut k v d).fix = d.fix := rfl
@[simp] theorem knotPut_gauge (k : Nat) (v : W32) (d : Device) : (knotPut k v d).gauge = d.gauge := rfl
@[simp] theorem knotPut_link (k : Nat) (v : W32) (d : Device) : (knotPut k v d).link = d.link := rfl
@[simp] theorem knotPut_flash (k : Nat) (v : W32) (d : Device) : (knotPut k v d).flash = d.flash := rfl
@[simp] theorem knotPut_dram (k : Nat) (v : W32) (d : Device) : (knotPut k v d).dram = d.dram := rfl
@[simp] theorem knotPut_pwr (k : Nat) (v : W32) (d : Device) : (knotPut k v d).pwr = d.pwr := rfl
@[simp] theorem knotPut_audit (k : Nat) (v : W32) (d : Device) : (knotPut k v d).audit = d.audit := rfl
@[simp] theorem knotPut_boot (k : Nat) (v : W32) (d : Device) : (knotPut k v d).boot = d.boot := rfl
@[simp] theorem knotPut_panel (k : Nat) (v : W32) (d : Device) : (knotPut k v d).panel = d.panel := rfl
@[simp] theorem knotPut_tiles (k : Nat) (v : W32) (d : Device) : (knotPut k v d).tiles = d.tiles := rfl
@[simp] theorem knotPut_fab (k : Nat) (v : W32) (d : Device) : (knotPut k v d).fab = d.fab := rfl
@[simp] theorem knotPut_clock (k : Nat) (v : W32) (d : Device) : (knotPut k v d).clock = d.clock := rfl
@[simp] theorem knotPut_freeCtr (k : Nat) (v : W32) (d : Device) : (knotPut k v d).freeCtr = d.freeCtr := rfl

/-! ### Time -/

@[simp] theorem advance_host (n : Nat) (d : Device) : (advance n d).host = d.host := by unfold advance; dsimp only; (repeat' split) <;> rfl
@[simp] theorem advance_cmd (n : Nat) (d : Device) : (advance n d).cmd = d.cmd := by unfold advance; dsimp only; (repeat' split) <;> rfl
@[simp] theorem advance_sec (n : Nat) (d : Device) : (advance n d).sec = d.sec := by unfold advance; dsimp only; (repeat' split) <;> rfl
@[simp] theorem advance_mem (n : Nat) (d : Device) : (advance n d).mem = d.mem := by unfold advance; dsimp only; (repeat' split) <;> rfl
@[simp] theorem advance_serve (n : Nat) (d : Device) : (advance n d).serve = d.serve := by unfold advance; dsimp only; (repeat' split) <;> rfl
@[simp] theorem advance_fix (n : Nat) (d : Device) : (advance n d).fix = d.fix := by unfold advance; dsimp only; (repeat' split) <;> rfl
@[simp] theorem advance_knots (n : Nat) (d : Device) : (advance n d).knots = d.knots := by unfold advance; dsimp only; (repeat' split) <;> rfl
@[simp] theorem advance_link (n : Nat) (d : Device) : (advance n d).link = d.link := by unfold advance; dsimp only; (repeat' split) <;> rfl
@[simp] theorem advance_flash (n : Nat) (d : Device) : (advance n d).flash = d.flash := by unfold advance; dsimp only; (repeat' split) <;> rfl
@[simp] theorem advance_dram (n : Nat) (d : Device) : (advance n d).dram = d.dram := by unfold advance; dsimp only; (repeat' split) <;> rfl
@[simp] theorem advance_audit (n : Nat) (d : Device) : (advance n d).audit = d.audit := by unfold advance; dsimp only; (repeat' split) <;> rfl
@[simp] theorem advance_boot (n : Nat) (d : Device) : (advance n d).boot = d.boot := by unfold advance; dsimp only; (repeat' split) <;> rfl
@[simp] theorem advance_panel (n : Nat) (d : Device) : (advance n d).panel = d.panel := by unfold advance; dsimp only; (repeat' split) <;> rfl
@[simp] theorem advance_tiles (n : Nat) (d : Device) : (advance n d).tiles = d.tiles := by unfold advance; dsimp only; (repeat' split) <;> rfl
@[simp] theorem advance_fab (n : Nat) (d : Device) : (advance n d).fab = d.fab := by unfold advance; dsimp only; (repeat' split) <;> rfl
@[simp] theorem advance_freeCtr (n : Nat) (d : Device) : (advance n d).freeCtr = d.freeCtr := by unfold advance; dsimp only; (repeat' split) <;> rfl
@[simp] theorem advanceTo_host (n : Nat) (d : Device) : (advanceTo n d).host = d.host := advance_host _ d
@[simp] theorem advanceTo_cmd (n : Nat) (d : Device) : (advanceTo n d).cmd = d.cmd := advance_cmd _ d
@[simp] theorem advanceTo_sec (n : Nat) (d : Device) : (advanceTo n d).sec = d.sec := advance_sec _ d
@[simp] theorem advanceTo_mem (n : Nat) (d : Device) : (advanceTo n d).mem = d.mem := advance_mem _ d
@[simp] theorem advanceTo_serve (n : Nat) (d : Device) : (advanceTo n d).serve = d.serve := advance_serve _ d
@[simp] theorem advanceTo_fix (n : Nat) (d : Device) : (advanceTo n d).fix = d.fix := advance_fix _ d
@[simp] theorem advanceTo_knots (n : Nat) (d : Device) : (advanceTo n d).knots = d.knots := advance_knots _ d
@[simp] theorem advanceTo_link (n : Nat) (d : Device) : (advanceTo n d).link = d.link := advance_link _ d
@[simp] theorem advanceTo_flash (n : Nat) (d : Device) : (advanceTo n d).flash = d.flash := advance_flash _ d
@[simp] theorem advanceTo_dram (n : Nat) (d : Device) : (advanceTo n d).dram = d.dram := advance_dram _ d
@[simp] theorem advanceTo_audit (n : Nat) (d : Device) : (advanceTo n d).audit = d.audit := advance_audit _ d
@[simp] theorem advanceTo_boot (n : Nat) (d : Device) : (advanceTo n d).boot = d.boot := advance_boot _ d
@[simp] theorem advanceTo_panel (n : Nat) (d : Device) : (advanceTo n d).panel = d.panel := advance_panel _ d
@[simp] theorem advanceTo_tiles (n : Nat) (d : Device) : (advanceTo n d).tiles = d.tiles := advance_tiles _ d
@[simp] theorem advanceTo_fab (n : Nat) (d : Device) : (advanceTo n d).fab = d.fab := advance_fab _ d
@[simp] theorem advanceTo_freeCtr (n : Nat) (d : Device) : (advanceTo n d).freeCtr = d.freeCtr := advance_freeCtr _ d

/-! ### The ledger -/

@[simp] theorem ledgerCommit_host (b : LedgerBody) (d : Device) : (ledgerCommit b d).host = d.host := by unfold ledgerCommit; split <;> rfl
@[simp] theorem ledgerCommit_cmd (b : LedgerBody) (d : Device) : (ledgerCommit b d).cmd = d.cmd := by unfold ledgerCommit; split <;> rfl
@[simp] theorem ledgerCommit_mem (b : LedgerBody) (d : Device) : (ledgerCommit b d).mem = d.mem := by unfold ledgerCommit; split <;> rfl
@[simp] theorem ledgerCommit_serve (b : LedgerBody) (d : Device) : (ledgerCommit b d).serve = d.serve := by unfold ledgerCommit; split <;> rfl
@[simp] theorem ledgerCommit_fix (b : LedgerBody) (d : Device) : (ledgerCommit b d).fix = d.fix := by unfold ledgerCommit; split <;> rfl
@[simp] theorem ledgerCommit_gauge (b : LedgerBody) (d : Device) : (ledgerCommit b d).gauge = d.gauge := by unfold ledgerCommit; split <;> rfl
@[simp] theorem ledgerCommit_knots (b : LedgerBody) (d : Device) : (ledgerCommit b d).knots = d.knots := by unfold ledgerCommit; split <;> rfl
@[simp] theorem ledgerCommit_link (b : LedgerBody) (d : Device) : (ledgerCommit b d).link = d.link := by unfold ledgerCommit; split <;> rfl
@[simp] theorem ledgerCommit_flash (b : LedgerBody) (d : Device) : (ledgerCommit b d).flash = d.flash := by unfold ledgerCommit; split <;> rfl
@[simp] theorem ledgerCommit_dram (b : LedgerBody) (d : Device) : (ledgerCommit b d).dram = d.dram := by unfold ledgerCommit; split <;> rfl
@[simp] theorem ledgerCommit_pwr (b : LedgerBody) (d : Device) : (ledgerCommit b d).pwr = d.pwr := by unfold ledgerCommit; split <;> rfl
@[simp] theorem ledgerCommit_audit (b : LedgerBody) (d : Device) : (ledgerCommit b d).audit = d.audit := by unfold ledgerCommit; split <;> rfl
@[simp] theorem ledgerCommit_boot (b : LedgerBody) (d : Device) : (ledgerCommit b d).boot = d.boot := by unfold ledgerCommit; split <;> rfl
@[simp] theorem ledgerCommit_panel (b : LedgerBody) (d : Device) : (ledgerCommit b d).panel = d.panel := by unfold ledgerCommit; split <;> rfl
@[simp] theorem ledgerCommit_tiles (b : LedgerBody) (d : Device) : (ledgerCommit b d).tiles = d.tiles := by unfold ledgerCommit; split <;> rfl
@[simp] theorem ledgerCommit_fab (b : LedgerBody) (d : Device) : (ledgerCommit b d).fab = d.fab := by unfold ledgerCommit; split <;> rfl
@[simp] theorem ledgerCommit_clock (b : LedgerBody) (d : Device) : (ledgerCommit b d).clock = d.clock := by unfold ledgerCommit; split <;> rfl
@[simp] theorem ledgerCommit_freeCtr (b : LedgerBody) (d : Device) : (ledgerCommit b d).freeCtr = d.freeCtr := by unfold ledgerCommit; split <;> rfl
@[simp] theorem ledgerWrite_host (b : LedgerBody) (d : Device) : (ledgerWrite b d).host = d.host := by unfold ledgerWrite; split; exact ledgerCommit_host b d; split <;> rfl
@[simp] theorem ledgerWrite_cmd (b : LedgerBody) (d : Device) : (ledgerWrite b d).cmd = d.cmd := by unfold ledgerWrite; split; exact ledgerCommit_cmd b d; split <;> rfl
@[simp] theorem ledgerWrite_mem (b : LedgerBody) (d : Device) : (ledgerWrite b d).mem = d.mem := by unfold ledgerWrite; split; exact ledgerCommit_mem b d; split <;> rfl
@[simp] theorem ledgerWrite_serve (b : LedgerBody) (d : Device) : (ledgerWrite b d).serve = d.serve := by unfold ledgerWrite; split; exact ledgerCommit_serve b d; split <;> rfl
@[simp] theorem ledgerWrite_fix (b : LedgerBody) (d : Device) : (ledgerWrite b d).fix = d.fix := by unfold ledgerWrite; split; exact ledgerCommit_fix b d; split <;> rfl
@[simp] theorem ledgerWrite_gauge (b : LedgerBody) (d : Device) : (ledgerWrite b d).gauge = d.gauge := by unfold ledgerWrite; split; exact ledgerCommit_gauge b d; split <;> rfl
@[simp] theorem ledgerWrite_knots (b : LedgerBody) (d : Device) : (ledgerWrite b d).knots = d.knots := by unfold ledgerWrite; split; exact ledgerCommit_knots b d; split <;> rfl
@[simp] theorem ledgerWrite_link (b : LedgerBody) (d : Device) : (ledgerWrite b d).link = d.link := by unfold ledgerWrite; split; exact ledgerCommit_link b d; split <;> rfl
@[simp] theorem ledgerWrite_flash (b : LedgerBody) (d : Device) : (ledgerWrite b d).flash = d.flash := by unfold ledgerWrite; split; exact ledgerCommit_flash b d; split <;> rfl
@[simp] theorem ledgerWrite_dram (b : LedgerBody) (d : Device) : (ledgerWrite b d).dram = d.dram := by unfold ledgerWrite; split; exact ledgerCommit_dram b d; split <;> rfl
@[simp] theorem ledgerWrite_pwr (b : LedgerBody) (d : Device) : (ledgerWrite b d).pwr = d.pwr := by unfold ledgerWrite; split; exact ledgerCommit_pwr b d; split <;> rfl
@[simp] theorem ledgerWrite_audit (b : LedgerBody) (d : Device) : (ledgerWrite b d).audit = d.audit := by unfold ledgerWrite; split; exact ledgerCommit_audit b d; split <;> rfl
@[simp] theorem ledgerWrite_boot (b : LedgerBody) (d : Device) : (ledgerWrite b d).boot = d.boot := by unfold ledgerWrite; split; exact ledgerCommit_boot b d; split <;> rfl
@[simp] theorem ledgerWrite_panel (b : LedgerBody) (d : Device) : (ledgerWrite b d).panel = d.panel := by unfold ledgerWrite; split; exact ledgerCommit_panel b d; split <;> rfl
@[simp] theorem ledgerWrite_tiles (b : LedgerBody) (d : Device) : (ledgerWrite b d).tiles = d.tiles := by unfold ledgerWrite; split; exact ledgerCommit_tiles b d; split <;> rfl
@[simp] theorem ledgerWrite_fab (b : LedgerBody) (d : Device) : (ledgerWrite b d).fab = d.fab := by unfold ledgerWrite; split; exact ledgerCommit_fab b d; split <;> rfl
@[simp] theorem ledgerWrite_clock (b : LedgerBody) (d : Device) : (ledgerWrite b d).clock = d.clock := by unfold ledgerWrite; split; exact ledgerCommit_clock b d; split <;> rfl
@[simp] theorem ledgerWrite_freeCtr (b : LedgerBody) (d : Device) : (ledgerWrite b d).freeCtr = d.freeCtr := by unfold ledgerWrite; split; exact ledgerCommit_freeCtr b d; split <;> rfl
@[simp] theorem ledgerAct_host (p : Packet) (k : W16) (x : List Byte) (t : Byte) (st : W16) (d : Device) : (ledgerAct p k x t st d).host = d.host := ledgerWrite_host _ d
@[simp] theorem ledgerAct_cmd (p : Packet) (k : W16) (x : List Byte) (t : Byte) (st : W16) (d : Device) : (ledgerAct p k x t st d).cmd = d.cmd := ledgerWrite_cmd _ d
@[simp] theorem ledgerAct_mem (p : Packet) (k : W16) (x : List Byte) (t : Byte) (st : W16) (d : Device) : (ledgerAct p k x t st d).mem = d.mem := ledgerWrite_mem _ d
@[simp] theorem ledgerAct_serve (p : Packet) (k : W16) (x : List Byte) (t : Byte) (st : W16) (d : Device) : (ledgerAct p k x t st d).serve = d.serve := ledgerWrite_serve _ d
@[simp] theorem ledgerAct_fix (p : Packet) (k : W16) (x : List Byte) (t : Byte) (st : W16) (d : Device) : (ledgerAct p k x t st d).fix = d.fix := ledgerWrite_fix _ d
@[simp] theorem ledgerAct_gauge (p : Packet) (k : W16) (x : List Byte) (t : Byte) (st : W16) (d : Device) : (ledgerAct p k x t st d).gauge = d.gauge := ledgerWrite_gauge _ d
@[simp] theorem ledgerAct_knots (p : Packet) (k : W16) (x : List Byte) (t : Byte) (st : W16) (d : Device) : (ledgerAct p k x t st d).knots = d.knots := ledgerWrite_knots _ d
@[simp] theorem ledgerAct_link (p : Packet) (k : W16) (x : List Byte) (t : Byte) (st : W16) (d : Device) : (ledgerAct p k x t st d).link = d.link := ledgerWrite_link _ d
@[simp] theorem ledgerAct_flash (p : Packet) (k : W16) (x : List Byte) (t : Byte) (st : W16) (d : Device) : (ledgerAct p k x t st d).flash = d.flash := ledgerWrite_flash _ d
@[simp] theorem ledgerAct_dram (p : Packet) (k : W16) (x : List Byte) (t : Byte) (st : W16) (d : Device) : (ledgerAct p k x t st d).dram = d.dram := ledgerWrite_dram _ d
@[simp] theorem ledgerAct_pwr (p : Packet) (k : W16) (x : List Byte) (t : Byte) (st : W16) (d : Device) : (ledgerAct p k x t st d).pwr = d.pwr := ledgerWrite_pwr _ d
@[simp] theorem ledgerAct_audit (p : Packet) (k : W16) (x : List Byte) (t : Byte) (st : W16) (d : Device) : (ledgerAct p k x t st d).audit = d.audit := ledgerWrite_audit _ d
@[simp] theorem ledgerAct_boot (p : Packet) (k : W16) (x : List Byte) (t : Byte) (st : W16) (d : Device) : (ledgerAct p k x t st d).boot = d.boot := ledgerWrite_boot _ d
@[simp] theorem ledgerAct_panel (p : Packet) (k : W16) (x : List Byte) (t : Byte) (st : W16) (d : Device) : (ledgerAct p k x t st d).panel = d.panel := ledgerWrite_panel _ d
@[simp] theorem ledgerAct_tiles (p : Packet) (k : W16) (x : List Byte) (t : Byte) (st : W16) (d : Device) : (ledgerAct p k x t st d).tiles = d.tiles := ledgerWrite_tiles _ d
@[simp] theorem ledgerAct_fab (p : Packet) (k : W16) (x : List Byte) (t : Byte) (st : W16) (d : Device) : (ledgerAct p k x t st d).fab = d.fab := ledgerWrite_fab _ d
@[simp] theorem ledgerAct_clock (p : Packet) (k : W16) (x : List Byte) (t : Byte) (st : W16) (d : Device) : (ledgerAct p k x t st d).clock = d.clock := ledgerWrite_clock _ d
@[simp] theorem ledgerAct_freeCtr (p : Packet) (k : W16) (x : List Byte) (t : Byte) (st : W16) (d : Device) : (ledgerAct p k x t st d).freeCtr = d.freeCtr := ledgerWrite_freeCtr _ d
@[simp] theorem ledgerConfig_host (p : Packet) (d : Device) : (ledgerConfig p d).host = d.host := ledgerWrite_host _ d
@[simp] theorem ledgerConfig_cmd (p : Packet) (d : Device) : (ledgerConfig p d).cmd = d.cmd := ledgerWrite_cmd _ d
@[simp] theorem ledgerConfig_mem (p : Packet) (d : Device) : (ledgerConfig p d).mem = d.mem := ledgerWrite_mem _ d
@[simp] theorem ledgerConfig_serve (p : Packet) (d : Device) : (ledgerConfig p d).serve = d.serve := ledgerWrite_serve _ d
@[simp] theorem ledgerConfig_fix (p : Packet) (d : Device) : (ledgerConfig p d).fix = d.fix := ledgerWrite_fix _ d
@[simp] theorem ledgerConfig_gauge (p : Packet) (d : Device) : (ledgerConfig p d).gauge = d.gauge := ledgerWrite_gauge _ d
@[simp] theorem ledgerConfig_knots (p : Packet) (d : Device) : (ledgerConfig p d).knots = d.knots := ledgerWrite_knots _ d
@[simp] theorem ledgerConfig_link (p : Packet) (d : Device) : (ledgerConfig p d).link = d.link := ledgerWrite_link _ d
@[simp] theorem ledgerConfig_flash (p : Packet) (d : Device) : (ledgerConfig p d).flash = d.flash := ledgerWrite_flash _ d
@[simp] theorem ledgerConfig_dram (p : Packet) (d : Device) : (ledgerConfig p d).dram = d.dram := ledgerWrite_dram _ d
@[simp] theorem ledgerConfig_pwr (p : Packet) (d : Device) : (ledgerConfig p d).pwr = d.pwr := ledgerWrite_pwr _ d
@[simp] theorem ledgerConfig_audit (p : Packet) (d : Device) : (ledgerConfig p d).audit = d.audit := ledgerWrite_audit _ d
@[simp] theorem ledgerConfig_boot (p : Packet) (d : Device) : (ledgerConfig p d).boot = d.boot := ledgerWrite_boot _ d
@[simp] theorem ledgerConfig_panel (p : Packet) (d : Device) : (ledgerConfig p d).panel = d.panel := ledgerWrite_panel _ d
@[simp] theorem ledgerConfig_tiles (p : Packet) (d : Device) : (ledgerConfig p d).tiles = d.tiles := ledgerWrite_tiles _ d
@[simp] theorem ledgerConfig_fab (p : Packet) (d : Device) : (ledgerConfig p d).fab = d.fab := ledgerWrite_fab _ d
@[simp] theorem ledgerConfig_clock (p : Packet) (d : Device) : (ledgerConfig p d).clock = d.clock := ledgerWrite_clock _ d
@[simp] theorem ledgerConfig_freeCtr (p : Packet) (d : Device) : (ledgerConfig p d).freeCtr = d.freeCtr := ledgerWrite_freeCtr _ d
@[simp] theorem ledgerRefused_host (p : Packet) (st : W16) (d : Device) : (ledgerRefused p st d).host = d.host := ledgerWrite_host _ d
@[simp] theorem ledgerRefused_cmd (p : Packet) (st : W16) (d : Device) : (ledgerRefused p st d).cmd = d.cmd := ledgerWrite_cmd _ d
@[simp] theorem ledgerRefused_mem (p : Packet) (st : W16) (d : Device) : (ledgerRefused p st d).mem = d.mem := ledgerWrite_mem _ d
@[simp] theorem ledgerRefused_serve (p : Packet) (st : W16) (d : Device) : (ledgerRefused p st d).serve = d.serve := ledgerWrite_serve _ d
@[simp] theorem ledgerRefused_fix (p : Packet) (st : W16) (d : Device) : (ledgerRefused p st d).fix = d.fix := ledgerWrite_fix _ d
@[simp] theorem ledgerRefused_gauge (p : Packet) (st : W16) (d : Device) : (ledgerRefused p st d).gauge = d.gauge := ledgerWrite_gauge _ d
@[simp] theorem ledgerRefused_knots (p : Packet) (st : W16) (d : Device) : (ledgerRefused p st d).knots = d.knots := ledgerWrite_knots _ d
@[simp] theorem ledgerRefused_link (p : Packet) (st : W16) (d : Device) : (ledgerRefused p st d).link = d.link := ledgerWrite_link _ d
@[simp] theorem ledgerRefused_flash (p : Packet) (st : W16) (d : Device) : (ledgerRefused p st d).flash = d.flash := ledgerWrite_flash _ d
@[simp] theorem ledgerRefused_dram (p : Packet) (st : W16) (d : Device) : (ledgerRefused p st d).dram = d.dram := ledgerWrite_dram _ d
@[simp] theorem ledgerRefused_pwr (p : Packet) (st : W16) (d : Device) : (ledgerRefused p st d).pwr = d.pwr := ledgerWrite_pwr _ d
@[simp] theorem ledgerRefused_audit (p : Packet) (st : W16) (d : Device) : (ledgerRefused p st d).audit = d.audit := ledgerWrite_audit _ d
@[simp] theorem ledgerRefused_boot (p : Packet) (st : W16) (d : Device) : (ledgerRefused p st d).boot = d.boot := ledgerWrite_boot _ d
@[simp] theorem ledgerRefused_panel (p : Packet) (st : W16) (d : Device) : (ledgerRefused p st d).panel = d.panel := ledgerWrite_panel _ d
@[simp] theorem ledgerRefused_tiles (p : Packet) (st : W16) (d : Device) : (ledgerRefused p st d).tiles = d.tiles := ledgerWrite_tiles _ d
@[simp] theorem ledgerRefused_fab (p : Packet) (st : W16) (d : Device) : (ledgerRefused p st d).fab = d.fab := ledgerWrite_fab _ d
@[simp] theorem ledgerRefused_clock (p : Packet) (st : W16) (d : Device) : (ledgerRefused p st d).clock = d.clock := ledgerWrite_clock _ d
@[simp] theorem ledgerRefused_freeCtr (p : Packet) (st : W16) (d : Device) : (ledgerRefused p st d).freeCtr = d.freeCtr := ledgerWrite_freeCtr _ d
@[simp] theorem ledgerEvent_host (k : W16) (x : List Byte) (d : Device) (t : Byte) (st : W16) (c : Byte) : (ledgerEvent k x d t st c).host = d.host := ledgerWrite_host _ d
@[simp] theorem ledgerEvent_cmd (k : W16) (x : List Byte) (d : Device) (t : Byte) (st : W16) (c : Byte) : (ledgerEvent k x d t st c).cmd = d.cmd := ledgerWrite_cmd _ d
@[simp] theorem ledgerEvent_mem (k : W16) (x : List Byte) (d : Device) (t : Byte) (st : W16) (c : Byte) : (ledgerEvent k x d t st c).mem = d.mem := ledgerWrite_mem _ d
@[simp] theorem ledgerEvent_serve (k : W16) (x : List Byte) (d : Device) (t : Byte) (st : W16) (c : Byte) : (ledgerEvent k x d t st c).serve = d.serve := ledgerWrite_serve _ d
@[simp] theorem ledgerEvent_fix (k : W16) (x : List Byte) (d : Device) (t : Byte) (st : W16) (c : Byte) : (ledgerEvent k x d t st c).fix = d.fix := ledgerWrite_fix _ d
@[simp] theorem ledgerEvent_gauge (k : W16) (x : List Byte) (d : Device) (t : Byte) (st : W16) (c : Byte) : (ledgerEvent k x d t st c).gauge = d.gauge := ledgerWrite_gauge _ d
@[simp] theorem ledgerEvent_knots (k : W16) (x : List Byte) (d : Device) (t : Byte) (st : W16) (c : Byte) : (ledgerEvent k x d t st c).knots = d.knots := ledgerWrite_knots _ d
@[simp] theorem ledgerEvent_link (k : W16) (x : List Byte) (d : Device) (t : Byte) (st : W16) (c : Byte) : (ledgerEvent k x d t st c).link = d.link := ledgerWrite_link _ d
@[simp] theorem ledgerEvent_flash (k : W16) (x : List Byte) (d : Device) (t : Byte) (st : W16) (c : Byte) : (ledgerEvent k x d t st c).flash = d.flash := ledgerWrite_flash _ d
@[simp] theorem ledgerEvent_dram (k : W16) (x : List Byte) (d : Device) (t : Byte) (st : W16) (c : Byte) : (ledgerEvent k x d t st c).dram = d.dram := ledgerWrite_dram _ d
@[simp] theorem ledgerEvent_pwr (k : W16) (x : List Byte) (d : Device) (t : Byte) (st : W16) (c : Byte) : (ledgerEvent k x d t st c).pwr = d.pwr := ledgerWrite_pwr _ d
@[simp] theorem ledgerEvent_audit (k : W16) (x : List Byte) (d : Device) (t : Byte) (st : W16) (c : Byte) : (ledgerEvent k x d t st c).audit = d.audit := ledgerWrite_audit _ d
@[simp] theorem ledgerEvent_boot (k : W16) (x : List Byte) (d : Device) (t : Byte) (st : W16) (c : Byte) : (ledgerEvent k x d t st c).boot = d.boot := ledgerWrite_boot _ d
@[simp] theorem ledgerEvent_panel (k : W16) (x : List Byte) (d : Device) (t : Byte) (st : W16) (c : Byte) : (ledgerEvent k x d t st c).panel = d.panel := ledgerWrite_panel _ d
@[simp] theorem ledgerEvent_tiles (k : W16) (x : List Byte) (d : Device) (t : Byte) (st : W16) (c : Byte) : (ledgerEvent k x d t st c).tiles = d.tiles := ledgerWrite_tiles _ d
@[simp] theorem ledgerEvent_fab (k : W16) (x : List Byte) (d : Device) (t : Byte) (st : W16) (c : Byte) : (ledgerEvent k x d t st c).fab = d.fab := ledgerWrite_fab _ d
@[simp] theorem ledgerEvent_clock (k : W16) (x : List Byte) (d : Device) (t : Byte) (st : W16) (c : Byte) : (ledgerEvent k x d t st c).clock = d.clock := ledgerWrite_clock _ d
@[simp] theorem ledgerEvent_freeCtr (k : W16) (x : List Byte) (d : Device) (t : Byte) (st : W16) (c : Byte) : (ledgerEvent k x d t st c).freeCtr = d.freeCtr := ledgerWrite_freeCtr _ d

/-! ### Records -/

@[simp] theorem queueRecord_host (r : Record) (d : Device) : (queueRecord r d).host = d.host := by unfold queueRecord; split; rfl; split <;> rfl
@[simp] theorem queueRecord_sec (r : Record) (d : Device) : (queueRecord r d).sec = d.sec := by unfold queueRecord; split; rfl; split <;> rfl
@[simp] theorem queueRecord_mem (r : Record) (d : Device) : (queueRecord r d).mem = d.mem := by unfold queueRecord; split; rfl; split <;> rfl
@[simp] theorem queueRecord_serve (r : Record) (d : Device) : (queueRecord r d).serve = d.serve := by unfold queueRecord; split; rfl; split <;> rfl
@[simp] theorem queueRecord_fix (r : Record) (d : Device) : (queueRecord r d).fix = d.fix := by unfold queueRecord; split; rfl; split <;> rfl
@[simp] theorem queueRecord_gauge (r : Record) (d : Device) : (queueRecord r d).gauge = d.gauge := by unfold queueRecord; split; rfl; split <;> rfl
@[simp] theorem queueRecord_knots (r : Record) (d : Device) : (queueRecord r d).knots = d.knots := by unfold queueRecord; split; rfl; split <;> rfl
@[simp] theorem queueRecord_link (r : Record) (d : Device) : (queueRecord r d).link = d.link := by unfold queueRecord; split; rfl; split <;> rfl
@[simp] theorem queueRecord_flash (r : Record) (d : Device) : (queueRecord r d).flash = d.flash := by unfold queueRecord; split; rfl; split <;> rfl
@[simp] theorem queueRecord_dram (r : Record) (d : Device) : (queueRecord r d).dram = d.dram := by unfold queueRecord; split; rfl; split <;> rfl
@[simp] theorem queueRecord_pwr (r : Record) (d : Device) : (queueRecord r d).pwr = d.pwr := by unfold queueRecord; split; rfl; split <;> rfl
@[simp] theorem queueRecord_audit (r : Record) (d : Device) : (queueRecord r d).audit = d.audit := by unfold queueRecord; split; rfl; split <;> rfl
@[simp] theorem queueRecord_boot (r : Record) (d : Device) : (queueRecord r d).boot = d.boot := by unfold queueRecord; split; rfl; split <;> rfl
@[simp] theorem queueRecord_panel (r : Record) (d : Device) : (queueRecord r d).panel = d.panel := by unfold queueRecord; split; rfl; split <;> rfl
@[simp] theorem queueRecord_tiles (r : Record) (d : Device) : (queueRecord r d).tiles = d.tiles := by unfold queueRecord; split; rfl; split <;> rfl
@[simp] theorem queueRecord_fab (r : Record) (d : Device) : (queueRecord r d).fab = d.fab := by unfold queueRecord; split; rfl; split <;> rfl
@[simp] theorem queueRecord_clock (r : Record) (d : Device) : (queueRecord r d).clock = d.clock := by unfold queueRecord; split; rfl; split <;> rfl
@[simp] theorem queueRecord_freeCtr (r : Record) (d : Device) : (queueRecord r d).freeCtr = d.freeCtr := by unfold queueRecord; split; rfl; split <;> rfl
@[simp] theorem sendReply_host (c : Chan) (r : Record) (d : Device) : (sendReply c r d).host = d.host := by unfold sendReply; split <;> rfl
@[simp] theorem sendReply_sec (c : Chan) (r : Record) (d : Device) : (sendReply c r d).sec = d.sec := by unfold sendReply; split <;> rfl
@[simp] theorem sendReply_mem (c : Chan) (r : Record) (d : Device) : (sendReply c r d).mem = d.mem := by unfold sendReply; split <;> rfl
@[simp] theorem sendReply_serve (c : Chan) (r : Record) (d : Device) : (sendReply c r d).serve = d.serve := by unfold sendReply; split <;> rfl
@[simp] theorem sendReply_fix (c : Chan) (r : Record) (d : Device) : (sendReply c r d).fix = d.fix := by unfold sendReply; split <;> rfl
@[simp] theorem sendReply_gauge (c : Chan) (r : Record) (d : Device) : (sendReply c r d).gauge = d.gauge := by unfold sendReply; split <;> rfl
@[simp] theorem sendReply_knots (c : Chan) (r : Record) (d : Device) : (sendReply c r d).knots = d.knots := by unfold sendReply; split <;> rfl
@[simp] theorem sendReply_link (c : Chan) (r : Record) (d : Device) : (sendReply c r d).link = d.link := by unfold sendReply; split <;> rfl
@[simp] theorem sendReply_flash (c : Chan) (r : Record) (d : Device) : (sendReply c r d).flash = d.flash := by unfold sendReply; split <;> rfl
@[simp] theorem sendReply_dram (c : Chan) (r : Record) (d : Device) : (sendReply c r d).dram = d.dram := by unfold sendReply; split <;> rfl
@[simp] theorem sendReply_pwr (c : Chan) (r : Record) (d : Device) : (sendReply c r d).pwr = d.pwr := by unfold sendReply; split <;> rfl
@[simp] theorem sendReply_audit (c : Chan) (r : Record) (d : Device) : (sendReply c r d).audit = d.audit := by unfold sendReply; split <;> rfl
@[simp] theorem sendReply_boot (c : Chan) (r : Record) (d : Device) : (sendReply c r d).boot = d.boot := by unfold sendReply; split <;> rfl
@[simp] theorem sendReply_panel (c : Chan) (r : Record) (d : Device) : (sendReply c r d).panel = d.panel := by unfold sendReply; split <;> rfl
@[simp] theorem sendReply_tiles (c : Chan) (r : Record) (d : Device) : (sendReply c r d).tiles = d.tiles := by unfold sendReply; split <;> rfl
@[simp] theorem sendReply_fab (c : Chan) (r : Record) (d : Device) : (sendReply c r d).fab = d.fab := by unfold sendReply; split <;> rfl
@[simp] theorem sendReply_clock (c : Chan) (r : Record) (d : Device) : (sendReply c r d).clock = d.clock := by unfold sendReply; split <;> rfl
@[simp] theorem sendReply_freeCtr (c : Chan) (r : Record) (d : Device) : (sendReply c r d).freeCtr = d.freeCtr := by unfold sendReply; split <;> rfl
@[simp] theorem finish_host (p : Packet) (st : W16) (x : List Byte) (d : Device) : (finish p st x d).host = d.host := by unfold finish; dsimp only; split <;> split <;> (try split) <;> simp
@[simp] theorem finish_sec (p : Packet) (st : W16) (x : List Byte) (d : Device) : (finish p st x d).sec = d.sec := by unfold finish; dsimp only; split <;> split <;> (try split) <;> simp
@[simp] theorem finish_mem (p : Packet) (st : W16) (x : List Byte) (d : Device) : (finish p st x d).mem = d.mem := by unfold finish; dsimp only; split <;> split <;> (try split) <;> simp
@[simp] theorem finish_serve (p : Packet) (st : W16) (x : List Byte) (d : Device) : (finish p st x d).serve = d.serve := by unfold finish; dsimp only; split <;> split <;> (try split) <;> simp
@[simp] theorem finish_fix (p : Packet) (st : W16) (x : List Byte) (d : Device) : (finish p st x d).fix = d.fix := by unfold finish; dsimp only; split <;> split <;> (try split) <;> simp
@[simp] theorem finish_gauge (p : Packet) (st : W16) (x : List Byte) (d : Device) : (finish p st x d).gauge = d.gauge := by unfold finish; dsimp only; split <;> split <;> (try split) <;> simp
@[simp] theorem finish_knots (p : Packet) (st : W16) (x : List Byte) (d : Device) : (finish p st x d).knots = d.knots := by unfold finish; dsimp only; split <;> split <;> (try split) <;> simp
@[simp] theorem finish_link (p : Packet) (st : W16) (x : List Byte) (d : Device) : (finish p st x d).link = d.link := by unfold finish; dsimp only; split <;> split <;> (try split) <;> simp
@[simp] theorem finish_flash (p : Packet) (st : W16) (x : List Byte) (d : Device) : (finish p st x d).flash = d.flash := by unfold finish; dsimp only; split <;> split <;> (try split) <;> simp
@[simp] theorem finish_dram (p : Packet) (st : W16) (x : List Byte) (d : Device) : (finish p st x d).dram = d.dram := by unfold finish; dsimp only; split <;> split <;> (try split) <;> simp
@[simp] theorem finish_pwr (p : Packet) (st : W16) (x : List Byte) (d : Device) : (finish p st x d).pwr = d.pwr := by unfold finish; dsimp only; split <;> split <;> (try split) <;> simp
@[simp] theorem finish_audit (p : Packet) (st : W16) (x : List Byte) (d : Device) : (finish p st x d).audit = d.audit := by unfold finish; dsimp only; split <;> split <;> (try split) <;> simp
@[simp] theorem finish_boot (p : Packet) (st : W16) (x : List Byte) (d : Device) : (finish p st x d).boot = d.boot := by unfold finish; dsimp only; split <;> split <;> (try split) <;> simp
@[simp] theorem finish_panel (p : Packet) (st : W16) (x : List Byte) (d : Device) : (finish p st x d).panel = d.panel := by unfold finish; dsimp only; split <;> split <;> (try split) <;> simp
@[simp] theorem finish_tiles (p : Packet) (st : W16) (x : List Byte) (d : Device) : (finish p st x d).tiles = d.tiles := by unfold finish; dsimp only; split <;> split <;> (try split) <;> simp
@[simp] theorem finish_fab (p : Packet) (st : W16) (x : List Byte) (d : Device) : (finish p st x d).fab = d.fab := by unfold finish; dsimp only; split <;> split <;> (try split) <;> simp
@[simp] theorem finish_clock (p : Packet) (st : W16) (x : List Byte) (d : Device) : (finish p st x d).clock = d.clock := by unfold finish; dsimp only; split <;> split <;> (try split) <;> simp
@[simp] theorem finish_freeCtr (p : Packet) (st : W16) (x : List Byte) (d : Device) : (finish p st x d).freeCtr = d.freeCtr := by unfold finish; dsimp only; split <;> split <;> (try split) <;> simp
@[simp] theorem refuse_host (p : Packet) (st : W16) (d : Device) : (refuse p st d).host = d.host := finish_host p st [] d
@[simp] theorem refuse_sec (p : Packet) (st : W16) (d : Device) : (refuse p st d).sec = d.sec := finish_sec p st [] d
@[simp] theorem refuse_mem (p : Packet) (st : W16) (d : Device) : (refuse p st d).mem = d.mem := finish_mem p st [] d
@[simp] theorem refuse_serve (p : Packet) (st : W16) (d : Device) : (refuse p st d).serve = d.serve := finish_serve p st [] d
@[simp] theorem refuse_fix (p : Packet) (st : W16) (d : Device) : (refuse p st d).fix = d.fix := finish_fix p st [] d
@[simp] theorem refuse_gauge (p : Packet) (st : W16) (d : Device) : (refuse p st d).gauge = d.gauge := finish_gauge p st [] d
@[simp] theorem refuse_knots (p : Packet) (st : W16) (d : Device) : (refuse p st d).knots = d.knots := finish_knots p st [] d
@[simp] theorem refuse_link (p : Packet) (st : W16) (d : Device) : (refuse p st d).link = d.link := finish_link p st [] d
@[simp] theorem refuse_flash (p : Packet) (st : W16) (d : Device) : (refuse p st d).flash = d.flash := finish_flash p st [] d
@[simp] theorem refuse_dram (p : Packet) (st : W16) (d : Device) : (refuse p st d).dram = d.dram := finish_dram p st [] d
@[simp] theorem refuse_pwr (p : Packet) (st : W16) (d : Device) : (refuse p st d).pwr = d.pwr := finish_pwr p st [] d
@[simp] theorem refuse_audit (p : Packet) (st : W16) (d : Device) : (refuse p st d).audit = d.audit := finish_audit p st [] d
@[simp] theorem refuse_boot (p : Packet) (st : W16) (d : Device) : (refuse p st d).boot = d.boot := finish_boot p st [] d
@[simp] theorem refuse_panel (p : Packet) (st : W16) (d : Device) : (refuse p st d).panel = d.panel := finish_panel p st [] d
@[simp] theorem refuse_tiles (p : Packet) (st : W16) (d : Device) : (refuse p st d).tiles = d.tiles := finish_tiles p st [] d
@[simp] theorem refuse_fab (p : Packet) (st : W16) (d : Device) : (refuse p st d).fab = d.fab := finish_fab p st [] d
@[simp] theorem refuse_clock (p : Packet) (st : W16) (d : Device) : (refuse p st d).clock = d.clock := finish_clock p st [] d
@[simp] theorem refuse_freeCtr (p : Packet) (st : W16) (d : Device) : (refuse p st d).freeCtr = d.freeCtr := finish_freeCtr p st [] d
@[simp] theorem complete_host (p : Packet) (d : Device) : (complete p d).host = d.host := finish_host p stOK [] d
@[simp] theorem complete_sec (p : Packet) (d : Device) : (complete p d).sec = d.sec := finish_sec p stOK [] d
@[simp] theorem complete_mem (p : Packet) (d : Device) : (complete p d).mem = d.mem := finish_mem p stOK [] d
@[simp] theorem complete_serve (p : Packet) (d : Device) : (complete p d).serve = d.serve := finish_serve p stOK [] d
@[simp] theorem complete_fix (p : Packet) (d : Device) : (complete p d).fix = d.fix := finish_fix p stOK [] d
@[simp] theorem complete_gauge (p : Packet) (d : Device) : (complete p d).gauge = d.gauge := finish_gauge p stOK [] d
@[simp] theorem complete_knots (p : Packet) (d : Device) : (complete p d).knots = d.knots := finish_knots p stOK [] d
@[simp] theorem complete_link (p : Packet) (d : Device) : (complete p d).link = d.link := finish_link p stOK [] d
@[simp] theorem complete_flash (p : Packet) (d : Device) : (complete p d).flash = d.flash := finish_flash p stOK [] d
@[simp] theorem complete_dram (p : Packet) (d : Device) : (complete p d).dram = d.dram := finish_dram p stOK [] d
@[simp] theorem complete_pwr (p : Packet) (d : Device) : (complete p d).pwr = d.pwr := finish_pwr p stOK [] d
@[simp] theorem complete_audit (p : Packet) (d : Device) : (complete p d).audit = d.audit := finish_audit p stOK [] d
@[simp] theorem complete_boot (p : Packet) (d : Device) : (complete p d).boot = d.boot := finish_boot p stOK [] d
@[simp] theorem complete_panel (p : Packet) (d : Device) : (complete p d).panel = d.panel := finish_panel p stOK [] d
@[simp] theorem complete_tiles (p : Packet) (d : Device) : (complete p d).tiles = d.tiles := finish_tiles p stOK [] d
@[simp] theorem complete_fab (p : Packet) (d : Device) : (complete p d).fab = d.fab := finish_fab p stOK [] d
@[simp] theorem complete_clock (p : Packet) (d : Device) : (complete p d).clock = d.clock := finish_clock p stOK [] d
@[simp] theorem complete_freeCtr (p : Packet) (d : Device) : (complete p d).freeCtr = d.freeCtr := finish_freeCtr p stOK [] d

/-! ### Counters of keys -/

@[simp] theorem acceptCounter_host (k : List Byte) (n : Nat) (b : Bool) (d : Device) : (acceptCounter k n b d).host = d.host := by unfold acceptCounter; dsimp only; split <;> rfl
@[simp] theorem acceptCounter_sec (k : List Byte) (n : Nat) (b : Bool) (d : Device) : (acceptCounter k n b d).sec = d.sec := by unfold acceptCounter; dsimp only; split <;> rfl
@[simp] theorem acceptCounter_mem (k : List Byte) (n : Nat) (b : Bool) (d : Device) : (acceptCounter k n b d).mem = d.mem := by unfold acceptCounter; dsimp only; split <;> rfl
@[simp] theorem acceptCounter_serve (k : List Byte) (n : Nat) (b : Bool) (d : Device) : (acceptCounter k n b d).serve = d.serve := by unfold acceptCounter; dsimp only; split <;> rfl
@[simp] theorem acceptCounter_fix (k : List Byte) (n : Nat) (b : Bool) (d : Device) : (acceptCounter k n b d).fix = d.fix := by unfold acceptCounter; dsimp only; split <;> rfl
@[simp] theorem acceptCounter_gauge (k : List Byte) (n : Nat) (b : Bool) (d : Device) : (acceptCounter k n b d).gauge = d.gauge := by unfold acceptCounter; dsimp only; split <;> rfl
@[simp] theorem acceptCounter_knots (k : List Byte) (n : Nat) (b : Bool) (d : Device) : (acceptCounter k n b d).knots = d.knots := by unfold acceptCounter; dsimp only; split <;> rfl
@[simp] theorem acceptCounter_link (k : List Byte) (n : Nat) (b : Bool) (d : Device) : (acceptCounter k n b d).link = d.link := by unfold acceptCounter; dsimp only; split <;> rfl
@[simp] theorem acceptCounter_flash (k : List Byte) (n : Nat) (b : Bool) (d : Device) : (acceptCounter k n b d).flash = d.flash := by unfold acceptCounter; dsimp only; split <;> rfl
@[simp] theorem acceptCounter_dram (k : List Byte) (n : Nat) (b : Bool) (d : Device) : (acceptCounter k n b d).dram = d.dram := by unfold acceptCounter; dsimp only; split <;> rfl
@[simp] theorem acceptCounter_pwr (k : List Byte) (n : Nat) (b : Bool) (d : Device) : (acceptCounter k n b d).pwr = d.pwr := by unfold acceptCounter; dsimp only; split <;> rfl
@[simp] theorem acceptCounter_audit (k : List Byte) (n : Nat) (b : Bool) (d : Device) : (acceptCounter k n b d).audit = d.audit := by unfold acceptCounter; dsimp only; split <;> rfl
@[simp] theorem acceptCounter_boot (k : List Byte) (n : Nat) (b : Bool) (d : Device) : (acceptCounter k n b d).boot = d.boot := by unfold acceptCounter; dsimp only; split <;> rfl
@[simp] theorem acceptCounter_panel (k : List Byte) (n : Nat) (b : Bool) (d : Device) : (acceptCounter k n b d).panel = d.panel := by unfold acceptCounter; dsimp only; split <;> rfl
@[simp] theorem acceptCounter_tiles (k : List Byte) (n : Nat) (b : Bool) (d : Device) : (acceptCounter k n b d).tiles = d.tiles := by unfold acceptCounter; dsimp only; split <;> rfl
@[simp] theorem acceptCounter_fab (k : List Byte) (n : Nat) (b : Bool) (d : Device) : (acceptCounter k n b d).fab = d.fab := by unfold acceptCounter; dsimp only; split <;> rfl
@[simp] theorem acceptCounter_clock (k : List Byte) (n : Nat) (b : Bool) (d : Device) : (acceptCounter k n b d).clock = d.clock := by unfold acceptCounter; dsimp only; split <;> rfl
@[simp] theorem acceptCounter_freeCtr (k : List Byte) (n : Nat) (b : Bool) (d : Device) : (acceptCounter k n b d).freeCtr = d.freeCtr := by unfold acceptCounter; dsimp only; split <;> rfl
@[simp] theorem acceptPacket_host (p : Packet) (c : Option Nat) (d : Device) : (acceptPacket p c d).host = d.host := by unfold acceptPacket; split; rfl; dsimp only; split; split; all_goals simp
@[simp] theorem acceptPacket_mem (p : Packet) (c : Option Nat) (d : Device) : (acceptPacket p c d).mem = d.mem := by unfold acceptPacket; split; rfl; dsimp only; split; split; all_goals simp
@[simp] theorem acceptPacket_serve (p : Packet) (c : Option Nat) (d : Device) : (acceptPacket p c d).serve = d.serve := by unfold acceptPacket; split; rfl; dsimp only; split; split; all_goals simp
@[simp] theorem acceptPacket_fix (p : Packet) (c : Option Nat) (d : Device) : (acceptPacket p c d).fix = d.fix := by unfold acceptPacket; split; rfl; dsimp only; split; split; all_goals simp
@[simp] theorem acceptPacket_gauge (p : Packet) (c : Option Nat) (d : Device) : (acceptPacket p c d).gauge = d.gauge := by unfold acceptPacket; split; rfl; dsimp only; split; split; all_goals simp
@[simp] theorem acceptPacket_knots (p : Packet) (c : Option Nat) (d : Device) : (acceptPacket p c d).knots = d.knots := by unfold acceptPacket; split; rfl; dsimp only; split; split; all_goals simp
@[simp] theorem acceptPacket_link (p : Packet) (c : Option Nat) (d : Device) : (acceptPacket p c d).link = d.link := by unfold acceptPacket; split; rfl; dsimp only; split; split; all_goals simp
@[simp] theorem acceptPacket_flash (p : Packet) (c : Option Nat) (d : Device) : (acceptPacket p c d).flash = d.flash := by unfold acceptPacket; split; rfl; dsimp only; split; split; all_goals simp
@[simp] theorem acceptPacket_dram (p : Packet) (c : Option Nat) (d : Device) : (acceptPacket p c d).dram = d.dram := by unfold acceptPacket; split; rfl; dsimp only; split; split; all_goals simp
@[simp] theorem acceptPacket_pwr (p : Packet) (c : Option Nat) (d : Device) : (acceptPacket p c d).pwr = d.pwr := by unfold acceptPacket; split; rfl; dsimp only; split; split; all_goals simp
@[simp] theorem acceptPacket_audit (p : Packet) (c : Option Nat) (d : Device) : (acceptPacket p c d).audit = d.audit := by unfold acceptPacket; split; rfl; dsimp only; split; split; all_goals simp
@[simp] theorem acceptPacket_boot (p : Packet) (c : Option Nat) (d : Device) : (acceptPacket p c d).boot = d.boot := by unfold acceptPacket; split; rfl; dsimp only; split; split; all_goals simp
@[simp] theorem acceptPacket_panel (p : Packet) (c : Option Nat) (d : Device) : (acceptPacket p c d).panel = d.panel := by unfold acceptPacket; split; rfl; dsimp only; split; split; all_goals simp
@[simp] theorem acceptPacket_tiles (p : Packet) (c : Option Nat) (d : Device) : (acceptPacket p c d).tiles = d.tiles := by unfold acceptPacket; split; rfl; dsimp only; split; split; all_goals simp
@[simp] theorem acceptPacket_fab (p : Packet) (c : Option Nat) (d : Device) : (acceptPacket p c d).fab = d.fab := by unfold acceptPacket; split; rfl; dsimp only; split; split; all_goals simp
@[simp] theorem acceptPacket_clock (p : Packet) (c : Option Nat) (d : Device) : (acceptPacket p c d).clock = d.clock := by unfold acceptPacket; split; rfl; dsimp only; split; split; all_goals simp
@[simp] theorem acceptPacket_freeCtr (p : Packet) (c : Option Nat) (d : Device) : (acceptPacket p c d).freeCtr = d.freeCtr := by unfold acceptPacket; split; rfl; dsimp only; split; split; all_goals simp

/-! ### What follows every command -/

/-- A part of the device that no group record and no flag belongs to is left alone by the record of k. -/
theorem noteRates_frame {α : Type} (g : Device → α) (h1 : ∀ n f d, g (onGroup n f d) = g d)
    (h2 : ∀ x d, g (setEvent evThrottle { d with pwr.shown := x }) = g d) (d : Device) : g (noteRates d) = g d := by
  have h3 : ∀ (l : List Nat) (f : Device → Nat → PowerGroup → PowerGroup) (d : Device),
      g (l.foldl (fun d n => onGroup n (f d n) d) d) = g d := by
    intro l f
    induction l with
    | nil => exact fun d => rfl
    | cons n l ih => exact fun d => (ih _).trans (h1 _ _ _)
  unfold noteRates
  dsimp only
  split
  · exact h3 _ _ d
  · rw [h2]; exact h3 _ _ d

@[simp] theorem noteRates_cmd (d : Device) : (noteRates d).cmd = d.cmd := noteRates_frame (fun d => d.cmd) (fun _ _ _ => rfl) (fun _ _ => rfl) d
@[simp] theorem noteRates_sec (d : Device) : (noteRates d).sec = d.sec := noteRates_frame (fun d => d.sec) (fun _ _ _ => rfl) (fun _ _ => rfl) d
@[simp] theorem noteRates_mem (d : Device) : (noteRates d).mem = d.mem := noteRates_frame (fun d => d.mem) (fun _ _ _ => rfl) (fun _ _ => rfl) d
@[simp] theorem noteRates_serve (d : Device) : (noteRates d).serve = d.serve := noteRates_frame (fun d => d.serve) (fun _ _ _ => rfl) (fun _ _ => rfl) d
@[simp] theorem noteRates_fix (d : Device) : (noteRates d).fix = d.fix := noteRates_frame (fun d => d.fix) (fun _ _ _ => rfl) (fun _ _ => rfl) d
@[simp] theorem noteRates_gauge (d : Device) : (noteRates d).gauge = d.gauge := noteRates_frame (fun d => d.gauge) (fun _ _ _ => rfl) (fun _ _ => rfl) d
@[simp] theorem noteRates_knots (d : Device) : (noteRates d).knots = d.knots := noteRates_frame (fun d => d.knots) (fun _ _ _ => rfl) (fun _ _ => rfl) d
@[simp] theorem noteRates_link (d : Device) : (noteRates d).link = d.link := noteRates_frame (fun d => d.link) (fun _ _ _ => rfl) (fun _ _ => rfl) d
@[simp] theorem noteRates_flash (d : Device) : (noteRates d).flash = d.flash := noteRates_frame (fun d => d.flash) (fun _ _ _ => rfl) (fun _ _ => rfl) d
@[simp] theorem noteRates_dram (d : Device) : (noteRates d).dram = d.dram := noteRates_frame (fun d => d.dram) (fun _ _ _ => rfl) (fun _ _ => rfl) d
@[simp] theorem noteRates_audit (d : Device) : (noteRates d).audit = d.audit := noteRates_frame (fun d => d.audit) (fun _ _ _ => rfl) (fun _ _ => rfl) d
@[simp] theorem noteRates_boot (d : Device) : (noteRates d).boot = d.boot := noteRates_frame (fun d => d.boot) (fun _ _ _ => rfl) (fun _ _ => rfl) d
@[simp] theorem noteRates_panel (d : Device) : (noteRates d).panel = d.panel := noteRates_frame (fun d => d.panel) (fun _ _ _ => rfl) (fun _ _ => rfl) d
@[simp] theorem noteRates_tiles (d : Device) : (noteRates d).tiles = d.tiles := noteRates_frame (fun d => d.tiles) (fun _ _ _ => rfl) (fun _ _ => rfl) d
@[simp] theorem noteRates_fab (d : Device) : (noteRates d).fab = d.fab := noteRates_frame (fun d => d.fab) (fun _ _ _ => rfl) (fun _ _ => rfl) d
@[simp] theorem noteRates_clock (d : Device) : (noteRates d).clock = d.clock := noteRates_frame (fun d => d.clock) (fun _ _ _ => rfl) (fun _ _ => rfl) d
@[simp] theorem noteRates_freeCtr (d : Device) : (noteRates d).freeCtr = d.freeCtr := noteRates_frame (fun d => d.freeCtr) (fun _ _ _ => rfl) (fun _ _ => rfl) d
@[simp] theorem settle_cmd (d : Device) : (settle d).cmd = d.cmd := by unfold settle; dsimp only; split; exact noteRates_cmd d; rfl
@[simp] theorem settle_sec (d : Device) : (settle d).sec = d.sec := by unfold settle; dsimp only; split; exact noteRates_sec d; rfl
@[simp] theorem settle_mem (d : Device) : (settle d).mem = d.mem := by unfold settle; dsimp only; split; exact noteRates_mem d; rfl
@[simp] theorem settle_serve (d : Device) : (settle d).serve = d.serve := by unfold settle; dsimp only; split; exact noteRates_serve d; rfl
@[simp] theorem settle_fix (d : Device) : (settle d).fix = d.fix := by unfold settle; dsimp only; split; exact noteRates_fix d; rfl
@[simp] theorem settle_gauge (d : Device) : (settle d).gauge = d.gauge := by unfold settle; dsimp only; split; exact noteRates_gauge d; rfl
@[simp] theorem settle_knots (d : Device) : (settle d).knots = d.knots := by unfold settle; dsimp only; split; exact noteRates_knots d; rfl
@[simp] theorem settle_link (d : Device) : (settle d).link = d.link := by unfold settle; dsimp only; split; exact noteRates_link d; rfl
@[simp] theorem settle_flash (d : Device) : (settle d).flash = d.flash := by unfold settle; dsimp only; split; exact noteRates_flash d; rfl
@[simp] theorem settle_dram (d : Device) : (settle d).dram = d.dram := by unfold settle; dsimp only; split; exact noteRates_dram d; rfl
@[simp] theorem settle_audit (d : Device) : (settle d).audit = d.audit := by unfold settle; dsimp only; split; exact noteRates_audit d; rfl
@[simp] theorem settle_boot (d : Device) : (settle d).boot = d.boot := by unfold settle; dsimp only; split; exact noteRates_boot d; rfl
@[simp] theorem settle_panel (d : Device) : (settle d).panel = d.panel := by unfold settle; dsimp only; split; exact noteRates_panel d; rfl
@[simp] theorem settle_tiles (d : Device) : (settle d).tiles = d.tiles := by unfold settle; dsimp only; split; exact noteRates_tiles d; rfl
@[simp] theorem settle_fab (d : Device) : (settle d).fab = d.fab := by unfold settle; dsimp only; split; exact noteRates_fab d; rfl
@[simp] theorem settle_clock (d : Device) : (settle d).clock = d.clock := by unfold settle; dsimp only; split; exact noteRates_clock d; rfl
@[simp] theorem settle_freeCtr (d : Device) : (settle d).freeCtr = d.freeCtr := by unfold settle; dsimp only; split; exact noteRates_freeCtr d; rfl

end Sys2Proof.Machine
end

