-- ==== Sys2Proof/Laws/Runs.lean ====
section
/-! SUPPORT. exec calls each command's own meaning, and every meaning is an effect on the device, after which the device settles:
two lemmas per command, and one for exec. -/

namespace Sys2Proof.Machine

/-- A pod message's command is an effect on the device. -/
theorem onMessage_run (kind : Nat) (src : BitVec 12) (fits : List Byte → Bool) (g : Device → Device) :
    ∃ f, ∀ s, onMessage kind src fits g s = run f s := ⟨_, fun _ => rfl⟩

/-- A twin message's command is an effect on the device. -/
theorem onTwin_run (kind : Nat) (alive : Device → Bool) (fits : List Byte → Bool) (g : Device → Device) :
    ∃ f, ∀ s, onTwin kind alive fits g s = run f s := ⟨_, fun _ => rfl⟩

theorem exec_read (addr : W32) (len : Nat) (ckPs : Nat) (s : State) : exec (.read addr len ckPs) s = execRead addr len ckPs s := rfl
theorem exec_write (addr : W32) (data : List Byte) (s : State) : exec (.write addr data) s = execWrite addr data s := rfl
theorem exec_readId (len : Nat) (s : State) : exec (.readId len) s = execReadId len s := rfl
theorem exec_resetEnable (s : State) : exec .resetEnable s = execResetEnable s := rfl
theorem exec_resetPort (s : State) : exec .resetPort s = execResetPort s := rfl
theorem exec_badInstr (c0 c1 : Byte) (s : State) : exec (.badInstr c0 c1) s = execBadInstr c0 c1 s := rfl
theorem exec_packetSubmit (addr : W32) (bytes : List Byte) (s : State) : exec (.packetSubmit addr bytes) s = execPacketSubmit addr bytes s := rfl
theorem exec_badOpcode (r : Ref) (s : State) : exec (.badOpcode r) s = execBadOpcode r s := rfl
theorem exec_registerWrite (addr : W32) (v : W32) (s : State) : exec (.registerWrite addr v) s = execRegisterWrite addr v s := rfl
theorem exec_lowWordRead (addr : W32) (s : State) : exec (.lowWordRead addr) s = execLowWordRead addr s := rfl
theorem exec_devXspiCfgWrite (v : W32) (s : State) : exec (.devXspiCfgWrite v) s = execDevXspiCfgWrite v s := rfl
theorem exec_cmdCqTailWrite (v : W32) (s : State) : exec (.cmdCqTailWrite v) s = execCmdCqTailWrite v s := rfl
theorem exec_cmdResultSelWrite (v : W32) (s : State) : exec (.cmdResultSelWrite v) s = execCmdResultSelWrite v s := rfl
theorem exec_alertHoldoffExpiry (s : State) : exec .alertHoldoffExpiry s = execAlertHoldoffExpiry s := rfl
theorem exec_nop (r : Ref) (s : State) : exec (.nop r) s = execNop r s := rfl
theorem exec_identify (r : Ref) (s : State) : exec (.identify r) s = execIdentify r s := rfl
theorem exec_echo (r : Ref) (s : State) : exec (.echo r) s = execEcho r s := rfl
theorem exec_tagQuery (r : Ref) (s : State) : exec (.tagQuery r) s = execTagQuery r s := rfl
theorem exec_reset (r : Ref) (s : State) : exec (.reset r) s = execReset r s := rfl
theorem exec_resetRecordTimeout (s : State) : exec .resetRecordTimeout s = execResetRecordTimeout s := rfl
theorem exec_matmul (t : Tile) (s : State) : exec (.matmul t) s = execMatmul t s := rfl
theorem exec_conv (t : Tile) (s : State) : exec (.conv t) s = execConv t s := rfl
theorem exec_score (t : Tile) (s : State) : exec (.score t) s = execScore t s := rfl
theorem exec_passListEnd (t : Tile) (s : State) : exec (.passListEnd t) s = execPassListEnd t s := rfl
theorem exec_passComplete (t : Tile) (s : State) : exec (.passComplete t) s = execPassComplete t s := rfl
theorem exec_tileCtrClearWrite (t : Tile) (v : W32) (s : State) : exec (.tileCtrClearWrite t v) s = execTileCtrClearWrite t v s := rfl
theorem exec_arrayDomainIdleOff (t : Tile) (a : BitVec 2) (s : State) : exec (.arrayDomainIdleOff t a) s = execArrayDomainIdleOff t a s := rfl
theorem exec_stitch (t : Tile) (s : State) : exec (.stitch t) s = execStitch t s := rfl
theorem exec_reduce (t : Tile) (s : State) : exec (.reduce t) s = execReduce t s := rfl
theorem exec_load (t : Tile) (s : State) : exec (.load t) s = execLoad t s := rfl
theorem exec_store (t : Tile) (s : State) : exec (.store t) s = execStore t s := rfl
theorem exec_vectorWait (t : Tile) (s : State) : exec (.vectorWait t) s = execVectorWait t s := rfl
theorem exec_vectorEnd (t : Tile) (s : State) : exec (.vectorEnd t) s = execVectorEnd t s := rfl
theorem exec_memAlloc (r : Ref) (s : State) : exec (.memAlloc r) s = execMemAlloc r s := rfl
theorem exec_memFree (r : Ref) (s : State) : exec (.memFree r) s = execMemFree r s := rfl
theorem exec_memMigrate (r : Ref) (s : State) : exec (.memMigrate r) s = execMemMigrate r s := rfl
theorem exec_memOpen (r : Ref) (s : State) : exec (.memOpen r) s = execMemOpen r s := rfl
theorem exec_memClose (r : Ref) (s : State) : exec (.memClose r) s = execMemClose r s := rfl
theorem exec_memSettle (r : Ref) (s : State) : exec (.memSettle r) s = execMemSettle r s := rfl
theorem exec_memCopy (r : Ref) (s : State) : exec (.memCopy r) s = execMemCopy r s := rfl
theorem exec_memFlush (r : Ref) (s : State) : exec (.memFlush r) s = execMemFlush r s := rfl
theorem exec_memQuery (r : Ref) (s : State) : exec (.memQuery r) s = execMemQuery r s := rfl
theorem exec_memArenaInfo (r : Ref) (s : State) : exec (.memArenaInfo r) s = execMemArenaInfo r s := rfl
theorem exec_promotionComplete (h : W32) (ext : W16) (s : State) : exec (.promotionComplete h ext) s = execPromotionComplete h ext s := rfl
theorem exec_evictionComplete (h : W32) (ext : W16) (s : State) : exec (.evictionComplete h ext) s = execEvictionComplete h ext s := rfl
theorem exec_scrubComplete (s : State) : exec .scrubComplete s = execScrubComplete s := rfl
theorem exec_memCtrClearWrite (v : W32) (s : State) : exec (.memCtrClearWrite v) s = execMemCtrClearWrite v s := rfl
theorem exec_windowFetch (tenant : Byte) (job : W32) (t : Tile) (s : State) : exec (.windowFetch tenant job t) s = execWindowFetch tenant job t s := rfl
theorem exec_arbiterGrant (point : BitVec 6) (s : State) : exec (.arbiterGrant point) s = execArbiterGrant point s := rfl
theorem exec_transferEnd (point : BitVec 6) (ecc : EccClass) (s : State) : exec (.transferEnd point ecc) s = execTransferEnd point ecc s := rfl
theorem exec_layerDeadlineMiss (tenant : Byte) (job : W32) (s : State) : exec (.layerDeadlineMiss tenant job) s = execLayerDeadlineMiss tenant job s := rfl
theorem exec_atomicPartialAdd (t : Tile) (dest : W32) (row : List W32) (s : State) : exec (.atomicPartialAdd t dest row) s = execAtomicPartialAdd t dest row s := rfl
theorem exec_convert (r : Ref) (s : State) : exec (.convert r) s = execConvert r s := rfl
theorem exec_wpack (r : Ref) (s : State) : exec (.wpack r) s = execWpack r s := rfl
theorem exec_skeinMount (r : Ref) (s : State) : exec (.skeinMount r) s = execSkeinMount r s := rfl
theorem exec_skeinUnmount (r : Ref) (s : State) : exec (.skeinUnmount r) s = execSkeinUnmount r s := rfl
theorem exec_skeinInfo (r : Ref) (s : State) : exec (.skeinInfo r) s = execSkeinInfo r s := rfl
theorem exec_serveJobOpen (r : Ref) (s : State) : exec (.serveJobOpen r) s = execServeJobOpen r s := rfl
theorem exec_serveJobClose (r : Ref) (s : State) : exec (.serveJobClose r) s = execServeJobClose r s := rfl
theorem exec_serveSubmit (r : Ref) (s : State) : exec (.serveSubmit r) s = execServeSubmit r s := rfl
theorem exec_serveCancel (r : Ref) (s : State) : exec (.serveCancel r) s = execServeCancel r s := rfl
theorem exec_seqFork (r : Ref) (s : State) : exec (.seqFork r) s = execSeqFork r s := rfl
theorem exec_seqTruncate (r : Ref) (s : State) : exec (.seqTruncate r) s = execSeqTruncate r s := rfl
theorem exec_seqRelease (r : Ref) (s : State) : exec (.seqRelease r) s = execSeqRelease r s := rfl
theorem exec_serveQuery (r : Ref) (s : State) : exec (.serveQuery r) s = execServeQuery r s := rfl
theorem exec_serveBaseShare (r : Ref) (s : State) : exec (.serveBaseShare r) s = execServeBaseShare r s := rfl
theorem exec_stepStart (tiles : W32) (s : State) : exec (.stepStart tiles) s = execStepStart tiles s := rfl
theorem exec_parkLimitExpiry (tenant : Byte) (tag : W16) (s : State) : exec (.parkLimitExpiry tenant tag) s = execParkLimitExpiry tenant tag s := rfl
theorem exec_layerQueue (tenant : Byte) (job : W32) (lists : List ListSpec) (s : State) : exec (.layerQueue tenant job lists) s = execLayerQueue tenant job lists s := rfl
theorem exec_stepSample (tenant : Byte) (job : W32) (logits : List (List W32)) (drafts : List (List W32)) (rows : List (List Byte)) (s : State) :
    exec (.stepSample tenant job logits drafts rows) s = execStepSample tenant job logits drafts rows s := rfl
theorem exec_serveCtrClearWrite (v : W32) (s : State) : exec (.serveCtrClearWrite v) s = execServeCtrClearWrite v s := rfl
theorem exec_fixReserve (r : Ref) (s : State) : exec (.fixReserve r) s = execFixReserve r s := rfl
theorem exec_fixLoad (r : Ref) (s : State) : exec (.fixLoad r) s = execFixLoad r s := rfl
theorem exec_fixArm (r : Ref) (s : State) : exec (.fixArm r) s = execFixArm r s := rfl
theorem exec_fixArmCheckDone (dt : Nat) (s : State) : exec (.fixArmCheckDone dt) s = execFixArmCheckDone dt s := rfl
theorem exec_fixDisarm (r : Ref) (s : State) : exec (.fixDisarm r) s = execFixDisarm r s := rfl
theorem exec_trig (s : State) : exec .trig s = execTrig s := rfl
theorem exec_answerCycle (s : State) : exec .answerCycle s = execAnswerCycle s := rfl
theorem exec_frameWrite (off : W16) (bytes : List Byte) (s : State) : exec (.frameWrite off bytes) s = execFrameWrite off bytes s := rfl
theorem exec_frameCommit (buf : BitVec 1) (seq : W32) (len : W32) (s : State) : exec (.frameCommit buf seq len) s = execFrameCommit buf seq len s := rfl
theorem exec_fixRdyClrWrite (v : W32) (s : State) : exec (.fixRdyClrWrite v) s = execFixRdyClrWrite v s := rfl
theorem exec_gaugeWallSet (r : Ref) (s : State) : exec (.gaugeWallSet r) s = execGaugeWallSet r s := rfl
theorem exec_wallSetPpsTimeout (s : State) : exec .wallSetPpsTimeout s = execWallSetPpsTimeout s := rfl
theorem exec_gaugeCfgWrite (addr : W32) (v : W32) (s : State) : exec (.gaugeCfgWrite addr v) s = execGaugeCfgWrite addr v s := rfl
theorem exec_rotorEdge (dt : Nat) (a b : PinLevel) (s : State) : exec (.rotorEdge dt a b) s = execRotorEdge dt a b s := rfl
theorem exec_rotorZ (s : State) : exec .rotorZ s = execRotorZ s := rfl
theorem exec_rotorIdleTimeout (s : State) : exec .rotorIdleTimeout s = execRotorIdleTimeout s := rfl
theorem exec_gridEdge (dt : Nat) (s : State) : exec (.gridEdge dt) s = execGridEdge dt s := rfl
theorem exec_gridEdgeTimeout (s : State) : exec .gridEdgeTimeout s = execGridEdgeTimeout s := rfl
theorem exec_gridHoldoverTimeout (s : State) : exec .gridHoldoverTimeout s = execGridHoldoverTimeout s := rfl
theorem exec_ppsEdge (dt : Nat) (s : State) : exec (.ppsEdge dt) s = execPpsEdge dt s := rfl
theorem exec_ppsTimeout (s : State) : exec .ppsTimeout s = execPpsTimeout s := rfl
theorem exec_gaugeSchedAdd (r : Ref) (s : State) : exec (.gaugeSchedAdd r) s = execGaugeSchedAdd r s := rfl
theorem exec_gaugeSchedRemove (r : Ref) (s : State) : exec (.gaugeSchedRemove r) s = execGaugeSchedRemove r s := rfl
theorem exec_gaugeSchedQuery (r : Ref) (s : State) : exec (.gaugeSchedQuery r) s = execGaugeSchedQuery r s := rfl
theorem exec_schedFixedRun (entry : Byte) (ticks ns : Nat) (s : State) : exec (.schedFixedRun entry ticks ns) s = execSchedFixedRun entry ticks ns s := rfl
theorem exec_schedKnot (entry : Byte) (ticks ns : Nat) (s : State) : exec (.schedKnot entry ticks ns) s = execSchedKnot entry ticks ns s := rfl
theorem exec_schedSubmit (entry : Byte) (ticks ns : Nat) (s : State) : exec (.schedSubmit entry ticks ns) s = execSchedSubmit entry ticks ns s := rfl
theorem exec_knotAlloc (r : Ref) (s : State) : exec (.knotAlloc r) s = execKnotAlloc r s := rfl
theorem exec_knotFree (r : Ref) (s : State) : exec (.knotFree r) s = execKnotFree r s := rfl
theorem exec_knotSignal (r : Ref) (s : State) : exec (.knotSignal r) s = execKnotSignal r s := rfl
theorem exec_knotWait (r : Ref) (s : State) : exec (.knotWait r) s = execKnotWait r s := rfl
theorem exec_knotWaitTimeout (r : Ref) (s : State) : exec (.knotWaitTimeout r) s = execKnotWaitTimeout r s := rfl
theorem exec_knotRead (r : Ref) (s : State) : exec (.knotRead r) s = execKnotRead r s := rfl
theorem exec_knotSet (r : Ref) (s : State) : exec (.knotSet r) s = execKnotSet r s := rfl
theorem exec_knotWindowWrite (k : BitVec 12) (n : W32) (s : State) : exec (.knotWindowWrite k n) s = execKnotWindowWrite k n s := rfl
theorem exec_linkTrainStart (x : TrainTry) (s : State) : exec (.linkTrainStart x) s = execLinkTrainStart x s := rfl
theorem exec_bitLockTimeout (p : Port) (w : LaneWait) (s : State) : exec (.bitLockTimeout p w) s = execBitLockTimeout p w s := rfl
theorem exec_linkTrainTimeout (p : Port) (s : State) : exec (.linkTrainTimeout p) s = execLinkTrainTimeout p s := rfl
theorem exec_linkUp (p : Port) (x : Trained) (s : State) : exec (.linkUp p x) s = execLinkUp p x s := rfl
theorem exec_linkSignalLoss (p : Port) (s : State) : exec (.linkSignalLoss p) s = execLinkSignalLoss p s := rfl
theorem exec_linkLockLoss (p : Port) (s : State) : exec (.linkLockLoss p) s = execLinkLockLoss p s := rfl
theorem exec_flitReceive (p : Port) (flit : List Byte) (s : State) : exec (.flitReceive p flit) s = execFlitReceive p flit s := rfl
theorem exec_replayTimer (p : Port) (s : State) : exec (.replayTimer p) s = execReplayTimer p s := rfl
theorem exec_reassemblyTimeout (src : BitVec 12) (msg : W16) (s : State) : exec (.reassemblyTimeout src msg) s = execReassemblyTimeout src msg s := rfl
theorem exec_controlMessage (src : BitVec 12) (c : Control) (s : State) : exec (.controlMessage src c) s = execControlMessage src c s := rfl
theorem exec_epochNotice (m : JobMsg) (s : State) : exec (.epochNotice m) s = execEpochNotice m s := rfl
theorem exec_epochAck (m : JobMsg) (s : State) : exec (.epochAck m) s = execEpochAck m s := rfl
theorem exec_workMessage (m : JobMsg) (w : WorkUnit) (sites : List Int) (lists : List ListSpec) (s : State) : exec (.workMessage m w sites lists) s = execWorkMessage m w sites lists s := rfl
theorem exec_dataMessage (m : JobMsg) (t : Tile) (x : RowBlock) (coded : List Byte) (s : State) : exec (.dataMessage m t x coded) s = execDataMessage m t x coded s := rfl
theorem exec_resultMessage (m : JobMsg) (body : ResultBody) (s : State) : exec (.resultMessage m body) s = execResultMessage m body s := rfl
theorem exec_knotMessage (m : JobMsg) (knot : W16) (n : W32) (s : State) : exec (.knotMessage m knot n) s = execKnotMessage m knot n s := rfl
theorem exec_withdrawMessage (m : JobMsg) (tag : Option W16) (rows : List Nat) (s : State) : exec (.withdrawMessage m tag rows) s = execWithdrawMessage m tag rows s := rfl
theorem exec_migrateMessage (m : JobMsg) (seq : W16) (committed : Nat) (pages : List PageCopy) (s : State) :
    exec (.migrateMessage m seq committed pages) s = execMigrateMessage m seq committed pages s := rfl
theorem exec_deviceLost (id : BitVec 12) (s : State) : exec (.deviceLost id) s = execDeviceLost id s := rfl
theorem exec_managerLost (s : State) : exec .managerLost s = execManagerLost s := rfl
theorem exec_linkPodCfg (r : Ref) (s : State) : exec (.linkPodCfg r) s = execLinkPodCfg r s := rfl
theorem exec_linkPlace (r : Ref) (s : State) : exec (.linkPlace r) s = execLinkPlace r s := rfl
theorem exec_linkQuery (r : Ref) (s : State) : exec (.linkQuery r) s = execLinkQuery r s := rfl
theorem exec_linkPnCfgWrite (p : Port) (v : W32) (s : State) : exec (.linkPnCfgWrite p v) s = execLinkPnCfgWrite p v s := rfl
theorem exec_linkCtrClearWrite (v : W32) (s : State) : exec (.linkCtrClearWrite v) s = execLinkCtrClearWrite v s := rfl
theorem exec_secSessionChallenge (r : Ref) (s : State) : exec (.secSessionChallenge r) s = execSecSessionChallenge r s := rfl
theorem exec_challengeExpiry (c : Chan) (s : State) : exec (.challengeExpiry c) s = execChallengeExpiry c s := rfl
theorem exec_secSessionOpen (r : Ref) (s : State) : exec (.secSessionOpen r) s = execSecSessionOpen r s := rfl
theorem exec_secSessionClose (r : Ref) (s : State) : exec (.secSessionClose r) s = execSecSessionClose r s := rfl
theorem exec_sessionIdleTimeout (s : State) : exec .sessionIdleTimeout s = execSessionIdleTimeout s := rfl
theorem exec_networkLossTimeout (s : State) : exec .networkLossTimeout s = execNetworkLossTimeout s := rfl
theorem exec_secCredEnrol (r : Ref) (s : State) : exec (.secCredEnrol r) s = execSecCredEnrol r s := rfl
theorem exec_secCredRevoke (r : Ref) (s : State) : exec (.secCredRevoke r) s = execSecCredRevoke r s := rfl
theorem exec_secPartCreate (r : Ref) (s : State) : exec (.secPartCreate r) s = execSecPartCreate r s := rfl
theorem exec_secKeyLoad (r : Ref) (s : State) : exec (.secKeyLoad r) s = execSecKeyLoad r s := rfl
theorem exec_secKeyRotate (r : Ref) (s : State) : exec (.secKeyRotate r) s = execSecKeyRotate r s := rfl
theorem exec_secPartRemove (r : Ref) (s : State) : exec (.secPartRemove r) s = execSecPartRemove r s := rfl
theorem exec_removalScrub (tenant : Byte) (s : State) : exec (.removalScrub tenant) s = execRemovalScrub tenant s := rfl
theorem exec_removalFlash (tenant : Byte) (s : State) : exec (.removalFlash tenant) s = execRemovalFlash tenant s := rfl
theorem exec_removalConfirm (tenant : Byte) (s : State) : exec (.removalConfirm tenant) s = execRemovalConfirm tenant s := rfl
theorem exec_secPartInfo (r : Ref) (s : State) : exec (.secPartInfo r) s = execSecPartInfo r s := rfl
theorem exec_secPodKey (r : Ref) (s : State) : exec (.secPodKey r) s = execSecPodKey r s := rfl
theorem exec_secOpal (r : Ref) (s : State) : exec (.secOpal r) s = execSecOpal r s := rfl
theorem exec_secLedgerRead (r : Ref) (s : State) : exec (.secLedgerRead r) s = execSecLedgerRead r s := rfl
theorem exec_secLedgerTrim (r : Ref) (s : State) : exec (.secLedgerTrim r) s = execSecLedgerTrim r s := rfl
theorem exec_secCert (r : Ref) (s : State) : exec (.secCert r) s = execSecCert r s := rfl
theorem exec_keySwitchChange (inst serv : Bool) (s : State) : exec (.keySwitchChange inst serv) s = execKeySwitchChange inst serv s := rfl
theorem exec_arpRequest (ip : W32) (s : State) : exec (.arpRequest ip) s = execArpRequest ip s := rfl
theorem exec_meuraSegment (srcIp : W32) (srcPort : W16) (dstPort : W16) (datagram : List Byte) (s : State) :
    exec (.meuraSegment srcIp srcPort dstPort datagram) s = execMeuraSegment srcIp srcPort dstPort datagram s := rfl
theorem exec_meuraReassemblyTimeout (s : State) : exec .meuraReassemblyTimeout s = execMeuraReassemblyTimeout s := rfl
theorem exec_otherFrame (s : State) : exec .otherFrame s = execOtherFrame s := rfl
theorem exec_flashRead (r : Ref) (s : State) : exec (.flashRead r) s = execFlashRead r s := rfl
theorem exec_flashProgram (r : Ref) (s : State) : exec (.flashProgram r) s = execFlashProgram r s := rfl
theorem exec_flashErase (r : Ref) (s : State) : exec (.flashErase r) s = execFlashErase r s := rfl
theorem exec_flashVerify (r : Ref) (s : State) : exec (.flashVerify r) s = execFlashVerify r s := rfl
theorem exec_flashMargin (r : Ref) (s : State) : exec (.flashMargin r) s = execFlashMargin r s := rfl
theorem exec_flashBlockInfo (r : Ref) (s : State) : exec (.flashBlockInfo r) s = execFlashBlockInfo r s := rfl
theorem exec_flashInfo (r : Ref) (s : State) : exec (.flashInfo r) s = execFlashInfo r s := rfl
theorem exec_flashOtpRead (r : Ref) (s : State) : exec (.flashOtpRead r) s = execFlashOtpRead r s := rfl
theorem exec_flashOtpBurn (r : Ref) (s : State) : exec (.flashOtpBurn r) s = execFlashOtpBurn r s := rfl
theorem exec_flashArrayOpComplete (die : BitVec 5) (out : ArrayOutcome) (s : State) : exec (.flashArrayOpComplete die out) s = execFlashArrayOpComplete die out s := rfl
theorem exec_flashCodewordTransfer (die : BitVec 5) (cls : EccClass) (bits : W16) (s : State) : exec (.flashCodewordTransfer die cls bits) s = execFlashCodewordTransfer die cls bits s := rfl
theorem exec_flashSuspend (die : BitVec 5) (s : State) : exec (.flashSuspend die) s = execFlashSuspend die s := rfl
theorem exec_minRunElapsed (die : BitVec 5) (s : State) : exec (.minRunElapsed die) s = execMinRunElapsed die s := rfl
theorem exec_eraseRestart (die : BitVec 5) (s : State) : exec (.eraseRestart die) s = execEraseRestart die s := rfl
theorem exec_flashCtrClearWrite (v : W32) (s : State) : exec (.flashCtrClearWrite v) s = execFlashCtrClearWrite v s := rfl
theorem exec_dramWriteDrain (c : BitVec 5) (ecc : EccClass) (s : State) : exec (.dramWriteDrain c ecc) s = execDramWriteDrain c ecc s := rfl
theorem exec_patrolRead (c : BitVec 5) (ecc : EccClass) (s : State) : exec (.patrolRead c ecc) s = execPatrolRead c ecc s := rfl
theorem exec_refresh (c : BitVec 5) (bank : BitVec 4) (high : Bool) (s : State) : exec (.refresh c bank high) s = execRefresh c bank high s := rfl
theorem exec_oscillatorCheck (c : BitVec 5) (drift : Nat) (lanes : W32) (s : State) : exec (.oscillatorCheck c drift lanes) s = execOscillatorCheck c drift lanes s := rfl
theorem exec_dramMapCfgWrite (v : W32) (s : State) : exec (.dramMapCfgWrite v) s = execDramMapCfgWrite v s := rfl
theorem exec_mapScrubComplete (s : State) : exec .mapScrubComplete s = execMapScrubComplete s := rfl
theorem exec_selfRefreshExit (c : BitVec 5) (s : State) : exec (.selfRefreshExit c) s = execSelfRefreshExit c s := rfl
theorem exec_selfRefreshReentry (c : BitVec 5) (s : State) : exec (.selfRefreshReentry c) s = execSelfRefreshReentry c s := rfl
theorem exec_dramCtrClearWrite (v : W32) (s : State) : exec (.dramCtrClearWrite v) s = execDramCtrClearWrite v s := rfl
theorem exec_vinSample (mv : Nat) (s : State) : exec (.vinSample mv) s = execVinSample mv s := rfl
theorem exec_shedStageLift (s : State) : exec .shedStageLift s = execShedStageLift s := rfl
theorem exec_supplyReset (s : State) : exec .supplyReset s = execSupplyReset s := rfl
theorem exec_thermalSample (temps : List Int) (s : State) : exec (.thermalSample temps) s = execThermalSample temps s := rfl
theorem exec_coolantSample (inlet outlet : Int) (flow : Nat) (s : State) : exec (.coolantSample inlet outlet flow) s = execCoolantSample inlet outlet flow s := rfl
theorem exec_capRecompute (tenant : Byte) (idle measured : Nat) (s : State) : exec (.capRecompute tenant idle measured) s = execCapRecompute tenant idle measured s := rfl
theorem exec_profileUpdate (t : Tile) (mw : Nat) (s : State) : exec (.profileUpdate t mw) s = execProfileUpdate t mw s := rfl
theorem exec_currentLimitCheck (tenant : Byte) (amps : Nat) (s : State) : exec (.currentLimitCheck tenant amps) s = execCurrentLimitCheck tenant amps s := rfl
theorem exec_vcoreUpdate (s : State) : exec .vcoreUpdate s = execVcoreUpdate s := rfl
theorem exec_pwrQuery (r : Ref) (s : State) : exec (.pwrQuery r) s = execPwrQuery r s := rfl
theorem exec_pwrSetCap (r : Ref) (s : State) : exec (.pwrSetCap r) s = execPwrSetCap r s := rfl
theorem exec_pwrProfileReset (r : Ref) (s : State) : exec (.pwrProfileReset r) s = execPwrProfileReset r s := rfl
theorem exec_pwrCtrClearWrite (v : W32) (s : State) : exec (.pwrCtrClearWrite v) s = execPwrCtrClearWrite v s := rfl
theorem exec_auditJobCfg (r : Ref) (s : State) : exec (.auditJobCfg r) s = execAuditJobCfg r s := rfl
theorem exec_auditAttest (r : Ref) (s : State) : exec (.auditAttest r) s = execAuditAttest r s := rfl
theorem exec_auditTwinPair (r : Ref) (s : State) : exec (.auditTwinPair r) s = execAuditTwinPair r s := rfl
theorem exec_twinPairTimeout (r : Ref) (s : State) : exec (.twinPairTimeout r) s = execTwinPairTimeout r s := rfl
theorem exec_auditTwinQuery (r : Ref) (s : State) : exec (.auditTwinQuery r) s = execAuditTwinQuery r s := rfl
theorem exec_diagTileTest (r : Ref) (failing : Option (Byte × W16)) (cycles : W32) (s : State) : exec (.diagTileTest r failing cycles) s = execDiagTileTest r failing cycles s := rfl
theorem exec_twinCtrl (c : TwinCtrl) (s : State) : exec (.twinCtrl c) s = execTwinCtrl c s := rfl
theorem exec_twinStep (tenant : Byte) (job : W32) (seqs : List W16) (dStep : W64) (parked : List W16) (s : State) :
    exec (.twinStep tenant job seqs dStep parked) s = execTwinStep tenant job seqs dStep parked s := rfl
theorem exec_twinDigest (tenant : Byte) (job : W32) (digests : List (Nat × List Byte)) (s : State) : exec (.twinDigest tenant job digests) s = execTwinDigest tenant job digests s := rfl
theorem exec_twinFix (seq : W32) (digest : List Byte) (s : State) : exec (.twinFix seq digest) s = execTwinFix seq digest s := rfl
theorem exec_twinFixUnmatched (seq : W32) (s : State) : exec (.twinFixUnmatched seq) s = execTwinFixUnmatched seq s := rfl
theorem exec_auditCtrClearWrite (v : W32) (s : State) : exec (.auditCtrClearWrite v) s = execAuditCtrClearWrite v s := rfl
theorem exec_freeze (s : State) : exec .freeze s = execFreeze s := rfl
theorem exec_freezeRelease (env : BootEnv) (s : State) : exec (.freezeRelease env) s = execFreezeRelease env s := rfl
theorem exec_testLogicReset (s : State) : exec .testLogicReset s = execTestLogicReset s := rfl
theorem exec_extest (s : State) : exec .extest s = execExtest s := rfl
theorem exec_idcode (s : State) : exec .idcode s = execIdcode s := rfl
theorem exec_samplePreload (s : State) : exec .samplePreload s = execSamplePreload s := rfl
theorem exec_roAddr (v : W64) (s : State) : exec (.roAddr v) s = execRoAddr v s := rfl
theorem exec_roData (s : State) : exec .roData s = execRoData s := rfl
theorem exec_roStatus (s : State) : exec .roStatus s = execRoStatus s := rfl
theorem exec_bypass (s : State) : exec .bypass s = execBypass s := rfl
theorem exec_coldReset (env : BootEnv) (s : State) : exec (.coldReset env) s = execColdReset env s := rfl
theorem exec_warmReset (source : Byte) (env : BootEnv) (s : State) : exec (.warmReset source env) s = execWarmReset source env s := rfl
theorem exec_restart (env : BootEnv) (s : State) : exec (.restart env) s = execRestart env s := rfl
theorem exec_faultReset (source : Byte) (env : BootEnv) (s : State) : exec (.faultReset source env) s = execFaultReset source env s := rfl
theorem exec_partitionReset (mask : Byte) (fault failed : Bool) (s : State) : exec (.partitionReset mask fault failed) s = execPartitionReset mask fault failed s := rfl
theorem exec_watchdogExpiry (env : BootEnv) (s : State) : exec (.watchdogExpiry env) s = execWatchdogExpiry env s := rfl
theorem exec_startupReady (s : State) : exec .startupReady s = execStartupReady s := rfl
theorem exec_dozeRequest (s : State) : exec .dozeRequest s = execDozeRequest s := rfl
theorem exec_napRequest (s : State) : exec .napRequest s = execNapRequest s := rfl
theorem exec_hibernateRequest (s : State) : exec .hibernateRequest s = execHibernateRequest s := rfl
theorem exec_lpEntryComplete (s : State) : exec .lpEntryComplete s = execLpEntryComplete s := rfl
theorem exec_wake (s : State) : exec .wake s = execWake s := rfl
theorem exec_napExitComplete (dt : Nat) (s : State) : exec (.napExitComplete dt) s = execNapExitComplete dt s := rfl
theorem exec_hibernateExit (source : Byte) (env : BootEnv) (s : State) : exec (.hibernateExit source env) s = execHibernateExit source env s := rfl
theorem exec_ackShortPress (s : State) : exec .ackShortPress s = execAckShortPress s := rfl
theorem exec_ackLongPress (s : State) : exec .ackLongPress s = execAckLongPress s := rfl
theorem exec_testShortPress (s : State) : exec .testShortPress s = execTestShortPress s := rfl
theorem exec_testLongPress (failing : Byte) (s : State) : exec (.testLongPress failing) s = execTestLongPress failing s := rfl
theorem exec_safeLongPress (s : State) : exec .safeLongPress s = execSafeLongPress s := rfl
theorem exec_chord (button : BitVec 2) (s : State) : exec (.chord button) s = execChord button s := rfl
theorem exec_locateEnd (s : State) : exec .locateEnd s = execLocateEnd s := rfl
theorem exec_lampTestEnd (s : State) : exec .lampTestEnd s = execLampTestEnd s := rfl
theorem exec_panelAck (s : State) : exec .panelAck s = execPanelAck s := rfl
theorem exec_panelLampTest (s : State) : exec .panelLampTest s = execPanelLampTest s := rfl
theorem exec_panelLocate (s : State) : exec .panelLocate s = execPanelLocate s := rfl
theorem exec_usbAttach (highSpeed : Bool) (s : State) : exec (.usbAttach highSpeed) s = execUsbAttach highSpeed s := rfl
theorem exec_usbDetach (s : State) : exec .usbDetach s = execUsbDetach s := rfl
theorem exec_usbPacket (bytes : List Byte) (s : State) : exec (.usbPacket bytes) s = execUsbPacket bytes s := rfl
theorem exec_startThresholdReached (env : BootEnv) (s : State) : exec (.startThresholdReached env) s = execStartThresholdReached env s := rfl
theorem exec_ethernetLinkChange (up : Bool) (s : State) : exec (.ethernetLinkChange up) s = execEthernetLinkChange up s := rfl
theorem exec_vectorDescriptorComplete (t : Tile) (s : State) : exec (.vectorDescriptorComplete t) s = execVectorDescriptorComplete t s := rfl
theorem exec_napRefusalFlashEnd (s : State) : exec .napRefusalFlashEnd s = execNapRefusalFlashEnd s := rfl

theorem execRead_run (addr : W32) (len : Nat) (ckPs : Nat) : ∃ f, ∀ s, execRead addr len ckPs s = run f s := ⟨_, fun _ => rfl⟩
theorem execWrite_run (addr : W32) (data : List Byte) : ∃ f, ∀ s, execWrite addr data s = run f s := ⟨_, fun _ => rfl⟩
theorem execReadId_run (len : Nat) : ∃ f, ∀ s, execReadId len s = run f s := ⟨_, fun _ => rfl⟩
theorem execResetEnable_run : ∃ f, ∀ s, execResetEnable s = run f s := ⟨_, fun _ => rfl⟩
theorem execResetPort_run : ∃ f, ∀ s, execResetPort s = run f s := ⟨_, fun _ => rfl⟩
theorem execBadInstr_run (c0 c1 : Byte) : ∃ f, ∀ s, execBadInstr c0 c1 s = run f s := ⟨_, fun _ => rfl⟩
theorem execPacketSubmit_run (addr : W32) (bytes : List Byte) : ∃ f, ∀ s, execPacketSubmit addr bytes s = run f s := ⟨_, fun _ => rfl⟩
theorem execBadOpcode_run (r : Ref) : ∃ f, ∀ s, execBadOpcode r s = run f s := ⟨_, fun _ => rfl⟩
theorem execRegisterWrite_run (addr : W32) (v : W32) : ∃ f, ∀ s, execRegisterWrite addr v s = run f s := ⟨_, fun _ => rfl⟩
theorem execLowWordRead_run (addr : W32) : ∃ f, ∀ s, execLowWordRead addr s = run f s := ⟨_, fun _ => rfl⟩
theorem execDevXspiCfgWrite_run (v : W32) : ∃ f, ∀ s, execDevXspiCfgWrite v s = run f s := ⟨_, fun _ => rfl⟩
theorem execCmdCqTailWrite_run (v : W32) : ∃ f, ∀ s, execCmdCqTailWrite v s = run f s := ⟨_, fun _ => rfl⟩
theorem execCmdResultSelWrite_run (v : W32) : ∃ f, ∀ s, execCmdResultSelWrite v s = run f s := ⟨_, fun _ => rfl⟩
theorem execAlertHoldoffExpiry_run : ∃ f, ∀ s, execAlertHoldoffExpiry s = run f s := ⟨_, fun _ => rfl⟩
theorem execNop_run (r : Ref) : ∃ f, ∀ s, execNop r s = run f s := ⟨_, fun _ => rfl⟩
theorem execIdentify_run (r : Ref) : ∃ f, ∀ s, execIdentify r s = run f s := ⟨_, fun _ => rfl⟩
theorem execEcho_run (r : Ref) : ∃ f, ∀ s, execEcho r s = run f s := ⟨_, fun _ => rfl⟩
theorem execTagQuery_run (r : Ref) : ∃ f, ∀ s, execTagQuery r s = run f s := ⟨_, fun _ => rfl⟩
theorem execReset_run (r : Ref) : ∃ f, ∀ s, execReset r s = run f s := ⟨_, fun _ => rfl⟩
theorem execResetRecordTimeout_run : ∃ f, ∀ s, execResetRecordTimeout s = run f s := ⟨_, fun _ => rfl⟩
theorem execMatmul_run (t : Tile) : ∃ f, ∀ s, execMatmul t s = run f s := ⟨_, fun _ => rfl⟩
theorem execConv_run (t : Tile) : ∃ f, ∀ s, execConv t s = run f s := ⟨_, fun _ => rfl⟩
theorem execScore_run (t : Tile) : ∃ f, ∀ s, execScore t s = run f s := ⟨_, fun _ => rfl⟩
theorem execPassListEnd_run (t : Tile) : ∃ f, ∀ s, execPassListEnd t s = run f s := ⟨_, fun _ => rfl⟩
theorem execPassComplete_run (t : Tile) : ∃ f, ∀ s, execPassComplete t s = run f s := ⟨_, fun _ => rfl⟩
theorem execTileCtrClearWrite_run (t : Tile) (v : W32) : ∃ f, ∀ s, execTileCtrClearWrite t v s = run f s := ⟨_, fun _ => rfl⟩
theorem execArrayDomainIdleOff_run (t : Tile) (a : BitVec 2) : ∃ f, ∀ s, execArrayDomainIdleOff t a s = run f s := ⟨_, fun _ => rfl⟩
theorem execStitch_run (t : Tile) : ∃ f, ∀ s, execStitch t s = run f s := ⟨_, fun _ => rfl⟩
theorem execReduce_run (t : Tile) : ∃ f, ∀ s, execReduce t s = run f s := ⟨_, fun _ => rfl⟩
theorem execLoad_run (t : Tile) : ∃ f, ∀ s, execLoad t s = run f s := ⟨_, fun _ => rfl⟩
theorem execStore_run (t : Tile) : ∃ f, ∀ s, execStore t s = run f s := ⟨_, fun _ => rfl⟩
theorem execVectorWait_run (t : Tile) : ∃ f, ∀ s, execVectorWait t s = run f s := ⟨_, fun _ => rfl⟩
theorem execVectorEnd_run (t : Tile) : ∃ f, ∀ s, execVectorEnd t s = run f s := ⟨_, fun _ => rfl⟩
theorem execMemAlloc_run (r : Ref) : ∃ f, ∀ s, execMemAlloc r s = run f s := ⟨_, fun _ => rfl⟩
theorem execMemFree_run (r : Ref) : ∃ f, ∀ s, execMemFree r s = run f s := ⟨_, fun _ => rfl⟩
theorem execMemMigrate_run (r : Ref) : ∃ f, ∀ s, execMemMigrate r s = run f s := ⟨_, fun _ => rfl⟩
theorem execMemOpen_run (r : Ref) : ∃ f, ∀ s, execMemOpen r s = run f s := ⟨_, fun _ => rfl⟩
theorem execMemClose_run (r : Ref) : ∃ f, ∀ s, execMemClose r s = run f s := ⟨_, fun _ => rfl⟩
theorem execMemSettle_run (r : Ref) : ∃ f, ∀ s, execMemSettle r s = run f s := ⟨_, fun _ => rfl⟩
theorem execMemCopy_run (r : Ref) : ∃ f, ∀ s, execMemCopy r s = run f s := ⟨_, fun _ => rfl⟩
theorem execMemFlush_run (r : Ref) : ∃ f, ∀ s, execMemFlush r s = run f s := ⟨_, fun _ => rfl⟩
theorem execMemQuery_run (r : Ref) : ∃ f, ∀ s, execMemQuery r s = run f s := ⟨_, fun _ => rfl⟩
theorem execMemArenaInfo_run (r : Ref) : ∃ f, ∀ s, execMemArenaInfo r s = run f s := ⟨_, fun _ => rfl⟩
theorem execPromotionComplete_run (h : W32) (ext : W16) : ∃ f, ∀ s, execPromotionComplete h ext s = run f s := ⟨_, fun _ => rfl⟩
theorem execEvictionComplete_run (h : W32) (ext : W16) : ∃ f, ∀ s, execEvictionComplete h ext s = run f s := ⟨_, fun _ => rfl⟩
theorem execScrubComplete_run : ∃ f, ∀ s, execScrubComplete s = run f s := ⟨_, fun _ => rfl⟩
theorem execMemCtrClearWrite_run (v : W32) : ∃ f, ∀ s, execMemCtrClearWrite v s = run f s := ⟨_, fun _ => rfl⟩
theorem execWindowFetch_run (tenant : Byte) (job : W32) (t : Tile) : ∃ f, ∀ s, execWindowFetch tenant job t s = run f s := ⟨_, fun _ => rfl⟩
theorem execArbiterGrant_run (point : BitVec 6) : ∃ f, ∀ s, execArbiterGrant point s = run f s := ⟨_, fun _ => rfl⟩
theorem execTransferEnd_run (point : BitVec 6) (ecc : EccClass) : ∃ f, ∀ s, execTransferEnd point ecc s = run f s := ⟨_, fun _ => rfl⟩
theorem execLayerDeadlineMiss_run (tenant : Byte) (job : W32) : ∃ f, ∀ s, execLayerDeadlineMiss tenant job s = run f s := ⟨_, fun _ => rfl⟩
theorem execAtomicPartialAdd_run (t : Tile) (dest : W32) (row : List W32) : ∃ f, ∀ s, execAtomicPartialAdd t dest row s = run f s := ⟨_, fun _ => rfl⟩
theorem execConvert_run (r : Ref) : ∃ f, ∀ s, execConvert r s = run f s := ⟨_, fun _ => rfl⟩
theorem execWpack_run (r : Ref) : ∃ f, ∀ s, execWpack r s = run f s := ⟨_, fun _ => rfl⟩
theorem execSkeinMount_run (r : Ref) : ∃ f, ∀ s, execSkeinMount r s = run f s := ⟨_, fun _ => rfl⟩
theorem execSkeinUnmount_run (r : Ref) : ∃ f, ∀ s, execSkeinUnmount r s = run f s := ⟨_, fun _ => rfl⟩
theorem execSkeinInfo_run (r : Ref) : ∃ f, ∀ s, execSkeinInfo r s = run f s := ⟨_, fun _ => rfl⟩
theorem execServeJobOpen_run (r : Ref) : ∃ f, ∀ s, execServeJobOpen r s = run f s := ⟨_, fun _ => rfl⟩
theorem execServeJobClose_run (r : Ref) : ∃ f, ∀ s, execServeJobClose r s = run f s := ⟨_, fun _ => rfl⟩
theorem execServeSubmit_run (r : Ref) : ∃ f, ∀ s, execServeSubmit r s = run f s := ⟨_, fun _ => rfl⟩
theorem execServeCancel_run (r : Ref) : ∃ f, ∀ s, execServeCancel r s = run f s := ⟨_, fun _ => rfl⟩
theorem execSeqFork_run (r : Ref) : ∃ f, ∀ s, execSeqFork r s = run f s := ⟨_, fun _ => rfl⟩
theorem execSeqTruncate_run (r : Ref) : ∃ f, ∀ s, execSeqTruncate r s = run f s := ⟨_, fun _ => rfl⟩
theorem execSeqRelease_run (r : Ref) : ∃ f, ∀ s, execSeqRelease r s = run f s := ⟨_, fun _ => rfl⟩
theorem execServeQuery_run (r : Ref) : ∃ f, ∀ s, execServeQuery r s = run f s := ⟨_, fun _ => rfl⟩
theorem execServeBaseShare_run (r : Ref) : ∃ f, ∀ s, execServeBaseShare r s = run f s := ⟨_, fun _ => rfl⟩
theorem execStepStart_run (tiles : W32) : ∃ f, ∀ s, execStepStart tiles s = run f s := ⟨_, fun _ => rfl⟩
theorem execParkLimitExpiry_run (tenant : Byte) (tag : W16) : ∃ f, ∀ s, execParkLimitExpiry tenant tag s = run f s := ⟨_, fun _ => rfl⟩
theorem execLayerQueue_run (tenant : Byte) (job : W32) (lists : List ListSpec) : ∃ f, ∀ s, execLayerQueue tenant job lists s = run f s := ⟨_, fun _ => rfl⟩
theorem execStepSample_run (tenant : Byte) (job : W32) (logits : List (List W32)) (drafts : List (List W32)) (rows : List (List Byte)) :
    ∃ f, ∀ s, execStepSample tenant job logits drafts rows s = run f s := ⟨_, fun _ => rfl⟩
theorem execServeCtrClearWrite_run (v : W32) : ∃ f, ∀ s, execServeCtrClearWrite v s = run f s := ⟨_, fun _ => rfl⟩
theorem execFixReserve_run (r : Ref) : ∃ f, ∀ s, execFixReserve r s = run f s := ⟨_, fun _ => rfl⟩
theorem execFixLoad_run (r : Ref) : ∃ f, ∀ s, execFixLoad r s = run f s := ⟨_, fun _ => rfl⟩
theorem execFixArm_run (r : Ref) : ∃ f, ∀ s, execFixArm r s = run f s := ⟨_, fun _ => rfl⟩
theorem execFixArmCheckDone_run (dt : Nat) : ∃ f, ∀ s, execFixArmCheckDone dt s = run f s := ⟨_, fun _ => rfl⟩
theorem execFixDisarm_run (r : Ref) : ∃ f, ∀ s, execFixDisarm r s = run f s := ⟨_, fun _ => rfl⟩
theorem execTrig_run : ∃ f, ∀ s, execTrig s = run f s := ⟨_, fun _ => rfl⟩
theorem execAnswerCycle_run : ∃ f, ∀ s, execAnswerCycle s = run f s := ⟨_, fun _ => rfl⟩
theorem execFrameWrite_run (off : W16) (bytes : List Byte) : ∃ f, ∀ s, execFrameWrite off bytes s = run f s := ⟨_, fun _ => rfl⟩
theorem execFrameCommit_run (buf : BitVec 1) (seq : W32) (len : W32) : ∃ f, ∀ s, execFrameCommit buf seq len s = run f s := ⟨_, fun _ => rfl⟩
theorem execFixRdyClrWrite_run (v : W32) : ∃ f, ∀ s, execFixRdyClrWrite v s = run f s := ⟨_, fun _ => rfl⟩
theorem execGaugeWallSet_run (r : Ref) : ∃ f, ∀ s, execGaugeWallSet r s = run f s := ⟨_, fun _ => rfl⟩
theorem execWallSetPpsTimeout_run : ∃ f, ∀ s, execWallSetPpsTimeout s = run f s := ⟨_, fun _ => rfl⟩
theorem execGaugeCfgWrite_run (addr : W32) (v : W32) : ∃ f, ∀ s, execGaugeCfgWrite addr v s = run f s := ⟨_, fun _ => rfl⟩
theorem execRotorEdge_run (dt : Nat) (a b : PinLevel) : ∃ f, ∀ s, execRotorEdge dt a b s = run f s := ⟨_, fun _ => rfl⟩
theorem execRotorZ_run : ∃ f, ∀ s, execRotorZ s = run f s := ⟨_, fun _ => rfl⟩
theorem execRotorIdleTimeout_run : ∃ f, ∀ s, execRotorIdleTimeout s = run f s := ⟨_, fun _ => rfl⟩
theorem execGridEdge_run (dt : Nat) : ∃ f, ∀ s, execGridEdge dt s = run f s := ⟨_, fun _ => rfl⟩
theorem execGridEdgeTimeout_run : ∃ f, ∀ s, execGridEdgeTimeout s = run f s := ⟨_, fun _ => rfl⟩
theorem execGridHoldoverTimeout_run : ∃ f, ∀ s, execGridHoldoverTimeout s = run f s := ⟨_, fun _ => rfl⟩
theorem execPpsEdge_run (dt : Nat) : ∃ f, ∀ s, execPpsEdge dt s = run f s := ⟨_, fun _ => rfl⟩
theorem execPpsTimeout_run : ∃ f, ∀ s, execPpsTimeout s = run f s := ⟨_, fun _ => rfl⟩
theorem execGaugeSchedAdd_run (r : Ref) : ∃ f, ∀ s, execGaugeSchedAdd r s = run f s := ⟨_, fun _ => rfl⟩
theorem execGaugeSchedRemove_run (r : Ref) : ∃ f, ∀ s, execGaugeSchedRemove r s = run f s := ⟨_, fun _ => rfl⟩
theorem execGaugeSchedQuery_run (r : Ref) : ∃ f, ∀ s, execGaugeSchedQuery r s = run f s := ⟨_, fun _ => rfl⟩
theorem execSchedFixedRun_run (entry : Byte) (ticks ns : Nat) : ∃ f, ∀ s, execSchedFixedRun entry ticks ns s = run f s := ⟨_, fun _ => rfl⟩
theorem execSchedKnot_run (entry : Byte) (ticks ns : Nat) : ∃ f, ∀ s, execSchedKnot entry ticks ns s = run f s := ⟨_, fun _ => rfl⟩
theorem execSchedSubmit_run (entry : Byte) (ticks ns : Nat) : ∃ f, ∀ s, execSchedSubmit entry ticks ns s = run f s := ⟨_, fun _ => rfl⟩
theorem execKnotAlloc_run (r : Ref) : ∃ f, ∀ s, execKnotAlloc r s = run f s := ⟨_, fun _ => rfl⟩
theorem execKnotFree_run (r : Ref) : ∃ f, ∀ s, execKnotFree r s = run f s := ⟨_, fun _ => rfl⟩
theorem execKnotSignal_run (r : Ref) : ∃ f, ∀ s, execKnotSignal r s = run f s := ⟨_, fun _ => rfl⟩
theorem execKnotWait_run (r : Ref) : ∃ f, ∀ s, execKnotWait r s = run f s := ⟨_, fun _ => rfl⟩
theorem execKnotWaitTimeout_run (r : Ref) : ∃ f, ∀ s, execKnotWaitTimeout r s = run f s := ⟨_, fun _ => rfl⟩
theorem execKnotRead_run (r : Ref) : ∃ f, ∀ s, execKnotRead r s = run f s := ⟨_, fun _ => rfl⟩
theorem execKnotSet_run (r : Ref) : ∃ f, ∀ s, execKnotSet r s = run f s := ⟨_, fun _ => rfl⟩
theorem execKnotWindowWrite_run (k : BitVec 12) (n : W32) : ∃ f, ∀ s, execKnotWindowWrite k n s = run f s := ⟨_, fun _ => rfl⟩
theorem execLinkTrainStart_run (x : TrainTry) : ∃ f, ∀ s, execLinkTrainStart x s = run f s := ⟨_, fun _ => rfl⟩
theorem execBitLockTimeout_run (p : Port) (w : LaneWait) : ∃ f, ∀ s, execBitLockTimeout p w s = run f s := ⟨_, fun _ => rfl⟩
theorem execLinkTrainTimeout_run (p : Port) : ∃ f, ∀ s, execLinkTrainTimeout p s = run f s := ⟨_, fun _ => rfl⟩
theorem execLinkUp_run (p : Port) (x : Trained) : ∃ f, ∀ s, execLinkUp p x s = run f s := ⟨_, fun _ => rfl⟩
theorem execLinkSignalLoss_run (p : Port) : ∃ f, ∀ s, execLinkSignalLoss p s = run f s := ⟨_, fun _ => rfl⟩
theorem execLinkLockLoss_run (p : Port) : ∃ f, ∀ s, execLinkLockLoss p s = run f s := ⟨_, fun _ => rfl⟩
theorem execFlitReceive_run (p : Port) (flit : List Byte) : ∃ f, ∀ s, execFlitReceive p flit s = run f s := ⟨_, fun _ => rfl⟩
theorem execReplayTimer_run (p : Port) : ∃ f, ∀ s, execReplayTimer p s = run f s := ⟨_, fun _ => rfl⟩
theorem execReassemblyTimeout_run (src : BitVec 12) (msg : W16) : ∃ f, ∀ s, execReassemblyTimeout src msg s = run f s := ⟨_, fun _ => rfl⟩
theorem execControlMessage_run (src : BitVec 12) (c : Control) : ∃ f, ∀ s, execControlMessage src c s = run f s := onMessage_run 0 src (fun _ => true) (control src c)
theorem execEpochNotice_run (m : JobMsg) : ∃ f, ∀ s, execEpochNotice m s = run f s := onMessage_run 1 m.src (headFits 1 m) (epochNotice m)
theorem execEpochAck_run (m : JobMsg) : ∃ f, ∀ s, execEpochAck m s = run f s := onMessage_run 1 m.src (headFits 1 m) (epochAck m)
theorem execWorkMessage_run (m : JobMsg) (w : WorkUnit) (sites : List Int) (lists : List ListSpec) :
    ∃ f, ∀ s, execWorkMessage m w sites lists s = run f s := onMessage_run 2 m.src (headFits 2 m) (workMessage m w sites lists)
theorem execDataMessage_run (m : JobMsg) (t : Tile) (x : RowBlock) (coded : List Byte) :
    ∃ f, ∀ s, execDataMessage m t x coded s = run f s := onMessage_run 3 m.src (headFits 3 m) (dataMessage m { x with tile := t, coded := coded })
theorem execResultMessage_run (m : JobMsg) (body : ResultBody) : ∃ f, ∀ s, execResultMessage m body s = run f s := onMessage_run 4 m.src (headFits 4 m) (resultMessage m body)
theorem execKnotMessage_run (m : JobMsg) (knot : W16) (n : W32) : ∃ f, ∀ s, execKnotMessage m knot n s = run f s := onMessage_run 5 m.src (headFits 5 m) (knotMessage m knot n)
theorem execWithdrawMessage_run (m : JobMsg) (tag : Option W16) (rows : List Nat) :
    ∃ f, ∀ s, execWithdrawMessage m tag rows s = run f s := onMessage_run 6 m.src (headFits 6 m) (withdrawMessage m tag rows)
theorem execMigrateMessage_run (m : JobMsg) (seq : W16) (committed : Nat) (pages : List PageCopy) :
    ∃ f, ∀ s, execMigrateMessage m seq committed pages s = run f s := onMessage_run 7 m.src (headFits 7 m) (migrateMessage m seq committed pages)
theorem execDeviceLost_run (id : BitVec 12) : ∃ f, ∀ s, execDeviceLost id s = run f s := ⟨_, fun _ => rfl⟩
theorem execManagerLost_run : ∃ f, ∀ s, execManagerLost s = run f s := ⟨_, fun _ => rfl⟩
theorem execLinkPodCfg_run (r : Ref) : ∃ f, ∀ s, execLinkPodCfg r s = run f s := ⟨_, fun _ => rfl⟩
theorem execLinkPlace_run (r : Ref) : ∃ f, ∀ s, execLinkPlace r s = run f s := ⟨_, fun _ => rfl⟩
theorem execLinkQuery_run (r : Ref) : ∃ f, ∀ s, execLinkQuery r s = run f s := ⟨_, fun _ => rfl⟩
theorem execLinkPnCfgWrite_run (p : Port) (v : W32) : ∃ f, ∀ s, execLinkPnCfgWrite p v s = run f s := ⟨_, fun _ => rfl⟩
theorem execLinkCtrClearWrite_run (v : W32) : ∃ f, ∀ s, execLinkCtrClearWrite v s = run f s := ⟨_, fun _ => rfl⟩
theorem execSecSessionChallenge_run (r : Ref) : ∃ f, ∀ s, execSecSessionChallenge r s = run f s := ⟨_, fun _ => rfl⟩
theorem execChallengeExpiry_run (c : Chan) : ∃ f, ∀ s, execChallengeExpiry c s = run f s := ⟨_, fun _ => rfl⟩
theorem execSecSessionOpen_run (r : Ref) : ∃ f, ∀ s, execSecSessionOpen r s = run f s := ⟨_, fun _ => rfl⟩
theorem execSecSessionClose_run (r : Ref) : ∃ f, ∀ s, execSecSessionClose r s = run f s := ⟨_, fun _ => rfl⟩
theorem execSessionIdleTimeout_run : ∃ f, ∀ s, execSessionIdleTimeout s = run f s := ⟨_, fun _ => rfl⟩
theorem execNetworkLossTimeout_run : ∃ f, ∀ s, execNetworkLossTimeout s = run f s := ⟨_, fun _ => rfl⟩
theorem execSecCredEnrol_run (r : Ref) : ∃ f, ∀ s, execSecCredEnrol r s = run f s := ⟨_, fun _ => rfl⟩
theorem execSecCredRevoke_run (r : Ref) : ∃ f, ∀ s, execSecCredRevoke r s = run f s := ⟨_, fun _ => rfl⟩
theorem execSecPartCreate_run (r : Ref) : ∃ f, ∀ s, execSecPartCreate r s = run f s := ⟨_, fun _ => rfl⟩
theorem execSecKeyLoad_run (r : Ref) : ∃ f, ∀ s, execSecKeyLoad r s = run f s := ⟨_, fun _ => rfl⟩
theorem execSecKeyRotate_run (r : Ref) : ∃ f, ∀ s, execSecKeyRotate r s = run f s := ⟨_, fun _ => rfl⟩
theorem execSecPartRemove_run (r : Ref) : ∃ f, ∀ s, execSecPartRemove r s = run f s := ⟨_, fun _ => rfl⟩
theorem execRemovalScrub_run (tenant : Byte) : ∃ f, ∀ s, execRemovalScrub tenant s = run f s := ⟨_, fun _ => rfl⟩
theorem execRemovalFlash_run (tenant : Byte) : ∃ f, ∀ s, execRemovalFlash tenant s = run f s := ⟨_, fun _ => rfl⟩
theorem execRemovalConfirm_run (tenant : Byte) : ∃ f, ∀ s, execRemovalConfirm tenant s = run f s := ⟨_, fun _ => rfl⟩
theorem execSecPartInfo_run (r : Ref) : ∃ f, ∀ s, execSecPartInfo r s = run f s := ⟨_, fun _ => rfl⟩
theorem execSecPodKey_run (r : Ref) : ∃ f, ∀ s, execSecPodKey r s = run f s := ⟨_, fun _ => rfl⟩
theorem execSecOpal_run (r : Ref) : ∃ f, ∀ s, execSecOpal r s = run f s := ⟨_, fun _ => rfl⟩
theorem execSecLedgerRead_run (r : Ref) : ∃ f, ∀ s, execSecLedgerRead r s = run f s := ⟨_, fun _ => rfl⟩
theorem execSecLedgerTrim_run (r : Ref) : ∃ f, ∀ s, execSecLedgerTrim r s = run f s := ⟨_, fun _ => rfl⟩
theorem execSecCert_run (r : Ref) : ∃ f, ∀ s, execSecCert r s = run f s := ⟨_, fun _ => rfl⟩
theorem execKeySwitchChange_run (inst serv : Bool) : ∃ f, ∀ s, execKeySwitchChange inst serv s = run f s := ⟨_, fun _ => rfl⟩
theorem execArpRequest_run (ip : W32) : ∃ f, ∀ s, execArpRequest ip s = run f s := ⟨_, fun _ => rfl⟩
theorem execMeuraSegment_run (srcIp : W32) (srcPort : W16) (dstPort : W16) (datagram : List Byte) : ∃ f, ∀ s, execMeuraSegment srcIp srcPort dstPort datagram s = run f s := ⟨_, fun _ => rfl⟩
theorem execMeuraReassemblyTimeout_run : ∃ f, ∀ s, execMeuraReassemblyTimeout s = run f s := ⟨_, fun _ => rfl⟩
theorem execOtherFrame_run : ∃ f, ∀ s, execOtherFrame s = run f s := ⟨_, fun _ => rfl⟩
theorem execFlashRead_run (r : Ref) : ∃ f, ∀ s, execFlashRead r s = run f s := ⟨_, fun _ => rfl⟩
theorem execFlashProgram_run (r : Ref) : ∃ f, ∀ s, execFlashProgram r s = run f s := ⟨_, fun _ => rfl⟩
theorem execFlashErase_run (r : Ref) : ∃ f, ∀ s, execFlashErase r s = run f s := ⟨_, fun _ => rfl⟩
theorem execFlashVerify_run (r : Ref) : ∃ f, ∀ s, execFlashVerify r s = run f s := ⟨_, fun _ => rfl⟩
theorem execFlashMargin_run (r : Ref) : ∃ f, ∀ s, execFlashMargin r s = run f s := ⟨_, fun _ => rfl⟩
theorem execFlashBlockInfo_run (r : Ref) : ∃ f, ∀ s, execFlashBlockInfo r s = run f s := ⟨_, fun _ => rfl⟩
theorem execFlashInfo_run (r : Ref) : ∃ f, ∀ s, execFlashInfo r s = run f s := ⟨_, fun _ => rfl⟩
theorem execFlashOtpRead_run (r : Ref) : ∃ f, ∀ s, execFlashOtpRead r s = run f s := ⟨_, fun _ => rfl⟩
theorem execFlashOtpBurn_run (r : Ref) : ∃ f, ∀ s, execFlashOtpBurn r s = run f s := ⟨_, fun _ => rfl⟩
theorem execFlashArrayOpComplete_run (die : BitVec 5) (out : ArrayOutcome) : ∃ f, ∀ s, execFlashArrayOpComplete die out s = run f s := ⟨_, fun _ => rfl⟩
theorem execFlashCodewordTransfer_run (die : BitVec 5) (cls : EccClass) (bits : W16) : ∃ f, ∀ s, execFlashCodewordTransfer die cls bits s = run f s := ⟨_, fun _ => rfl⟩
theorem execFlashSuspend_run (die : BitVec 5) : ∃ f, ∀ s, execFlashSuspend die s = run f s := ⟨_, fun _ => rfl⟩
theorem execMinRunElapsed_run (die : BitVec 5) : ∃ f, ∀ s, execMinRunElapsed die s = run f s := ⟨_, fun _ => rfl⟩
theorem execEraseRestart_run (die : BitVec 5) : ∃ f, ∀ s, execEraseRestart die s = run f s := ⟨_, fun _ => rfl⟩
theorem execFlashCtrClearWrite_run (v : W32) : ∃ f, ∀ s, execFlashCtrClearWrite v s = run f s := ⟨_, fun _ => rfl⟩
theorem execDramWriteDrain_run (c : BitVec 5) (ecc : EccClass) : ∃ f, ∀ s, execDramWriteDrain c ecc s = run f s := ⟨_, fun _ => rfl⟩
theorem execPatrolRead_run (c : BitVec 5) (ecc : EccClass) : ∃ f, ∀ s, execPatrolRead c ecc s = run f s := ⟨_, fun _ => rfl⟩
theorem execRefresh_run (c : BitVec 5) (bank : BitVec 4) (high : Bool) : ∃ f, ∀ s, execRefresh c bank high s = run f s := ⟨_, fun _ => rfl⟩
theorem execOscillatorCheck_run (c : BitVec 5) (drift : Nat) (lanes : W32) : ∃ f, ∀ s, execOscillatorCheck c drift lanes s = run f s := ⟨_, fun _ => rfl⟩
theorem execDramMapCfgWrite_run (v : W32) : ∃ f, ∀ s, execDramMapCfgWrite v s = run f s := ⟨_, fun _ => rfl⟩
theorem execMapScrubComplete_run : ∃ f, ∀ s, execMapScrubComplete s = run f s := ⟨_, fun _ => rfl⟩
theorem execSelfRefreshExit_run (c : BitVec 5) : ∃ f, ∀ s, execSelfRefreshExit c s = run f s := ⟨_, fun _ => rfl⟩
theorem execSelfRefreshReentry_run (c : BitVec 5) : ∃ f, ∀ s, execSelfRefreshReentry c s = run f s := ⟨_, fun _ => rfl⟩
theorem execDramCtrClearWrite_run (v : W32) : ∃ f, ∀ s, execDramCtrClearWrite v s = run f s := ⟨_, fun _ => rfl⟩
theorem execVinSample_run (mv : Nat) : ∃ f, ∀ s, execVinSample mv s = run f s := ⟨_, fun _ => rfl⟩
theorem execShedStageLift_run : ∃ f, ∀ s, execShedStageLift s = run f s := ⟨_, fun _ => rfl⟩
theorem execSupplyReset_run : ∃ f, ∀ s, execSupplyReset s = run f s := ⟨_, fun _ => rfl⟩
theorem execThermalSample_run (temps : List Int) : ∃ f, ∀ s, execThermalSample temps s = run f s := ⟨_, fun _ => rfl⟩
theorem execCoolantSample_run (inlet outlet : Int) (flow : Nat) : ∃ f, ∀ s, execCoolantSample inlet outlet flow s = run f s := ⟨_, fun _ => rfl⟩
theorem execCapRecompute_run (tenant : Byte) (idle measured : Nat) : ∃ f, ∀ s, execCapRecompute tenant idle measured s = run f s := ⟨_, fun _ => rfl⟩
theorem execProfileUpdate_run (t : Tile) (mw : Nat) : ∃ f, ∀ s, execProfileUpdate t mw s = run f s := ⟨_, fun _ => rfl⟩
theorem execCurrentLimitCheck_run (tenant : Byte) (amps : Nat) : ∃ f, ∀ s, execCurrentLimitCheck tenant amps s = run f s := ⟨_, fun _ => rfl⟩
theorem execVcoreUpdate_run : ∃ f, ∀ s, execVcoreUpdate s = run f s := ⟨_, fun _ => rfl⟩
theorem execPwrQuery_run (r : Ref) : ∃ f, ∀ s, execPwrQuery r s = run f s := ⟨_, fun _ => rfl⟩
theorem execPwrSetCap_run (r : Ref) : ∃ f, ∀ s, execPwrSetCap r s = run f s := ⟨_, fun _ => rfl⟩
theorem execPwrProfileReset_run (r : Ref) : ∃ f, ∀ s, execPwrProfileReset r s = run f s := ⟨_, fun _ => rfl⟩
theorem execPwrCtrClearWrite_run (v : W32) : ∃ f, ∀ s, execPwrCtrClearWrite v s = run f s := ⟨_, fun _ => rfl⟩
theorem execAuditJobCfg_run (r : Ref) : ∃ f, ∀ s, execAuditJobCfg r s = run f s := ⟨_, fun _ => rfl⟩
theorem execAuditAttest_run (r : Ref) : ∃ f, ∀ s, execAuditAttest r s = run f s := ⟨_, fun _ => rfl⟩
theorem execAuditTwinPair_run (r : Ref) : ∃ f, ∀ s, execAuditTwinPair r s = run f s := ⟨_, fun _ => rfl⟩
theorem execTwinPairTimeout_run (r : Ref) : ∃ f, ∀ s, execTwinPairTimeout r s = run f s := ⟨_, fun _ => rfl⟩
theorem execAuditTwinQuery_run (r : Ref) : ∃ f, ∀ s, execAuditTwinQuery r s = run f s := ⟨_, fun _ => rfl⟩
theorem execDiagTileTest_run (r : Ref) (failing : Option (Byte × W16)) (cycles : W32) : ∃ f, ∀ s, execDiagTileTest r failing cycles s = run f s := ⟨_, fun _ => rfl⟩
theorem execTwinCtrl_run (c : TwinCtrl) : ∃ f, ∀ s, execTwinCtrl c s = run f s := onTwin_run _ _ _ _
theorem execTwinStep_run (tenant : Byte) (job : W32) (seqs : List W16) (dStep : W64) (parked : List W16) : ∃ f, ∀ s, execTwinStep tenant job seqs dStep parked s = run f s := onTwin_run _ _ _ _
theorem execTwinDigest_run (tenant : Byte) (job : W32) (digests : List (Nat × List Byte)) : ∃ f, ∀ s, execTwinDigest tenant job digests s = run f s := onTwin_run _ _ _ _
theorem execTwinFix_run (seq : W32) (digest : List Byte) : ∃ f, ∀ s, execTwinFix seq digest s = run f s := onTwin_run _ _ _ _
theorem execTwinFixUnmatched_run (seq : W32) : ∃ f, ∀ s, execTwinFixUnmatched seq s = run f s := ⟨_, fun _ => rfl⟩
theorem execAuditCtrClearWrite_run (v : W32) : ∃ f, ∀ s, execAuditCtrClearWrite v s = run f s := ⟨_, fun _ => rfl⟩
theorem execFreeze_run : ∃ f, ∀ s, execFreeze s = run f s := ⟨_, fun _ => rfl⟩
theorem execFreezeRelease_run (env : BootEnv) : ∃ f, ∀ s, execFreezeRelease env s = run f s := ⟨_, fun _ => rfl⟩
theorem execTestLogicReset_run : ∃ f, ∀ s, execTestLogicReset s = run f s := ⟨_, fun _ => rfl⟩
theorem execExtest_run : ∃ f, ∀ s, execExtest s = run f s := ⟨_, fun _ => rfl⟩
theorem execIdcode_run : ∃ f, ∀ s, execIdcode s = run f s := ⟨_, fun _ => rfl⟩
theorem execSamplePreload_run : ∃ f, ∀ s, execSamplePreload s = run f s := ⟨_, fun _ => rfl⟩
theorem execRoAddr_run (v : W64) : ∃ f, ∀ s, execRoAddr v s = run f s := ⟨_, fun _ => rfl⟩
theorem execRoData_run : ∃ f, ∀ s, execRoData s = run f s := ⟨_, fun _ => rfl⟩
theorem execRoStatus_run : ∃ f, ∀ s, execRoStatus s = run f s := ⟨_, fun _ => rfl⟩
theorem execBypass_run : ∃ f, ∀ s, execBypass s = run f s := ⟨_, fun _ => rfl⟩
theorem execColdReset_run (env : BootEnv) : ∃ f, ∀ s, execColdReset env s = run f s := ⟨_, fun _ => rfl⟩
theorem execWarmReset_run (source : Byte) (env : BootEnv) : ∃ f, ∀ s, execWarmReset source env s = run f s := ⟨_, fun _ => rfl⟩
theorem execRestart_run (env : BootEnv) : ∃ f, ∀ s, execRestart env s = run f s := ⟨_, fun _ => rfl⟩
theorem execFaultReset_run (source : Byte) (env : BootEnv) : ∃ f, ∀ s, execFaultReset source env s = run f s := ⟨_, fun _ => rfl⟩
theorem execPartitionReset_run (mask : Byte) (fault failed : Bool) : ∃ f, ∀ s, execPartitionReset mask fault failed s = run f s := ⟨_, fun _ => rfl⟩
theorem execWatchdogExpiry_run (env : BootEnv) : ∃ f, ∀ s, execWatchdogExpiry env s = run f s := ⟨_, fun _ => rfl⟩
theorem execStartupReady_run : ∃ f, ∀ s, execStartupReady s = run f s := ⟨_, fun _ => rfl⟩
theorem execDozeRequest_run : ∃ f, ∀ s, execDozeRequest s = run f s := ⟨_, fun _ => rfl⟩
theorem execNapRequest_run : ∃ f, ∀ s, execNapRequest s = run f s := ⟨_, fun _ => rfl⟩
theorem execHibernateRequest_run : ∃ f, ∀ s, execHibernateRequest s = run f s := ⟨_, fun _ => rfl⟩
theorem execLpEntryComplete_run : ∃ f, ∀ s, execLpEntryComplete s = run f s := ⟨_, fun _ => rfl⟩
theorem execWake_run : ∃ f, ∀ s, execWake s = run f s := ⟨_, fun _ => rfl⟩
theorem execNapExitComplete_run (dt : Nat) : ∃ f, ∀ s, execNapExitComplete dt s = run f s := ⟨_, fun _ => rfl⟩
theorem execHibernateExit_run (source : Byte) (env : BootEnv) : ∃ f, ∀ s, execHibernateExit source env s = run f s := ⟨_, fun _ => rfl⟩
theorem execAckShortPress_run : ∃ f, ∀ s, execAckShortPress s = run f s := ⟨_, fun _ => rfl⟩
theorem execAckLongPress_run : ∃ f, ∀ s, execAckLongPress s = run f s := ⟨_, fun _ => rfl⟩
theorem execTestShortPress_run : ∃ f, ∀ s, execTestShortPress s = run f s := ⟨_, fun _ => rfl⟩
theorem execTestLongPress_run (failing : Byte) : ∃ f, ∀ s, execTestLongPress failing s = run f s := ⟨_, fun _ => rfl⟩
theorem execSafeLongPress_run : ∃ f, ∀ s, execSafeLongPress s = run f s := ⟨_, fun _ => rfl⟩
theorem execChord_run (button : BitVec 2) : ∃ f, ∀ s, execChord button s = run f s := ⟨_, fun _ => rfl⟩
theorem execLocateEnd_run : ∃ f, ∀ s, execLocateEnd s = run f s := ⟨_, fun _ => rfl⟩
theorem execLampTestEnd_run : ∃ f, ∀ s, execLampTestEnd s = run f s := ⟨_, fun _ => rfl⟩
theorem execPanelAck_run : ∃ f, ∀ s, execPanelAck s = run f s := ⟨_, fun _ => rfl⟩
theorem execPanelLampTest_run : ∃ f, ∀ s, execPanelLampTest s = run f s := ⟨_, fun _ => rfl⟩
theorem execPanelLocate_run : ∃ f, ∀ s, execPanelLocate s = run f s := ⟨_, fun _ => rfl⟩
theorem execUsbAttach_run (highSpeed : Bool) : ∃ f, ∀ s, execUsbAttach highSpeed s = run f s := ⟨_, fun _ => rfl⟩
theorem execUsbDetach_run : ∃ f, ∀ s, execUsbDetach s = run f s := ⟨_, fun _ => rfl⟩
theorem execUsbPacket_run (bytes : List Byte) : ∃ f, ∀ s, execUsbPacket bytes s = run f s := ⟨_, fun _ => rfl⟩
theorem execStartThresholdReached_run (env : BootEnv) : ∃ f, ∀ s, execStartThresholdReached env s = run f s := ⟨_, fun _ => rfl⟩
theorem execEthernetLinkChange_run (up : Bool) : ∃ f, ∀ s, execEthernetLinkChange up s = run f s := ⟨_, fun _ => rfl⟩
theorem execVectorDescriptorComplete_run (t : Tile) : ∃ f, ∀ s, execVectorDescriptorComplete t s = run f s := ⟨_, fun _ => rfl⟩
theorem execNapRefusalFlashEnd_run : ∃ f, ∀ s, execNapRefusalFlashEnd s = run f s := ⟨_, fun _ => rfl⟩

/-- Every command is an effect on the device: it stops nothing and leaves the queue alone. -/
theorem exec_eq_run (c : Instr) : ∃ f, ∀ s, exec c s = run f s := by
  cases c with
  | read addr len ckPs => exact execRead_run addr len ckPs
  | write addr data => exact execWrite_run addr data
  | readId len => exact execReadId_run len
  | resetEnable => exact execResetEnable_run
  | resetPort => exact execResetPort_run
  | badInstr c0 c1 => exact execBadInstr_run c0 c1
  | packetSubmit addr bytes => exact execPacketSubmit_run addr bytes
  | badOpcode r => exact execBadOpcode_run r
  | registerWrite addr v => exact execRegisterWrite_run addr v
  | lowWordRead addr => exact execLowWordRead_run addr
  | devXspiCfgWrite v => exact execDevXspiCfgWrite_run v
  | cmdCqTailWrite v => exact execCmdCqTailWrite_run v
  | cmdResultSelWrite v => exact execCmdResultSelWrite_run v
  | alertHoldoffExpiry => exact execAlertHoldoffExpiry_run
  | nop r => exact execNop_run r
  | identify r => exact execIdentify_run r
  | echo r => exact execEcho_run r
  | tagQuery r => exact execTagQuery_run r
  | reset r => exact execReset_run r
  | resetRecordTimeout => exact execResetRecordTimeout_run
  | matmul t => exact execMatmul_run t
  | conv t => exact execConv_run t
  | score t => exact execScore_run t
  | passListEnd t => exact execPassListEnd_run t
  | passComplete t => exact execPassComplete_run t
  | tileCtrClearWrite t v => exact execTileCtrClearWrite_run t v
  | arrayDomainIdleOff t a => exact execArrayDomainIdleOff_run t a
  | stitch t => exact execStitch_run t
  | reduce t => exact execReduce_run t
  | load t => exact execLoad_run t
  | store t => exact execStore_run t
  | vectorWait t => exact execVectorWait_run t
  | vectorEnd t => exact execVectorEnd_run t
  | memAlloc r => exact execMemAlloc_run r
  | memFree r => exact execMemFree_run r
  | memMigrate r => exact execMemMigrate_run r
  | memOpen r => exact execMemOpen_run r
  | memClose r => exact execMemClose_run r
  | memSettle r => exact execMemSettle_run r
  | memCopy r => exact execMemCopy_run r
  | memFlush r => exact execMemFlush_run r
  | memQuery r => exact execMemQuery_run r
  | memArenaInfo r => exact execMemArenaInfo_run r
  | promotionComplete h ext => exact execPromotionComplete_run h ext
  | evictionComplete h ext => exact execEvictionComplete_run h ext
  | scrubComplete => exact execScrubComplete_run
  | memCtrClearWrite v => exact execMemCtrClearWrite_run v
  | windowFetch tenant job t => exact execWindowFetch_run tenant job t
  | arbiterGrant point => exact execArbiterGrant_run point
  | transferEnd point ecc => exact execTransferEnd_run point ecc
  | layerDeadlineMiss tenant job => exact execLayerDeadlineMiss_run tenant job
  | atomicPartialAdd t dest row => exact execAtomicPartialAdd_run t dest row
  | convert r => exact execConvert_run r
  | wpack r => exact execWpack_run r
  | skeinMount r => exact execSkeinMount_run r
  | skeinUnmount r => exact execSkeinUnmount_run r
  | skeinInfo r => exact execSkeinInfo_run r
  | serveJobOpen r => exact execServeJobOpen_run r
  | serveJobClose r => exact execServeJobClose_run r
  | serveSubmit r => exact execServeSubmit_run r
  | serveCancel r => exact execServeCancel_run r
  | seqFork r => exact execSeqFork_run r
  | seqTruncate r => exact execSeqTruncate_run r
  | seqRelease r => exact execSeqRelease_run r
  | serveQuery r => exact execServeQuery_run r
  | serveBaseShare r => exact execServeBaseShare_run r
  | stepStart tiles => exact execStepStart_run tiles
  | parkLimitExpiry tenant tag => exact execParkLimitExpiry_run tenant tag
  | layerQueue tenant job lists => exact execLayerQueue_run tenant job lists
  | stepSample tenant job logits drafts rows => exact execStepSample_run tenant job logits drafts rows
  | serveCtrClearWrite v => exact execServeCtrClearWrite_run v
  | fixReserve r => exact execFixReserve_run r
  | fixLoad r => exact execFixLoad_run r
  | fixArm r => exact execFixArm_run r
  | fixArmCheckDone dt => exact execFixArmCheckDone_run dt
  | fixDisarm r => exact execFixDisarm_run r
  | trig => exact execTrig_run
  | answerCycle => exact execAnswerCycle_run
  | frameWrite off bytes => exact execFrameWrite_run off bytes
  | frameCommit buf seq len => exact execFrameCommit_run buf seq len
  | fixRdyClrWrite v => exact execFixRdyClrWrite_run v
  | gaugeWallSet r => exact execGaugeWallSet_run r
  | wallSetPpsTimeout => exact execWallSetPpsTimeout_run
  | gaugeCfgWrite addr v => exact execGaugeCfgWrite_run addr v
  | rotorEdge dt a b => exact execRotorEdge_run dt a b
  | rotorZ => exact execRotorZ_run
  | rotorIdleTimeout => exact execRotorIdleTimeout_run
  | gridEdge dt => exact execGridEdge_run dt
  | gridEdgeTimeout => exact execGridEdgeTimeout_run
  | gridHoldoverTimeout => exact execGridHoldoverTimeout_run
  | ppsEdge dt => exact execPpsEdge_run dt
  | ppsTimeout => exact execPpsTimeout_run
  | gaugeSchedAdd r => exact execGaugeSchedAdd_run r
  | gaugeSchedRemove r => exact execGaugeSchedRemove_run r
  | gaugeSchedQuery r => exact execGaugeSchedQuery_run r
  | schedFixedRun entry ticks ns => exact execSchedFixedRun_run entry ticks ns
  | schedKnot entry ticks ns => exact execSchedKnot_run entry ticks ns
  | schedSubmit entry ticks ns => exact execSchedSubmit_run entry ticks ns
  | knotAlloc r => exact execKnotAlloc_run r
  | knotFree r => exact execKnotFree_run r
  | knotSignal r => exact execKnotSignal_run r
  | knotWait r => exact execKnotWait_run r
  | knotWaitTimeout r => exact execKnotWaitTimeout_run r
  | knotRead r => exact execKnotRead_run r
  | knotSet r => exact execKnotSet_run r
  | knotWindowWrite k n => exact execKnotWindowWrite_run k n
  | linkTrainStart x => exact execLinkTrainStart_run x
  | bitLockTimeout p w => exact execBitLockTimeout_run p w
  | linkTrainTimeout p => exact execLinkTrainTimeout_run p
  | linkUp p x => exact execLinkUp_run p x
  | linkSignalLoss p => exact execLinkSignalLoss_run p
  | linkLockLoss p => exact execLinkLockLoss_run p
  | flitReceive p flit => exact execFlitReceive_run p flit
  | replayTimer p => exact execReplayTimer_run p
  | reassemblyTimeout src msg => exact execReassemblyTimeout_run src msg
  | controlMessage src c => exact execControlMessage_run src c
  | epochNotice m => exact execEpochNotice_run m
  | epochAck m => exact execEpochAck_run m
  | workMessage m w sites lists => exact execWorkMessage_run m w sites lists
  | dataMessage m t x coded => exact execDataMessage_run m t x coded
  | resultMessage m body => exact execResultMessage_run m body
  | knotMessage m knot n => exact execKnotMessage_run m knot n
  | withdrawMessage m tag rows => exact execWithdrawMessage_run m tag rows
  | migrateMessage m seq committed pages => exact execMigrateMessage_run m seq committed pages
  | deviceLost id => exact execDeviceLost_run id
  | managerLost => exact execManagerLost_run
  | linkPodCfg r => exact execLinkPodCfg_run r
  | linkPlace r => exact execLinkPlace_run r
  | linkQuery r => exact execLinkQuery_run r
  | linkPnCfgWrite p v => exact execLinkPnCfgWrite_run p v
  | linkCtrClearWrite v => exact execLinkCtrClearWrite_run v
  | secSessionChallenge r => exact execSecSessionChallenge_run r
  | challengeExpiry c => exact execChallengeExpiry_run c
  | secSessionOpen r => exact execSecSessionOpen_run r
  | secSessionClose r => exact execSecSessionClose_run r
  | sessionIdleTimeout => exact execSessionIdleTimeout_run
  | networkLossTimeout => exact execNetworkLossTimeout_run
  | secCredEnrol r => exact execSecCredEnrol_run r
  | secCredRevoke r => exact execSecCredRevoke_run r
  | secPartCreate r => exact execSecPartCreate_run r
  | secKeyLoad r => exact execSecKeyLoad_run r
  | secKeyRotate r => exact execSecKeyRotate_run r
  | secPartRemove r => exact execSecPartRemove_run r
  | removalScrub tenant => exact execRemovalScrub_run tenant
  | removalFlash tenant => exact execRemovalFlash_run tenant
  | removalConfirm tenant => exact execRemovalConfirm_run tenant
  | secPartInfo r => exact execSecPartInfo_run r
  | secPodKey r => exact execSecPodKey_run r
  | secOpal r => exact execSecOpal_run r
  | secLedgerRead r => exact execSecLedgerRead_run r
  | secLedgerTrim r => exact execSecLedgerTrim_run r
  | secCert r => exact execSecCert_run r
  | keySwitchChange inst serv => exact execKeySwitchChange_run inst serv
  | arpRequest ip => exact execArpRequest_run ip
  | meuraSegment srcIp srcPort dstPort datagram => exact execMeuraSegment_run srcIp srcPort dstPort datagram
  | meuraReassemblyTimeout => exact execMeuraReassemblyTimeout_run
  | otherFrame => exact execOtherFrame_run
  | flashRead r => exact execFlashRead_run r
  | flashProgram r => exact execFlashProgram_run r
  | flashErase r => exact execFlashErase_run r
  | flashVerify r => exact execFlashVerify_run r
  | flashMargin r => exact execFlashMargin_run r
  | flashBlockInfo r => exact execFlashBlockInfo_run r
  | flashInfo r => exact execFlashInfo_run r
  | flashOtpRead r => exact execFlashOtpRead_run r
  | flashOtpBurn r => exact execFlashOtpBurn_run r
  | flashArrayOpComplete die out => exact execFlashArrayOpComplete_run die out
  | flashCodewordTransfer die cls bits => exact execFlashCodewordTransfer_run die cls bits
  | flashSuspend die => exact execFlashSuspend_run die
  | minRunElapsed die => exact execMinRunElapsed_run die
  | eraseRestart die => exact execEraseRestart_run die
  | flashCtrClearWrite v => exact execFlashCtrClearWrite_run v
  | dramWriteDrain c ecc => exact execDramWriteDrain_run c ecc
  | patrolRead c ecc => exact execPatrolRead_run c ecc
  | refresh c bank high => exact execRefresh_run c bank high
  | oscillatorCheck c drift lanes => exact execOscillatorCheck_run c drift lanes
  | dramMapCfgWrite v => exact execDramMapCfgWrite_run v
  | mapScrubComplete => exact execMapScrubComplete_run
  | selfRefreshExit c => exact execSelfRefreshExit_run c
  | selfRefreshReentry c => exact execSelfRefreshReentry_run c
  | dramCtrClearWrite v => exact execDramCtrClearWrite_run v
  | vinSample mv => exact execVinSample_run mv
  | shedStageLift => exact execShedStageLift_run
  | supplyReset => exact execSupplyReset_run
  | thermalSample temps => exact execThermalSample_run temps
  | coolantSample inlet outlet flow => exact execCoolantSample_run inlet outlet flow
  | capRecompute tenant idle measured => exact execCapRecompute_run tenant idle measured
  | profileUpdate t mw => exact execProfileUpdate_run t mw
  | currentLimitCheck tenant amps => exact execCurrentLimitCheck_run tenant amps
  | vcoreUpdate => exact execVcoreUpdate_run
  | pwrQuery r => exact execPwrQuery_run r
  | pwrSetCap r => exact execPwrSetCap_run r
  | pwrProfileReset r => exact execPwrProfileReset_run r
  | pwrCtrClearWrite v => exact execPwrCtrClearWrite_run v
  | auditJobCfg r => exact execAuditJobCfg_run r
  | auditAttest r => exact execAuditAttest_run r
  | auditTwinPair r => exact execAuditTwinPair_run r
  | twinPairTimeout r => exact execTwinPairTimeout_run r
  | auditTwinQuery r => exact execAuditTwinQuery_run r
  | diagTileTest r failing cycles => exact execDiagTileTest_run r failing cycles
  | twinCtrl c => exact execTwinCtrl_run c
  | twinStep tenant job seqs dStep parked => exact execTwinStep_run tenant job seqs dStep parked
  | twinDigest tenant job digests => exact execTwinDigest_run tenant job digests
  | twinFix seq digest => exact execTwinFix_run seq digest
  | twinFixUnmatched seq => exact execTwinFixUnmatched_run seq
  | auditCtrClearWrite v => exact execAuditCtrClearWrite_run v
  | freeze => exact execFreeze_run
  | freezeRelease env => exact execFreezeRelease_run env
  | testLogicReset => exact execTestLogicReset_run
  | extest => exact execExtest_run
  | idcode => exact execIdcode_run
  | samplePreload => exact execSamplePreload_run
  | roAddr v => exact execRoAddr_run v
  | roData => exact execRoData_run
  | roStatus => exact execRoStatus_run
  | bypass => exact execBypass_run
  | coldReset env => exact execColdReset_run env
  | warmReset source env => exact execWarmReset_run source env
  | restart env => exact execRestart_run env
  | faultReset source env => exact execFaultReset_run source env
  | partitionReset mask fault failed => exact execPartitionReset_run mask fault failed
  | watchdogExpiry env => exact execWatchdogExpiry_run env
  | startupReady => exact execStartupReady_run
  | dozeRequest => exact execDozeRequest_run
  | napRequest => exact execNapRequest_run
  | hibernateRequest => exact execHibernateRequest_run
  | lpEntryComplete => exact execLpEntryComplete_run
  | wake => exact execWake_run
  | napExitComplete dt => exact execNapExitComplete_run dt
  | hibernateExit source env => exact execHibernateExit_run source env
  | ackShortPress => exact execAckShortPress_run
  | ackLongPress => exact execAckLongPress_run
  | testShortPress => exact execTestShortPress_run
  | testLongPress failing => exact execTestLongPress_run failing
  | safeLongPress => exact execSafeLongPress_run
  | chord button => exact execChord_run button
  | locateEnd => exact execLocateEnd_run
  | lampTestEnd => exact execLampTestEnd_run
  | panelAck => exact execPanelAck_run
  | panelLampTest => exact execPanelLampTest_run
  | panelLocate => exact execPanelLocate_run
  | usbAttach highSpeed => exact execUsbAttach_run highSpeed
  | usbDetach => exact execUsbDetach_run
  | usbPacket bytes => exact execUsbPacket_run bytes
  | startThresholdReached env => exact execStartThresholdReached_run env
  | ethernetLinkChange up => exact execEthernetLinkChange_run up
  | vectorDescriptorComplete t => exact execVectorDescriptorComplete_run t
  | napRefusalFlashEnd => exact execNapRefusalFlashEnd_run

end Sys2Proof.Machine
end

