-- ==== Sys2Proof/Laws/Exec.lean ====
section
/-! SUPPORT. What exec and step can do, once for all commands: the effect on the device, the queue, ALERT# (R77) and the reasons shown
(R471). -/

namespace Sys2Proof.Machine

theorem run_eq (f : Device → Device) (s : State) : run f s = .next { s with dev := settle (f s.dev) } := rfl

/-- Every command answers a next state, with the queue as it found it. -/
theorem exec_next (c : Instr) (s : State) : ∃ d, exec c s = .next { s with dev := settle d } := by
  obtain ⟨f, h⟩ := exec_eq_run c
  exact ⟨f s.dev, h s⟩

/-- Every step answers a next state whose device has been settled. -/
theorem step_next (s : State) : ∃ d, step s = .next { dev := settle d, pending := s.pending.tail } := by
  unfold step
  split
  · next h => exact ⟨_, by rw [h]; rfl⟩
  · next c rest h =>
    obtain ⟨d, hd⟩ := exec_next c { s with pending := rest }
    exact ⟨d, by rw [hd, h]; rfl⟩

/-- The conditions of R77 read neither ALERT# nor the power records. -/
theorem alertCond_alert (d : Device) (x : Bool) : alertCond { d with host.alert := x } = alertCond d := rfl

/-- After every command ALERT# is what its conditions say (R77, R78). -/
theorem settle_alert (d : Device) : (settle d).host.alert = alertCond (settle d) := rfl

/-- Nothing in the device-wide reasons depends on what the record of k changes. -/
theorem reasonLimit_congr {d e : Device} (g n : Nat) (h1 : d.pwr.stage = e.pwr.stage) (h2 : d.pwr.coolant = e.pwr.coolant)
    (h3 : d.pwr.hostLimit = e.pwr.hostLimit) (h4 : d.pwr.thermal = e.pwr.thermal) (h5 : d.pwr.temps = e.pwr.temps)
    (h : n ≠ 1 ∧ n ≠ 4) : reasonLimit d g n = reasonLimit e g n := by
  unfold reasonLimit thermalLimit tjMax
  split <;> simp_all

/-- The mask of the device-wide reasons (R471). -/
theorem reasons_mask (d : Device) (g : Nat) : reasonsOf d g &&& 0x2D =
    ((if reasonLimit d g 0 < 64 then 1#8 else 0) ||| (if reasonLimit d g 2 < 64 then 4#8 else 0) |||
     (if reasonLimit d g 3 < 64 then 8#8 else 0) ||| (if reasonLimit d g 5 < 64 then 32#8 else 0)) := by
  have h : List.range 6 = [0, 1, 2, 3, 4, 5] := rfl
  simp only [reasonsOf, h, List.foldl_cons, List.foldl_nil]
  split <;> split <;> split <;> split <;> split <;> split <;> rfl

theorem reasons_mask_congr {d e : Device} (g : Nat) (h1 : d.pwr.stage = e.pwr.stage) (h2 : d.pwr.coolant = e.pwr.coolant)
    (h3 : d.pwr.hostLimit = e.pwr.hostLimit) (h4 : d.pwr.thermal = e.pwr.thermal) (h5 : d.pwr.temps = e.pwr.temps) :
    reasonsOf d g &&& 0x2D = reasonsOf e g &&& 0x2D := by
  rw [reasons_mask, reasons_mask]
  rw [reasonLimit_congr g 0 h1 h2 h3 h4 h5 (by decide), reasonLimit_congr g 2 h1 h2 h3 h4 h5 (by decide),
    reasonLimit_congr g 3 h1 h2 h3 h4 h5 (by decide), reasonLimit_congr g 5 h1 h2 h3 h4 h5 (by decide)]

/-- The record of k leaves what the reasons are made of. -/
theorem noteRates_reasons (d : Device) : reasonsOf (noteRates d) 0 &&& 0x2D = reasonsOf d 0 &&& 0x2D :=
  reasons_mask_congr 0 (noteRates_frame (fun d => d.pwr.stage) (fun _ _ _ => rfl) (fun _ _ => rfl) d)
    (noteRates_frame (fun d => d.pwr.coolant) (fun _ _ _ => rfl) (fun _ _ => rfl) d)
    (noteRates_frame (fun d => d.pwr.hostLimit) (fun _ _ _ => rfl) (fun _ _ => rfl) d)
    (noteRates_frame (fun d => d.pwr.thermal) (fun _ _ _ => rfl) (fun _ _ => rfl) d)
    (noteRates_frame (fun d => d.pwr.temps) (fun _ _ _ => rfl) (fun _ _ => rfl) d)

/-! ### What settling keeps of the host port and the power part, and its own effect -/

/-- Of the host port, settling changes ALERT# and DEV_EVENT only. -/
theorem settle_host {α : Type} (g : HostPort → α) (h : ∀ x a e, g { x with alert := a, event := e } = g x) (d : Device) :
    g (settle d).host = g d.host := by
  have h1 := noteRates_frame (fun d => ({ d.host with event := 0, alert := false } : HostPort)) (fun _ _ _ => rfl) (fun _ _ => rfl) d
  unfold settle; dsimp only; split
  · have h2 := h (noteRates d).host false 0
    have h3 := h d.host false 0
    rw [← h3]
    refine Eq.trans (h (noteRates d).host _ (noteRates d).host.event) ?_
    rw [← h2]
    exact congrArg g h1
  · exact h _ _ _

/-- Of the power part, settling changes the records of k and the reasons shown only. -/
theorem settle_pwr {α : Type} (g : PowerPart → α) (h : ∀ x a e, g { x with groups := a, shown := e } = g x) (d : Device) :
    g (settle d).pwr = g d.pwr := by
  have h1 := noteRates_frame (fun d => ({ d.pwr with groups := [], shown := 0 } : PowerPart)) (fun _ _ _ => rfl) (fun _ _ => rfl) d
  unfold settle; dsimp only; split
  · have h2 := h (noteRates d).pwr [] 0
    have h3 := h d.pwr [] 0
    rw [← h3, ← h2]
    exact congrArg g h1
  · rfl

/-- Of DEV_EVENT, settling changes THROTTLE only (R471). -/
theorem settle_event (d : Device) (n : Nat) (hn : n ≠ evThrottle) : (settle d).host.event.getLsbD n = d.host.event.getLsbD n := by
  have h : (noteRates d).host.event.getLsbD n = d.host.event.getLsbD n := by
    refine noteRates_frame (fun d => d.host.event.getLsbD n) (fun _ _ _ => rfl) (fun x d => ?_) d
    show (d.host.event ||| 1#12 <<< evThrottle).getLsbD n = _
    rw [BitVec.getLsbD_or]
    have : (1#12 <<< evThrottle).getLsbD n = false := by
      simp [BitVec.getLsbD_shiftLeft, BitVec.getLsbD_one]
      intro h1 h2 h3; unfold evThrottle at *; omega
    rw [this, Bool.or_false]
  unfold settle; dsimp only; split
  · exact h
  · rfl

@[simp] theorem settle_coreAlive (d : Device) : coreAlive (settle d) = coreAlive d := by simp [coreAlive, isFrozen]

/-- While the core die does not run, settling only releases ALERT#. -/
theorem settle_dead (d : Device) (h : coreAlive d = false) : settle d = { d with host := { d.host with alert := false } } := by
  unfold settle; dsimp only; rw [h]; simp [alertCond, h]

theorem advance_clock (n : Nat) (d : Device) : (advance n d).clock = d.clock + n := by
  unfold advance; dsimp only; (repeat' split) <;> rfl

theorem advanceTo_clock (t : Nat) (d : Device) : (advanceTo t d).clock = max d.clock t := by
  unfold advanceTo; rw [advance_clock]; omega

/-- Time changes WALL and what is left of its slew, and nothing else of the Gauge (R325). -/
theorem advance_gauge (n : Nat) (d : Device) : (advance n d).gauge =
    { d.gauge with wall := (advance n d).gauge.wall, slewLeft := (advance n d).gauge.slewLeft, slew := (advance n d).gauge.slew, slewRem := (advance n d).gauge.slewRem } := by
  unfold advance; dsimp only; (repeat' split) <;> rfl

theorem advanceTo_gauge (t : Nat) (d : Device) : (advanceTo t d).gauge =
    { d.gauge with wall := (advanceTo t d).gauge.wall, slewLeft := (advanceTo t d).gauge.slewLeft, slew := (advanceTo t d).gauge.slew, slewRem := (advanceTo t d).gauge.slewRem } := by
  unfold advanceTo; exact advance_gauge _ d

end Sys2Proof.Machine
end

