-- ==== Sys2Proof/Laws/Maps.lean ====
section
/-! SUPPORT. Sparse maps and byte memory: reading back what was written, what a write leaves alone, and the canonical form that every
operation keeps. -/

namespace Sys2Proof.Machine

namespace SMap

variable {α : Type}

theorem get_put (d : α) (m : SMap α) (k j : Nat) (v : α) : get d (put m k v) j = if j = k then v else get d m j := by
  induction m with
  | nil => simp [put, get]
  | cons p m ih =>
    obtain ⟨k', v'⟩ := p
    simp only [put]
    split
    · rfl
    · split
      · next h => subst h; simp only [get]; split <;> rfl
      · next h1 h2 =>
        simp only [get, ih]
        split
        · next h3 => subst h3; simp [Ne.symm h2]
        · rfl

theorem get_del (d : α) (m : SMap α) (k j : Nat) : get d (del m k) j = if j = k then d else get d m j := by
  induction m with
  | nil => simp [del, get]
  | cons p m ih =>
    obtain ⟨k', v⟩ := p
    simp only [del]
    split
    · next hk => subst hk; simp only [get, ih]; split <;> rfl
    · next hk =>
      simp only [get, ih]
      split
      · next hj => subst hj; simp [Ne.symm hk]
      · rfl

/-- Reading after a write: the written key reads the value, every other key reads as before. -/
theorem get_set [DecidableEq α] (d : α) (m : SMap α) (k j : Nat) (v : α) : get d (set d m k v) j = if j = k then v else get d m j := by
  unfold set
  split
  · next hv => subst hv; exact get_del v m k j
  · exact get_put d m k j v

theorem wfFrom_put [DecidableEq α] (d : α) (m : SMap α) (b : Option Nat) (k : Nat) (v : α) (h : wfFrom d b m = true)
    (hb : ∀ x, b = some x → x < k) (hv : v ≠ d) : wfFrom d b (put m k v) = true := by
  induction m generalizing b with
  | nil =>
    cases b with
    | none => simp [put, wfFrom, hv]
    | some x => simp [put, wfFrom, hv, hb x rfl]
  | cons p m ih =>
    obtain ⟨k', v'⟩ := p
    simp only [wfFrom, Bool.and_eq_true, decide_eq_true_eq] at h
    obtain ⟨⟨h1, h2⟩, h3⟩ := h
    simp only [put]
    split
    · next hk =>
      cases b with
      | none => simp [wfFrom, hv, hk, h2, h3]
      | some x => simp [wfFrom, hv, hk, h2, h3, hb x rfl]
    · split
      · next hk =>
        subst hk
        cases b with
        | none => simp [wfFrom, hv, h3]
        | some x => simp [wfFrom, hv, h3, hb x rfl]
      · next hk1 hk2 =>
        have h4 := ih (some k') h3 (fun x hx => by cases hx; omega)
        simp [wfFrom, h2, h4, h1]

theorem wfFrom_mono [DecidableEq α] {d : α} {m : SMap α} {b c : Option Nat} (h : wfFrom d (some (b.getD 0)) m = true ∨ wfFrom d b m = true)
    (hc : c = none ∨ ∃ x y, c = some x ∧ b = some y ∧ x ≤ y) : wfFrom d c m = true := by
  cases m with
  | nil => simp [wfFrom]
  | cons p m =>
    obtain ⟨k, v⟩ := p
    simp only [wfFrom, Bool.and_eq_true, decide_eq_true_eq] at h ⊢
    rcases hc with rfl | ⟨x, y, rfl, rfl, hxy⟩
    · rcases h with h | h <;> simp_all
    · rcases h with h | h <;> simp_all <;> omega

theorem wfFrom_del [DecidableEq α] (d : α) (m : SMap α) (b : Option Nat) (k : Nat) (h : wfFrom d b m = true) :
    wfFrom d b (del m k) = true := by
  induction m generalizing b with
  | nil => simp [del, wfFrom]
  | cons p m ih =>
    obtain ⟨k', v⟩ := p
    simp only [wfFrom, Bool.and_eq_true, decide_eq_true_eq] at h
    simp only [del]
    split
    · refine ih b ?_
      cases b with
      | none => exact wfFrom_mono (b := some k') (Or.inr h.2) (Or.inl rfl)
      | some x => exact wfFrom_mono (b := some k') (Or.inr h.2) (Or.inr ⟨x, k', rfl, rfl, by have := h.1.1; simp at this; omega⟩)
    · simp only [wfFrom, Bool.and_eq_true, decide_eq_true_eq]
      exact ⟨h.1, ih (some k') h.2⟩

/-- A write keeps the canonical form. -/
theorem wf_set [DecidableEq α] (d : α) (m : SMap α) (k : Nat) (v : α) (h : wf d m = true) : wf d (set d m k v) = true := by
  unfold set
  split
  · exact wfFrom_del d m none k h
  · next hv => exact wfFrom_put d m none k v h (fun _ hx => by cases hx) hv

theorem wf_modify [DecidableEq α] (d : α) (m : SMap α) (k : Nat) (f : α → α) (h : wf d m = true) : wf d (modify d m k f) = true :=
  wf_set d m k _ h

theorem get_modify [DecidableEq α] (d : α) (m : SMap α) (k j : Nat) (f : α → α) :
    get d (modify d m k f) j = if j = k then f (get d m k) else get d m j := get_set d m k j _

theorem wfFrom_filter [DecidableEq α] (d : α) (m : SMap α) (b : Option Nat) (q : Nat × α → Bool) (h : wfFrom d b m = true) :
    wfFrom d b (m.filter q) = true := by
  induction m generalizing b with
  | nil => simp [wfFrom]
  | cons p m ih =>
    obtain ⟨k, v⟩ := p
    simp only [wfFrom, Bool.and_eq_true, decide_eq_true_eq] at h
    simp only [List.filter_cons]
    split
    · simp only [wfFrom, Bool.and_eq_true, decide_eq_true_eq]
      exact ⟨h.1, ih (some k) h.2⟩
    · refine ih b ?_
      cases b with
      | none => exact wfFrom_mono (b := some k) (Or.inr h.2) (Or.inl rfl)
      | some x => exact wfFrom_mono (b := some k) (Or.inr h.2) (Or.inr ⟨x, k, rfl, rfl, by have := h.1.1; simp at this; omega⟩)

/-- Clearing a range keeps the canonical form. -/
theorem wf_clear [DecidableEq α] (d : α) (m : SMap α) (lo hi : Nat) (h : wf d m = true) : wf d (clear m lo hi) = true :=
  wfFrom_filter d m none _ h

/-- After clearing a range, its keys read the default and every other key reads as before. -/
theorem get_clear (d : α) (m : SMap α) (lo hi j : Nat) : get d (clear m lo hi) j = if lo ≤ j ∧ j < hi then d else get d m j := by
  induction m with
  | nil => simp [clear, get]
  | cons p m ih =>
    obtain ⟨k, v⟩ := p
    simp only [clear, List.filter_cons] at ih ⊢
    split
    · next hk =>
      simp only [Bool.or_eq_true, decide_eq_true_eq] at hk
      simp only [get, ih]
      split
      · next hj => subst hj; rw [if_neg (by omega)]
      · rfl
    · next hk =>
      simp only [Bool.or_eq_true, decide_eq_true_eq, not_or, not_lt, not_le] at hk
      rw [ih]
      simp only [get]
      split
      · rfl
      · next hj => rw [if_neg (by omega)]

end SMap

namespace Mem

/-- A byte store keeps the canonical form. -/
theorem wf_setByte (m : Mem) (a : Nat) (b : Byte) (h : wf m = true) : wf (setByte m a b) = true := SMap.wf_set 0 m a b h

theorem byte_setByte (m : Mem) (a x : Nat) (b : Byte) : byte (setByte m a b) x = if x = a then b else byte m x :=
  SMap.get_set 0 m a x b

/-- A store keeps the canonical form. -/
theorem wf_store (m : Mem) (a : Nat) (bs : List Byte) (h : wf m = true) : wf (store m a bs) = true := by
  induction bs generalizing m a with
  | nil => exact h
  | cons b bs ih => exact ih _ _ (wf_setByte m a b h)

/-- A scrub keeps the canonical form. -/
theorem wf_scrub (m : Mem) (a n : Nat) (h : wf m = true) : wf (scrub m a n) = true := SMap.wf_clear 0 m a (a + n) h

/-- After a store, the stored range reads the string and every other byte reads as before. -/
theorem byte_store (m : Mem) (a x : Nat) (bs : List Byte) :
    byte (store m a bs) x = if a ≤ x ∧ x < a + bs.length then bs.getD (x - a) 0 else byte m x := by
  induction bs generalizing m a with
  | nil => rw [if_neg (by simp)]; rfl
  | cons b bs ih =>
    simp only [store, ih _ (a + 1), byte_setByte m a x b, List.length_cons]
    by_cases hx : x = a
    · subst hx; simp
    · by_cases hr : a + 1 ≤ x ∧ x < a + 1 + bs.length
      · rw [if_pos hr, if_pos (by omega)]
        obtain ⟨k, hk⟩ : ∃ k, x - a = k + 1 := ⟨x - a - 1, by omega⟩
        rw [hk, show x - (a + 1) = k by omega]
        rfl
      · rw [if_neg hr, if_neg hx, if_neg (by omega)]

theorem byte_scrub (m : Mem) (a n x : Nat) : byte (scrub m a n) x = if a ≤ x ∧ x < a + n then 0 else byte m x :=
  SMap.get_clear 0 m a (a + n) x

theorem bytes_length (m : Mem) (a n : Nat) : (bytes m a n).length = n := by
  induction n generalizing a with
  | zero => rfl
  | succ n ih => simp [bytes, ih]

theorem bytes_getD (m : Mem) (a n i : Nat) (h : i < n) : (bytes m a n).getD i 0 = byte m (a + i) := by
  induction n generalizing a i with
  | zero => omega
  | succ n ih =>
    cases i with
    | zero => rfl
    | succ i =>
      have := ih (a + 1) i (by omega)
      simp only [bytes, List.getD_cons_succ, this]
      congr 1; omega

/-- Reading back a stored string. -/
theorem bytes_store (m : Mem) (a : Nat) (bs : List Byte) : bytes (store m a bs) a bs.length = bs := by
  apply List.ext_getElem
  · exact bytes_length _ _ _
  · intro i h1 h2
    have h3 := bytes_getD (store m a bs) a bs.length i h2
    rw [byte_store m a _ bs, if_pos (by omega), Nat.add_sub_cancel_left] at h3
    rwa [List.getD_eq_getElem _ _ h1, List.getD_eq_getElem _ _ h2] at h3

end Mem

/-- A write to fabric space keeps its canonical form, whatever the write queues do. -/
@[simp] theorem fabScrub_fab (a n : Nat) (d : Device) : (fabScrub a n d).fab = Mem.scrub d.fab a n := rfl
@[simp] theorem storeWrite_fab (t off : Nat) (bs : List Byte) (d : Device) :
    (storeWrite t off bs d).fab = Mem.store d.fab (tileBase t + off) bs := rfl
@[simp] theorem onChan_fab (c : Nat) (f : DramChan → DramChan) (d : Device) : (onChan c f d).fab = d.fab := rfl

@[simp] theorem drainOne_fab (c : Nat) (d : Device) : (drainOne c d).fab = d.fab := by
  unfold drainOne; split
  · rfl
  · dsimp only; split <;> rfl

@[simp] theorem healWhole_fab (c b : Nat) (m : BitVec 64) (d : Device) : (healWhole c b m d).fab = d.fab := by
  unfold healWhole; dsimp only; split <;> split <;> rfl

@[simp] theorem joinBlock_fab (c b : Nat) (m : BitVec 64) (d : Device) : (joinBlock c b m d).fab = d.fab := by
  unfold joinBlock; split
  · rfl
  · dsimp only; rw [onChan_fab]; split
    · exact drainOne_fab _ _
    · rfl

@[simp] theorem enqueueBlock_fab (b lo hi : Nat) (d : Device) : (enqueueBlock b lo hi d).fab = d.fab := by
  unfold enqueueBlock; split
  · rfl
  · rw [joinBlock_fab, healWhole_fab]

@[simp] theorem enqueueRange_fab (fuel a n : Nat) (d : Device) : (enqueueRange a fuel n d).fab = d.fab := by
  induction fuel generalizing a n d with
  | zero => rfl
  | succ k ih =>
    simp only [enqueueRange]; split
    · rfl
    · rw [ih, enqueueBlock_fab]

/-- A fabric write stores its bytes, whatever the write queues do. -/
@[simp] theorem fabWrite_fab (a : Nat) (bs : List Byte) (d : Device) : (fabWrite a bs d).fab = Mem.store d.fab a bs := by
  unfold fabWrite; dsimp only; split
  · rw [enqueueRange_fab]
  · rfl

theorem drainOne_frame (c : Nat) (d : Device) : drainOne c d = { d with dram := (drainOne c d).dram } := by
  unfold drainOne; split
  · rfl
  · dsimp only; split <;> rfl

theorem healWhole_frame (c b : Nat) (m : BitVec 64) (d : Device) : healWhole c b m d = { d with dram := (healWhole c b m d).dram } := by
  unfold healWhole; dsimp only; split <;> split <;> rfl

theorem joinBlock_frame (c b : Nat) (m : BitVec 64) (d : Device) : joinBlock c b m d = { d with dram := (joinBlock c b m d).dram } := by
  unfold joinBlock; split
  · rfl
  · dsimp only; unfold onChan; split
    · rw [drainOne_frame]
    · rfl

theorem enqueueBlock_frame (b lo hi : Nat) (d : Device) : enqueueBlock b lo hi d = { d with dram := (enqueueBlock b lo hi d).dram } := by
  unfold enqueueBlock; split
  · rfl
  · rw [joinBlock_frame, healWhole_frame]

theorem enqueueRange_frame (fuel a n : Nat) (d : Device) :
    enqueueRange a fuel n d = { d with dram := (enqueueRange a fuel n d).dram } := by
  induction fuel generalizing a n d with
  | zero => rfl
  | succ k ih =>
    simp only [enqueueRange]; split
    · rfl
    · rw [ih, enqueueBlock_frame]

/-- A fabric write changes memory and the write queues of DRAM channels, and nothing else. -/
theorem fabWrite_frame (a : Nat) (bs : List Byte) (d : Device) :
    fabWrite a bs d = { d with fab := (fabWrite a bs d).fab, dram := (fabWrite a bs d).dram } := by
  unfold fabWrite; dsimp only; split
  · rw [enqueueRange_frame]
  · rfl

theorem fabWrite_wf (a : Nat) (bs : List Byte) (d : Device) (h : Mem.wf d.fab = true) : Mem.wf (fabWrite a bs d).fab = true := by
  rw [fabWrite_fab]; exact Mem.wf_store _ _ _ h

theorem fabScrub_wf (a n : Nat) (d : Device) (h : Mem.wf d.fab = true) : Mem.wf (fabScrub a n d).fab = true := Mem.wf_scrub _ _ _ h

theorem storeWrite_wf (t off : Nat) (bs : List Byte) (d : Device) (h : Mem.wf d.fab = true) :
    Mem.wf (storeWrite t off bs d).fab = true := Mem.wf_store _ _ _ h

/-- The memory after reset is in its canonical form. -/
theorem reset_fab_wf : Mem.wf State.reset.dev.fab = true := rfl

namespace Assoc

variable {α : Type}

/-- Finding after an insertion. -/
theorem find_insert (m : Assoc α) (k j : Nat) (v : α) : find (insert m k v) j = if j = k then some v else find m j := by
  unfold insert
  induction m with
  | nil => simp [SMap.put, find]
  | cons p m ih =>
    obtain ⟨k', v'⟩ := p
    simp only [SMap.put]
    split
    · simp [find]
    · split
      · next h => subst h; simp only [find]; split <;> rfl
      · next h1 h2 =>
        simp only [find, ih]
        split
        · next h3 => subst h3; simp [Ne.symm h2]
        · rfl

/-- Finding after an entry is taken out. -/
theorem find_erase (m : Assoc α) (k j : Nat) : find (erase m k) j = if j = k then none else find m j := by
  unfold erase
  induction m with
  | nil => simp [SMap.del, find]
  | cons p m ih =>
    obtain ⟨k', v⟩ := p
    simp only [SMap.del]
    split
    · next hk => subst hk; simp only [find, ih]; split <;> rfl
    · next hk =>
      simp only [find, ih]
      split
      · next hj => subst hj; simp [Ne.symm hk]
      · rfl

/-- Finding after a change of one entry. -/
theorem find_adjust (m : Assoc α) (k j : Nat) (f : α → α) : find (adjust m k f) j = if j = k then (find m j).map f else find m j := by
  induction m with
  | nil => simp [adjust, find]
  | cons p m ih =>
    obtain ⟨k', v'⟩ := p
    simp only [adjust, List.map_cons] at ih ⊢
    by_cases hk : k' = k
    · subst hk; rw [if_pos rfl]; simp only [find, ih]; split <;> rfl
    · rw [if_neg hk]; simp only [find, ih]
      by_cases hj : j = k'
      · subst hj; simp [hk]
      · simp [hj]

end Assoc

end Sys2Proof.Machine
end

