-- ==== Sys2Proof/Laws/Packets.lean ====
section
/-! SUPPORT. An admitted packet runs its operation, and what acceptance and completion leave alone. -/

namespace Sys2Proof.Machine

theorem run_settled (f : Device → Device) (s : State) : run f s = .next (settled s (f s.dev)) := rfl

/-- The command of an admitted packet runs the operation's own body. -/
theorem runOp_admits {sp : OpSpec} {r : Ref} {p : Packet} {b : List Byte} {c : Option Nat} {d : Device} (h : Admits sp r p b c d)
    (body : Packet → List Byte → Device → Device) : runOp sp r body d = body (begun p b) b (admitted p b c d) := by
  have hready : isReady (admitted p b c d) = true := by
    rw [← h.ready]
    simp [isReady, coreAlive, isFrozen, admitted]
  have hsize : sp.size.any (fun n => plainLen p != n) = false := by
    have := h.size
    cases hs : sp.size with
    | none => rfl
    | some n => rw [hs] at this; simpa using this
  have hten : ¬(p.hdr.tenant.toNat > 8 ∨ p.hdr.tenant ≠ 0 ∧ (partOf d p.hdr.tenant.toNat).isNone = true) := by
    rintro (h1 | ⟨h1, h2⟩)
    · exact absurd h.range (by omega)
    · have := h.formed h1
      rw [Option.isNone_iff_eq_none] at h2
      rw [h2] at this; simp at this
  have hrem : (isRemoving d p.hdr.tenant.toNat && !sp.removal) = false := by
    cases hr : isRemoving d p.hdr.tenant.toNat with
    | false => rfl
    | true => rw [h.staying hr]; rfl
  have hrole : (decide (p.hdr.tenant = 0) && !sp.roles.isEmpty && !sp.roles.contains p.role) = false := by
    by_cases h0 : p.hdr.tenant = 0
    · by_cases h1 : sp.roles = []
      · simp [h1]
      · rw [h.role h0 h1]; simp
    · rw [decide_eq_false h0]; rfl
  have hfield : ¬(p.hdr.tenant = 0 ∧ (!sp.dev) = true ∨ p.hdr.tenant ≠ 0 ∧ (!sp.part) = true) := by
    rintro (⟨h1, h2⟩ | ⟨h1, h2⟩)
    · rw [h.dev h1] at h2; cases h2
    · rw [h.part h1] at h2; cases h2
  have hserved : served d p = true := by rw [served, h.ready, Bool.true_or]
  unfold runOp
  simp only [h.found]
  rw [if_pos ⟨h.opcode, hserved⟩, h.fresh]
  simp only [Bool.false_eq_true, if_false, h.turn, if_true]
  unfold runChecked
  simp only [hsize, h.authentic, h.zero, hrem, Bool.false_eq_true, if_false, Bool.not_true]
  rw [if_neg hten]
  change (if (decide (p.hdr.tenant = 0) && !sp.roles.isEmpty && !sp.roles.contains p.role) = true then _ else _) = _
  rw [hrole, if_neg (by simp), if_neg hfield]
  change (if (!isReady (admitted p b c d) && !sp.onyx) = true then _ else _) = _
  rw [hready]
  rfl

/-- The same as a command's outcome. -/
theorem run_admits {sp : OpSpec} {r : Ref} {p : Packet} {b : List Byte} {c : Option Nat} {s : State} (h : Admits sp r p b c s.dev)
    (body : Packet → List Byte → Device → Device) :
    run (runOp sp r body) s = .next (settled s (body (begun p b) b (admitted p b c s.dev))) := by
  rw [run_settled, runOp_admits h]

/-! ### Completion and flight -/

/-- Completing a packet takes it out of flight and touches no other. -/
theorem finish_flight (p : Packet) (st : W16) (x : List Byte) (d : Device) : (finish p st x d).cmd.flight = (dropPacket p d).cmd.flight := by
  have hq : ∀ r (e : Device), (queueRecord r e).cmd.flight = e.cmd.flight := by
    intro r e; unfold queueRecord; split; rfl; split <;> rfl
  have hs : ∀ c r (e : Device), (sendReply c r e).cmd.flight = e.cmd.flight := by
    intro c r e; unfold sendReply; split <;> rfl
  unfold finish; dsimp only
  by_cases hst : st = stAuthFail
  · rw [if_pos hst]; split
    · rfl
    · split
      · rw [hq]
      · rw [hs]
  · rw [if_neg hst]; split
    · rfl
    · split
      · rw [hq]
      · rw [hs]

/-- A completed packet is in flight no more. -/
theorem findPacket_finish (p : Packet) (st : W16) (x : List Byte) (d : Device) : findPacket (finish p st x d) (refOf p) = none := by
  unfold findPacket
  rw [finish_flight]
  unfold dropPacket refOf
  rw [List.find?_eq_none]
  intro q hq
  simp only [List.mem_filter] at hq
  simpa [Classical.or_iff_not_imp_left] using hq.2

/-- Completing one packet puts no other in flight. -/
theorem findPacket_finish_none {p : Packet} {st : W16} {x : List Byte} {d : Device} {r : Ref} (h : findPacket d r = none) :
    findPacket (finish p st x d) r = none := by
  unfold findPacket at *
  rw [finish_flight]
  unfold dropPacket
  rw [List.find?_eq_none] at *
  intro q hq
  exact h q (List.mem_filter.mp hq).1

/-- The packet a name finds bears that name. -/
theorem refOf_of_find {d : Device} {r : Ref} {p : Packet} (h : findPacket d r = some p) : refOf p = r := by
  unfold findPacket at h
  have := List.find?_some h
  simp at this
  unfold refOf
  cases r
  simp_all

theorem coreAlive_of_ready {d : Device} (h : isReady d = true) : coreAlive d = true := by
  unfold isReady at h
  simp at h
  exact h.1

/-! ### What acceptance leaves alone -/

@[simp] theorem admitted_host (p : Packet) (b : List Byte) (c : Option Nat) (d : Device) : (admitted p b c d).host = d.host := by
  unfold admitted; rw [acceptPacket_host, startPacket_host]
@[simp] theorem admitted_mem (p : Packet) (b : List Byte) (c : Option Nat) (d : Device) : (admitted p b c d).mem = d.mem := by
  unfold admitted; rw [acceptPacket_mem, startPacket_mem]
@[simp] theorem admitted_serve (p : Packet) (b : List Byte) (c : Option Nat) (d : Device) : (admitted p b c d).serve = d.serve := by
  unfold admitted; rw [acceptPacket_serve, startPacket_serve]
@[simp] theorem admitted_fix (p : Packet) (b : List Byte) (c : Option Nat) (d : Device) : (admitted p b c d).fix = d.fix := by
  unfold admitted; rw [acceptPacket_fix, startPacket_fix]
@[simp] theorem admitted_gauge (p : Packet) (b : List Byte) (c : Option Nat) (d : Device) : (admitted p b c d).gauge = d.gauge := by
  unfold admitted; rw [acceptPacket_gauge, startPacket_gauge]
@[simp] theorem admitted_knots (p : Packet) (b : List Byte) (c : Option Nat) (d : Device) : (admitted p b c d).knots = d.knots := by
  unfold admitted; rw [acceptPacket_knots, startPacket_knots]
@[simp] theorem admitted_link (p : Packet) (b : List Byte) (c : Option Nat) (d : Device) : (admitted p b c d).link = d.link := by
  unfold admitted; rw [acceptPacket_link, startPacket_link]
@[simp] theorem admitted_flash (p : Packet) (b : List Byte) (c : Option Nat) (d : Device) : (admitted p b c d).flash = d.flash := by
  unfold admitted; rw [acceptPacket_flash, startPacket_flash]
@[simp] theorem admitted_dram (p : Packet) (b : List Byte) (c : Option Nat) (d : Device) : (admitted p b c d).dram = d.dram := by
  unfold admitted; rw [acceptPacket_dram, startPacket_dram]
@[simp] theorem admitted_pwr (p : Packet) (b : List Byte) (c : Option Nat) (d : Device) : (admitted p b c d).pwr = d.pwr := by
  unfold admitted; rw [acceptPacket_pwr, startPacket_pwr]
@[simp] theorem admitted_audit (p : Packet) (b : List Byte) (c : Option Nat) (d : Device) : (admitted p b c d).audit = d.audit := by
  unfold admitted; rw [acceptPacket_audit, startPacket_audit]
@[simp] theorem admitted_boot (p : Packet) (b : List Byte) (c : Option Nat) (d : Device) : (admitted p b c d).boot = d.boot := by
  unfold admitted; rw [acceptPacket_boot, startPacket_boot]
@[simp] theorem admitted_panel (p : Packet) (b : List Byte) (c : Option Nat) (d : Device) : (admitted p b c d).panel = d.panel := by
  unfold admitted; rw [acceptPacket_panel, startPacket_panel]
@[simp] theorem admitted_tiles (p : Packet) (b : List Byte) (c : Option Nat) (d : Device) : (admitted p b c d).tiles = d.tiles := by
  unfold admitted; rw [acceptPacket_tiles, startPacket_tiles]
@[simp] theorem admitted_fab (p : Packet) (b : List Byte) (c : Option Nat) (d : Device) : (admitted p b c d).fab = d.fab := by
  unfold admitted; rw [acceptPacket_fab, startPacket_fab]
@[simp] theorem admitted_clock (p : Packet) (b : List Byte) (c : Option Nat) (d : Device) : (admitted p b c d).clock = d.clock := by
  unfold admitted; rw [acceptPacket_clock, startPacket_clock]
@[simp] theorem admitted_freeCtr (p : Packet) (b : List Byte) (c : Option Nat) (d : Device) : (admitted p b c d).freeCtr = d.freeCtr := by
  unfold admitted; rw [acceptPacket_freeCtr, startPacket_freeCtr]

end Sys2Proof.Machine
end

