-- ==== Sys2Proof/Laws/Knots.lean ====
section
/-! SUPPORT. What evaluating and signalling a knot does and leaves alone (R329, R330). -/

namespace Sys2Proof.Machine

theorem finish_frame (p : Packet) (st : BitVec 16) (r : List Byte) (d : Device) : finish p st r d = { d with cmd := (finish p st r d).cmd } := by
  show (⟨(finish p st r d).host, (finish p st r d).cmd, (finish p st r d).sec, (finish p st r d).mem, (finish p st r d).serve,
    (finish p st r d).fix, (finish p st r d).gauge, (finish p st r d).knots, (finish p st r d).link, (finish p st r d).flash,
    (finish p st r d).dram, (finish p st r d).pwr, (finish p st r d).audit, (finish p st r d).boot, (finish p st r d).panel,
    (finish p st r d).tiles, (finish p st r d).fab, (finish p st r d).clock, (finish p st r d).freeCtr⟩ : Device) = _
  simp only [finish_host, finish_sec, finish_mem, finish_serve, finish_fix, finish_gauge, finish_knots, finish_link, finish_flash,
    finish_dram, finish_pwr, finish_audit, finish_boot, finish_panel, finish_tiles, finish_fab, finish_clock, finish_freeCtr]

theorem endWait_frame (v : W32) (w : KnotWaiter) (d : Device) : endWait v d w = { d with cmd := (endWait v d w).cmd } := by
  unfold endWait
  split
  · exact finish_frame _ _ _ _
  · rfl

theorem endWaits_frame (v : W32) (l : List KnotWaiter) (d : Device) :
    l.foldl (endWait v) d = { d with cmd := (l.foldl (endWait v) d).cmd } := by
  induction l generalizing d with
  | nil => rfl
  | cons w l ih => rw [List.foldl_cons, ih, endWait_frame]

/-- Every packet of a list of satisfied waits leaves flight. -/
theorem endWaits_find (v : W32) (r : Ref) (l : List KnotWaiter) (d : Device) (h : findPacket d r = none ∨ ∃ w ∈ l, w.ref = r) :
    findPacket (l.foldl (endWait v) d) r = none := by
  induction l generalizing d with
  | nil => rcases h with h | ⟨w, hw, _⟩
           · exact h
           · cases hw
  | cons w l ih =>
    rw [List.foldl_cons]
    apply ih
    by_cases hw : w.ref = r
    · left
      unfold endWait
      split
      · next p hf => rw [← hw, ← refOf_of_find hf]; exact findPacket_finish _ _ _ _
      · next hf => rw [← hw]; exact hf
    · rcases h with h | ⟨w', hm, he⟩
      · left
        unfold endWait
        split
        · exact findPacket_finish_none h
        · exact h
      · right
        rcases List.mem_cons.mp hm with rfl | hm
        · exact absurd he hw
        · exact ⟨w', hm, he⟩

/-- Evaluating a knot's waits changes no knot; it takes the satisfied waits away, completes their packets and wakes vector lists. -/
theorem knotEvaluate_frame (k : Nat) (d : Device) : knotEvaluate k d =
    { d with
      knots := { d.knots with waiters := d.knots.waiters.filter fun w => !waitDone k (knotOf d k).value w }
      cmd := (knotEvaluate k d).cmd
      tiles := (knotEvaluate k d).tiles } := by
  unfold knotEvaluate
  dsimp only
  rw [endWaits_frame]

theorem knotEvaluate_knots (k : Nat) (d : Device) : (knotEvaluate k d).knots.knots = d.knots.knots := by rw [knotEvaluate_frame]

theorem knotOf_put (d : Device) (k j : Nat) (v : W32) :
    knotOf (knotPut k v d) j = if j = k then { knotOf d k with value := v } else knotOf d j :=
  SMap.get_modify ({} : Knot) d.knots.knots k j (fun x => { x with value := v })

theorem knotPut_wf (d : Device) (k : Nat) (v : W32) (h : SMap.wf ({} : Knot) d.knots.knots = true) :
    SMap.wf ({} : Knot) (knotPut k v d).knots.knots = true := by
  have := SMap.wf_modify ({} : Knot) d.knots.knots k (fun x => { x with value := v }) h
  exact this

end Sys2Proof.Machine
end

