-- ==== Sys2Proof/Laws/Tiles.lean ====
section
/-! SUPPORT. What the arrays and the vector engine of a tile change, and what they leave alone (R126 to R187). -/

namespace Sys2Proof.Machine

theorem tileOf_onTile (t j : Nat) (f : TileState → TileState) (d : Device) :
    tileOf (onTile t f d) j = if j = t then f (tileOf d t) else tileOf d j :=
  SMap.get_modify ({} : TileState) d.tiles t j f

theorem tileOf_onTile_self (t : Nat) (f : TileState → TileState) (d : Device) : tileOf (onTile t f d) t = f (tileOf d t) := by
  rw [tileOf_onTile, if_pos rfl]

theorem tileOf_onTile_other {t j : Nat} (h : j ≠ t) (f : TileState → TileState) (d : Device) : tileOf (onTile t f d) j = tileOf d j := by
  rw [tileOf_onTile, if_neg h]

theorem arrayOf_onArray (a b : Nat) (f : ArrayState → ArrayState) (ts : TileState) :
    arrayOf (onArray a f ts) b = if b = a then f (arrayOf ts a) else arrayOf ts b :=
  SMap.get_modify ({} : ArrayState) ts.arrays a b f

theorem leBytes_length (n v : Nat) : (leBytes n v).length = n := by
  induction n generalizing v with
  | zero => rfl
  | succ n ih => simp [leBytes, ih]

/-! ### Writes of a list on a tile -/

/-- What a tile's own work may change in its status block and registers. -/
def TileState.Worked (a b : TileState) : Prop := b = { a with
  tregs := b.tregs, texp := b.texp, va := b.va, consts := b.consts, program := b.program, lanes := b.lanes
  fxRows := b.fxRows, fxElems := b.fxElems, sat := b.sat, invalid := b.invalid, ovfRows := b.ovfRows }

theorem TileState.Worked.refl (a : TileState) : a.Worked a := rfl

theorem TileState.Worked.trans {a b c : TileState} (h : a.Worked b) (k : b.Worked c) : a.Worked c := by
  unfold TileState.Worked at *
  rw [k, h]

theorem TileState.Worked.foldl {α : Type} (f : TileState → α → TileState) (l : List α) (h : ∀ (a : TileState) (x : α), a.Worked (f a x)) (a : TileState) :
    a.Worked (l.foldl f a) := by
  induction l generalizing a with
  | nil => exact .refl _
  | cons x l ih => exact (h a x).trans (ih _)

/-- What a drain or a vector descriptor may change: its own tile, the bytes of some ranges of that tile's store, the job's records, and the
partial rows on their way. -/
structure TileWork (t : Nat) (outs : List (Nat × Nat)) (d e : Device) : Prop where
  rest : e = { d with
    tiles := e.tiles, fab := e.fab, serve := e.serve, freeCtr := e.freeCtr, link := e.link
    mem := { d.mem with partials := e.mem.partials } }
  others : ∀ j, j ≠ t → tileOf e j = tileOf d j
  own : (tileOf d t).Worked (tileOf e t)
  bytes : ∀ x, (∀ o ∈ outs, x < tileBase t + o.1 ∨ tileBase t + o.1 + o.2 ≤ x) → Mem.byte e.fab x = Mem.byte d.fab x

theorem TileWork.refl (t : Nat) (outs : List (Nat × Nat)) (d : Device) : TileWork t outs d d :=
  ⟨rfl, fun _ _ => rfl, .refl _, fun _ _ => rfl⟩

theorem TileWork.trans {t : Nat} {outs : List (Nat × Nat)} {a b c : Device} (h : TileWork t outs a b) (k : TileWork t outs b c) :
    TileWork t outs a c := by
  refine ⟨?_, fun j hj => (k.others j hj).trans (h.others j hj), h.own.trans k.own, fun x hx => (k.bytes x hx).trans (h.bytes x hx)⟩
  rw [k.rest, h.rest]

theorem TileWork.foldl {α : Type} {t : Nat} {outs : List (Nat × Nat)} (f : Device → α → Device) (l : List α)
    (h : ∀ d, ∀ x ∈ l, TileWork t outs d (f d x)) (d : Device) : TileWork t outs d (l.foldl f d) := by
  induction l generalizing d with
  | nil => exact .refl _ _ _
  | cons x l ih => exact (h d x (List.mem_cons_self ..)).trans (ih (fun d y hy => h d y (List.mem_cons_of_mem _ hy)) _)

theorem TileWork.onTile (t : Nat) (outs : List (Nat × Nat)) (f : TileState → TileState) (d : Device)
    (h : (tileOf d t).Worked (f (tileOf d t))) : TileWork t outs d (onTile t f d) :=
  ⟨rfl, fun _ hj => tileOf_onTile_other hj f d, by rw [tileOf_onTile_self]; exact h, fun _ _ => rfl⟩

theorem TileWork.onJob (t : Nat) (outs : List (Nat × Nat)) (n : Byte) (j : W32) (f : Job → Job) (d : Device) :
    TileWork t outs d (onJob n j f d) :=
  ⟨rfl, fun _ _ => rfl, .refl _, fun _ _ => rfl⟩

/-- A write inside one of the ranges. -/
theorem TileWork.store {t off : Nat} {bs : List Byte} {outs : List (Nat × Nat)} {d : Device} {o : Nat × Nat} (ho : o ∈ outs)
    (h1 : o.1 ≤ off) (h2 : off + bs.length ≤ o.1 + o.2) : TileWork t outs d (storeWrite t off bs d) := by
  refine ⟨rfl, fun _ _ => rfl, .refl _, fun x hx => ?_⟩
  rw [storeWrite_fab, Mem.byte_store, if_neg]
  have := hx o ho
  omega

theorem countEvents_work (t : Nat) (outs : List (Nat × Nat)) (l : QList) (ev : NumEv) (d : Device) :
    TileWork t outs d (countEvents t l ev d) := by
  unfold countEvents
  dsimp only
  split
  · exact .onTile t outs _ d (by unfold TileState.Worked; rfl)
  · exact (TileWork.onTile t outs _ d (by unfold TileState.Worked; rfl)).trans (.onJob _ _ _ _ _ _)

theorem observe_work (t : Nat) (outs : List (Nat × Nat)) (l : QList) (site : Nat) (x : Option Int) (d : Device) :
    TileWork t outs d (observe l site x d) := by
  unfold observe
  split
  · exact .refl _ _ _
  · exact .onJob _ _ _ _ _ _

theorem flatMap_leBytes_length (k : Nat) (es : List Nat) : (es.flatMap fun e => leBytes k e).length = k * es.length := by
  induction es with
  | nil => simp
  | cons e es ih => simp [leBytes_length, ih]; ring

theorem writeRow_work (t a i : Nat) (p : PassDesc) (x : Int) (es : List Nat) (d : Device) :
    TileWork t (rowOuts p a i es) d (writeRow t a i p x es d) := by
  unfold writeRow rowOuts
  dsimp only
  split
  · exact .onTile _ _ _ _ (by unfold TileState.Worked; rfl)
  · refine TileWork.trans (.store (o := (p.out.getD a 0 + i * p.outStride, p.elem * es.length)) (by simp) (le_refl _)
      (by rw [flatMap_leBytes_length])) ?_
    split
    · exact .store (o := (p.outExp.getD a 0 + i, 1)) (by simp) (le_refl _) (le_refl _)
    · exact .refl _ _ _

theorem countRow_work (t : Nat) (outs : List (Nat × Nat)) (l : QList) (site row : Nat) (d : Device) :
    TileWork t outs d (countRow t l site row d) := by
  unfold countRow
  split
  · refine .onTile _ _ _ _ ?_
    split
    · exact .refl _
    · unfold TileState.Worked; rfl
  · dsimp only
    split <;> split
    all_goals first
      | exact .refl _ _ _
      | exact (TileWork.onJob _ _ _ _ _ d).trans (.onTile _ _ _ _ (by unfold TileState.Worked; rfl))

theorem sendPartial_work (t : Nat) (outs : List (Nat × Nat)) (n : Byte) (jid : W32) (j : Job) (st : StepRun) (a : AtomicSite) (row : Nat)
    (es : List W32) (d : Device) : TileWork t outs d (sendPartial n jid j st a row es d) := by
  unfold sendPartial
  split
  · exact .refl _ _ _
  · dsimp only
    split <;> exact ⟨rfl, fun _ _ => rfl, .refl _, fun _ _ => rfl⟩

theorem drainPartial_work (t : Nat) (outs : List (Nat × Nat)) (l : QList) (site row col : Nat) (es : List Nat) (d : Device) :
    TileWork t outs d (drainPartial t l site row col es d) := by
  unfold drainPartial
  split
  · exact .refl _ _ _
  · split
    · dsimp only
      split
      · exact (TileWork.onJob _ _ _ _ _ d).trans (sendPartial_work ..)
      · exact .onJob _ _ _ _ _ _
    · exact .refl _ _ _

theorem drainPending_work (t : Nat) (f : FlightPass) (x : PendingRow) (d : Device) :
    TileWork t (x.outs f) d (drainPending t f x d) := by
  unfold drainPending
  dsimp only
  have h : TileWork t (x.outs f) d (if x.ev.rows = 0 then countEvents t f.list { x.ev with rows := 0 } d
      else countRow t f.list (passDesc f.raw).site (stepRow f x) (countEvents t f.list { x.ev with rows := 0 } d)) := by
    split
    · exact countEvents_work ..
    · exact (countEvents_work ..).trans (countRow_work ..)
  by_cases hc : x.carry = true
  · rw [if_pos hc]
    exact h
  · rw [if_neg hc]
    have w : ∀ e, TileWork t (x.outs f) e (writeRow t x.array x.row (passDesc f.raw) x.xsite x.elems e) := by
      intro e
      unfold PendingRow.outs
      rw [if_neg hc]
      exact writeRow_work ..
    have v : ∀ e, TileWork t (x.outs f) e (if f.list.origin != .skein then e
        else drainPartial t f.list (passDesc f.raw).site (stepRow f x) x.col x.elems e) := by
      intro e
      split
      · exact .refl _ _ _
      · exact drainPartial_work ..
    have o : ∀ e, TileWork t (x.outs f) e (if (passDesc f.raw).fx then observe f.list (passDesc f.raw).site x.obs e else e) := by
      intro e
      split
      · exact observe_work ..
      · exact .refl _ _ _
    exact ((h.trans (w _)).trans (v _)).trans (o _)

theorem TileWork.mono {t : Nat} {l m : List (Nat × Nat)} {d e : Device} (h : TileWork t l d e) (hm : ∀ o ∈ l, o ∈ m) : TileWork t m d e :=
  ⟨h.rest, h.others, h.own, fun x hx => h.bytes x fun o ho => hx o (hm o ho)⟩

/-- What the drains of a pass change: their tile, the ranges of their rows, the job's records and the partial rows on their way. -/
theorem drainRows_work (t : Nat) (f : FlightPass) (rows : List PendingRow) (d : Device) :
    TileWork t (rows.flatMap (PendingRow.outs f)) d (drainRows t f rows d) := by
  unfold drainRows
  refine .foldl _ _ (fun e x hx => (drainPending_work t f x e).mono fun o ho => List.mem_flatMap.mpr ⟨x, hx, ho⟩) d

/-! ### A pass -/

theorem get_foldl_set {α β : Type} [DecidableEq β] (b0 : β) (key : α → Nat) (val : α → β) (l : List α) (m : SMap β) (k : Nat)
    (h : ∀ x ∈ l, key x ≠ k) : SMap.get b0 (l.foldl (fun m x => SMap.set b0 m (key x) (val x)) m) k = SMap.get b0 m k := by
  induction l generalizing m with
  | nil => rfl
  | cons y l ih =>
    rw [List.foldl_cons, ih _ (fun x hx => h x (List.mem_cons_of_mem _ hx)), SMap.get_set, if_neg]
    exact fun e => h y (List.mem_cons_self ..) e.symm

theorem get_foldl_set_mem {α β : Type} [DecidableEq β] (b0 : β) (key : α → Nat) (val : α → β) (l : List α) (m : SMap β)
    (hn : (l.map key).Nodup) {x : α} (hx : x ∈ l) :
    SMap.get b0 (l.foldl (fun m x => SMap.set b0 m (key x) (val x)) m) (key x) = val x := by
  induction l generalizing m with
  | nil => cases hx
  | cons y l ih =>
    rw [List.foldl_cons]
    rw [List.map_cons, List.nodup_cons] at hn
    rcases List.mem_cons.mp hx with rfl | hx
    · rw [get_foldl_set, SMap.get_set, if_pos rfl]
      intro z hz e
      exact hn.1 (List.mem_map.mpr ⟨z, hz, e⟩)
    · exact ih _ hn.2 hx

theorem arrays_nodup (p : PassDesc) : p.arrays.Nodup := List.Nodup.filter _ List.nodup_range

theorem passResults_keys (t : Nat) (l : QList) (p : PassDesc) (d : Device) : (passResults t l p d).map (·.1) = p.arrays := by
  unfold passResults
  simp [Function.comp_def]

theorem releaseSlot_frame (t : Nat) (l : QList) (d : Device) :
    releaseSlot t l d = { d with mem := { d.mem with windows := (releaseSlot t l d).mem.windows } } := by
  unfold releaseSlot
  split <;> rfl

/-- An issued pass changes its own tile, and may release the slot of its layer (R208); its drains come with its completion. -/
theorem issuePass_frame (t : Nat) (l : QList) (p : PassDesc) (d : Device) : issuePass t l p d =
    { onTile t (issueTile t l p d) d with mem := { d.mem with windows := (issuePass t l p d).mem.windows } } := by
  unfold issuePass
  exact releaseSlot_frame t l (onTile t (issueTile t l p d) d)

theorem tileOf_issuePass (t : Nat) (l : QList) (p : PassDesc) (d : Device) (k : Nat) :
    tileOf (issuePass t l p d) k = tileOf (onTile t (issueTile t l p d) d) k := by rw [issuePass_frame]; rfl

/-- The arrays of an issued pass, and the others. -/
theorem issueTile_array (t : Nat) (l : QList) (p : PassDesc) (d : Device) (ts : TileState) (a : Nat) :
    (a ∉ p.arrays → arrayOf (issueTile t l p d ts) a = arrayOf ts a) ∧
    (a ∈ p.arrays → ∃ r start dp, (a, r) ∈ passResults t l p d ∧
      arrayOf (issueTile t l p d ts) a = afterPass p (usedHdr t p d a) (readyArray t p d a) r start dp) := by
  unfold issueTile arrayOf
  dsimp only
  refine ⟨fun h => ?_, fun h => ?_⟩
  · refine get_foldl_set ({} : ArrayState) _ _ _ _ _ fun x hx e => h ?_
    rw [← passResults_keys t l p d, ← e]
    exact List.mem_map_of_mem hx
  · rw [← passResults_keys t l p d] at h
    obtain ⟨x, hx, rfl⟩ := List.mem_map.mp h
    exact ⟨x.2, _, _, hx, get_foldl_set_mem ({} : ArrayState) _ _ _ _ (by rw [passResults_keys]; exact arrays_nodup p) hx⟩

/-! ### The plan of the Fixed plane -/

/-- A pass in flight without the rows that have yet to drain. -/
def FlightPass.bare (f : FlightPass) : FlightPass := { f with rows := [] }

/-- What the drains and the moves of a plan may change in a tile. -/
def TileState.Planned (a b : TileState) : Prop :=
  ({ a with flight := [] } : TileState).Worked { b with flight := [] } ∧ b.flight.map FlightPass.bare = a.flight.map FlightPass.bare

theorem TileState.Planned.refl (a : TileState) : a.Planned a := ⟨.refl _, rfl⟩
theorem TileState.Planned.trans {a b c : TileState} (h : a.Planned b) (k : b.Planned c) : a.Planned c := ⟨h.1.trans k.1, k.2.trans h.2⟩

theorem TileState.Worked.planned {a b : TileState} (h : a.Worked b) : a.Planned b := by
  refine ⟨?_, ?_⟩
  · unfold TileState.Worked at *; rw [h]
  · rw [h]

/-- What the plan may change as it runs on a tile. -/
structure PlanWork (t : Nat) (d e : Device) : Prop where
  rest : e = { d with
    tiles := e.tiles, fab := e.fab, serve := e.serve, freeCtr := e.freeCtr, link := e.link
    mem := { d.mem with partials := e.mem.partials }, fix := { d.fix with plan := e.fix.plan } }
  others : ∀ j, j ≠ t → tileOf e j = tileOf d j
  own : (tileOf d t).Planned (tileOf e t)

theorem PlanWork.refl (t : Nat) (d : Device) : PlanWork t d d := ⟨rfl, fun _ _ => rfl, .refl _⟩

theorem PlanWork.trans {t : Nat} {a b c : Device} (h : PlanWork t a b) (k : PlanWork t b c) : PlanWork t a c := by
  refine ⟨?_, fun j hj => (k.others j hj).trans (h.others j hj), h.own.trans k.own⟩
  rw [k.rest, h.rest]

theorem TileWork.plan {t : Nat} {outs : List (Nat × Nat)} {d e : Device} (h : TileWork t outs d e) : PlanWork t d e :=
  ⟨by rw [h.rest], h.others, h.own.planned⟩

theorem drainTo_plan (t c : Nat) (d : Device) : PlanWork t d (drainTo t c d) := by
  unfold drainTo
  let left := fun (f : FlightPass) => f.rows.filter fun x => decide (rowDone f x > c)
  refine PlanWork.trans (b := onTile t (fun ts => { ts with flight := ts.flight.map fun f => { f with rows := left f } }) d) ⟨rfl, fun j hj => tileOf_onTile_other hj _ _, ?_⟩ ?_
  · rw [tileOf_onTile_self]
    refine ⟨rfl, ?_⟩
    simp [List.map_map, Function.comp_def, FlightPass.bare]
  · generalize onTile t _ d = e
    generalize (tileOf d t).flight = l
    induction l generalizing e with
    | nil => exact .refl _ _
    | cons f l ih => exact ((drainRows_work ..).plan).trans (ih _)

theorem carryBlock_plan (t : Nat) (m : BusMove) (d : Device) : PlanWork t d (carryBlock t m d) := by
  unfold carryBlock
  split
  · exact .refl _ _
  · dsimp only
    split <;> exact ⟨rfl, fun _ _ => rfl, .refl _⟩

theorem planTo_plan (i t c fuel : Nat) (d : Device) : PlanWork t d (planTo i t c fuel d) := by
  induction fuel generalizing d with
  | zero => exact drainTo_plan ..
  | succ n ih =>
    unfold planTo
    split
    · exact drainTo_plan ..
    · dsimp only
      split
      · exact ((drainTo_plan ..).trans (carryBlock_plan ..)).trans (ih _)
      · exact drainTo_plan ..

/-- What the plan of a tile changes on its way to a cycle: rows that drain and blocks that move, and nothing else (R308). -/
theorem runPlan_plan (t c : Nat) (d : Device) : PlanWork t d (runPlan t c d) := by
  unfold runPlan
  split
  · exact .refl _ _
  · exact planTo_plan ..

/-! ### A vector descriptor -/

/-- The ranges of the tile store that a descriptor writes: a STORE's rows and row exponents, and nothing else (R163). -/
def vecOuts (v : VecDesc) : List (Nat × Nat) :=
  if v.kind ≠ kStore then []
  else if v.acc then [(field v.raw 16 4, 256)]
  else
    (List.range (field v.raw 28 1)).map (fun i => (field v.raw 16 4 + i * field v.raw 20 4, slotRow (v.src.getD 0 (slotOf 0)) v.span)) ++
    if bitOf (field v.raw 29 1) 0 then [(field v.raw 24 4, field v.raw 28 1)] else []

theorem putRow_worked (rs : List Nat) (row : Nat) (els : List (List W16)) (ts : TileState) : ts.Worked (putRow rs row els ts) := rfl
theorem putExp_worked (rs : List Nat) (row : Nat) (x : Int) (ts : TileState) : ts.Worked (putExp rs row x ts) := rfl
theorem putVa_worked (k e v : Nat) (ts : TileState) : ts.Worked (putVa k e v ts) := rfl

theorem stitchRow_worked (free : Nat) (v : VecDesc) (prog : List Stitch) (cs : List W32) (kill : List Nat) (span j : Nat) (s : StitchRun)
    (row : Nat) : s.ts.Worked (stitchRow free v prog cs kill span j s row).ts := by
  unfold stitchRow
  dsimp only
  split <;> split <;> exact rfl

theorem commitRow_worked (v : VecDesc) (s : Slot) (m row : Nat) (ops : List (Option Nat)) (ts : TileState) :
    ts.Worked (commitRow v s m row ops ts).1 := by
  unfold commitRow
  dsimp only
  split
  · exact .refl _
  · split
    · exact putVa_worked _ _ _ _
    · refine TileState.Worked.trans (TileState.Worked.foldl _ _ (fun a x => ?_) ts) (putExp_worked _ _ _ _)
      exact rfl

theorem stitchRun_worked {α : Type} (f : StitchRun → α → StitchRun) (l : List α) (h : ∀ (s : StitchRun) (x : α), s.ts.Worked (f s x).ts) (s : StitchRun) :
    s.ts.Worked (l.foldl f s).ts := by
  induction l generalizing s with
  | nil => exact .refl _
  | cons x l ih => exact (h s x).trans (ih _)

theorem accum_worked {α : Type} (f : TileState × NumEv → α → TileState × NumEv) (l : List α) (h : ∀ (s : TileState × NumEv) (x : α), s.1.Worked (f s x).1)
    (s : TileState × NumEv) : s.1.Worked (l.foldl f s).1 := by
  induction l generalizing s with
  | nil => exact .refl _
  | cons x l ih => exact (h s x).trans (ih _)

theorem stitchAll_worked (free : Nat) (kill : List Nat) (v : VecDesc) (cs ws : List W32) (ts : TileState) :
    ts.Worked (stitchAll free kill v cs ws ts).ts := by
  unfold stitchAll
  dsimp only
  have h0 : ts.Worked { ts with consts := cs, program := ws, lanes := [] } := rfl
  exact h0.trans (stitchRun_worked _ _ (fun s x => stitchRun_worked _ _ (fun s y => stitchRow_worked ..) _)
    { ts := { ts with consts := cs, program := ws, lanes := [] }, fx := List.replicate 2 (List.replicate 64 []), ev := {} })

theorem stitchExec_worked (free : Nat) (kill : List Nat) (v : VecDesc) (cs ws : List W32) (ts : TileState) :
    ts.Worked (stitchExec free kill v cs ws ts).1 := by
  unfold stitchExec
  exact (stitchAll_worked free kill v cs ws ts).trans (accum_worked _ _ (fun s x => by
    unfold commitSlot
    exact accum_worked _ _ (fun s y => by dsimp only; exact commitRow_worked ..) s) (_, _))

theorem reduceExec_worked (kill : List Nat) (v : VecDesc) (ts : TileState) : ts.Worked (reduceExec kill v ts).1 := by
  unfold reduceExec
  dsimp only
  split
  · exact accum_worked _ _ (fun s x => putVa_worked ..) (ts, ({} : NumEv))
  · refine accum_worked _ _ (fun s x => ?_) (ts, ({} : NumEv))
    split
    · exact .refl _
    · exact putVa_worked ..

theorem loadExec_work (t : Nat) (outs : List (Nat × Nat)) (kill : List Nat) (v : VecDesc) (d : Device) :
    TileWork t outs d (loadExec t kill v d) := by
  unfold loadExec
  dsimp only
  split
  · exact .onTile _ _ _ _ (TileState.Worked.foldl _ _ (fun a x => putVa_worked ..) _)
  · refine .onTile _ _ _ _ (TileState.Worked.foldl _ _ (fun a x => ?_) _)
    split
    · exact .refl _
    · have h : ∀ (bs : List Byte) (a : TileState), a.Worked ((List.range v.span).foldl (fun ts j =>
          let half := fun k => (List.range 64).map fun n =>
            word16 bs ((if (v.dst.getD 0 (slotOf 0)).wide then 4 else 2) * (64 * j + n) + 2 * k)
          let ts := { ts with tregs := SMap.set [] ts.tregs ((v.dst.getD 0 (slotOf 0)).reg j * 64 + x) (half 0) }
          if (v.dst.getD 0 (slotOf 0)).wide then
            { ts with tregs := SMap.set [] ts.tregs (((v.dst.getD 0 (slotOf 0)).reg j + 1) * 64 + x) (half 1) } else ts) a) := by
        intro bs a
        refine TileState.Worked.foldl _ _ (fun b j => ?_) a
        dsimp only
        split <;> exact rfl
      split
      · exact (h _ a).trans (putExp_worked ..)
      · exact h _ a

theorem sum_rows_length (els : List (List W16)) (f : List W16 → List Byte) (k : Nat) (h : ∀ e, (f e).length = k) :
    (els.flatMap f).length = els.length * k := by
  induction els with
  | nil => simp
  | cons e els ih => simp [h, ih]; ring

theorem storeRow_length (ts : TileState) (s : Slot) (span row : Nat) :
    ((List.range span).flatMap fun j => (rowElems ts row).flatMap fun e => leBytes (if s.wide then 4 else 2) (slotElem s j e)).length =
      slotRow s span := by
  have h : ∀ j, ((rowElems ts row).flatMap fun e => leBytes (if s.wide then 4 else 2) (slotElem s j e)).length =
      64 * if s.wide then 4 else 2 := by
    intro j
    rw [sum_rows_length _ _ (if s.wide then 4 else 2) (fun e => leBytes_length _ _)]
    unfold rowElems
    simp
  have g : ∀ n, ((List.range n).flatMap fun j => (rowElems ts row).flatMap fun e =>
      leBytes (if s.wide then 4 else 2) (slotElem s j e)).length = n * (64 * if s.wide then 4 else 2) := by
    intro n
    induction n with
    | zero => simp
    | succ n ih => rw [List.range_succ, List.flatMap_append, List.length_append, ih]; simp only [List.flatMap_cons, List.flatMap_nil, List.append_nil, h]; ring
  rw [g]
  unfold slotRow
  ring

theorem storeExec_work (t : Nat) (kill : List Nat) (v : VecDesc) (d : Device) (hk : v.kind = kStore) :
    TileWork t (vecOuts v) d (storeExec t kill v d) := by
  unfold storeExec
  dsimp only
  split
  · next ha =>
    refine .store (o := (field v.raw 16 4, 256)) (by unfold vecOuts; rw [if_neg (by simp [hk]), if_pos ha]; simp) (le_refl _) ?_
    have h : ∀ (l : List Nat) (f : Nat → Nat), (l.flatMap fun e => leBytes 4 (f e)).length = 4 * l.length := by
      intro l f
      induction l with
      | nil => rfl
      | cons x l ih => simp [leBytes_length, ih]; ring
    rw [h, List.length_range]
  · next ha =>
    refine TileWork.foldl _ _ (fun d i hi => ?_) d
    have hi := List.mem_range.mp hi
    split
    · exact .refl _ _ _
    · have w : ∀ (ts : TileState) (e : Device), TileWork t (vecOuts v) e (storeWrite t (field v.raw 16 4 + i * field v.raw 20 4)
          ((List.range v.span).flatMap fun j => (rowElems ts i).flatMap fun e =>
            leBytes (if (v.src.getD 0 (slotOf 0)).wide then 4 else 2) (slotElem (v.src.getD 0 (slotOf 0)) j e)) e) := by
        intro ts e
        refine .store (o := (field v.raw 16 4 + i * field v.raw 20 4, slotRow (v.src.getD 0 (slotOf 0)) v.span)) ?_ (le_refl _) ?_
        · unfold vecOuts
          rw [if_neg (by simp [hk]), if_neg ha]
          exact List.mem_append_left _ (List.mem_map.mpr ⟨i, List.mem_range.mpr hi, rfl⟩)
        · rw [storeRow_length]
      have x : ∀ (b : Byte) (e : Device), bitOf (field v.raw 29 1) 0 = true →
          TileWork t (vecOuts v) e (storeWrite t (field v.raw 24 4 + i) [b] e) := by
        intro b e hb
        refine .store (o := (field v.raw 24 4, field v.raw 28 1)) ?_ (by dsimp only; omega) (by simp only [List.length_cons, List.length_nil]; omega)
        unfold vecOuts
        rw [if_neg (by simp [hk]), if_neg ha, if_pos hb]
        exact List.mem_append_right _ (List.mem_cons_self ..)
      split
      · next hb => exact (w _ d).trans (x _ _ hb)
      · exact w _ d

/-- What STITCH, REDUCE, LOAD and STORE change. -/
theorem vecEffect_work (t : Nat) (l : QList) (v : VecDesc) (d : Device)
    (hk : v.kind = kStitch ∨ v.kind = kReduce ∨ v.kind = kLoad ∨ v.kind = kStore) : TileWork t (vecOuts v) d (vecEffect t l v d) := by
  unfold vecEffect
  dsimp only
  split
  · refine TileWork.trans (b := spend (v.span * 4096 * elemFree) d) ⟨rfl, fun _ _ => rfl, .refl _, fun _ _ => rfl⟩ ?_
    exact (TileWork.onTile _ _ _ _ (stitchExec_worked ..)).trans (countEvents_work ..)
  · split
    · exact (TileWork.onTile _ _ _ _ (reduceExec_worked ..)).trans (countEvents_work ..)
    · split
      · exact loadExec_work ..
      · next h1 h2 h3 => exact storeExec_work _ _ _ _ (by tauto)

/-! ### What follows a list -/

theorem ledgerEvent_frame (k : W16) (x : List Byte) (d : Device) (t : Byte) : ledgerEvent k x d t = { d with sec := (ledgerEvent k x d t).sec } := by
  unfold ledgerEvent ledgerWrite
  dsimp only
  split
  · unfold ledgerCommit
    split <;> rfl
  · split <;> rfl

theorem retireCheck_frame (t : Nat) (d : Device) : retireCheck t d = { d with sec := (retireCheck t d).sec } := by
  unfold retireCheck
  split
  · rfl
  · split
    · rfl
    · split
      · rfl
      · rw [ledgerEvent_frame]

/-- A change of a page's counts touches its pool, and retires a generation that no page bears any more (R252, R386). -/
theorem onPage_frame (t k : Nat) (f : PageInfo → PageInfo) (d : Device) :
    onPage t k f d = { d with serve := (onPage t k f d).serve, sec := (onPage t k f d).sec } := by
  unfold onPage
  dsimp only
  rw [retireCheck_frame]
  rfl

theorem unpinPages_frame (l : List Nat) (t : Nat) (d : Device) : l.foldl (fun d n => unpinPage t n d) d =
    { d with serve := (l.foldl (fun d n => unpinPage t n d) d).serve, sec := (l.foldl (fun d n => unpinPage t n d) d).sec } := by
  induction l generalizing d with
  | nil => rfl
  | cons n l ih => rw [List.foldl_cons, ih]; unfold unpinPage; rw [onPage_frame]

theorem unpinStep_frame (t : Nat) (st : StepRun) (d : Device) : unpinStep t st d =
    { d with serve := (unpinStep t st d).serve, sec := (unpinStep t st d).sec } := by
  unfold unpinStep
  generalize st.pins = l
  induction l generalizing d with
  | nil => rfl
  | cons n l ih => obtain ⟨k, ks⟩ := n; rw [List.foldl_cons, ih]; dsimp only; rw [unpinPages_frame]

/-- The check of a job's layers changes jobs, page pins, the key generations that no page bears any more and the messages that wait to
be sent, and nothing else (R260, R357, R386, R497). -/
theorem layerCheck_frame (t : Byte) (j : W32) (d : Device) : layerCheck t j d =
    { d with serve := (layerCheck t j d).serve, sec := (layerCheck t j d).sec, link := (layerCheck t j d).link } := by
  have hw : ∀ (jb : Job) (st : StepRun) (b : Bool) (e : Device), workerDone t j jb st b e =
      { e with serve := (workerDone t j jb st b e).serve, sec := (workerDone t j jb st b e).sec, link := (workerDone t j jb st b e).link } := by
    intro jb st b e
    unfold workerDone
    split
    · split
      · rfl
      · dsimp only
        unfold onJob
        rw [unpinStep_frame]
        rfl
    · rfl
  unfold layerCheck
  split
  · rfl
  · split
    · rfl
    · dsimp only
      rw [hw]
      rfl

@[simp] theorem layerCheck_tiles (t : Byte) (j : W32) (d : Device) : (layerCheck t j d).tiles = d.tiles := by rw [layerCheck_frame]
@[simp] theorem layerCheck_fab (t : Byte) (j : W32) (d : Device) : (layerCheck t j d).fab = d.fab := by rw [layerCheck_frame]
@[simp] theorem layerCheck_knots (t : Byte) (j : W32) (d : Device) : (layerCheck t j d).knots = d.knots := by rw [layerCheck_frame]
@[simp] theorem layerCheck_cmd (t : Byte) (j : W32) (d : Device) : (layerCheck t j d).cmd = d.cmd := by rw [layerCheck_frame]
@[simp] theorem layerCheck_mem (t : Byte) (j : W32) (d : Device) : (layerCheck t j d).mem = d.mem := by rw [layerCheck_frame]

@[simp] theorem tileOf_settle (d : Device) (k : Nat) : tileOf (settle d) k = tileOf d k := by unfold tileOf; rw [settle_tiles]
@[simp] theorem knotOf_settle (d : Device) (k : Nat) : knotOf (settle d) k = knotOf d k := by unfold knotOf; rw [settle_knots]
@[simp] theorem tileOf_layerCheck (t : Byte) (j : W32) (d : Device) (k : Nat) : tileOf (layerCheck t j d) k = tileOf d k := by
  unfold tileOf; rw [layerCheck_tiles]
@[simp] theorem knotOf_layerCheck (t : Byte) (j : W32) (d : Device) (k : Nat) : knotOf (layerCheck t j d) k = knotOf d k := by
  unfold knotOf; rw [layerCheck_knots]

/-! ### A knot's signal as the tiles see it -/

theorem get_map_tiles (f : TileState → TileState) (hf : f {} = {}) (m : SMap TileState) (k : Nat) :
    SMap.get {} (m.map fun x => (x.1, f x.2)) k = f (SMap.get {} m k) := by
  induction m with
  | nil => exact hf.symm
  | cons p m ih =>
    simp only [List.map_cons, SMap.get]
    split
    · rfl
    · exact ih

theorem tileOf_knotEvaluate (k : Nat) (d : Device) (j : Nat) :
    tileOf (knotEvaluate k d) j = wakeVec k (knotOf d k).value (tileOf d j) := by
  have h : ∀ e : Device, e.tiles = d.tiles → SMap.get {} (e.tiles.map fun (t, ts) => (t, wakeVec k (knotOf d k).value ts)) j =
      wakeVec k (knotOf d k).value (tileOf d j) := by
    intro e he
    rw [he]
    exact get_map_tiles _ rfl _ j
  exact h _ (by rw [endWaits_frame])

theorem wakeVec_of_idle (k : Nat) (v : W32) (ts : TileState) (h : ts.vwait = none) : wakeVec k v ts = ts := by
  unfold wakeVec; rw [h]

/-- What a signal changes on a tile: a vector list that waits may go on. -/
theorem wakeVec_frame (k : Nat) (v : W32) (ts : TileState) :
    wakeVec k v ts = { ts with vwait := (wakeVec k v ts).vwait, vflight := (wakeVec k v ts).vflight } := by
  unfold wakeVec
  split
  · split <;> rfl
  · rfl

/-- A descriptor's knot field signals by one the knot that it names, and no other (R147, R161). -/
theorem knotOf_signalField (f : Nat) (d : Device) (n : Nat) : (knotOf (knotSignalField f d) n).value =
    if bitOf f 31 = true ∧ n = f % 65536 then BitVec.ofNat 32 (((knotOf d n).value.toNat + 1) % knotModulus (knotOf d n))
    else (knotOf d n).value := by
  unfold knotSignalField
  split
  · next h =>
    have e : ∀ x : Device, knotOf (knotEvaluate (f % 65536) x) n = knotOf x n := by
      intro x; unfold knotOf; rw [knotEvaluate_knots]
    unfold knotSignal
    dsimp only
    rw [e, knotOf_put]
    by_cases hn : n = f % 65536
    · subst hn; rw [if_pos rfl, if_pos ⟨h, rfl⟩]
    · rw [if_neg hn, if_neg (fun x => hn x.2)]
  · next h => rw [if_neg (fun x => h x.1)]

theorem tileOf_signalField (f : Nat) (d : Device) (k : Nat) : tileOf (knotSignalField f d) k =
    { tileOf d k with vwait := (tileOf (knotSignalField f d) k).vwait, vflight := (tileOf (knotSignalField f d) k).vflight } := by
  unfold knotSignalField
  split
  · unfold knotSignal
    dsimp only
    rw [tileOf_knotEvaluate, wakeVec_frame]
    rfl
  · rfl

theorem tileOf_signalField_idle (f : Nat) (d : Device) (k : Nat) (h : (tileOf d k).vwait = none) :
    tileOf (knotSignalField f d) k = tileOf d k := by
  unfold knotSignalField
  split
  · unfold knotSignal
    dsimp only
    rw [tileOf_knotEvaluate]
    exact wakeVec_of_idle _ _ _ h
  · rfl

@[simp] theorem knotSignalField_fab (f : Nat) (d : Device) : (knotSignalField f d).fab = d.fab := by
  unfold knotSignalField
  split
  · unfold knotSignal; rw [knotEvaluate_frame]; rfl
  · rfl

end Sys2Proof.Machine
end

