-- ==== Sys2Proof/Laws/Serve.lean ====
section
/-! SUPPORT. What the effects of serving leave alone: token slots and list queueing change the fabric and the queues only. -/

namespace Sys2Proof.Machine

/-- Two states that agree on jobs, requests, sequences and tile queues. -/
structure SameServe (d e : Device) : Prop where
  serve : e.serve = d.serve
  mem : e.mem = d.mem
  tiles : e.tiles = d.tiles

theorem SameServe.rfl' (d : Device) : SameServe d d := ⟨rfl, rfl, rfl⟩

theorem SameServe.trans {d e f : Device} (h : SameServe d e) (g : SameServe e f) : SameServe d f :=
  ⟨g.serve.trans h.serve, g.mem.trans h.mem, g.tiles.trans h.tiles⟩

/-- A fold of steps that keep them keeps them. -/
theorem SameServe.foldl {α : Type} (f : Device → α → Device) (h : ∀ d x, SameServe d (f d x)) (l : List α) (d : Device) :
    SameServe d (l.foldl f d) := by
  induction l generalizing d with
  | nil => exact .rfl' d
  | cons x l ih => exact (h d x).trans (ih _)

theorem fabWrite_same (a : Nat) (bs : List Byte) (d : Device) : SameServe d (fabWrite a bs d) := by
  rw [fabWrite_frame]; exact ⟨rfl, rfl, rfl⟩

theorem fillSlot_same (addr mode width slot : Nat) (k v : List Int) (kx vx : Int) (d : Device) :
    SameServe d (fillSlot addr mode width slot k v kx vx d) := by
  unfold fillSlot
  dsimp only
  repeat refine .trans ?_ (fabWrite_same ..)
  exact .rfl' d

theorem storeWrite_same (t off : Nat) (bs : List Byte) (d : Device) : SameServe d (storeWrite t off bs d) := ⟨rfl, rfl, rfl⟩

theorem storePut_same (t off : Nat) (bs : List Byte) (d : Device) : SameServe d (storePut t off bs d) := by
  unfold storePut
  split
  · exact storeWrite_same ..
  · exact .rfl' d

/-- The rows that a step writes into pages change the fabric only (R248, R266). -/
theorem placeRow_same (j : Job) (st : StepRun) (x : AttnAt) (s : Seq) (row pos g : Nat) (d : Device) :
    SameServe d (placeRow j st x s row pos g d) := by
  unfold placeRow
  split
  · split
    · exact .rfl' d
    · exact fillSlot_same ..
  · exact .rfl' d

theorem placeRows_same (j : Job) (st : StepRun) (x : AttnAt) (w : WalkRows) (d : Device) : SameServe d (placeRows j st x w d) := by
  unfold placeRows
  split
  · exact .rfl' d
  · exact SameServe.foldl _ (fun d i => SameServe.foldl _ (fun d g => placeRow_same ..) _ d) _ d

/-- Placing lists changes the fabric only. -/
theorem placeList_same (l : ListSpec) (d : Device) : SameServe d (placeList l d) := storePut_same ..

/-- The list that LAYER_QUEUE adds goes to the end of its tile's queue. -/
theorem tileOf_queueList (t : Byte) (jid : W32) (ep : W16) (layer : Nat) (dr : Bool) (kill : List Nat) (l : ListSpec) (d : Device) (k : Nat) :
    (tileOf (queueList t jid ep layer dr kill l d) k).passes.map (·.addr) =
      (tileOf d k).passes.map (·.addr) ++ (if l.tile.toNat = k ∧ l.vector = false then [l.addr.toNat] else []) ∧
    (tileOf (queueList t jid ep layer dr kill l d) k).vecs.map (·.addr) =
      (tileOf d k).vecs.map (·.addr) ++ (if l.tile.toNat = k ∧ l.vector = true then [l.addr.toNat] else []) := by
  unfold queueList; dsimp only
  rw [tileOf_onTile]
  by_cases hk : k = l.tile.toNat
  · subst hk
    rw [if_pos rfl]
    cases l.vector <;> simp
  · rw [if_neg hk]
    simp [Ne.symm hk]

/-- Queueing lists touches no job, request or sequence. -/
theorem queueList_serve (t : Byte) (jid : W32) (ep : W16) (layer : Nat) (dr : Bool) (kill : List Nat) (l : ListSpec) (d : Device) :
    (queueList t jid ep layer dr kill l d).serve = d.serve := rfl

/-- The same for all the lists of a layer. -/
theorem queueList_fold (t : Byte) (jid : W32) (ep : W16) (layer : Nat) (dr : Bool) (kill : List Nat) (ls : List ListSpec) (d : Device) (k : Nat) :
    (ls.foldl (fun d q => queueList t jid ep layer dr kill q d) d).serve = d.serve ∧
    (tileOf (ls.foldl (fun d q => queueList t jid ep layer dr kill q d) d) k).passes.map (·.addr) =
      (tileOf d k).passes.map (·.addr) ++ ((ls.filter fun l => l.tile.toNat == k && !l.vector).map (·.addr.toNat)) ∧
    (tileOf (ls.foldl (fun d q => queueList t jid ep layer dr kill q d) d) k).vecs.map (·.addr) =
      (tileOf d k).vecs.map (·.addr) ++ ((ls.filter fun l => l.tile.toNat == k && l.vector).map (·.addr.toNat)) := by
  induction ls generalizing d with
  | nil => simp
  | cons l ls ih =>
    rw [List.foldl_cons]
    obtain ⟨h1, h2, h3⟩ := ih (queueList t jid ep layer dr kill l d)
    obtain ⟨g1, g2⟩ := tileOf_queueList t jid ep layer dr kill l d k
    refine ⟨h1.trans (queueList_serve ..), ?_, ?_⟩
    · rw [h2, g1, List.filter_cons]
      by_cases a : l.tile.toNat = k <;> cases l.vector <;> simp [a]
    · rw [h3, g2, List.filter_cons]
      by_cases a : l.tile.toNat = k <;> cases l.vector <;> simp [a]

/-- No row of the layer's walks meets a retired entry: none ends (R249). -/
theorem endRetired_none (c : WalkCtx) (d : Device) (h : ∀ w ∈ rowsOf c.st c.l c.x.draft, meetsRetired d w.seq c.x.a.layer = false) :
    endRetired c d = d := by
  unfold endRetired
  generalize rowsOf c.st c.l c.x.draft = l at h
  induction l with
  | nil => rfl
  | cons w l ih =>
    rw [List.foldl_cons, h w (List.mem_cons_self ..)]
    exact ih fun y hy => h y (List.mem_cons_of_mem _ hy)

end Sys2Proof.Machine
end

