-- ==== Sys2Proof/Laws/Links.lean ====
section
/-! SUPPORT. What the operations of the yarn links do to the ports. -/

namespace Sys2Proof.Machine

theorem portOf_onPort (p j : Nat) (f : LinkPort → LinkPort) (d : Device) :
    portOf (onPort p f d) j = if j = p then f (portOf d p) else portOf d j := SMap.get_modify ({} : LinkPort) d.link.ports p j f

@[simp] theorem portOf_onPort_self (p : Nat) (f : LinkPort → LinkPort) (d : Device) : portOf (onPort p f d) p = f (portOf d p) := by
  rw [portOf_onPort, if_pos rfl]

/-- What does not touch the links does not touch a port. -/
theorem portOf_link {d e : Device} (h : e.link = d.link) (j : Nat) : portOf e j = portOf d j := by unfold portOf; rw [h]

@[simp] theorem portOf_settle (d : Device) (j : Nat) : portOf (settle d) j = portOf d j := portOf_link (settle_link d) j
@[simp] theorem portOf_advanceTo (t : Nat) (d : Device) (j : Nat) : portOf (advanceTo t d) j = portOf d j := portOf_link (advanceTo_link t d) j

theorem changePort_link (p : Nat) (f : LinkPort → LinkPort) (d : Device) : (changePort p f d).link = (onPort p f d).link := by
  unfold changePort ledgerLink
  dsimp only
  split
  · rw [ledgerEvent_link]; split <;> split <;> rfl
  · split <;> split <;> rfl

/-- A change of a port changes that port. -/
theorem portOf_changePort (p j : Nat) (f : LinkPort → LinkPort) (d : Device) :
    portOf (changePort p f d) j = if j = p then f (portOf d p) else portOf d j := by
  rw [portOf_link (changePort_link p f d), portOf_onPort]

theorem changePort_clock (p : Nat) (f : LinkPort → LinkPort) (d : Device) : (changePort p f d).clock = d.clock := by
  unfold changePort ledgerLink
  dsimp only
  split
  · rw [ledgerEvent_clock]; split <;> split <;> rfl
  · split <;> split <;> rfl

/-- A port that enters a new state sets DEV_EVENT.LINK (R343). -/
theorem changePort_event (p : Nat) (f : LinkPort → LinkPort) (d : Device) (h : (f (portOf d p)).state ≠ (portOf d p).state) :
    (changePort p f d).host.event.getLsbD evLink = true := by
  have key : (setEvent evLink (onPort p f d)).host.event.getLsbD evLink = true := by
    simp [setEvent, evLink]
  have hs : ¬ (portOf (onPort p f d) p).state = (portOf d p).state := by rw [portOf_onPort_self]; exact h
  unfold changePort ledgerLink
  dsimp only
  rw [if_neg hs]
  split
  · rw [ledgerEvent_host]; split <;> exact key
  · split <;> exact key

/-! ### Sending -/

theorem port_onPort (p j : Nat) (f : LinkPort → LinkPort) (k : LinkPart) :
    (k.onPort p f).port j = if j = p then f (k.port p) else k.port j := SMap.get_modify ({} : LinkPort) k.ports p j f

/-- A port without the traffic on it: its state, its width, its training, its mode. -/
def LinkPort.bare (x : LinkPort) : LinkPort := { x with sent := 0, replay := [], credits := [], freed := [], waiting := [], wire := [] }

/-- A change of a port's traffic leaves the rest of every port. -/
theorem bare_onPort (p j : Nat) (f : LinkPort → LinkPort) (k : LinkPart) (h : ∀ x, (f x).bare = x.bare) :
    ((k.onPort p f).port j).bare = (k.port j).bare := by
  rw [port_onPort]
  split
  · next e => rw [h, e]
  · rfl

theorem bare_idle (p j : Nat) (k : LinkPart) : ((k.idle p).port j).bare = (k.port j).bare := by
  unfold LinkPart.idle
  exact bare_onPort _ _ _ _ fun x => by split <;> rfl

theorem bare_freeHeld (w : Waiting) (j : Nat) (k : LinkPart) : ((k.freeHeld w).port j).bare = (k.port j).bare := by
  unfold LinkPart.freeHeld
  split
  · exact bare_onPort _ _ _ _ fun _ => rfl
  · rfl

theorem bare_pumpLink (now p j fuel : Nat) (k : LinkPart) : ((pumpLink now p fuel k).port j).bare = (k.port j).bare := by
  induction fuel generalizing k with
  | zero => exact bare_idle ..
  | succ n ih =>
    unfold pumpLink
    dsimp only
    split
    · exact bare_idle ..
    · split
      · exact bare_idle ..
      · rw [ih, bare_freeHeld]
        exact bare_onPort _ _ _ _ fun _ => rfl

/-- Sending a message changes the links and nothing else of the device. -/
theorem sendMsg_frame (m : OutMsg) (d : Device) : sendMsg m d = { d with link := (sendMsg m d).link } := rfl

/-- It changes no port but for the traffic that waits on it or has gone out. -/
theorem bare_sendMsg (m : OutMsg) (d : Device) (j : Nat) : (portOf (sendMsg m d) j).bare = (portOf d j).bare := by
  show ((sendLink m d).port j).bare = _
  unfold sendLink
  split
  · rfl
  · split
    · rfl
    · dsimp only
      rw [bare_pumpLink]
      rw [bare_onPort]
      · unfold LinkPart.counter
        split <;> rfl
      · intro x
        rfl

theorem sendMsg_state (m : OutMsg) (d : Device) (j : Nat) : (portOf (sendMsg m d) j).state = (portOf d j).state :=
  by have h := congrArg LinkPort.state (bare_sendMsg m d j); exact h

theorem sendMsg_lanes (m : OutMsg) (d : Device) (j : Nat) : (portOf (sendMsg m d) j).lanes = (portOf d j).lanes :=
  by have h := congrArg LinkPort.lanes (bare_sendMsg m d j); exact h

/-! ### Leaving UP -/

/-- A fold of steps that leave the ports leaves them. -/
theorem portOf_foldl {α : Type} (f : Device → α → Device) (h : ∀ d x j, portOf (f d x) j = portOf d j) (l : List α) (d : Device) (j : Nat) :
    portOf (l.foldl f d) j = portOf d j := by
  induction l generalizing d with
  | nil => rfl
  | cons x l ih => exact (ih _).trans (h d x j)

@[simp] theorem portOf_twinLost (d : Device) (j : Nat) : portOf (twinLost d) j = portOf d j := by
  unfold twinLost
  rw [portOf_foldl]
  · rfl
  · intro d x j
    dsimp only
    split
    · rfl
    · split
      · split
        · exact portOf_link (refuse_link ..) j
        · rfl
      · rfl

@[simp] theorem portOf_leaveUp (w : LinkPort) (d : Device) (j : Nat) : portOf (leaveUp w d) j = portOf d j := by
  unfold leaveUp; split
  · exact portOf_twinLost d j
  · rfl

end Sys2Proof.Machine
end

