-- ==== Sys2Proof/Laws/Resets.lean ====
section
/-! SUPPORT. How a start-up ends, and what the beginning of a reset leaves. -/

namespace Sys2Proof.Machine

/-- The rest of a start-up that something stops. -/
theorem runStartUp_stops {kind source : Byte} {full : Bool} {env : BootEnv} {step code : Nat} (d : Device)
    (h : startFault kind full env = some (step, code)) : ∃ e, runStartUp kind source full env d = stopAt step code e := by
  unfold runStartUp
  rw [h]
  exact ⟨_, rfl⟩

/-- A start-up that something stops ends in FAULT at that step. -/
theorem startUp_stops {kind source : Byte} {env : BootEnv} {d : Device} {step code : Nat}
    (h : startFault kind (kind == kindCold || kind == kindSupply || (kind == kindFault && source == 4 && d.boot.dramFault)) env =
      some (step, code)) : ∃ e, startUp kind source env d = stopAt step code e := by
  unfold startUp
  dsimp only
  split
  · exact runStartUp_stops _ h
  · exact runStartUp_stops _ h

/-- A start-up that nothing stops ends with step 10. -/
theorem startUp_ends {kind source : Byte} {env : BootEnv} {d : Device}
    (h : startFault kind (kind == kindCold || kind == kindSupply || (kind == kindFault && source == 4 && d.boot.dramFault)) env =
      none) : ∃ e, startUp kind source env d = stepTen e := by
  unfold startUp
  dsimp only
  rw [if_neg (by rw [h]; simp)]
  unfold runStartUp
  rw [h]
  exact ⟨_, rfl⟩

/-- Step 10 is READY, or the wait. -/
theorem stepTen_cases (d : Device) : ((stepTen d).boot.phase = .ready ∧ (stepTen d).boot.waitFrom = none) ∨
    ((stepTen d).boot.step = 10 ∧ (stepTen d).boot.waitFrom.isSome = true) := by
  unfold stepTen
  split
  · exact .inl ⟨rfl, rfl⟩
  · exact .inr ⟨rfl, rfl⟩

end Sys2Proof.Machine
end

