-- ==== Sys2Proof/Laws/Frames.lean ====
section
/-! SUPPORT. What the operations that several commands share leave as it was: the ledger, parked steps, self-refresh, the ports and the
end of a step. -/

namespace Sys2Proof.Machine

/-! ### The ledger -/

/-- A ledger write changes the ledger, its chain and the buffer of Onyx, and nothing else (R406, R408). -/
theorem ledgerWrite_frame (b : LedgerBody) (d : Device) : ledgerWrite b d = { d with sec := { d.sec with
    ledger := (ledgerWrite b d).sec.ledger, nextSeq := (ledgerWrite b d).sec.nextSeq, chain := (ledgerWrite b d).sec.chain
    buffer := (ledgerWrite b d).sec.buffer } } := by
  unfold ledgerWrite
  split
  · unfold ledgerCommit; split <;> rfl
  · split <;> rfl

theorem ledgerEvent_write (k : W16) (x : List Byte) (d : Device) (t : Byte) (st : W16) (c : Byte) : ledgerEvent k x d t st c = { d with
    sec := { d.sec with
      ledger := (ledgerEvent k x d t st c).sec.ledger, nextSeq := (ledgerEvent k x d t st c).sec.nextSeq
      chain := (ledgerEvent k x d t st c).sec.chain, buffer := (ledgerEvent k x d t st c).sec.buffer } } :=
  ledgerWrite_frame _ d

theorem ledgerAct_write (p : Packet) (k : W16) (x : List Byte) (t : Byte) (st : W16) (d : Device) : ledgerAct p k x t st d = { d with
    sec := { d.sec with
      ledger := (ledgerAct p k x t st d).sec.ledger, nextSeq := (ledgerAct p k x t st d).sec.nextSeq
      chain := (ledgerAct p k x t st d).sec.chain, buffer := (ledgerAct p k x t st d).sec.buffer } } :=
  ledgerWrite_frame _ d

theorem ledgerCommits_frame (l : List LedgerBody) (d : Device) : l.foldl (fun d b => ledgerCommit b d) d = { d with sec := { d.sec with
    ledger := (l.foldl (fun d b => ledgerCommit b d) d).sec.ledger, nextSeq := (l.foldl (fun d b => ledgerCommit b d) d).sec.nextSeq
    chain := (l.foldl (fun d b => ledgerCommit b d) d).sec.chain } } := by
  induction l generalizing d with
  | nil => rfl
  | cons b l ih => rw [List.foldl_cons, ih]; unfold ledgerCommit; split <;> rfl

theorem ledgerFlush_frame (d : Device) : ledgerFlush d = { d with sec := { d.sec with
    ledger := (ledgerFlush d).sec.ledger, nextSeq := (ledgerFlush d).sec.nextSeq, chain := (ledgerFlush d).sec.chain
    buffer := [] } } := by
  unfold ledgerFlush
  rw [ledgerCommits_frame]

/-- The end of a session: no session, and DEV_EVENT.ROLE where there was one (R396). -/
theorem endSession_frame (cause : Nat) (d : Device) : endSession cause d = { d with
    host := (endSession cause d).host
    sec := { d.sec with
      session := none, ledger := (endSession cause d).sec.ledger, nextSeq := (endSession cause d).sec.nextSeq
      chain := (endSession cause d).sec.chain, buffer := (endSession cause d).sec.buffer } } := by
  unfold endSession
  split
  · next h => rw [← h]
  · rw [ledgerEvent_write]; rfl

theorem endSession_event (cause : Nat) (d : Device) (n : Nat) (h : d.host.event.getLsbD n = true) :
    (endSession cause d).host.event.getLsbD n = true := by
  unfold endSession
  split
  · exact h
  · rw [ledgerEvent_write]; simp [setEvent, h]

theorem endSession_role (cause : Nat) (d : Device) {x : Session} (h : d.sec.session = some x) :
    (endSession cause d).host.event.getLsbD evRole = true := by
  unfold endSession; rw [h]; dsimp only
  rw [ledgerEvent_write]
  simp [setEvent, evRole]

/-! ### Operations of a step: buffers, jobs, requests and DRAM, and nothing else -/

/-- Only buffers, serving, Fabric bytes and DRAM channels may differ. -/
structure StepOnly (d e : Device) : Prop where
  eq : e = { d with mem := e.mem, serve := e.serve, fab := e.fab, dram := e.dram }

theorem StepOnly.refl (d : Device) : StepOnly d d := ⟨rfl⟩

theorem StepOnly.trans {a b c : Device} (h : StepOnly a b) (k : StepOnly b c) : StepOnly a c := by
  refine ⟨?_⟩
  have h1 := h.eq; have k1 := k.eq
  rw [h1] at k1
  exact k1

theorem StepOnly.foldl {α : Type} (f : Device → α → Device) (h : ∀ d x, StepOnly d (f d x)) (l : List α) (d : Device) :
    StepOnly d (l.foldl f d) := by
  induction l generalizing d with
  | nil => exact .refl d
  | cons x l ih => exact (h d x).trans (ih _)

theorem fabWrite_only (a : Nat) (bs : List Byte) (d : Device) : StepOnly d (fabWrite a bs d) := by
  rw [fabWrite_frame]; exact ⟨rfl⟩

theorem extWrite_only (t slot i off : Nat) (bs : List Byte) (d : Device) : StepOnly d (extWrite t slot i off bs d) := by
  unfold extWrite
  split
  · exact .refl d
  · next e _ =>
    have home : ∀ d, StepOnly d (match e.home with | some h => fabWrite (h + off) bs d | none => d) := by
      intro d; split
      · exact fabWrite_only ..
      · exact .refl d
    have copy : ∀ d, StepOnly d (match e.copy with | some c => fabWrite (c + off) bs d | none => d) := by
      intro d; split
      · exact fabWrite_only ..
      · exact .refl d
    dsimp only
    split
    · exact home d
    · exact home d
    · exact home d
    · exact copy d
    · exact (copy d).trans ⟨rfl⟩
    · exact (copy d).trans (home _)
    · exact .refl d
    · exact .refl d
    · exact .refl d

theorem bufWrite_only (t slot : Nat) (b : Buffer) (off : Nat) (bs : List Byte) (d : Device) : StepOnly d (bufWrite t slot b off bs d) :=
  StepOnly.foldl _ (fun _ _ => extWrite_only ..) _ d

theorem touch_only (t slot : Nat) (b : Buffer) (off n : Nat) (d : Device) : StepOnly d (touch t slot b off n d) :=
  StepOnly.foldl _ (fun _ _ => ⟨rfl⟩) _ d

theorem outWrite_only (r : Request) (off : Nat) (bs : List Byte) (d : Device) : StepOnly d (outWrite r off bs d) := by
  unfold outWrite
  split
  · split
    · exact .refl d
    · exact (bufWrite_only ..).trans (touch_only ..)
  · exact .refl d

theorem setReqState_only (ref : Ref) (st : Nat) (d : Device) : StepOnly d (setReqState ref st d) := by
  unfold setReqState
  split
  · exact StepOnly.trans ⟨rfl⟩ (outWrite_only ..)
  · exact .refl d

theorem parkStep_only (t : Byte) (j : W32) (why : ParkWhy) (d : Device) : StepOnly d (parkStep t j why d) := by
  unfold parkStep
  split
  · exact .refl d
  · split
    · exact .refl d
    · dsimp only
      split
      · exact ⟨rfl⟩
      · refine StepOnly.trans ?_ (StepOnly.foldl _ (fun d x => StepOnly.trans ⟨rfl⟩ (setReqState_only ..)) _ _)
        exact ⟨rfl⟩

theorem unparkStep_only (t : Byte) (j : W32) (why : ParkWhy) (d : Device) : StepOnly d (unparkStep t j why d) := by
  unfold unparkStep
  split
  · exact .refl d
  · split
    · exact .refl d
    · dsimp only
      split
      · exact ⟨rfl⟩
      · refine StepOnly.trans ?_ (StepOnly.foldl _ (fun d x => ?_) _ _)
        · exact ⟨rfl⟩
        · split
          · exact setReqState_only ..
          · exact .refl d

theorem eachStep_only (f : Byte → W32 → Device → Device) (h : ∀ t j d, StepOnly d (f t j d)) (d : Device) : StepOnly d (eachStep f d) :=
  StepOnly.foldl _ (fun d x => by split; exact h ..; exact .refl d) _ d

theorem drainAll_only (c n : Nat) (d : Device) : StepOnly d (drainAll c n d) := by
  induction n generalizing d with
  | zero => exact .refl d
  | succ n ih => exact StepOnly.trans (b := drainOne c d) (by rw [drainOne_frame]; exact ⟨rfl⟩) (ih _)

theorem enterSelfRefresh_only (c : Nat) (d : Device) : StepOnly d (enterSelfRefresh c d) :=
  (drainAll_only ..).trans ⟨rfl⟩

theorem channelsDown_only (d : Device) : StepOnly d (channelsDown d) := StepOnly.foldl _ (fun _ _ => enterSelfRefresh_only ..) _ d

theorem channelsUp_only (d : Device) : StepOnly d (channelsUp d) := by
  unfold channelsUp
  split
  · exact .refl d
  · exact StepOnly.foldl _ (fun _ _ => ⟨rfl⟩) _ d

/-! ### Fabric bytes through the channels -/

theorem drainAll_fab (c n : Nat) (d : Device) : (drainAll c n d).fab = d.fab := by
  induction n generalizing d with
  | zero => rfl
  | succ n ih => unfold drainAll; rw [ih, drainOne_fab]

theorem enterSelfRefresh_fab (c : Nat) (d : Device) : (enterSelfRefresh c d).fab = d.fab := drainAll_fab ..

theorem channelsDown_fab (d : Device) : (channelsDown d).fab = d.fab := by
  unfold channelsDown
  generalize List.range 32 = l
  induction l generalizing d with
  | nil => rfl
  | cons c l ih => rw [List.foldl_cons, ih, enterSelfRefresh_fab]

/-! ### A wake source -/

/-- A wake source leaves all but the low-power state, the ledger and what the steps write (R523). -/
structure WakeOnly (d e : Device) : Prop where
  host : e.host = d.host
  fix : e.fix = d.fix
  clock : e.clock = d.clock
  pwr : e.pwr = d.pwr
  cmd : e.cmd = d.cmd
  sec : e.sec = { d.sec with ledger := e.sec.ledger, nextSeq := e.sec.nextSeq, chain := e.sec.chain, buffer := e.sec.buffer }

theorem StepOnly.wake {d e : Device} (h : StepOnly d e) : WakeOnly d e := by
  have k := h.eq
  rw [k]
  exact ⟨rfl, rfl, rfl, rfl, rfl, rfl⟩

theorem WakeOnly.trans {a b c : Device} (h : WakeOnly a b) (k : WakeOnly b c) : WakeOnly a c := by
  refine ⟨k.host.trans h.host, k.fix.trans h.fix, k.clock.trans h.clock, k.pwr.trans h.pwr, k.cmd.trans h.cmd, ?_⟩
  have h1 := h.sec; have k1 := k.sec
  rw [h1] at k1
  exact k1

theorem ledgerLp_wake (d : Device) : WakeOnly d (ledgerLp d) := by
  unfold ledgerLp; rw [ledgerEvent_write]; exact ⟨rfl, rfl, rfl, rfl, rfl, rfl⟩

theorem wakeUp_only (code : Nat) (d : Device) : WakeOnly d (wakeUp code d) := by
  have start : ∀ (d : Device) b, WakeOnly d { d with boot := b } := fun _ _ => ⟨rfl, rfl, rfl, rfl, rfl, rfl⟩
  have unpark : ∀ d, WakeOnly d (eachStep (fun t j => unparkStep t j .doze) d) := fun d =>
    (eachStep_only _ (fun t j d => unparkStep_only ..) d).wake
  unfold wakeUp
  dsimp only
  split
  · exact ⟨rfl, rfl, rfl, rfl, rfl, rfl⟩
  · split
    · exact start _ _
    · split
      · exact (start _ _).trans (unpark _)
      · exact start _ _
    · split
      · unfold leaveDoze
        refine WakeOnly.trans (WakeOnly.trans (WakeOnly.trans ?_ (channelsUp_only _).wake) (unpark _)) (ledgerLp_wake _)
        exact start _ _
      · exact start _ _
      · exact start _ _

/-! ### Ports and the steps they end -/

/-- Start-up, low power and the Fixed plane stand. -/
structure PlaneKept (d e : Device) : Prop where
  boot : e.boot = d.boot
  fix : e.fix = d.fix
  clock : e.clock = d.clock
  gauge : e.gauge = d.gauge
  pwr : e.pwr = d.pwr

theorem PlaneKept.refl (d : Device) : PlaneKept d d := ⟨rfl, rfl, rfl, rfl, rfl⟩

theorem PlaneKept.trans {a b c : Device} (h : PlaneKept a b) (k : PlaneKept b c) : PlaneKept a c :=
  ⟨k.boot.trans h.boot, k.fix.trans h.fix, k.clock.trans h.clock, k.gauge.trans h.gauge, k.pwr.trans h.pwr⟩

theorem PlaneKept.foldl {α : Type} (f : Device → α → Device) (h : ∀ d x, PlaneKept d (f d x)) (l : List α) (d : Device) :
    PlaneKept d (l.foldl f d) := by
  induction l generalizing d with
  | nil => exact .refl d
  | cons x l ih => exact (h d x).trans (ih _)

theorem PlaneKept.ite {c : Prop} [Decidable c] {a b d : Device} (ha : PlaneKept d a) (hb : PlaneKept d b) :
    PlaneKept d (if c then a else b) := by
  split
  · exact ha
  · exact hb

theorem StepOnly.plane {d e : Device} (h : StepOnly d e) : PlaneKept d e := by
  have k := h.eq
  rw [k]
  exact ⟨rfl, rfl, rfl, rfl, rfl⟩

theorem ledgerEvent_plane (k : W16) (x : List Byte) (d : Device) (t : Byte) (st : W16) (c : Byte) : PlaneKept d (ledgerEvent k x d t st c) := by
  rw [ledgerEvent_write]; exact ⟨rfl, rfl, rfl, rfl, rfl⟩

theorem dropRef_plane (t k : Nat) (d : Device) : PlaneKept d (dropRef t k d) := by
  unfold dropRef; rw [onPage_frame]; exact ⟨rfl, rfl, rfl, rfl, rfl⟩

theorem unpinPage_plane (t k : Nat) (d : Device) : PlaneKept d (unpinPage t k d) := by
  unfold unpinPage; rw [onPage_frame]; exact ⟨rfl, rfl, rfl, rfl, rfl⟩

theorem syncList_plane (i : Nat) (d : Device) : PlaneKept d (syncList i d) := by
  unfold syncList
  split
  · exact .refl d
  · exact PlaneKept.foldl _ (fun _ _ => (fabWrite_only ..).plane) _ d

theorem onSeq_plane (i : Nat) (f : Seq → Seq) (d : Device) : PlaneKept d (onSeq i f d) := ⟨rfl, rfl, rfl, rfl, rfl⟩

theorem shrinkList_plane (i : Nat) (d : Device) : PlaneKept d (shrinkList i d) := by
  unfold shrinkList
  split
  · exact .refl d
  · dsimp only
    exact (onSeq_plane _ _ _).trans (PlaneKept.foldl _ (fun _ _ => dropRef_plane ..) _ _)

theorem cutEntries_plane (i keep : Nat) (d : Device) : PlaneKept d (cutEntries i keep d) := by
  unfold cutEntries
  split
  · exact .refl d
  · dsimp only
    exact (((onSeq_plane _ _ _).trans (PlaneKept.foldl _ (fun _ _ => dropRef_plane ..) _ _)).trans (shrinkList_plane _ _)).trans
      (syncList_plane _ _)

theorem rollback_plane (i : Nat) (d : Device) : PlaneKept d (rollback i d) := by
  unfold rollback
  split
  · exact .refl d
  · dsimp only
    split
    · exact .refl d
    · exact (cutEntries_plane ..).trans (onSeq_plane ..)

theorem rollbackPair_plane (i : Nat) (d : Device) : PlaneKept d (rollbackPair i d) := by
  unfold rollbackPair
  split
  · exact (rollback_plane ..).trans (rollback_plane ..)
  · exact rollback_plane ..

theorem unpinStep_plane (t : Nat) (st : StepRun) (d : Device) : PlaneKept d (unpinStep t st d) :=
  PlaneKept.foldl _ (fun d _ => PlaneKept.foldl _ (fun _ _ => unpinPage_plane ..) _ d) _ d

theorem onJob_plane (t : Byte) (j : W32) (f : Job → Job) (d : Device) : PlaneKept d (onJob t j f d) := ⟨rfl, rfl, rfl, rfl, rfl⟩

theorem clearLists_plane (t : Byte) (j tiles : W32) (d : Device) : PlaneKept d (clearLists t j tiles d) := by
  unfold clearLists
  refine PlaneKept.foldl _ ?_ _ d
  exact fun _ _ => ⟨rfl, rfl, rfl, rfl, rfl⟩

theorem windows_plane (p : WinSlot → Bool) (d : Device) : PlaneKept d { d with mem.windows := d.mem.windows.filter p } :=
  ⟨rfl, rfl, rfl, rfl, rfl⟩

theorem partials_plane (p : PartialRow → Bool) (d : Device) : PlaneKept d { d with mem.partials := d.mem.partials.filter p } :=
  ⟨rfl, rfl, rfl, rfl, rfl⟩

/-! Host edits (R255, R259, R300). -/

theorem takePage_plane {t : Nat} {l : Bool} {d e : Device} {k : Nat} (h : takePage t l d = some (k, e)) : PlaneKept d e := by
  unfold takePage at h
  dsimp only at h
  split at h
  · cases h
  · cases h
    exact ⟨rfl, rfl, rfl, rfl, rfl⟩

theorem growList_plane (i n : Nat) (d : Device) : PlaneKept d (growList i n d) := by
  induction n generalizing d with
  | zero => exact .refl d
  | succ n ih =>
    unfold growList
    split
    · exact .refl d
    · split
      · exact .refl d
      · split
        · next h => exact ((takePage_plane h).trans (onSeq_plane ..)).trans (ih _)
        · exact .refl d

theorem addRef_plane (t k : Nat) (d : Device) : PlaneKept d (addRef t k d) := by
  unfold addRef; rw [onPage_frame]; exact ⟨rfl, rfl, rfl, rfl, rfl⟩

theorem newSeq_plane (t k : Nat) (a b : Bool) (d : Device) : PlaneKept d (newSeq t k a b d).2 := ⟨rfl, rfl, rfl, rfl, rfl⟩

theorem forkOne_plane (i p : Nat) (d : Device) : PlaneKept d (forkOne i p d).2 := by
  unfold forkOne
  split
  · exact .refl d
  · dsimp only
    exact ((((newSeq_plane ..).trans (PlaneKept.foldl _ (fun _ _ => addRef_plane ..) _ _)).trans (onSeq_plane ..)).trans
      (growList_plane ..)).trans (syncList_plane ..)

theorem forkPair_plane (i p : Nat) (d : Device) : PlaneKept d (forkPair i p d).2 := by
  unfold forkPair
  dsimp only
  split
  · exact ((forkOne_plane ..).trans (forkOne_plane ..)).trans (onSeq_plane ..)
  · exact forkOne_plane ..

theorem truncateOne_plane (i p : Nat) (d : Device) : PlaneKept d (truncateOne i p d) := by
  unfold truncateOne
  split
  · exact .refl d
  · exact ((onSeq_plane ..).trans (cutEntries_plane ..)).trans (onSeq_plane ..)

theorem releaseSeq_plane (i : Nat) (d : Device) : PlaneKept d (releaseSeq i d) :=
  (cutEntries_plane i 0 d).trans ⟨rfl, rfl, rfl, rfl, rfl⟩

theorem releasePair_plane (i : Nat) (d : Device) : PlaneKept d (releasePair i d) := by
  unfold releasePair
  split
  · exact (releaseSeq_plane ..).trans (releaseSeq_plane ..)
  · exact releaseSeq_plane ..

theorem answerEdit_plane (r : Option Ref) (st : W16) (b : List Byte) (d : Device) : PlaneKept d (answerEdit r st b d) := by
  unfold answerEdit
  split
  · rw [finish_frame]; exact ⟨rfl, rfl, rfl, rfl, rfl⟩
  · exact .refl d

theorem applyEdit_plane (e : StagedEdit) (d : Device) : PlaneKept d (applyEdit e d) := by
  unfold applyEdit
  split
  · split
    · exact answerEdit_plane ..
    · dsimp only
      exact .ite (answerEdit_plane ..) ((forkPair_plane ..).trans (answerEdit_plane ..))
  · split
    · exact answerEdit_plane ..
    · split
      · exact answerEdit_plane ..
      · split
        · exact answerEdit_plane ..
        · dsimp only
          split
          · exact ((truncateOne_plane ..).trans (truncateOne_plane ..)).trans (answerEdit_plane ..)
          · exact (truncateOne_plane ..).trans (answerEdit_plane ..)
  · split
    · exact answerEdit_plane ..
    · split
      · exact answerEdit_plane ..
      · exact (releasePair_plane ..).trans (answerEdit_plane ..)

theorem applyEdits_plane (t k : Nat) (d : Device) : PlaneKept d (applyEdits t k d) := by
  unfold applyEdits
  dsimp only
  refine PlaneKept.trans ?_ (PlaneKept.foldl _ (fun _ _ => applyEdit_plane ..) _ _)
  exact ⟨rfl, rfl, rfl, rfl, rfl⟩

theorem boundary_plane (t k : Nat) (d : Device) : PlaneKept d (boundary t k d) := by
  unfold boundary
  exact .ite (.refl d) (applyEdits_plane ..)

theorem dropStep_plane (t : Byte) (j : W32) (d : Device) : PlaneKept d (dropStep t j d) := by
  unfold dropStep
  split
  · exact .refl d
  · split
    · exact .refl d
    · dsimp only
      exact (((((clearLists_plane _ _ _ d).trans (unpinStep_plane _ _ _)).trans (windows_plane ..)).trans (partials_plane ..)).trans
        (onJob_plane ..)).trans (boundary_plane ..)

theorem abandonStep_plane (t : Byte) (j : W32) (d : Device) : PlaneKept d (abandonStep t j d) := by
  unfold abandonStep
  split
  · exact .refl d
  · dsimp only
    refine ((PlaneKept.foldl _ ?_ _ d).trans (dropStep_plane t j _)).trans (onJob_plane ..)
    intro d x
    split
    · split
      · exact (rollbackPair_plane ..).trans (setReqState_only ..).plane
      · exact rollbackPair_plane ..
    · exact .refl d

theorem sendMsg_plane (m : OutMsg) (d : Device) : PlaneKept d (sendMsg m d) := ⟨rfl, rfl, rfl, rfl, rfl⟩

theorem newEpoch_plane (t : Byte) (j : W32) (more : List (BitVec 12)) (d : Device) : PlaneKept d (newEpoch t j more d) := by
  unfold newEpoch
  split
  · exact .refl d
  · dsimp only
    exact ((abandonStep_plane t j d).trans (onJob_plane ..)).trans (PlaneKept.foldl _ (fun _ _ => sendMsg_plane ..) _ _)

theorem setEvent_plane (n : Nat) (d : Device) : PlaneKept d (setEvent n d) := ⟨rfl, rfl, rfl, rfl, rfl⟩

theorem latchBead_plane (n : Nat) (d : Device) : PlaneKept d (latchBead n d) := ⟨rfl, rfl, rfl, rfl, rfl⟩

theorem onPort_plane (p : Nat) (f : LinkPort → LinkPort) (d : Device) : PlaneKept d (onPort p f d) := ⟨rfl, rfl, rfl, rfl, rfl⟩

theorem ledgerLink_plane (p : Nat) (d : Device) : PlaneKept d (ledgerLink p d) := ledgerEvent_plane ..

theorem changePort_plane (p : Nat) (f : LinkPort → LinkPort) (d : Device) : PlaneKept d (changePort p f d) := by
  unfold changePort
  exact (((onPort_plane p f d).trans (.ite (.refl _) (setEvent_plane ..))).trans (.ite (latchBead_plane ..) (.refl _))).trans
    (.ite (ledgerLink_plane ..) (.refl _))

theorem twinLost_plane (d : Device) : PlaneKept d (twinLost d) := by
  unfold twinLost
  refine PlaneKept.trans (b := { d with audit.offers := [], audit.notes := [] }) ⟨rfl, rfl, rfl, rfl, rfl⟩ (PlaneKept.foldl _ (fun d x => ?_) _ _)
  dsimp only
  split
  · exact ⟨rfl, rfl, rfl, rfl, rfl⟩
  · split
    · split
      · unfold refuse; rw [finish_frame]; exact ⟨rfl, rfl, rfl, rfl, rfl⟩
      · exact ⟨rfl, rfl, rfl, rfl, rfl⟩
    · exact .refl d

theorem leaveUp_plane (w : LinkPort) (d : Device) : PlaneKept d (leaveUp w d) := by
  unfold leaveUp; split
  · exact twinLost_plane d
  · exact .refl d

theorem withLink_plane (l : LinkPart) (d : Device) : PlaneKept d { d with link := l } := ⟨rfl, rfl, rfl, rfl, rfl⟩

theorem sendRoutes_plane (d : Device) : PlaneKept d (sendRoutes d) := by
  unfold sendRoutes
  dsimp only
  exact (withLink_plane _ d).trans (PlaneKept.foldl _ (fun _ _ => sendMsg_plane ..) _ _)

theorem portReport_plane (src : BitVec 12) (p : Nat) (up : Bool) (peer : BitVec 12) (d : Device) :
    PlaneKept d (portReport src p up peer d) := by
  unfold portReport
  dsimp only
  split
  · exact (withLink_plane _ d).trans (sendRoutes_plane _)
  · refine ((withLink_plane _ d).trans (sendRoutes_plane _)).trans (PlaneKept.foldl _ (fun d x => ?_) _ _)
    exact .ite (newEpoch_plane ..) (.refl d)

theorem reportPort_plane (p : Nat) (up : Bool) (peer : BitVec 12) (d : Device) : PlaneKept d (reportPort p up peer d) := by
  unfold reportPort
  split
  · exact .refl d
  · split
    · exact portReport_plane ..
    · exact ⟨rfl, rfl, rfl, rfl, rfl⟩

theorem portDown_plane (p : Nat) (cause : BitVec 4) (d : Device) : PlaneKept d (portDown p cause d) := by
  unfold portDown
  dsimp only
  refine PlaneKept.trans (withLink_plane ((portOf d p).waiting.foldl (fun k w => k.freeHeld w) d.link) d) ?_
  exact ((changePort_plane ..).trans (leaveUp_plane ..)).trans (.ite (reportPort_plane ..) (.refl _))

theorem retrainPort_plane (p : Nat) (d : Device) : PlaneKept d (retrainPort p d) := (changePort_plane ..).trans (leaveUp_plane ..)

theorem startTraining_plane (p : Nat) (d : Device) : PlaneKept d (startTraining p d) := changePort_plane ..

theorem shedPorts_plane (d : Device) : PlaneKept d (shedPorts d) :=
  PlaneKept.foldl _ (fun d _ => .ite (changePort_plane ..) (.refl d)) _ d

theorem unshedPorts_plane (d : Device) : PlaneKept d (unshedPorts d) :=
  PlaneKept.foldl _ (fun d _ => .ite (.refl d) (.ite (retrainPort_plane ..) (startTraining_plane ..))) _ d

/-! ### The flash at a reset -/

/-- A reset that stops the flash keeps what an interrupted page would hold, and nothing waits on a die (R428). -/
theorem stopFlash_frame (d : Device) : stopFlash d = { d with flash := { d.flash with
    interrupted := (stopFlash d).flash.interrupted, jobs := [] } } := by
  unfold stopFlash
  have h : ∀ (l : List FlashJob) (d : Device) (f : Device → FlashJob → Device)
      (_ : ∀ d j, f d j = { d with flash.interrupted := (f d j).flash.interrupted }),
      l.foldl f d = { d with flash.interrupted := (l.foldl f d).flash.interrupted } := by
    intro l
    induction l with
    | nil => intros; rfl
    | cons j l ih => intro d f hf; rw [List.foldl_cons, ih _ f hf, hf]
  dsimp only
  rw [h _ d _ (by intro d j; dsimp only; split <;> rfl)]

/-! ### Channels -/

theorem chanOf_onChan (c j : Nat) (f : DramChan → DramChan) (d : Device) :
    chanOf (onChan c f d) j = if j = c then f (chanOf d c) else chanOf d j := SMap.get_modify ({} : DramChan) d.dram.chans c j f

@[simp] theorem chanOf_settle (d : Device) (j : Nat) : chanOf (settle d) j = chanOf d j := by unfold chanOf; rw [settle_dram]

theorem chanOf_dram {d e : Device} (h : e.dram.chans = d.dram.chans) (j : Nat) : chanOf e j = chanOf d j := by unfold chanOf; rw [h]

/-- A write that drains leaves the state of the channel's self-refresh. -/
theorem drainOne_selfRef (c j : Nat) (d : Device) : (chanOf (drainOne c d) j).selfRef = (chanOf d j).selfRef := by
  unfold drainOne
  split
  · rfl
  · next e q h =>
    have k : (chanOf (onChan c (fun x => { x with queue := q }) d) j).selfRef = (chanOf d j).selfRef := by
      rw [chanOf_onChan]; split
      · next hj => subst hj; rfl
      · rfl
    dsimp only
    split
    · exact k
    · exact (congrArg DramChan.selfRef (chanOf_dram rfl j)).trans k

theorem drainAll_selfRef (c n j : Nat) (d : Device) : (chanOf (drainAll c n d) j).selfRef = (chanOf d j).selfRef := by
  induction n generalizing d with
  | zero => rfl
  | succ n ih => unfold drainAll; rw [ih, drainOne_selfRef]

theorem enterSelfRefresh_selfRef (c j : Nat) (d : Device) :
    (chanOf (enterSelfRefresh c d) j).selfRef = (decide (j = c) || (chanOf d j).selfRef) := by
  unfold enterSelfRefresh
  dsimp only
  rw [chanOf_onChan]
  split
  · next h => simp [h]
  · next h => rw [drainAll_selfRef]; simp [h]

/-- Every channel of a list is in self-refresh once each has entered it (R460). -/
theorem channels_selfRef (l : List Nat) (d : Device) (j : Nat) :
    (chanOf (l.foldl (fun d c => enterSelfRefresh c d) d) j).selfRef = (l.contains j || (chanOf d j).selfRef) := by
  induction l generalizing d with
  | nil => rfl
  | cons c l ih => rw [List.foldl_cons, ih, enterSelfRefresh_selfRef, List.contains_cons]; cases l.contains j <;> simp [Bool.beq_eq_decide_eq]

theorem channelsDown_selfRef (d : Device) (j : Nat) (h : j < 32) : (chanOf (channelsDown d) j).selfRef = true := by
  unfold channelsDown
  rw [channels_selfRef]
  simp [List.mem_range, h]

/-! ### Freezes and resets -/

theorem channelsStop_only (d : Device) : StepOnly d (channelsStop d) := StepOnly.foldl _ (fun _ _ => ⟨rfl⟩) _ d

theorem channelsStop_fab (d : Device) : (channelsStop d).fab = d.fab := by
  unfold channelsStop
  generalize List.range 32 = l
  induction l generalizing d with
  | nil => rfl
  | cons c l ih => rw [List.foldl_cons, ih, onChan_fab]

/-- A freeze leaves all but low-power, link and host state of what it stops (R501). -/
theorem enterFreeze_facts (d : Device) : isFrozen (enterFreeze d) = true ∧ (enterFreeze d).fix.rdy = false ∧
    (enterFreeze d).boot.frozen.map (·.tilesBusy) = some (tilesInFlight d) ∧ (enterFreeze d).tiles = d.tiles ∧ (enterFreeze d).fab = d.fab := by
  have kt : (channelsStop d).tiles = d.tiles := by rw [(channelsStop_only d).eq]
  have kf : (channelsStop d).fab = d.fab := channelsStop_fab _
  have kn : tilesInFlight (channelsStop d) = tilesInFlight d := by unfold tilesInFlight; rw [kt]
  unfold enterFreeze
  generalize channelsStop d = e at *
  dsimp only
  rw [kn]
  refine ⟨?_, ?_, ?_, ?_, ?_⟩
  · unfold isFrozen; rw [ledgerEvent_write]; rfl
  · rw [ledgerEvent_write]
  · rw [ledgerEvent_write]; rfl
  · rw [ledgerEvent_write]; exact kt
  · rw [ledgerEvent_write]; exact kf

theorem beginReset_facts (kind source : Byte) (d : Device) : (beginReset kind source d).boot.phase = .held ∧
    (beginReset kind source d).boot.begun = some (kind, source) ∧ (beginReset kind source d).boot.lp = .active ∧
    (beginReset kind source d).cmd = { counters := d.cmd.counters, arpReplies := d.cmd.arpReplies } ∧
    (beginReset kind source d).sec.session = none ∧ (beginReset kind source d).fix.run = none ∧ (beginReset kind source d).fix.rdy = false ∧
    (beginReset kind source d).flash.jobs = [] ∧ (beginReset kind source d).fab = d.fab ∧ (beginReset kind source d).tiles = d.tiles := by
  unfold beginReset
  have h1 : (stopFlash d).flash.jobs = [] := by rw [stopFlash_frame]
  have h2 : (stopFlash d).fab = d.fab := by rw [stopFlash_frame]
  have h3 : (stopFlash d).tiles = d.tiles := by rw [stopFlash_frame]
  have h4 : (stopFlash d).cmd = d.cmd := by rw [stopFlash_frame]
  have g1 : (endSession 6 (stopFlash d)).flash = (stopFlash d).flash := by rw [endSession_frame]
  have g2 : (endSession 6 (stopFlash d)).fab = (stopFlash d).fab := by rw [endSession_frame]
  have g3 : (endSession 6 (stopFlash d)).tiles = (stopFlash d).tiles := by rw [endSession_frame]
  have g4 : (endSession 6 (stopFlash d)).cmd = (stopFlash d).cmd := by rw [endSession_frame]
  have g5 : (endSession 6 (stopFlash d)).sec.session = none := by rw [endSession_frame]
  generalize endSession 6 (stopFlash d) = e at *
  generalize stopFlash d = f at *
  have k : ∀ (c : Prop) [Decidable c] (x : List Byte) (d : Device), PlaneKept d d ∧ (if c then ledgerEvent 0x0021 x d else d) = { d with
      sec := { d.sec with
        ledger := (if c then ledgerEvent 0x0021 x d else d).sec.ledger, nextSeq := (if c then ledgerEvent 0x0021 x d else d).sec.nextSeq
        chain := (if c then ledgerEvent 0x0021 x d else d).sec.chain, buffer := (if c then ledgerEvent 0x0021 x d else d).sec.buffer } } := by
    intro c _ x d; refine ⟨.refl d, ?_⟩; split
    · exact ledgerEvent_write ..
    · rfl
  have l : ∀ (c : Prop) [Decidable c] (d : Device), (if c then ledgerFlush d else d) = { d with
      sec := { d.sec with
        ledger := (if c then ledgerFlush d else d).sec.ledger, nextSeq := (if c then ledgerFlush d else d).sec.nextSeq
        chain := (if c then ledgerFlush d else d).sec.chain, buffer := (if c then ledgerFlush d else d).sec.buffer } } := by
    intro c _ d; split
    · rw [ledgerFlush_frame]
    · rfl
  dsimp only
  rw [(k _ _ _).2]
  dsimp only
  rw [l]
  dsimp only
  rw [(k _ _ _).2]
  exact ⟨rfl, rfl, rfl, by rw [g4, h4], g5, rfl, rfl, by rw [g1, h1], by rw [g2, h2], by rw [g3, h3]⟩

theorem wakeChannel_boot (region a : Nat) (d : Device) : (wakeChannel region a d).boot = d.boot := by
  unfold wakeChannel
  repeat' split
  all_goals rfl

theorem readOut_tap (d : Device) : (readOut d).boot.tap = d.boot.tap ∧ (readOut d).boot.roAddr = (d.boot.roAddr + 8) % 2 ^ 44 := by
  refine ⟨?_, rfl⟩
  unfold readOut
  dsimp only
  generalize (if tenantClass d d.boot.roReg.toNat d.boot.roAddr then tenantOpen d else deviceOpen d) = x
  cases x
  · rfl
  · simp only [if_true]; rw [wakeChannel_boot]; split <;> rfl

/-! ### Low power -/

theorem arraysDown_plane (d : Device) : PlaneKept d (arraysDown d) := ⟨rfl, rfl, rfl, rfl, rfl⟩

theorem stopFlash_plane (d : Device) : PlaneKept d (stopFlash d) := by
  rw [stopFlash_frame]; exact ⟨rfl, rfl, rfl, rfl, rfl⟩

theorem ledgerLp_plane (d : Device) : PlaneKept d (ledgerLp d) := ledgerEvent_plane ..

theorem portsDown_plane (l : List Nat) (d : Device) :
    PlaneKept d (l.foldl (fun d p => if (portOf d p).state = .up then portDown p 0 d else d) d) :=
  PlaneKept.foldl _ (fun d _ => .ite (portDown_plane ..) (.refl d)) l d

/-- What the entry to a low-power state leaves (R521, R522). -/
theorem enterLp_facts (x : LowPower) (d : Device) : (enterLp x d).boot.lp = x ∧ (enterLp x d).boot.entering = none ∧
    (x = .doze → (enterLp x d).boot.phase = d.boot.phase) ∧ ((x = .nap ∨ x = .hibernate) → (enterLp x d).boot.phase = .lowPower) ∧
    ((x = .doze ∨ x = .nap) → ∀ c, c < 32 → (chanOf (enterLp x d) c).selfRef = true) ∧ (x = .nap → (enterLp x d).fix.armed = false) ∧
    (x = .hibernate → (enterLp x d).fix.rdy = false) := by
  have l := ledgerLp_plane { d with boot.entering := none, boot.lp := x }
  unfold enterLp
  generalize ledgerLp { d with boot.entering := none, boot.lp := x } = e at *
  have lb := l.boot
  dsimp only at lb ⊢
  cases x with
  | active => exact ⟨by rw [lb], by rw [lb], nofun, by simp, by simp, nofun, nofun⟩
  | doze =>
    have k := ((arraysDown_plane e).trans (channelsDown_only _).plane).boot
    dsimp only
    exact ⟨by rw [k, lb], by rw [k, lb], fun _ => by rw [k, lb], by simp, fun _ c h => channelsDown_selfRef _ c h, nofun, nofun⟩
  | nap =>
    have k := (((shedPorts_plane e).trans (arraysDown_plane _)).trans (channelsDown_only _).plane).boot
    have q := channelsDown_selfRef (arraysDown (shedPorts e))
    dsimp only
    generalize channelsDown (arraysDown (shedPorts e)) = f at *
    exact ⟨by rw [k, lb], by rw [k, lb], nofun, fun _ => rfl, fun _ c h => q c h, fun _ => rfl, nofun⟩
  | hibernate =>
    have k := (((arraysDown_plane e).trans (stopFlash_plane _)).trans (portsDown_plane (List.range 4) _)).boot
    dsimp only
    generalize (List.range 4).foldl (fun d p => if (portOf d p).state = .up then portDown p 0 d else d) (stopFlash (arraysDown e)) = f at *
    exact ⟨by rw [k, lb], by rw [k, lb], nofun, fun _ => rfl, by simp, nofun, fun _ => rfl⟩

/-- What a request that begins an entry leaves: running steps park, and the state in force stands (R522). -/
theorem lpRequest_begins {x : LowPower} {d : Device} (h : lpRefusal d x = false) (hp : d.boot.phase = .ready) (he : d.boot.exiting = false)
    (hd : lpDepth (lowPowerOf d) < lpDepth x) : StepOnly { d with boot.entering := some x } (lpRequest x d) := by
  unfold lpRequest
  rw [h]
  simp only [Bool.false_eq_true, if_false]
  rw [if_neg (by rintro (⟨a, b⟩ | a | a); exact a hp; rw [he] at a; cases a; omega)]
  exact eachStep_only _ (fun _ _ _ => parkStep_only ..) _

end Sys2Proof.Machine
end

