-- ==== Sys2Proof/WellFormed.lean ====
section
/-! DEFINITION. Which commands the outside world can send: the operands that the manual bounds. exec has a meaning for the others too. -/

namespace Sys2Proof

/-- A tag of the management port or the receptacle is below 256 (R397). -/
def refOk (r : Ref) : Bool := match r.chan with
  | .host => true
  | _ => decide (r.tag.toNat < 256)

/-- A partition number (R54, R372). -/
def tenantOk (t : Byte) : Bool := decide (1 ≤ t.toNat) && decide (t.toNat ≤ 8)

/-- Flits are 256 bytes (R344), a sample names 1 to 40 sensors (R475), digests of twin mode are 16 bytes (R497, R499), and so on. -/
def Instr.wf (i : Instr) : Bool :=
  match i with
  | .flitReceive _ flit => decide (flit.length = 256)
  | .thermalSample temps => !temps.isEmpty && decide (temps.length ≤ 40)
  | .vinSample mv => decide (mv < 65536)
  | .coolantSample _ _ flow => decide (flow < 65536)
  | .frameWrite off bytes => decide (off.toNat + bytes.length ≤ 65536)
  | .chord button => decide (button ≠ 3)
  | .partitionReset mask _ _ => decide (mask ≠ 0)
  | .hibernateExit source _ => decide (5 ≤ source.toNat) && decide (source.toNat ≤ 7)
  | .warmReset source _ => decide (1 ≤ source.toNat) && decide (source.toNat ≤ 2)
  | .faultReset source _ => decide (1 ≤ source.toNat) && decide (source.toNat ≤ 6)
  | .twinFix _ digest => decide (digest.length = 16)
  | .twinDigest _ _ digests => digests.all fun x => decide (x.2.length = 16)
  | .transferEnd _ ecc => decide (ecc ≠ .tight)
  | .dramWriteDrain _ ecc => decide (ecc ≠ .tight)
  | .patrolRead _ ecc => decide (ecc ≠ .tight)
  | .removalScrub tenant => tenantOk tenant
  | .removalFlash tenant => tenantOk tenant
  | .removalConfirm tenant => tenantOk tenant
  | .diagTileTest r failing _ => refOk r && (match failing with | some (u, _) => decide (u.toNat ≤ 4) | none => true)
  | .lowWordRead addr => decide (addr.toNat < 0x0100_0000) && decide (addr.toNat % 4 = 0)
  | .registerWrite addr _ => decide (addr.toNat < 0x0100_0000) && decide (addr.toNat % 4 = 0)
  | .packetSubmit addr _ => decide (0x0100_0000 ≤ addr.toNat) && decide (addr.toNat < 0x0101_0000)
  | .badOpcode r | .nop r | .identify r | .echo r | .tagQuery r | .reset r
  | .memAlloc r | .memFree r | .memMigrate r | .memOpen r | .memClose r | .memSettle r
  | .memCopy r | .memFlush r | .memQuery r | .memArenaInfo r | .convert r | .wpack r
  | .skeinMount r | .skeinUnmount r | .skeinInfo r | .serveJobOpen r | .serveJobClose r | .serveSubmit r
  | .serveCancel r | .seqFork r | .seqTruncate r | .seqRelease r | .serveQuery r | .serveBaseShare r
  | .fixReserve r | .fixLoad r | .fixArm r | .fixDisarm r | .gaugeWallSet r | .gaugeSchedAdd r
  | .gaugeSchedRemove r | .gaugeSchedQuery r | .knotAlloc r | .knotFree r | .knotSignal r | .knotWait r
  | .knotWaitTimeout r | .knotRead r | .knotSet r | .linkPodCfg r | .linkPlace r | .linkQuery r
  | .secSessionChallenge r | .secSessionOpen r | .secSessionClose r | .secCredEnrol r | .secCredRevoke r | .secPartCreate r
  | .secKeyLoad r | .secKeyRotate r | .secPartRemove r | .secPartInfo r | .secPodKey r | .secOpal r
  | .secLedgerRead r | .secLedgerTrim r | .secCert r | .flashRead r | .flashProgram r | .flashErase r
  | .flashVerify r | .flashMargin r | .flashBlockInfo r | .flashInfo r | .flashOtpRead r | .flashOtpBurn r
  | .pwrQuery r | .pwrSetCap r | .pwrProfileReset r | .auditJobCfg r | .auditAttest r | .auditTwinPair r
  | .twinPairTimeout r | .auditTwinQuery r => refOk r
  | .read _ _ _ | .write _ _ | .readId _ | .resetEnable | .resetPort | .badInstr _ _
  | .devXspiCfgWrite _ | .cmdCqTailWrite _ | .cmdResultSelWrite _ | .alertHoldoffExpiry | .resetRecordTimeout | .matmul _
  | .conv _ | .score _ | .passListEnd _ | .passComplete _ | .tileCtrClearWrite _ _ | .arrayDomainIdleOff _ _
  | .stitch _ | .reduce _ | .load _ | .store _ | .vectorWait _ | .vectorEnd _
  | .promotionComplete _ _ | .evictionComplete _ _ | .scrubComplete | .memCtrClearWrite _ | .windowFetch _ _ _ | .arbiterGrant _
  | .layerDeadlineMiss _ _ | .atomicPartialAdd _ _ _ | .stepStart _ | .parkLimitExpiry _ _ | .layerQueue _ _ _ | .stepSample _ _ _ _ _
  | .serveCtrClearWrite _ | .fixArmCheckDone _ | .trig | .answerCycle | .frameCommit _ _ _ | .fixRdyClrWrite _
  | .wallSetPpsTimeout | .gaugeCfgWrite _ _ | .rotorEdge _ _ _ | .rotorZ | .rotorIdleTimeout | .gridEdge _
  | .gridEdgeTimeout | .gridHoldoverTimeout | .ppsEdge _ | .ppsTimeout | .schedFixedRun _ _ _ | .schedKnot _ _ _
  | .schedSubmit _ _ _ | .knotWindowWrite _ _ | .linkTrainStart _ | .bitLockTimeout _ _ | .linkTrainTimeout _ | .linkUp _ _
  | .linkSignalLoss _ | .linkLockLoss _ | .replayTimer _ | .reassemblyTimeout _ _ | .controlMessage _ _ | .epochNotice _
  | .epochAck _ | .workMessage _ _ _ _ | .dataMessage _ _ _ _ | .resultMessage _ _ | .knotMessage _ _ _ | .withdrawMessage _ _ _
  | .migrateMessage _ _ _ _ | .deviceLost _ | .managerLost | .linkPnCfgWrite _ _ | .linkCtrClearWrite _ | .challengeExpiry _
  | .sessionIdleTimeout | .networkLossTimeout | .keySwitchChange _ _ | .arpRequest _ | .meuraSegment _ _ _ _ | .meuraReassemblyTimeout
  | .otherFrame | .flashArrayOpComplete _ _ | .flashCodewordTransfer _ _ _ | .flashSuspend _ | .minRunElapsed _ | .eraseRestart _
  | .flashCtrClearWrite _ | .refresh _ _ _ | .oscillatorCheck _ _ _ | .dramMapCfgWrite _ | .mapScrubComplete | .selfRefreshExit _
  | .selfRefreshReentry _ | .dramCtrClearWrite _ | .shedStageLift | .supplyReset | .capRecompute _ _ _ | .profileUpdate _ _
  | .currentLimitCheck _ _ | .vcoreUpdate | .pwrCtrClearWrite _ | .twinCtrl _ | .twinStep _ _ _ _ _ | .twinFixUnmatched _
  | .auditCtrClearWrite _ | .freeze | .freezeRelease _ | .testLogicReset | .extest | .idcode
  | .samplePreload | .roAddr _ | .roData | .roStatus | .bypass | .coldReset _
  | .restart _ | .watchdogExpiry _ | .startupReady | .dozeRequest | .napRequest | .hibernateRequest
  | .lpEntryComplete | .wake | .napExitComplete _ | .ackShortPress | .ackLongPress | .testShortPress
  | .testLongPress _ | .safeLongPress | .locateEnd | .lampTestEnd | .panelAck | .panelLampTest
  | .panelLocate | .usbAttach _ | .usbDetach | .usbPacket _ | .startThresholdReached _ | .ethernetLinkChange _
  | .vectorDescriptorComplete _ | .napRefusalFlashEnd => true

end Sys2Proof
end

