-- ==== Sys2Proof/Tests/Slice0.lean ====
section
/-! SUPPORT. Tests: the well-formedness checks, worked values of the manual, and for every statement with hypotheses a state and operands
that meet them, clause by clause. -/

open Sys2Proof Sys2Proof.Machine

namespace Sys2Proof.Tests

set_option Elab.async false

/-! ### Small devices and packets -/

/-- A partition that holds tiles 0 to 3, DRAM channels 0 and 1, flash channel 0 and commons stripe 0. -/
def part1 : Partition :=
  { sealed := true, tileMask := 0xF, dramMask := 3, flashMask := 1, commonsMask := 1, storeQuota := 64, pageCount := 64, seqQuota := 16
    knotQuota := 16, pub := [5], ktr := none, cur := some { num := 0, secret := [7] }, prev := none, removal := none }

/-- A device in READY with partition 1. -/
def dev1 : Device := { boot := { phase := .ready }, sec := { parts := [(1, part1)] } }

abbrev ref1 : Ref := { chan := .host, tag := 1 }

/-- A state with no command waiting. -/
abbrev st (d : Device) : State := { dev := d }

/-- A header. -/
def hdr (op : W16) (t : Byte) (flags : Byte) (job : W32) (n : Nat) : Header :=
  { opcode := op, tag := 1, tenant := t, flags := flags, job := job, len := BitVec.ofNat 32 n, deadline := 0 }

/-- An unsealed packet of tenant field 0 on the host port. -/
def openPkt (op : W16) (b : List Byte) : Packet :=
  { chan := .host, hdr := hdr op 0 0 0 b.length, raw := [], payload := b, order := 0, key := [], role := 0, cred := [], at_ := 0
    started := false, plain := [] }

/-- A packet sealed under key 01 with counter 1: of a tenant, or of a role on a channel. -/
def sealedPkt (ch : Chan) (op : W16) (t : Byte) (job : W32) (role : Byte) (b : List Byte) : Packet :=
  { chan := ch, hdr := hdr op t 1 job (b.length + 24), raw := []
    payload := leBytes 8 1 ++ gcmSeal [1] ([0, t, 0, 0] ++ leBytes 8 1) [] b
    order := 0, key := [1], role := role, cred := [], at_ := 0, started := false, plain := [] }

abbrev tenPkt (op : W16) (t : Byte) (job : W32) (b : List Byte) : Packet := sealedPkt .host op t job 0 b
abbrev rolePkt (op : W16) (role : Byte) (b : List Byte) : Packet := sealedPkt .host op 0 0 role b

/-- A device with one packet in flight. -/
def into (p : Packet) (d : Device) : Device := { d with cmd := { d.cmd with flight := [p] } }

theorem canStart_alone (p : Packet) (d : Device) (h : p.started = false) : canStart (into p d) p = true := by
  unfold canStart into
  simp [h]

theorem found_alone (p : Packet) (d : Device) (hc : p.chan = .host) (ht : p.hdr.tag = 1) : findPacket (into p d) ref1 = some p := by
  unfold findPacket into
  simp [hc, ht]

theorem openPkt_plain (op : W16) (b : List Byte) : isSealed (openPkt op b) = false := by
  show (0 : Byte).getLsbD 0 = false
  decide

theorem sealedPkt_sealed (ch : Chan) (op : W16) (t : Byte) (job : W32) (role : Byte) (b : List Byte) :
    isSealed (sealedPkt ch op t job role b) = true := by
  show (1 : Byte).getLsbD 0 = true
  decide

/-- An unsealed packet of an opcode without roles is admitted. -/
theorem admits_open {sp : OpSpec} {op : W16} {b : List Byte} {d : Device} (ho : op.toNat = sp.opcode) (hr : isReady d = true)
    (hs : sp.size.all (fun n => b.length == n) = true) (hd : sp.dev = true) (hg : sp.roles = [])
    (hp : partOf d 0 = none) (hz : reservedOk sp b = true) : Admits sp ref1 (openPkt op b) b none (into (openPkt op b) d) where
  found := found_alone _ _ rfl rfl
  opcode := ho
  ready := hr
  fresh := rfl
  turn := canStart_alone _ _ rfl
  size := by
    have hh : plainLen (openPkt op b) = b.length := by
      unfold plainLen
      rw [openPkt_plain]
      rfl
    rw [hh]
    exact hs
  range := by show (0 : Byte).toNat ≤ 8; decide
  formed := fun h => absurd rfl h
  staying := by
    intro h
    exfalso
    have h' : (match partOf d 0 with | some q => q.removal.isSome || decide (d.clock < q.fencedTo) | none => false) = true := h
    rw [hp] at h'
    cases h'
  authentic := by
    have hh := openPkt_plain op b
    unfold openPacket
    rw [hh, hg]
    rfl
  zero := hz
  role := fun _ h => absurd hg h
  dev := fun _ => hd
  part := fun h => absurd rfl h

/-- A sealed packet with a fresh counter opens. -/
theorem opens_sealed (ch : Chan) (op : W16) (t : Byte) (job : W32) (role : Byte) (b : List Byte) (d : Device) (gated : Bool)
    (hc : (countersOf d [1]).last = 0) : openPacket d gated (sealedPkt ch op t job role b) = some (b, some 1) := by
  have hs := sealedPkt_sealed ch op t job role b
  have hk : counterOf (sealedPkt ch op t job role b) = leBytes 8 1 := rfl
  have hv : packetIv 0 (sealedPkt ch op t job role b) = [0, t, 0, 0] ++ leBytes 8 1 := rfl
  have hn : leNat (leBytes 8 1) = 1 := by decide
  have hd : (sealedPkt ch op t job role b).payload.drop 8 = gcmSeal [1] ([0, t, 0, 0] ++ leBytes 8 1) [] b := rfl
  have hkey : (sealedPkt ch op t job role b).key = [1] := rfl
  have hraw : (sealedPkt ch op t job role b).raw = [] := rfl
  unfold openPacket
  rw [hs, hk, hn, hkey, hc, hv, hd, hraw, gcmOpen_gcmSeal]
  rfl

theorem plainLen_sealed (ch : Chan) (op : W16) (t : Byte) (job : W32) (role : Byte) (b : List Byte) :
    plainLen (sealedPkt ch op t job role b) = b.length := by
  have hs := sealedPkt_sealed ch op t job role b
  unfold plainLen
  rw [hs]
  show (leBytes 8 1 ++ gcmSeal _ _ _ _).length - _ = _
  rw [List.length_append, leBytes_length, gcmSeal_length]
  simp
  omega

/-- A tenant's sealed packet is admitted. -/
theorem admits_tenant {sp : OpSpec} {op : W16} {t : Byte} {job : W32} {b : List Byte} {d : Device} {q : Partition}
    (ho : op.toNat = sp.opcode) (hr : isReady d = true) (hs : sp.size.all (fun n => b.length == n) = true) (ht : t ≠ 0) (h8 : t.toNat ≤ 8)
    (hp : partOf d t.toNat = some q) (hq : q.removal = none) (hf : q.fencedTo ≤ d.clock) (hc : (countersOf d [1]).last = 0) (hz : reservedOk sp b = true)
    (hd : sp.part = true) : Admits sp ref1 (tenPkt op t job b) b (some 1) (into (tenPkt op t job b) d) where
  found := found_alone _ _ rfl rfl
  opcode := ho
  ready := hr
  fresh := rfl
  turn := canStart_alone _ _ rfl
  size := by simpa only [plainLen_sealed] using hs
  range := h8
  formed := fun _ => by
    show (partOf d t.toNat).isSome = true
    rw [hp]; rfl
  staying := by
    intro h
    exfalso
    have h' : (match partOf d t.toNat with | some q => q.removal.isSome || decide (d.clock < q.fencedTo) | none => false) = true := h
    rw [hp] at h'
    simp [hq] at h'
    omega
  authentic := opens_sealed _ _ _ _ _ _ _ _ hc
  zero := hz
  role := fun h => absurd h ht
  dev := fun h => absurd h ht
  part := fun _ => hd

/-- A role's sealed packet on the host port is admitted. -/
theorem admits_role {sp : OpSpec} {op : W16} {role : Byte} {b : List Byte} {d : Device}
    (ho : op.toNat = sp.opcode) (hr : isReady d = true) (hs : sp.size.all (fun n => b.length == n) = true)
    (hp : partOf d 0 = none) (hc : (countersOf d [1]).last = 0) (hz : reservedOk sp b = true)
    (hd : sp.dev = true) (hg : sp.roles.contains role = true) :
    Admits sp ref1 (rolePkt op role b) b (some 1) (into (rolePkt op role b) d) where
  found := found_alone _ _ rfl rfl
  opcode := ho
  ready := hr
  fresh := rfl
  turn := canStart_alone _ _ rfl
  size := by simpa only [plainLen_sealed] using hs
  range := by show (0 : Byte).toNat ≤ 8; decide
  formed := fun h => absurd rfl h
  staying := by
    intro h
    exfalso
    have h' : (match partOf d 0 with | some q => q.removal.isSome || decide (d.clock < q.fencedTo) | none => false) = true := h
    rw [hp] at h'
    cases h'
  authentic := opens_sealed _ _ _ _ _ _ _ _ hc
  zero := hz
  role := fun _ _ => hg
  dev := fun _ => hd
  part := fun h => absurd rfl h

/-! ### Hypotheses met: steps, records, submissions and the port -/

/-- A device held frozen. -/
def frozenDev : Device := { dev1 with boot := { dev1.boot with frozen := some { tilesBusy := 0, parts := 1 } } }

theorem test_hyp_EmptyQueueTicks : (isFrozen dev1 = false ∧ dev1.gauge.slew = 0 ∧ dev1.gauge.slewRem = 0) ∧ isFrozen frozenDev = true := by
  decide

theorem test_hyp_StepKeepsSettled :
    (∃ t, step (st dev1) = .next t ∧ coreAlive t.dev = true) ∧ ∃ t, step (st frozenDev) = .next t ∧ coreAlive t.dev = false :=
  ⟨⟨_, rfl, by decide⟩, ⟨_, rfl, by decide⟩⟩

theorem test_hyp_SharedFrames : coreAlive State.reset.dev = false ∧ evLink ≠ evThrottle := by decide

def rec0 : Record := { tag := 1, status := 0, bound := true, result := [], wall := 0, at_ := 0, opcode := 0x0100, tenant := 0 }

/-- A device whose ring is full, with one record held. -/
def fullDev : Device := { dev1 with cmd := { dev1.cmd with ring := List.replicate 2048 rec0, head := 2048, held := [rec0] } }

theorem fullDev_ring : fullDev.cmd.ring.length = 2048 := List.length_replicate

theorem test_hyp_RingInvariant : RingOk fullDev ∧ HeldOk fullDev ∧ fullDev.cmd.resetPending = [] :=
  ⟨⟨Nat.le_of_eq fullDev_ring, by rw [fullDev_ring]; decide⟩, fun _ => fullDev_ring, rfl⟩

/-- A device whose RESET has its record in the ring. -/
def resetDev : Device := { dev1 with cmd := { dev1.cmd with ring := [{ rec0 with opcode := 0x0104 }], head := 1, resetPending := [(ref1, 0)] } }

/-- The whole ring consumed, with and without a RESET among its records, and one record more than it holds. -/
theorem test_hyp_TailWriteConsumes :
    (BitVec.ofNat 12 (2048#32).toNat - fullDev.cmd.tail).toNat ≤ (fullDev.cmd.head - fullDev.cmd.tail).toNat ∧
    (fullDev.cmd.head - fullDev.cmd.tail).toNat < (BitVec.ofNat 12 (2049#32).toNat - fullDev.cmd.tail).toNat ∧
    (∀ x, x ∉ fullDev.cmd.resetPending) ∧
    ((BitVec.ofNat 12 (1#32).toNat - resetDev.cmd.tail).toNat ≤ (resetDev.cmd.head - resetDev.cmd.tail).toNat ∧
      ∃ x ∈ resetDev.cmd.resetPending, x.1.chan = .host ∧
        (resetDev.cmd.ring.take 1).any (fun y => y.bound && y.tag == x.1.tag && y.opcode == 0x0104) = true) :=
  ⟨by decide, by decide, nofun, by decide, (ref1, 0), by decide, rfl, by decide⟩

theorem test_hyp_CompletionQueuesRecord :
    (∃ p : Packet, p.chan = .host ∧ isQuiet p = true) ∧ (∃ p : Packet, p.chan = .host ∧ isQuiet p = false) ∧
    dev1.cmd.ring.length < ringSlots ∧ ringSlots ≤ fullDev.cmd.ring.length :=
  ⟨⟨{ openPkt 0x0100 [] with hdr := hdr 0x0100 0 4 0 0 }, by decide⟩, ⟨openPkt 0x0100 [], by decide⟩, by decide, Nat.le_of_eq fullDev_ring.symm⟩

theorem test_hyp_SealedPacketOpensOnce : ({ openPkt 0x0402 [] with sched := true } : Packet).sched = true ∧
    ∃ (d : Device) (p : Packet) (n : Nat) (plain : List Byte),
    p.sched = false ∧ isSealed p = true ∧ p.key ≠ [] ∧ 0 < n ∧ n < 2 ^ 64 ∧ (countersOf d p.key).last < n ∧
    p.payload = leBytes 8 n ++ gcmSeal p.key (packetIv 0 p) p.raw plain :=
  ⟨rfl, dev1, tenPkt 0x0209 1 0 [], 1, [], rfl, sealedPkt_sealed .., by simp [sealedPkt], by decide, by decide, by decide, rfl⟩

/-- A removal in progress. -/
def removing : Removal :=
  { stage := .scrub, purge := false, reply := none, requests := 0, extents := 0, pages := 0, blocks := 0 }

/-- Partition 1 with its removal in progress. -/
def leavingDev : Device := { dev1 with sec := { dev1.sec with parts := [(1, { part1 with removal := some removing })] } }

def nopSpec : OpSpec := { opcode := 0x0100, size := some 0, dev := true, part := true }

theorem test_hyp_FailureOrder :
    (nopSpec.size.any (fun n => plainLen (openPkt 0x0100 [1]) != n) = true) ∧
    (nopSpec.size.any (fun n => plainLen (openPkt 0x0100 []) != n) = false ∧ (9 : Byte).toNat > 8) ∧
    (isRemoving leavingDev 1 = true ∧ nopSpec.removal = false) ∧
    (openPacket dev1 false { openPkt 0x0100 [] with hdr := hdr 0x0100 1 0 0 0 } = none) ∧
    (openPacket dev1 false (openPkt 0x0100 [1]) = some ([1], none) ∧ reservedOk { nopSpec with reserved := [(0, 1)] } [1] = false) ∧
    (reservedOk nopSpec [] = true ∧ byMaker ≠ [] ∧ byMaker.contains 1 = false) := by
  decide

/-- A chain of any length. -/
def chainOf : Nat → Nat → List Byte → List LedgerEntry
  | 0, _, _ => []
  | k + 1, n, h =>
    let b := eventBody dev1 0x0003 []
    let c := digest32 (h ++ ledgerHead n b)
    { seq := n, body := b, chain := c } :: chainOf k (n + 1) c

theorem chainOf_length (k n : Nat) (h : List Byte) : (chainOf k n h).length = k := by
  induction k generalizing n h with
  | zero => rfl
  | succ k ih => simp [chainOf, ih]

theorem chainOf_chained (k n : Nat) (h : List Byte) : Chained n h (chainOf k n h) := by
  induction k generalizing n h with
  | zero => trivial
  | succ k ih => exact ⟨rfl, rfl, ih _ _⟩

/-- A device whose ledger holds k entries. -/
def ledgerDev (k : Nat) : Device := { dev1 with sec := { dev1.sec with
  ledger := chainOf k 0 [], nextSeq := 0 + (chainOf k 0 []).length
  chain := match (chainOf k 0 []).getLast? with | some e => e.chain | none => [] } }

theorem ledgerDev_ok (k : Nat) : LedgerOk 0 [] (ledgerDev k) ∧ (ledgerDev k).sec.ledger.length = k :=
  ⟨⟨chainOf_chained .., rfl, rfl⟩, chainOf_length ..⟩

theorem test_hyp_LedgerStaysChained :
    (∃ d, LedgerOk 0 [] d ∧ d.sec.ledger.length < ledgerMax) ∧ ∃ d, LedgerOk 0 [] d ∧ ledgerMax ≤ d.sec.ledger.length :=
  ⟨⟨ledgerDev 0, (ledgerDev_ok 0).1, by decide⟩, ⟨ledgerDev ledgerMax, (ledgerDev_ok _).1, Nat.le_of_eq (ledgerDev_ok _).2.symm⟩⟩

theorem test_hyp_FabricReadsWhatWasWritten : Mem.wf dev1.fab = true ∧ Mem.wf (fabWrite dramBase [1, 0, 2] dev1).fab = true := by decide

/-- An address in each region of a WRITE, at its first and last byte. -/
theorem test_hyp_WriteIsRegisterWrites :
    (∀ a ∈ [0, 0x00FFFFFC], a % 4 = 0 ∧ a < 0x01000000) ∧ (∀ a ∈ [0x01000000, 0x0100FFFF], 0x01000000 ≤ a ∧ a < 0x01010000) ∧
    (∀ a ∈ [0x02000000, 0x0200FFFF], 0x02000000 ≤ a ∧ a + 1 ≤ 0x02010000) ∧ (∀ a ∈ [0x02010000, 0x7FFFFFFF], 0x02010000 ≤ a ∧ a + 1 ≤ 0x80000000) ∧
    (∀ a ∈ [0x80000000, 0xFFFFFFFF], 0x80000000 ≤ a ∧ a + 1 ≤ 2 ^ 32) := by
  decide

theorem test_hyp_port : hostAlive dev1 = true ∧ hostAlive frozenDev = false ∧ knownInstr dev1 0 0 = false ∧ isLow 0x8 = true ∧
    80000 ≤ bitsOf dev1.host.xspiCfg.toNat 8 5 * 4000 ∧ bitsOf dev1.host.xspiCfg.toNat 8 5 * 3999 < 80000 ∧
    (16 ≤ bitsOf (0x00A01401#32).toNat 16 8 ∧ 8 ≤ bitsOf (0x00A01401#32).toNat 8 5) ∧ bitsOf (0x000F1401#32).toNat 16 8 < 16 := by
  decide

theorem test_hyp_HoldoffAsserts : ∃ s : State, coreAlive s.dev = true ∧ s.dev.cmd.ring = rec0 :: [] ∧
    bitsOf s.dev.cmd.alertCtrl.toNat 8 10 ≠ 0 :=
  ⟨st { dev1 with cmd := { dev1.cmd with ring := [rec0], alertCtrl := 0x100 } }, by decide⟩

/-! ### Hypotheses met: submission, the device range, registers, the faceplate -/

/-- Some state, packet and plaintext pass the shared checks, and what they leave meets `P`. -/
def Meets (sp : OpSpec) (P : State → Packet → List Byte → Device → Prop) : Prop :=
  ∃ (s : State) (r : Ref) (p : Packet) (b : List Byte) (c : Option Nat), Admits sp r p b c s.dev ∧ P s p b (admitted p b c s.dev)

theorem meets_open {sp : OpSpec} {P : State → Packet → List Byte → Device → Prop} (op : W16) (b : List Byte) (d : Device)
    (h : P (st (into (openPkt op b) d)) (openPkt op b) b (admitted (openPkt op b) b none (into (openPkt op b) d)))
    (ho : op.toNat = sp.opcode := by rfl) (hr : isReady d = true := by rfl)
    (hs : sp.size.all (fun n => b.length == n) = true := by decide) (hd : sp.dev = true := by rfl) (hg : sp.roles = [] := by rfl)
    (hp : partOf d 0 = none := by rfl) (hz : reservedOk sp b = true := by decide) : Meets sp P :=
  ⟨_, _, _, _, _, admits_open ho hr hs hd hg hp hz, h⟩

theorem meets_tenant {sp : OpSpec} {P : State → Packet → List Byte → Device → Prop} (op : W16) (t : Byte) (job : W32) (b : List Byte)
    (d : Device) {q : Partition} (h : P (st (into (tenPkt op t job b) d)) (tenPkt op t job b) b
      (admitted (tenPkt op t job b) b (some 1) (into (tenPkt op t job b) d)))
    (hp : partOf d t.toNat = some q := by rfl) (ho : op.toNat = sp.opcode := by rfl) (hr : isReady d = true := by rfl)
    (hs : sp.size.all (fun n => b.length == n) = true := by decide) (ht : t ≠ 0 := by decide) (h8 : t.toNat ≤ 8 := by decide)
    (hq : q.removal = none := by rfl) (hf : q.fencedTo ≤ d.clock := by exact Nat.zero_le _) (hc : (countersOf d [1]).last = 0 := by rfl) (hz : reservedOk sp b = true := by decide)
    (hd : sp.part = true := by rfl) : Meets sp P :=
  ⟨_, _, _, _, _, admits_tenant ho hr hs ht h8 hp hq hf hc hz hd, h⟩

theorem meets_role {sp : OpSpec} {P : State → Packet → List Byte → Device → Prop} (op : W16) (role : Byte) (b : List Byte) (d : Device)
    (h : P (st (into (rolePkt op role b) d)) (rolePkt op role b) b (admitted (rolePkt op role b) b (some 1) (into (rolePkt op role b) d)))
    (ho : op.toNat = sp.opcode := by rfl) (hr : isReady d = true := by rfl)
    (hs : sp.size.all (fun n => b.length == n) = true := by decide) (hp : partOf d 0 = none := by rfl)
    (hc : (countersOf d [1]).last = 0 := by rfl) (hz : reservedOk sp b = true := by decide) (hd : sp.dev = true := by rfl)
    (hg : sp.roles.contains role = true := by decide) : Meets sp P :=
  ⟨_, _, _, _, _, admits_role ho hr hs hp hc hz hd hg, h⟩

/-- The bytes of a NOP with tag 1 and no payload. -/
def nopBytes : List Byte := [0, 1, 1, 0] ++ zeros 24 ++ [0xC6, 0xD1, 0x59, 0x84]

/-- A device whose intake buffer holds one packet of n payload bytes. -/
def intakeDev (n : Nat) : Device := into { openPkt 0x0100 [] with payload := zeros n } dev1

theorem intakeDev_used (n : Nat) : intakeUsed (intakeDev n) = 32 + n := by
  simp [intakeUsed, intakeDev, into, openPkt, zeros]

theorem test_hyp_SubmissionAcceptsOrRefuses :
    (isReady dev1 = true ∧ intakeUsed dev1 + nopBytes.length ≤ 262144 ∧ headerFault dev1 .host true nopBytes = none) ∧
    headerFault dev1 .host true (nopBytes.set 31 0) = some 3 ∧ (∃ n, isReady (intakeDev n) = true ∧ 262144 < intakeUsed (intakeDev n) + 1) ∧
    isReady State.reset.dev = false :=
  ⟨by decide +kernel, by decide +kernel, ⟨262112, rfl, by rw [intakeDev_used]; decide⟩, by decide⟩

theorem test_hyp_EchoOnlyCompletes : Meets (devSpec 0x0102) fun _ p b _ => b.length ≤ if isSealed p then 32744 else 32768 :=
  meets_open 0x0102 [1, 2, 3] dev1 (by decide)

theorem test_hyp_DeviceRangeCompletes :
    Meets { devSpec 0x0100 with part := true } (fun _ _ b _ => b = []) ∧ Meets (devSpec 0x0101) (fun _ _ b _ => b = []) ∧
    Meets (devSpec 0x0103 [(2, 2)]) (fun _ p b _ => b.length = 4 ∧ p.chan = .host) ∧
    Meets { devSpec 0x0104 [(1, 3)] with roles := byEither } (fun _ _ b d => b.length = 4 ∧ byteAt b 0 = 1 ∧ ledgerRoom d = none) ∧
    (let d := into (openPkt 0x0105 []) dev1
     findPacket d ref1 = some (openPkt 0x0105 []) ∧ assignedOpcodes.contains (0x0105 : W16).toNat = false ∧ isReady d = true ∧
     canStart d (openPkt 0x0105 []) = true) :=
  ⟨meets_open 0x0100 [] dev1 rfl, meets_open 0x0101 [] dev1 rfl, meets_open 0x0103 [9, 0, 0, 0] dev1 (by decide),
   meets_role 0x0104 2 [1, 0, 0, 0] dev1 (by decide), by decide⟩

def sess (role : Byte) : Session := { role := role, chan := .host, id := 1, key := [1], cred := [], lastUsed := 0 }

/-- Device 1 with a session of a role open. -/
def roleDev (role : Byte) : Device := { dev1 with sec := { dev1.sec with session := some (sess role) } }

/-- The installer's session, no partition, nothing placed. -/
def bareDev : Device := { boot := { phase := .ready }, sec := { session := some (sess 2) } }

theorem fullLedger_room (e : LedgerEntry) (d : Device) (h : ledgerDurable d = true) (hb : d.sec.buffer = []) :
    ledgerRoom { d with sec := { d.sec with ledger := List.replicate ledgerMax e } } ≠ none := by
  have h' : ledgerDurable { d with sec := { d.sec with ledger := List.replicate ledgerMax e } } = true := h
  unfold ledgerRoom
  rw [h']
  simp [hb]

theorem test_hyp_RoleGuardsRegisterWrites :
    (byEither.contains (activeRole (roleDev 2)) = true ∧ ledgerRoom (roleDev 2) = none ∧ ledgerDurable (roleDev 2) = true) ∧
    (∃ d, byEither.contains (activeRole d) = true ∧ ledgerRoom d ≠ none) ∧ byEither.contains (activeRole dev1) = false :=
  ⟨by decide, ⟨_, by decide, fullLedger_room { seq := 0, body := eventBody dev1 3 [], chain := [] } (roleDev 3) (by decide) rfl⟩, by decide⟩

theorem test_hyp_ConfigurationWrites :
    hostAlive bareDev = true ∧ ledgerRoom bareDev = none ∧ byEither.contains (activeRole bareDev) = true ∧
    gaugeCfgOk 0x004 0x0400000F = true ∧ gaugeCfgOk 0x008 0 = true ∧ gaugeCfgOk 0x014 0x20000 = true ∧ gaugeCfgOk 0x020 0 = true ∧
    linkCfgOk 0 1 = true ∧ linkCfgOk 3 2 = true ∧ activeRole bareDev = roleInstaller ∧ (2#32).toNat % 4 ≠ 3 ∧ bareDev.sec.parts = [] := by
  decide

theorem test_hyp_MakerClearsCounters :
    hostAlive (roleDev 3) = true ∧ makerActive (roleDev 3) = true ∧ (1#32).getLsbD 0 = true ∧ makerActive (roleDev 2) = false ∧
    (tileOf { roleDev 2 with tiles := [(0, { tenant := 1 })] } 0).tenant ≠ 0 := by
  decide

/-- Device 1 in Nap. -/
def napDev : Device := { dev1 with boot := { dev1.boot with phase := .lowPower, lp := .nap } }

theorem test_hyp_ButtonPresses : panelOn dev1 = true ∧ lowPowerOf dev1 = .active ∧ isFrozen frozenDev = true ∧
    (panelOn napDev = true ∧ isFrozen napDev = false ∧ lowPowerOf napDev ≠ .active) ∧
    panelOn { dev1 with pwr := { dev1.pwr with stage := 2 } } = true := by
  decide

theorem test_hyp_PanelPatterns :
    let d : Device := { dev1 with panel := { dev1.panel with locate := some 0, lamp := some 0, refused := some 0 } }
    d.panel.locate = some 0 ∧ d.panel.lamp = some 0 ∧ d.panel.refused = some 0 ∧ hostAlive d = true := by
  decide

theorem test_hyp_ReceptacleAndEthernet :
    let d : Device := { dev1 with panel := { dev1.panel with usb := true }, sec := { dev1.sec with session := some { sess 2 with chan := .usb } } }
    panelOn d = true ∧ d.panel.usb = true ∧ (d.cmd.flight.filter fun p => p.chan == .usb).length < 8 ∧
    (∃ x, d.sec.session = some x ∧ x.chan = .usb) ∧ (∃ x, (roleDev 2).sec.session = some x ∧ x.chan ≠ .usb) ∧ dev1.sec.session = none :=
  ⟨by decide, by decide, by decide, ⟨_, rfl, rfl⟩, ⟨_, rfl, by decide⟩, rfl⟩
/-! ### Hypotheses met: knots, the Gauge, the schedule -/

/-- Device 1 with knot 4096 of tenant 1, at a value and with a party count. -/
def knotDev (v : W32) (party : W16) : Device := { dev1 with knots := { dev1.knots with
  knots := [(4096, { value := v, party := party, owner := 1, allocated := true })] } }

/-- A waiter with a packet of its own and a timeout. -/
def waiter : KnotWaiter := { ref := ref1, knot := 4096, cond := .atLeast 1, modulus := 2 ^ 32, due := some 1000 }

/-- Where the run from the lowest knot is free, some run is found. -/
theorem pickRun_some {d : Device} {n x : Nat} (h : freeRun d n 65536 (65536 - 4096) 4096 = some x) : ∃ y, pickRun d n 4096 65536 = some y := by
  unfold pickRun
  rw [h]
  cases freeRun d n 65536 (65536 - 4096) (4096 + Config.freeNat d.freeCtr % (65536 - 4096)) with
  | none => exact ⟨_, rfl⟩
  | some y => exact ⟨y, rfl⟩

theorem test_hyp_KnotPacketsComplete :
    Meets { opcode := 0x0602, size := some 8, dev := true, part := true, reserved := [(2, 2)] }
      (fun _ p b d => ownsKnot d p.hdr.tenant (field b 0 2) = true) ∧
    Meets { opcode := 0x0604, size := some 4, dev := true, part := true, reserved := [(2, 2)] }
      (fun _ p b d => ownsKnot d p.hdr.tenant (field b 0 2) = true) ∧
    Meets { opcode := 0x0605, size := some 8, dev := true, part := true, roles := knotRoles, reserved := [(2, 2)] }
      (fun _ p b d => p.hdr.tenant ≠ 0 ∧ ownsKnot d p.hdr.tenant (field b 0 2) = true ∧
        (word32 b 4).toNat + 1 = knotModulus (knotOf d (field b 0 2))) ∧
    (∀ met : Bool, Meets { opcode := 0x0603, size := some 12, dev := true, part := true, reserved := [(3, 1)] }
      (fun _ p b d => ownsKnot d p.hdr.tenant (field b 0 2) = true ∧ field b 2 1 = 1 ∧
        condHolds (knotOf d (field b 0 2)).value (2 ^ 32) (.equal (word32 b 4)) = met)) ∧
    (∀ met : Bool, Meets { opcode := 0x0603, size := some 12, dev := true, part := true, reserved := [(3, 1)] }
      (fun _ p b d => let k := field b 0 2; let x := knotOf d k; ownsKnot d p.hdr.tenant k = true ∧ field b 2 1 = 2 ∧ x.party ≠ 0 ∧
        condHolds (knotOf (knotSignal k 1 d) k).value (knotModulus x) (.atLeast (BitVec.ofNat 32
          ((x.value.toNat / x.party.toNat * x.party.toNat + x.party.toNat) % knotModulus x))) = met)) ∧
    Meets { opcode := 0x0600, size := some 4, dev := true, part := true, roles := knotRoles } (fun _ p b d => p.hdr.tenant ≠ 0 ∧
      ∃ n pa, field b 0 2 = n ∧ 1 ≤ n ∧ n ≤ 1024 ∧ (∃ x, pickRun d n 4096 65536 = some x) ∧
        partOf d p.hdr.tenant.toNat = some pa ∧ knotsHeld d p.hdr.tenant + n ≤ pa.knotQuota) ∧
    Meets { opcode := 0x0601, size := some 4, dev := true, part := true, roles := knotRoles } (fun _ p b d => p.hdr.tenant ≠ 0 ∧
      field b 2 2 = 1 ∧ ∀ i, i < 1 → ownsKnot d p.hdr.tenant (field b 0 2 + i) = true ∧ knotBusy d (field b 0 2 + i) = false) :=
  ⟨meets_tenant 0x0602 1 0 [0, 16, 0, 0, 1, 0, 0, 0] (knotDev 0 0) (by decide),
   meets_tenant 0x0604 1 0 [0, 16, 0, 0] (knotDev 0 0) (by decide),
   meets_tenant 0x0605 1 0 [0, 16, 0, 0, 0xFF, 0xFF, 0xFF, 0xFF] (knotDev 0 0) (by decide),
   fun met => meets_tenant 0x0603 1 0 [0, 16, 1, 0, 7, 0, 0, 0, 0, 0, 0, 0] (knotDev (if met then 7 else 8) 0) (by cases met <;> decide),
   fun met => meets_tenant 0x0603 1 0 [0, 16, 2, 0, 0, 0, 0, 0, 0, 0, 0, 0] (knotDev (if met then 1 else 0) 2) (by cases met <;> decide),
   meets_tenant 0x0600 1 0 [16, 0, 2, 0] dev1 ⟨by decide, 16, part1, by decide, by decide, by decide, pickRun_some (x := 4096) (by decide), rfl, by decide⟩,
   meets_tenant 0x0601 1 0 [0, 16, 1, 0] (knotDev 0 0) (by decide)⟩

theorem test_hyp_KnotWindowAndTimeout :
    let d := into (tenPkt 0x0603 1 0 []) { knotDev 0 0 with knots := { (knotDev 0 0).knots with waiters := [waiter] } }
    hostAlive d = true ∧ isReady d = true ∧ (∃ w, d.knots.waiters.find? (fun w => w.ref == ref1) = some w ∧ w.due = some 1000) ∧
    ∃ p, findPacket d ref1 = some p :=
  ⟨by decide, by decide, ⟨_, rfl, rfl⟩, ⟨_, found_alone _ _ rfl rfl⟩⟩

/-- A rotor at edge e. -/
def rotorAt (e : Nat) : GaugePart := { rotor := .locked, e := e }

theorem test_hyp_RotorCounts : (rotorAt 0).rotor ≠ .off ∧ rotorEdges (rotorAt 0) = 16384 ∧ (rotorAt 0).filter = 2 ∧
    (rotorStep 0 true false 2 2 (rotorAt 16383)).up = true ∧ (rotorStep 0 true false 2 2 (rotorAt 16382)).up = true ∧
    (rotorStep 0 false true 2 2 (rotorAt 0)).up = false ∧ (rotorStep 0 false true 2 2 (rotorAt 1)).up = false ∧
    rotorStep 0 true true 1 1 (rotorAt 0) = rotorAt 0 := by
  decide

/-- Device 1 with its Gauge in a state. -/
abbrev gDev (g : GaugePart) : Device := { dev1 with gauge := g }

theorem test_hyp_RotorAndGridEvents : isFrozen (gDev (rotorAt 0)) = false ∧ (rotorAt 0).rotor ≠ .off ∧ (1 < (rotorAt 0).filter.toNat ∧ (rotorAt 0).filter.toNat ≤ 2) ∧
    { rotorAt 0 with edgeAt := some 0 }.edgeAt = some 0 ∧ ({ grid := .acquire } : GaugePart).grid ≠ .off ∧
    ({ grid := .locked } : GaugePart).grid = .locked ∧ ({ grid := .holdover } : GaugePart).grid = .holdover := by
  decide

def ppsDev : Device := gDev { ppsEn := true, stepped := true, wallSt := .locked }
def settingDev : Device := into (tenPkt 0x0510 0 0 []) { ppsDev with gauge := { ppsDev.gauge with settings := [(ref1, 1, 0)] } }

theorem test_hyp_WallFollowsItsReference :
    (∀ pps : Bool, Meets { opcode := 0x0510, size := some 16, dev := true, roles := [roleOperator, roleInstaller, roleMaker], reserved := [(12, 4)] }
      (fun s _ b d => (s.dev.gauge.settings.any fun x => x.1 == ref1) = false ∧ field b 8 4 < 1000000000 ∧ ledgerRoom d = none ∧
        s.dev.gauge.ppsEn = pps ∧ field b 0 8 * 1000000000 + field b 8 4 < 2 ^ 64 ∧ wallNow d ≤ field b 0 8 * 1000000000)) ∧
    (isFrozen settingDev = false ∧ settingDev.gauge.ppsEn = true ∧ isReady settingDev = true ∧
      settingDev.gauge.settings = [(ref1, 1, 0)] ∧ (∃ p, findPacket settingDev ref1 = some p) ∧
      wallNow (advance 5 settingDev) ≤ 1 * 1000000000) ∧
    (isFrozen ppsDev = false ∧ ppsDev.gauge.ppsEn = true ∧ ppsDev.gauge.stepped = true ∧ ppsDev.gauge.settings = [] ∧ ppsDev.gauge.wallSt = .locked) :=
  ⟨fun pps => meets_role 0x0510 1 [1, 0, 0, 0, 0, 0, 0, 0, 255, 201, 154, 59, 0, 0, 0, 0] (gDev { ppsEn := pps }) (by cases pps <;> decide),
   ⟨by decide, by decide, by decide, by decide, ⟨_, found_alone _ _ rfl rfl⟩, by decide⟩, by decide⟩

/-- Entry 1 of tenant 1: knot 4096, signalled once per turn of a base in every n crossings. -/
def schedE (b : SchedBase) (a : SchedAction) : SchedEntry :=
  { owner := 1, base := b, action := a, dir := 2, once := false, n := 1, knot := 4096, inc := 1, offset := 0, period := 0, target := 0
    tag := 9, job := 0, rel := 0, payload := zeros 80 }

/-- Device 1 with the rotor locked, one turn on from where its one entry has counted. -/
def schedDev (a : SchedAction) : Device :=
  { knotDev 0 0 with gauge := { rotor := .locked, turns := 1, sched := [(1, schedE .rotor a)] }, boot := { dev1.boot with phase := .ready } }

theorem test_hyp_SchedulePacketsComplete :
    Meets (schedSpec 0x0520 32 [(3, 1), (12, 4), (34, 2)] [(2, 0xF8)]) (fun _ p b d => p.hdr.tenant ≠ 0 ∧ plainLen p = 32 ∧
      ∃ e, entryOf p.hdr.tenant b = some e ∧ entryOk b.length e = true ∧ e.action = .knot ∧ ownsKnot d p.hdr.tenant e.knot.toNat = true ∧
        d.gauge.sched.length < 256 ∧ (d.gauge.sched.filter fun x => x.2.owner == p.hdr.tenant).length < 32 ∧ e.base ≠ .wall) ∧
    Meets (schedSpec 0x0521 4 [(2, 2)]) (fun _ p b d => p.hdr.tenant ≠ 0 ∧ ∃ e, ownEntry d p.hdr.tenant (field b 0 2) = some e) ∧
    Meets (schedSpec 0x0522 4 [(2, 2)]) (fun _ p b d => p.hdr.tenant ≠ 0 ∧ ∃ e, ownEntry d p.hdr.tenant (field b 0 2) = some e) :=
  ⟨meets_tenant 0x0520 1 0 [0, 1, 4, 0, 1, 0, 0, 16, 1, 0, 0, 0, 0, 0, 0, 0, 1, 0, 0, 0, 0, 0, 0, 0, 0, 0, 0, 0, 0, 0, 0, 0] (knotDev 0 0)
     ⟨by decide, plainLen_sealed .., _, rfl, by decide, by decide, by decide, by decide, by decide, by decide⟩,
   meets_tenant 0x0521 1 0 [1, 0, 0, 0] (schedDev .knot) ⟨by decide, _, rfl⟩,
   meets_tenant 0x0522 1 0 [1, 0, 0, 0] (schedDev .knot) ⟨by decide, _, rfl⟩⟩

theorem test_hyp_ScheduleFirings :
    (∀ a, coreAlive (schedDev a) = true ∧ (schedDev a).boot.phase = .ready ∧
      Assoc.find (schedDev a).gauge.sched (1 : Byte).toNat = some (schedE .rotor a) ∧ (schedE .rotor a).base ≠ .wall ∧
      0 < crossed (advance 0 (schedDev a)) (schedE .rotor a) ∧ baseFires (schedDev a).gauge .rotor = true ∧
      ∃ n d, schedFire a (1 : Byte).toNat 0 (schedDev a) = (some (schedE .rotor a, n), d)) ∧
    (∃ e n d, schedFire .fixedRun 1 0 { schedDev .fixedRun with fix := { trigSrc := 2 } } = (some (e, n), d) ∧
      (d.fix.trigSrc = 1 ∨ d.fix.trigSrc = 2)) ∧
    (∃ e n d, schedFire .submit 1 0 (into { openPkt 0x0200 [] with hdr := { hdr 0x0200 0 0 0 0 with tag := 9 } } (schedDev .submit)) =
      (some (e, n), d) ∧ (tagState (wakeUp 3 d) e.tag).1 = 1) ∧
    (∃ e n d, schedFire .submit 1 0 { schedDev .submit with cmd := { (schedDev .submit).cmd with ring := [{ rec0 with tag := 9 }] } } =
      (some (e, n), d) ∧ (tagState (wakeUp 3 d) e.tag).1 ≠ 1 ∧ takesPackets (wakeUp 3 d) .host = true ∧
        intakeUsed (wakeUp 3 d) + 136 ≤ 262144 ∧ tagFree (wakeUp 3 d) .host e.tag = false) :=
  ⟨fun a => by cases a <;> exact ⟨by decide, by decide, by decide, by decide, by decide, by decide, _, _, rfl⟩,
   ⟨_, _, _, rfl, by decide⟩, ⟨_, _, _, rfl, by decide⟩, ⟨_, _, _, rfl, by decide, by decide, by decide, by decide⟩⟩

/-- The SERVE_SUBMIT that the entry makes is admitted. -/
theorem test_hyp_ScheduleFirings_submit : ∃ e n d, schedFire .submit 1 0 (schedDev .submit) = (some (e, n), d) ∧
    let w := wakeUp 3 d; let p := schedPacket w 1 n e
    (tagState w e.tag).1 ≠ 1 ∧ takesPackets w .host = true ∧ intakeUsed w + 136 ≤ 262144 ∧ tagFree w .host e.tag = true ∧
    ∃ b c, Admits submitSpec (refOf p) p b c (wakeUp 2 { w with cmd := { w.cmd with
      flight := w.cmd.flight ++ [p], nextOrder := w.cmd.nextOrder + 1, acceptCount := w.cmd.acceptCount + 1 } }) := by
  refine ⟨_, _, _, rfl, by decide, by decide, by decide, by decide, zeros 80, none, ?_⟩
  constructor
  all_goals first | rfl | decide

/-- A target that a base has reached, and one that it has not. -/
theorem test_hyp_ScheduleFirings_crossed :
    let e := { schedE .rotor .knot with dir := 0 }
    e.base ≠ .wall ∧ e.n = 1 ∧ e.dir = 0 ∧ e.offset < baseModulus e.base ∧ e.seen ≤ baseFar (schedDev .knot) e.base ∧
    crossed (schedDev .knot) e = 1 ∧ crossed dev1 e = 0 := by
  decide
/-! ### Hypotheses met: the Fixed plane, the arrays, the vector engine -/

/-- An image's first bytes: one tile, cycle count 100. -/
def img1 : List Byte := [6, 0, 1, 0, 4, 0, 0, 0, 4, 0, 0, 0, 100, 0, 0, 0]

/-- No partition, the maker's session, and a Fixed plane on tile 0 with an image. -/
def fixDev : Device := { bareDev with fix := { mask := 1, image := some img1, fallback := some { bytes := [1], cycle := 102 } } }
def armedDev : Device := { fixDev with fix := { fixDev.fix with armed := true, bound := 4, rdy := true } }
/-- An arm in progress, whose check run has taken n cycles. -/
def armingDev (n : Nat) : Device :=
  into (rolePkt 0x0502 3 []) { fixDev with fix := { fixDev.fix with arming := some (ref1, 4) }, tiles := [(0, { busyTo := n })] }

/-- An image of one tile: one move of a block, and a section of two empty lists. -/
def image1 : List Byte :=
  padTo 512 (padTo 256 (padTo 32 ([6, 0, 1, 0, 64, 0, 0, 0, 64, 0, 1, 0, 100, 0, 0, 0]) ++ leBytes 4 576 ++ leBytes 4 192 ++ leBytes 4 0 ++ leBytes 4 128)) ++
  padTo 64 ([4, 0, 0, 0, 1, 0, 1, 0]) ++ padTo 128 [0xFF] ++ padTo 64 [0xFF]

/-- The image stands in the frame window. -/
def loadDev : Device := { fixDev with fix := { fixDev.fix with window := Mem.store [] 0 image1 } }

theorem test_hyp_FixPacketsComplete :
    Meets (fixSpec 0x0500 4) (fun _ _ b d => fixBusy d = false ∧ ledgerRoom d = none ∧ d.fix.armed = false ∧
      (maskList 32 (word32 b 0).toNat).length = 4 ∧ (maskList 32 (word32 b 0).toNat).any (tileTaken d) = false ∧ word32 b 0 ≠ d.fix.mask) ∧
    Meets (fixSpec 0x0500 4) (fun _ _ b d => fixBusy d = false ∧ ledgerRoom d = none ∧ d.fix.armed = false ∧
      (maskList 32 (word32 b 0).toNat).any (tileTaken d) = false ∧ word32 b 0 = d.fix.mask) ∧
    Meets (fixSpec 0x0501 16) (fun _ _ b d => fixBusy d = false ∧ ledgerRoom d = none ∧ d.fix.armed = false ∧ d.fix.mask ≠ 0 ∧
      field b 4 4 % 4 = 0 ∧ field b 8 4 = 4 ∧ field b 4 4 + field b 8 4 = 65408 ∧ field b 0 4 = 0 ∧ field b 12 4 = 0) ∧
    Meets (fixSpec 0x0501 16) (fun _ _ b d => fixBusy d = false ∧ ledgerRoom d = none ∧ d.fix.armed = false ∧ d.fix.mask ≠ 0 ∧
      field b 4 4 % 4 = 0 ∧ field b 8 4 = 4 ∧ field b 4 4 + field b 8 4 = 65408 ∧ field b 0 4 = 0 ∧ field b 12 4 = 1 ∧
      (imageFault (runBytes d (field b 4 4) (field b 8 4)) (fixTiles d).length).isSome = true) ∧
    Meets (fixSpec 0x0501 16) (fun _ _ b d => fixBusy d = false ∧ ledgerRoom d = none ∧ d.fix.armed = false ∧ d.fix.mask ≠ 0 ∧
      field b 4 4 = 0 ∧ field b 8 4 = 768 ∧ field b 0 4 = 0 ∧ field b 12 4 = 1 ∧
      imageFault (runBytes d (field b 4 4) (field b 8 4)) (fixTiles d).length = none) ∧
    Meets (fixSpec 0x0502 4) (fun s _ b d => s.dev.fix.arming = none ∧ fixBusy d = false ∧ ledgerRoom d = none ∧
      ∃ img, d.fix.image = some img ∧ field img 2 1 = (fixTiles d).length ∧ field b 0 4 = 100) ∧
    Meets (fixSpec 0x0503 0) (fun s _ _ d => s.dev.fix.arming = none ∧ ledgerRoom d = none ∧ d.fix.armed = true) ∧
    (∀ n ∈ [100, 101], isReady (armingDev n) = true ∧ listsEnded (armingDev n) = true ∧ (armingDev n).fix.arming = some (ref1, 4) ∧
      (armingDev n).fix.image = some img1 ∧ (findPacket (armingDev n) ref1).isSome = true) ∧
    planCount img1 (armingDev 100) = field img1 12 4 ∧ planCount img1 (armingDev 101) ≠ field img1 12 4 ∧ overBound (imgCycle img1) 4 = false :=
  ⟨meets_role 0x0500 3 [0xF, 0, 0, 0] fixDev (by decide), meets_role 0x0500 2 [1, 0, 0, 0] fixDev (by decide),
   meets_role 0x0501 3 [0, 0, 0, 0, 124, 255, 0, 0, 4, 0, 0, 0, 0, 0, 0, 0] fixDev (by decide),
   meets_role 0x0501 3 [0, 0, 0, 0, 124, 255, 0, 0, 4, 0, 0, 0, 1, 0, 0, 0] fixDev (by decide +kernel),
   meets_role 0x0501 3 [0, 0, 0, 0, 0, 0, 0, 0, 0, 3, 0, 0, 1, 0, 0, 0] loadDev (by decide +kernel),
   meets_role 0x0502 3 [100, 0, 0, 0] fixDev ⟨by decide, by decide, by decide, img1, rfl, by decide, by decide⟩,
   meets_role 0x0503 3 [] armedDev (by decide),
   by decide, by decide, by decide, by decide⟩

def run1 (frame : Option (Nat × W32)) : FixRun :=
  { number := 1, reasons := 1, wall := 0, frame := frame, at_ := 0, fb := { bytes := [1], cycle := 102 }, clashTo := 0 }
def runningDev (frame : Option (Nat × W32)) : Device := { armedDev with fix := { armedDev.fix with rdy := false, run := some (run1 frame) } }

theorem test_hyp_TriggerAndAnswer :
    (∀ d ∈ [armedDev, runningDev none, runningDev (some (0, 1))], coreAlive d = true ∧ d.boot.phase = .ready ∧ d.boot.trigWake = false ∧
      d.fix.trigSrc = 0) ∧
    armedDev.fix.run = none ∧ armedDev.fix.fallback = some { bytes := [1], cycle := 102 } ∧
    ((runningDev none).fix.run = some (run1 none) ∧ (run1 none).frame = none) ∧
    (let x := run1 (some (0, 1)); let d := advanceTo (x.at_ + cycleEnd x.fb.cycle) (runningDev x.frame)
     (runningDev x.frame).fix.run = some x ∧ d.fix.image = some img1 ∧ listsEnded d = true) := by
  decide

theorem test_hyp_FrameWindow : hostAlive armedDev = true ∧ (1#32).getLsbD 0 = true ∧ (0#32).getLsbD 0 = false ∧
    (∀ b, clashes armedDev b = false) ∧
    (∀ n ∈ [(0, false), (1, true)], clashes { armedDev with fix := { armedDev.fix with
      run := some { run1 (some (n.1, 1)) with clashTo := 1 } } } n.2 = true) ∧
    armedDev.fix.loading = none ∧ ({ armedDev.fix with loading := some [] } : FixPart).loading.isSome = true := by decide

/-- A device whose tile 0 has bytes at offset 0 of its store, a pass list or a vector list at offset 0, and passes in flight. -/
def listDev (b : List Byte) (vec : Bool) (fl : List FlightPass) (kn : W32 := 0) : Device :=
  let l : QList := { addr := 0, origin := .engine, tenant := 1 }
  { knotDev kn 0 with
    tiles := [(0, { tenant := 1, passes := if vec then [] else [l], vecs := if vec then [l] else [], flight := fl })]
    fab := Mem.store [] (tileBase 0) b }

/-- A one-row BF16 pass on array 0: weights at 256, activations at 512, output at 1024; the weight tile's header follows. -/
def passBytes (kind flags c bad : Nat) : List Byte :=
  [BitVec.ofNat 8 kind, 1, 0x10, 0x10, 1, 0, BitVec.ofNat 8 flags, 0, 0, 0, BitVec.ofNat 8 c, BitVec.ofNat 8 bad] ++ zeros 4 ++ [0, 1] ++ zeros 14 ++ [0, 2] ++ zeros 30 ++ [128, 0, 0, 0, 128] ++
  zeros 3 ++ [0, 4] ++ zeros 54 ++ zeros 128 ++ [0x10, 3, 2, 0, 64, 0, 64, 0]

def flight1 : FlightPass :=
  { list := { addr := 0, origin := .engine, tenant := 1 }, raw := zeros 128, formats := [], arrays := 2, knot := 0x80001000, regs := []
    outs := [(512, 128)], start := 0, done := 0 }

/-- The list at the head of tile 0. -/
def headList (d : Device) : QList := ((tileOf d 0).passes ++ (tileOf d 0).vecs).headD { addr := 0, origin := .engine }

/-- What the sequencer of tile 0 sees of its head pass. -/
def headPass (d : Device) : PassDesc := passDesc (storeBytes d 0 0 128)
def headFault (d : Device) : Option PassFault :=
  passFault (fun off n => storeBytes d 0 off n) .engine (fun a => envOf (arrayOf (tileOf d 0) a)) (headPass d)

theorem test_hyp_PassesIssueInOrder :
    ∀ x ∈ [((1 : Nat), (0 : Nat), (0 : Nat)), (2, 8, 32), (3, 0, 0)],
      (let d := listDev (passBytes x.1 x.2.1 x.2.2 0) false []
       coreAlive d = true ∧ (headPass d).kind = x.1 ∧ headFault d = none ∧ passWaits d 0 (headList d) (headPass d) = false) ∧
      (let d := listDev (passBytes x.1 x.2.1 x.2.2 0) false [flight1]
       headFault d = none ∧ passWaits d 0 (headList d) (headPass d) = true) ∧
      (headFault (listDev (passBytes x.1 x.2.1 x.2.2 1) false [])).map (·.cause) = some 1 := by
  decide +kernel

/-- A pass list whose next pass has one row, which its mask marks: the pass is gone. -/
def goneDev : Device :=
  onTile 0 (fun ts => { ts with passes := [{ addr := 0, origin := .engine, tenant := 1, kill := [0] }] }) (listDev (passBytes 1 0 0 0) false [])

theorem test_hyp_PassesIssueInOrder_gone : coreAlive goneDev = true ∧ (headPass goneDev).kind = 1 ∧
    (!(headList goneDev).kill.isEmpty && (List.range (headPass goneDev).rows).all (headList goneDev).marked) = true ∧
    (headList goneDev).addr + 128 * (headList goneDev).index + 128 ≤ storeSize := by decide +kernel

/-- A pass and a vector descriptor in flight on tile 0 of the Fixed plane, with their last cycles. -/
def planDev (pass vec : Nat) (orphan : Bool) : Device :=
  let l : QList := { addr := 0, origin := .fixed }
  { bareDev with
    fix := { mask := 1 }
    tiles := [(0, { flight := [{ list := l, raw := zeros 128, formats := [], arrays := 2, knot := 0x80001000, regs := [], outs := [(512, 128)], start := 0, done := pass }],
                    vflight := some { knot := 0x80001000, regs := [], cycles := 0, tenant := 0, job := 0, done := vec, orphan := orphan }})] }

theorem test_hyp_PlanTurns :
    coreAlive (planDev 5 6 false) = true ∧ planTurn (planDev 5 6 false) 0 0 = true ∧ planTurn (planDev 5 6 false) 0 1 = false ∧
    planTurn (planDev 6 5 true) 0 0 = false ∧ planTurn (planDev 6 5 true) 0 1 = true ∧ (planDev 6 5 true).fix.mask.getLsbD 0 = true ∧
    ((tileOf (planDev 5 6 false) 0).flight.map (·.list.origin)) = [.fixed] := by decide

/-- The pass list of tile 0 at its END, and array 1 on with nothing of it in flight. -/
def endDev (fl : List FlightPass) : Device :=
  let d := listDev (0xFF :: zeros 127) false fl
  onTile 0 (onArray 1 fun x => { x with on := true }) d

theorem test_hyp_PassesEndAndComplete :
    coreAlive (endDev []) = true ∧ (∃ l, (tileOf (endDev []) 0).passes = [l] ∧ l.addr + 128 * l.index + 128 ≤ storeSize) ∧
    storeBytes (endDev []) 0 0 128 = 0xFF :: zeros 127 ∧ (tileOf (endDev [flight1]) 0).flight = [flight1] ∧
    (arrayOf (tileOf (endDev []) 0) 1).on = true ∧ (endDev []).fix.mask.getLsbD 0 = false ∧
    ((tileOf (endDev []) 0).flight.any fun f => f.arrays.getLsbD 1) = false :=
  ⟨by decide, ⟨_, rfl, by decide⟩, by decide +kernel, by decide, by decide, by decide, by decide⟩

/-- A vector descriptor: a stitch of one END word at 64, a sum over register 0, a load into it, a store from it, a wait for knot 4096. -/
def vecBytes (kind : Nat) (bad : Byte) : List Byte :=
  if kind = 0x11 then [0x11, 1, bad] ++ zeros 13 ++ [64, 0, 0, 0, 1]
  else if kind = 0x12 then [0x12, 1, bad, 0, 0x80]
  else if kind = 0x13 then [0x13, 1, bad] ++ zeros 5 ++ [0x80] ++ zeros 7 ++ [0, 2, 0, 0, 128] ++ zeros 7 ++ [1]
  else if kind = 0x14 then [0x14, 1, bad, 0, 0x80] ++ zeros 11 ++ [0, 2, 0, 0, 128] ++ zeros 7 ++ [64]
  else if kind = 0x15 then [0x15, 0, bad] ++ zeros 13 ++ [0, 16, 0, 0, 5]
  else [BitVec.ofNat 8 kind]

def headVec (d : Device) : VecDesc := vecDesc (storeBytes d 0 0 64)
def headVecFault (d : Device) : Option PassFault := vecFault (fun off n => storeBytes d 0 off n) (headVec d)

theorem test_hyp_VectorDescriptorsRun :
    ∀ k ∈ [(0x11 : Nat), 0x12, 0x13, 0x14],
      (let d := listDev (vecBytes k 0) true []
       coreAlive d = true ∧ (tileOf d 0).vflight = none ∧ (tileOf d 0).vwait = none ∧ (headVec d).kind = k ∧ headVecFault d = none ∧
       vecHeld d 0 (headList d) (headVec d) = false) ∧
      (headVecFault (listDev (vecBytes k 1) true [])).map (·.cause) = some 10 ∧
      (k ≠ 0x11 → let d := listDev (vecBytes k 0) true [{ flight1 with regs := [0] }]; headVecFault d = none ∧ vecHeld d 0 (headList d) (headVec d) = true) := by
  decide +kernel

def flightV : FlightVec := { knot := 0x80001000, regs := [], cycles := 0, tenant := 1, job := 0 }

theorem test_hyp_VectorListsWaitAndEnd :
    (let d := listDev (0xFF :: zeros 63) true []
     coreAlive d = true ∧ (tileOf d 0).vflight = none ∧ (tileOf d 0).vwait = none ∧ storeBytes d 0 0 64 = 0xFF :: zeros 63) ∧
    (∀ v ∈ [(5 : Nat), 4], let d := listDev (vecBytes 0x15 0) true [] (BitVec.ofNat 32 v); let b := storeBytes d 0 0 64
      headVecFault d = none ∧ field b 0 1 = 0x15 ∧
      condHolds (knotOf d (field b 16 2)).value (2 ^ 32) (.atLeast (word32 b 20)) = (v == 5)) ∧
    (let d := onTile 0 (fun ts => { ts with vflight := some flightV }) (listDev (vecBytes 0x12 0) true [])
     (tileOf d 0).vflight = some flightV ∧ (tileOf d 0).vecs = [{ addr := 0, origin := .engine, tenant := 1 }] ∧
     (tileOf d 0).vwait = none) := by
  decide +kernel
/-! ### Hypotheses met: memory, movement, streaming -/

/-- An extent of one block with its home at the start of DRAM and, where its state has one, a copy in the commons. -/
def ext1 (st : ExtState) (op : Bool) : Extent :=
  let c := st == .ds || st == .s || st == .evicting || st == .promoting
  { size := 4096, state := st, home := if st == .h then none else some dramBase, copy := if c then some 0 else none
    place := if c then 0xFE else 0xFF, dirty := [], opened := op, used := 0 }

def buf1 (st : ExtState) (op : Bool) (flag : Nat) : Buffer :=
  { gen := 1, size := 4096, extSize := 4096, flag := flag, affinity := 0xFF, extents := [ext1 st op], order := 0 }

/-- Device 1 with two buffers of tenant 1: slot 0 as stated, slot 1 in D a block further on. -/
def memDev (st : ExtState) (op : Bool) (flag : Nat) : Device := { dev1 with mem := { dev1.mem with arenas := [(1,
  { bufs := [(0, buf1 st op flag), (1, { buf1 .d false 2 with extents := [{ ext1 .d false with home := some (dramBase + 4096) }] })]
    fresh := 2 })] } }

/-- The handle of slot 0 (R188). -/
def h0 : List Byte := [0, 0x10, 0, 0x10]
def h1 : List Byte := [1, 0x10, 0, 0x10]

theorem test_handle : leNat h0 = handleOf 1 1 0 ∧ leNat h1 = handleOf 1 1 1 := by decide

theorem test_hyp_MemAlloc : Meets (memSpec 0x0200 16 [(14, 2)]) (fun _ p b d => let t := p.hdr.tenant.toNat
    ∃ pt full ext slot a' homes d', partOf d t = some pt ∧ full = roundUp (field b 0 8) 4096 ∧
      ext = (if field b 8 4 = 0 then 0x400000 else field b 8 4) ∧ field b 0 8 = 1 ∧ ext % 4096 = 0 ∧ 4096 ≤ ext ∧ ext ≤ 0x4000000 ∧
      field b 12 1 = 2 ∧ (extentsOf (arenaOf d t)).length + ceilDiv full ext ≤ 4096 ∧ (arenaOf d t).bufs.length < 4096 ∧
      nextSlot (arenaOf d t) = some (slot, a') ∧
      homesFor (maskList 32 pt.dramMask.toNat) (extentSizes full ext) (roomiest (heldRanges d) (maskList 32 pt.dramMask.toNat))
        (heldRanges d) = some homes ∧
      some (formBuffer t slot full ext (field b 12 1) (byteAt b 13) (extentSizes full ext) homes a' d) = some d') :=
  meets_tenant 0x0200 1 0 [1, 0, 0, 0, 0, 0, 0, 0, 0, 0, 0, 0, 2, 0xFF, 0, 0] (memDev .d false 2)
    ⟨part1, 4096, 0x400000, 2, _, [dramBase + channelSize], _, rfl, by decide, by decide, by decide, by decide, by decide, by decide,
     by decide, by decide, by decide, rfl, by decide +kernel, rfl⟩

theorem test_hyp_MemFree : Meets (memSpec 0x0201 8 [(4, 4)]) (fun _ p b d => let t := p.hdr.tenant.toNat
    ∃ slot buf, bufOf d t (field b 0 4) = some (slot, buf) ∧ isMounted d t slot buf.gen = false ∧ buf.extents.any isOpen = false ∧
      (d.cmd.flight.any fun x => namesHandle d (begun p b) x (field b 0 4)) = false) :=
  meets_tenant 0x0201 1 0 (h0 ++ zeros 4) (memDev .d false 2) ⟨0, buf1 .d false 2, by decide, by decide, by decide, by decide +kernel⟩

/-- MEM_MIGRATE, in general and for the three cases that change one extent. -/
def MigCase (tier : Nat) (P : Nat → Nat → Buffer → Extent → Device → Prop) : Prop :=
  Meets (memSpec 0x0202 16 [(10, 6)]) (fun _ p b d => let t := p.hdr.tenant.toNat; let i := field b 4 2; let n := field b 6 2
    ∃ slot buf pt e, bufOf d t (field b 0 4) = some (slot, buf) ∧ partOf d t = some pt ∧ tier = field b 8 1 ∧ n = 1 ∧
      (tier ≤ 1 → affinityOk pt (byteAt b 9) = true) ∧ i + n ≤ buf.extents.length ∧ buf.extents[i]? = some e ∧ e.opened = false ∧ P t slot buf e d)

theorem test_hyp_MemMigrate :
    MigCase 3 (fun t slot buf e d => e.state = .d ∧ isMounted d t slot buf.gen = false) ∧
    MigCase 2 (fun _ _ buf e _ => e.state = .ds ∧ buf.flag ≠ 0) ∧
    MigCase 1 (fun t _ buf e d => e.state = .d ∧ buf.flag = 2 ∧ e.size ≤ 0x800000 ∧ ∃ x, sramFor d t e.size [0xFE] = some x) :=
  ⟨meets_tenant 0x0202 1 0 (h0 ++ [0, 0, 1, 0, 3] ++ zeros 7) (memDev .d false 2)
     ⟨0, buf1 .d false 2, part1, ext1 .d false, by decide, rfl, by decide, by decide, by decide, by decide, rfl, rfl, by decide⟩,
   meets_tenant 0x0202 1 0 (h0 ++ [0, 0, 1, 0, 2] ++ zeros 7) (memDev .ds false 2)
     ⟨0, buf1 .ds false 2, part1, ext1 .ds false, by decide, rfl, by decide, by decide, by decide, by decide, rfl, rfl, by decide⟩,
   meets_tenant 0x0202 1 0 (h0 ++ [0, 0, 1, 0, 1, 0xFF] ++ zeros 6) (memDev .d false 2)
     ⟨0, buf1 .d false 2, part1, ext1 .d false, by decide, rfl, by decide, by decide, by decide, by decide, rfl, rfl,
      by decide, by decide, by decide, (0, 0xFE), by decide +kernel⟩⟩

/-- An extent named by a packet. -/
def ExtCase (sp : OpSpec) (P : Nat → Extent → Device → Prop) : Prop :=
  Meets sp (fun _ p b d => let t := p.hdr.tenant.toNat
    ∃ slot buf e, bufOf d t (field b 0 4) = some (slot, buf) ∧ buf.extents[field b 4 2]? = some e ∧ P t e d)

theorem test_hyp_MemExtents :
    Meets (memSpec 0x0207 8 [(4, 4)]) (fun _ p b d => ∃ slot buf, bufOf d p.hdr.tenant.toNat (field b 0 4) = some (slot, buf)) ∧
    ExtCase (memSpec 0x0203 8 [(6, 2)]) (fun t e d => ((extentsOf (arenaOf d t)).filter fun x => isOpen x.2.2.2).length < 64 ∧ e.state = .d) ∧
    ExtCase (memSpec 0x0203 8 [(6, 2)]) (fun _ e _ => isOpen e = true ∧ e.state = .outbound) ∧
    ExtCase (memSpec 0x0204 8 [(6, 2)]) (fun _ e _ => onHostTier e = false ∧ e.opened = true) ∧
    ExtCase (memSpec 0x0205 8 [(6, 2)]) (fun _ e _ => e.state = .outbound) ∧
    ExtCase (memSpec 0x0205 8 [(6, 2)]) (fun _ e _ => e.state = .inbound) ∧ ExtCase (memSpec 0x0208 8 [(6, 2)]) (fun _ _ _ => True) :=
  ⟨meets_tenant 0x0207 1 0 (h0 ++ zeros 4) (memDev .ds false 2) ⟨0, _, rfl⟩,
   meets_tenant 0x0203 1 0 (h0 ++ zeros 4) (memDev .d false 2) ⟨0, _, ext1 .d false, rfl, rfl, by decide⟩,
   meets_tenant 0x0203 1 0 (h0 ++ zeros 4) (memDev .outbound false 2) ⟨0, _, ext1 .outbound false, rfl, rfl, by decide⟩,
   meets_tenant 0x0204 1 0 (h0 ++ zeros 4) (memDev .d true 2) ⟨0, _, ext1 .d true, rfl, rfl, by decide⟩,
   meets_tenant 0x0205 1 0 (h0 ++ zeros 4) (memDev .outbound false 2) ⟨0, _, ext1 .outbound false, rfl, rfl, by decide⟩,
   meets_tenant 0x0205 1 0 (h0 ++ zeros 4) (memDev .inbound false 2) ⟨0, _, ext1 .inbound false, rfl, rfl, by decide⟩,
   meets_tenant 0x0208 1 0 (h0 ++ zeros 4) (memDev .h false 2) ⟨0, _, ext1 .h false, rfl, rfl, trivial⟩⟩

/-- A MEM_COPY of one block whose bursts come from DRAM, or not. -/
def CopyCase (far : Bool) : Prop :=
  Meets (memSpec 0x0206 24) (fun _ p b d => let t := p.hdr.tenant.toNat; let n := field b 16 4
    ∃ ss sb ds db, bufOf d t (field b 0 4) = some (ss, sb) ∧ bufOf d t (field b 8 4) = some (ds, db) ∧ n = 4096 ∧ field b 20 4 = 2048 ∧
      field b 4 4 + n ≤ sb.size ∧ field b 12 4 + n ≤ db.size ∧ ss ≠ ds ∧ isMounted d t ds db.gen = false ∧
      hostHeld sb (field b 4 4) n = false ∧ hostHeld db (field b 12 4) n = false ∧ p.reads = none ∧
      ((copyBursts sb (field b 4 4) (field b 12 4) n (field b 20 4)).map fun x => (channelOf x.1).isSome) = [far, far])

theorem test_hyp_MemCopy : CopyCase true ∧ CopyCase false ∧
    Meets (memSpec 0x0209 0) (fun _ p _ d => ∃ pt, partOf d p.hdr.tenant.toNat = some pt) :=
  ⟨meets_tenant 0x0206 1 0 (h0 ++ zeros 4 ++ h1 ++ zeros 4 ++ [0, 16, 0, 0, 0, 8, 0, 0]) (memDev .d false 2)
     ⟨0, _, 1, _, rfl, rfl, by decide, by decide, by decide, by decide, by decide, by decide, by decide, by decide, rfl, by decide⟩,
   meets_tenant 0x0206 1 0 (h0 ++ zeros 4 ++ h1 ++ zeros 4 ++ [0, 16, 0, 0, 0, 8, 0, 0]) (memDev .ds false 2)
     ⟨0, _, 1, _, rfl, rfl, by decide, by decide, by decide, by decide, by decide, by decide, by decide, by decide, rfl, by decide⟩,
   meets_tenant 0x0209 1 0 [] (memDev .d false 2) ⟨_, rfl⟩⟩

theorem test_hyp_HomesAreFree : homesFor [0, 1] [4096, 4096] 1 [(channelBase 1, 4096)] = some [channelBase 1 + 4096, channelBase 0] := by
  decide +kernel

theorem test_hyp_MovementEngine :
    coreAlive dev1 = true ∧ bufOf (memDev .promoting false 2) 1 0x10001000 = some (0, buf1 .promoting false 2) ∧
    (0x10001000 : W32).toNat / 2 ^ 28 = 1 ∧ (buf1 .promoting false 2).extents[0]? = some (ext1 .promoting false) ∧
    (ext1 .promoting false).home = some dramBase ∧ (ext1 .promoting false).copy = some 0 ∧
    copying (memDev .promoting false 2) 1 0 1 0 = false ∧ (ext1 .evicting false).state = .evicting ∧
    extentOf (memDev .evicting false 2) 1 0 0 = some (ext1 .evicting false) ∧
    (∃ d : Device, ∃ r ∈ d.mem.scrubbing, r.1 ≤ 4095 ∧ 4095 < r.1 + r.2) :=
  ⟨by decide, by decide, by decide, by decide, by decide, by decide, by decide, by decide, by decide,
   { dev1 with mem := { dev1.mem with scrubbing := [(0, 4096)] } }, (0, 4096), by decide, by decide, by decide⟩
/-! ### A job with a step, its skein and its window -/

/-- A weight container of one tile whose one block is stored as nothing (mode 2). -/
def container1 : List Byte :=
  [1, 0, 4, 0] ++ zeros 4 ++ [0xC0, 9] ++ zeros 6 ++ [1, 0, 0, 0, 0, 1] ++ zeros 170 ++ [0, 0, 0, 0x80]

def item1 : FetchItem := { container := 0, block := 0, skip := 0, take := 64, dest := 0 }
def layer1 (skip : Bool) : LayerPlan :=
  { a := 1, b := 1, skippable := skip, residual := true, writesKv := false, outAt := (0, 0, 0, 0), fetch := [[item1]] }
def atomic1 : AtomicSite :=
  { site := 0, home := 0, parts := [0], dest := 0, rowBytes := 64, rows := 1, knot := 4096, expected := 1, drain := 0x11 }
def plan1 (skip : Bool) : Plan :=
  { tiles := 1, window := [4096], rowBytes := 64, layers := [layer1 skip, layer1 skip], sites := [], atomics := [atomic1], attn := []
    inRow := 64, outRow := 64, modes := [], tileHdrs := [], adapterLayers := [], passTpl := [], vecTpl := [], containers := [], planAt := 0 }
def skein1 (skip : Bool) : Skein :=
  { tenant := 1, handle := 0x10001000, off := 0, length := 4096, sections := 1, digest := [], adapter := false, base := []
    plan := plan1 skip, shared := 0 }

def ref2 : Ref := { chan := .host, tag := 2 }
def step1 : StepRun :=
  { rows := [{ ref := ref2, n := 1, pos := 0, prefill := true, depth := 0 }], t0 := 0, dstep := some 1000000000, snaps := []
    snapMain := [], snapDraft := [], total := 2, labels := [[0], [1]] }
def job1 (st : Option StepRun) : Job := { main := 0, tiles := 1, budget := 128, prefillMin := 64, step := st }
def req1 : Request :=
  { tenant := 1, job := 5, forward := false, flags := 0x21, seq := 0, transient := false, inCount := 4, inHandle := 0x10001000, inOff := 0
    outHandle := 0x10001000, outOff := 0, outLen := 256, maxTok := 4, parkMs := 1, topK := 0, temp := 0, seed := 0, knot := 0, stops := []
    deadline := noDeadline, order := 0 }

/-- Device 1 with job 5 of tenant 1 on tile 0. -/
def srvDev (st : Option StepRun) (skip : Bool) (ext : ExtState) (b : List Byte) (ws : List WinSlot) : Device :=
  let m := memDev ext false 2
  { m with
    fab := Mem.store [] dramBase b
    mem := { m.mem with skeins := [(0, skein1 skip)], windows := ws }
    serve := { pools := [(1, { count := 64, chans := [0, 1], base := 0x100000 })], seqs := [(0, { tenant := 1, skein := 0 })]
               jobs := [(jobKey 1 5, job1 st)], reqs := [(ref2, req1)] } }

def arbReq (lst : Nat) (l : Load_) : ArbReq := { who := 0, lst := lst, tenant := 1, job := 5, load := l }
/-- The load of a piece of the one block of slot 0. -/
def winLoad : Load_ := .window 0 0 0

/-- The owner of DRAM channel 0's point. -/
def owned (r : ArbReq) (d : Device) : Device := onArb 0 (fun a => { a with owner := some r }) d

/-- The fetch of the one block of a container, in one piece of no stored bytes, or in a piece more. -/
def fetch1 (more : Bool) : BlockFetch :=
  { skein := 0, item := item1, off := 192, parts := (dramBase, 0, none) :: if more then [(dramBase + 64, 64, none)] else [] }
def slot1 (host more : Bool) : WinSlot :=
  { serial := 0, tenant := 1, job := 5, tile := 0, layer := 0, left := 1, onHost := host, blocks := [fetch1 more] }

/-- The device as a transfer lands: its piece has come. -/
def atBlock (d : Device) : Device :=
  onWin 0 (fun w => { w with left := w.left - 1, blocks := w.blocks.modify 0 fun f =>
    { f with parts := f.parts.modify 0 fun y => (y.1, y.2.1, some (fabRead d dramBase 0)) } }) d

/-- The fetch of slot 0 as its first piece has come. -/
def come (d : Device) : Option BlockFetch := ((atBlock d).mem.windows.find? fun w => w.serial == 0).bind fun w => w.blocks[0]?

/-- A copy in flight, and the transfer of its one burst. -/
def copyDev : Device := into { tenPkt 0x0206 1 0 [] with reads := some [], left := 1 } (memDev .d false 2)
def copyReq : ArbReq := { arbReq 4 (.copy ref1 1 0) with addr := dramBase, len := 64 }
def promoteReq : ArbReq := { arbReq 4 (.promote 0 1 0 0) with addr := dramBase, len := 4096 }
def partial1 : PartialRow := { tenant := 1, job := 5, serial := 0, tile := 0, dest := 0, row := [1] }

theorem test_hyp_StreamEngine_points :
    (let d := onArb 0 (fun a => { a with waiting := [arbReq 5 winLoad, arbReq 4 winLoad] }) dev1
     coreAlive d = true ∧ (arbOf d 0).owner = none ∧ (arbOf d 0).waiting ≠ [] ∧ pointOpen d 0 = true) ∧
    ((arbOf (owned (arbReq 4 winLoad) dev1) 0).owner = some (arbReq 4 winLoad) ∧ (arbReq 3 winLoad).lst < (arbReq 4 winLoad).lst ∧
     ({ arbReq 3 winLoad with who := 1 } : ArbReq).who ≠ (arbReq 4 winLoad).who ∧ ∀ die, (arbReq 4 winLoad).load ≠ .flash die) ∧
    (let d := srvDev (some step1) true .h [] [slot1 true false]
     jobOf d 1 5 = some (job1 (some step1)) ∧ (job1 (some step1)).step = some step1 ∧ (tilesOf (job1 (some step1)).tiles).idxOf? 0 = some 0 ∧
     (d.mem.windows.find? fun w => w.tenant == 1 && w.job == 5 && w.tile == 0 && w.onHost) = some (slot1 true false)) ∧
    (let d := srvDev (some step1) true .d [] []
     (d.mem.windows.find? fun w => w.tenant == 1 && w.job == 5 && w.tile == 0 && w.onHost) = none ∧
     nextFetch d 1 5 (job1 (some step1)) step1 0 0 = some 0) ∧
    badIn (owned (arbReq 4 winLoad) dev1) dramBase 64 = none ∧
    badIn { owned (arbReq 4 winLoad) dev1 with dram.bad := [dramBase] } dramBase 64 = some dramBase := by
  refine ⟨by decide, ⟨by decide, by decide, by decide, fun die h => nomatch h⟩, by decide, by decide, by decide, by decide⟩

set_option maxRecDepth 20000 in
theorem test_hyp_StreamEngine_landed :
    (∀ x ∈ [(container1, true), (container1.set 195 0xC0, false)], let d := srvDev (some step1) true .d x.1 [slot1 false false]
     (d.mem.windows.any fun w => w.serial == 0) = true ∧
     ((come d).map fun f => (f.whole, (placeBlock 0 f (atBlock d)).1)) = some (true, x.2)) ∧
    ((come (srvDev (some step1) true .d [] [slot1 false true])).map (·.whole)) = some false ∧
    ((srvDev (some step1) true .d [] []).mem.windows.any fun w => w.serial == 0) = false ∧
    ((findPacket copyDev ref1).isSome = true ∧ ∃ b, Assoc.find (arenaOf copyDev copyReq.tenant.toNat).bufs 1 = some b ∧ hostHeld b 0 64 = false) ∧
    (let d := memDev .promoting false 2
     Assoc.find (arenaOf d 1).bufs 0 = some (buf1 .promoting false 2) ∧ extentOf d 1 0 0 = some (ext1 .promoting false) ∧
     (buf1 .promoting false 2).gen = 1) := by
  refine ⟨by decide +kernel, by decide +kernel, by decide, ⟨by decide, _, rfl, by decide⟩, by decide⟩

theorem test_hyp_StreamEngine_late :
    (∀ skip : Bool, let d := srvDev (some step1) skip .d [] []
     d.pwr.stage < 2 ∧ step1.layer < step1.total ∧ step1.dstep.isSome = true ∧ step1.parks.contains .layer = false ∧
     remoteStage d (job1 (some step1)) step1 0 = false ∧ isLate d 1 5 (job1 (some step1)) step1 0 = true ∧ step1.loads = 0 ∧
     maySkip d 1 (job1 (some step1)) step1 0 = skip) ∧
    (let d := { dev1 with mem := { dev1.mem with partials := [partial1] } }
     (d.mem.partials.find? fun x => x.tile == 0 && x.dest == 0 && x.row == [1]) = some partial1) := by
  refine ⟨?_, by decide⟩
  intro skip
  cases skip <;> decide

/-! ### Hypotheses met: skeins -/

/-- Two buffers with bytes in the first: source, code table, scale vector or image; the first read from DRAM, or from its SRAM copy. -/
def srcDev (b : List Byte) (far : Bool := true) : Device :=
  { memDev (if far then .d else .ds) false 2 with fab := Mem.store [] (if far then dramBase else 0) b }

/-- What the statement asks of CONVERT beyond its fields: the source finite, the channel scales positive. -/
def ConvertCase (far : Bool) : Prop := Meets (memSpec 0x0300 48 [(44, 4)]) (fun _ p b d => let t := p.hdr.tenant
    ∃ (x : ConvArgs) (vec : Bool) (ss : Nat) (sb : Buffer) (so ds : Nat) (db : Buffer) (dd vs : Nat) (vb : Buffer) (vo need len : Nat),
    x = { n := field b 24 4, k := field b 28 4, tensor := field b 36 4, srcFmt := if field b 40 1 = 0x10 then bf16 else fp32,
          target := field b 41 1, group := field b 42 1, search := field b 43 1 == 1 } ∧
    vec = decide (field b 16 4 ≠ 0) ∧ len = x.n * x.k * (x.srcFmt.width / 8) ∧
    field b 40 1 = 0x10 ∧ (weightTileSize x.target).isSome = true ∧ x.group ≤ 2 ∧ field b 43 1 = 1 ∧
    x.n = 1 ∧ x.k = 1 ∧ spanOf d t.toNat (arenaRef b 0) len = .ok (ss, sb, so) ∧
    spanOf d t.toNat (arenaRef b 8) (field b 32 4) = .ok (ds, db, dd) ∧ vec = true ∧
    spanOf d t.toNat (arenaRef b 16) (4 * x.n) = .ok (vs, vb, vo) ∧ need = ceilDiv x.n 64 * ceilDiv x.k 64 * tileBytes x.target ∧
    spansMeet (ss, so, len) (ds, dd, field b 32 4) = false ∧
    spansMeet (vs, vo, 4 * x.n) (ds, dd, field b 32 4) = false ∧ isMounted d t.toNat ds db.gen = false ∧ need = field b 32 4 ∧
    hostHeld sb so len = false ∧ hostHeld db dd (field b 32 4) = false ∧ hostHeld vb vo (4 * x.n) = false ∧ p.reads = none ∧
    (let rs := ((sb, so, len) :: if vec then [(vb, vo, 4 * x.n)] else []).flatMap fun y => sourceParts y.1 y.2.1 y.2.2
     let bytes := rs.flatMap fun y => fabRead d y.1 y.2
     (rs.map fun y => (channelOf y.1).isSome) = [far, far] ∧
     (convSource x.srcFmt (bytes.take len) (x.n * x.k)).all isFinite = true ∧
     ∀ y ∈ (convSource fp32 (bytes.drop len) x.n).map chanScale, y.isSome = true))

theorem test_hyp_Convert : ConvertCase true ∧ ConvertCase false :=
  ⟨meets_tenant 0x0300 1 0 (h0 ++ zeros 4 ++ h1 ++ zeros 4 ++ h0 ++ [64, 0, 0, 0, 1, 0, 0, 0, 1, 0, 0, 0, 0xC0, 9, 0, 0] ++ zeros 4 ++
      [0x10, 4, 2, 1, 0, 0, 0, 0])
    (srcDev ([0x80, 0x3F] ++ zeros 62 ++ [0, 0, 0x80, 0x3F]))
    ⟨_, true, 0, _, 0, 1, _, 0, 0, _, 64, 2496, _, rfl, by decide, rfl, by decide, by decide, by decide, by decide, by decide, by decide,
     rfl, rfl, rfl, rfl, by decide, by decide, by decide, by decide, by decide, by decide, by decide, by decide, rfl,
     by decide +kernel⟩,
   meets_tenant 0x0300 1 0 (h0 ++ zeros 4 ++ h1 ++ zeros 4 ++ h0 ++ [64, 0, 0, 0, 1, 0, 0, 0, 1, 0, 0, 0, 0xC0, 9, 0, 0] ++ zeros 4 ++
      [0x10, 4, 2, 1, 0, 0, 0, 0])
    (srcDev ([0x80, 0x3F] ++ zeros 62 ++ [0, 0, 0x80, 0x3F]) false)
    ⟨_, true, 0, _, 0, 1, _, 0, 0, _, 64, 2496, _, rfl, by decide, rfl, by decide, by decide, by decide, by decide, by decide, by decide,
     rfl, rfl, rfl, rfl, by decide, by decide, by decide, by decide, by decide, by decide, by decide, by decide, rfl,
     by decide +kernel⟩⟩

/-- A tile of zeros, and a table with one symbol, 0. -/
def packDev (far : Bool) : Device :=
  let a := if far then dramBase else 0
  { memDev (if far then .d else .ds) false 2 with fab := Mem.store (Mem.store [] a [4, 0, 2, 0, 64, 0, 64, 0]) (a + 2560) [1] }

def WpackCase (far : Bool) : Prop := Meets (memSpec 0x0301 32) (fun _ p b d => let t := p.hdr.tenant; let n := field b 24 4
    ∃ (ss : Nat) (sb : Buffer) (so ds : Nat) (db : Buffer) (dd vs : Nat) (vb : Buffer) (vo : Nat),
    spanOf d t.toNat (arenaRef b 0) n = .ok (ss, sb, so) ∧ spanOf d t.toNat (arenaRef b 8) (field b 28 4) = .ok (ds, db, dd) ∧
    spanOf d t.toNat (arenaRef b 16) 128 = .ok (vs, vb, vo) ∧ spansMeet (ss, so, n) (ds, dd, field b 28 4) = false ∧
    spansMeet (vs, vo, 128) (ds, dd, field b 28 4) = false ∧ isMounted d t.toNat ds db.gen = false ∧ hostHeld sb so n = false ∧
    hostHeld db dd (field b 28 4) = false ∧ hostHeld vb vo 128 = false ∧ p.reads = none ∧ n = 2496 ∧
    (let rs := [(sb, so, n), (vb, vo, 128)].flatMap fun y => sourceParts y.1 y.2.1 y.2.2
     let all := rs.flatMap fun y => fabRead d y.1 y.2
     let src := all.take n; let tbl := all.drop n
     (rs.map fun y => (channelOf y.1).isSome) = [far, far] ∧
     (weightTileSize (field src 0 1)).isSome = true ∧ n % tileBytes (field src 0 1) = 0 ∧
     tilesOk src (tileBytes (field src 0 1)) (n / tileBytes (field src 0 1)) = true ∧ tableOk (codeLengths tbl) = true ∧
     symbolsCoded (codeLengths tbl) (tileBytes (field src 0 1)) src = true ∧
     (packContainer (field src 0 1) (field src 1 1) (field src 16 4) tbl src).1.length ≤ field b 28 4))

set_option maxRecDepth 20000 in
theorem test_hyp_Wpack : WpackCase true ∧ WpackCase false :=
  ⟨meets_tenant 0x0301 1 0 (h0 ++ zeros 4 ++ h1 ++ zeros 4 ++ h0 ++ [0, 10, 0, 0, 0xC0, 9, 0, 0, 0, 16, 0, 0]) (packDev true)
    ⟨0, _, 0, 1, _, 0, 0, _, 2560, rfl, rfl, rfl, by decide, by decide, by decide, by decide, by decide, by decide, rfl, by decide,
     by decide +kernel⟩,
   meets_tenant 0x0301 1 0 (h0 ++ zeros 4 ++ h1 ++ zeros 4 ++ h0 ++ [0, 10, 0, 0, 0xC0, 9, 0, 0, 0, 16, 0, 0]) (packDev false)
    ⟨0, _, 0, 1, _, 0, 0, _, 2560, rfl, rfl, rfl, by decide, by decide, by decide, by decide, by decide, by decide, rfl, by decide,
     by decide +kernel⟩⟩
/-- The smallest image: a header and one directory entry for the 16 bytes of the entry itself. -/
def img2 : List Byte :=
  [1, 0, 0, 0, 1, 0, 0, 0, 80] ++ zeros 55 ++ [1, 0, 0, 0, 64, 0, 0, 0, 16] ++ zeros 7

/-- SKEIN_MOUNT asks what the image's sections say, which Config leaves open: here they spell a plan that R240 accepts. -/
theorem test_hyp_SkeinMount (h : Config.skeinPlan img2 = { plan1 false with window := [128] }) :
    Meets (memSpec 0x0302 8) (fun _ p b d => let t := p.hdr.tenant
      ∃ slot buf off img, spanOf d t.toNat (arenaRef b 0) 1 = .ok (slot, buf, off) ∧
        (d.mem.skeins.filter fun x => x.2.tenant == t).length < 64 ∧ hostHeld buf off (buf.size - off) = false ∧
        skeinHeader (buf.size - off) (bufRead d buf off (min (buf.size - off) 1088)) = none ∧
        bufBad d buf off (min (buf.size - off) (max 1088 (field (bufRead d buf off (min (buf.size - off) 1088)) 8 8))) = none ∧
        img = bufRead d buf off (field (bufRead d buf off (min (buf.size - off) 1088)) 8 8) ∧ skeinFault d t (buf.size - off) img = none) := by
  refine meets_tenant 0x0302 1 0 (h0 ++ [0xB0, 0x0F, 0, 0]) (let d := memDev .d false 2
    { d with fab := Mem.store [] (dramBase + 4016) img2 }) ⟨0, buf1 .d false 2, 4016, img2, rfl, by decide, by decide, by decide +kernel,
      by decide +kernel, by decide +kernel, ?_⟩
  unfold skeinFault
  rw [h]
  decide +kernel

theorem test_hyp_SkeinPackets :
    Meets (memSpec 0x0303 4 [(2, 2)]) (fun _ p b d => ∃ k, Assoc.find d.mem.skeins (field b 0 2) = some k ∧ k.tenant = p.hdr.tenant ∧
      skeinInUse d (field b 0 2) k = false) ∧
    Meets (memSpec 0x0304 4 [(2, 2)]) (fun _ p b d => ∃ k, Assoc.find d.mem.skeins (field b 0 2) = some k ∧
      mayUse d p.hdr.tenant (field b 0 2) = true) :=
  let d : Device := { dev1 with mem := { dev1.mem with skeins := [(0, skein1 true)] } }
  ⟨meets_tenant 0x0303 1 0 [0, 0, 0, 0] d ⟨_, rfl, rfl, by decide⟩, meets_tenant 0x0304 1 0 [0, 0, 0, 0] d ⟨_, rfl, by decide⟩⟩

/-! ### Hypotheses met: serving and steps -/

/-- Device 1 with an open partition in place of a sealed one. -/
def openPart (d : Device) : Device := { d with sec := { d.sec with parts := [(1, { part1 with sealed := false }), (2, { part1 with sealed := false })] } }

theorem test_hyp_ServingPackets :
    Meets (serveSpec 0x0400 16 [(7, 1)]) (fun _ p b d => jobOpenError d p.hdr.tenant p.hdr.job (field b 0 2)
      (if field b 2 2 = 0xFFFF then none else some (field b 2 2)) (if field b 4 2 = 0xFFFF then none else some (field b 4 2)) (field b 6 1)
      (word32 b 8) (if field b 12 2 = 0 then d.serve.stepTokens.toNat else field b 12 2)
      (if field b 14 2 = 0 then d.serve.prefillMin.toNat else field b 14 2) = none) ∧
    Meets { opcode := 0x0401, size := some 4, part := true, reserved := [(1, 3)], bits := [(0, 0xFE)] } (fun _ p b d =>
      ∃ j, jobOf d p.hdr.tenant p.hdr.job = some j ∧ j.closing = false ∧ j.manager = none ∧ bitOf (field b 0 4) 0 = false) ∧
    Meets { opcode := 0x0401, size := some 4, part := true, reserved := [(1, 3)], bits := [(0, 0xFE)] } (fun _ p b d =>
      ∃ j, jobOf d p.hdr.tenant p.hdr.job = some j ∧ j.closing = false ∧ j.manager = none ∧ bitOf (field b 0 4) 0 = true) ∧
    Meets (serveSpec 0x0407 0) (fun _ _ _ _ => True) ∧
    Meets (serveSpec 0x0408 4 [(3, 1)]) (fun _ p b d => ∃ k pt, Assoc.find d.mem.skeins (field b 0 2) = some k ∧ k.tenant = p.hdr.tenant ∧
      k.adapter = false ∧ partOf d p.hdr.tenant.toNat = some pt ∧ pt.sealed = false ∧
      ∀ n, n < 8 → (byteAt b 2).getLsbD n = true → ∃ x, partOf d (n + 1) = some x ∧ x.sealed = false) := by
  refine ⟨meets_tenant 0x0400 1 6 [0, 0, 0xFF, 0xFF, 0xFF, 0xFF, 0, 0, 1, 0, 0, 0, 0, 0, 0, 0] (srvDev none true .d [] []) (by decide),
    meets_tenant 0x0401 1 5 [0, 0, 0, 0] (srvDev none true .d [] []) ⟨job1 none, by decide +kernel, rfl, rfl, by decide⟩,
    meets_tenant 0x0401 1 5 [1, 0, 0, 0] (srvDev none true .d [] []) ⟨job1 none, by decide +kernel, rfl, rfl, by decide⟩,
    meets_tenant 0x0407 1 0 [] dev1 trivial,
    meets_tenant 0x0408 1 0 [0, 0, 2, 0] (openPart (srvDev none true .d [] [])) ⟨_, _, rfl, rfl, rfl, rfl, rfl, ?_⟩⟩
  intro n hn hb
  have h : n = 1 := by
    have hall : ∀ n, n < 8 → (2 : Byte).getLsbD n = true → n = 1 := by decide
    exact hall n hn hb
  subst h
  exact ⟨_, rfl, rfl⟩

/-- A SERVE_SUBMIT that was accepted with tag 2, and the packet that cancels it. -/
def submitPkt : Packet := { tenPkt 0x0402 1 5 [] with hdr := { hdr 0x0402 1 1 5 24 with tag := 2 } }
def withSubmit (d : Device) : Device := { into (tenPkt 0x0403 1 5 [2, 0, 0, 0]) d with
  cmd := { d.cmd with flight := [tenPkt 0x0403 1 5 [2, 0, 0, 0], submitPkt] } }

/-- The checks of the cancel packet, its own packet first in flight. -/
theorem admits_cancel (d : Device) (hr : isReady d = true) (hp : partOf d 1 = some part1) (hc : (countersOf d [1]).last = 0) :
    Admits (serveSpec 0x0403 4 [(2, 2)]) ref1 (tenPkt 0x0403 1 5 [2, 0, 0, 0]) [2, 0, 0, 0] (some 1) (withSubmit d) where
  found := by unfold findPacket withSubmit; rfl
  opcode := by decide
  ready := hr
  fresh := rfl
  turn := by unfold canStart withSubmit; rfl
  size := by simpa only [plainLen_sealed] using (by decide : (serveSpec 0x0403 4 [(2, 2)]).size.all (fun n => ([2, 0, 0, 0] : List Byte).length == n) = true)
  range := by decide
  formed := fun _ => by show (partOf d 1).isSome = true; rw [hp]; rfl
  staying := by
    intro h
    exfalso
    have h' : (match partOf d 1 with | some q => q.removal.isSome || decide (d.clock < q.fencedTo) | none => false) = true := h
    rw [hp] at h'
    cases h'
  authentic := opens_sealed _ _ _ _ _ _ _ _ hc
  zero := by decide
  role := fun h => absurd h (by decide)
  dev := fun h => absurd h (by decide)
  part := fun _ => rfl

/-- A request of one token, in a step that commits it or in none. -/
def cancelDev (last : Bool) : Device :=
  let d := srvDev (if last then some { step1 with rows := [{ ref := ref2, n := 4, pos := 0, prefill := true, depth := 0 }] } else none)
    true .d [] []
  withSubmit { d with serve := { d.serve with reqs := [(ref2, { req1 with maxTok := 1 })] } }

theorem test_hyp_ServeCancel :
    (∀ last : Bool, let f := admitted (tenPkt 0x0403 1 5 [2, 0, 0, 0]) [2, 0, 0, 0] (some 1) (cancelDev last)
      Admits (serveSpec 0x0403 4 [(2, 2)]) ref1 (tenPkt 0x0403 1 5 [2, 0, 0, 0]) [2, 0, 0, 0] (some 1) (cancelDev last) ∧
      findPacket f ref2 = some submitPkt ∧ submitPkt.hdr.opcode = 0x0402 ∧ submitPkt.hdr.tenant = 1 ∧
      reqOf f ref2 = some { req1 with maxTok := 1 } ∧ req1.ending = none ∧ completionWins f ref2 { req1 with maxTok := 1 } = last) ∧
    (let f := admitted (tenPkt 0x0403 1 5 [2, 0, 0, 0]) [2, 0, 0, 0] (some 1) (withSubmit dev1)
     findPacket f ref2 = some submitPkt ∧ reqOf f ref2 = none ∧ submitPkt.started = false) := by
  refine ⟨fun last => ⟨admits_cancel _ rfl rfl rfl, ?_⟩, rfl, rfl, rfl⟩
  cases last <;> exact ⟨rfl, rfl, rfl, rfl, rfl, rfl⟩

theorem test_hyp_SequenceEdits :
    Meets (serveSpec 0x0404 8 [(2, 2)]) (fun _ p b d => ∃ x, hostSeq d p.hdr.tenant (field b 0 2) = some x ∧
      seqRoom d p.hdr.tenant.toNat (if x.companion.isSome then 2 else 1) = true ∧ skeinRuns d p.hdr.tenant.toNat x.skein = true) ∧
    Meets (serveSpec 0x0405 8 [(2, 2)]) (fun _ p b d => ∃ x, hostSeq d p.hdr.tenant (field b 0 2) = some x ∧ field b 4 4 ≤ x.committed ∧ seqBusy d (field b 0 2) = false) ∧
    Meets (serveSpec 0x0406 4 [(2, 2)]) (fun _ p b d => ∃ x, hostSeq d p.hdr.tenant (field b 0 2) = some x ∧ seqBusy d (field b 0 2) = false ∧
      skeinRuns d p.hdr.tenant.toNat x.skein = false) :=
  let d := srvDev none true .d [] []
  let idle : Device := { d with serve := { d.serve with reqs := [] } }
  ⟨meets_tenant 0x0404 1 0 [0, 0, 0, 0, 0, 0, 0, 0] (srvDev (some step1) true .d [] []) ⟨_, rfl, by decide, by decide⟩,
   meets_tenant 0x0405 1 0 [0, 0, 0, 0, 0, 0, 0, 0] idle ⟨_, rfl, by decide, by decide⟩,
   meets_tenant 0x0406 1 0 [0, 0, 0, 0] idle ⟨_, rfl, by decide, by decide⟩⟩

/-- A new sequence, four input tokens, four output tokens, both buffers of `memDev`. -/
def submitBytes : List Byte :=
  [0, 1, 0, 0, 4, 0, 0, 0] ++ h0 ++ zeros 4 ++ h1 ++ zeros 4 ++ [0, 16, 0, 0, 4] ++ zeros 51

/-- A pool of a size for a job with one attention layer, and a job's budget. -/
def admitDev (pages pmin : Nat) : Device :=
  let d := srvDev none true .d [] []
  { d with
    mem := { d.mem with skeins := [(0, { skein1 true with plan := { plan1 true with
      attn := [{ layer := 0, d := 64, groups := 1, width := 64, mode := 0, causal := true, window := 0 }] } })] }
    serve := { d.serve with reqs := [], pools := [(1, { count := pages, chans := [0], base := 0 })]
                            jobs := [(jobKey 1 5, { job1 none with prefillMin := pmin })] } }

theorem test_hyp_AdmissionReservesPages :
    ∀ x ∈ [((1 : Nat), (64 : Nat)), (2, 128), (2, 64)], Meets submitSpec (fun s p b d => let q := begun p b; let t := p.hdr.tenant
      ∃ j, jobOf d t p.hdr.job = some j ∧ s.dev.pwr.stage < 2 ∧ s.dev.pwr.coolant ≠ 2 ∧ j.closing = false ∧ j.place ≠ .broken ∧
        (let y := requestOf q b d j.depth
         argError d t (planOf d j.main) none y b = none ∧ j.twinned = false ∧ j.audit = none ∧ j.manager = none ∧
         ((bufOf d t.toNat y.inHandle.toNat).bind fun z => bufBad d z.2 y.inOff.toNat (inputLen (planOf d j.main) y)) = none ∧ y.forward = false ∧ y.newSeq = true ∧ seqRoom d t.toNat 1 = true ∧
         lengthOk 0 y j.depth = true ∧ j.draft = none ∧ admitNeed d j.main none (y.inCount + y.maxTok) = 2 ∧
         (x.1 = 1 → freePages (poolOf d t.toNat) + 1 = (poolOf d t.toNat).reserved + 2) ∧
         (x.1 = 2 → (poolOf d t.toNat).reserved + 2 = freePages (poolOf d t.toNat)) ∧
         (x.2 = 128 → admitsTime d t p.hdr.job j y = false) ∧ (x.2 = 64 → admitsTime d t p.hdr.job j y = true) ∧ j.twinned = false ∧
         reqOf d (refOf p) = none)) := by
  intro x hx
  simp only [List.mem_cons, List.not_mem_nil, or_false] at hx
  obtain rfl | rfl | rfl := hx
  · exact meets_tenant 0x0402 1 5 submitBytes (admitDev 1 64) ⟨job1 none, by decide +kernel, by decide +kernel⟩
  · exact meets_tenant 0x0402 1 5 submitBytes (admitDev 2 128) ⟨{ job1 none with prefillMin := 128 }, by decide +kernel, by decide +kernel⟩
  · exact meets_tenant 0x0402 1 5 submitBytes (admitDev 2 64) ⟨job1 none, by decide +kernel, by decide +kernel⟩
/-- The scheduler's list for one tile mask, in the order of the table. -/
def startList (d : Device) (m : W32) : List (Nat × Nat × Job) :=
  (d.serve.jobs.filter (mayStart d m)).filterMap fun x =>
    (bestDeadline d (BitVec.ofNat 8 (x.1 / 2 ^ 32)) (BitVec.ofNat 32 x.1) x.2).map fun e => (e, x)

def startDev : Device := srvDev none true .d [] []
def ready (m : W32) (d : Device) : Device := holdJobs m (offerPools m d)

theorem startDev_order : startOrder (ready 1 startDev) 1 = [(noDeadline, jobKey 1 5, job1 none)] := by
  show (startList (ready 1 startDev) 1).mergeSort (jobBefore _) = _
  rw [show startList (ready 1 startDev) 1 = [(noDeadline, jobKey 1 5, job1 none)] by decide +kernel, List.mergeSort_singleton]

/-- The same job with no rows in its budget. -/
def emptyJob : Job := { job1 none with budget := 0 }
def emptyDev : Device := { startDev with serve := { startDev.serve with jobs := [(jobKey 1 5, emptyJob)] } }

theorem emptyDev_order : startOrder (ready 1 emptyDev) 1 = [(noDeadline, jobKey 1 5, emptyJob)] := by
  show (startList (ready 1 emptyDev) 1).mergeSort (jobBefore _) = _
  rw [show startList (ready 1 emptyDev) 1 = [(noDeadline, jobKey 1 5, emptyJob)] by decide +kernel, List.mergeSort_singleton]

theorem startDev_none : startOrder (ready 2 startDev) 2 = [] := by
  show (startList (ready 2 startDev) 2).mergeSort (jobBefore _) = _
  rw [show startList (ready 2 startDev) 2 = [] by decide +kernel, List.mergeSort_nil]

theorem test_hyp_StepStart :
    stepsOpen startDev = true ∧ startOrder (ready 2 startDev) 2 = [] ∧
    startOrder (ready 1 startDev) 1 = [(noDeadline, jobKey 1 5, job1 none)] ∧
    hasStep (noDeadline, jobKey 1 5, job1 none) (startStep 1 5 (job1 none) (ready 1 startDev)) = true ∧
    stepsOpen emptyDev = true ∧ startOrder (ready 1 emptyDev) 1 = [(noDeadline, jobKey 1 5, emptyJob)] ∧
    hasStep (noDeadline, jobKey 1 5, emptyJob) (startStep 1 5 emptyJob (ready 1 emptyDev)) = false :=
  ⟨by decide, startDev_none, startDev_order, by decide +kernel, by decide, emptyDev_order, by decide +kernel⟩

/-- A sequence parked for pages, with a step of its skein under way or none. -/
def parkedDev (run : Bool) : Device := let d := srvDev (if run then some step1 else none) true .d [] []
  { d with serve := { d.serve with
    reqs := [(ref2, { req1 with state := 4 })], seqs := [(0, { tenant := 1, skein := 0, parked := some 7 })] } }

theorem test_hyp_ParkLimit : ∀ run : Bool,
    ((parkedDev run).serve.reqs.find? fun x => x.1.tag == 2 && x.2.tenant == 1) = some (ref2, { req1 with state := 4 }) ∧
    (seqOf (parkedDev run) req1.seq).map (·.parked.isSome) = some true ∧ isReady (parkedDev run) = true := by decide

/-- A step at a phase of layer 0, and the rows that it reads back from a spill extent of buffer 1. -/
def atPhase (ph : Nat) (sp : List SpillSpec) : StepRun := { step1 with dstep := none, phase := ph, spillsIn := sp }
def spill1 (load : Bool) : SpillSpec := { load := load, mode := 0, rows := 1, cols := 32, at_ := 0, exps := 4096, handle := 0x10001001, off := 0 }
def spillList (load : Bool) : ListSpec := { tile := 0, addr := 0, vector := false, engine := false, spills := [spill1 load] }

/-- A device whose job has its slots ready, of a plan with attention in layer 0 or none. -/
def layerDev (st : StepRun) (attn : Bool) : Device :=
  let d := srvDev (some st) true .d [] [{ slot1 false false with left := 0 }]
  let a : AttnLayer := { layer := 0, d := 64, groups := 1, width := 64, mode := 0, causal := true, window := 0 }
  { d with mem := { d.mem with skeins := [(0, { skein1 true with plan := { plan1 true with attn := if attn then [a] else [] } })] } }

theorem test_hyp_LayerQueue :
    (∀ ph ∈ [0, 1, 2, 3], ∀ sp ∈ [[], [spill1 true]], let st := atPhase ph sp; let d := layerDev st false
     jobOf d 1 5 = some (job1 (some st)) ∧ isReady d = true ∧ st.awaitTwin = false ∧ st.parks = [] ∧ st.layer < st.total ∧
     remoteStage d (job1 (some st)) st 0 = false ∧ slotsReady d 1 5 (job1 (some st)) st 0 = true ∧ st.loads = 0 ∧ st.queued = [] ∧
     (∀ load : Bool, (spillsOf ([spillList load].filter fun q => (job1 none).tiles.getLsbD q.tile.toNat)).map (·.2) = [spill1 load] ∧
       spillHeld d 1 (job1 (some st)) (spillsOf [spillList load]) = [])) ∧
    ((spillsOf [spillList true]).filter fun x => x.2.load && !(atPhase 0 []).spillsIn.contains x.2) ≠ [] ∧
    spill1 true ∈ (atPhase 0 [spill1 true]).spillsIn := by decide +kernel

/-- A list whose one pass signals a knot that no one owns. -/
def badList : ListSpec := { tile := 0, addr := 0, vector := false, engine := false, bytes := (passBytes 1 0 0 0).take 104 ++ [0, 16, 0, 0x80] ++ zeros 20 ++ [0xFF] ++ zeros 127 }

theorem test_hyp_QueueLists :
    (∀ attn : Bool, let d := layerDev (atPhase 0 []) attn
     (jobOf d 1 5).bind (·.step) = some (atPhase 0 []) ∧ (attnOf d (job1 (some (atPhase 0 []))) (atPhase 0 []) 0).isSome = attn) ∧
    listKnotsOk (placeList badList (layerDev (atPhase 0 []) false)) 1 badList = false ∧
    ([] : List ListSpec).all (listKnotsOk (layerDev (atPhase 0 []) false) 1) = true := by
  decide +kernel

def doneStep : StepRun := { step1 with layer := 2 }

theorem test_hyp_StepSample :
    (let d := srvDev (some doneStep) true .d [] []
     jobOf d 1 5 = some (job1 (some doneStep)) ∧ isReady d = true ∧ doneStep.awaitTwin = false ∧ doneStep.total ≤ doneStep.layer ∧
     doneStep.queued = [] ∧ doneStep.parks = [] ∧
     ∀ x ∈ doneStep.rows, (reqOf d x.ref).map (ioHeld d) = some []) ∧
    agreeing [1, 2] [1, 3] < ([1, 2] : List W32).length ∧ agreeing [1, 2] [1, 3] < ([1, 3] : List W32).length := by
  decide +kernel

/-! ### Hypotheses met: links and pods -/

def peer1 : PeerParams :=
  { deviceId := 1, pod := 0, manager := false, port := 0, mode := 1, buffers := [], lastSeq := 0, lanes := 0xF, serial := 0 }

/-- Device 1 with port 0 as stated. -/
def portDev (x : LinkPort) : Device := { dev1 with link := { dev1.link with ports := [(0, x)] } }
def trainingPort : LinkPort := { state := .training, trying := 0xF, train := .bitLock }
def replay1 : Replay := { seq := 1, vc := 0, body := [], at_ := 0 }
def upPort : LinkPort := { state := .up, lanes := 0xF, peer := some peer1, replay := [replay1], replays := 6 }

/-- A flit with its CRC. -/
def flitOf (kind seq : Byte) (crc : List Byte) : List Byte := [kind, 0, seq, 0] ++ zeros 248 ++ crc

theorem test_hyp_Links :
    (coreAlive (portDev {}) = true ∧ (portOf (portDev { state := .down }) 0).state = .down ∧ ({ state := .down } : LinkPort).mode ≠ modeOff ∧
      ¬(1 ≤ ({ state := .down, cause := 4 } : LinkPort).cause.toNat ∧ ({ state := .down, cause := 4 } : LinkPort).cause.toNat ≤ 3)) ∧
    (portOf (portDev trainingPort) 0 = trainingPort ∧ trainingPort.state = .training ∧ trainingPort.train = .bitLock ∧
      trainingPort.trying.getLsbD 3 = true ∧ trainingPort.bitAt + 10000000 ≤ trainingPort.trainAt + 50000000) ∧
    (({ trainingPort with train := .detect } : LinkPort).trainAt + 50000000 < trainingPort.trainAt + 40000001 + 10000000) ∧
    (∀ x : Nat × Bool, x ∈ [(1, true), (50000001, false)] →
      let t : TrainTimes := { detect := x.1, bitLock := 0, blockLock := 0, deskew := 0, param := 0 }
      decide ((portDev trainingPort).clock + t.detect ≤ trainingPort.trainAt + 50000000) = x.2) ∧
    (let l := widestSet trainingPort.maxWidth (trainingPort.trying &&& peer1.lanes)
     paramCause (portDev trainingPort) trainingPort peer1 l = 0 ∧
     paramCause (portDev trainingPort) trainingPort { peer1 with mode := 2 } l ≠ 0 ∧
     ({ trainingPort with retrain := true } : LinkPort).retrain = true ∧ trainingPort.retrain = false) ∧
    (portOf (portDev upPort) 0 = upPort ∧ upPort.state = .up ∧ upPort.replay = [replay1] ∧ upPort.replays < 8 ∧ upPort.recent.length < 64 ∧
      8 ≤ ({ upPort with replays := 8 } : LinkPort).replays ∧ upPort.waiting = []) := by
  decide

set_option maxRecDepth 20000 in
theorem test_hyp_Flits :
    (∀ x ∈ [((1 : Byte), (1 : Byte), [0xFA, 0xCC, 0xF8, 0x58]), (1, 2, [0xA8, 0x94, 0xB0, 0x25]), (2, 0, [0x0B, 0x03, 0xAB, 0x4F]),
        (0, 0, [0x21, 0x53, 0xE6, 0x67]), (3, 0, [0x1E, 0xAB, 0x8D, 0x5B])],
      let f := flitOf x.1 x.2.1 x.2.2
      f.length = 256 ∧ (crc32c (f.take 252)).toNat = field f 252 4 ∧ field f 0 1 = x.1.toNat ∧
      (word16 f 2 == upPort.accepted + 1) = (x.2.1 == 1)) ∧
    (let f := flitOf 1 1 (zeros 4)
     f.length = 256 ∧ (crc32c (f.take 252)).toNat ≠ field f 252 4) := by
  decide +kernel

theorem test_hyp_Reassembly :
    let m : Reasm := { src := 1, msg := 9, head := [], bytes := [], next := 1, at_ := 0 }
    let d : Device := { dev1 with link := { dev1.link with reasm := [m] } }
    coreAlive d = true ∧ anyShed d = false ∧ (d.link.reasm.find? fun m => m.src == 1 && m.msg == 9) = some m := by
  decide

/-- A message of control to device 1, with no pod key, with one and no port, and with both. -/
def out1 : OutMsg := { kind := 0, dest := 1, tenant := 0, job := 0, epoch := 0, body := .epoch 0 false }
def keyed (d : Device) : Device := { d with sec := { d.sec with podKeys := [[1]] } }

/-- Port 0 up, with a route to device 1. -/
def routedDev : Device := let d := portDev upPort; { d with link := { d.link with routes := [(1, [0])] } }

theorem test_hyp_SendMsg : sealKey dev1 out1 = none ∧ sealKey (keyed dev1) out1 = some ([1], true) ∧ ownPort (keyed dev1) out1 = none ∧
    ownPort (keyed routedDev) out1 = some 0 := by
  decide

/-- Device 1 with job 5 as a stage job of manager 0, or as its own. -/
def stageDev (mgr : Bool) : Device :=
  let d := srvDev none true .d [] []
  { d with
    link := { d.link with manager := !mgr, pod := 0, member := if mgr then 2 else 0 }
    host := { d.host with deviceId := if mgr then 2 else 0 }
    serve := { d.serve with jobs := [(jobKey 1 5, { job1 none with
      manager := if mgr then some 0 else none, shadows := [(3, 0)], place := if mgr then .none else .placing, awaited := [1], epochOut := !mgr
      stages := [{ first := 0, last := 1, device := 1, tiles := 1 }] })] } }

def msg1 (src : BitVec 12) (epoch : W16) : JobMsg := { src := src, job := 5, tenant := 1, epoch := epoch }

/-- The header of a message that has passed its checks. -/
def inHead (kind : Nat) (m : JobMsg) : List Byte :=
  leBytes 2 1 ++ leBytes 2 m.src.toNat ++ leBytes 4 m.job.toNat ++ leBytes 2 m.epoch.toNat ++ [m.tenant, BitVec.ofNat 8 kind] ++ leBytes 2 9

def withIn (twin : Bool) (kind : Nat) (m : JobMsg) (d : Device) : Device :=
  { d with link := { d.link with inbox := [{ twin := twin, head := inHead kind m, plain := [] }] } }

/-- What a message finds: the device once it has been taken up. -/
def got (k : Nat) (m : JobMsg) (d : Device) : Option Device := (takeMsg false k (some m.src) (headFits k m) d).map (wakeUp 4)

theorem test_hyp_PodMessages_stale : ∀ k ∈ [1, 2, 3, 4, 5, 6, 7], (got k (msg1 0 0) (stageDev true)).isNone = true ∧
    ((got k (msg1 0 1) (withIn false k (msg1 0 1) (stageDev true))).map fun d => (currentJob d (msg1 0 1)).isNone) = some true := by
  decide +kernel

/-- What the current job of a message is like. -/
def current (k : Nat) (m : JobMsg) (d : Device) (P : Device → Job → Bool) : Bool :=
  (got k m (withIn false k m d)).any fun d => (currentJob d m).any (P d)

theorem test_hyp_PodMessages_worker : coreAlive (stageDev true) = true ∧ ∀ k ∈ [1, 2, 3, 4, 5, 6, 7], current k (msg1 0 0) (stageDev true)
    (fun _ j => j.manager == some 0 && j.shadows == [(3, 0)] && j.tiles == 1 && (j.stages.map (·.first)) == [0]) = true := by decide +kernel

theorem test_hyp_PodMessages_manager : coreAlive (stageDev false) = true ∧ ∀ k ∈ [1, 4], current k (msg1 1 0) (stageDev false)
    (fun d j => j.manager.isNone && (stageDevices d j).contains 1) = true := by decide +kernel

theorem test_hyp_PodMessages_operands :
    (tilesOf (job1 none).tiles)[0]? = some 0 ∧ (zeros 128).length = codedLen 0 1 32 ∧ (zeros 64).length ≠ codedLen 0 1 32 ∧
    ownsKnot (knotDev 0 0) 1 4096 = true ∧ (shadowOf (msg1 0 0) (job1 none) 4 (stageDev true)).isSome = true := by
  decide +kernel

theorem test_hyp_Control :
    (takeMsg false 0 (some 0) (fun _ => true) (stageDev true)).isNone = true ∧
    ((takeMsg false 0 (some 0) (fun _ => true) (withIn false 0 (msg1 0 0) (stageDev true))).map fun d =>
      (decide ((0 : BitVec 12) = managerId d), d.link.manager, (jobOf d 1 5).map (·.manager))) = some (true, false, some (some 0)) ∧
    ((takeMsg false 0 (some 1) (fun _ => true) (withIn false 0 (msg1 1 0) (stageDev false))).map (·.link.manager)) = some true := by
  decide +kernel

theorem test_hyp_PodControl :
    (let d : Device := { stageDev false with serve := { (stageDev false).serve with reqs := [(ref2, { req1 with awaited := [1], ending := some 9 })] } }
     (d.serve.reqs.find? fun x => x.1.tag == 2 && x.2.awaited.contains 1) = some (ref2, { req1 with awaited := [1], ending := some 9 }) ∧
     reqOf d ref2 = some { req1 with awaited := [1], ending := some 9 }) ∧
    anyShed (stageDev false) = false ∧ (1 : BitVec 12) ≠ ownId (stageDev false) := by
  decide +kernel

/-- A job key that the manager sealed under the wrapping key of the tenant's current generation opens. -/
theorem test_hyp_JobKey : ∃ (d : Device) (g : Generation) (sealed key : List Byte),
    (tenantGens d 1).find? (fun g => g.num == 0) = some g ∧ skeinBy d 1 [] = some 0 ∧
    gcmOpen (kWrap 1 g) (leBytes 2 (0 : BitVec 12).toNat ++ [1, 0xFF] ++ leBytes 8 (1 : W64).toNat)
      (leBytes 4 (7 : W32).toNat ++ leBytes 2 (0 : W16).toNat ++ [BitVec.ofNat 8 (0 : BitVec 2).toNat]) sealed = some key ∧
    jobOf d 1 7 = none :=
  ⟨stageDev true, { num := 0, secret := [7] }, _, [1, 2], rfl, by decide +kernel, gcmOpen_gcmSeal .., by decide +kernel⟩

set_option maxRecDepth 20000 in
theorem test_hyp_PodPackets :
    Meets { opcode := 0x0800, size := some 4, dev := true, roles := byEither, reserved := [(3, 1)], bits := [(2, 0xFE)] }
      (fun _ _ b d => field b 0 1 = 31 ∧ field b 1 1 = 63 ∧ ledgerRoom d = none ∧ ∀ x ∈ d.serve.jobs, x.2.place = .none ∧ x.2.manager = none) ∧
    Meets { opcode := 0x0801, size := some 136, part := true
            reserved := (1, 7) :: (List.range 8).flatMap fun k => [(8 + 16 * k + 6, 2), (8 + 16 * k + 12, 4)] }
      (fun _ p b d => stagesOk b = true ∧ d.link.manager = true ∧ (∃ j, jobOf d p.hdr.tenant p.hdr.job = some j ∧ j.manager = none ∧
        j.place ≠ .placing ∧ stagesEnd 0 (stagesOf b) = some (planOf d j.main).layers.length) ∧ ∀ x ∈ stagesOf b, x.device = ownId d) ∧
    Meets { opcode := 0x0802, size := some 0, part := true }
      (fun _ p _ d => d.link.manager = true ∧ ∃ j, jobOf d p.hdr.tenant p.hdr.job = some j ∧ j.manager = none) :=
  ⟨meets_role 0x0800 2 [31, 63, 0, 0] dev1 (by decide),
   meets_tenant 0x0801 1 5 ([1] ++ zeros 7 ++ [0, 0, 2, 0, 0, 0, 0, 0, 1, 0, 0, 0] ++ zeros 116) startDev
     ⟨by decide +kernel, rfl, ⟨job1 none, by decide +kernel, rfl, by decide, by decide +kernel⟩, by decide +kernel⟩,
   meets_tenant 0x0802 1 5 [] startDev ⟨rfl, job1 none, by decide +kernel, rfl⟩⟩
/-! ### Hypotheses met: security and tenancy -/

theorem edAdd_neutral : edAdd ⟨0, 1, 1⟩ ⟨0, 1, 1⟩ = ⟨0, 1, 1⟩ := by
  unfold edAdd
  exact congr (congr (congrArg EdPoint.mk (by decide +kernel)) (by decide +kernel)) (by decide +kernel)

theorem edMul_neutral (n k : Nat) : edMul n k ⟨0, 1, 1⟩ = ⟨0, 1, 1⟩ := by
  induction n generalizing k with
  | zero => rfl
  | succ n ih =>
    unfold edMul
    rw [edAdd_neutral, ih]
    simp [edAdd_neutral]

theorem edMul_zero (n : Nat) (p : EdPoint) : edMul n 0 p = ⟨0, 1, 1⟩ := by
  induction n generalizing p with
  | zero => rfl
  | succ n ih =>
    unfold edMul
    simp [ih]

/-- The encoding of the neutral point: a key under which one signature verifies for every message. -/
def neutral : List Byte := 1 :: zeros 56

theorem neutral_decodes : edDecode neutral = some ⟨0, 1, 1⟩ := by
  have hy : leNat (neutral.take 56) = 1 := by decide
  have hb : byteAt neutral 56 = 0 := by decide
  have hl : neutral.length = 57 := by decide
  have h1 : ¬(57 ≠ 57 ∨ 1 ≥ p448 ∨ (0 : Byte) &&& 0x7F ≠ 0) := by decide +kernel
  have hx : mulP (mulP (mulP (subP (mulP 1 1) 1) (mulP (subP (mulP 1 1) 1) (subP (mulP 1 1) 1))) (subP (mulP edD (mulP 1 1)) 1))
    (powMod p448 (mulP (mulP (mulP (subP (mulP 1 1) 1) (subP (mulP 1 1) 1)) (mulP (subP (mulP 1 1) 1) (mulP (subP (mulP 1 1) 1) (subP (mulP 1 1) 1))))
      (mulP (subP (mulP edD (mulP 1 1)) 1) (mulP (subP (mulP edD (mulP 1 1)) 1) (subP (mulP edD (mulP 1 1)) 1)))) 449 ((p448 - 3) / 4)) = 0 := by
    decide +kernel
  have hu : ¬(mulP (subP (mulP edD (mulP 1 1)) 1) (mulP 0 0) ≠ subP (mulP 1 1) 1) := by decide +kernel
  unfold edDecode
  simp only [hy, hb, hl, h1, if_false, hx, hu]
  simp

theorem neutral_verifies (msg : List Byte) : edVerify neutral msg (neutral ++ zeros 57) = true := by
  have ht : (neutral ++ zeros 57).take 57 = neutral := by decide
  have hs : leNat (slice (neutral ++ zeros 57) 57 57) = 0 := by decide
  have hl : (neutral ++ zeros 57).length = 114 := by decide
  unfold edVerify
  rw [ht, hs, hl, neutral_decodes]
  have ho : ¬(0 ≥ edOrder ∨ 114 ≠ 114) := by decide
  simp only [ho, if_false, Nat.mul_zero, edMul_zero, edMul_neutral, edAdd_neutral]
  decide +kernel

def challenge1 : Challenge := { nonce := [1], priv := [2], issued := 0 }

/-- The neutral key enrolled as an installer's credential in slot 0, a challenge on the host port, the switch in INSTALL. -/
def enrolDev : Device := { dev1 with sec := { dev1.sec with
  challenges := [(1, challenge1)], creds := [(credKey 2 0 0, neutral)], keysw := 1 } }

def openBytes : List Byte := [2, 0, 0, 0] ++ neutral ++ zeros 3 ++ (9 :: zeros 55) ++ neutral ++ zeros 57 ++ zeros 2

set_option maxRecDepth 4000 in
theorem test_hyp_Sessions :
    Meets { opcode := 0x0900, size := some 4, dev := true, reserved := [(1, 3)], onyx := true } (fun _ _ b _ => field b 0 1 = 3) ∧
    Meets { opcode := 0x0901, size := some 236, dev := true, reserved := [(1, 3), (61, 3), (234, 2)], onyx := true } (fun _ p b d =>
      ∃ x, 1 ≤ field b 0 1 ∧ field b 0 1 ≤ 3 ∧ challengeOn d p.chan = some x ∧ isEnrolled d (field b 0 1) p.chan (slice b 4 57) = true ∧
        edVerify (slice b 4 57) (ascii "LN-SESSION" ++ serialBytes d ++ [byteAt b 0] ++ x.nonce ++ x448 x.priv x448Base ++ slice b 64 56)
          (slice b 120 114) = true ∧
        (keyPosition (field b 0 1)).any (· != d.sec.keysw) = false ∧ preempts d (field b 0 1) = true) ∧
    Meets { opcode := 0x0902, size := some 0, dev := true, roles := anyRole, onyx := true } (fun _ _ _ d =>
      ∃ x, d.sec.session = some x ∧ ledgerRoom d ≠ some stShed) := by
  refine ⟨meets_open 0x0900 [3, 0, 0, 0] dev1 (by decide), meets_open 0x0901 openBytes enrolDev ⟨challenge1, by decide, by decide, by decide,
    by decide +kernel, ?_, by decide, by decide⟩, meets_role 0x0902 2 [] (roleDev 2) ⟨_, rfl, by decide⟩⟩
  have hk : slice openBytes 4 57 = neutral := by decide
  have hs : slice openBytes 120 114 = neutral ++ zeros 57 := by decide
  rw [hk, hs]
  exact neutral_verifies _

theorem test_hyp_Credentials :
    Meets { opcode := 0x0903, size := some 64, dev := true, roles := byEither, reserved := [(3, 1), (61, 3)] } (fun _ p b d =>
      credRefusal (begun p b) b = none ∧ ledgerRoom d = none ∧ credAt d (field b 0 1) (field b 1 1) (field b 2 1) = none) ∧
    Meets { opcode := 0x0904, size := some 4, dev := true, roles := byEither, reserved := [(3, 1)] } (fun _ p b d =>
      credRefusal (begun p b) b = none ∧ ledgerRoom d = none) :=
  ⟨meets_role 0x0903 2 ([1, 0, 7, 0] ++ zeros 60) dev1 (by decide), meets_role 0x0904 3 [3, 0, 1, 0] dev1 (by decide)⟩

/-- A sealed partition 2 on what partition 1 leaves free. -/
def part2Bytes : List Byte :=
  [2, 1, 0, 0, 0xF0, 0, 0, 0, 12, 0, 0, 0, 2, 0, 0, 0, 2, 0, 0, 0, 64, 0, 0, 0, 64, 0, 0, 0, 1, 0, 1, 0] ++ zeros 32 ++ (9 :: zeros 63)

set_option maxRecDepth 4000 in
/-- The key exchange of SEC_PART_CREATE draws 56 free bytes; here they are zeros. -/
theorem test_hyp_PartCreate (h : ∀ n, Config.freeByte n = 0) :
    Meets { opcode := 0x0910, size := some 128, dev := true, roles := byInstaller
            reserved := [(3, 1), (14, 2), (22, 2), (32, 32), (120, 8)], bits := [(2, 0xFE)] } (fun _ _ b d =>
      ∃ (e : Device) (priv : List Byte), priv = freeBytes 56 d ∧ e = spend 56 d ∧ descriptorOk e b (describe b) = true ∧
        (x448 priv (describe b).pub).all (· == 0) = false ∧ ledgerRoom e = none ∧
        partConflict e (field b 0 1) (bitOf (field b 2 1) 0) (describe b) = false ∧ e.pwr.stage = 0) := by
  refine meets_role 0x0910 2 part2Bytes dev1 ⟨_, zeros 56, ?_, rfl, by decide, by decide +kernel, by decide, by decide +kernel, by decide⟩
  unfold freeBytes
  simp only [h]
  decide

/-- Partition 1 before its first key. -/
def unkeyed : Device := { dev1 with sec := { dev1.sec with parts := [(1, { part1 with cur := none, ktr := some [3] })] } }
def keyLoadBytes : List Byte := [1, 0, 0, 0] ++ zeros 12 ++ gcmSeal [3] (zeros 12) (keyContext unkeyed 1) (zeros 32)

theorem keyLoadBytes_length : keyLoadBytes.length = 64 := by
  unfold keyLoadBytes
  rw [List.length_append, gcmSeal_length]
  decide

theorem test_hyp_KeyLoad : ∃ (b : List Byte) (x : Partition) (k g : List Byte), b.length = 64 ∧ field b 0 1 = 1 ∧
    partOf unkeyed 1 = some x ∧ x.removal = none ∧ x.ktr = some k ∧
    gcmOpen k (slice b 4 12) (keyContext unkeyed (byteAt b 0)) (slice b 16 48) = some g ∧ x.cur = none ∧
    reservedOk { opcode := 0x0911, size := some 64, dev := true, reserved := [(1, 3)] } b = true ∧ isReady unkeyed = true := by
  refine ⟨keyLoadBytes, { part1 with cur := none, ktr := some [3] }, [3], zeros 32, keyLoadBytes_length, rfl, rfl, rfl, rfl, ?_, rfl, rfl, rfl⟩
  have hl := gcmSeal_length [3] (zeros 12) (keyContext unkeyed 1) (zeros 32)
  have h1 : slice keyLoadBytes 4 12 = zeros 12 := rfl
  have h2 : slice keyLoadBytes 16 48 = gcmSeal [3] (zeros 12) (keyContext unkeyed 1) (zeros 32) := by
    show ((([1, 0, 0, 0] ++ zeros 12) ++ gcmSeal [3] (zeros 12) (keyContext unkeyed 1) (zeros 32)).drop 16).take 48 = _
    rw [List.drop_append_of_le_length (by decide), show ([1, 0, 0, 0] ++ zeros 12 : List Byte).drop 16 = [] by decide, List.nil_append]
    exact List.take_of_length_le (by rw [hl]; decide)
  have h3 : byteAt keyLoadBytes 0 = 1 := rfl
  rw [h1, h2, h3]
  exact gcmOpen_gcmSeal ..

/-- Device 1 with its partition in a stage of a removal. -/
def removalDev (st : RemovalStage) : Device :=
  { dev1 with sec := { dev1.sec with parts := [(1, { part1 with removal := some { removing with stage := st } })] } }

theorem test_hyp_PartitionPackets :
    Meets { opcode := 0x0912, size := some 36, part := true, bits := [(0, 0xFE), (1, 0xFF), (2, 0xFF), (3, 0xFF)] } (fun _ p _ d =>
      ∃ x old, partOf d p.hdr.tenant.toNat = some x ∧ x.cur = some old ∧ x.prev = none) ∧
    Meets { opcode := 0x0915, size := some 32, dev := true, roles := byInstaller } (fun _ _ _ d => ledgerRoom d = none) ∧
    Meets removeSpec (fun _ p b d => p.hdr.tenant = 0 ∧ byteAt b 0 = 1 ∧ (∃ x, partOf d 1 = some x ∧ x.removal = none) ∧
      ledgerRoom d ≠ some stShed) ∧
    Meets { opcode := 0x0914, size := some 4, dev := true, part := true, roles := anyRole, reserved := [(1, 3)], removal := true }
      (fun _ p b _ => p.hdr.tenant = 0 ∧ byteAt b 0 = 8) ∧
    Meets { opcode := 0x0920, size := some 32, dev := true, part := true, onyx := true } (fun _ _ _ _ => True) ∧
    Meets { opcode := 0x0923, size := some 0, dev := true } (fun _ _ _ _ => True) ∧
    (∀ st, ∃ q x, removingAt (removalDev st) 1 st = some (q, x)) ∧ coreAlive (removalDev .scrub) = true ∧ (removalDev .scrub).pwr.stage = 0 :=
  ⟨meets_tenant 0x0912 1 0 (zeros 36) dev1 ⟨_, _, rfl, rfl, rfl⟩, meets_role 0x0915 2 (zeros 32) dev1 (by decide),
   meets_role 0x0913 1 [1, 0, 0, 0] dev1 ⟨by decide, by decide, ⟨_, rfl, rfl⟩, by decide⟩,
   meets_role 0x0914 3 [8, 0, 0, 0] dev1 (by decide), meets_open 0x0920 (zeros 32) dev1 trivial, meets_open 0x0923 [] dev1 trivial,
   fun st => by cases st <;> exact ⟨_, _, rfl⟩, by decide, by decide⟩

/-- The ledger of a device with one entry. -/
theorem test_hyp_LedgerPackets :
    Meets { opcode := 0x0921, size := some 16, dev := true, part := true, roles := anyRole, reserved := [(12, 4)], onyx := true }
      (fun _ _ b _ => field b 8 4 = 255) ∧
    Meets { opcode := 0x0922, size := some 8, dev := true, roles := byMaker } (fun _ _ b d => field b 0 8 < d.sec.nextSeq ∧
      ledgerRoom d ≠ some stShed ∧ (∃ e, (d.sec.ledger.filter fun e => decide (e.seq ≤ field b 0 8)).getLast? = some e) ∧ d.pwr.stage = 0 ∧
      (d.sec.ledger.filter fun x => decide (field b 0 8 < x.seq)).length < ledgerMax) :=
  ⟨meets_role 0x0921 3 ([0, 0, 0, 0, 0, 0, 0, 0, 255] ++ zeros 7) (ledgerDev 1) (by decide),
   meets_role 0x0922 3 (zeros 8) (ledgerDev 1) ⟨by decide, by decide, ⟨_, rfl⟩, by decide, by decide⟩⟩

theorem test_hyp_SecurityEvents :
    Assoc.find enrolDev.sec.challenges (chanCode .host).toNat = some challenge1 ∧
    (let d : Device := { dev1 with sec := { dev1.sec with session := some { sess 2 with chan := .mgmt }, linkLostAt := some 0 } }
     (∃ x, d.sec.session = some x ∧ x.chan = .mgmt) ∧ d.sec.linkLostAt = some 0) ∧
    (true, false) ≠ (dev1.sec.inst, dev1.sec.serv) :=
  ⟨rfl, ⟨⟨_, rfl, rfl⟩, rfl⟩, by decide⟩

/-- A device with its management port up. -/
def mgmtDev : Device := { dev1 with sec := { dev1.sec with mgmtEnable := true, mgmtLink := true, mgmtIp := 7 } }

theorem test_hyp_Management :
    mgmtUp mgmtDev = true ∧ mgmtDev.sec.mgmtIp ≠ 0 ∧
    (let bs : List Byte := [1, 0, 0, 0, 0, 0, 0, 0] ++ nopBytes
     meuraOk bs = true ∧ field bs 4 4 = 0 ∧ 32 ≤ (bs.drop 8).length ∧ (bs.drop 8).length = 32 + (headerOf (bs.drop 8)).len.toNat) ∧
    (let bs : List Byte := [1, 0, 0, 0, 0, 0, 0, 0] ++ nopBytes.take 31
     meuraOk bs = true ∧ field bs 4 4 = 0 ∧ (bs.drop 8).length < 32) ∧ meuraOk [1, 0, 0, 0, 0, 0, 0, 0] = false := by
  decide
/-! ### Hypotheses met: flash -/

/-- Device 1 with a buffer of one flash page. -/
def flashDev : Device := { dev1 with mem := { dev1.mem with arenas := [(1,
  { bufs := [(0, { buf1 .d false 2 with size := 16384, extSize := 16384, extents := [{ ext1 .d false with size := 16384 }] })], fresh := 1 })] } }

/-- A page of partition 1: the first data block of channel 0. -/
def pg : List Byte := [0, 0x10, 0, 0]

theorem test_hyp_FlashPages :
    let Args := fun (P : List Byte → Device → Nat → Buffer → Prop) (p : Packet) (b : List Byte) (d : Device) =>
      ∃ slot buf off, pageArgs d p.hdr.tenant.toNat b = .ok (slot, buf, off) ∧ blockRefusal d (begun p b) (field b 0 4) = none ∧
        hostHeld buf off (field b 4 2 * flashPage) = false ∧ P b d slot buf
    Meets (flashSpec 0x0700 16 [(6, 2)]) (fun s p b d => inFlash s.dev ref1 = false ∧
      Args (fun _ d slot buf => isMounted d p.hdr.tenant.toNat slot buf.gen = false) p b d) ∧
    Meets (flashSpec 0x0701 16 [(6, 2)]) (fun s p b d => inFlash s.dev ref1 = false ∧ Args (fun b d _ buf => d.pwr.stage = 0 ∧ bufBad d buf 0 (field b 4 2 * flashPage) = none) p b d) ∧
    Meets (flashSpec 0x0703 16 [(7, 1)]) (fun s p b d => inFlash s.dev ref1 = false ∧ Args (fun b d _ buf => field b 6 1 ≤ 1 ∧ bufBad d buf 0 (field b 4 2 * flashPage) = none) p b d) :=
  ⟨meets_tenant 0x0700 1 0 (pg ++ [1, 0, 0, 0] ++ h0 ++ zeros 4) flashDev ⟨rfl, 0, _, 0, rfl, by decide, by decide, by decide⟩,
   meets_tenant 0x0701 1 0 (pg ++ [1, 0, 0, 0] ++ h0 ++ zeros 4) flashDev ⟨rfl, 0, _, 0, rfl, by decide, by decide, by decide⟩,
   meets_tenant 0x0703 1 0 (pg ++ [1, 0, 1, 0] ++ h0 ++ zeros 4) flashDev ⟨rfl, 0, _, 0, rfl, by decide, by decide, by decide⟩⟩

/-- The source of a page comes from DRAM, or from its SRAM copy. -/
theorem test_hyp_FlashSources : ∀ x ∈ [(ExtState.d, true), (.ds, false)],
    ((sourceParts { buf1 x.1 false 2 with size := 16384, extSize := 16384, extents := [{ ext1 x.1 false with size := 16384 }] } 0 16384).filter
      fun y => (channelOf y.1).isSome).isEmpty = !x.2 := by decide

theorem test_hyp_FlashBlocks :
    Meets (flashSpec 0x0702 4) (fun s p b d => inFlash s.dev ref1 = false ∧ pageInShare d p.hdr.tenant.toNat (field b 0 4) = true ∧
      field b 0 4 % 512 = 0 ∧ d.pwr.stage = 0 ∧ (blockOf d (blockKey (field b 0 4))).state ≠ .worn) ∧
    Meets (flashSpec 0x0704 8 [(5, 3)]) (fun s p b d => inFlash s.dev ref1 = false ∧ pageInShare d p.hdr.tenant.toNat (field b 0 4) = true ∧
      field b 4 1 = 3 ∧ blockRefusal d (begun p b) (field b 0 4) = none) ∧
    Meets (flashSpec 0x0705 4) (fun s p b d => inFlash s.dev ref1 = false ∧ pageInShare d p.hdr.tenant.toNat (field b 0 4) = true ∧
      field b 0 4 % 512 = 0) ∧
    Meets (flashSpec 0x0706 0) (fun _ p _ d => ∃ x, partOf d p.hdr.tenant.toNat = some x) ∧
    Meets { opcode := 0x0707, size := some 0, dev := true } (fun _ _ _ _ => True) ∧
    Meets { opcode := 0x0708, size := some 4, dev := true, roles := byMaker, reserved := [(1, 1)] } (fun _ _ b d => d.pwr.stage = 0 ∧
      ledgerRoom d = none ∧ field b 0 1 = 1 ∧ d.boot.otpRow.fuse.getLsbD 1 = false) ∧
    Meets { opcode := 0x0708, size := some 4, dev := true, roles := byMaker, reserved := [(1, 1)] } (fun _ _ b d => d.pwr.stage = 0 ∧
      ledgerRoom d = none ∧ field b 0 1 = 2 ∧ d.boot.otpRow.security < field b 2 2 ∧ field b 2 2 ≤ 255) :=
  ⟨meets_tenant 0x0702 1 0 pg flashDev (by decide), meets_tenant 0x0704 1 0 (pg ++ [3, 0, 0, 0]) flashDev (by decide),
   meets_tenant 0x0705 1 0 pg flashDev (by decide), meets_tenant 0x0706 1 0 [] flashDev ⟨_, rfl⟩, meets_open 0x0707 [] dev1 trivial,
   meets_role 0x0708 3 [1, 0, 0, 0] dev1 (by decide), meets_role 0x0708 3 [2, 0, 255, 0] dev1 (by decide)⟩

/-- An operation of die 0 that no packet waits for. -/
def fjob (kind : FlashKind) (phase : FlashPhase) : FlashJob :=
  { ref := none, tenant := 1, kind := kind, page := 4096, order := 0, lst := noDeadline, phase := phase }

/-- A device with that operation and its codeword transfer owning flash channel 0. -/
def dieDev (kind : FlashKind) (phase : FlashPhase) : Device :=
  { dev1 with flash := { dev1.flash with jobs := [fjob kind phase] }
              mem := { dev1.mem with arb := [(32, { owner := some { who := 32, lst := noDeadline, tenant := 1, job := 0, load := .flash 0 } })] } }

theorem test_hyp_FlashDies :
    (∀ k ∈ [FlashKind.read, .program, .erase, .verify, .margin], ∀ ph ∈ [FlashPhase.array 0, .dataIn 4, .dataOut [], .suspending],
      activeJob (dieDev k ph) 0 = some (fjob k ph) ∧ coreAlive (dieDev k ph) = true) ∧ FlashKind.read.reads = true ∧
    (∃ r, (arbOf (dieDev .program (.dataIn 4)) 32).owner = some r ∧ r.load = .flash 0) ∧
    (let d := dieDev .erase (.array 0)
     suspendWanted { d with flash := { d.flash with jobs := d.flash.jobs ++ [{ fjob .read .queued with page := 4608, order := 1 }] } }
       (fjob .erase (.array 0)) = true) ∧
    (let d : Device := { dev1 with flash := { dev1.flash with blocks := [(8, { state := .erasing })] } }
     (d.flash.blocks.find? fun (k, b) => k / blocksPerDie == 0 && b.state == .erasing &&
       !(d.flash.jobs.any fun j => blockKey j.page == k)) = some (8, { state := .erasing }) ∧ isReady d = true ∧ d.pwr.stage = 0) :=
  ⟨by decide, rfl, ⟨_, rfl, rfl⟩, by decide, by decide⟩

/-! ### Hypotheses met: DRAM and power -/

/-- A device with a write waiting on channel 0. -/
def drainDev (m : BitVec 64) : Device := { dev1 with dram := { dev1.dram with chans := [(0, { queue := [{ block := dramBase, mask := m, old := [] }] })] } }

theorem test_hyp_DramChannelsRun :
    coreAlive (drainDev 1) = true ∧ (chanOf (drainDev 1) 0).selfRef = false ∧ readPending (drainDev 1) 0 = false ∧
    (∀ m ∈ [1, BitVec.allOnes 64], ∃ e q, (chanOf (drainDev m) 0).queue = e :: q ∧ e.mask = m) ∧ (1#64) ≠ BitVec.allOnes 64 ∧
    (∀ e, readClass (drainDev 1) dramBase e = e) ∧ readClass { drainDev 1 with dram.bad := [dramBase] } dramBase .clean = .uncorrectable ∧
    dev1.dram.hours ≠ 0 ∧ readPending dev1 0 = false ∧ (chanOf dev1 0).queue = [] ∧ coreAlive dev1 = true ∧
    (let d : Device := { dev1 with dram := { dev1.dram with chans := [(0, { selfRef := true }), (1, { wokenAt := some 0 })] }
                                   pwr := { dev1.pwr with stage := 2 } }
     (chanOf d 0).selfRef = true ∧ (chanOf d 1).wokenAt = some 0 ∧ 2 ≤ d.pwr.stage ∧ coreAlive d = true) := by
  refine ⟨by decide, by decide, by decide, ?_, by decide, ?_, by decide, by decide, by decide, by decide, by decide, by decide⟩
  · intro m _
    exact ⟨_, [], rfl, rfl⟩
  · intro e
    cases e <;> decide

/-- Device 1 in a shed stage with an input reading. -/
def sagDev (stage mv : Nat) : Device := { dev1 with pwr := { dev1.pwr with stage := stage, vin := mv, samples := [mv], goodAt := some 0 } }

theorem test_hyp_PowerSamples :
    liftDue (sagDev 1 40000) = some 20000000 ∧ coreAlive (sagDev 1 40000) = true ∧ 1 ≤ (sagDev 1 40000).pwr.stage ∧
    (sagDev 4 32999).pwr.vin < 33000 ∧ (sagDev 4 32999).pwr.samples ≠ [] ∧ (sagDev 4 32999).pwr.stage = 4 ∧
    (let d : Device := { dev1 with boot := { dev1.boot with phase := .fault, faultCode := 5 } }
     coreAlive d = true ∧ d.boot.phase = .fault ∧ tjMax { d with pwr := { d.pwr with temps := [85] } } ≤ 85) ∧ dev1.boot.phase ≠ .fault ∧
    partOf dev1 (BitVec.toNat (1 : BitVec 8)) = some part1 ∧ holderOf dev1 (3 : Tile).toNat = some (1, part1) := by
  decide

theorem test_hyp_PowerPackets :
    Meets { opcode := 0x0A00, size := some 0, part := true } (fun _ p _ d => ∃ x, partOf d p.hdr.tenant.toNat = some x) ∧
    Meets { opcode := 0x0A01, size := some 4, dev := true, roles := byInstaller, reserved := [(2, 2)] } (fun _ _ b d => field b 0 2 = 130 ∧
      ledgerRoom d = none) ∧
    Meets { opcode := 0x0A01, size := some 4, dev := true, roles := byInstaller, reserved := [(2, 2)] } (fun _ _ b d => field b 0 2 = 300 ∧
      ledgerRoom d = none) ∧
    Meets { opcode := 0x0A02, size := some 4, dev := true, roles := byInstaller, reserved := [(1, 3)] } (fun _ _ b d => ledgerRoom d = none ∧
      field b 0 1 = 0) ∧
    Meets { opcode := 0x0A02, size := some 4, dev := true, roles := byInstaller, reserved := [(1, 3)] } (fun _ _ b d => ledgerRoom d = none ∧
      ∃ x, field b 0 1 ≠ 0 ∧ partOf d (field b 0 1) = some x) :=
  ⟨meets_tenant 0x0A00 1 0 [] dev1 ⟨_, rfl⟩, meets_role 0x0A01 2 [130, 0, 0, 0] dev1 (by decide),
   meets_role 0x0A01 2 [44, 1, 0, 0] dev1 (by decide), meets_role 0x0A02 2 [0, 0, 0, 0] dev1 (by decide),
   meets_role 0x0A02 2 [1, 0, 0, 0] dev1 ⟨by decide, _, by decide, rfl⟩⟩
/-! ### Hypotheses met: audit, twin mode, the freeze and the test port -/

/-- The serving device with port 3 UP in TWIN mode and its job as stated. -/
def twinDev (j : Job) : Device :=
  let d := srvDev none true .d [] []
  { d with
    serve := { d.serve with jobs := [(jobKey 1 5, j)] }
    link := { d.link with ports := [(3, { state := .up, mode := 2, peer := some peer1 })] }
    mem := { d.mem with arenas := [(1, { bufs := [(0, { buf1 .d false 2 with size := 8388608, extSize := 8388608 })], fresh := 1 })] }
    audit := { d.audit with fixCompare := true, myRuns := [{ seq := 3, digest := [], at_ := 0 }] } }

def pairedJob (lead : Bool) : Job := { job1 none with twin := .paired, twinJob := 9, leader := lead }

theorem test_hyp_AuditPackets :
    Meets { opcode := 0x0B00, size := some 16, part := true, reserved := [(13, 3)], bits := [(12, 0xFE)] } (fun _ p b d =>
      ∃ j, jobOf d p.hdr.tenant p.hdr.job = some j ∧ j.closing = false ∧ bitOf (field b 12 1) 0 = false) ∧
    (∀ n ∈ [1, 65536], Meets { opcode := 0x0B00, size := some 16, part := true, reserved := [(13, 3)], bits := [(12, 0xFE)] } (fun _ p b d =>
      (∃ j, jobOf d p.hdr.tenant p.hdr.job = some j ∧ j.closing = false) ∧ bitOf (field b 12 1) 0 = true ∧ field b 8 4 = n ∧
        rangeError d p.hdr.tenant.toNat (word32 b 0) (word32 b 4).toNat (128 * field b 8 4) = none)) ∧
    Meets { opcode := 0x0B02, size := some 8, part := true, reserved := [(4, 4)] } (fun _ p _ d =>
      ∃ j, jobOf d p.hdr.tenant p.hdr.job = some j ∧ j.closing = false ∧ twinUp d = true ∧ j.twin = .none) ∧
    Meets { opcode := 0x0B03, size := some 0, part := true } (fun _ p _ d =>
      ∃ j, jobOf d p.hdr.tenant p.hdr.job = some j ∧ j.closing = false) := by
  refine ⟨meets_tenant 0x0B00 1 5 (zeros 16) (twinDev (job1 none)) ⟨job1 none, by decide +kernel, rfl, by decide⟩, ?_,
    meets_tenant 0x0B02 1 5 ([9] ++ zeros 7) (twinDev (job1 none)) ⟨job1 none, by decide +kernel, rfl, by decide +kernel, rfl⟩,
    meets_tenant 0x0B03 1 5 [] (twinDev (job1 none)) ⟨job1 none, by decide +kernel, rfl⟩⟩
  intro n hn
  have h : n = 1 ∨ n = 65536 := by simpa using hn
  rcases h with rfl | rfl
  · exact meets_tenant 0x0B00 1 5 (h0 ++ zeros 4 ++ [1, 0, 0, 0, 1, 0, 0, 0]) (twinDev (job1 none))
      ⟨⟨job1 none, by decide +kernel, rfl⟩, by decide, by decide, by decide +kernel⟩
  · exact meets_tenant 0x0B00 1 5 (h0 ++ zeros 4 ++ [0, 0, 1, 0, 1, 0, 0, 0]) (twinDev (job1 none))
      ⟨⟨job1 none, by decide +kernel, rfl⟩, by decide, by decide, by decide +kernel⟩

set_option maxRecDepth 4000 in
theorem test_hyp_AttestAndTileTest :
    Meets { opcode := 0x0B01, size := some 552, part := true, reserved := [(36, 4)] } (fun _ _ b _ =>
      field b 32 4 = 1 ∧ (b.drop (40 + 32 * field b 32 4)).all (· == 0) = true) ∧
    Meets { opcode := 0x0B01, size := some 552, part := true, reserved := [(36, 4)] } (fun _ _ b _ =>
      field b 32 4 = 16 ∧ (b.drop (40 + 32 * field b 32 4)).all (· == 0) = true) ∧
    Meets { opcode := 0x0B10, size := some 4, dev := true, roles := byEither, reserved := [(1, 3)] } (fun _ _ b d =>
      field b 0 1 < tileCount d ∧ d.pwr.stage < 2 ∧ ledgerRoom d = none ∧ tileHeld d (field b 0 1) = false ∧
        d.fix.mask.getLsbD (field b 0 1) = false) :=
  ⟨meets_tenant 0x0B01 1 0 (zeros 32 ++ [1] ++ zeros 519) dev1 (by decide), meets_tenant 0x0B01 1 0 (zeros 32 ++ [16] ++ zeros 519) dev1 (by decide),
   meets_role 0x0B10 2 [31, 0, 0, 0] dev1 (by decide +kernel)⟩

/-- A pairing request that waits. -/
def pairPkt : Packet := { tenPkt 0x0B02 1 5 (zeros 8) with held := true }

theorem test_hyp_Twin :
    (let d := into pairPkt (twinDev { job1 none with twin := .requested, pairer := some ref1 })
     findPacket d ref1 = some pairPkt ∧ isReady d = true ∧ pairPkt.held = true ∧ pairPkt.hdr.opcode = 0x0B02 ∧
     ∃ j, jobOf d pairPkt.hdr.tenant pairPkt.hdr.job = some j) ∧
    (∀ lead ∈ [true, false], twinOf (twinDev (pairedJob lead)) 1 9 = some (5, pairedJob lead) ∧ (pairedJob lead).leader = lead ∧
      isReady (twinDev (pairedJob lead)) = true ∧ twinUp (twinDev (pairedJob lead)) = true ∧
      (twinDev (pairedJob lead)).audit.fixCompare = true) ∧
    twinUp (twinDev (job1 none)) = true ∧ isReady (twinDev (job1 none)) = true ∧
    (∃ x, ((twinDev (job1 none)).audit.myRuns.find? fun x => x.seq == 3) = some x) ∧
    ((twinDev (job1 none)).audit.myRuns.find? fun x => x.seq == 4) = none := by
  refine ⟨⟨found_alone _ _ rfl rfl, rfl, rfl, rfl, { job1 none with twin := .requested, pairer := some ref1 }, by decide +kernel⟩,
    by decide +kernel, by decide, by decide, ⟨_, rfl⟩, rfl⟩

/-- Messages over the TWIN port: none has come, or one that fits, which leaves the twin job and the port as they are. -/
theorem test_hyp_TwinMessages :
    (∀ k ∈ [0, 1, 3], (takeMsg true k none (fun _ => true) (twinDev (pairedJob true))).isNone = true ∧
      (takeMsg true k none (twinFits 1 5) (twinDev (pairedJob true))).isNone = true) ∧
    (∀ lead ∈ [true, false], ∀ k ∈ [0, 1, 2, 3], ∀ fits ∈ [twinFits 1 9, fun _ => true],
      (takeMsg true k none fits (withIn true k { msg1 1 0 with job := 9 } (twinDev (pairedJob lead)))).any (fun d =>
        ((twinOf d 1 9).map fun x => (x.1, x.2.leader)) == some (5, lead) && d.audit.fixCompare &&
          (d.audit.myRuns.map (·.seq)) == [3]) = true) := by
  decide +kernel

theorem test_hyp_FreezeAndChain :
    isFrozen dev1 = false ∧ isFrozen frozenDev = true ∧
    (let d : Device := { frozenDev with boot := { frozenDev.boot with roReg := 4 } }
     (if tenantClass d d.boot.roReg.toNat d.boot.roAddr then tenantOpen d else deviceOpen d) = false) := by
  decide

/-! ### Hypotheses met: resets and low power -/

def badEnv : BootEnv := { otp0 := false, otp1 := false }

/-- A device in Doze, Nap or Hibernate. -/
def lpDev (x : LowPower) : Device :=
  { dev1 with boot := { dev1.boot with phase := if x = .doze then .ready else .lowPower, lp := x } }

theorem test_hyp_StartUp :
    startFault kindCold true badEnv = some (1, 1) ∧ startFault kindWarm false {} = none ∧ isFrozen dev1 = false ∧
    mayReset kindWarm 1 dev1 = true ∧ mayReset kindFault 4 dev1 = true ∧ (stopAt 4 5 dev1).boot.phase = .fault ∧
    dev1.boot.phase = .ready ∧ { dev1 with boot := { dev1.boot with phase := .booting } }.boot.phase = .booting ∧
    ({ dev1 with boot := { dev1.boot with phase := .held, begun := some (kindSupply, 0) } } : Device).boot.begun = some (kindSupply, 0) ∧
    (∀ c ∈ [5, 6, 7], (lpDev .hibernate).boot.lp = .hibernate ∧ wakesFrom ((BitVec.ofNat 8 c).toNat) .hibernate = true) ∧
    (let d : Device := { dev1 with boot := { dev1.boot with waitFrom := some 0 }, gauge := { dev1.gauge with rotor := .unref } }
     d.boot.waitFrom = some 0 ∧ basesLocked d.gauge = false) ∧
    (let d : Device := { lpDev .nap with boot := { (lpDev .nap).boot with exiting := true, rearm := true }, fix := { dev1.fix with image := some (zeros 4) } }
     d.boot.exiting = true ∧ d.boot.rearm = true ∧ d.fix.image = some (zeros 4) ∧ isFrozen d = false) ∧
    (let d : Device := { dev1 with cmd := { dev1.cmd with resetPending := [(ref1, 0)] } }
     coreAlive d = true ∧ d.cmd.resetPending = [(ref1, 0)]) := by
  decide

theorem test_hyp_RestartAndPartitionReset :
    hostAlive (roleDev 2) = true ∧ (rwl 0xC0014 byEither true restartReset (roleDev 2)).boot.begun = some (kindWarm, 2) ∧ isReady dev1 = true := by
  decide +kernel

/-- A program to arm again after Nap, whose cycle count is what its check run takes, or not. -/
def rearmDev : Device := { fixDev with fix := { fixDev.fix with bound := 4 } }

set_option maxRecDepth 20000 in
theorem test_hyp_Rearm : ∀ x ∈ [((5 : Byte), true), (6, false)], let img := image1.set 12 x.1
    (planCount img (checkRun img rearmDev) == field img 12 4) = x.2 ∧
    (x.2 = true → overBound (imgCycle img) (checkRun img rearmDev).fix.bound.toNat = false) := by
  decide +kernel

theorem test_hyp_LowPowerRoles : (∀ r ∈ [(2 : Byte), 3], byEither.contains (activeRole (roleDev r)) = true ∧ ledgerRoom (roleDev r) = none) ∧
    activeRole (roleDev 1) = roleOperator ∧ ledgerRoom (roleDev 1) = none ∧ anyRole.contains (activeRole dev1) = false := by
  decide +kernel

theorem test_hyp_LowPower :
    (let d : Device := { dev1 with boot := { dev1.boot with entering := some .doze } }
     d.boot.entering = some .doze ∧ LowPower.doze ≠ .active ∧ coreAlive d = true ∧ stepsParked d = true) ∧
    (let d : Device := { dev1 with boot := { dev1.boot with entering := some .nap } }
     d.boot.entering = some .nap ∧ LowPower.nap ≠ .active ∧ coreAlive d = true ∧ stepsParked d = true) ∧
    (let d : Device := { dev1 with boot := { dev1.boot with entering := some .hibernate } }
     d.boot.entering = some .hibernate ∧ LowPower.hibernate ≠ .active ∧ coreAlive d = true ∧ stepsParked d = true) ∧
    lpRefusal (srvDev none true .d [] []) .hibernate = true ∧
    (lpRefusal dev1 .hibernate = false ∧ dev1.boot.phase = .ready ∧ dev1.boot.exiting = false ∧ lpDepth (lowPowerOf dev1) < lpDepth .hibernate) := by
  decide +kernel
/-! ### Well-formedness -/

/-- One ill-formed command for each check; the check refuses every one. -/
theorem test_wf_refuses :
    [Instr.flitReceive 0 [], .thermalSample [], .thermalSample (List.replicate 41 0), .vinSample 65536, .coolantSample 0 0 65536,
     .frameWrite 65535 [0, 0], .chord 3, .partitionReset 0 false false, .hibernateExit 4 {}, .hibernateExit 8 {}, .warmReset 0 {}, .warmReset 3 {},
     .faultReset 0 {}, .faultReset 7 {}, .twinFix 0 [], .twinDigest 1 0 [(0, [])], .transferEnd 0 .tight, .dramWriteDrain 0 .tight,
     .patrolRead 0 .tight, .removalScrub 0, .removalFlash 9, .removalConfirm 0, .diagTileTest ref1 (some (5, 0)) 0,
     .diagTileTest { chan := .usb, tag := 256 } none 0, .lowWordRead 2, .lowWordRead 0x0100_0000, .registerWrite 1 0,
     .registerWrite 0x0100_0000 0, .packetSubmit 0x00FF_FFFF [], .packetSubmit 0x0101_0000 [], .nop { chan := .mgmt, tag := 256 },
     .twinPairTimeout { chan := .usb, tag := 256 }].all (fun i => !i.wf) = true := by
  decide

theorem test_wf_accepts :
    [Instr.frameWrite 65535 [0], .thermalSample [25], .hibernateExit 5 {}, .hibernateExit 7 {}, .warmReset 2 {}, .faultReset 6 {},
     .removalScrub 1, .removalFlash 8, .lowWordRead 0x00FF_FFFC, .packetSubmit 0x0100_FFFF [0], .nop { chan := .usb, tag := 255 },
     .nop { chan := .host, tag := 0xFFFF }, .diagTileTest ref1 (some (4, 0)) 0].all Instr.wf = true := by
  decide

theorem test_no_word_spells_a_command : decodeTableWord 16 0x12ED = none ∧ State.reset.withFetchWord 16 0x12ED = State.reset := ⟨rfl, rfl⟩

/-! ### Worked values of the manual -/

/-- The check value of CRC-32C (R57): the CRC of the nine digits. -/
theorem test_crc : crc32c [0x31, 0x32, 0x33, 0x34, 0x35, 0x36, 0x37, 0x38, 0x39] = 0xE3069283 := by decide +kernel

/-- 01_architecture: tile 5's store begins at 0x04D0_0000, and tile 31's ends before 0x1400_0000. -/
theorem test_tile_stores : tileBase 5 = 0x04D0_0000 ∧ tileBase 32 = 0x1400_0000 := by decide

/-- 03_numeric_formats: +1, −1, +31, −31 in W6 are the bytes C1 FF 85. -/
theorem test_w6 : packCodes 6 3 [1, -1, 31, -31] = [0xC1, 0xFF, 0x85] := by decide +kernel

/-- 03_numeric_formats: the row 3.0, −0.69921875 takes X = 2 and the mantissas 24,576 and −5,728. -/
theorem test_fx16_row : fxRowExponent .rne [fpDecode bf16 0x4040, fpDecode bf16 0xBF33] = 2 ∧
    (fxOfFp .rne (fpDecode bf16 0x4040) 2).1 = 24576 ∧ (fxOfFp .rne (fpDecode bf16 0xBF33) 2).1 = -5728 := by decide +kernel

/-- 04_matrix_arrays, after R138: 60,000 under the scale 0xEC25 moves 124,336 into A. -/
theorem test_rescale : rescaleValue 0xEC25 60000 (-4) = 124336 := by decide +kernel

/-- The same example drained: 0x1E5B at X_site = 0 with X_obs −2, and 0x3E73 as BF16. -/
theorem test_drain : (drainElem false 0x12 .rne 0 (-19) 0 true 124336).1 = 0x1E5B ∧
    (drainElem false 0x12 .rne 0 (-19) 0 true 124336).2.2 = some (-2) ∧ (drainElem false 0x10 .rne 0 (-19) 0 true 124336).1 = 0x3E73 := by
  decide +kernel

/-- 09_serving, after R298: the draft 17, 42, 9, 5 agrees with 17, 42, 88, 3, 6 in two tokens. -/
theorem test_agreeing : agreeing [17, 42, 9, 5] [17, 42, 88, 3, 6] = 2 := by decide

/-- 14_dram, after R447: the address 0x105_1234_5680 is on channel 5. -/
theorem test_channel : channelOf 0x105_1234_5680 = some 5 := by decide +kernel

/-- 15_power_thermal, after R468: 750 mV of V_TILE, 10 of GUARD and 16 for −12 °C make 776 mV. -/
theorem test_vcore : coreSetpoint { dev1 with
    boot := { dev1.boot with otp := { dev1.boot.otp with
      voltage := [0, 0, 0x58, 2, 0xE8, 3, 10, 4] ++ zeros 8 ++ (60 :: zeros 31) ++ zeros 80 } }
    pwr := { dev1.pwr with temps := [20, -12, 40] } } = 7760 := by
  decide +kernel

/-- 16_determinism_audit, after R506: the address of cell (31, 9) of array 2 on tile 6. -/
theorem test_tile_image :
    let d : Device := { frozenDev with tiles := [(6, { arrays := [(2, { cw := (List.replicate 9 []) ++ [(List.replicate 31 0) ++ [0xBEEF]] })] })] }
    tileByte d 0x6_2000_7C90 = 0xEF ∧ tileByte d 0x6_2000_7C91 = 0xBE := by
  decide +kernel
end Sys2Proof.Tests
end

section
/-! PROOFS. The statements about every step, the checks of R19, writes that a role guards, the device range, and the reads and writes of
the host port. -/

namespace Sys2Proof.Machine

/-! ### Every step -/

/-- Settles O3: whatever stands at the front, a step answers, and takes only the front from the queue. -/
theorem noStepStops : Obligations.NoStepStops := by
  intro s
  obtain ⟨d, hd⟩ := step_next s
  exact ⟨_, hd, rfl⟩

/-! ### The checks of R19, one equation for each that fails first -/

section
variable {sp : OpSpec} {p : Packet} {body : Packet → List Byte → Device → Device} {d : Device}

theorem runChecked_badSize (hsize : sp.size.any (fun n => plainLen p != n) = true) :
    runChecked sp p body d = refuse p stBadPacket d := by
  unfold runChecked
  exact if_pos hsize

variable (hsize : ¬sp.size.any (fun n => plainLen p != n) = true)
include hsize

theorem runChecked_noTenant
    (hten : p.hdr.tenant.toNat > 8 ∨ (p.hdr.tenant ≠ 0 ∧ (partOf d p.hdr.tenant.toNat).isNone = true)) :
    runChecked sp p body d = refuse p stNoTenant d := by
  unfold runChecked
  exact (if_neg hsize).trans (if_pos hten)

variable (hten : ¬(p.hdr.tenant.toNat > 8 ∨ (p.hdr.tenant ≠ 0 ∧ (partOf d p.hdr.tenant.toNat).isNone = true)))
include hten

theorem runChecked_removing (hrem : (isRemoving d p.hdr.tenant.toNat && !sp.removal) = true) :
    runChecked sp p body d = refuse p stPartRemoving d := by
  unfold runChecked
  exact (if_neg hsize).trans ((if_neg hten).trans (if_pos hrem))

variable (hrem : ¬(isRemoving d p.hdr.tenant.toNat && !sp.removal) = true)
include hrem

theorem runChecked_authFail (hopen : openPacket d (decide (p.hdr.tenant = 0) && !sp.roles.isEmpty) p = none) :
    runChecked sp p body d = refuse p stAuthFail d := by
  simp only [runChecked]
  rw [if_neg hsize, if_neg hten, if_neg hrem, hopen]

variable {b : List Byte} {c : Option Nat}
  (hopen : openPacket d (decide (p.hdr.tenant = 0) && !sp.roles.isEmpty) p = some (b, c))
include hopen

theorem runChecked_reserved (hzero : reservedOk sp b = false) :
    runChecked sp p body d = refuse (begun p b) stBadPacket (admitted p b c d) := by
  simp only [runChecked]
  rw [if_neg hsize, if_neg hten, if_neg hrem, hopen]
  exact if_pos (by rw [hzero]; rfl)

theorem runChecked_deniedRole (hzero : reservedOk sp b = true)
    (hrole : (decide (p.hdr.tenant = 0) && !sp.roles.isEmpty && !sp.roles.contains p.role) = true) :
    runChecked sp p body d =
      refuse (begun p b) stDeniedRole (ledgerRefused (begun p b) stDeniedRole (admitted p b c d)) := by
  simp only [runChecked]
  rw [if_neg hsize, if_neg hten, if_neg hrem, hopen]
  exact (if_neg (by rw [hzero]; decide)).trans (if_pos hrole)

end

/-- The tenant field as the number of a partition. -/
theorem toNat_tenant_ne_zero (p : Packet) : p.hdr.tenant.toNat ≠ 0 ↔ p.hdr.tenant ≠ 0 :=
  not_congr (BitVec.toNat_eq (y := 0)).symm

/-- Settles O12: each clause is the check that fails first, after those before it passed. -/
theorem failureOrder : Obligations.FailureOrder := by
  intro sp p body d
  dsimp only
  simp only [toNat_tenant_ne_zero]
  have removing : (isRemoving d p.hdr.tenant.toNat && !sp.removal) = true ↔
      isRemoving d p.hdr.tenant.toNat = true ∧ sp.removal = false := by simp
  rw [← removing]
  refine ⟨runChecked_badSize, runChecked_noTenant, runChecked_removing, runChecked_authFail, ?_⟩
  intro hsize hten hrem b c hopen
  refine ⟨runChecked_reserved hsize hten hrem hopen, fun hzero h0 hroles hrole => ?_⟩
  exact runChecked_deniedRole hsize hten hrem hopen hzero (by rw [hrole]; simp [h0, hroles])

/-! ### Registers that a role guards -/

section
variable {addr : Nat} {roles : List Byte} {ok : Bool} {f : Device → Device} {d : Device}

theorem rwl_applies (hrole : roles.contains (activeRole d) = true) (hok : ok = true) (hroom : ledgerRoom d = none) :
    rwl addr roles ok f d = f (ledgerReg 0x0020 addr stOK d) := by
  rw [rwl, hrole, hok, hroom]
  rfl

theorem rwl_dropped (hrole : roles.contains (activeRole d) = true) (hok : ok = true) (hroom : ledgerRoom d ≠ none) :
    rwl addr roles ok f d = { d with sec := { d.sec with cfgDropped := true } } := by
  rw [rwl, hrole, hok, if_neg (by decide), if_neg (by decide), if_pos (Option.isSome_iff_ne_none.mpr hroom)]

theorem rwl_refused (hrole : roles.contains (activeRole d) = false) :
    rwl addr roles ok f d = ledgerReg 0x0003 addr stDeniedRole d := by
  rw [rwl, hrole]
  rfl

end

theorem ledgerReg_dropped {d : Device} (hroom : ledgerRoom d ≠ none) (kind : W16) (addr : Nat) (st : W16) :
    ledgerReg kind addr st d = { d with sec := { d.sec with cfgDropped := true } } :=
  if_pos (Option.isSome_iff_ne_none.mpr hroom)

theorem ledgerReg_written {d : Device} (hroom : ledgerRoom d = none) (kind : W16) (addr : Nat) (st : W16) :
    ledgerReg kind addr st d = ledgerWrite (regBody d kind addr st) d :=
  if_neg (by simp [hroom])

/-- The entry of a register write touches SEC alone. -/
theorem ledgerReg_frame (kind : W16) (addr : Nat) (st : W16) (d : Device) :
    ledgerReg kind addr st d = { d with sec := (ledgerReg kind addr st d).sec } := by
  by_cases hroom : ledgerRoom d = none
  · rw [ledgerReg_written hroom, ledgerWrite_frame]
  · rw [ledgerReg_dropped hroom]

/-- While the ledger is durable its buffer is empty, so room for an entry is a place in the ledger (R408, R409). -/
theorem ledger_length_lt {d : Device} (hroom : ledgerRoom d = none) (hdur : ledgerDurable d = true) :
    d.sec.ledger.length < ledgerMax := by
  have hbuf : d.sec.buffer = [] := by
    simp only [ledgerDurable, Bool.and_eq_true, List.isEmpty_iff] at hdur
    exact hdur.2
  simp only [ledgerRoom, hdur, hbuf] at hroom
  by_contra hfull
  simp [hfull] at hroom

/-- A durable write appends the body at the end of the ledger. -/
theorem ledgerWrite_appends {d : Device} (hroom : ledgerRoom d = none) (hdur : ledgerDurable d = true) (b : LedgerBody) :
    ∃ e, (ledgerWrite b d).sec.ledger = d.sec.ledger ++ [e] ∧ e.body = b := by
  have hlen := ledger_length_lt hroom hdur
  rw [ledgerWrite, if_pos hdur, ledgerCommit, if_neg (by omega)]
  exact ⟨_, rfl, rfl⟩

/-- Settles O24: the branches of `rwl` by role, value and room, and the entry that a write leaves. -/
theorem roleGuardsRegisterWrites : Obligations.RoleGuardsRegisterWrites := by
  intro addr roles ok f d
  refine ⟨rwl_applies, rwl_dropped, rwl_refused, fun kind st => ⟨ledgerReg_frame kind addr st d, ?_, ?_⟩⟩
  · intro hroom hdur
    obtain ⟨e, hled, hbody⟩ := ledgerWrite_appends hroom hdur (regBody d kind addr st)
    rw [ledgerReg_written hroom]
    exact ⟨e, hled, by rw [hbody]; rfl, by rw [hbody]; rfl, by rw [hbody]; rfl, by rw [hbody]; rfl⟩
  · exact fun hroom => ledgerReg_dropped hroom kind addr st

/-! ### The device range: each operation on the plaintext it expects (R81 to R85) -/

theorem nop_empty (p : Packet) (d : Device) : nop p [] d = complete p d := rfl

theorem identify_empty (p : Packet) (d : Device) : identify p [] d = finish p stOK (identifyBytes d) d := rfl

theorem tagQuery_host {p : Packet} {b : List Byte} (hlen : b.length = 4) (hc : p.chan = .host) (d : Device) :
    tagQuery p b d = finish p stOK ([BitVec.ofNat 8 (tagState d (word16 b 0)).1, 0] ++
      leBytes 2 (tagState d (word16 b 0)).2.1.toNat ++ [(tagState d (word16 b 0)).2.2, 0, 0, 0]) d := by
  rw [tagQuery, if_neg (by omega), hc]

theorem resetOp_warm {p : Packet} {b : List Byte} {d : Device} (hlen : b.length = 4) (hkind : byteAt b 0 = 1)
    (hroom : ledgerRoom d = none) : resetOp p b d =
      (let e := complete p (ledgerConfig p d)
       { e with cmd := { e.cmd with resetPending := e.cmd.resetPending ++ [(refOf p, e.clock)] } }) := by
  rw [resetOp, if_neg (by simp [hlen, hkind]), privileged, hroom]

theorem execBadOpcode_unassigned {s : State} {r : Ref} {p : Packet} (hfind : findPacket s.dev r = some p)
    (hop : assignedOpcodes.contains p.hdr.opcode.toNat = false) (hready : isReady s.dev = true) (hturn : canStart s.dev p = true) :
    execBadOpcode r s = .next (settled s (refuse p stBadOpcode s.dev)) := by
  have hserved : served s.dev p = true := by rw [served, hready, Bool.true_or]
  rw [execBadOpcode, run_settled, hfind]
  simp only [hop, hserved, hturn, Bool.not_false, and_self, if_true]

/-- Settles O23: an admitted packet runs its operation, and each operation completes as its rule says. -/
theorem deviceRangeCompletes : Obligations.DeviceRangeCompletes := by
  intro s r p b c
  refine ⟨?_, ?_, ?_, ?_, ?_⟩
  · rintro h rfl
    rw [exec_nop, execNop, run_admits h, nop_empty]
  · rintro h rfl
    rw [exec_identify, execIdentify, run_admits h, identify_empty]
  · intro h hlen hc
    rw [exec_tagQuery, execTagQuery, run_admits h, tagQuery_host (p := begun p b) hlen hc]
  · intro h hlen hkind hroom
    rw [exec_reset, execReset, run_admits h, resetOp_warm hlen hkind hroom]
    rfl
  · intro hfind hop hready hturn
    rw [exec_badOpcode, execBadOpcode_unassigned hfind hop hready hturn]
    rfl

/-! ### Transactions of the host port -/

/-- On a port that answers, a transaction has its effect, and is no RESET_ENABLE (R47). -/
theorem run_transact {s : State} (h : hostAlive s.dev = true) (f : Device → Device) :
    run (transact f) s = .next (settled s (f (noEnable s.dev))) := by
  rw [run_settled, transact, if_pos h]

/-! ### Reads -/

/-- The first byte that a READ takes from an aligned word of control space reads the register. -/
theorem readByte_fresh {a : Nat} (ha : a < 0x01000000) (h4 : a % 4 = 0) (d : Device) :
    readByte a { dev := d } =
      { dev := (readWord a d).2, word := some (a, (readWord a d).1), out := [BitVec.ofNat 8 (readWord a d).1] } := by
  have hword : a / 4 * 4 = a := by omega
  rw [readByte, if_pos ha]
  simp [hword, h4]

/-- A further byte of the word last read comes from the value read before. -/
theorem readByte_same {a v : Nat} {r : ReadRun} (ha : a < 0x01000000) (hw : r.word = some (a / 4 * 4, v)) :
    readByte a r = { r with out := r.out ++ [BitVec.ofNat 8 (v / 256 ^ (a % 4))] } := by
  cases r
  cases hw
  rw [readByte, if_pos ha]
  simp only [if_true]

/-- So do all further bytes of that word. -/
theorem readBytes_same {w v : Nat} (hw : w < 0x01000000) (h4 : w % 4 = 0) (k i : Nat) (hk : i + k ≤ 4) (r : ReadRun)
    (hr : r.word = some (w, v)) :
    readBytes k (w + i) r = { r with out := r.out ++ leBytes k (v / 256 ^ i) } := by
  induction k generalizing i r with
  | zero => simp [readBytes, leBytes]
  | succ k ih =>
    have hword : (w + i) / 4 * 4 = w := by omega
    have hplace : (w + i) % 4 = i := by omega
    have hnext : (w + i + 1) % 2 ^ 32 = w + (i + 1) := by omega
    rw [readBytes, readByte_same (by omega) (by rw [hword, hr]), hplace, hnext]
    refine (ih (i + 1) (by omega) { r with out := r.out ++ [BitVec.ofNat 8 (v / 256 ^ i)] } hr).trans ?_
    rw [leBytes, List.append_assoc, List.singleton_append, pow_succ, Nat.div_div_eq_div_mul]

/-- A READ of one aligned word of control space reads its register once and returns its four bytes (R7, R48). -/
theorem readBytes_word {a : Nat} (ha : a < 0x01000000) (h4 : a % 4 = 0) (d : Device) :
    readBytes 4 a { dev := d } =
      { dev := (readWord a d).2, word := some (a, (readWord a d).1), out := leBytes 4 (readWord a d).1 } := by
  have hnext : (a + 1) % 2 ^ 32 = a + 1 := by omega
  rw [readBytes, readByte_fresh ha h4, hnext, readBytes_same ha h4 3 1 (by decide) _ rfl]
  rfl

/-- Control space has its first data within 80 ns, so only the latency decides whether its READ may be late (R45). -/
theorem mayBeLate_control {a : Nat} (ha : a < 0x01000000) (d : Device) (ck : Nat) :
    mayBeLate d a ck = decide (bitsOf d.host.xspiCfg.toNat 8 5 * ck < 80000) := by
  have hready : readyTime d a = (80, false) := if_pos (by omega)
  rw [mayBeLate, hready, if_neg (by omega)]
  exact Bool.or_false _

theorem readAt_word {a ck : Nat} {d : Device} (ha : a < 0x01000000) (h4 : a % 4 = 0)
    (hck : 80000 ≤ bitsOf d.host.xspiCfg.toNat 8 5 * ck) :
    readAt a 4 ck d = { (readWord a d).2 with host.dq := .data (leBytes 4 (readWord a d).1) } := by
  have hlate : mayBeLate d a ck = false := by rw [mayBeLate_control ha]; simpa using hck
  simp only [readAt, hlate, Bool.false_and, Bool.false_eq_true, if_false]
  rw [readBytes_word ha h4]
  rfl

theorem readAt_late {a len ck : Nat} {d : Device} (ha : a < 0x01000000)
    (hck : bitsOf d.host.xspiCfg.toNat 8 5 * ck < 80000) (hfree : Config.freeBit d.freeCtr = true) :
    readAt a len ck d = lateRead len (spend 1 d) := by
  have hlate : mayBeLate d a ck = true := by rw [mayBeLate_control ha]; simpa using hck
  rw [readAt, hlate, hfree]
  rfl

/-! The latch of 64-bit registers (R15). -/

theorem isLow_mod_four {a : Nat} (h : isLow a = true) : a % 4 = 0 := by
  simp only [isLow, Bool.or_eq_true, Bool.and_eq_true, beq_iff_eq, decide_eq_true_eq] at h
  omega

/-- The word above a low word is no low word itself. -/
theorem isLow_high {a : Nat} (h : isLow a = true) : isLow (a + 4) = false := by
  rw [Bool.eq_false_iff]
  intro h'
  simp only [isLow, Bool.or_eq_true, Bool.and_eq_true, beq_iff_eq, decide_eq_true_eq] at h h'
  omega

/-- Reading a low word returns it and latches its high word. -/
theorem readWord_low {a : Nat} (h : isLow a = true) (d : Device) :
    readWord a d = (regValue d a, { d with
      host.shadow := Assoc.insert d.host.shadow a (BitVec.ofNat 32 (regValue d (a + 4))) }) := by
  have hfree : ¬(a = 0xA0050 ∨ a = 0xD0000) := by
    rintro (rfl | rfl) <;> exact absurd h (by decide)
  simp only [readWord, if_neg hfree, h, if_true]

/-- Reading a high word returns what was latched. -/
theorem readWord_high {a : Nat} {x : W32} {d : Device} (h : isLow a = true) (hx : Assoc.find d.host.shadow a = some x) :
    (readWord (a + 4) d).1 = x.toNat := by
  have hfree : ¬(a + 4 = 0xA0050 ∨ a + 4 = 0xD0000) := by
    rintro (h' | h')
    · rw [show a = 0xA004C by omega] at h; exact absurd h (by decide)
    · rw [show a = 0xCFFFC by omega] at h; exact absurd h (by decide)
  simp only [readWord, if_neg hfree, isLow_high h, Nat.add_sub_cancel, h, hx]
  simp

/-- A flag of DEV_EVENT is set by its event. -/
theorem setEvent_event (n : Nat) (d : Device) (hn : n < 12) : (setEvent n d).host.event.getLsbD n = true := by
  show (d.host.event ||| 1#12 <<< n).getLsbD n = true
  simp [hn]

/-- No register shows RESET_ENABLE. -/
theorem regValue_noEnable (d : Device) (a : Nat) : regValue (noEnable d) a = regValue d a := rfl

/-- LOW_WORD_READ puts the low word on DQ and latches the high word (R15). -/
theorem execLowWordRead_low {s : State} {a : W32} (halive : hostAlive s.dev = true) (hlow : isLow a.toNat = true) :
    execLowWordRead a s = .next (settled s (let d := noEnable s.dev
      { d with host.dq := .data (leBytes 4 (regValue s.dev a.toNat))
               host.shadow := Assoc.insert d.host.shadow a.toNat (BitVec.ofNat 32 (regValue d (a.toNat + 4))) })) := by
  rw [execLowWordRead, run_transact halive, if_pos hlow, readWord_low hlow, regValue_noEnable]

/-- Settles O17: a word in time, a word that is late, and the latch of a low word. -/
theorem readsReturnRegisters : Obligations.ReadsReturnRegisters := by
  intro s a halive
  refine ⟨fun ck ha h4 => ⟨fun hck => ?_, fun hck hfree => ?_⟩, fun hlow => ?_⟩
  · rw [exec_read, execRead, run_transact halive, readAt_word (d := noEnable s.dev) ha h4 hck]
    rfl
  · rw [exec_read, execRead, run_transact halive, readAt_late (d := noEnable s.dev) ha hck hfree]
    refine ⟨_, rfl, ?_, ?_, ?_, ?_, ?_, ?_⟩
    · exact settle_host (·.dq) (fun _ _ _ => rfl) _
    · exact settle_host (·.late) (fun _ _ _ => rfl) _
    · rw [settled, settle_event _ _ (by decide)]
      exact setEvent_event _ _ (by decide)
    · exact settle_host (·.lateCount) (fun _ _ _ => rfl) _
    · exact settle_cmd _
    · exact settle_fab _
  · rw [exec_lowWordRead, execLowWordRead_low halive hlow]
    refine ⟨_, rfl, settle_host (·.dq) (fun _ _ _ => rfl) _, fun e he => ?_⟩
    have hshadow : Assoc.find e.host.shadow a.toNat = some (BitVec.ofNat 32 (regValue (noEnable s.dev) (a.toNat + 4))) := by
      rw [he, settled, settle_host (·.shadow) (fun _ _ _ => rfl)]
      exact (Assoc.find_insert _ _ _ _).trans (if_pos rfl)
    rw [readWord_high hlow hshadow, BitVec.toNat_ofNat]
    rfl

/-! ### Writes -/

theorem writeAt_nil (fuel a : Nat) (den : Bool) (d : Device) : writeAt fuel a [] den d = (den, d) := by
  cases fuel <;> rfl

/-- The register that one aligned word of control space writes (R14). -/
theorem wordsWrite_word {a : Nat} {bs : List Byte} (h4 : a % 4 = 0) (hlen : bs.length = 4) (d : Device) :
    wordsWrite 5 a bs d = regWrite a (word32 bs 0) d := by
  have hrest : bs.drop 4 = [] := List.drop_of_length_le hlen.le
  rw [wordsWrite, if_neg (by omega), if_neg (by omega), hrest]
  rfl

/-! A WRITE that stays within one region (R46, R48). -/

/-- Where nothing is mapped a WRITE does nothing, whatever its length. -/
theorem writeAt_unmapped {a : Nat} {bs : List Byte} (fuel : Nat) (den : Bool) (d : Device) (hstart : 0x02010000 ≤ a)
    (hend : a + bs.length ≤ 0x80000000) : writeAt (fuel + 1) a bs den d = (den, d) := by
  rcases eq_or_ne bs [] with rfl | hbs
  · exact writeAt_nil ..
  have hpos := List.length_pos_iff.mpr hbs
  have hcontrol : ¬a < 0x01000000 := by omega
  have hcommand : ¬a < 0x02000000 := by omega
  have hwindow : ¬a < 0x02010000 := by omega
  have hlt : a < 0x80000000 := by omega
  have haperture : ¬0x80000000 ≤ a := by omega
  have hall : min bs.length (0x80000000 - a) = bs.length := by omega
  simp only [writeAt, List.isEmpty_iff, hbs, hcontrol, hcommand, hwindow, hlt, haperture, and_false, if_true, if_false, hall,
    List.drop_length, writeAt_nil]

section
variable {a : Nat} {bs : List Byte} (hbs : bs ≠ []) (fuel : Nat) (den : Bool) (d : Device)
include hbs

theorem writeAt_control (hend : a + bs.length ≤ 0x01000000) :
    writeAt (fuel + 1) a bs den d = (den, wordsWrite (bs.length + 1) a bs d) := by
  have hpos := List.length_pos_iff.mpr hbs
  have hlt : a < 0x01000000 := by omega
  have hall : min bs.length (0x01000000 - a) = bs.length := by omega
  simp only [writeAt, List.isEmpty_iff, hbs, hlt, if_true, if_false, hall, List.take_length, List.drop_length, writeAt_nil]

theorem writeAt_window (hstart : 0x02000000 ≤ a) (hend : a + bs.length ≤ 0x02010000) :
    writeAt (fuel + 1) a bs den d = (den, windowWrite (a - 0x02000000) bs d) := by
  have hpos := List.length_pos_iff.mpr hbs
  have hcontrol : ¬a < 0x01000000 := by omega
  have hcommand : ¬a < 0x02000000 := by omega
  have hlt : a < 0x02010000 := by omega
  have hall : min bs.length (0x02010000 - a) = bs.length := by omega
  simp only [writeAt, List.isEmpty_iff, hbs, hcontrol, hcommand, hstart, hlt, and_self, if_true, if_false, hall, List.take_length,
    List.drop_length, writeAt_nil]

theorem writeAt_aperture (hstart : 0x80000000 ≤ a) (hend : a + bs.length ≤ 2 ^ 32) :
    writeAt (fuel + 1) a bs den d = apWrite bs.length a bs den d := by
  have hcontrol : ¬a < 0x01000000 := by omega
  have hcommand : ¬a < 0x02000000 := by omega
  have hwindow : ¬a < 0x02010000 := by omega
  have hunmapped : ¬a < 0x80000000 := by omega
  have hall : min bs.length (2 ^ 32 - a) = bs.length := by omega
  simp only [writeAt, List.isEmpty_iff, hbs, hcontrol, hcommand, hwindow, hunmapped, hstart, and_false, if_true, if_false, hall,
    List.take_length, List.drop_length, writeAt_nil]

end

@[simp] theorem countDenied_false (d : Device) : countDenied false d = d := rfl

/-- Outside the command window a WRITE goes region by region, and what R203 refuses of it is counted once. -/
theorem writeTransaction_outside {a : Nat} {bs : List Byte} {d e : Device} {den : Bool} (h : ¬(0x01000000 ≤ a ∧ a < 0x01010000))
    (hregions : writeAt (bs.length + 1) a bs false d = (den, e)) : writeTransaction a bs d = countDenied den e := by
  rw [writeTransaction, if_neg h, hregions]

theorem execPacketSubmit_window {s : State} {a : W32} {bs : List Byte} (halive : hostAlive s.dev = true)
    (h : 0x01000000 ≤ a.toNat ∧ a.toNat < 0x01010000) : execPacketSubmit a bs s =
      .next (settled s (submitOn .host (decide (a.toNat = 0x01000000)) bs (noEnable s.dev))) := by
  have hstart : (a = 0x01000000) = (a.toNat = 0x01000000) := propext BitVec.toNat_eq
  rw [execPacketSubmit, run_transact halive, if_pos h]
  simp only [hstart]

theorem execRegisterWrite_word {s : State} {a v : W32} (halive : hostAlive s.dev = true)
    (h : a.toNat < 0x01000000 ∧ a.toNat % 4 = 0) :
    execRegisterWrite a v s = .next (settled s (regWrite a.toNat v (noEnable s.dev))) := by
  rw [execRegisterWrite, run_transact halive, if_pos h]

/-- Settles O18: region by region, each clause a WRITE that stays within one. -/
theorem writeIsRegisterWrites : Obligations.WriteIsRegisterWrites := by
  intro s a bs halive
  have hwrite : exec (.write a bs) s = .next (settled s (writeTransaction a.toNat bs (noEnable s.dev))) := by
    rw [exec_write, execWrite, run_transact halive]
  dsimp only
  refine ⟨fun h4 ha hlen => ⟨?_, ?_⟩, fun hlo hhi => ⟨?_, ?_⟩, fun hlo hhi hbs => ?_, fun hlo hhi => ?_, fun hlo hhi hbs => ?_, ?_⟩
  · have hbs : bs ≠ [] := List.ne_nil_of_length_pos (by omega)
    rw [hwrite, writeTransaction_outside (by omega) (writeAt_control hbs _ _ _ (by omega)), countDenied_false, hlen,
      wordsWrite_word h4 hlen]
  · rw [exec_registerWrite, execRegisterWrite_word halive ⟨ha, h4⟩]
  · rw [hwrite, writeTransaction, if_pos ⟨hlo, hhi⟩]
  · rw [exec_packetSubmit, execPacketSubmit_window halive ⟨hlo, hhi⟩]
  · rw [hwrite, writeTransaction_outside (by omega) (writeAt_window hbs _ _ _ hlo hhi), countDenied_false]
  · rw [hwrite, writeTransaction_outside (by omega) (writeAt_unmapped _ _ _ hlo hhi), countDenied_false]
  · rw [hwrite, writeTransaction_outside (by omega) (writeAt_aperture hbs _ _ _ hlo hhi)]
  · exact ⟨_, hwrite, rfl⟩

end Sys2Proof.Machine
end

section
/-! PROOFS. What every command ends with: ALERT# and the reasons shown, the values at reset, and the frames of acceptance, completion and
settling. -/

namespace Sys2Proof.Machine

/-! ### What settling leaves: ALERT# and the reasons shown (R77, R471) -/

/-- The record of k ends with the device-wide reasons in force shown (R471). -/
theorem noteRates_shown (d : Device) : (noteRates d).pwr.shown = reasonsOf (noteRates d) 0 &&& 0x2D := by
  unfold noteRates
  dsimp only
  split
  · next h => exact h.symm
  · rfl

/-- Whatever a command did, settling ends with ALERT# and the reasons shown following their conditions. -/
theorem settled_settle (d : Device) : Settled (settle d) := by
  refine ⟨settle_alert d, fun halive => ?_⟩
  rw [settle_coreAlive] at halive
  unfold settle
  rw [if_pos halive]
  exact noteRates_shown d

/-- The conditions of R77 while the core die runs. -/
theorem alertCond_iff {d : Device} (halive : coreAlive d = true) : alertCond d = true ↔
    (bitsOf d.cmd.alertCtrl.toNat 0 8 ≠ 0 ∧ bitsOf d.cmd.alertCtrl.toNat 0 8 ≤ d.cmd.ring.length) ∨
    (bitsOf d.cmd.alertCtrl.toNat 8 10 ≠ 0 ∧ ∃ r rs, d.cmd.ring = r :: rs ∧
      r.at_ + bitsOf d.cmd.alertCtrl.toNat 8 10 * 1000 ≤ d.clock) ∨
    d.host.event &&& d.host.eventEn ≠ 0 := by
  unfold alertCond
  cases hring : d.cmd.ring <;> simp [halive, or_assoc]

theorem alertCond_dead {d : Device} (hdead : coreAlive d = false) : alertCond d = false := by
  rw [alertCond, hdead, Bool.false_and]

/-- Settles O4: every step settles the device last, from any state, and settling alone makes the invariant true. -/
theorem stepKeepsSettled : Obligations.StepKeepsSettled := by
  intro s t hstep
  obtain ⟨d, hd⟩ := step_next s
  cases hd.symm.trans hstep
  refine ⟨settled_settle d, fun halive => ?_, fun hdead => ?_⟩
  · rw [settle_alert]
    exact alertCond_iff halive
  · rw [settle_alert]
    exact alertCond_dead hdead

/-- Settles O5: in HELD the core die does not run, so ALERT# is released and no reason has to be shown. -/
theorem resetIsSettled : Obligations.ResetIsSettled := by
  have hdead : coreAlive State.reset.dev = false := rfl
  exact ⟨(alertCond_dead hdead).symm, fun halive => absurd halive (by rw [hdead]; decide)⟩

/-- Settles O6: each value is its field's default, and no address of an empty memory holds a byte. -/
theorem resetValues : Obligations.ResetValues :=
  ⟨rfl, rfl, rfl, rfl, rfl, rfl, rfl, rfl, fun _ => rfl, rfl, rfl, rfl, rfl, rfl, fun _ => rfl⟩

/-! ### Completing a packet: its flight ends, and its record goes where there is room (R70 to R76) -/

/-- The device once a packet has left flight and an AUTH_FAIL is counted (R67), before its record is queued. -/
def leftFlight (p : Packet) (st : W16) (d : Device) : Device :=
  { dropPacket p d with cmd.authFailCount := d.cmd.authFailCount + if st = stAuthFail then 1 else 0 }

/-- The record of a completed packet (R71). -/
def completionOf (p : Packet) (st : W16) (x : List Byte) (d : Device) : Record :=
  recordOf d p.hdr.tag st true (resultOut p st x) p.hdr.opcode p.hdr.tenant

/-- A QUIET packet that ends OK without a result leaves no record (R76). -/
def leavesNoRecord (p : Packet) (st : W16) (x : List Byte) : Bool :=
  isQuiet p && decide (st = stOK) && (resultOut p st x).isEmpty

theorem finish_eq (p : Packet) (st : W16) (x : List Byte) (d : Device) : finish p st x d =
    if leavesNoRecord p st x then leftFlight p st d
    else match p.chan with
      | .host => queueRecord (completionOf p st x d) (leftFlight p st d)
      | c => sendReply c (completionOf p st x d) (leftFlight p st d) := by
  have hleft : (if st = stAuthFail then { dropPacket p d with cmd.authFailCount := (dropPacket p d).cmd.authFailCount + 1 }
      else dropPacket p d) = leftFlight p st d := by
    by_cases hst : st = stAuthFail
    · rw [leftFlight, if_pos hst, if_pos hst]
      rfl
    · have hsame : d.cmd.authFailCount + (if st = stAuthFail then 1 else 0) = d.cmd.authFailCount := by
        rw [if_neg hst]
        exact BitVec.add_zero _
      rw [leftFlight, hsame, if_neg hst]
      rfl
  unfold finish
  dsimp only
  rw [hleft]
  rfl

/-- A result is empty as it goes out exactly when the operation gave none: a sealed one carries its tag besides (R70). -/
theorem resultOut_eq_nil (p : Packet) (st : W16) (x : List Byte) : resultOut p st x = [] ↔ x = [] := by
  unfold resultOut
  split
  · next h => simpa using h
  · next h =>
    have hx : x ≠ [] := by simpa using h
    split
    · refine iff_of_false (fun hnil => ?_) hx
      have hlen := congrArg List.length hnil
      rw [List.length_append, gcmSeal_length] at hlen
      simp at hlen
    · exact Iff.rfl

theorem leavesNoRecord_iff (p : Packet) (st : W16) (x : List Byte) :
    leavesNoRecord p st x = true ↔ isQuiet p = true ∧ st = stOK ∧ x = [] := by
  simp [leavesNoRecord, resultOut_eq_nil, and_assoc]

/-! Where a record goes. -/

theorem queueRecord_room {d : Device} (hroom : d.cmd.ring.length < ringSlots) (r : Record) :
    queueRecord r d = { d with cmd.ring := d.cmd.ring ++ [r], cmd.head := d.cmd.head + 1 } := if_pos hroom

/-- A record that finds the ring full is held, or lost where it is unbound and 256 such are held already (R64, R74). -/
theorem queueRecord_full {d : Device} (hfull : ringSlots ≤ d.cmd.ring.length) (r : Record) :
    queueRecord r d = if r.bound || decide (heldUnbound d < 256) then { d with cmd.held := d.cmd.held ++ [r] }
      else { d with cmd.unboundLost := true, cmd.lostCount := d.cmd.lostCount + 1 } := if_neg (by omega)

/-- Queueing a record changes the ring, its head, the held records and what counts the lost ones. -/
theorem queueRecord_cmd {α : Type} (g : Cmd → α) (h : ∀ (c : Cmd) ring head held lost n,
    g { c with ring := ring, head := head, held := held, unboundLost := lost, lostCount := n } = g c) (r : Record) (d : Device) :
    g (queueRecord r d).cmd = g d.cmd := by
  by_cases hroom : d.cmd.ring.length < ringSlots
  · rw [queueRecord_room hroom]
    exact h d.cmd _ _ d.cmd.held d.cmd.unboundLost d.cmd.lostCount
  · rw [queueRecord_full (Nat.le_of_not_lt hroom)]
    split
    · exact h d.cmd d.cmd.ring d.cmd.head _ d.cmd.unboundLost d.cmd.lostCount
    · exact h d.cmd d.cmd.ring d.cmd.head d.cmd.held _ _

/-! ### Frames of what every command shares -/

theorem acceptCounter_frame (key : List Byte) (n : Nat) (tenantKey : Bool) (d : Device) : acceptCounter key n tenantKey d =
    { d with cmd.counters := (acceptCounter key n tenantKey d).cmd.counters } := by
  unfold acceptCounter
  dsimp only
  split <;> rfl

theorem acceptPacket_frame (p : Packet) (c : Option Nat) (d : Device) : acceptPacket p c d =
    { d with cmd := (acceptPacket p c d).cmd, sec := { d.sec with session := (acceptPacket p c d).sec.session } } := by
  cases c with
  | none => rfl
  | some n =>
    unfold acceptPacket
    dsimp only
    rw [acceptCounter_frame]
    split
    · split <;> rfl
    · rfl

/-- The device without what settling writes: ALERT#, DEV_EVENT, and the power controller's records. -/
def withoutSettling (d : Device) : Device :=
  { d with host := { d.host with alert := false, event := 0 }, pwr := { d.pwr with groups := [], shown := 0 } }

theorem withoutSettling_settle (d : Device) : withoutSettling (settle d) = withoutSettling d := by
  have hrates := noteRates_frame withoutSettling (fun _ _ _ => rfl) (fun _ _ => rfl) d
  unfold settle
  dsimp only
  split
  · exact hrates
  · rfl

theorem settle_frame (d : Device) : settle d = { d with
    host := { d.host with alert := (settle d).host.alert, event := (settle d).host.event }
    pwr := { d.pwr with groups := (settle d).pwr.groups, shown := (settle d).pwr.shown } } :=
  congrArg (fun e : Device => { e with
    host := { e.host with alert := (settle d).host.alert, event := (settle d).host.event }
    pwr := { e.pwr with groups := (settle d).pwr.groups, shown := (settle d).pwr.shown } }) (withoutSettling_settle d)

/-- Settles O7: the frames of completion, acceptance and settling. -/
theorem sharedFrames : Obligations.SharedFrames :=
  ⟨finish_frame, fun p b c d => (acceptPacket_frame p c (startPacket p b d)).trans rfl, settle_frame, settle_event, settle_dead⟩

end Sys2Proof.Machine
end

section
/-! PROOFS. The completion ring and its tail, the completion of a packet, and sealed packets. -/

namespace Sys2Proof.Machine

/-! ### The completion ring keeps its count (R72 to R74) -/

/-- Head goes on by the records that join the ring. -/
theorem ringCount_append {head tail : BitVec 12} {n : Nat} (h : head - tail = BitVec.ofNat 12 n) (k : Nat) :
    head + BitVec.ofNat 12 k - tail = BitVec.ofNat 12 (n + k) := by
  rw [BitVec.ofNat_add, ← h]
  bv_omega

/-- Tail goes on by the records that leave the ring. -/
theorem ringCount_drop {head tail t : BitVec 12} {n : Nat} (hn : n ≤ ringSlots) (h : head - tail = BitVec.ofNat 12 n)
    (hle : (t - tail).toNat ≤ n) : head - t = BitVec.ofNat 12 (n - (t - tail).toNat) := by
  have hcount : (head - tail).toNat = n := by
    rw [h, BitVec.toNat_ofNat]
    exact Nat.mod_eq_of_lt (Nat.lt_of_le_of_lt hn (by decide))
  have hsplit : head - t = (head - tail) - (t - tail) := by bv_omega
  apply BitVec.eq_of_toNat_eq
  rw [hsplit, BitVec.toNat_sub_of_le (by rw [BitVec.le_def, hcount]; exact hle), hcount, BitVec.toNat_ofNat]
  exact (Nat.mod_eq_of_lt (by have : ringSlots = 2048 := rfl; omega)).symm

/-- The count that head and tail give is the number of records in the ring. -/
theorem RingOk.count {d : Device} (h : RingOk d) : (d.cmd.head - d.cmd.tail).toNat = d.cmd.ring.length := by
  obtain ⟨hlen, hcount⟩ := h
  rw [hcount, BitVec.toNat_ofNat]
  exact Nat.mod_eq_of_lt (Nat.lt_of_le_of_lt hlen (by decide))

theorem RingOk.append {d : Device} (h : RingOk d) (l : List Record) (hl : d.cmd.ring.length + l.length ≤ ringSlots) :
    RingOk { d with cmd.ring := d.cmd.ring ++ l, cmd.head := d.cmd.head + BitVec.ofNat 12 l.length } := by
  obtain ⟨-, hcount⟩ := h
  refine ⟨?_, ?_⟩
  · rw [List.length_append]
    exact hl
  · rw [List.length_append]
    exact ringCount_append hcount l.length

theorem RingOk.drop {d : Device} {t : BitVec 12} (h : RingOk d) (hn : (t - d.cmd.tail).toNat ≤ d.cmd.ring.length) :
    RingOk { d with cmd.ring := d.cmd.ring.drop (t - d.cmd.tail).toNat, cmd.tail := t } := by
  obtain ⟨hlen, hcount⟩ := h
  refine ⟨?_, ?_⟩
  · rw [List.length_drop]
    omega
  · rw [List.length_drop]
    exact ringCount_drop hlen hcount hn

/-- A ring with room holds nothing outside it. -/
theorem HeldOk.nil_of_room {d : Device} (h : HeldOk d) (hroom : d.cmd.ring.length < ringSlots) : d.cmd.held = [] :=
  by_contra fun hne => by have := h hne; omega

theorem queueRecord_keeps {d : Device} (hring : RingOk d) (hheld : HeldOk d) (r : Record) :
    RingOk (queueRecord r d) ∧ HeldOk (queueRecord r d) := by
  by_cases hroom : d.cmd.ring.length < ringSlots
  · rw [queueRecord_room hroom]
    exact ⟨hring.append [r] hroom, fun hne => absurd (hheld.nil_of_room hroom) hne⟩
  · have hfull : d.cmd.ring.length = ringSlots := Nat.le_antisymm hring.1 (Nat.le_of_not_lt hroom)
    rw [queueRecord_full (Nat.le_of_not_lt hroom)]
    split
    · exact ⟨hring, fun _ => hfull⟩
    · exact ⟨hring, hheld⟩

/-- After held records have moved up, some are still held only if the ring is full. -/
theorem refillRing_full {d : Device} (hheld : (refillRing d).cmd.held ≠ []) : ringSlots ≤ (refillRing d).cmd.ring.length := by
  have hlen : 0 < (d.cmd.held.drop (ringSlots - d.cmd.ring.length)).length := List.length_pos_iff.mpr hheld
  show ringSlots ≤ (d.cmd.ring ++ d.cmd.held.take (ringSlots - d.cmd.ring.length)).length
  rw [List.length_drop] at hlen
  rw [List.length_append, List.length_take]
  omega

theorem refillRing_keeps {d : Device} (hring : RingOk d) : RingOk (refillRing d) ∧ HeldOk (refillRing d) := by
  have hlen := hring.1
  have hok : RingOk (refillRing d) :=
    hring.append (d.cmd.held.take (ringSlots - d.cmd.ring.length)) (by rw [List.length_take]; omega)
  exact ⟨hok, fun hne => Nat.le_antisymm hok.1 (refillRing_full hne)⟩

theorem sendReply_keeps {d : Device} (hring : RingOk d) (hheld : HeldOk d) (c : Chan) (r : Record) :
    RingOk (sendReply c r d) ∧ HeldOk (sendReply c r d) := by
  unfold sendReply
  split <;> exact ⟨hring, hheld⟩

theorem finish_keeps {d : Device} (hring : RingOk d) (hheld : HeldOk d) (p : Packet) (st : W16) (x : List Byte) :
    RingOk (finish p st x d) ∧ HeldOk (finish p st x d) := by
  have hleft : RingOk (leftFlight p st d) ∧ HeldOk (leftFlight p st d) := ⟨hring, hheld⟩
  rw [finish_eq]
  split
  · exact hleft
  · split
    · exact queueRecord_keeps hleft.1 hleft.2 _
    · exact sendReply_keeps hleft.1 hleft.2 _ _

/-! ### Writes of CMD_CQ_TAIL (R73, R85) -/

/-- The device once tail has moved to `t`: the records passed are consumed and held ones have moved up. -/
def consumed (t : BitVec 12) (d : Device) : Device :=
  refillRing { d with cmd.ring := d.cmd.ring.drop (t - d.cmd.tail).toNat, cmd.tail := t }

/-- A RESET waits whose record is among the next `n` of the ring. -/
def passesReset (n : Nat) (d : Device) : Bool :=
  d.cmd.resetPending.any fun x => x.1.chan == .host &&
    (d.cmd.ring.take n).any fun y => y.bound && y.tag == x.1.tag && y.opcode == 0x0104

section
variable {v : W32} {d : Device}

theorem tailWrite_refused (h : (d.cmd.head - d.cmd.tail).toNat < (BitVec.ofNat 12 v.toNat - d.cmd.tail).toNat) :
    tailWrite v d = { d with cmd.tailErr := true } := if_pos h

theorem tailWrite_accepted (h : (BitVec.ofNat 12 v.toNat - d.cmd.tail).toNat ≤ (d.cmd.head - d.cmd.tail).toNat) :
    tailWrite v d = if passesReset (BitVec.ofNat 12 v.toNat - d.cmd.tail).toNat d
      then beginReset kindWarm 1 (consumed (BitVec.ofNat 12 v.toNat) d) else consumed (BitVec.ofNat 12 v.toNat) d :=
  if_neg (by omega)

end

theorem passesReset_iff (n : Nat) (d : Device) : passesReset n d = true ↔ ∃ x ∈ d.cmd.resetPending, x.1.chan = .host ∧
    (d.cmd.ring.take n).any (fun y => y.bound && y.tag == x.1.tag && y.opcode == 0x0104) = true := by
  simp only [passesReset, List.any_eq_true, Bool.and_eq_true, beq_iff_eq]

theorem consumed_keeps {t : BitVec 12} {d : Device} (hring : RingOk d) (h : (t - d.cmd.tail).toNat ≤ d.cmd.ring.length) :
    RingOk (consumed t d) ∧ HeldOk (consumed t d) := refillRing_keeps (hring.drop h)

/-- What tail does not pass stays in order, the ring's records first (R74). -/
theorem consumed_records (t : BitVec 12) (d : Device) : (consumed t d).cmd.ring ++ (consumed t d).cmd.held =
    d.cmd.ring.drop (t - d.cmd.tail).toNat ++ d.cmd.held := by
  simp [consumed, refillRing]

theorem tailWrite_keeps {v : W32} {d : Device} (hring : RingOk d) (hheld : HeldOk d) (hreset : d.cmd.resetPending = []) :
    RingOk (tailWrite v d) ∧ HeldOk (tailWrite v d) := by
  by_cases h : (BitVec.ofNat 12 v.toNat - d.cmd.tail).toNat ≤ (d.cmd.head - d.cmd.tail).toNat
  · have hnone : passesReset (BitVec.ofNat 12 v.toNat - d.cmd.tail).toNat d = false := by rw [passesReset, hreset]; rfl
    rw [tailWrite_accepted h, hnone]
    exact consumed_keeps hring (hring.count ▸ h)
  · rw [tailWrite_refused (by omega)]
    exact ⟨hring, hheld⟩

/-- Settles O8: each operation appends at the ring's end, takes from its front, or holds when it is full. -/
theorem ringInvariant : Obligations.RingInvariant := fun _ hring hheld =>
  ⟨queueRecord_keeps hring hheld, refillRing_keeps hring, finish_keeps hring hheld, fun _ => tailWrite_keeps hring hheld⟩

/-- Settles O9: the device that the records leave behind is `consumed`, and only a RESET among them makes a reset begin. -/
theorem tailWriteConsumes : Obligations.TailWriteConsumes := by
  intro v d
  dsimp only
  refine ⟨fun h => ⟨consumed (BitVec.ofNat 12 v.toNat) d, rfl, consumed_records _ d, refillRing_full, rfl, rfl, fun hpass => ?_,
    fun hpass => ?_⟩, tailWrite_refused⟩
  · rw [tailWrite_accepted h, if_pos ((passesReset_iff _ d).mpr hpass)]
  · rw [tailWrite_accepted h, if_neg]
    rw [passesReset_iff]
    rintro ⟨x, hx, hp⟩
    exact hpass x hx hp

/-! ### Completion of a packet of the host port (R67, R70 to R76) -/

theorem finish_authFailCount (p : Packet) (st : W16) (x : List Byte) (d : Device) :
    (finish p st x d).cmd.authFailCount = d.cmd.authFailCount + (if st = stAuthFail then 1 else 0) := by
  have hsend : ∀ c r (e : Device), (sendReply c r e).cmd.authFailCount = e.cmd.authFailCount := by
    intro c r e
    unfold sendReply
    split <;> rfl
  rw [finish_eq]
  split
  · rfl
  · split
    · exact (queueRecord_cmd (fun c => c.authFailCount) (fun _ _ _ _ _ _ => rfl) _ _).trans rfl
    · rw [hsend]
      rfl

theorem finish_silent {p : Packet} {st : W16} {x : List Byte} (h : leavesNoRecord p st x = true) (d : Device) :
    finish p st x d = leftFlight p st d := by
  rw [finish_eq, if_pos h]

theorem finish_queues {p : Packet} {st : W16} {x : List Byte} (h : ¬leavesNoRecord p st x = true) (hc : p.chan = .host) (d : Device) :
    finish p st x d = queueRecord (completionOf p st x d) (leftFlight p st d) := by
  rw [finish_eq, if_neg h, hc]

/-- Settles O10: the completion is silent, or queues the one record `completionOf`. -/
theorem completionQueuesRecord : Obligations.CompletionQueuesRecord := by
  intro p st x d hc
  refine ⟨findPacket_finish p st x d, finish_authFailCount p st x d, fun hq hst hx => ?_, fun h => ?_⟩
  · rw [finish_silent ((leavesNoRecord_iff p st x).mpr ⟨hq, hst, hx⟩)]
    exact ⟨rfl, rfl⟩
  · have hrec : ¬leavesNoRecord p st x = true := by
      rw [leavesNoRecord_iff]
      rintro ⟨hq, hst, hx⟩
      simp [hq, hst, hx] at h
    refine ⟨completionOf p st x d, rfl, rfl, rfl, rfl, rfl, fun hroom => ?_, fun hfull => ?_⟩
    · rw [finish_queues hrec hc, queueRecord_room (d := leftFlight p st d) hroom]
      exact ⟨rfl, rfl⟩
    · rw [finish_queues hrec hc, queueRecord_full (d := leftFlight p st d) hfull]
      exact ⟨rfl, rfl⟩

/-! ### Sealed packets (R66, R67) -/

/-- The number that the little-endian bytes of a number spell. -/
theorem leNat_leBytes (k n : Nat) : leNat (leBytes k n) = n % 256 ^ k := by
  induction k generalizing n with
  | zero => simp [leBytes, leNat, Nat.mod_one]
  | succ k ih =>
    have hpow : 256 ^ (k + 1) = 256 * 256 ^ k := pow_succ' 256 k
    rw [leBytes, leNat, ih, BitVec.toNat_ofNat, hpow]
    exact Nat.mod_mul.symm

/-- Putting an entry in the place of every one of its key makes it the first of its key. -/
theorem find_map_replace {k' : KeyCounter} {key : List Byte} (hk' : k'.key = key) (l : List KeyCounter)
    (hany : (l.any fun x => x.key == key) = true) :
    (l.map fun x => if x.key == key then k' else x).find? (fun x => x.key == key) = some k' := by
  induction l with
  | nil => simp at hany
  | cons x xs ih =>
    by_cases hx : x.key = key
    · simp [hx, hk']
    · simp only [List.any_cons, beq_eq_false_iff_ne.mpr hx, Bool.false_or] at hany
      simp only [List.map_cons, beq_eq_false_iff_ne.mpr hx, Bool.false_eq_true, if_false, List.find?_cons, ih hany]

theorem countersOf_key (d : Device) (key : List Byte) : (countersOf d key).key = key := by
  cases hfind : d.cmd.counters.find? fun k => k.key == key with
  | none =>
    rw [countersOf, hfind]
    rfl
  | some k =>
    have hkey := List.find?_some hfind
    rw [countersOf, hfind]
    exact beq_iff_eq.mp hkey

/-- After its acceptance a counter is the last one under its key. -/
theorem countersOf_acceptCounter (key : List Byte) (n : Nat) (tenantKey : Bool) (d : Device) :
    (countersOf (acceptCounter key n tenantKey d) key).last = n := by
  have hkey := countersOf_key d key
  unfold acceptCounter
  dsimp only
  split
  · next hany =>
    rw [countersOf]
    dsimp only
    rw [find_map_replace (by exact hkey) _ hany]
    rfl
  · next hany =>
    have hnone : (d.cmd.counters.find? fun x => x.key == key) = none := by simpa using hany
    rw [countersOf, List.find?_append, hnone]
    simp [hkey]

theorem countersOf_acceptPacket (p : Packet) (n : Nat) (d : Device) :
    (countersOf (acceptPacket p (some n) d) p.key).last = n := by
  have haccept := countersOf_acceptCounter p.key n (decide (p.hdr.tenant ≠ 0)) d
  unfold acceptPacket
  dsimp only
  split
  · split <;> exact haccept
  · exact haccept

section
variable {p : Packet} {n : Nat} {plain : List Byte} (hn : n < 2 ^ 64)
  (hpay : p.payload = leBytes 8 n ++ gcmSeal p.key (packetIv 0 p) p.raw plain)
include hn hpay

/-- The first eight bytes of a sealed payload are its counter (R66). -/
theorem counterOf_sealed : leNat (counterOf p) = n := by
  rw [counterOf, hpay, List.take_left' (leBytes_length 8 n), leNat_leBytes]
  exact Nat.mod_eq_of_lt hn

variable (hsched : p.sched = false) (hsealed : isSealed p = true)
include hsched hsealed

/-- A sealed packet with a fresh counter opens to what was sealed. -/
theorem openPacket_sealed (hkey : p.key ≠ []) (hpos : 0 < n) {d : Device} (hlast : (countersOf d p.key).last < n) (gated : Bool) :
    openPacket d gated p = some (plain, some n) := by
  have hdrop : p.payload.drop 8 = gcmSeal p.key (packetIv 0 p) p.raw plain := by
    rw [hpay, List.drop_left' (leBytes_length 8 n)]
  have hfresh : ¬(n = 0 ∨ n ≤ (countersOf d p.key).last) := by omega
  simp only [openPacket, hsched, hsealed, counterOf_sealed hn hpay, List.isEmpty_iff, hkey, hdrop, if_neg hfresh, gcmOpen_gcmSeal]
  rfl

/-- One whose counter has been accepted before does not open (R67). -/
theorem openPacket_replayed {d : Device} (hlast : n ≤ (countersOf d p.key).last) (gated : Bool) : openPacket d gated p = none := by
  simp only [openPacket, hsched, hsealed, counterOf_sealed hn hpay, if_pos (Or.inr hlast : n = 0 ∨ n ≤ (countersOf d p.key).last)]
  simp

end

/-- Settles O11: a fresh counter opens, and is the last one accepted afterwards. -/
theorem sealedPacketOpensOnce : Obligations.SealedPacketOpensOnce := by
  intro d gated p
  refine ⟨fun hsched => if_pos hsched, fun n plain hsched hsealed hkey hpos hn hlast hpay => ⟨?_, ?_⟩⟩
  · exact openPacket_sealed hn hpay hsched hsealed hkey hpos hlast gated
  · exact openPacket_replayed hn hpay hsched hsealed (countersOf_acceptPacket p n d).ge gated

end Sys2Proof.Machine
end

section
/-! PROOFS. The host port and submission: the instructions of the port, register writes of the blocks DEV and CMD, HOLDOFF, PACKET_SUBMIT
and ECHO. -/

namespace Sys2Proof.Machine

/-! ### Instructions of the port (R43, R44, R47) -/

section
variable {s : State}

theorem execResetPort_enabled (halive : hostAlive s.dev = true) (hen : s.dev.host.resetEnabled = true) :
    execResetPort s = .next (settled s { noEnable s.dev with host.xspiCfg := 0x00A01401 }) := by
  rw [execResetPort, run_settled, if_neg (by rw [halive]; decide), if_pos hen]

theorem execResetPort_ignored (halive : hostAlive s.dev = true) (hen : s.dev.host.resetEnabled = false) :
    execResetPort s = .next (settled s s.dev) := by
  rw [execResetPort, run_settled, if_neg (by rw [halive]; decide), if_neg (by rw [hen]; decide)]

theorem execResetEnable_alive (halive : hostAlive s.dev = true) :
    execResetEnable s = .next (settled s { s.dev with host.resetEnabled := true }) := by
  rw [execResetEnable, run_settled, if_pos halive]

theorem execReadId_alive (halive : hostAlive s.dev = true) (n : Nat) : execReadId n s = .next (settled s
    { noEnable s.dev with host.dq := .data (padTo n (leBytes 4 (devIdent s.dev))) }) := by
  rw [execReadId, run_transact halive]
  rfl

theorem execBadInstr_unknown (halive : hostAlive s.dev = true) {c0 c1 : Byte} (hunknown : knownInstr s.dev c0 c1 = false) :
    execBadInstr c0 c1 s = .next (settled s { noEnable s.dev with host.dq := .highZ, host.badInstr := true }) := by
  rw [execBadInstr, run_settled, if_neg (by rw [halive]; decide), if_neg (by rw [hunknown]; decide)]

/-- Settles O15: RESET_PORT by the enable it finds, and any transaction between the two clears the enable. -/
theorem resetPortNeedsEnable : Obligations.ResetPortNeedsEnable := by
  intro s halive
  refine ⟨execResetPort_enabled halive, execResetPort_ignored halive, execResetEnable_alive halive, fun n => ?_⟩
  exact ⟨_, execReadId_alive halive n, settle_host (fun h => h.resetEnabled) (fun _ _ _ => rfl) _⟩

/-- A port that is off leaves DQ in high impedance, and settling releases ALERT# (R501, R511). -/
theorem run_portOff (hdead : hostAlive s.dev = false) {f : Device → Device} (hf : f s.dev = portOff s.dev) : run f s =
    .next { s with dev := { s.dev with host := { s.dev.host with dq := .highZ, alert := false } } } := by
  have hoff : coreAlive (portOff s.dev) = false := hdead
  rw [run_eq, hf, settle_dead _ hoff]
  rfl

theorem transact_portOff (hdead : hostAlive s.dev = false) (f : Device → Device) : transact f s.dev = portOff s.dev :=
  if_neg (by rw [hdead]; decide)

/-- Settles O16: the two instructions on a port that answers, and every transaction on one that does not. -/
theorem portInstructions : Obligations.PortInstructions := by
  intro s
  refine ⟨fun halive => ⟨execReadId_alive halive, fun _ _ => execBadInstr_unknown halive⟩, fun hdead => ?_⟩
  have htransact := fun f => run_portOff hdead (transact_portOff hdead f)
  have hoff : (!hostAlive s.dev) = true := by rw [hdead]; rfl
  simp only [List.forall_mem_cons]
  exact ⟨(exec_readId _ s).trans (htransact _), (exec_resetEnable s).trans (run_portOff hdead (if_neg (by rw [hdead]; decide))),
    (exec_resetPort s).trans (run_portOff hdead (if_pos hoff)), (exec_badInstr _ _ s).trans (run_portOff hdead (if_pos hoff)),
    (exec_read _ _ _ s).trans (htransact _), (exec_write _ _ s).trans (htransact _), (exec_lowWordRead _ s).trans (htransact _),
    (exec_registerWrite _ _ s).trans (htransact _), (exec_devXspiCfgWrite _ s).trans (htransact _),
    (exec_cmdCqTailWrite _ s).trans (htransact _), (exec_cmdResultSelWrite _ s).trans (htransact _),
    (exec_packetSubmit _ _ s).trans (htransact _), List.forall_mem_nil _⟩

end

/-! ### Register writes of the blocks DEV and CMD (R73, R75, R87) -/

/-- An address below 0x10000 is a register of the DEV block. -/
theorem regWrite_dev {a : Nat} (ha : a < 0x10000) (v : W32) (d : Device) : regWrite a v d = devRegWrite a v d := by
  rw [regWrite, if_pos ha, Nat.mod_eq_of_lt ha]

/-- Settles O19: each register by its offset, DEV_XSPI_CFG by the ranges of its fields. -/
theorem portRegisterWrites : Obligations.PortRegisterWrites := by
  intro s v halive
  have hdev : ∀ a : W32, a.toNat < 0x10000 → a.toNat % 4 = 0 →
      exec (.registerWrite a v) s = .next (settled s (devRegWrite a.toNat v (noEnable s.dev))) := by
    intro a ha h4
    rw [exec_registerWrite, execRegisterWrite_word halive ⟨by omega, h4⟩, regWrite_dev ha]
  have hxspi : exec (.devXspiCfgWrite v) s = .next (settled s (xspiWrite v (noEnable s.dev))) := by
    rw [exec_devXspiCfgWrite, execDevXspiCfgWrite, run_transact halive]
  refine ⟨hdev 0x28 (by decide) (by decide), hdev 0x20 (by decide) (by decide), fun hok => ?_, fun hbad => ?_, ?_, ?_⟩
  · rw [hxspi, xspiWrite, if_neg (by omega)]
    rfl
  · rw [hxspi, xspiWrite, if_pos hbad]
    rfl
  · rw [exec_cmdResultSelWrite, execCmdResultSelWrite, run_transact halive]
    rfl
  · rw [exec_cmdCqTailWrite, execCmdCqTailWrite, run_transact halive]
    rfl

/-! ### HOLDOFF (R77) -/

theorem execAlertHoldoffExpiry_pending {s : State} {r : Record} {rs : List Record} (halive : coreAlive s.dev = true)
    (hring : s.dev.cmd.ring = r :: rs) (hhold : bitsOf s.dev.cmd.alertCtrl.toNat 8 10 ≠ 0) : execAlertHoldoffExpiry s =
    .next (settled s (advanceTo (r.at_ + bitsOf s.dev.cmd.alertCtrl.toNat 8 10 * 1000) s.dev)) := by
  rw [execAlertHoldoffExpiry, run_settled, hring]
  simp only [halive, hhold, ne_eq, not_false_eq_true, and_self, if_true]

/-- Settles O20: time passes to the oldest record's age, and the second condition of R77 then holds. -/
theorem holdoffAsserts : Obligations.HoldoffAsserts := by
  intro s r rs halive hring hhold
  refine ⟨_, execAlertHoldoffExpiry_pending halive hring hhold, ?_, ?_, ?_, ?_, ?_, ?_⟩
  · show (settle _).host.alert = true
    rw [settle_alert, alertCond_iff (by rw [settle_coreAlive]; simpa [coreAlive, isFrozen] using halive)]
    refine .inr (.inl ?_)
    rw [settle_cmd, settle_clock, advanceTo_cmd, advanceTo_clock]
    exact ⟨hhold, r, rs, hring, Nat.le_max_right _ _⟩
  · exact (settle_clock _).trans (advanceTo_clock _ _)
  · exact (settle_cmd _).trans (advanceTo_cmd _ _)
  · exact (settle_tiles _).trans (advanceTo_tiles _ _)
  · exact (settle_fab _).trans (advanceTo_fab _ _)
  · exact (settle_sec _).trans (advanceTo_sec _ _)

/-! ### Submission on the host port (R58 to R63) -/

/-- The host's packets go to the command processor alone, which takes them in READY (R63). -/
theorem takesPackets_host (d : Device) : takesPackets d .host = isReady d := by
  simp [takesPackets]

section
variable {p : Packet} {fault : Option Nat} {b : List Byte} {d : Device} (hc : p.chan = .host)
include hc

theorem submitPacket_notReady (hready : isReady d = false) : submitPacket p fault b d = rejectWith 8 b d := by
  simp only [submitPacket, hc, takesPackets_host]
  rw [hready]
  rfl

variable (hready : isReady d = true)
include hready

theorem submitPacket_overrun (hlen : 262144 < intakeUsed d + b.length) : submitPacket p fault b d =
    setEvent evOverrun (noteCause 7 b (queueRecord (recordOf d p.hdr.tag stOverrun false [] p.hdr.opcode p.hdr.tenant)
      { d with cmd.overrunCount := d.cmd.overrunCount + 1, cmd.overrun := true })) := by
  simp only [submitPacket, hc, takesPackets_host]
  rw [hready, if_neg (by decide), if_pos ⟨trivial, hlen⟩]
  rfl

variable (hlen : intakeUsed d + b.length ≤ 262144)
include hlen

theorem submitPacket_refused {n : Nat} : submitPacket p (some n) b d =
    queueRecord (recordOf d p.hdr.tag stBadPacket false [] p.hdr.opcode p.hdr.tenant) (rejectWith n b d) := by
  simp only [submitPacket, hc, takesPackets_host]
  rw [hready, if_neg (by decide), if_neg (by omega)]
  rfl

theorem submitPacket_accepted : submitPacket p none b d = wakeUp 2 { d with
    cmd.flight := d.cmd.flight ++ [p], cmd.nextOrder := d.cmd.nextOrder + 1, cmd.acceptCount := d.cmd.acceptCount + 1 } := by
  simp only [submitPacket, hc, takesPackets_host]
  rw [hready, if_neg (by decide), if_neg (by omega)]
  rfl

end

/-- Settles O21: the submission by R61's order, each refusal with what it leaves. -/
theorem submissionAcceptsOrRefuses : Obligations.SubmissionAcceptsOrRefuses := by
  intro s bs halive
  dsimp only
  have hexec : exec (.packetSubmit 0x01000000 bs) s =
      .next (settled s (submitPacket (packetOf s.dev .host bs) (headerFault s.dev .host true bs) bs (noEnable s.dev))) := by
    rw [exec_packetSubmit, execPacketSubmit_window halive (by decide)]
    rfl
  refine ⟨fun hready hlen hok => ?_, fun n hready hlen hfault => ?_, fun hready hlen => ?_, fun hready => ?_⟩
  · rw [hexec, hok, submitPacket_accepted (d := noEnable s.dev) rfl hready hlen]
  · rw [hexec, hfault, submitPacket_refused (d := noEnable s.dev) rfl hready hlen]
    refine ⟨_, rfl, ?_, ?_, ?_, ?_, fun hroom => ?_⟩
    all_goals simp only [settled, settle_cmd]
    · exact queueRecord_cmd (fun c => c.flight) (fun _ _ _ _ _ _ => rfl) _ _
    · exact queueRecord_cmd (fun c => c.rejectCount) (fun _ _ _ _ _ _ => rfl) _ _
    · exact queueRecord_cmd (fun c => c.errCause) (fun _ _ _ _ _ _ => rfl) _ _
    · rw [settle_event _ _ (by decide), queueRecord_host]
      exact setEvent_event evReject _ (by decide)
    · rw [queueRecord_room (d := rejectWith n bs (noEnable s.dev)) hroom]
      exact ⟨_, rfl, rfl, rfl, rfl⟩
  · rw [hexec, submitPacket_overrun (d := noEnable s.dev) rfl hready hlen]
    refine ⟨_, rfl, ?_, ?_, ?_, ?_, ?_⟩
    all_goals simp only [settled, settle_cmd]
    · exact queueRecord_cmd (fun c => c.flight) (fun _ _ _ _ _ _ => rfl) _ _
    · exact queueRecord_cmd (fun c => c.overrunCount) (fun _ _ _ _ _ _ => rfl) _ _
    · exact queueRecord_cmd (fun c => c.overrun) (fun _ _ _ _ _ _ => rfl) _ _
    · rfl
    · rw [settle_event _ _ (by decide)]
      exact setEvent_event evOverrun _ (by decide)
  · rw [hexec, submitPacket_notReady (d := noEnable s.dev) rfl hready]
    refine ⟨_, rfl, ?_, ?_, ?_, ?_⟩
    all_goals simp only [settled, settle_cmd]
    all_goals rfl

/-! ### ECHO (R83) -/

theorem echo_within {p : Packet} {b : List Byte} (hlen : b.length ≤ (if isSealed p then 32744 else 32768)) (d : Device) :
    echo p b d = finish p stOK b d := if_neg (by omega)

/-- Settles O22: an admitted ECHO runs, and a payload within its bound is its result. -/
theorem echoOnlyCompletes : Obligations.EchoOnlyCompletes := by
  intro s r p b c h hlen
  rw [exec_echo, execEcho, run_admits h, echo_within (p := begun p b) hlen]

end Sys2Proof.Machine
end

section
/-! PROOFS. Resets, start-up and low power (R85, R510 to R526). -/

namespace Sys2Proof.Machine

/-! ### Resets of the device (R510 to R516) -/

/-- In FAULT a reset is taken only where RESTART makes it (R516). -/
theorem mayReset_fault {kind source : Byte} {d : Device} (hfault : d.boot.phase = .fault) (h : kind ≠ kindFault ∨ source ≠ 6) :
    mayReset kind source d = false := by
  have hother : (kind == kindFault && source == 6) = false := by
    rcases h with h | h
    · rw [beq_false_of_ne h, Bool.false_and]
    · rw [beq_false_of_ne h, Bool.and_false]
  simp only [mayReset, hother, hfault, ne_eq, not_true_eq_false, decide_false, Bool.or_self, Bool.and_false, Bool.false_and]

section
variable {s : State} {env : BootEnv}

theorem execWarmReset_taken {source : Byte} (h : mayReset kindWarm source s.dev = true) :
    execWarmReset source env s = .next (settled s (resetAndStart kindWarm source env s.dev)) := by
  rw [execWarmReset, run_settled, if_pos h]

theorem execWarmReset_ignored {source : Byte} (h : mayReset kindWarm source s.dev = false) :
    execWarmReset source env s = .next (settled s s.dev) := by
  rw [execWarmReset, run_settled, if_neg (by rw [h]; decide)]

theorem execFaultReset_taken {source : Byte} (h : mayReset kindFault source s.dev = true) :
    execFaultReset source env s = .next (settled s (resetAndStart kindFault source env s.dev)) := by
  rw [execFaultReset, run_settled, if_pos h]

theorem execFaultReset_ignored {source : Byte} (h : mayReset kindFault source s.dev = false) :
    execFaultReset source env s = .next (settled s s.dev) := by
  rw [execFaultReset, run_settled, if_neg (by rw [h]; decide)]

theorem execResetRecordTimeout_due (halive : coreAlive s.dev = true) {x : Ref} {t : Nat} {rest : List (Ref × Nat)}
    (hwait : s.dev.cmd.resetPending = (x, t) :: rest) : execResetRecordTimeout s =
    .next (settled s (beginReset kindWarm 1 (advanceTo (t + 10000000) s.dev))) := by
  simp only [execResetRecordTimeout, run_settled, hwait, if_pos halive]

theorem execRestart_begun (halive : hostAlive s.dev = true) {k src : Byte}
    (hbegun : (rwl 0xC0014 byEither true restartReset (noEnable s.dev)).boot.begun = some (k, src)) : execRestart env s =
    .next (settled s (startUp k src env (rwl 0xC0014 byEither true restartReset (noEnable s.dev)))) := by
  rw [execRestart, run_transact halive]
  simp only [hbegun]

theorem execPartitionReset_written (halive : hostAlive s.dev = true) (mask : Byte) (failed : Bool) :
    execPartitionReset mask false failed s =
      .next (settled s (rwl 0xC0018 byEither true (partReset mask false failed) (noEnable s.dev))) := by
  rw [execPartitionReset, run_settled, if_neg (by decide), transact, if_pos halive]

theorem execPartitionReset_fault (hready : isReady s.dev = true) (mask : Byte) (failed : Bool) :
    execPartitionReset mask true failed s = .next (settled s (partReset mask true failed s.dev)) := by
  rw [execPartitionReset, run_settled, if_pos rfl, if_pos hready]

/-! ### Events that a freeze holds back (R514, R510, R519, R522, R523) -/

variable (hlive : isFrozen s.dev = false)
include hlive

theorem execWatchdogExpiry_taken (hphase : s.dev.boot.phase = .booting ∨ s.dev.boot.phase = .ready) :
    execWatchdogExpiry env s = .next (settled s (resetAndStart kindFault 3 env s.dev)) := by
  rw [execWatchdogExpiry, run_settled, if_pos ⟨by rw [hlive]; rfl, hphase⟩]

theorem execStartThresholdReached_supply {src : Byte} (hbegun : s.dev.boot.begun = some (kindSupply, src)) :
    execStartThresholdReached env s = .next (settled s (startUp kindSupply src env s.dev)) := by
  simp only [execStartThresholdReached, run_settled, hbegun, hlive, Bool.not_false, and_self, if_true]

theorem execHibernateExit_wakes {source : Byte} (hlp : s.dev.boot.lp = .hibernate) (hwakes : wakesFrom source.toNat .hibernate = true) :
    execHibernateExit source env s = .next (settled s (startUp kindHibernate 0 env
      (beginReset kindHibernate 0 (ledgerLp { s.dev with boot.wakeSrc := source })))) := by
  rw [execHibernateExit, run_settled, if_pos ⟨hlp, by rw [hlive]; rfl, hwakes⟩]

theorem execStartupReady_waiting {t : Nat} (hwait : s.dev.boot.waitFrom = some t) :
    ∃ u, execStartupReady s = .next u ∧ u.dev.boot.phase = .ready ∧ u.dev.boot.waitFrom = none ∧
      (basesLocked s.dev.gauge = false → u.dev.boot.gaugeTimeout = true ∧
        u.dev.clock = max s.dev.clock (t + s.dev.boot.gaugeWait.toNat * 1000000)) := by
  simp only [execStartupReady, run_settled, hwait, hlive, Bool.false_eq_true, if_false]
  refine ⟨_, rfl, ?_, ?_, fun hunlocked => ?_⟩
  · exact congrArg (·.phase) (settle_boot _)
  · exact congrArg (·.waitFrom) (settle_boot _)
  · rw [hunlocked, settled]
    simp [becomeReady, advanceTo_clock]

theorem execNapExitComplete_exiting (dt : Nat) (hexit : s.dev.boot.exiting = true) :
    execNapExitComplete dt s = .next (settled s
      (let e := channelsUp { advance dt s.dev with boot := { (advance dt s.dev).boot with exiting := false, lp := .active, phase := .ready } }
       let f := if mustShed e then e else unshedPorts e
       let g := if f.boot.rearm then rearmFix f else f
       ledgerLp { g with boot := { g.boot with rearm := false } })) := by
  rw [execNapExitComplete, run_settled, if_neg (by rw [hexit, hlive]; decide)]

end

/-! ### Entry to a low-power state (R521, R522) -/

theorem execLpEntryComplete_parked {s : State} {x : LowPower} (hent : s.dev.boot.entering = some x) (halive : coreAlive s.dev = true)
    (hpark : stepsParked s.dev = true) : execLpEntryComplete s = .next (settled s (enterLp x s.dev)) := by
  simp only [execLpEntryComplete, run_settled, hent, halive, hpark, and_self, if_true]

theorem lpRequest_refused {x : LowPower} {d : Device} (h : lpRefusal d x = true) :
    lpRequest x d = { d with boot.lpRefused := true } := by
  rw [lpRequest, if_pos h]

/-- The word that a low-power request writes to BOOT_LP_CTRL: no wake, TRIG_WAKE as given, REQ. -/
theorem lpCtrl_word : ∀ req < 4, ∀ trig : Bool, let v := BitVec.ofNat 32 (req + bitAt trig 2)
    v.getLsbD 8 = false ∧ v.getLsbD 2 = trig ∧ bitsOf v.toNat 0 2 = req := by decide

section
variable {req : Nat} {d : Device} (hreq : req ≤ 3)
include hreq

/-- Under no role but the operator's, both fields of a request stand or fall together. -/
theorem lpWrite_other (hrole : activeRole d ≠ roleOperator) : lpWrite req d =
    rwl lpCtrlAddr byEither true (fun e => lpAsk req { e with boot.trigWake := d.boot.trigWake }) d := by
  obtain ⟨hwake, htrig, hask⟩ := lpCtrl_word req (by omega) d.boot.trigWake
  simp only [lpWrite, lpCtrlWrite, hwake, htrig, hask, Bool.false_eq_true, if_false, if_neg hrole]

/-- The operator may ask, and may not set TRIG_WAKE. -/
theorem lpWrite_operator (hrole : activeRole d = roleOperator) : lpWrite req d =
    ledgerReg 0x0003 lpCtrlAddr stDeniedRole (rwl lpCtrlAddr anyRole true (lpAsk req) d) := by
  obtain ⟨hwake, -, hask⟩ := lpCtrl_word req (by omega) d.boot.trigWake
  simp only [lpWrite, lpCtrlWrite, hwake, hask, Bool.false_eq_true, if_false, if_pos hrole]

end

/-! ### The check run that arms the Fixed plane again (R518, R522) -/

section
variable {d : Device} {img : List Byte} (himg : d.fix.image = some img)
include himg

theorem rearmFix_arms (hcount : planCount img (checkRun img d) = field img 12 4)
    (hbound : overBound (imgCycle img) (checkRun img d).fix.bound.toNat = false) :
    rearmFix d = { checkRun img d with fix.armed := true } := by
  simp only [rearmFix, himg, hcount, hbound, ne_eq, not_true_eq_false, Bool.false_eq_true, or_self, if_false]

theorem rearmFix_disarms (hcount : planCount img (checkRun img d) ≠ field img 12 4) :
    rearmFix d = saveFix (internalFault 3 (planCount img (checkRun img d)) (checkRun img d)) := by
  simp only [rearmFix, himg, ne_eq, hcount, not_false_eq_true, true_or, if_true]

end

/-! ### The obligation, part by part -/

/-- What the beginning of a reset leaves (R511). -/
theorem beginReset_leaves (kind source : Byte) (d : Device) : let e := beginReset kind source d
    e.boot.phase = .held ∧ e.boot.begun = some (kind, source) ∧ e.boot.lp = .active ∧ e.cmd.flight = [] ∧ e.cmd.ring = [] ∧
    e.cmd.held = [] ∧ e.cmd.counters = d.cmd.counters ∧ e.sec.session = none ∧ e.fix.run = none ∧ e.fix.rdy = false ∧
    e.flash.jobs = [] ∧ e.fab = d.fab ∧ e.tiles = d.tiles := by
  obtain ⟨hphase, hbegun, hlp, hcmd, hsession, hrun, hrdy, hjobs, hfab, htiles⟩ := beginReset_facts kind source d
  dsimp only
  rw [hcmd]
  exact ⟨hphase, hbegun, hlp, rfl, rfl, rfl, rfl, hsession, hrun, hrdy, hjobs, hfab, htiles⟩

/-- Start-up ends in FAULT with its step and code where something stops it, and with step 10 otherwise (R515, R516, R519). -/
theorem startUp_outcome (kind source : Byte) (env : BootEnv) (d : Device) :
    let full := kind == kindCold || kind == kindSupply || (kind == kindFault && source == 4 && d.boot.dramFault)
    (∀ step code, startFault kind full env = some (step, code) → let e := startUp kind source env d
      e.boot.phase = .fault ∧ e.boot.faultStep = BitVec.ofNat 8 step ∧ e.boot.faultCode = BitVec.ofNat 8 code) ∧
    (startFault kind full env = none → let e := startUp kind source env d
      (e.boot.phase = .ready ∧ e.boot.waitFrom = none) ∨ (e.boot.step = 10 ∧ e.boot.waitFrom.isSome = true)) := by
  refine ⟨fun step code hstop => ?_, fun hnone => ?_⟩
  · obtain ⟨e, he⟩ := startUp_stops hstop
    rw [he]
    exact ⟨rfl, rfl, rfl⟩
  · obtain ⟨e, he⟩ := startUp_ends hnone
    rw [he]
    exact stepTen_cases e

/-- What the entry to a low-power state shows once the device has settled (R521, R522). -/
theorem execLpEntryComplete_enters {s : State} {x : LowPower} (hent : s.dev.boot.entering = some x) (hx : x ≠ .active)
    (halive : coreAlive s.dev = true) (hpark : stepsParked s.dev = true) : ∃ u, execLpEntryComplete s = .next u ∧
    u.dev.boot.lp = x ∧ u.dev.boot.entering = none ∧ (x = .doze → u.dev.boot.phase = s.dev.boot.phase) ∧
    (x ≠ .doze → u.dev.boot.phase = .lowPower) ∧ (x ≠ .hibernate → ∀ c, c < 32 → (chanOf u.dev c).selfRef = true) ∧
    (x = .nap → u.dev.fix.armed = false) ∧ (x = .hibernate → u.dev.fix.rdy = false) := by
  obtain ⟨hlp, hentering, hdoze, hlow, hself, hnap, hhib⟩ := enterLp_facts x s.dev
  refine ⟨_, execLpEntryComplete_parked hent halive hpark, ?_⟩
  simp only [settled, settle_boot, settle_fix, chanOf_settle]
  refine ⟨hlp, hentering, hdoze, fun hne => hlow ?_, fun hne => hself ?_, hnap, hhib⟩
  all_goals cases x <;> simp_all

/-- A request that the role allows is refused, or begins the entry (R522). -/
theorem lpRequest_cases (x : LowPower) (d : Device) :
    (lpRefusal d x = true → lpRequest x d = { d with boot := { d.boot with lpRefused := true } }) ∧
    (lpRefusal d x = false → d.boot.phase = .ready → d.boot.exiting = false → lpDepth (lowPowerOf d) < lpDepth x →
      (lpRequest x d).boot.entering = some x ∧ (lpRequest x d).boot.lp = d.boot.lp ∧ (lpRequest x d).sec = d.sec) := by
  refine ⟨lpRequest_refused, fun h hphase hexit hdepth => ?_⟩
  rw [(lpRequest_begins h hphase hexit hdepth).eq]
  exact ⟨rfl, rfl, rfl⟩

/-- One who has none of the three roles has neither of the two that guard an RWL field. -/
theorem byEither_of_anyRole {role : Byte} (h : anyRole.contains role = false) : byEither.contains role = false ∧ role ≠ roleOperator := by
  simp only [anyRole, byEither, List.contains_cons, Bool.or_eq_false_iff, beq_eq_false_iff_ne] at h ⊢
  obtain ⟨hop, hinstaller, hmaker, hnil⟩ := h
  exact ⟨⟨hinstaller, hmaker, hnil⟩, hop⟩

/-- A write of a low-power request by the role that is active (R12, R557). -/
theorem lpWrite_roles {req : Nat} (hreq : req ≤ 3) (d : Device) : let e := ledgerReg 0x0020 lpCtrlAddr stOK d
    (byEither.contains (activeRole d) = true → ledgerRoom d = none →
      lpWrite req d = lpAsk req { e with boot := { e.boot with trigWake := d.boot.trigWake } }) ∧
    (activeRole d = roleOperator → ledgerRoom d = none → lpWrite req d = ledgerReg 0x0003 lpCtrlAddr stDeniedRole (lpAsk req e)) ∧
    (anyRole.contains (activeRole d) = false → lpWrite req d = ledgerReg 0x0003 lpCtrlAddr stDeniedRole d) := by
  refine ⟨fun hrole hroom => ?_, fun hrole hroom => ?_, fun hrole => ?_⟩
  · rw [lpWrite_other hreq (by rintro h; rw [h] at hrole; exact absurd hrole (by decide)), rwl_applies hrole rfl hroom]
  · rw [lpWrite_operator hreq hrole, rwl_applies (by rw [hrole]; decide) rfl hroom]
  · obtain ⟨hnone, hop⟩ := byEither_of_anyRole hrole
    rw [lpWrite_other hreq hop, rwl_refused hnone]

/-- Settles O60: each command of this chapter by the lemma of its own. -/
theorem resetsAndLowPower : Obligations.ResetsAndLowPower := by
  refine ⟨fun d kind source => beginReset_leaves kind source d, startUp_outcome, fun s env => ?_, lpRequest_cases,
    fun req d hreq => lpWrite_roles hreq d, fun d img himg => ⟨rearmFix_arms himg, rearmFix_disarms himg⟩⟩
  refine ⟨rfl, fun _ => execWarmReset_taken, fun _ => execFaultReset_taken, fun _ hfault => ⟨?_, fun hsrc => ?_⟩, fun hlive => ?_,
    fun halive _ _ _ => execResetRecordTimeout_due halive, fun halive => ?_, execPartitionReset_fault,
    fun _ => execLpEntryComplete_enters⟩
  · exact execWarmReset_ignored (mayReset_fault hfault (.inl (by decide)))
  · exact execFaultReset_ignored (mayReset_fault hfault (.inr hsrc))
  · exact ⟨execWatchdogExpiry_taken hlive, fun _ => execStartThresholdReached_supply hlive, fun _ => execHibernateExit_wakes hlive,
      fun _ => execStartupReady_waiting hlive, execNapExitComplete_exiting hlive⟩
  · exact ⟨fun _ _ => execRestart_begun halive, execPartitionReset_written halive, run_transact halive _, run_transact halive _,
      run_transact halive _, run_transact halive _⟩

end Sys2Proof.Machine
end

section
/-! PROOFS. Skeins: CONVERT and WPACK, which read their sources first, and the packets that mount, unmount and report an image (R119 to
R122, R226, R240 to R243). -/

namespace Sys2Proof.Machine

/-! ### An operation that reads its sources first (R216, R219, R243) -/

/-- What the bytes of some fabric ranges read as. -/
def sourceBytes (d : Device) (rs : List (Nat × Nat)) : List Byte := rs.flatMap fun y => fabRead d y.1 y.2

/-- The transfers of some ranges of buffers. -/
def spanParts (spans : List (Buffer × Nat × Nat)) : List (Nat × Nat) := spans.flatMap fun y => sourceParts y.1 y.2.1 y.2.2

/-- The transfers that lie in DRAM. -/
def farParts (rs : List (Nat × Nat)) : List (Nat × Nat) := rs.filter fun y => (channelOf y.1).isSome

/-- The device once a packet waits for its source reads: the reads from DRAM stand at their channels (R216, R219). -/
def askParts (p : Packet) (lst : Nat) (rs : List (Nat × Nat)) (d : Device) : Device :=
  let e := streamTile p.hdr.tenant.toNat (dropHold (.packet (refOf p)) d)
  raiseAll ((farParts rs).map fun y => { who := e.1, lst := lst, tenant := p.hdr.tenant, job := p.hdr.job, load := .source (refOf p),
                                         addr := y.1, len := y.2 })
    (onPacket (refOf p) (fun q => { q with reads := some rs, left := (farParts rs).length }) (hold p e.2))

section
variable {p : Packet} {lst : Nat} {spans : List (Buffer × Nat × Nat)} {k : List Byte → Device → Device} {d : Device}

/-- Once every read has ended the operation goes on with the bytes that came. -/
theorem withSources_came {rs : List (Nat × Nat)} (hreads : p.reads = some rs) (hleft : p.left = 0) :
    withSources p lst spans k d = k (sourceBytes d rs) d := by
  simp only [withSources, hreads, hleft, if_true, sourceBytes]

theorem withSources_near (hreads : p.reads = none) (hnear : farParts (spanParts spans) = []) :
    withSources p lst spans k d = k (sourceBytes d (spanParts spans)) (dropHold (.packet (refOf p)) d) := by
  rw [withSources, hreads]
  exact if_pos (List.isEmpty_iff.mpr hnear)

theorem withSources_far (hreads : p.reads = none) (hfar : farParts (spanParts spans) ≠ []) :
    withSources p lst spans k d = askParts p lst (spanParts spans) d := by
  rw [withSources, hreads]
  exact if_neg (mt List.isEmpty_iff.mp hfar)

end

/-! ### CONVERT (R119 to R122) -/

/-- The arguments of CONVERT in its payload. -/
def convArgs (b : List Byte) : ConvArgs :=
  { n := field b 24 4, k := field b 28 4, tensor := field b 36 4, srcFmt := if field b 40 1 = 0x10 then bf16 else fp32,
    target := field b 41 1, group := field b 42 1, search := field b 43 1 == 1 }

/-- A vector of channel scales is given (R119). -/
def convScaled (b : List Byte) : Bool := decide (field b 16 4 ≠ 0)

/-- Bytes of the source. -/
def convLen (b : List Byte) : Nat := (convArgs b).n * (convArgs b).k * ((convArgs b).srcFmt.width / 8)

/-- Bytes of the tiles (R122). -/
def convNeed (b : List Byte) : Nat := ceilDiv (convArgs b).n 64 * ceilDiv (convArgs b).k 64 * tileBytes (convArgs b).target

/-- The ranges that CONVERT reads. -/
def convSpans (b : List Byte) (src scl : Nat × Buffer × Nat) : List (Buffer × Nat × Nat) :=
  (src.2.1, src.2.2, convLen b) :: if convScaled b then [(scl.2.1, scl.2.2, 4 * (convArgs b).n)] else []

/-- The elements that the bytes read spell. -/
def convVals (b bytes : List Byte) : List Fp :=
  convSource (convArgs b).srcFmt (bytes.take (convLen b)) ((convArgs b).n * (convArgs b).k)

/-- The channel scales that the bytes read spell; 1 for each channel where none are given (R119). -/
def convChans (b bytes : List Byte) : List (Option (Nat × Bool)) :=
  if convScaled b then (convSource fp32 (bytes.drop (convLen b)) (convArgs b).n).map chanScale
  else List.replicate (convArgs b).n (some (0, false))

/-- A CONVERT of a tenant that passes every check but those of its sources' bytes (R119 to R122, R243). -/
structure ConvertOk (t : Nat) (b : List Byte) (d : Device) (src dst scl : Nat × Buffer × Nat) : Prop where
  format : field b 40 1 = 0x10 ∨ field b 40 1 = 0x11
  target : (weightTileSize (convArgs b).target).isSome = true
  group : (convArgs b).target = 0x10 ∨ (convArgs b).group ≤ 2
  search : field b 43 1 ≤ 1
  rows : 1 ≤ (convArgs b).n
  cols : 1 ≤ (convArgs b).k
  source : spanOf d t (arenaRef b 0) (convLen b) = .ok src
  dest : spanOf d t (arenaRef b 8) (field b 32 4) = .ok dst
  scales : (if convScaled b then spanOf d t (arenaRef b 16) (4 * (convArgs b).n) else spanOf d t (arenaRef b 0) (convLen b)) = .ok scl
  apart : spansMeet (src.1, src.2.2, convLen b) (dst.1, dst.2.2, field b 32 4) = false
  scalesApart : convScaled b = true → spansMeet (scl.1, scl.2.2, 4 * (convArgs b).n) (dst.1, dst.2.2, field b 32 4) = false
  unmounted : isMounted d t dst.1 dst.2.1.gen = false
  fits : convNeed b ≤ field b 32 4
  sourceHere : hostHeld src.2.1 src.2.2 (convLen b) = false
  destHere : hostHeld dst.2.1 dst.2.2 (field b 32 4) = false
  scalesHere : convScaled b = true → hostHeld scl.2.1 scl.2.2 (4 * (convArgs b).n) = false

/-- The end of CONVERT: the tiles are written, the saturations counted, and the length and number of tiles answered (R121, R122). -/
def convertEnd (p : Packet) (b bytes : List Byte) (src dst : Nat × Buffer × Nat) (d : Device) : Device :=
  let t := p.hdr.tenant.toNat
  let y := convTiles (convArgs b) ((convVals b bytes).map fpVal) ((convChans b bytes).filterMap id)
  finish p stOK (leBytes 8 (convNeed b) ++ leBytes 4 (convNeed b / tileBytes (convArgs b).target) ++ zeros 4)
    (countConvert t y.2 (touch t dst.1 dst.2.1 dst.2.2 y.1.length (touch t src.1 src.2.1 src.2.2 (convLen b)
      (bufWrite t dst.1 dst.2.1 dst.2.2 y.1 d))))

/-- What CONVERT does with the bytes of its sources. -/
def convertFrom (p : Packet) (b : List Byte) (src dst : Nat × Buffer × Nat) (bytes : List Byte) (d : Device) : Device :=
  let t := p.hdr.tenant.toNat
  if !(convVals b bytes).all isFinite || (convChans b bytes).any (·.isNone) then refuse p stBadArgument d
  else if isMounted d t dst.1 dst.2.1.gen then refuse p stSkeinBusy d
  else if convNeed b > field b 32 4 then refuseAt p stDestShort (convNeed b) d
  else if hostHeld dst.2.1 dst.2.2 (field b 32 4) then holdOnHost p t dst.1 dst.2.1 dst.2.2 (field b 32 4) d
  else convertEnd p b bytes src dst d

/-- A CONVERT that passes its checks reads its sources. -/
theorem convert_reads {p : Packet} {b : List Byte} {d : Device} {src dst scl : Nat × Buffer × Nat}
    (h : ConvertOk p.hdr.tenant.toNat b d src dst scl) :
    convert p b d = withSources p (headerDeadline p) (convSpans b src scl) (convertFrom p b src dst) d := by
  obtain ⟨ss, sb, so⟩ := src
  obtain ⟨ds, db, dd⟩ := dst
  obtain ⟨vs, vb, vo⟩ := scl
  have hargs : ¬((field b 40 1 ≠ 0x10 ∧ field b 40 1 ≠ 0x11) ∨ (weightTileSize (field b 41 1)).isNone ∨
      (field b 41 1 ≠ 0x10 ∧ field b 42 1 > 2) ∨ field b 43 1 > 1 ∨ field b 24 4 = 0 ∨ field b 28 4 = 0) := by
    have hformat := h.format; have hgroup := h.group; have hsearch := h.search; have hrows := h.rows; have hcols := h.cols
    dsimp only [convArgs] at hgroup hrows hcols
    rintro (hf | hnone | hrest)
    · omega
    · exact absurd h.target (by rw [convArgs, Option.isNone_iff_eq_none.mp hnone]; decide)
    · omega
  obtain ⟨_, _, _, _, _, _, source, dest, scales, apart, scalesApart, -, -, sourceHere, -, scalesHere⟩ := h
  simp only [convArgs, convLen, convScaled, decide_eq_true_eq] at source scales apart sourceHere scalesHere scalesApart
  have hmeet : (decide (field b 16 4 ≠ 0) && spansMeet (vs, vo, 4 * field b 24 4) (ds, dd, field b 32 4)) = false :=
    Bool.and_eq_false_imp.mpr fun hv => scalesApart (of_decide_eq_true hv)
  rw [convert]
  simp only [if_neg hargs, scales]
  simp only [source, dest]  -- after scales, whose range may be the source's own
  simp only [apart, hmeet, sourceHere, Bool.or_self, Bool.false_eq_true, if_false]
  rw [if_neg (fun hv => by rw [scalesHere hv.1] at hv; cases hv.2)]
  unfold convertFrom convertEnd convSpans convVals convChans convLen convNeed convScaled convArgs
  simp only [decide_eq_true_eq]

/-- On finite elements and positive scales CONVERT ends with its tiles. -/
theorem convertFrom_finite {p : Packet} {b bytes : List Byte} {d e : Device} {src dst scl : Nat × Buffer × Nat}
    (h : ConvertOk p.hdr.tenant.toNat b d src dst scl) (hskeins : e.mem.skeins = d.mem.skeins)
    (hvals : (convVals b bytes).all isFinite = true) (hchans : ∀ y ∈ convChans b bytes, y.isSome = true) :
    convertFrom p b src dst bytes e = convertEnd p b bytes src dst e := by
  have hnone : (convChans b bytes).any (·.isNone) = false := by
    rw [List.any_eq_false]
    intro y hy
    rw [Option.isNone_eq_false_iff.mpr (hchans y hy)]
    decide
  have hmount : isMounted e p.hdr.tenant.toNat dst.1 dst.2.1.gen = false := by rw [isMounted, hskeins]; exact h.unmounted
  simp only [convertFrom, hvals, hnone, hmount, h.destHere, Nat.not_lt.mpr h.fits, Bool.not_true, Bool.or_self,
    Bool.false_eq_true, if_false]

/-! ### WPACK (R243) -/

/-- The ranges that WPACK reads: the stream and its code table. -/
def packSpans (b : List Byte) (src tab : Nat × Buffer × Nat) : List (Buffer × Nat × Nat) :=
  [(src.2.1, src.2.2, field b 24 4), (tab.2.1, tab.2.2, 128)]

/-- A WPACK of a tenant that passes every check but those of its sources' bytes (R243). -/
structure WpackOk (t : Nat) (b : List Byte) (d : Device) (src dst tab : Nat × Buffer × Nat) : Prop where
  source : spanOf d t (arenaRef b 0) (field b 24 4) = .ok src
  dest : spanOf d t (arenaRef b 8) (field b 28 4) = .ok dst
  table : spanOf d t (arenaRef b 16) 128 = .ok tab
  apart : spansMeet (src.1, src.2.2, field b 24 4) (dst.1, dst.2.2, field b 28 4) = false
  tableApart : spansMeet (tab.1, tab.2.2, 128) (dst.1, dst.2.2, field b 28 4) = false
  unmounted : isMounted d t dst.1 dst.2.1.gen = false
  sourceHere : hostHeld src.2.1 src.2.2 (field b 24 4) = false
  destHere : hostHeld dst.2.1 dst.2.2 (field b 28 4) = false
  tableHere : hostHeld tab.2.1 tab.2.2 128 = false

/-- A stream of `n` bytes of valid tiles and a table that codes its symbols (R105, R228, R229, R243). -/
structure StreamOk (n : Nat) (src tbl : List Byte) : Prop where
  nonempty : 1 ≤ n
  format : (weightTileSize (field src 0 1)).isSome = true
  whole : n % tileBytes (field src 0 1) = 0
  tiles : tilesOk src (tileBytes (field src 0 1)) (n / tileBytes (field src 0 1)) = true
  table : tableOk (codeLengths tbl) = true
  coded : symbolsCoded (codeLengths tbl) (tileBytes (field src 0 1)) src = true

/-- The end of WPACK: the container is written, its length and its stored and empty blocks are answered. -/
def wpackEnd (p : Packet) (b : List Byte) (src dst : Nat × Buffer × Nat) (out : List Byte × Nat × Nat) (d : Device) : Device :=
  let t := p.hdr.tenant.toNat
  finish p stOK (leBytes 8 out.1.length ++ leBytes 4 out.2.1 ++ leBytes 4 out.2.2)
    (touch t dst.1 dst.2.1 dst.2.2 out.1.length (touch t src.1 src.2.1 src.2.2 (field b 24 4)
      (bufWrite t dst.1 dst.2.1 dst.2.2 out.1 d)))

/-- The container of a stream under a table, as WPACK makes it (R226, R231). -/
def packOf (src tbl : List Byte) : List Byte × Nat × Nat := packContainer (field src 0 1) (field src 1 1) (field src 16 4) tbl src

/-- What WPACK does with the bytes of its sources. -/
def wpackFrom (p : Packet) (b : List Byte) (src dst : Nat × Buffer × Nat) (bytes : List Byte) (d : Device) : Device :=
  let t := p.hdr.tenant.toNat; let n := field b 24 4
  let stream := bytes.take n; let tbl := bytes.drop n
  let size := tileBytes (field stream 0 1)
  if n = 0 ∨ (weightTileSize (field stream 0 1)).isNone ∨ n % size ≠ 0 ∨ !tilesOk stream size (n / size) ∨
      !tableOk (codeLengths tbl) ∨ !symbolsCoded (codeLengths tbl) size stream then refuse p stBadArgument d
  else if isMounted d t dst.1 dst.2.1.gen then refuse p stSkeinBusy d
  else if hostHeld dst.2.1 dst.2.2 (field b 28 4) then holdOnHost p t dst.1 dst.2.1 dst.2.2 (field b 28 4) d
  else if (packOf stream tbl).1.length > field b 28 4 then refuseAt p stDestShort (packOf stream tbl).1.length d
  else wpackEnd p b src dst (packOf stream tbl) d

/-- A WPACK that passes its checks reads its sources. -/
theorem wpack_reads {p : Packet} {b : List Byte} {d : Device} {src dst tab : Nat × Buffer × Nat}
    (h : WpackOk p.hdr.tenant.toNat b d src dst tab) :
    wpack p b d = withSources p (headerDeadline p) (packSpans b src tab) (wpackFrom p b src dst) d := by
  obtain ⟨ss, sb, so⟩ := src
  obtain ⟨ds, db, dd⟩ := dst
  obtain ⟨vs, vb, vo⟩ := tab
  rw [wpack]
  simp only [h.source, h.dest, h.table, h.apart, h.tableApart, h.sourceHere, h.tableHere, Bool.or_self, Bool.false_eq_true, if_false]
  rfl

/-- On a stream of valid tiles whose container fits WPACK ends with the container. -/
theorem wpackFrom_valid {p : Packet} {b bytes : List Byte} {d e : Device} {src dst tab : Nat × Buffer × Nat}
    (h : WpackOk p.hdr.tenant.toNat b d src dst tab) (hskeins : e.mem.skeins = d.mem.skeins)
    (hstream : StreamOk (field b 24 4) (bytes.take (field b 24 4)) (bytes.drop (field b 24 4)))
    {out : List Byte × Nat × Nat} (hout : packOf (bytes.take (field b 24 4)) (bytes.drop (field b 24 4)) = out)
    (hfits : out.1.length ≤ field b 28 4) : wpackFrom p b src dst bytes e = wpackEnd p b src dst out e := by
  have hmount : isMounted e p.hdr.tenant.toNat dst.1 dst.2.1.gen = false := by rw [isMounted, hskeins]; exact h.unmounted
  obtain ⟨hpos, hformat, hwhole, htiles, htable, hcoded⟩ := hstream
  have hnone := Option.isNone_eq_false_iff.mpr hformat
  simp only [wpackFrom, hout, Nat.one_le_iff_ne_zero.mp hpos, hnone, hwhole, htiles, htable, hcoded, hmount, h.destHere,
    Nat.not_lt.mpr hfits, ne_eq, not_true_eq_false, Bool.not_true, Bool.false_eq_true, or_self, if_false]

/-! ### The commands of both: the sources at hand, still to come, and all there -/

/-- A packet taken up again once all its source reads have ended. -/
def resumed (p : Packet) (b : List Byte) (rs : List (Nat × Nat)) : Packet := { begun p b with reads := some rs, left := 0 }

section
variable {sp : OpSpec} {r : Ref} {p : Packet} {b : List Byte} {c : Option Nat} {s : State} {body : Packet → List Byte → Device → Device}
  {spans : List (Buffer × Nat × Nat)} {k : Packet → List Byte → Device → Device} (h : Admits sp r p b c s.dev)
  (hbody : ∀ q, q.hdr = p.hdr → body q b (admitted p b c s.dev) =
    withSources q (headerDeadline q) spans (k q) (admitted p b c s.dev))
include h hbody

/-- With a source in DRAM an operation waits for its reads. -/
theorem run_farSources (hreads : p.reads = none) (hfar : farParts (spanParts spans) ≠ []) :
    run (runOp sp r body) s = .next (settled s
      (askParts (begun p b) (headerDeadline p) (spanParts spans) (admitted p b c s.dev))) := by
  rw [run_admits h, hbody (begun p b) rfl, withSources_far (p := begun p b) hreads hfar]
  rfl

/-- With no source in DRAM an operation ends at once, and otherwise once its reads have ended: in the same way, on the same bytes. -/
theorem run_sourcesCame {bytes : List Byte} {done : Packet → Device → Device}
    (hbytes : bytes = sourceBytes (admitted p b c s.dev) (spanParts spans))
    (hdone : ∀ q e, q.hdr = p.hdr → e.mem.skeins = (admitted p b c s.dev).mem.skeins → k q bytes e = done q e) :
    (p.reads = none → farParts (spanParts spans) = [] → run (runOp sp r body) s =
      .next (settled s (done (begun p b) (dropHold (.packet (refOf p)) (admitted p b c s.dev))))) ∧
    body (resumed p b (spanParts spans)) b (admitted p b c s.dev) = done (resumed p b (spanParts spans)) (admitted p b c s.dev) := by
  subst hbytes
  refine ⟨fun hreads hnear => ?_, ?_⟩
  · rw [run_admits h, hbody (begun p b) rfl, withSources_near (p := begun p b) hreads hnear,
      hdone (begun p b) (dropHold _ _) rfl rfl]
    rfl
  · rw [hbody (resumed p b _) rfl, withSources_came (p := resumed p b _) rfl rfl, hdone (resumed p b _) _ rfl rfl]

end

section
variable {r : Ref} {p : Packet} {b : List Byte} {c : Option Nat} {s : State} {src dst : Nat × Buffer × Nat}

section
variable {scl : Nat × Buffer × Nat} (h : Admits (memSpec 0x0300 48 [(44, 4)]) r p b c s.dev)
  (hok : ConvertOk p.hdr.tenant.toNat b (admitted p b c s.dev) src dst scl)
include h hok

theorem exec_convert_far (hreads : p.reads = none) (hfar : farParts (spanParts (convSpans b src scl)) ≠ []) :
    exec (.convert r) s = .next (settled s
      (askParts (begun p b) (headerDeadline p) (spanParts (convSpans b src scl)) (admitted p b c s.dev))) :=
  (exec_convert r s).trans (run_farSources h (fun _ hq => convert_reads (hq ▸ hok)) hreads hfar)

theorem exec_convert_finite {bytes : List Byte} (hbytes : bytes = sourceBytes (admitted p b c s.dev) (spanParts (convSpans b src scl)))
    (hvals : (convVals b bytes).all isFinite = true) (hchans : ∀ y ∈ convChans b bytes, y.isSome = true) :
    (p.reads = none → farParts (spanParts (convSpans b src scl)) = [] → exec (.convert r) s = .next (settled s
      (convertEnd (begun p b) b bytes src dst (dropHold (.packet (refOf p)) (admitted p b c s.dev))))) ∧
    convert (resumed p b (spanParts (convSpans b src scl))) b (admitted p b c s.dev) =
      convertEnd (resumed p b (spanParts (convSpans b src scl))) b bytes src dst (admitted p b c s.dev) := by
  rw [exec_convert]
  exact run_sourcesCame (done := fun q => convertEnd q b bytes src dst) h (fun _ hq => convert_reads (hq ▸ hok)) hbytes
    fun _ _ hq hskeins => convertFrom_finite (hq ▸ hok) hskeins hvals hchans

end

section
variable {tab : Nat × Buffer × Nat} (h : Admits (memSpec 0x0301 32) r p b c s.dev)
  (hok : WpackOk p.hdr.tenant.toNat b (admitted p b c s.dev) src dst tab)
include h hok

theorem exec_wpack_far (hreads : p.reads = none) (hfar : farParts (spanParts (packSpans b src tab)) ≠ []) :
    exec (.wpack r) s = .next (settled s
      (askParts (begun p b) (headerDeadline p) (spanParts (packSpans b src tab)) (admitted p b c s.dev))) :=
  (exec_wpack r s).trans (run_farSources h (fun _ hq => wpack_reads (hq ▸ hok)) hreads hfar)

theorem exec_wpack_valid {bytes : List Byte} (hbytes : bytes = sourceBytes (admitted p b c s.dev) (spanParts (packSpans b src tab)))
    (hvalid : StreamOk (field b 24 4) (bytes.take (field b 24 4)) (bytes.drop (field b 24 4))) {out : List Byte × Nat × Nat}
    (hout : packOf (bytes.take (field b 24 4)) (bytes.drop (field b 24 4)) = out) (hfits : out.1.length ≤ field b 28 4) :
    (p.reads = none → farParts (spanParts (packSpans b src tab)) = [] → exec (.wpack r) s = .next (settled s
      (wpackEnd (begun p b) b src dst out (dropHold (.packet (refOf p)) (admitted p b c s.dev))))) ∧
    wpack (resumed p b (spanParts (packSpans b src tab))) b (admitted p b c s.dev) =
      wpackEnd (resumed p b (spanParts (packSpans b src tab))) b src dst out (admitted p b c s.dev) := by
  rw [exec_wpack]
  exact run_sourcesCame (done := fun q => wpackEnd q b src dst out) h (fun _ hq => wpack_reads (hq ▸ hok)) hbytes
    fun _ _ hq hskeins => wpackFrom_valid (hq ▸ hok) hskeins hvalid hout hfits

end

end

/-! ### SKEIN_MOUNT, SKEIN_UNMOUNT and SKEIN_INFO (R239 to R242) -/

section
variable {p : Packet} {b : List Byte} {d : Device}

/-- The skein that an image in a buffer makes (R239, R241). -/
def mountedSkein (p : Packet) (b : List Byte) (off : Nat) (img : List Byte) : Skein :=
  { tenant := p.hdr.tenant, handle := word32 b 0, off := off, length := img.length, sections := field img 4 4, digest := digest32 img,
    adapter := bitOf (field img 16 4) 0, base := slice img 32 32, plan := Config.skeinPlan img, shared := 0 }

/-- An image that passes R240, within the limit of 64, is mounted at the first free ID. -/
theorem skeinMount_valid {slot off : Nat} {buf : Buffer} (hspan : spanOf d p.hdr.tenant.toNat (arenaRef b 0) 1 = .ok (slot, buf, off))
    (hlimit : (d.mem.skeins.filter fun x => x.2.tenant == p.hdr.tenant).length < 64)
    (hhere : hostHeld buf off (buf.size - off) = false)
    (hhdr : skeinHeader (buf.size - off) (bufRead d buf off (min (buf.size - off) 1088)) = none)
    (hgood : bufBad d buf off (min (buf.size - off) (max 1088 (field (bufRead d buf off (min (buf.size - off) 1088)) 8 8))) = none)
    {img : List Byte} (himg : img = bufRead d buf off (field (bufRead d buf off (min (buf.size - off) 1088)) 8 8))
    (hvalid : skeinFault d p.hdr.tenant (buf.size - off) img = none) :
    skeinMount p b d = finish p stOK (skeinResult (firstGap 0 d.mem.skeins) (mountedSkein p b off img))
      { d with mem.skeins := Assoc.insert d.mem.skeins (firstGap 0 d.mem.skeins) (mountedSkein p b off img) } := by
  subst himg
  simp only [skeinMount, hspan, Nat.not_le.mpr hlimit, hhere, hhdr, hgood, hvalid, Bool.false_eq_true, if_false]
  rfl

variable {k : Skein} (hfind : Assoc.find d.mem.skeins (field b 0 2) = some k)
include hfind

theorem skeinUnmount_unused (hown : k.tenant = p.hdr.tenant) (hfree : skeinInUse d (field b 0 2) k = false) :
    skeinUnmount p b d = complete p { d with mem.skeins := Assoc.erase d.mem.skeins (field b 0 2) } := by
  have hfound : (Assoc.find d.mem.skeins (field b 0 2)).filter (fun x => x.tenant == p.hdr.tenant) = some k := by
    rw [hfind, Option.filter_some, hown, beq_self_eq_true, if_pos rfl]
  simp only [skeinUnmount, hfound, hfree, Bool.false_eq_true, if_false]

theorem skeinInfo_usable (hmay : mayUse d p.hdr.tenant (field b 0 2) = true) :
    skeinInfo p b d = finish p stOK (skeinResult (field b 0 2) k) d := by
  simp only [skeinInfo, hfind, hmay, if_true]

end

/-! ### The obligation, part by part -/

/-- Settles O49: CONVERT and WPACK by what they do with the bytes of their sources, the three others by the lemma of each. What either
command does is named before it is used, so that its arguments come from its own hypotheses. -/
theorem skeinPacketsComplete : Obligations.SkeinPacketsComplete := by
  intro s r p b c
  refine ⟨?_, ?_, ?_, ?_⟩
  · rintro x vec ss sb so ds db dd vs vb vo need len vals chan h rfl rfl rfl hformat htarget hgroup hsearch hrows hcols hsource hdest
      hscales rfl hapart hscalesApart hmount hfits hsourceHere hdestHere hscalesHere
    have hok : ConvertOk p.hdr.tenant.toNat b (admitted p b c s.dev) (ss, sb, so) (ds, db, dd) (vs, vb, vo) :=
      ⟨hformat, htarget, hgroup, hsearch, hrows, hcols, hsource, hdest, hscales, hapart, hscalesApart, hmount, hfits, hsourceHere,
        hdestHere, hscalesHere⟩
    have hfar := exec_convert_far h hok
    refine ⟨?_, hfar⟩
    rintro rfl rfl hvals hchans
    have hdone := exec_convert_finite h hok rfl hvals hchans
    exact hdone
  · rintro ss sb so ds db dd vs vb vo n h rfl hsource hdest htable hapart htableApart hmount hsourceHere hdestHere htableHere
    have hok : WpackOk p.hdr.tenant.toNat b (admitted p b c s.dev) (ss, sb, so) (ds, db, dd) (vs, vb, vo) :=
      ⟨hsource, hdest, htable, hapart, htableApart, hmount, hsourceHere, hdestHere, htableHere⟩
    have hfar := exec_wpack_far h hok
    refine ⟨?_, hfar⟩
    rintro src tbl out stored empty rfl rfl hpos hformat hwhole htiles hcodes hcoded hpack hfits
    have hvalid : StreamOk (field b 24 4) _ _ := ⟨hpos, hformat, hwhole, htiles, hcodes, hcoded⟩
    have hdone := exec_wpack_valid h hok rfl hvalid hpack hfits
    exact hdone
  · intro slot buf off img h hspan hlimit hhere hhdr hgood himg hvalid
    refine ⟨mountedSkein p b off img, rfl, rfl, rfl, rfl, rfl, rfl, rfl, ?_⟩
    rw [exec_skeinMount, execSkeinMount, run_admits h, skeinMount_valid (p := begun p b) hspan hlimit hhere hhdr hgood himg hvalid]
    rfl
  · intro k hfind
    refine ⟨fun h hown hfree => ?_, fun h hmay => ?_⟩
    · rw [exec_skeinUnmount, execSkeinUnmount, run_admits h, skeinUnmount_unused (p := begun p b) hfind hown hfree]
    · rw [exec_skeinInfo, execSkeinInfo, run_admits h, skeinInfo_usable (p := begun p b) hfind hmay]
      rfl

end Sys2Proof.Machine
end

section
/-! PROOFS. The counters that the maker clears (R154, R155, R225, R304, R371, R441, R464, R488, R509). -/

namespace Sys2Proof.Machine

/-- A change of ports leaves the rest of the link part. -/
theorem foldl_onPort_frame (f : LinkPort → LinkPort) (l : List Nat) (d : Device) : l.foldl (fun d p => onPort p f d) d =
    { d with link := { d.link with ports := (l.foldl (fun d p => onPort p f d) d).link.ports } } := by
  induction l generalizing d with
  | nil => rfl
  | cons p l ih => rw [List.foldl_cons, ih]; rfl

/-! ### What each clear does for the maker, and that it does nothing without the role -/

section
variable {v : W32} {d : Device}

section
variable (hrole : makerActive d = true) (hbit : v.getLsbD 0 = true)
include hrole hbit

theorem serveCtrClear_maker : serveCtrClear v d =
    { d with serve := { d.serve with stepCount := 0, refuseCount := 0, cancelCount := 0, cancelLat := 0 } } :=
  if_pos ⟨hrole, hbit⟩

theorem flashCtrClear_maker : flashCtrClear v d =
    { d with flash := { d.flash with corrCount := 0, retryCount := 0, uncorrCount := 0, codecCount := 0, suspendCount := 0 } } :=
  if_pos ⟨hrole, hbit⟩

theorem pwrCtrClear_maker : pwrCtrClear v d = { d with pwr := { d.pwr with times := [], sagCount := 0 } } :=
  if_pos (Bool.and_eq_true_iff.mpr ⟨hrole, hbit⟩)

theorem auditCtrClear_maker : auditCtrClear v d =
    { d with audit := { d.audit with cmpCount := 0, divCount := 0, divSeq := 0, unmatched := 0, twinSteps := 0, twinDivs := 0 } } :=
  if_pos (Bool.and_eq_true_iff.mpr ⟨hrole, hbit⟩)

/-- Of the memory tiers the counts go, and the grants and pre-emptions of the arbiter selected (R225). -/
theorem memCtrClear_maker : memCtrClear v d =
    { d with mem := { d.mem with denyCount := 0, missCount := 0, skipCount := 0, arb := (memCtrClear v d).mem.arb } } := by
  rw [memCtrClear, if_pos ⟨beq_iff_eq.mp hrole, hbit⟩]

/-- Of the DRAM part the counts go, and the retrains of the channels (R464). -/
theorem dramCtrClear_maker : dramCtrClear v d =
    { d with dram := { d.dram with corrCount := 0, uncorrCount := 0, codecCount := 0, rmwCount := 0, chans := (dramCtrClear v d).dram.chans } } := by
  rw [dramCtrClear, if_pos ⟨hrole, hbit⟩]

/-- Of the link part the counts go, and those of the ports (R371). -/
theorem linkCtrClear_maker : linkCtrClear v d =
    { d with link := { d.link with staleCount := 0, tagFailCount := 0, dropCount := 0, ports := (linkCtrClear v d).link.ports } } := by
  rw [linkCtrClear, if_pos ⟨hrole, hbit⟩, foldl_onPort_frame]

theorem tileCtrClear_maker (t : Nat) : tileCtrClear t v d = onTile t clearTileCounters d := if_pos ⟨hbit, .inl hrole⟩

end

section
variable (hrole : makerActive d = false)
include hrole

theorem serveCtrClear_denied : serveCtrClear v d = d := if_neg fun h => by simp [hrole] at h
theorem flashCtrClear_denied : flashCtrClear v d = d := if_neg fun h => by simp [hrole] at h
theorem pwrCtrClear_denied : pwrCtrClear v d = d := if_neg fun h => by simp [hrole] at h
theorem auditCtrClear_denied : auditCtrClear v d = d := if_neg fun h => by simp [hrole] at h
theorem dramCtrClear_denied : dramCtrClear v d = d := if_neg fun h => by simp [hrole] at h
theorem linkCtrClear_denied : linkCtrClear v d = d := if_neg fun h => by simp [hrole] at h

/-- A tile with an owner keeps its counters (R155). -/
theorem tileCtrClear_denied {t : Nat} (howned : (tileOf d t).tenant ≠ 0) : tileCtrClear t v d = d :=
  if_neg fun h => h.2.elim (Bool.eq_false_iff.mp hrole) howned

end

end

/-! ### The writes as transactions of the host port -/

theorem makerActive_noEnable (d : Device) : makerActive (noEnable d) = makerActive d := rfl

section
variable {s : State} (halive : hostAlive s.dev = true) (v : W32)
include halive

theorem exec_serveCtrClear : exec (.serveCtrClearWrite v) s = .next (settled s (serveCtrClear v (noEnable s.dev))) := by
  rw [exec_serveCtrClearWrite, execServeCtrClearWrite, run_transact halive]

theorem exec_flashCtrClear : exec (.flashCtrClearWrite v) s = .next (settled s (flashCtrClear v (noEnable s.dev))) := by
  rw [exec_flashCtrClearWrite, execFlashCtrClearWrite, run_transact halive]

theorem exec_pwrCtrClear : exec (.pwrCtrClearWrite v) s = .next (settled s (pwrCtrClear v (noEnable s.dev))) := by
  rw [exec_pwrCtrClearWrite, execPwrCtrClearWrite, run_transact halive]

theorem exec_auditCtrClear : exec (.auditCtrClearWrite v) s = .next (settled s (auditCtrClear v (noEnable s.dev))) := by
  rw [exec_auditCtrClearWrite, execAuditCtrClearWrite, run_transact halive]

theorem exec_memCtrClear : exec (.memCtrClearWrite v) s = .next (settled s
    (if makerActive s.dev then memCtrClear v (noEnable s.dev) else noEnable s.dev)) := by
  rw [exec_memCtrClearWrite, execMemCtrClearWrite, run_transact halive, makerActive_noEnable]

theorem exec_dramCtrClear : exec (.dramCtrClearWrite v) s = .next (settled s (dramCtrClear v (noEnable s.dev))) := by
  rw [exec_dramCtrClearWrite, execDramCtrClearWrite, run_transact halive]

theorem exec_linkCtrClear : exec (.linkCtrClearWrite v) s = .next (settled s (linkCtrClear v (noEnable s.dev))) := by
  rw [exec_linkCtrClearWrite, execLinkCtrClearWrite, run_transact halive, linkRegWrite, if_pos rfl]

theorem exec_tileCtrClear (k : Tile) : exec (.tileCtrClearWrite k v) s = .next (settled s (tileCtrClear k.toNat v (noEnable s.dev))) := by
  rw [exec_tileCtrClearWrite, execTileCtrClearWrite, run_transact halive]

end

/-- Settles O26: each write is a transaction of its block's clear, which the maker's role decides. -/
theorem makerClearsCounters : Obligations.MakerClearsCounters := by
  intro s v halive
  refine ⟨fun hrole hbit => ?_, fun hrole => ⟨?_, fun k howned => ?_⟩⟩
  · have hmaker : makerActive (noEnable s.dev) = true := hrole
    refine ⟨?_, ?_, ?_, ?_, ?_, ?_, ?_, fun k => ?_⟩
    · rw [exec_serveCtrClear halive, serveCtrClear_maker hmaker hbit]
    · rw [exec_flashCtrClear halive, flashCtrClear_maker hmaker hbit]
    · rw [exec_pwrCtrClear halive, pwrCtrClear_maker hmaker hbit]
    · rw [exec_auditCtrClear halive, auditCtrClear_maker hmaker hbit]
    · rw [exec_memCtrClear halive, if_pos hrole, memCtrClear_maker hmaker hbit]
      refine ⟨_, rfl, ?_⟩
      simp only [settled, settle_mem, settle_fab]
      exact ⟨trivial, trivial, trivial, rfl, rfl⟩
    · rw [exec_dramCtrClear halive, dramCtrClear_maker hmaker hbit]
      refine ⟨_, rfl, ?_⟩
      simp only [settled, settle_dram, settle_fab]
      exact ⟨trivial, trivial, trivial, trivial, rfl, rfl⟩
    · rw [exec_linkCtrClear halive, linkCtrClear_maker hmaker hbit]
      refine ⟨_, rfl, ?_⟩
      simp only [settled, settle_link, settle_cmd]
      exact ⟨trivial, trivial, trivial, rfl, rfl⟩
    · rw [exec_tileCtrClear halive, tileCtrClear_maker hmaker hbit]
  · have hother : makerActive (noEnable s.dev) = false := hrole
    simp only [List.forall_mem_cons]
    refine ⟨?_, ?_, ?_, ?_, ?_, ?_, ?_, List.forall_mem_nil _⟩
    · rw [exec_serveCtrClear halive, serveCtrClear_denied hother]
    · rw [exec_flashCtrClear halive, flashCtrClear_denied hother]
    · rw [exec_pwrCtrClear halive, pwrCtrClear_denied hother]
    · rw [exec_auditCtrClear halive, auditCtrClear_denied hother]
    · rw [exec_memCtrClear halive, if_neg (Bool.eq_false_iff.mp hrole)]
    · rw [exec_dramCtrClear halive, dramCtrClear_denied hother]
    · rw [exec_linkCtrClear halive, linkCtrClear_denied hother]
  · rw [exec_tileCtrClear halive, tileCtrClear_denied (d := noEnable s.dev) hrole howned]

end Sys2Proof.Machine
end

section
/-! PROOFS. The matrix arrays: how a list's head issues, is held, removed or refused, how a pass completes, and the ARRAY domains
(R126 to R154, R466). -/

namespace Sys2Proof.Machine

/-! ### The head of a tile's pass list -/

/-- The descriptor that a list stands at. -/
def QList.pass (t : Nat) (l : QList) (d : Device) : PassDesc := passDesc (storeBytes d t (l.addr + 128 * l.index) 128)

/-- What validation finds wrong with a descriptor of a list as its tile stands (R149). -/
def QList.fault (t : Nat) (l : QList) (d : Device) : Option PassFault :=
  passFault (fun off n => storeBytes d t off n) l.origin (fun a => envOf (arrayOf (tileOf d t) a)) (l.pass t d)

/-- Every row of the descriptor that a list stands at is marked (R152). -/
def QList.gone (t : Nat) (l : QList) (d : Device) : Bool := !l.kill.isEmpty && (List.range (l.pass t d).rows).all l.marked

/-- The descriptor is of one of the three kinds of pass; only such a one is removed by its marks. -/
def PassDesc.isPass (p : PassDesc) : Prop := p.kind = 1 ∨ p.kind = 2 ∨ p.kind = 3

theorem QList.not_removed {t : Nat} {l : QList} {d : Device} (hgone : (l.pass t d).isPass → l.gone t d = false) :
    ¬((l.pass t d).isPass ∧ (!l.kill.isEmpty) = true ∧ (List.range (l.pass t d).rows).all l.marked = true) :=
  fun ⟨hpass, hmarked⟩ => Bool.eq_false_iff.mp (hgone hpass) (Bool.and_eq_true_iff.mpr hmarked)

theorem onTile_congr {t : Nat} {f g : TileState → TileState} {d : Device} (h : f (tileOf d t) = g (tileOf d t)) :
    onTile t f d = onTile t g d := by
  unfold onTile SMap.modify
  rw [show f (SMap.get {} d.tiles t) = g (SMap.get {} d.tiles t) from h]

section
variable {k : Tile} {l : QList} {ls : List QList} {d : Device} {kind : Nat} (halive : coreAlive d = true)
  (hhead : (tileOf d k.toNat).passes = l :: ls) (hfits : l.addr + 128 * l.index + 128 ≤ storeSize)
include halive hhead hfits

/-- R152: the list goes on past a pass whose every row is marked. -/
theorem seqPass_gone (hpass : (l.pass k.toNat d).isPass) (hgone : l.gone k.toNat d = true) : seqPass kind k d =
    onTile k.toNat (fun ts => { ts with passes := { l with index := l.index + 1 } :: ls }) d := by
  rw [QList.gone, Bool.and_eq_true] at hgone
  rw [QList.pass] at hpass hgone
  simp only [seqPass, halive, hhead, Nat.not_lt.mpr hfits, Bool.not_true, Bool.false_eq_true, if_false]
  rw [if_pos ⟨hpass, hgone⟩]
  exact onTile_congr (by rw [hhead]; rfl)

variable (hgone : (l.pass k.toNat d).isPass → l.gone k.toNat d = false)
include hgone

/-- R149: a failed check takes the list away. -/
theorem seqPass_fails {f : PassFault} (hbad : l.fault k.toNat d = some f) :
    seqPass kind k d = failList k.toNat l false f.cause d := by
  rw [QList.fault, QList.pass] at hbad
  simp only [seqPass, halive, hhead, Nat.not_lt.mpr hfits, Bool.not_true, Bool.false_eq_true, if_false]
  refine (if_neg (QList.not_removed hgone)).trans ?_
  rw [hbad]

variable (hok : l.fault k.toNat d = none) (hkind : (l.pass k.toNat d).kind = kind)
include hok hkind

/-- A valid pass of the command's kind issues unless it is held (R150, R164). -/
theorem seqPass_valid (hpass : kind ≠ kEnd) : seqPass kind k d =
    if passWaits d k.toNat l (l.pass k.toNat d) then d else issueNow k.toNat l (l.pass k.toNat d) d := by
  rw [QList.fault, QList.pass] at hok
  simp only [seqPass, halive, hhead, Nat.not_lt.mpr hfits, Bool.not_true, Bool.false_eq_true, if_false]
  refine (if_neg (QList.not_removed hgone)).trans ?_
  rw [hok]
  exact if_pos ⟨hkind, hpass⟩

/-- R146: the END descriptor takes its list away. -/
theorem seqPass_end (hend : kind = kEnd) : seqPass kind k d =
    layerCheck l.tenant l.job (onTile k.toNat (fun ts => { ts with passes := ts.passes.drop 1 }) d) := by
  rw [QList.fault, QList.pass] at hok
  simp only [seqPass, halive, hhead, Nat.not_lt.mpr hfits, Bool.not_true, Bool.false_eq_true, if_false]
  refine (if_neg (QList.not_removed hgone)).trans ?_
  rw [hok]
  exact (if_neg fun h => h.2 hend).trans (if_pos ⟨hkind.trans hend, hend⟩)

end

/-- MATMUL, CONV and SCORE look at the head of their tile's list, each for its kind. -/
theorem exec_pass {k : Tile} {x : Instr × Nat} (hx : x ∈ [(Instr.matmul k, 1), (.conv k, 2), (.score k, 3)]) (s : State) :
    (x.2 = 1 ∨ x.2 = 2 ∨ x.2 = 3) ∧ exec x.1 s = .next (settled s (seqPass x.2 k s.dev)) := by
  simp only [List.mem_cons, List.not_mem_nil, or_false] at hx
  rcases hx with rfl | rfl | rfl
  · exact ⟨.inl rfl, by rw [exec_matmul, execMatmul, run_settled]⟩
  · exact ⟨.inr (.inl rfl), by rw [exec_conv, execConv, run_settled]⟩
  · exact ⟨.inr (.inr rfl), by rw [exec_score, execScore, run_settled]⟩

/-! ### What drains and the bus plan keep of a tile (R136, R308) -/

section
variable {a b : TileState} (h : a.Worked b)
include h

theorem TileState.Worked.flight : b.flight = a.flight := by rw [TileState.Worked] at h; rw [h]
theorem TileState.Worked.passes : b.passes = a.passes := by rw [TileState.Worked] at h; rw [h]
theorem TileState.Worked.vecs : b.vecs = a.vecs := by rw [TileState.Worked] at h; rw [h]
theorem TileState.Worked.vflight : b.vflight = a.vflight := by rw [TileState.Worked] at h; rw [h]
theorem TileState.Worked.passCount : b.passCount = a.passCount := by rw [TileState.Worked] at h; rw [h]

end

section
variable {a b : TileState} (h : a.Planned b)
include h

theorem TileState.Planned.passes : b.passes = a.passes := h.1.passes
theorem TileState.Planned.vecs : b.vecs = a.vecs := h.1.vecs
theorem TileState.Planned.vflight : b.vflight = a.vflight := h.1.vflight
theorem TileState.Planned.passCount : b.passCount = a.passCount := h.1.passCount

end

/-- The plan runs on a tile of the Fixed plane alone. -/
theorem runPlan_if_plan (fixed : Bool) (t c : Nat) (d : Device) : PlanWork t d (if fixed then runPlan t c d else d) := by
  split
  · exact runPlan_plan ..
  · exact .refl ..

/-! ### An issued pass -/

theorem goLive_frame (s : ArrayState) : goLive s = { s with scales := (goLive s).scales, pending := (goLive s).pending } := by
  unfold goLive
  split <;> rfl

section
variable {t : Nat} {p : PassDesc} {d : Device} {a : Nat}

/-- Under HOLD_W an array comes to the pass as it was, but for its scales (R137, R139). -/
theorem readyArray_held (hw : p.holdW = true) : readyArray t p d a = { arrayOf (tileOf d t) a with
    scales := (readyArray t p d a).scales, pending := (readyArray t p d a).pending } := by
  simp only [readyArray, hw, if_true]
  split
  · exact goLive_frame _
  · rfl

/-- Without HOLD_W it holds the tile that the pass names. -/
theorem readyArray_staged (hw : p.holdW = false) : (readyArray t p d a).loaded = some (usedHdr t p d a) ∧
    (readyArray t p d a).carry = (arrayOf (tileOf d t) a).carry := by
  simp only [readyArray, hw, Bool.false_eq_true, if_false]
  split
  · rw [goLive_frame]
    exact ⟨rfl, rfl⟩
  · exact ⟨rfl, rfl⟩

theorem readyArray_loaded : (readyArray t p d a).loaded =
    if p.holdW then (arrayOf (tileOf d t) a).loaded else some (usedHdr t p d a) := by
  split
  · next hw => rw [readyArray_held hw]
  · next hw => exact (readyArray_staged (Bool.eq_false_iff.mpr hw)).1

theorem readyArray_carry : (readyArray t p d a).carry = (arrayOf (tileOf d t) a).carry := by
  by_cases hw : p.holdW = true
  · rw [readyArray_held hw]
  · exact (readyArray_staged (Bool.eq_false_iff.mpr hw)).2

variable {l : QList} {ts : TileState} (ha : a ∈ p.arrays)
include ha

/-- An array of an issued pass is on, and holds the tile named or, under HOLD_W, what it held. -/
theorem issueTile_weights : (arrayOf (issueTile t l p d ts) a).on = true ∧
    (arrayOf (issueTile t l p d ts) a).loaded = (if p.holdW then (arrayOf (tileOf d t) a).loaded else some (usedHdr t p d a)) ∧
    (p.holdW = true → (arrayOf (issueTile t l p d ts) a).cw = (arrayOf (tileOf d t) a).cw) := by
  obtain ⟨r, start, dp, -, hafter⟩ := (issueTile_array t l p d ts a).2 ha
  rw [hafter]
  refine ⟨rfl, readyArray_loaded, fun hw => ?_⟩
  show (readyArray t p d a).cw = _
  rw [readyArray_held hw]

/-- Its carry bank is written by a pass that does not end its sum (R134), and kept by one that does. -/
theorem issueTile_carry : ((usedHdr t p d a).lastK = true → (arrayOf (issueTile t l p d ts) a).carry = (arrayOf (tileOf d t) a).carry) ∧
    ((usedHdr t p d a).lastK = false → ∃ c, (arrayOf (issueTile t l p d ts) a).carry = some c ∧ c.accId = p.accId ∧
      c.arrays = BitVec.ofNat 4 p.mask) := by
  obtain ⟨r, start, dp, -, hafter⟩ := (issueTile_array t l p d ts a).2 ha
  simp only [hafter, afterPass]
  refine ⟨fun hlast => ?_, fun hlast => ?_⟩
  · rw [if_pos hlast, readyArray_carry]
  · rw [if_neg (Bool.eq_false_iff.mp hlast)]
    exact ⟨_, rfl, rfl, rfl⟩

end

theorem issueTile_passes {t : Nat} {l q : QList} {p : PassDesc} {d : Device} {ts : TileState} {qs : List QList}
    (hhead : ts.passes = q :: qs) : (issueTile t l p d ts).passes = { q with index := q.index + 1 } :: qs := by
  simp only [issueTile, hhead]

theorem tileOf_issuePass_self (t : Nat) (l : QList) (p : PassDesc) (d : Device) :
    tileOf (issuePass t l p d) t = issueTile t l p d (tileOf d t) := by
  rw [tileOf_issuePass, tileOf_onTile_self]

/-- Nothing outside the tile changes as a pass issues, and no byte of fabric space. -/
theorem issuePass_tileFrame (t : Nat) (l : QList) (p : PassDesc) (d : Device) : tileFrame t [] d (issuePass t l p d) := by
  unfold tileFrame
  rw [tileOf_issuePass_self]
  refine ⟨fun j hj => by rw [tileOf_issuePass, tileOf_onTile_other hj], fun x _ => ?_, ?_, ?_, ?_, ?_, ?_, ?_, ?_, rfl, rfl, rfl, rfl⟩
  all_goals rw [issuePass_frame]; rfl

theorem tileFrame_settle {t : Nat} {outs : List (Nat × Nat)} {d e : Device} (h : tileFrame t outs d e) : tileFrame t outs d (settle e) := by
  unfold tileFrame at *
  simpa only [tileOf_settle, settle_fab, settle_knots, settle_cmd, settle_sec, settle_gauge, settle_link, settle_fix, settle_flash] using h

/-- Settles O41: the head of the list by what its marks, its validation and its holds say; an issued pass changes its tile as
`issueTile` says and nothing else. -/
theorem passesIssueInOrder : Obligations.PassesIssueInOrder := by
  intro s k l ls halive hhead hfits
  dsimp only
  intro x hx hkind
  obtain ⟨hx123, hexec⟩ := exec_pass hx s
  have hnotEnd : x.2 ≠ kEnd := by rcases hx123 with h | h | h <;> rw [h] <;> decide
  have hvalid := fun hgone hok => seqPass_valid halive hhead hfits (fun _ => hgone) hok hkind hnotEnd
  refine ⟨fun hgone => ?_, fun hgone hok hwait => ?_, fun hgone f hbad => ?_, fun hgone hok hwait => ?_⟩
  · rw [hexec, seqPass_gone halive hhead hfits (by rw [QList.pass, PassDesc.isPass, hkind]; exact hx123) hgone]
  · rw [hexec, hvalid hgone hok, QList.pass, if_pos hwait]
  · rw [hexec, seqPass_fails halive hhead hfits (fun _ => hgone) hbad]
  · rw [hexec, hvalid hgone hok, QList.pass, if_neg (Bool.eq_false_iff.mp hwait), issueNow, ← QList.pass]
    have hplan := (runPlan_if_plan (l.origin == .fixed) k.toNat (passIssue k.toNat l (l.pass k.toNat s.dev) s.dev).1 s.dev).own
    refine ⟨_, rfl, ?_⟩
    generalize l.pass k.toNat s.dev = p at hplan ⊢
    generalize (if (l.origin == .fixed) = true then runPlan k.toNat (passIssue k.toNat l p s.dev).1 s.dev else s.dev) = e at hplan ⊢
    simp only [settled, tileOf_settle, tileOf_issuePass_self]
    refine ⟨issueTile_passes (hplan.passes.trans hhead), ⟨_, rfl, rfl, rfl, rfl, rfl, rfl, rfl, rfl⟩, fun a ha => ?_,
      fun a ha => (issueTile_array k.toNat l p e _ a).1 ha, hplan.vecs, hplan.vflight, tileFrame_settle (issuePass_tileFrame ..)⟩
    obtain ⟨hon, hloaded, hcw⟩ := issueTile_weights (l := l) (ts := tileOf e k.toNat) (d := e) ha
    exact ⟨hon, hloaded, hcw, issueTile_carry ha⟩

/-! ### The end of a list (R146) -/

theorem firstBad_none {checks : List (Bool × Nat)} (h : ∀ c ∈ checks, c.1 = false) : firstBad checks = none := by
  induction checks with
  | nil => rfl
  | cons c checks ih =>
    obtain ⟨bad, off⟩ := c
    obtain rfl : bad = false := h _ (List.mem_cons_self ..)
    exact ih fun c hc => h c (List.mem_cons_of_mem _ hc)

theorem byteAt_cons_zeros (b : Byte) (n i : Nat) : byteAt (b :: zeros n) (1 + i) = 0 := by
  rw [Nat.add_comm, byteAt, List.getD_cons_succ, zeros]
  simp

/-- An END descriptor whose other bytes are zero passes validation. -/
theorem passFault_end {rd : Nat → Nat → List Byte} {origin : Origin} {env : Nat → PassEnv} :
    passFault rd origin env (passDesc (0xFF :: zeros 127)) = none := by
  have hkind : (passDesc (0xFF :: zeros 127)).kind = kEnd := rfl
  have hclean : passReserved (passDesc (0xFF :: zeros 127)) = none := by
    rw [passReserved, if_pos hkind]
    refine firstBad_none fun c hc => ?_
    obtain ⟨i, -, rfl⟩ := List.mem_map.mp hc
    show (byteAt (0xFF :: zeros 127) (1 + i) != 0) = false
    rw [byteAt_cons_zeros]
    rfl
  rw [passFault, hclean]
  exact if_pos hkind

/-! ### The completion of a pass (R147, R154) -/

theorem bitOf_toNat {n : Nat} (x : BitVec n) (i : Nat) : bitOf x.toNat i = x.getLsbD i := by
  rw [bitOf, BitVec.getLsbD, Nat.testBit_eq_decide_div_mod_eq]
  rfl

theorem knotOf_congr {d e : Device} (h : e.knots = d.knots) (n : Nat) : knotOf e n = knotOf d n := by rw [knotOf, h, knotOf]

/-- The rows of a tile's oldest pass that have yet to drain. -/
def rowsLeft (t : Nat) (d : Device) : List PendingRow := ((tileOf d t).flight.head?.map (·.rows)).getD []

theorem mem_rowsLeft {t : Nat} {d : Device} {r : PendingRow} (hr : r ∈ rowsLeft t d) : ∃ g ∈ (tileOf d t).flight.head?, r ∈ g.rows := by
  rw [rowsLeft] at hr
  cases hhead : (tileOf d t).flight.head? with
  | none => rw [hhead] at hr; cases hr
  | some g => rw [hhead] at hr; exact ⟨g, rfl, hr⟩

/-- The rows that are left drain, as those of pass `f`. -/
def drainLeft (t : Nat) (f : FlightPass) (d : Device) : Device := drainRows t f (rowsLeft t d) d

theorem drainLeft_work (t : Nat) (f : FlightPass) (d : Device) : TileWork t ((rowsLeft t d).flatMap (PendingRow.outs f)) d (drainLeft t f d) :=
  drainRows_work ..

/-- A byte that no range of the rows left covers keeps its value as they drain. -/
theorem drainLeft_byte {t : Nat} {f : FlightPass} {d : Device} {x : Nat}
    (hx : ∀ g ∈ (tileOf d t).flight.head?, ∀ r ∈ g.rows, ∀ o ∈ r.outs f, x < tileBase t + o.1 ∨ tileBase t + o.1 + o.2 ≤ x) :
    Mem.byte (drainLeft t f d).fab x = Mem.byte d.fab x := by
  refine (drainLeft_work t f d).bytes x fun o ho => ?_
  obtain ⟨r, hr, ho⟩ := List.mem_flatMap.mp ho
  obtain ⟨g, hg, hr⟩ := mem_rowsLeft hr
  exact hx g hg r hr o ho

section
variable {t : Nat} {f : FlightPass} {fs : List FlightPass} {d : Device} (hflight : (tileOf d t).flight = f :: fs)
include hflight

/-- On the Fixed plane a completion waits for the turn of its cycle. -/
theorem completePass_waits (hfixed : f.list.origin = .fixed) (hturn : planTurn d t 0 = false) : completePass t d = d := by
  simp only [completePass, hflight, hfixed, hturn]
  rfl

/-- A completion makes the drains that are left, counts the pass and takes it out of flight, signals its knot, and looks at its layer. -/
theorem completePass_turn (hturn : f.list.origin = .fixed → planTurn d t 0 = true) :
    ∃ g : TileState → TileState, (∀ ts, (g ts).flight = ts.flight.drop 1 ∧ (g ts).passCount = ts.passCount + 1 ∧ (g ts).passes = ts.passes) ∧
      completePass t d = layerCheck f.list.tenant f.list.job (knotSignalField f.knot.toNat (onTile t g
        (drainLeft t f (if f.list.origin == .fixed then runPlan t f.done d else d)))) := by
  have hgo : (f.list.origin == .fixed && !planTurn d t 0) = false := by
    by_cases hfixed : f.list.origin = .fixed
    · rw [hturn hfixed]; exact Bool.and_false _
    · rw [beq_eq_false_iff_ne.mpr hfixed]; rfl
  simp only [completePass, hflight, hgo, Bool.false_eq_true, if_false]
  refine ⟨_, fun ts => ?_, rfl⟩
  split <;> exact ⟨rfl, rfl, rfl⟩

end

theorem execPassComplete_alive {s : State} {k : Tile} {f : FlightPass} {fs : List FlightPass} (halive : coreAlive s.dev = true)
    (hflight : (tileOf s.dev k.toNat).flight = f :: fs) : execPassComplete k s = .next (settled s (completePass k.toNat s.dev)) := by
  rw [execPassComplete, run_settled]
  simp only [hflight, halive, Bool.not_true, Bool.false_eq_true, if_false]

/-! ### The ARRAY domains (R466) -/

theorem execArrayDomainIdleOff_idle {s : State} {k : Tile} {a : BitVec 2} (halive : coreAlive s.dev = true)
    (hon : (arrayOf (tileOf s.dev k.toNat) a.toNat).on = true) (hopen : s.dev.fix.mask.getLsbD k.toNat = false)
    (hidle : ((tileOf s.dev k.toNat).flight.any fun f => f.arrays.getLsbD a.toNat) = false) :
    execArrayDomainIdleOff k a s = .next (settled s (onTile k.toNat (onArray a.toNat fun x => { x with on := false })
      (advanceTo ((arrayOf (tileOf s.dev k.toNat) a.toNat).idleAt + arrayIdle) s.dev))) := by
  rw [execArrayDomainIdleOff, run_settled]
  simp only [halive, hon, hopen, hidle, Bool.not_false, and_self, if_true]

theorem tileOf_advanceTo (n : Nat) (d : Device) (j : Nat) : tileOf (advanceTo n d) j = tileOf d j := by rw [tileOf, advanceTo_tiles, tileOf]

/-- Settles O42: the END descriptor, the completion by its drains and its knot's signal, and the idle time of an array. -/
theorem passesEndAndComplete : Obligations.PassesEndAndComplete := by
  intro s k halive
  refine ⟨fun l ls hhead hfits hend => ?_, fun f fs hflight => ⟨fun hfixed hturn => ?_, fun hturn => ?_⟩, fun a hon hopen hidle => ?_⟩
  · have hkind : (l.pass k.toNat s.dev).kind = kEnd := by rw [QList.pass, hend]; rfl
    have hok : l.fault k.toNat s.dev = none := by rw [QList.fault, QList.pass, hend, passFault_end]
    have hnoPass : ¬(l.pass k.toNat s.dev).isPass := by rw [PassDesc.isPass, hkind]; decide
    rw [exec_passListEnd, execPassListEnd, run_settled,
      seqPass_end halive hhead hfits (fun hpass => absurd hpass hnoPass) hok hkind rfl]
    refine ⟨_, rfl, ?_⟩
    simp only [settled, tileOf_settle, tileOf_layerCheck, tileOf_onTile_self, settle_fab, layerCheck_fab, onTile_fab, settle_knots,
      layerCheck_knots, onTile_knots, settle_cmd, layerCheck_cmd, onTile_cmd]
    exact ⟨by rw [hhead]; rfl, trivial, fun j hj => tileOf_onTile_other hj _ _, trivial, trivial, trivial⟩
  · rw [exec_passComplete, execPassComplete_alive halive hflight, completePass_waits hflight hfixed hturn]
  · dsimp only
    obtain ⟨g, hg, hdone⟩ := completePass_turn hflight hturn
    rw [exec_passComplete, execPassComplete_alive halive hflight, hdone]
    have hplan := runPlan_if_plan (f.list.origin == .fixed) k.toNat f.done s.dev
    generalize (if (f.list.origin == .fixed) = true then runPlan k.toNat f.done s.dev else s.dev) = e at hplan ⊢
    have hdrain := drainLeft_work k.toNat f e
    have hknots : (onTile k.toNat g (drainLeft k.toNat f e)).knots = s.dev.knots := by rw [onTile_knots, hdrain.rest, hplan.rest]
    obtain ⟨hleaves, hcount, hpasses⟩ := hg (tileOf (drainLeft k.toNat f e) k.toNat)
    refine ⟨_, rfl, ?_, ?_, ?_, fun x hx => ?_, fun n => ?_⟩
    all_goals simp only [settled, tileOf_settle, tileOf_layerCheck, settle_fab, layerCheck_fab, knotSignalField_fab, onTile_fab, knotOf_settle,
      knotOf_layerCheck]
    · rw [tileOf_signalField, tileOf_onTile_self]
      exact hleaves.trans (congrArg (List.drop 1) hdrain.own.flight)
    · rw [tileOf_signalField, tileOf_onTile_self]
      exact hcount.trans (congrArg (· + 1) (hdrain.own.passCount.trans hplan.own.passCount))
    · rw [tileOf_signalField, tileOf_onTile_self]
      exact hpasses.trans (hdrain.own.passes.trans hplan.own.passes)
    · exact drainLeft_byte hx
    · rw [knotOf_signalField, knotOf_congr hknots, bitOf_toNat]
  · rw [exec_arrayDomainIdleOff, execArrayDomainIdleOff_idle halive hon hopen hidle]
    refine ⟨_, rfl, ?_⟩
    simp only [settled, tileOf_settle, tileOf_onTile_self, tileOf_advanceTo, settle_fab, onTile_fab, advanceTo_fab, settle_clock, onTile_clock,
      advanceTo_clock]
    exact ⟨trivial, fun j hj => by rw [tileOf_onTile_other hj, tileOf_advanceTo], trivial, trivial⟩

end Sys2Proof.Machine
end

section
/-! PROOFS. The vector engine: how the head of a vector list runs, is held, waits, ends or is refused, what a descriptor that runs
changes, and how it completes (R160 to R186, R330). -/

namespace Sys2Proof.Machine

/-! ### The head of a tile's vector list -/

/-- The descriptor that a vector list stands at. -/
def QList.vec (t : Nat) (l : QList) (d : Device) : VecDesc := vecDesc (storeBytes d t (l.addr + 64 * l.index) 64)

/-- What validation finds wrong with it (R168). -/
def QList.vecFault (t : Nat) (l : QList) (d : Device) : Option PassFault := Machine.vecFault (fun off n => storeBytes d t off n) (l.vec t d)

/-- A WAIT at the head of a list: it completes where its knot has reached its value, and waits for it elsewhere (R163, R330). -/
def waitOnKnot (t : Nat) (l : QList) (v : VecDesc) (d : Device) : Device :=
  if condHolds (knotOf d (word16 v.raw 16).toNat).value (2 ^ 32) (.atLeast (word32 v.raw 20)) then
    onTile t (fun ts => { ts with vflight := some (waitMet l (BitVec.ofNat 32 v.knot)) }) d
  else onTile t (fun ts => { ts with vwait := some (word16 v.raw 16, word32 v.raw 20, BitVec.ofNat 32 v.knot) }) d

section
variable {k : Tile} {l : QList} {ls : List QList} {d : Device} {kind : Nat} (halive : coreAlive d = true)
  (hhead : (tileOf d k.toNat).vecs = l :: ls) (hflight : (tileOf d k.toNat).vflight = none) (hwait : (tileOf d k.toNat).vwait = none)
  (hfits : l.addr + 64 * l.index + 64 ≤ storeSize)
include halive hhead hflight hwait hfits

/-- R168: a failed check takes the list away. -/
theorem seqVec_fails {f : PassFault} (hbad : l.vecFault k.toNat d = some f) : seqVec kind k d = failList k.toNat l true f.cause d := by
  rw [QList.vecFault, QList.vec] at hbad
  simp only [seqVec, halive, hhead, hflight, hwait, hbad, Nat.not_lt.mpr hfits, Bool.not_true, Option.isSome_none, Bool.or_self,
    Bool.false_eq_true, if_false]

variable (hok : l.vecFault k.toNat d = none) (hkind : (l.vec k.toNat d).kind = kind)
include hok hkind

/-- A valid descriptor of the command's kind: an END, a WAIT, or one that runs unless it is held (R160, R163, R164). -/
theorem seqVec_valid : seqVec kind k d =
    if kind = kEnd then layerCheck l.tenant l.job (onTile k.toNat (fun ts => { ts with vecs := ts.vecs.drop 1 }) d)
    else if kind = kWait then waitOnKnot k.toNat l (l.vec k.toNat d) d
    else if vecHeld d k.toNat l (l.vec k.toNat d) then d else issueVec k.toNat l (l.vec k.toNat d) d := by
  rw [QList.vecFault, QList.vec] at hok
  rw [QList.vec] at hkind
  simp only [seqVec, halive, hhead, hflight, hwait, hok, hkind, Nat.not_lt.mpr hfits, Bool.not_true, Option.isSome_none, Bool.or_self,
    Bool.false_eq_true, if_false, ne_eq, not_true_eq_false]
  rfl

end

/-- STITCH, REDUCE, LOAD and STORE look at the head of their tile's list, each for its kind. -/
theorem exec_vec {k : Tile} {x : Instr × Nat} (hx : x ∈ [(Instr.stitch k, 0x11), (.reduce k, 0x12), (.load k, 0x13), (.store k, 0x14)])
    (s : State) : (x.2 = kStitch ∨ x.2 = kReduce ∨ x.2 = kLoad ∨ x.2 = kStore) ∧
    exec x.1 s = .next (settled s (seqVec x.2 k s.dev)) := by
  simp only [List.mem_cons, List.not_mem_nil, or_false] at hx
  rcases hx with rfl | rfl | rfl | rfl
  · exact ⟨.inl rfl, by rw [exec_stitch, execStitch, run_settled]⟩
  · exact ⟨.inr (.inl rfl), by rw [exec_reduce, execReduce, run_settled]⟩
  · exact ⟨.inr (.inr (.inl rfl)), by rw [exec_load, execLoad, run_settled]⟩
  · exact ⟨.inr (.inr (.inr rfl)), by rw [exec_store, execStore, run_settled]⟩

/-! ### What a descriptor that runs changes -/

@[simp] theorem countEvents_link (t : Nat) (l : QList) (ev : NumEv) (d : Device) : (countEvents t l ev d).link = d.link := by
  unfold countEvents
  split <;> rfl

@[simp] theorem loadExec_link (t : Nat) (kill : List Nat) (v : VecDesc) (d : Device) : (loadExec t kill v d).link = d.link := by
  unfold loadExec
  dsimp only
  split <;> rfl

/-- Each row of a STORE writes bytes of the tile store, and bytes are no part of the links. -/
@[simp] theorem storeExec_link (t : Nat) (kill : List Nat) (v : VecDesc) (d : Device) : (storeExec t kill v d).link = d.link := by
  unfold storeExec
  dsimp only
  split
  · rfl
  · refine List.foldlRecOn _ _ (motive := fun e : Device => e.link = d.link) rfl fun e he row _ => ?_
    split
    · exact he
    · split <;> exact he

/-- `TileWork` leaves the links open, as drains may send partial rows; a vector descriptor sends none. -/
theorem vecEffect_link (t : Nat) (l : QList) (v : VecDesc) (d : Device) : (vecEffect t l v d).link = d.link := by
  unfold vecEffect
  dsimp only
  split
  · rw [countEvents_link, onTile_link, spend_link]
  · split
    · rw [countEvents_link, onTile_link]
    · split
      · exact loadExec_link ..
      · exact storeExec_link ..

/-- Work on a tile that sends nothing changes its own tile and the bytes of its ranges. -/
theorem TileWork.tileFrame {t : Nat} {outs : List (Nat × Nat)} {d e : Device} (h : TileWork t outs d e) (hlink : e.link = d.link) :
    tileFrame t outs d e := by
  have hown := h.own
  rw [TileState.Worked] at hown
  refine ⟨h.others, h.bytes, ?_, ?_, ?_, ?_, hlink, ?_, ?_, by rw [hown]; exact ⟨rfl, rfl, rfl, rfl⟩⟩
  all_goals rw [h.rest]

/-- A descriptor that goes in flight is no part of the frame. -/
theorem tileFrame_vflight {t : Nat} {outs : List (Nat × Nat)} {d e : Device} (h : tileFrame t outs d e) (x : Option FlightVec) :
    tileFrame t outs d (onTile t (fun ts => { ts with vflight := x }) e) := by
  obtain ⟨hothers, hrest⟩ := h
  refine ⟨fun j hj => (tileOf_onTile_other hj ..).trans (hothers j hj), ?_⟩
  rw [tileOf_onTile_self]
  exact hrest

theorem TileState.Worked.arrays {a b : TileState} (h : a.Worked b) : b.arrays = a.arrays := by rw [TileState.Worked] at h; rw [h]

theorem TileState.Planned.arrays {a b : TileState} (h : a.Planned b) : b.arrays = a.arrays := h.1.arrays

/-- A descriptor as it goes in flight: its knot, registers and cost, and its last cycle on a tile of the Fixed plane. -/
def issuedVec (t : Nat) (l : QList) (v : VecDesc) (d : Device) : FlightVec :=
  { knot := BitVec.ofNat 32 v.knot, regs := v.writes, reads := v.regs, cycles := vecCycles (fun off n => storeBytes d t off n) v
    done := if l.origin == .fixed then (nextVecAt d t).getD 0 + vecCycles (fun off n => storeBytes d t off n) v else 0
    tenant := l.tenant, job := l.job, layer := l.layer }

/-- The device at the issue cycle of a list's head: the bus plan of a tile of the Fixed plane has run up to it (R308). -/
def atIssue (t : Nat) (l : QList) (d : Device) : Device := if l.origin == .fixed then runPlan t ((nextVecAt d t).getD 0) d else d

theorem issueVec_eq (t : Nat) (l : QList) (v : VecDesc) (d : Device) : issueVec t l v d =
    onTile t (fun ts => { ts with vflight := some (issuedVec t l v d) }) (vecEffect t l v (atIssue t l d)) := rfl

/-- Settles O43: the head of the list by what its validation and its holds say; a descriptor that runs works on its own tile, at its
issue cycle, and goes in flight. -/
theorem vectorDescriptorsRun : Obligations.VectorDescriptorsRun := by
  intro s k l ls halive hhead hflight hwait hfits
  dsimp only
  intro x hx hkind
  obtain ⟨hworks, hexec⟩ := exec_vec hx s
  have hnotEnd : x.2 ≠ kEnd := by rcases hworks with h | h | h | h <;> rw [h] <;> decide
  have hnotWait : x.2 ≠ kWait := by rcases hworks with h | h | h | h <;> rw [h] <;> decide
  have hvalid := fun hok => (seqVec_valid halive hhead hflight hwait hfits hok hkind).trans
    ((if_neg hnotEnd).trans (if_neg hnotWait))
  refine ⟨fun f hbad => ?_, fun hok hheld => ?_, fun hok hheld => ?_⟩
  · rw [hexec, seqVec_fails halive hhead hflight hwait hfits hbad]
  · rw [hexec, hvalid hok, QList.vec, if_pos hheld]
  · rw [hexec, hvalid hok, QList.vec, if_neg (Bool.eq_false_iff.mp hheld), issueVec_eq, atIssue]
    have hplan := (runPlan_if_plan (l.origin == .fixed) k.toNat ((nextVecAt s.dev k.toNat).getD 0) s.dev).own
    generalize (if (l.origin == .fixed) = true then runPlan k.toNat ((nextVecAt s.dev k.toNat).getD 0) s.dev else s.dev) = e at hplan ⊢
    have hwork := vecEffect_work k.toNat l (l.vec k.toNat s.dev) e (by rw [QList.vec, hkind]; exact hworks)
    refine ⟨_, rfl, ?_⟩
    simp only [settled, tileOf_settle, tileOf_onTile_self]
    exact ⟨rfl, hwork.own.vecs.trans (hplan.vecs.trans hhead), hwork.own.passes.trans hplan.passes,
      hwork.own.arrays.trans hplan.arrays, hwork.own.flight, tileFrame_settle (tileFrame_vflight (hwork.tileFrame (vecEffect_link ..)) _)⟩

/-! ### The end of a vector list, and a WAIT (R160, R163) -/

/-- An END descriptor whose other bytes are zero passes validation. -/
theorem vecFault_end {rd : Nat → Nat → List Byte} : vecFault rd (vecDesc (0xFF :: zeros 63)) = none := by
  have hclean : firstBad (nonZeroAt (0xFF :: zeros 63) 1 63) = none := by
    refine firstBad_none fun c hc => ?_
    obtain ⟨i, -, rfl⟩ := List.mem_map.mp hc
    show (byteAt (0xFF :: zeros 63) (1 + i) != 0) = false
    rw [byteAt_cons_zeros]
    rfl
  have hkind : (vecDesc (0xFF :: zeros 63)).kind = kEnd := rfl
  rw [vecFault, if_pos hkind]
  show (firstBad (nonZeroAt (0xFF :: zeros 63) 1 63)).map _ = none
  rw [hclean]
  rfl

theorem leNat_lt (bs : List Byte) : leNat bs < 256 ^ bs.length := by
  induction bs with
  | nil => exact Nat.one_pos
  | cons b bs ih =>
    have := b.isLt
    rw [leNat, List.length_cons, pow_succ]
    omega

theorem field_lt (bs : List Byte) (off n : Nat) : field bs off n < 256 ^ n :=
  (leNat_lt _).trans_le (Nat.pow_le_pow_right (by decide) (List.length_take_le ..))

theorem word16_toNat (bs : List Byte) (off : Nat) : (word16 bs off).toNat = field bs off 2 :=
  (BitVec.toNat_ofNat ..).trans (Nat.mod_eq_of_lt (field_lt bs off 2))

section
variable {t : Nat} {l : QList} {b : List Byte} {d : Device}

theorem waitOnKnot_reached (hreached : condHolds (knotOf d (field b 16 2)).value (2 ^ 32) (.atLeast (word32 b 20)) = true) :
    waitOnKnot t l (vecDesc b) d = onTile t (fun ts => { ts with vflight := some (waitMet l (word32 b 60)) }) d := by
  rw [waitOnKnot, word16_toNat]
  exact if_pos hreached

theorem waitOnKnot_below (hbelow : condHolds (knotOf d (field b 16 2)).value (2 ^ 32) (.atLeast (word32 b 20)) = false) :
    waitOnKnot t l (vecDesc b) d = onTile t (fun ts => { ts with vwait := some (word16 b 16, word32 b 20, word32 b 60) }) d := by
  rw [waitOnKnot, word16_toNat]
  exact if_neg (Bool.eq_false_iff.mp hbelow)

end

/-! ### The completion of a descriptor (R161, R164) -/

/-- A tile as its descriptor in flight leaves it; on the Fixed plane the registers of it are free from its last cycle on. -/
def vecLeaves (fixed : Bool) (v : FlightVec) (ts : TileState) : TileState :=
  let ts := { ts with vflight := none }
  let ts := if fixed then freeRegs (v.regs ++ v.reads) v.done { ts with vecAt := v.done } else ts
  if v.orphan then ts else vecNext ts

section
variable {fixed : Bool} {v : FlightVec} {ts : TileState}

theorem vecLeaves_vflight : (vecLeaves fixed v ts).vflight = none := by
  unfold vecLeaves
  cases fixed <;> cases v.orphan <;> rfl

theorem vecLeaves_vwait : (vecLeaves fixed v ts).vwait = ts.vwait := by
  unfold vecLeaves
  cases fixed <;> cases v.orphan <;> rfl

/-- On the Open plane nothing else of the tile changes. -/
theorem vecLeaves_open : vecLeaves false v ts = { ts with vflight := none, vecs := (vecLeaves false v ts).vecs } := by
  unfold vecLeaves
  cases v.orphan <;> rfl

/-- The list goes on past the descriptor, unless it has left the tile meanwhile. -/
theorem vecLeaves_vecs {l : QList} {ls : List QList} (hhead : ts.vecs = l :: ls) :
    (vecLeaves fixed v ts).vecs = if v.orphan then l :: ls else { l with index := l.index + 1 } :: ls := by
  unfold vecLeaves vecNext
  cases fixed <;> cases v.orphan <;> simp [freeRegs, hhead]

end

section
variable {t : Nat} {v : FlightVec} {d : Device} (hflight : (tileOf d t).vflight = some v)
include hflight

/-- On the Fixed plane a completion waits for the turn of its cycle. -/
theorem completeVec_waits (hfixed : d.fix.mask.getLsbD t = true) (hturn : planTurn d t 1 = false) : completeVec t d = d := by
  simp only [completeVec, hflight, hfixed, hturn, Bool.not_false, Bool.and_self, if_true]

/-- A completion takes the descriptor out of flight, signals its knot, and looks at its layer. -/
theorem completeVec_turn (hturn : d.fix.mask.getLsbD t = true → planTurn d t 1 = true) : completeVec t d =
    layerCheck v.tenant v.job (knotSignalField v.knot.toNat (onTile t (vecLeaves (d.fix.mask.getLsbD t) v) d)) := by
  have hgo : (d.fix.mask.getLsbD t && !planTurn d t 1) = false := by
    by_cases hfixed : d.fix.mask.getLsbD t = true
    · rw [hturn hfixed]; exact Bool.and_false _
    · rw [Bool.eq_false_iff.mpr hfixed]; rfl
  simp only [completeVec, hflight, hgo, Bool.false_eq_true, if_false]
  rfl

end

/-- Settles O44: END and WAIT at the head of a list, and the completion of the descriptor in flight. -/
theorem vectorListsWaitAndEnd : Obligations.VectorListsWaitAndEnd := by
  intro s k halive
  refine ⟨fun l ls hhead hflight hwait hfits => ?_, fun v hflight hwait => ⟨fun hfixed hturn => ?_, fun hturn => ?_⟩⟩
  · have hvalid := fun {kind} hok => seqVec_valid (kind := kind) halive hhead hflight hwait hfits hok
    refine ⟨fun hend => ?_, fun hok hkind => ?_⟩
    · have hok : l.vecFault k.toNat s.dev = none := by rw [QList.vecFault, QList.vec, hend, vecFault_end]
      have hkind : (l.vec k.toNat s.dev).kind = kEnd := by rw [QList.vec, hend]; rfl
      rw [exec_vectorEnd, execVectorEnd, run_settled, hvalid hok hkind, if_pos rfl]
      refine ⟨_, rfl, ?_⟩
      simp only [settled, tileOf_settle, tileOf_layerCheck, tileOf_onTile_self, settle_fab, layerCheck_fab, onTile_fab, settle_knots,
        layerCheck_knots, onTile_knots, settle_cmd, layerCheck_cmd, onTile_cmd]
      exact ⟨by rw [hhead]; rfl, trivial, trivial, trivial, fun j hj => tileOf_onTile_other hj _ _⟩
    · have hexec : exec (.vectorWait k) s = .next (settled s (waitOnKnot k.toNat l (l.vec k.toNat s.dev) s.dev)) := by
        rw [exec_vectorWait, execVectorWait, run_settled, hvalid hok hkind, if_neg (by decide), if_pos rfl]
      exact ⟨fun hreached => by rw [hexec, QList.vec, waitOnKnot_reached hreached, waitMet],
        fun hbelow => by rw [hexec, QList.vec, waitOnKnot_below hbelow]⟩
  · rw [exec_vectorDescriptorComplete, execVectorDescriptorComplete, run_settled, if_pos halive, completeVec_waits hflight hfixed hturn]
  · rw [exec_vectorDescriptorComplete, execVectorDescriptorComplete, run_settled, if_pos halive, completeVec_turn hflight hturn]
    refine ⟨_, rfl, ?_⟩
    have hidle : (tileOf (onTile k.toNat (vecLeaves (s.dev.fix.mask.getLsbD k.toNat) v) s.dev) k.toNat).vwait = none := by
      rw [tileOf_onTile_self, vecLeaves_vwait, hwait]
    simp only [settled, tileOf_settle, tileOf_layerCheck, tileOf_signalField_idle _ _ _ hidle, tileOf_onTile_self, settle_fab,
      layerCheck_fab, knotSignalField_fab, onTile_fab, knotOf_settle, knotOf_layerCheck]
    refine ⟨vecLeaves_vflight, fun l ls hhead => vecLeaves_vecs hhead, fun hopen => ?_, trivial, fun n => ?_⟩
    · rw [hopen]
      exact vecLeaves_open
    · rw [knotOf_signalField, knotOf_congr (onTile_knots ..), bitOf_toNat]

end Sys2Proof.Machine
end

section
/-! PROOFS. Fabric memory, and the movement engine: reading back what was written, scrubs, homes that meet nothing held, promotions and
evictions (R190, R194, R197 to R200, R447, R450 to R453). -/

namespace Sys2Proof.Machine

/-! ### Fabric memory -/

/-- Settles O14: the fabric's bytes after a write or a scrub are those of the store or the scrub alone, whatever the write queues do. -/
theorem fabricReadsWhatWasWritten : Obligations.FabricReadsWhatWasWritten := by
  intro d a bs
  refine ⟨?_, fun x hx => ?_, fun n x hlo hhi => ?_, fun n x hx => ?_, fun hwf => ⟨fabWrite_wf a bs d hwf, fun n => fabScrub_wf a n d hwf⟩⟩
  · rw [fabRead, fabWrite_fab]
    exact Mem.bytes_store d.fab a bs
  · rw [fabWrite_fab, Mem.byte_store, if_neg (by omega)]
  · rw [fabScrub_fab, Mem.byte_scrub, if_pos ⟨hlo, hhi⟩]
  · rw [fabScrub_fab, Mem.byte_scrub, if_neg (by omega)]

/-! ### Homes (R190, R447) -/

/-- Two fabric ranges, each an address and a length, share no byte. -/
def Apart (x y : Nat × Nat) : Prop := x.1 + x.2 ≤ y.1 ∨ y.1 + y.2 ≤ x.1

theorem Apart.symm {x y : Nat × Nat} (h : Apart x y) : Apart y x := Or.symm h

theorem fitsAt_iff {lo hi size a : Nat} {busy : List (Nat × Nat)} :
    fitsAt lo hi size busy a = true ↔ lo ≤ a ∧ a + size ≤ hi ∧ ∀ r ∈ busy, Apart (a, size) r := by
  simp only [fitsAt, Bool.and_eq_true, decide_eq_true_eq, List.all_eq_true, Bool.or_eq_true, and_assoc, Apart]

/-- The least of a list is one of its members. -/
theorem leastOf_mem {l : List Nat} {a : Nat} (h : leastOf l = some a) : a ∈ l := by
  have hfold : ∀ (l : List Nat) (m : Option Nat),
      l.foldl (fun m x => match m with | none => some x | some y => some (min x y)) m = some a → m = some a ∨ a ∈ l := by
    intro l
    induction l with
    | nil => exact fun m hm => .inl hm
    | cons x l ih =>
      intro m hm
      rcases ih _ hm with hnow | hlater
      · cases m with
        | none => exact .inr (by cases hnow; exact List.mem_cons_self ..)
        | some y =>
          obtain rfl : min x y = a := Option.some.inj hnow
          rcases min_choice x y with hmin | hmin
          · exact .inr (by rw [hmin]; exact List.mem_cons_self ..)
          · exact .inl (congrArg some hmin.symm)
      · exact .inr (List.mem_cons_of_mem _ hlater)
  exact (hfold l none h).resolve_left (by simp)

theorem lowFit_fits {lo hi size a : Nat} {busy : List (Nat × Nat)} (h : lowFit lo hi size busy = some a) :
    fitsAt lo hi size busy a = true :=
  (List.mem_filter.mp (leastOf_mem h)).2

theorem mem_rotateFrom {start c : Nat} {chans : List Nat} (h : c ∈ rotateFrom start chans) : c ∈ chans :=
  (List.mem_append.mp h).elim List.mem_of_mem_filter List.mem_of_mem_filter

/-- A home lies within its channel and meets no held range. -/
theorem homeOn_fits {busy : List (Nat × Nat)} {size c a : Nat} {cs : List Nat} (h : homeOn busy size cs = some (c, a)) :
    c ∈ cs ∧ channelBase c ≤ a ∧ a + size ≤ channelBase c + channelSize ∧ ∀ r ∈ busy, Apart (a, size) r := by
  obtain ⟨ch, hch, hfit⟩ := List.exists_of_findSome?_eq_some h
  obtain ⟨x, hx, heq⟩ := Option.map_eq_some_iff.mp hfit
  cases heq
  exact ⟨hch, fitsAt_iff.mp (lowFit_fits hx)⟩

/-- Settles O46, by induction on the extents: each home is apart from what was held, and each later one also from it. -/
theorem homesAreFree : Obligations.HomesAreFree := by
  intro chans sizes
  induction sizes with
  | nil =>
    intro start busy homes h
    cases h
    exact ⟨rfl, fun x hx => absurd hx (List.not_mem_nil), List.Pairwise.nil⟩
  | cons size rest ih =>
    intro start busy homes h
    rw [homesFor] at h
    split at h
    · cases h
    · next c a hhome =>
      obtain ⟨later, hlater, rfl⟩ := Option.map_eq_some_iff.mp h
      obtain ⟨hchan, hlo, hhi, hfree⟩ := homeOn_fits hhome
      obtain ⟨hlen, hrest, hpairs⟩ := ih _ _ _ hlater
      refine ⟨congrArg (· + 1) hlen, fun x hx => ?_, List.Pairwise.cons (fun x hx => ?_) hpairs⟩
      · rcases List.mem_cons.mp hx with rfl | hx
        · exact ⟨⟨c, mem_rotateFrom hchan, hlo, hhi⟩, hfree⟩
        · obtain ⟨hin, hapart⟩ := hrest x hx
          exact ⟨hin, fun y hy => hapart y (List.mem_cons_of_mem _ hy)⟩
      · exact Apart.symm ((hrest x hx).2 (a, size) (List.mem_cons_self ..))

/-! ### The movement engine (R194, R197 to R200) -/

theorem fabWrite_clock (a : Nat) (bs : List Byte) (d : Device) : (fabWrite a bs d).clock = d.clock := by rw [fabWrite_frame]

/-- Writes of some blocks of 4 KiB leave every byte outside those blocks. -/
theorem byte_writeBlocks (h : Nat) (bytes : Device → Nat → List Byte) (hlen : ∀ d k, (bytes d k).length = block4k) (ks : List Nat) (y : Nat)
    (hout : ∀ k ∈ ks, y < h + k * block4k ∨ h + k * block4k + block4k ≤ y) (d : Device) :
    Mem.byte (ks.foldl (fun d k => fabWrite (h + k * block4k) (bytes d k) d) d).fab y = Mem.byte d.fab y := by
  induction ks generalizing d with
  | nil => rfl
  | cons k ks ih =>
    have hk := hout k (List.mem_cons_self ..)
    rw [List.foldl_cons, ih (fun n hn => hout n (List.mem_cons_of_mem _ hn)), fabWrite_fab, Mem.byte_store, hlen, if_neg (by omega)]

section
variable {d : Device} {t slot i a k : Nat} {e : Extent} (hext : extentOf d t slot i = some e) (hhome : e.home = some a)
  (hcopy : e.copy = some k)
include hext hhome hcopy

theorem writeHome_eq : writeHome t slot i d = onExtent t slot i (fun e => { e with dirty := [] })
    (e.dirty.foldl (fun d n => fabWrite (a + n * block4k) (fabRead d (k + n * block4k) block4k) d) d) := by
  simp only [writeHome, hext, hhome, hcopy]

/-- Bringing dirty blocks home writes those blocks alone (R198). -/
theorem byte_writeHome {y : Nat} (hout : ∀ n ∈ e.dirty, y < a + n * 4096 ∨ a + n * 4096 + 4096 ≤ y) :
    Mem.byte (writeHome t slot i d).fab y = Mem.byte d.fab y := by
  rw [writeHome_eq hext hhome hcopy]
  exact byte_writeBlocks a (fun d n => fabRead d (k + n * block4k) block4k) (fun d n => Mem.bytes_length _ _ _) e.dirty y hout d

end

/-- A scrub of some ranges makes their bytes zero, and leaves every other byte. -/
theorem byte_scrubs (rs : List (Nat × Nat)) (x : Nat) (d : Device) :
    Mem.byte (rs.foldl (fun d r => fabScrub r.1 r.2 d) d).fab x =
      if ∃ r ∈ rs, r.1 ≤ x ∧ x < r.1 + r.2 then 0 else Mem.byte d.fab x := by
  induction rs generalizing d with
  | nil => simp
  | cons r rs ih =>
    rw [List.foldl_cons, ih, fabScrub_fab, Mem.byte_scrub]
    by_cases hlater : ∃ r ∈ rs, r.1 ≤ x ∧ x < r.1 + r.2
    · rw [if_pos hlater, if_pos (by obtain ⟨r', hr', hx⟩ := hlater; exact ⟨r', List.mem_cons_of_mem _ hr', hx⟩)]
    · rw [if_neg hlater]
      simp only [List.exists_mem_cons_iff, hlater, or_false]

theorem scrubs_mem (rs : List (Nat × Nat)) (d : Device) : (rs.foldl (fun d r => fabScrub r.1 r.2 d) d).mem = d.mem := by
  induction rs generalizing d with
  | nil => rfl
  | cons r rs ih => rw [List.foldl_cons, ih]; rfl

section
variable {s : State} {h : W32} {x : W16} {slot : Nat} {buf : Buffer} {e : Extent} (halive : coreAlive s.dev = true)
  (hbuf : bufOf s.dev (h.toNat / 2 ^ 28) h.toNat = some (slot, buf)) (hext : buf.extents[x.toNat]? = some e)
include halive hbuf hext

theorem execPromotionComplete_copied {a k : Nat} (hstate : e.state = .promoting) (hhome : e.home = some a) (hcopy : e.copy = some k)
    (hread : copying s.dev (h.toNat / 2 ^ 28) slot buf.gen x.toNat = false) : execPromotionComplete h x s = .next (settled s (retryMem
      (onArena (h.toNat / 2 ^ 28) (fun a => { a with promotions := satAdd32 a.promotions 1 }) (onExtent (h.toNat / 2 ^ 28) slot x.toNat
        (fun e => { e with state := .ds, dirty := [], used := s.dev.clock }) (fabWrite k (fabRead s.dev a e.size) s.dev))))) := by
  simp only [execPromotionComplete, run_settled, hbuf, hext, hstate, hhome, hcopy, halive, hread, fabWrite_clock, Bool.not_false, and_self,
    if_true]

theorem execEvictionComplete_evicting (hstate : e.state = .evicting) : execEvictionComplete h x s = .next (settled s (retryMem
      (onArena (h.toNat / 2 ^ 28) (fun a => { a with evictions := satAdd32 a.evictions 1 }) (toScrub e.copy e.size
        (onExtent (h.toNat / 2 ^ 28) slot x.toNat (fun e => { e with state := .d, copy := none, place := 0xFF })
          (writeHome (h.toNat / 2 ^ 28) slot x.toNat s.dev)))))) := by
  simp only [execEvictionComplete, run_settled, hbuf, hext, hstate, halive, and_self, if_true]

end

/-- Settles O47: a promotion and an eviction by the state they find, a write home by its dirty blocks, a scrub by its ranges. -/
theorem movementEngine : Obligations.MovementEngine := by
  intro s halive
  refine ⟨fun h x slot buf e hbuf hext => ⟨fun a k hstate hhome hcopy hread => ?_, fun hstate => ?_,
    fun a k hfound hhome hcopy y hout => ?_⟩,
    ?_, fun x hx => ?_⟩
  · exact execPromotionComplete_copied halive hbuf hext hstate hhome hcopy hread
  · exact execEvictionComplete_evicting halive hbuf hext hstate
  · exact byte_writeHome hfound hhome hcopy hout
  · rw [exec_scrubComplete, execScrubComplete, run_settled, if_pos halive]
    dsimp only
    rw [scrubs_mem]
  · rw [byte_scrubs, if_pos hx]

end Sys2Proof.Machine
end

section
/-! PROOFS. The packets of buffers and extents: allocation, release, migration, copies, and the packets that open, close, settle, flush
and report (R188 to R205, R220 to R224, R447). -/

namespace Sys2Proof.Machine

/-! ### Arenas, buffers and storage that is scrubbed (R188, R194) -/

theorem arenaOf_onArena (t j : Nat) (f : Arena → Arena) (d : Device) :
    arenaOf (onArena t f d) j = if j = t then f (arenaOf d t) else arenaOf d j := by
  rw [arenaOf, onArena, Assoc.find_insert]
  split
  · rfl
  · rfl

theorem arenaOf_congr {d e : Device} (h : e.mem.arenas = d.mem.arenas) (t : Nat) : arenaOf e t = arenaOf d t := by rw [arenaOf, h, arenaOf]

theorem bufOf_congr {d e : Device} (h : e.mem.arenas = d.mem.arenas) (t n : Nat) : bufOf e t n = bufOf d t n := by
  rw [bufOf, arenaOf_congr h, bufOf]

/-- A handle finds the buffer of its slot, where tenant and generation agree (R188). -/
theorem bufOf_eq_some {d : Device} {t n slot : Nat} {b : Buffer} (h : bufOf d t n = some (slot, b)) :
    n % 4096 = slot ∧ Assoc.find (arenaOf d t).bufs slot = some b := by
  unfold bufOf at h
  split at h
  · cases h
  · split at h
    · next hfind =>
      split at h
      · cases h
        exact ⟨rfl, hfind⟩
      · cases h
    · cases h

theorem bufOf_erased {d : Device} {t n : Nat} (h : Assoc.find (arenaOf d t).bufs (n % 4096) = none) : bufOf d t n = none := by
  unfold bufOf
  rw [h]
  exact ite_self _

/-- Storage to scrub: that of the home and of the copy of each extent. -/
def storageOf (es : List Extent) : List (Nat × Nat) := es.flatMap fun e => (e.home.toList ++ e.copy.toList).map fun a => (a, e.size)

theorem toScrub_eq (r : Option Nat) (size : Nat) (d : Device) : toScrub r size d =
    { d with mem := { d.mem with scrubbing := d.mem.scrubbing ++ r.toList.map fun a => (a, size) } } := by
  cases r with
  | none => simp only [toScrub, Option.toList_none, List.map_nil, List.append_nil]
  | some a => rfl

theorem toScrub_extents (es : List Extent) (d : Device) :
    es.foldl (fun d e => toScrub e.copy e.size (toScrub e.home e.size d)) d =
      { d with mem := { d.mem with scrubbing := d.mem.scrubbing ++ storageOf es } } := by
  induction es generalizing d with
  | nil => simp only [List.foldl_nil, storageOf, List.flatMap_nil, List.append_nil]
  | cons e es ih =>
    rw [List.foldl_cons, ih, toScrub_eq, toScrub_eq]
    simp only [storageOf, List.flatMap_cons, List.map_append, List.append_assoc]

/-! ### MEM_ALLOC (R190 to R194) -/

section
variable {p : Packet} {b : List Byte} {d d' : Device} {pt : Partition} {full ext slot : Nat} {a' : Arena} {homes : List Nat}

/-- The arguments of MEM_ALLOC are those it takes (R190, R192, R193, R221). -/
structure AllocOk (b : List Byte) (pt : Partition) (full ext : Nat) : Prop where
  size_eq : full = roundUp (field b 0 8) 4096
  ext_eq : ext = if field b 8 4 = 0 then 0x400000 else field b 8 4
  positive : 1 ≤ field b 0 8
  bounded : field b 0 8 ≤ 2 ^ 32
  whole : ext % 4096 = 0
  least : 4096 ≤ ext
  most : ext ≤ 0x4000000
  flag : field b 12 1 ≤ 3
  affinity : field b 12 1 ≤ 1 → affinityOk pt (byteAt b 13) = true
  pinned : field b 12 1 = 0 → min ext full ≤ 0x800000

theorem memAlloc_placed (hpart : partOf d p.hdr.tenant.toNat = some pt) (hok : AllocOk b pt full ext)
    (hexts : (extentsOf (arenaOf d p.hdr.tenant.toNat)).length + ceilDiv full ext ≤ 4096)
    (hbufs : (arenaOf d p.hdr.tenant.toNat).bufs.length < 4096) (hslot : nextSlot (arenaOf d p.hdr.tenant.toNat) = some (slot, a'))
    (hhomes : (if field b 12 1 = 0 then some [] else homesFor (maskList 32 pt.dramMask.toNat) (extentSizes full ext)
      (roomiest (heldRanges d) (maskList 32 pt.dramMask.toNat)) (heldRanges d)) = some homes)
    (hcopies : (if field b 12 1 ≤ 1 then placeCopies p.hdr.tenant.toNat slot (field b 12 1) (placesOf pt (byteAt b 13))
        (extentSizes full ext).zipIdx (formBuffer p.hdr.tenant.toNat slot full ext (field b 12 1) (byteAt b 13)
          (extentSizes full ext) homes a' d)
      else some (formBuffer p.hdr.tenant.toNat slot full ext (field b 12 1) (byteAt b 13) (extentSizes full ext) homes a' d)) = some d') :
    memAlloc p b d = finish p stOK (leBytes 4 (handleOf p.hdr.tenant.toNat (SMap.get 1 a'.gens slot) slot) ++
      leBytes 2 (ceilDiv full ext) ++ [0, 0]) d' := by
  obtain ⟨rfl, rfl, hpos, hmax, hwhole, hleast, hmost, hflag, haff, hpin⟩ := hok
  have hlen : (extentSizes (roundUp (field b 0 8) 4096) (if field b 8 4 = 0 then 0x400000 else field b 8 4)).length =
      ceilDiv (roundUp (field b 0 8) 4096) (if field b 8 4 = 0 then 0x400000 else field b 8 4) := by
    rw [extentSizes, List.length_map, List.length_range]
  rw [memAlloc, hpart]
  dsimp only
  rw [if_neg (by simp only [block4k]; omega), if_neg (by rintro ⟨hlow, hbad⟩; rw [haff hlow] at hbad; cases hbad),
    if_neg (by rintro ⟨hzero, hbig⟩; exact absurd (hpin hzero) (Nat.not_le.mpr hbig)), if_neg (by rw [hlen]; omega), hslot]
  dsimp only
  rw [hhomes]
  dsimp only
  rw [hcopies, hlen]

end

/-! ### MEM_FREE (R222) -/

section
variable {p : Packet} {b : List Byte} {d : Device} {slot : Nat} {buf : Buffer}
  (hbuf : bufOf d p.hdr.tenant.toNat (field b 0 4) = some (slot, buf))

/-- The device once a buffer has gone: its storage is scrubbed, its handle is stale, and its slot waits for the next one (R188). -/
def bufferGone (t slot : Nat) (buf : Buffer) (d : Device) : Device :=
  onArena t (fun a => { a with
    bufs := Assoc.erase a.bufs slot
    gens := SMap.set 1 a.gens slot (buf.gen + 1)
    freed := if buf.gen = 0xFFFF then a.freed else a.freed ++ [slot] })
    { d with mem := { d.mem with scrubbing := d.mem.scrubbing ++ storageOf buf.extents } }

include hbuf

theorem memFree_unused (hmounted : isMounted d p.hdr.tenant.toNat slot buf.gen = false) (hclosed : buf.extents.any isOpen = false)
    (hnamed : (d.cmd.flight.any fun x => namesHandle d p x (field b 0 4)) = false) :
    memFree p b d = complete p (bufferGone p.hdr.tenant.toNat slot buf d) := by
  simp only [memFree, hbuf, hmounted, hclosed, hnamed, Bool.false_eq_true, if_false, toScrub_extents]
  rfl

omit hbuf

theorem bufOf_bufferGone {t n : Nat} (hfind : bufOf d t n = some (slot, buf)) : bufOf (bufferGone t slot buf d) t n = none := by
  obtain ⟨hslot, -⟩ := bufOf_eq_some hfind
  refine bufOf_erased ?_
  rw [bufferGone, arenaOf_onArena, if_pos rfl]
  exact (Assoc.find_erase ..).trans (if_pos hslot)

theorem arenaOf_bufferGone {t j : Nat} (hj : j ≠ t) : arenaOf (bufferGone t slot buf d) j = arenaOf d j := by
  rw [bufferGone, arenaOf_onArena, if_neg hj]
  rfl

end

/-! ### MEM_MIGRATE (R196, R221) -/

section
variable {p : Packet} {d : Device} {t slot tier lo hi i : Nat} {aff : Byte} {pt : Partition} {rest : List Nat} {moving all : Bool}

/-- A walk of one extent whose change starts: what moves bytes is waited for, the rest ends at once. -/
theorem migWalk_one {buf : Buffer} {e : Extent} {d' : Device} (hfind : Assoc.find (arenaOf d t).bufs slot = some buf)
    (hext : buf.extents[i]? = some e)
    (hgo : (if tier ≤ 1 then migUp t slot i tier aff pt buf e d else if tier = 2 then migDram t slot i pt buf e d
      else migHost t slot i buf e d) =
      .go d') :
    migWalk p t slot tier lo hi aff pt [i] false true d = if tier ≤ 2 ∧ e.state ≠ .h then hold p d' else complete p d' := by
  simp only [migWalk, hfind, hext, hgo, Bool.false_or, decide_eq_true_eq, Bool.false_and, Bool.false_eq_true, if_false]

section
variable {buf : Buffer} {e : Extent} (hfind : Assoc.find (arenaOf d t).bufs slot = some buf) (hext : buf.extents[i]? = some e)
include hfind hext

theorem migWalk_toHost (hstate : e.state = .d) (hclosed : e.opened = false) (hmounted : isMounted d t slot buf.gen = false) :
    migWalk p t slot 3 lo hi aff pt [i] false true d = complete p (onExtent t slot i (fun e => { e with state := .outbound }) d) := by
  have hgo : migHost t slot i buf e d = .go (onExtent t slot i (fun e => { e with state := .outbound }) d) := by
    simp only [migHost, hstate, hclosed, hmounted, Bool.or_self, Bool.false_eq_true, if_false]
  exact migWalk_one (tier := 3) hfind hext hgo

theorem migWalk_evicts (hstate : e.state = .ds) (hclosed : e.opened = false) (hflag : buf.flag ≠ 0) :
    migWalk p t slot 2 lo hi aff pt [i] false true d = hold p (onExtent t slot i (fun e => { e with state := .evicting }) d) := by
  have hgo : migDram t slot i pt buf e d = .go (onExtent t slot i (fun e => { e with state := .evicting }) d) := by
    simp only [migDram, hstate, hclosed, hflag, Bool.false_eq_true, if_false]
  exact (migWalk_one (tier := 2) hfind hext hgo).trans (if_pos ⟨le_refl 2, by rw [hstate]; decide⟩)

/-- A migration to the commons starts a promotion where the commons have room (R192, R196). -/
theorem migWalk_promotes {x : Nat × Byte} (hstate : e.state = .d) (hclosed : e.opened = false) (hflag : buf.flag = 1 ∨ buf.flag = 2)
    (hsize : e.size ≤ 0x800000) (hroom : sramFor d t e.size [0xFE] = some x) :
    migWalk p t slot 1 lo hi aff pt [i] false true d = hold p (startPromotion t slot i x d) := by
  have hgo : migUp t slot i 1 aff pt buf e d = .go (startPromotion t slot i x d) := by
    rw [migUp, if_neg (by omega), hstate]
    dsimp only
    rw [hclosed, if_neg Bool.false_ne_true, if_neg (Nat.not_lt.mpr hsize), if_pos rfl, hroom]
  exact (migWalk_one (tier := 1) hfind hext hgo).trans (if_pos ⟨by decide, by rw [hstate]; decide⟩)

end

end

section
variable {p : Packet} {b : List Byte} {d : Device} {slot : Nat} {buf : Buffer} {pt : Partition}
  (hbuf : bufOf d p.hdr.tenant.toNat (field b 0 4) = some (slot, buf)) (hpart : partOf d p.hdr.tenant.toNat = some pt)
include hbuf hpart

theorem memMigrate_walks (htier : field b 8 1 ≤ 3) (hcount : 1 ≤ field b 6 2)
    (haff : field b 8 1 ≤ 1 → affinityOk pt (byteAt b 9) = true) (hfits : field b 4 2 + field b 6 2 ≤ buf.extents.length) :
    memMigrate p b d = migWalk p p.hdr.tenant.toNat slot (field b 8 1) (field b 4 2) (field b 4 2 + field b 6 2) (byteAt b 9) pt
      ((List.range (field b 6 2)).map (field b 4 2 + ·)) false true d := by
  have hargs : ¬(field b 8 1 > 3 ∨ field b 6 2 = 0 ∨ field b 8 1 ≤ 1 ∧ (!affinityOk pt (byteAt b 9)) = true) := by
    rintro (hbad | hbad | ⟨hlow, hbad⟩)
    · omega
    · omega
    · rw [haff hlow] at hbad; cases hbad
  rw [memMigrate, hpart]
  dsimp only
  rw [if_neg hargs, hbuf]
  exact if_neg (Nat.not_lt.mpr hfits)

end

/-! ### MEM_OPEN, MEM_CLOSE, MEM_SETTLE, MEM_FLUSH, MEM_QUERY (R196, R198, R204, R223) -/

theorem filter_zipIdx_map {α β : Type} (q : α → Bool) (f : α → β) (l : List α) :
    (l.zipIdx.filter fun x => q x.1).map (fun x => f x.1) = (l.filter q).map f := by
  have hfst := List.filter_map (f := Prod.fst) (p := q) (l := l.zipIdx)
  rw [List.zipIdx_map_fst] at hfst
  rw [hfst, List.map_map]
  rfl

section
variable {p : Packet} {b : List Byte} {d : Device} {slot : Nat} {buf : Buffer} {e : Extent}
  (hbuf : bufOf d p.hdr.tenant.toNat (field b 0 4) = some (slot, buf)) (hext : buf.extents[field b 4 2]? = some e)
include hbuf

theorem memFlush_found : memFlush p b d = finish p stOK
    (leBytes 4 ((buf.extents.filter (·.state == .ds)).map (·.dirty.length)).sum)
    ((buf.extents.zipIdx.filter fun x => x.1.state == .ds).foldl (fun d x => writeHome p.hdr.tenant.toNat slot x.2 d) d) := by
  rw [memFlush, hbuf, ← filter_zipIdx_map (fun e : Extent => e.state == .ds) (fun e => e.dirty.length)]

include hext

theorem withExtent_found (k : Nat → Nat → Nat → Buffer → Extent → Device) :
    withExtent p b d k = k p.hdr.tenant.toNat slot (field b 4 2) buf e := by
  simp only [withExtent, hbuf, hext]

theorem memOpen_device (hroom : ((extentsOf (arenaOf d p.hdr.tenant.toNat)).filter fun x => isOpen x.2.2.2).length < 64 ∨ isOpen e = true)
    (hstate : e.state = .d ∨ e.state = .ds ∨ e.state = .s) : memOpen p b d = finish p stOK (leBytes 8 ((readBase e).getD 0))
      (onExtent p.hdr.tenant.toNat slot (field b 4 2) (fun e => { e with opened := true }) d) := by
  have hlimit :
      (!isOpen e && decide (((extentsOf (arenaOf d p.hdr.tenant.toNat)).filter fun x => isOpen x.2.2.2).length ≥ 64)) = false := by
    rcases hroom with hless | hopen
    · rw [decide_eq_false (by omega), Bool.and_false]
    · rw [hopen]; rfl
  have hhere : onHostTier e = false := by rcases hstate with h | h | h <;> simp only [onHostTier, h] <;> rfl
  rw [memOpen, withExtent_found hbuf hext]
  rcases hstate with h | h | h
  all_goals
    simp only [h, hhere, Bool.false_eq_true, if_false]
    exact if_neg (by rw [hlimit]; exact Bool.false_ne_true)

theorem memOpen_moving (hstate : e.state = .outbound ∨ e.state = .inbound) :
    memOpen p b d = finish p stOK (leBytes 8 ((readBase e).getD 0)) d := by
  have hopen : isOpen e = true := by rcases hstate with h | h <;> simp [isOpen, h]
  have haway : onHostTier e = true := by rcases hstate with h | h <;> simp only [onHostTier, h] <;> rfl
  rw [memOpen, withExtent_found hbuf hext]
  rcases hstate with h | h <;> simp only [h, hopen, haway, Bool.not_true, Bool.false_and, Bool.false_eq_true, if_false, if_true]

theorem memClose_open (hhere : onHostTier e = false) (hopen : e.opened = true) :
    memClose p b d = complete p (onExtent p.hdr.tenant.toNat slot (field b 4 2) (fun e => { e with opened := false }) d) := by
  simp only [memClose, withExtent_found hbuf hext, hhere, hopen, Bool.not_true, Bool.false_eq_true, if_false]

theorem memSettle_outbound (hstate : e.state = .outbound) : memSettle p b d = complete p (toScrub e.home e.size
    (onExtent p.hdr.tenant.toNat slot (field b 4 2) (fun e => { e with state := .h, home := none }) d)) := by
  simp only [memSettle, withExtent_found hbuf hext, hstate]

theorem memSettle_inbound (hstate : e.state = .inbound) : memSettle p b d = autoPromote p.hdr.tenant.toNat (complete p
    (onExtent p.hdr.tenant.toNat slot (field b 4 2) (fun e => { e with state := .d }) d)) := by
  simp only [memSettle, withExtent_found hbuf hext, hstate]

end

/-- The 24 bytes that MEM_QUERY reports of an extent (R223). -/
def extentReport (d : Device) (t slot i : Nat) (buf : Buffer) (e : Extent) : List Byte :=
  [e.state.code, BitVec.ofNat 8 buf.flag, e.place, (if isOpen e then 2 else 0) ||| (if isWanted d t slot i then 1 else 0)] ++
    leBytes 4 e.size ++ leBytes 4 e.dirty.length ++ zeros 4 ++ leBytes 8 (if isOpen e then (readBase e).getD 0 else 0)

theorem extentReport_length (d : Device) (t slot i : Nat) (buf : Buffer) (e : Extent) : (extentReport d t slot i buf e).length = 24 := rfl

theorem extentReport_shut {d : Device} {t slot i : Nat} {buf : Buffer} {e : Extent} (hshut : isOpen e = false) :
    slice (extentReport d t slot i buf e) 16 8 = zeros 8 := by
  have haddr : slice (extentReport d t slot i buf e) 16 8 = leBytes 8 (if isOpen e then (readBase e).getD 0 else 0) := rfl
  rw [haddr, hshut, if_neg Bool.false_ne_true]
  rfl

theorem memQuery_found {p : Packet} {b : List Byte} {d : Device} {slot : Nat} {buf : Buffer} {e : Extent}
    (hbuf : bufOf d p.hdr.tenant.toNat (field b 0 4) = some (slot, buf)) (hext : buf.extents[field b 4 2]? = some e) :
    memQuery p b d = finish p stOK (extentReport d p.hdr.tenant.toNat slot (field b 4 2) buf e) d := by
  rw [memQuery, withExtent_found hbuf hext]
  rfl

theorem memArenaInfo_formed {p : Packet} {d : Device} {pt : Partition} (hpart : partOf d p.hdr.tenant.toNat = some pt) (b : List Byte) :
    memArenaInfo p b d = finish p stOK (arenaInfo d p.hdr.tenant.toNat pt) d := by
  simp only [memArenaInfo, hpart]

/-! ### MEM_COPY: its bursts (R219) -/

/-- An address lies in a channel's data range (R443). -/
theorem channelOf_eq_some {a c : Nat} : channelOf a = some c ↔ c < 32 ∧ channelBase c ≤ a ∧ a < channelBase c + channelSize := by
  simp only [channelOf, channelBase, dramBase, channelSize]
  split
  · rw [Option.some.injEq]
    omega
  · refine ⟨nofun, fun h => ?_⟩
    omega

theorem mem_cutRange {size a n : Nat} {x : Nat × Nat} (h : x ∈ cutRange size a n) : x.2 ≤ size := by
  obtain ⟨i, -, rfl⟩ := List.mem_map.mp h
  exact Nat.min_le_left ..

/-- A range of at most a channel's size, cut at the end of the channel it begins in, lies within channels. -/
theorem mem_cutAtChannel {a n : Nat} {x : Nat × Nat} (hn : n ≤ channelSize)
    (h : x ∈ match channelOf a with
      | some c => if n ≤ channelBase c + channelSize - a then [(a, n)]
          else [(a, channelBase c + channelSize - a), (a + (channelBase c + channelSize - a), n - (channelBase c + channelSize - a))]
      | none => [(a, n)]) :
    x.2 ≤ n ∧ ∀ c, channelOf x.1 = some c → x.1 + x.2 ≤ channelBase c + channelSize := by
  split at h
  · next c hc =>
    obtain ⟨-, hlo, hhi⟩ := channelOf_eq_some.mp hc
    have hfirst : ∀ m, m ≤ channelBase c + channelSize - a → ∀ c', channelOf a = some c' → a + m ≤ channelBase c' + channelSize := by
      intro m hm c' hc'
      obtain rfl : c = c' := Option.some.inj (hc.symm.trans hc')
      omega
    split at h
    · next hfits =>
      obtain rfl := List.mem_singleton.mp h
      exact ⟨le_refl _, hfirst n hfits⟩
    · next hover =>
      rcases List.mem_cons.mp h with rfl | h
      · exact ⟨by omega, hfirst _ (le_refl _)⟩
      · obtain rfl := List.mem_singleton.mp h
        refine ⟨by omega, fun c' hc' => ?_⟩
        obtain ⟨-, hlo', hhi'⟩ := channelOf_eq_some.mp hc'
        simp only [channelBase, dramBase, channelSize] at *
        omega
  · next hnone =>
    obtain rfl := List.mem_singleton.mp h
    exact ⟨le_refl _, fun c hc => by rw [hnone] at hc; cases hc⟩

theorem mem_piecesOf {buf : Buffer} {off n : Nat} {x : Nat × Nat} (hn : n ≤ channelSize) (h : x ∈ piecesOf buf off n) :
    x.2 ≤ n ∧ ∀ c, channelOf x.1 = some c → x.1 + x.2 ≤ channelBase c + channelSize := by
  obtain ⟨i, -, hi⟩ := List.mem_flatMap.mp h
  dsimp only at hi
  split at hi
  · have hlen : min (off + n) ((i + 1) * buf.extSize) - max off (i * buf.extSize) ≤ n := by omega
    obtain ⟨hle, hchan⟩ := mem_cutAtChannel (hlen.trans hn) hi
    exact ⟨hle.trans hlen, hchan⟩
  · cases hi

/-- The bursts that pieces give, each with its place in the destination, are the pieces. -/
theorem mem_placeBursts (ps : List (Nat × Nat)) (acc : List (Nat × Nat × Nat) × Nat) {z : Nat × Nat × Nat}
    (h : z ∈ (ps.foldl (fun acc y => (acc.1 ++ [(y.1, y.2, acc.2)], acc.2 + y.2)) acc).1) : z ∈ acc.1 ∨ (z.1, z.2.1) ∈ ps := by
  induction ps generalizing acc with
  | nil => exact .inl h
  | cons y ps ih =>
    rcases ih _ h with hacc | hps
    · rcases List.mem_append.mp hacc with hold | hnew
      · exact .inl hold
      · obtain rfl := List.mem_singleton.mp hnew
        exact .inr (List.mem_cons_self ..)
    · exact .inr (List.mem_cons_of_mem _ hps)

/-- Each burst of a copy is at most the size given, and within its channel. -/
theorem mem_copyBursts {sb : Buffer} {os od n burst : Nat} {x : Nat × Nat × Nat} (hburst : burst ≤ 0x100000)
    (h : x ∈ copyBursts sb os od n burst) :
    x.2.1 ≤ burst ∧ ∀ c, channelOf x.1 = some c → x.1 + x.2.1 ≤ channelBase c + channelSize := by
  obtain ⟨y, hy, hx⟩ := List.mem_flatMap.mp h
  have hsize := mem_cutRange hy
  have hpiece := (mem_placeBursts _ _ hx).resolve_left (List.not_mem_nil)
  obtain ⟨hle, hchan⟩ := mem_piecesOf (hsize.trans (hburst.trans (by decide))) hpiece
  exact ⟨hle.trans hsize, hchan⟩

/-! ### MEM_COPY: its start (R221) -/

section
variable {p : Packet} {t ds : Nat} {db : Buffer} {bursts : List (Nat × Nat × Nat)} {d : Device}

/-- The device once the bursts from SRAM have landed. -/
def nearLanded (t ds : Nat) (db : Buffer) (bursts : List (Nat × Nat × Nat)) (d : Device) : Device :=
  (bursts.filter fun x => (channelOf x.1).isNone).foldl (fun d x => bufWrite t ds db x.2.2 (fabRead d x.1 x.2.1) d) d

theorem startCopy_near (hnear : (bursts.filter fun x => (channelOf x.1).isSome) = []) :
    startCopy p t ds db bursts d = complete p (nearLanded t ds db bursts d) := by
  rw [startCopy, hnear]
  rfl

theorem startCopy_far (hfar : (bursts.filter fun x => (channelOf x.1).isSome) ≠ []) :
    startCopy p t ds db bursts d = raiseAll
      ((bursts.filter fun x => (channelOf x.1).isSome).map fun x =>
        { who := (streamTile t (nearLanded t ds db bursts d)).1, lst := headerDeadline p, tenant := p.hdr.tenant, job := p.hdr.job,
          load := .copy (refOf p) ds x.2.2, addr := x.1, len := x.2.1 })
      (onPacket (refOf p) (fun q => { q with reads := some [], left := (bursts.filter fun x => (channelOf x.1).isSome).length })
        (hold p (streamTile t (nearLanded t ds db bursts d)).2)) := by
  rw [startCopy]
  exact if_neg (mt List.isEmpty_iff.mp hfar)

end

section
variable {p : Packet} {b : List Byte} {d : Device} {ss ds : Nat} {sb db : Buffer}

/-- The arguments of MEM_COPY are those it takes (R221, R241), and both of its ranges are in the device (R202). -/
structure CopyOk (t : Nat) (b : List Byte) (d : Device) (ss : Nat) (sb : Buffer) (ds : Nat) (db : Buffer) : Prop where
  source : bufOf d t (field b 0 4) = some (ss, sb)
  dest : bufOf d t (field b 8 4) = some (ds, db)
  positive : 1 ≤ field b 16 4
  burst : 1 ≤ field b 20 4
  whole : field b 20 4 % 64 = 0
  bounded : field b 20 4 ≤ 0x100000
  sourceFits : field b 4 4 + field b 16 4 ≤ sb.size
  destFits : field b 12 4 + field b 16 4 ≤ db.size
  apart : ss = ds → rangesMeet (field b 4 4) (field b 16 4) (field b 12 4) (field b 16 4) = false
  unmounted : isMounted d t ds db.gen = false
  sourceHere : hostHeld sb (field b 4 4) (field b 16 4) = false
  destHere : hostHeld db (field b 12 4) (field b 16 4) = false

theorem memCopy_starts (hok : CopyOk p.hdr.tenant.toNat b d ss sb ds db) (hreads : p.reads = none) : memCopy p b d =
    startCopy p p.hdr.tenant.toNat ds db (copyBursts sb (field b 4 4) (field b 12 4) (field b 16 4) (field b 20 4))
      (touch p.hdr.tenant.toNat ds db (field b 12 4) (field b 16 4) (touch p.hdr.tenant.toNat ss sb (field b 4 4) (field b 16 4)
        (dropHold (.packet (refOf p)) d))) := by
  obtain ⟨hsource, hdest, hpos, hburst, hwhole, hbound, hsfits, hdfits, hapart, hmount, hshere, hdhere⟩ := hok
  have hranges : ¬(field b 4 4 + field b 16 4 > sb.size ∨ field b 12 4 + field b 16 4 > db.size ∨
      ss = ds ∧ rangesMeet (field b 4 4) (field b 16 4) (field b 12 4) (field b 16 4) = true) := by
    rintro (hbad | hbad | ⟨hsame, hbad⟩)
    · omega
    · omega
    · rw [hapart hsame] at hbad; cases hbad
  rw [memCopy, show arenaRef b 0 = (field b 0 4, field b 4 4) from rfl, show arenaRef b 8 = (field b 8 4, field b 12 4) from rfl]
  dsimp only
  rw [if_neg (by omega), hsource, hdest]
  dsimp only
  rw [if_neg hranges]
  simp only [hmount, hshere, hdhere, hreads, Option.isSome_none, Bool.false_eq_true, if_false]

end

/-! ### The obligation, packet by packet -/

theorem begun_tenant (p : Packet) (b : List Byte) : (begun p b).hdr.tenant = p.hdr.tenant := rfl

/-- Settles O45: each packet by what it does with the buffer, the extent or the ranges that it names. -/
theorem memoryPacketsComplete : Obligations.MemoryPacketsComplete := by
  intro s r p b c
  refine ⟨?_, ?_, ?_, ?_⟩
  · intro pt full ext slot a' homes d' h hpart hfull hext hpos hmax hwhole hleast hmost hflag haff hpin hexts hbufs hslot hhomes hcopies
    have hok : AllocOk b pt full ext := ⟨hfull, hext, hpos, hmax, hwhole, hleast, hmost, hflag, haff, hpin⟩
    rw [exec_memAlloc, execMemAlloc, run_admits h, memAlloc_placed (p := begun p b) hpart hok hexts hbufs hslot hhomes hcopies]
    rfl
  · intro slot buf hbuf
    obtain ⟨-, hfind⟩ := bufOf_eq_some hbuf
    refine ⟨fun h hmounted hclosed hnamed => ?_, fun pt tier n h hpart htier hn hmax hcount haff hfits => ?_, fun h => ?_, fun e hext => ?_⟩
    · rw [exec_memFree, execMemFree, run_admits h, memFree_unused (p := begun p b) hbuf hmounted hclosed hnamed]
      refine ⟨_, rfl, ?_⟩
      have hmem : (settle (complete (begun p b) (bufferGone p.hdr.tenant.toNat slot buf (admitted p b c s.dev)))).mem =
          (bufferGone p.hdr.tenant.toNat slot buf (admitted p b c s.dev)).mem := by rw [settle_mem, complete_mem]
      have harenas := congrArg MemTiers.arenas hmem
      refine ⟨(bufOf_congr harenas ..).trans (bufOf_bufferGone hbuf), ?_, ?_, ?_, fun t ht => ?_⟩
      · exact (congrArg (fun m : Cmd => m.flight.find? _) (settle_cmd _)).trans (findPacket_finish (begun p b) stOK [] _)
      · refine (congrArg MemTiers.scrubbing hmem).trans ?_
        rw [bufferGone, onArena, admitted_mem]
        rfl
      · rw [settled, settle_fab, complete_fab]
        exact admitted_fab ..
      · exact (arenaOf_congr harenas t).trans ((arenaOf_bufferGone ht).trans (arenaOf_congr (by rw [admitted_mem]) t))
    · subst htier hn
      have hwalk := memMigrate_walks (p := begun p b) hbuf hpart hmax hcount haff hfits
      have hexec : exec (.memMigrate r) s = .next (settled s (memMigrate (begun p b) b (admitted p b c s.dev))) := by
        rw [exec_memMigrate, execMemMigrate, run_admits h]
      refine ⟨hexec.trans (congrArg _ (congrArg _ hwalk)), fun e hone hext hclosed => ?_⟩
      have hlist : (List.range 1).map (field b 4 2 + ·) = [field b 4 2] := rfl
      rw [hexec, hwalk, hone, hlist]
      refine ⟨fun hup hstate hmounted => ?_, fun hdown hstate hflag => ?_, fun x hpromote hstate hflag hsize hroom => ?_⟩
      · rw [hup, begun_tenant, migWalk_toHost hfind hext hstate hclosed hmounted]
      · rw [hdown, begun_tenant, migWalk_evicts hfind hext hstate hclosed hflag]
      · rw [hpromote, begun_tenant, migWalk_promotes hfind hext hstate hclosed hflag hsize hroom]
    · rw [exec_memFlush, execMemFlush, run_admits h, memFlush_found (p := begun p b) hbuf]
      rfl
    · refine ⟨fun h hroom => ⟨fun hstate => ?_, fun hstate => ?_⟩, fun h hhere hopen => ?_, fun h => ⟨fun hstate => ?_, fun hstate => ?_⟩,
        fun h => ?_⟩
      · rw [exec_memOpen, execMemOpen, run_admits h, memOpen_device (p := begun p b) hbuf hext hroom hstate]
        rfl
      · rw [exec_memOpen, execMemOpen, run_admits h, memOpen_moving (p := begun p b) hbuf hext hstate]
      · rw [exec_memClose, execMemClose, run_admits h, memClose_open (p := begun p b) hbuf hext hhere hopen]
        rfl
      · rw [exec_memSettle, execMemSettle, run_settled, runOp_admits h, memSettle_outbound (p := begun p b) hbuf hext hstate]
        rfl
      · rw [exec_memSettle, execMemSettle, run_settled, runOp_admits h, memSettle_inbound (p := begun p b) hbuf hext hstate]
        rfl
      · rw [exec_memQuery, execMemQuery, run_admits h, memQuery_found (p := begun p b) hbuf hext]
        exact ⟨_, rfl, extentReport_length .., rfl, rfl, rfl, rfl, rfl, rfl, extentReport_shut⟩
  · rintro ss sb ds db n h rfl hsource hdest hpos hburst hwhole hbound hsfits hdfits hapart hmount hshere hdhere hreads
    have hok : CopyOk p.hdr.tenant.toNat b (admitted p b c s.dev) ss sb ds db :=
      ⟨hsource, hdest, hpos, hburst, hwhole, hbound, hsfits, hdfits, hapart, hmount, hshere, hdhere⟩
    have hexec : exec (.memCopy r) s = .next (settled s (memCopy (begun p b) b (admitted p b c s.dev))) := by
      rw [exec_memCopy, execMemCopy, run_admits h]
    rw [hexec, memCopy_starts (p := begun p b) hok hreads]
    refine ⟨fun x hx => mem_copyBursts hbound hx, fun hnear => ?_, fun hfar => ?_⟩
    · rw [startCopy_near hnear]
      rfl
    · rw [startCopy_far hfar]
      rfl
  · intro pt h hpart
    rw [exec_memArenaInfo, execMemArenaInfo, run_admits h, memArenaInfo_formed (p := begun p b) hpart]
    rfl

end Sys2Proof.Machine
end

section
/-! PROOFS. The stream engine: arbitration, window fetches, the ends of transfers, deadline misses and the sums of ATOMIC tensors (R200,
R206 to R219). -/

namespace Sys2Proof.Machine

/-! ### Arbitration (R216) -/

theorem arbOf_onArb (n : Nat) (f : ArbPoint → ArbPoint) (d : Device) : arbOf (onArb n f d) n = f (arbOf d n) := by
  rw [arbOf, onArb, SMap.get_modify, if_pos rfl, arbOf]

/-- The order of grants: the smaller latest-service time, then the lower requester (R216 rule 2). -/
def ServedBefore (r x : ArbReq) : Prop := r.lst < x.lst ∨ r.lst = x.lst ∧ r.who ≤ x.who

theorem arbBefore_iff {r x : ArbReq} : arbBefore r x = true ↔ ServedBefore r x := by
  simp only [arbBefore, Bool.or_eq_true, Bool.and_eq_true, decide_eq_true_eq, ServedBefore]

theorem ServedBefore.trans {r x y : ArbReq} (h : ServedBefore r x) (k : ServedBefore x y) : ServedBefore r y := by
  unfold ServedBefore at *
  omega

theorem ServedBefore.of_not {r x : ArbReq} (h : ¬ServedBefore r x) : ServedBefore x r := by
  unfold ServedBefore at *
  omega

theorem ServedBefore.refl (r : ArbReq) : ServedBefore r r := .inr ⟨rfl, le_refl _⟩

/-- The request granted next is one of those that wait, and none of them comes before it. -/
theorem nextReq_first {l : List ArbReq} (h : l ≠ []) : ∃ r, nextReq l = some r ∧ r ∈ l ∧ ∀ x ∈ l, ServedBefore r x := by
  induction l with
  | nil => exact absurd rfl h
  | cons r rs ih =>
    by_cases hrs : rs = []
    · subst hrs
      exact ⟨r, rfl, List.mem_cons_self .., fun x hx => by rw [List.mem_singleton.mp hx]; exact .refl r⟩
    · obtain ⟨x, hnext, hmem, hfirst⟩ := ih hrs
      by_cases hr : ServedBefore r x
      · refine ⟨r, by rw [nextReq, hnext]; exact congrArg some (if_pos (arbBefore_iff.mpr hr)), List.mem_cons_self .., fun y hy => ?_⟩
        rcases List.mem_cons.mp hy with rfl | hy
        · exact .refl _
        · exact hr.trans (hfirst y hy)
      · refine ⟨x, by rw [nextReq, hnext]; exact congrArg some (if_neg (mt arbBefore_iff.mp hr)),
          List.mem_cons_of_mem _ hmem, fun y hy => ?_⟩
        rcases List.mem_cons.mp hy with rfl | hy
        · exact .of_not hr
        · exact hfirst y hy

theorem execArbiterGrant_open {pt : BitVec 6} {s : State} {r : ArbReq} (halive : coreAlive s.dev = true)
    (hfree : (arbOf s.dev pt.toNat).owner = none) (hnext : nextReq (arbOf s.dev pt.toNat).waiting = some r)
    (hopen : pointOpen s.dev pt.toNat = true) : execArbiterGrant pt s = .next (settled s (onArb pt.toNat (fun a =>
      { a with owner := some r, waiting := dropReq r a.waiting, grants := a.grants + 1 }) s.dev)) := by
  simp only [execArbiterGrant, run_settled, hfree, hnext, halive, hopen, and_self, if_true]

section
variable {n : Nat} {x o : ArbReq} {d : Device} (howner : (arbOf d n).owner = some o)
include howner

theorem raiseReq_preempts (hless : x.lst < o.lst) (hother : x.who ≠ o.who) : arbOf (raiseReq n x d) n = { arbOf d n with
    owner := some x, waiting := o :: (arbOf d n).waiting, grants := (arbOf d n).grants + 1, preempts := (arbOf d n).preempts + 1 } := by
  rw [raiseReq, arbOf_onArb, howner]
  exact if_pos ⟨hless, hother⟩

theorem raiseReq_waits (hkeeps : o.lst ≤ x.lst ∨ x.who = o.who) :
    arbOf (raiseReq n x d) n = { arbOf d n with waiting := (arbOf d n).waiting ++ [x] } := by
  have hnot : ¬(x.lst < o.lst ∧ x.who ≠ o.who) := by omega
  rw [raiseReq, arbOf_onArb, howner]
  exact (if_neg hnot).trans (by rw [← howner])

end

/-! ### Window fetches (R206) -/

theorem foldl_min_le (l : List Nat) (m : Nat) : l.foldl min m ≤ m := by
  induction l generalizing m with
  | nil => exact le_refl m
  | cons x l ih => exact (ih _).trans (Nat.min_le_left ..)

/-- The layer fetched next is one that the step has yet to run, at most two ahead, and has no slot on the tile. -/
theorem nextFetch_some {d : Device} {tn : Byte} {jid : W32} {j : Job} {st : StepRun} {k o l : Nat}
    (h : nextFetch d tn jid j st k o = some l) :
    st.layer ≤ l ∧ l < st.total ∧ l ≤ st.layer + 2 ∧
      ∀ w ∈ d.mem.windows, w.tenant = tn → w.job = jid → w.tile = k → w.layer ≠ l := by
  unfold nextFetch at h
  dsimp only at h
  split at h
  · next m hfind =>
    split at h
    · next hroom =>
      cases h
      have hrange := List.mem_range'_1.mp (List.mem_of_find?_eq_some hfind)
      have hcur := foldl_min_le
        ((d.mem.windows.filter fun w => w.tenant == tn && w.job == jid && w.tile == k).map (·.layer)) st.layer
      refine ⟨hrange.1, by omega, by omega, fun w hw ht hj hk hl => ?_⟩
      have hmine : w ∈ d.mem.windows.filter fun w => w.tenant == tn && w.job == jid && w.tile == k :=
        List.mem_filter.mpr ⟨hw, by simp [ht, hj, hk]⟩
      have hnew := List.find?_some hfind
      simp only [Bool.and_eq_true, Bool.not_eq_true', List.any_eq_false] at hnew
      exact hnew.2 w hmine (beq_iff_eq.mpr hl)
    · cases h
  · cases h

section
variable {tn : Byte} {jid : W32} {k : Tile} {s : State} {j : Job} {st : StepRun} {o : Nat} (halive : coreAlive s.dev = true)
  (hjob : jobOf s.dev tn jid = some j) (hstep : j.step = some st) (htile : (tilesOf j.tiles).idxOf? k.toNat = some o)
include halive hjob hstep htile

theorem execWindowFetch_resumes {w : WinSlot}
    (hheld : (s.dev.mem.windows.find? fun w => w.tenant == tn && w.job == jid && w.tile == k.toNat && w.onHost) = some w) :
    execWindowFetch tn jid k s = .next (settled s (fetchLayer tn jid j st w o s.dev)) := by
  simp only [execWindowFetch, run_settled, hjob, hstep, htile, halive, hheld, Bool.not_true, Bool.false_eq_true, if_false]

theorem execWindowFetch_opens {l : Nat}
    (hheld : (s.dev.mem.windows.find? fun w => w.tenant == tn && w.job == jid && w.tile == k.toNat && w.onHost) = none)
    (hnext : nextFetch s.dev tn jid j st k.toNat o = some l) :
    let w : WinSlot := { serial := s.dev.mem.serial, tenant := tn, job := jid, tile := k.toNat, layer := l, left := 0, onHost := true }
    execWindowFetch tn jid k s = .next (settled s (fetchLayer tn jid j st w o { s.dev with mem := { s.dev.mem with
      windows := s.dev.mem.windows ++ [w], serial := s.dev.mem.serial + 1 } })) := by
  simp only [execWindowFetch, run_settled, hjob, hstep, htile, halive, hheld, hnext, Bool.not_true, Bool.false_eq_true, if_false]

end

/-! ### The ends of transfers (R200, R208, R216, R221, R232, R449) -/

/-- A transfer from DRAM lands with the class of its read: a block known to be bad makes it Uncorrectable (R449). -/
theorem execTransferEnd_lands {pt : BitVec 6} {ecc : EccClass} {s : State} {r : ArbReq} (halive : coreAlive s.dev = true)
    (howner : (arbOf s.dev pt.toNat).owner = some r) (hdram : ∀ die, r.load ≠ .flash die) : execTransferEnd pt ecc s = .next (settled s
      (landed r ((if (badIn s.dev r.addr r.len).isSome then EccClass.uncorrectable else ecc) == .uncorrectable)
        (dramRead ((badIn s.dev r.addr r.len).getD (blockAt r.addr)) srcStream
          (if (badIn s.dev r.addr r.len).isSome then .uncorrectable else ecc)
          (onArb pt.toNat (fun a => { a with owner := none }) s.dev)))) := by
  simp only [execTransferEnd, run_settled, howner, halive, Bool.not_true, Bool.false_or, Bool.false_eq_true, if_false]

section
variable {r : ArbReq} {bad : Bool} {d : Device} {n k i : Nat}

/-- A window's slot once one of its pieces has come. -/
def pieceCame (r : ArbReq) (n k i : Nat) (d : Device) : Device :=
  onWin n (fun w => { w with
    left := w.left - 1
    blocks := w.blocks.modify k fun f => { f with parts := f.parts.modify i fun y => (y.1, y.2.1, some (fabRead d r.addr r.len)) } }) d

theorem landWindow_gone (hgone : (d.mem.windows.any fun w => w.serial == n) = false) : landWindow r n k i bad d = d := by
  simp only [landWindow, hgone, Bool.not_false, if_true]

theorem landWindow_bad (hslot : (d.mem.windows.any fun w => w.serial == n) = true) :
    landWindow r n k i true d = failStep r.tenant r.job stInternal (pieceCame r n k i d) := by
  simp only [landWindow, hslot, Bool.not_true, Bool.false_eq_true, if_false, if_true, pieceCame]

/-- A good piece: nothing more while its block is not whole, and then the block is placed or fails. -/
theorem landWindow_good {f : BlockFetch} (hslot : (d.mem.windows.any fun w => w.serial == n) = true)
    (hblock : (((pieceCame r n k i d).mem.windows.find? fun w => w.serial == n).bind fun w => w.blocks[k]?) = some f) :
    landWindow r n k i false d =
      if f.whole = false then pieceCame r n k i d
      else if (placeBlock r.who f (pieceCame r n k i d)).1 = true then slotCheck r.tenant r.job (placeBlock r.who f (pieceCame r n k i d)).2
      else failStep r.tenant r.job stCodecError (placeBlock r.who f (pieceCame r n k i d)).2 := by
  rw [landWindow, hslot]
  simp only [Bool.not_true, Bool.false_eq_true, if_false]
  change (match ((pieceCame r n k i d).mem.windows.find? fun w => w.serial == n).bind fun w => w.blocks[k]? with
    | some f => _
    | none => _) = _
  rw [hblock]
  dsimp only
  cases f.whole <;> rfl

end

section
variable {r : ArbReq} {ref : Ref} {slot off : Nat} {p : Packet} {b : Buffer} {d : Device} (hpacket : findPacket d ref = some p)
  (hbuf : Assoc.find (arenaOf d r.tenant.toNat).bufs slot = some b)
include hpacket hbuf

theorem landCopy_bad : landCopy r ref slot off true d = failTransfers p d := by
  simp only [landCopy, hpacket, hbuf, if_true]

theorem landCopy_good (hhere : hostHeld b off r.len = false) : landCopy r ref slot off false d =
    endOne ref complete (bufWrite r.tenant.toNat slot b off (fabRead d r.addr r.len) (dropHold (.packet ref) d)) := by
  simp only [landCopy, hpacket, hbuf, hhere, Bool.false_eq_true, if_false]

end

theorem landPromotion_good {r : ArbReq} {slot i k : Nat} {b : Buffer} {e : Extent} {d : Device}
    (hbuf : Assoc.find (arenaOf d r.tenant.toNat).bufs slot = some b) (hext : extentOf d r.tenant.toNat slot i = some e)
    (hstate : e.state = .promoting) : landPromotion r slot b.gen i k false d =
      if (k + 1) * 4096 < e.size then readBlock r.who r.tenant.toNat slot b.gen i (k + 1) e d else d := by
  simp only [landPromotion, hbuf, hext, hstate, ne_eq, not_true_eq_false, or_self, Bool.false_eq_true, if_false]

/-! ### Deadline misses (R210 to R213) -/

theorem jobOf_congr {d e : Device} (h : e.serve.jobs = d.serve.jobs) (tn : Byte) (jid : W32) : jobOf e tn jid = jobOf d tn jid := by
  rw [jobOf, h, jobOf]

theorem jobOf_onJob (tn : Byte) (jid : W32) (f : Job → Job) (d : Device) : jobOf (onJob tn jid f d) tn jid = (jobOf d tn jid).map f := by
  rw [jobOf, onJob, Assoc.find_adjust, if_pos rfl, jobOf]

/-- Only arenas, bytes and DRAM channels may differ. -/
structure ArenaWork (d e : Device) : Prop where
  eq : e = { d with mem := { d.mem with arenas := e.mem.arenas }, fab := e.fab, dram := e.dram }

theorem ArenaWork.refl (d : Device) : ArenaWork d d := ⟨rfl⟩

theorem ArenaWork.trans {a b c : Device} (h : ArenaWork a b) (k : ArenaWork b c) : ArenaWork a c := by
  have hb := h.eq
  have hc := k.eq
  rw [hb] at hc
  exact ⟨hc⟩

theorem ArenaWork.foldl {α : Type} (f : Device → α → Device) (h : ∀ d x, ArenaWork d (f d x)) (l : List α) (d : Device) :
    ArenaWork d (l.foldl f d) := by
  induction l generalizing d with
  | nil => exact .refl d
  | cons x l ih => exact (h d x).trans (ih _)

theorem fabWrite_arenaWork (a : Nat) (bs : List Byte) (d : Device) : ArenaWork d (fabWrite a bs d) := by rw [fabWrite_frame]; exact ⟨rfl⟩

theorem onExtent_arenaWork (t slot i : Nat) (f : Extent → Extent) (d : Device) : ArenaWork d (onExtent t slot i f d) := ⟨rfl⟩

theorem storePut_arenaWork (t off : Nat) (bs : List Byte) (d : Device) : ArenaWork d (storePut t off bs d) := by
  unfold storePut
  split
  · exact ⟨rfl⟩
  · exact .refl d

theorem extWrite_arenaWork (t slot i off : Nat) (bs : List Byte) (d : Device) : ArenaWork d (extWrite t slot i off bs d) := by
  unfold extWrite
  split
  · exact .refl d
  · next e _ =>
    have hput : ∀ (a : Option Nat) d, ArenaWork d (match a with | some h => fabWrite (h + off) bs d | none => d) := by
      intro a d
      cases a with
      | none => exact .refl d
      | some h => exact fabWrite_arenaWork ..
    dsimp only
    split
    case h_4 => exact hput e.copy d
    case h_5 => exact (hput e.copy d).trans (onExtent_arenaWork ..)
    case h_6 => exact (hput e.copy d).trans (hput e.home _)
    case h_1 | h_2 | h_3 => exact hput e.home d
    case h_7 | h_8 | h_9 => exact .refl d

theorem bufWrite_arenaWork (t slot : Nat) (b : Buffer) (off : Nat) (bs : List Byte) (d : Device) :
    ArenaWork d (bufWrite t slot b off bs d) :=
  .foldl _ (fun _ _ => extWrite_arenaWork ..) _ d

theorem touch_arenaWork (t slot : Nat) (b : Buffer) (off n : Nat) (d : Device) : ArenaWork d (touch t slot b off n d) :=
  .foldl _ (fun _ _ => onExtent_arenaWork ..) _ d

theorem outWrite_arenaWork (r : Request) (off : Nat) (bs : List Byte) (d : Device) : ArenaWork d (outWrite r off bs d) := by
  unfold outWrite
  split
  · split
    · exact .refl d
    · exact (bufWrite_arenaWork ..).trans (touch_arenaWork ..)
  · exact .refl d

/-- What a skip keeps of the jobs and of the count of skips, up to its own changes. -/
structure SkipKept (d e : Device) : Prop where
  jobs : e.serve.jobs = d.serve.jobs
  skips : e.mem.skipCount = d.mem.skipCount

theorem SkipKept.trans {a b c : Device} (h : SkipKept a b) (k : SkipKept b c) : SkipKept a c := ⟨k.jobs.trans h.jobs, k.skips.trans h.skips⟩

theorem SkipKept.foldl {α : Type} (f : Device → α → Device) (h : ∀ d x, SkipKept d (f d x)) (l : List α) (d : Device) :
    SkipKept d (l.foldl f d) := by
  induction l generalizing d with
  | nil => exact ⟨rfl, rfl⟩
  | cons x l ih => exact (h d x).trans (ih _)

theorem ArenaWork.skipKept {d e : Device} (h : ArenaWork d e) : SkipKept d e := by
  rw [h.eq]
  exact ⟨rfl, rfl⟩

theorem onArena_kept (t : Nat) (f : Arena → Arena) (d : Device) : SkipKept d (onArena t f d) := ⟨rfl, rfl⟩

theorem noteSkip_kept (n : Nat) (ref : Ref) (d : Device) : SkipKept d (noteSkip n ref d) := by
  unfold noteSkip
  dsimp only
  split
  · refine SkipKept.trans ?_ (outWrite_arenaWork ..).skipKept
    exact ⟨rfl, rfl⟩
  · exact ⟨rfl, rfl⟩

theorem passThrough_kept (j : Job) (st : StepRun) (n : Nat) (d : Device) : SkipKept d (passThrough j st n d) := by
  unfold passThrough
  dsimp only
  split
  · exact .foldl _ (fun d _ => .foldl _ (fun d _ => ((storePut_arenaWork ..).trans (storePut_arenaWork ..)).skipKept) _ d) _ d
  · exact ⟨rfl, rfl⟩

/-- A stage on another device is sent its work, and nothing but the messages that wait changes (R357). -/
theorem dispatchStage_frame (tn : Byte) (jid : W32) (d : Device) :
    dispatchStage tn jid d = { d with link := (dispatchStage tn jid d).link } := by
  have hsends : ∀ (f : Activation → OutMsg) (l : List Activation) (d : Device),
      l.foldl (fun d x => sendMsg (f x) d) d = { d with link := (l.foldl (fun d x => sendMsg (f x) d) d).link } := by
    intro f l
    induction l with
    | nil => exact fun d => rfl
    | cons x l ih => intro d; rw [List.foldl_cons, ih]; rfl
  unfold dispatchStage
  split
  · rfl
  · split
    · rfl
    · dsimp only
      split
      · split
        · rfl
        · rw [sendMsg_frame, hsends]
      · rfl

section
variable {tn : Byte} {jid : W32} {j : Job} {st : StepRun} {d : Device}

/-- The device of a skip before the step goes on: the rows have passed through, and the skip is counted and noted. -/
def skipNoted (tn : Byte) (j : Job) (st : StepRun) (d : Device) : Device :=
  (st.rows.filter fun x => !x.gone).foldl (fun d x => noteSkip (ownLayer st st.layer).2 x.ref d)
    (onArena tn.toNat (fun a => { a with skips := satAdd32 a.skips 1 })
      (passThrough j st (ownLayer st st.layer).2 { d with mem := { d.mem with skipCount := d.mem.skipCount + 1 } }))

theorem skipNoted_kept : SkipKept { d with mem := { d.mem with skipCount := d.mem.skipCount + 1 } } (skipNoted tn j st d) :=
  ((passThrough_kept ..).trans (onArena_kept ..)).trans (.foldl _ (fun _ _ => noteSkip_kept ..) _ _)

theorem skipLayer_eq : skipLayer tn jid j st d = dispatchStage tn jid (onJob tn jid (fun j => { j with step := j.step.map fun x =>
    { x with layer := st.layer + 1, skipped := x.skipped ++ [st.layer] } }) (skipNoted tn j st d)) := rfl

theorem skipLayer_skipCount : (skipLayer tn jid j st d).mem.skipCount = d.mem.skipCount + 1 := by
  rw [skipLayer_eq, dispatchStage_frame]
  exact skipNoted_kept.skips

theorem skipLayer_step (hjob : jobOf d tn jid = some j) (hstep : j.step = some st) :
    (jobOf (skipLayer tn jid j st d) tn jid).bind (·.step) =
    some { st with layer := st.layer + 1, skipped := st.skipped ++ [st.layer] } := by
  have hkept : jobOf (skipNoted tn j st d) tn jid = some j := (jobOf_congr skipNoted_kept.jobs tn jid).trans hjob
  rw [skipLayer_eq, dispatchStage_frame]
  refine (congrArg (Option.bind · Job.step) (jobOf_onJob ..)).trans ?_
  rw [hkept, Option.map_some, Option.bind_some, hstep]
  rfl

/-- The device of a miss: WALL has come to the latest-service time, and the miss is counted. -/
def missed (tn : Byte) (lst : Nat) (d : Device) : Device :=
  let e := advance (lst - wallNow d) d
  onArena tn.toNat (fun a => { a with misses := satAdd32 a.misses 1 }) { e with mem := { e.mem with missCount := e.mem.missCount + 1 } }

theorem jobOf_missed (lst : Nat) : jobOf (missed tn lst d) tn jid = jobOf d tn jid := jobOf_congr (congrArg (·.jobs) (advance_serve _ d)) ..

theorem execLayerDeadlineMiss_late {s : State} (halive : coreAlive s.dev = true) (hjob : jobOf s.dev tn jid = some j)
    (hstep : j.step = some st)
    (hstage : s.dev.pwr.stage < 2) (hleft : st.layer < st.total) (hdue : st.dstep.isSome = true) (hfresh : st.parks.contains .layer = false)
    (hown : remoteStage s.dev j st st.layer = false) (hlate : isLate s.dev tn jid j st st.layer = true) :
    execLayerDeadlineMiss tn jid s = .next (settled s
      (if maySkip (missed tn (latestService s.dev j st st.layer) s.dev) tn j st st.layer && decide (st.loads = 0)
        then slotCheck tn jid (skipLayer tn jid j st (missed tn (latestService s.dev j st st.layer) s.dev))
        else parkStep tn jid .layer (missed tn (latestService s.dev j st st.layer) s.dev))) := by
  have hdue' : st.dstep.isNone = false := by rw [← Option.not_isSome, hdue]; rfl
  simp only [execLayerDeadlineMiss, run_settled, hjob, hstep, halive, hdue', hfresh, hown, hlate, Bool.not_true, Bool.or_false,
    Bool.false_or]
  rw [if_neg (by rw [decide_eq_false (by omega), decide_eq_false (by omega)]; exact Bool.false_ne_true)]
  rfl

end

/-! ### ATOMIC sums (R214) -/

theorem execAtomicPartialAdd_found {s : State} {k : Tile} {dest : W32} {row : List W32} {x : PartialRow} (halive : coreAlive s.dev = true)
    (hfind : (s.dev.mem.partials.find? fun x => x.tile == k.toNat && x.dest == dest.toNat && x.row == row) = some x) :
    let d := { s.dev with mem := { s.dev.mem with partials := s.dev.mem.partials.erase x } }
    execAtomicPartialAdd k dest row s = .next (settled s
      (if (jobOf d x.tenant x.job).any fun j => j.step.any fun st => st.serial == x.serial then
        addPartial x.tenant x.job k.toNat dest.toNat row d else d)) := by
  have hnamed := List.find?_some hfind
  simp only [Bool.and_eq_true, beq_iff_eq] at hnamed
  obtain ⟨⟨htile, hdest⟩, hrow⟩ := hnamed
  simp only [execAtomicPartialAdd, run_settled, hfind, halive, Bool.not_true, Bool.false_eq_true, if_false, htile, hdest, hrow]

/-! ### The obligation, part by part -/

/-- Settles O48: grants and pre-emption by the order of R216, fetches by the window's room, each end of a transfer by what it carries, a
miss by what R210 allows, and a partial row by the step it belongs to. -/
theorem streamEngine : Obligations.StreamEngine := by
  intro s halive
  refine ⟨fun pt hfree hwaits hopen => ?_, fun n x o d howner => ⟨fun hless hother => ?_, fun hkeeps => ?_⟩,
    fun tn jid k j st o hjob hstep htile => ⟨fun w hheld => ?_, fun l hheld hnext => ?_⟩, fun pt ecc r howner hdram => ?_,
    fun tn jid j st hjob hstep hstage hleft hdue hfresh hown hlate => ?_, fun k dest row x hfind => ?_⟩
  · obtain ⟨r, hnext, hmem, hfirst⟩ := nextReq_first hwaits
    exact ⟨r, hmem, hfirst, execArbiterGrant_open halive hfree hnext hopen⟩
  · rw [raiseReq_preempts howner hless hother]
    exact ⟨rfl, List.mem_cons_self .., rfl⟩
  · rw [raiseReq_waits howner hkeeps]
    exact ⟨howner, List.mem_append_right _ (List.mem_singleton.mpr rfl)⟩
  · exact execWindowFetch_resumes halive hjob hstep htile hheld
  · obtain ⟨hfrom, hto, hahead, hnew⟩ := nextFetch_some hnext
    exact ⟨hfrom, hto, hahead, hnew, execWindowFetch_opens halive hjob hstep htile hheld hnext⟩
  · refine ⟨execTransferEnd_lands halive howner hdram, fun n k i hload =>
        ⟨fun hgone => ?_, fun hslot => ⟨fun hbad => ?_, fun f hgood hblock => ?_⟩⟩,
      fun ref slot off p b hload hpacket hbuf => ⟨fun hbad => ?_, fun hgood hhere => ?_⟩,
      fun slot gen i k b e hload hbuf hext hgen hstate hgood => ?_⟩
    all_goals rw [landed, hload]
    · exact landWindow_gone hgone
    · rw [hbad]
      exact landWindow_bad hslot
    · rw [hgood]
      have hland := landWindow_good hslot hblock
      exact ⟨fun hpart => hland.trans (if_pos hpart),
        fun hwhole hok => hland.trans ((if_neg (ne_false_of_eq_true hwhole)).trans (if_pos hok)),
        fun hwhole hfail => hland.trans ((if_neg (ne_false_of_eq_true hwhole)).trans (if_neg (ne_true_of_eq_false hfail)))⟩
    · rw [hbad]
      exact landCopy_bad hpacket hbuf
    · rw [hgood]
      exact landCopy_good hpacket hbuf hhere
    · rw [hgood, ← hgen]
      exact landPromotion_good hbuf hext hstate
  · have hexec := execLayerDeadlineMiss_late halive hjob hstep hstage hleft hdue hfresh hown hlate
    refine ⟨fun hkeep => hexec.trans ?_, fun hskip hloads =>
      ⟨hexec.trans ?_, skipLayer_skipCount, skipLayer_step ((jobOf_missed _).trans hjob) hstep⟩⟩
    · refine congrArg (fun u => Host.Outcome.next (settled s u)) (if_neg fun hboth => ?_)
      obtain ⟨hskip, hloads⟩ := Bool.and_eq_true_iff.mp hboth
      rcases hkeep with hno | hsome
      · exact Bool.false_ne_true (hno.symm.trans hskip)
      · exact hsome (of_decide_eq_true hloads)
    · exact congrArg (fun u => Host.Outcome.next (settled s u)) (if_pos (Bool.and_eq_true_iff.mpr ⟨hskip, decide_eq_true hloads⟩))
  · exact execAtomicPartialAdd_found halive hfind

end Sys2Proof.Machine
end

section
/-! PROOFS. The steps of a job: their start, the queueing of their layers, their COMMIT and the acceptance of draft tokens (R202, R207,
R263, R266, R286, R287, R297, R331). -/

namespace Sys2Proof.Machine

/-! ### The start of a step (R286) and the limit of a park (R263) -/

/-- Whether a job runs a step does not rest on the place that the round robin has come to. -/
theorem hasStep_tryStart (x : Nat × Nat × Job) (d : Device) : hasStep x (tryStart x d) =
    hasStep x (startStep (BitVec.ofNat 8 (x.2.1 / 2 ^ 32)) (BitVec.ofNat 32 x.2.1) x.2.2 d) := by
  unfold tryStart
  dsimp only
  split <;> rfl

theorem startFirst_starts {x : Nat × Nat × Job} (rest : List (Nat × Nat × Job)) {d : Device} (hruns : hasStep x (tryStart x d) = true) :
    startFirst (x :: rest) d = tryStart x d := if_pos hruns

theorem startFirst_passes {x : Nat × Nat × Job} (rest : List (Nat × Nat × Job)) {d : Device} (hidle : hasStep x (tryStart x d) = false) :
    startFirst (x :: rest) d = startFirst rest (tryStart x d) := if_neg (ne_true_of_eq_false hidle)

/-- A job that has no step after all leaves the round robin where it was. -/
theorem tryStart_idle {x : Nat × Nat × Job} {d : Device}
    (hidle : hasStep x (startStep (BitVec.ofNat 8 (x.2.1 / 2 ^ 32)) (BitVec.ofNat 32 x.2.1) x.2.2 d) = false) :
    tryStart x d = startStep (BitVec.ofNat 8 (x.2.1 / 2 ^ 32)) (BitVec.ofNat 32 x.2.1) x.2.2 d :=
  if_neg fun h => Bool.false_ne_true (hidle.symm.trans h.2)

theorem execStepStart_open {m : W32} {s : State} (hopen : stepsOpen s.dev = true) : execStepStart m s =
    .next (settled s (startFirst (startOrder (holdJobs m (offerPools m s.dev)) m) (holdJobs m (offerPools m s.dev)))) := by
  simp only [execStepStart, run_settled, hopen, Bool.not_true, Bool.false_eq_true, if_false]

theorem execParkLimitExpiry_parked {tn : Byte} {tag : W16} {s : State} {ref : Ref} {x : Request} {sq : Seq}
    (hfind : (s.dev.serve.reqs.find? fun x => x.1.tag == tag && x.2.tenant == tn.toNat) = some (ref, x))
    (hseq : seqOf s.dev x.seq = some sq) (hstate : x.state = 4) (hparked : sq.parked.isSome = true) (hready : isReady s.dev = true) :
    let d := endRequest ref stKvExhausted (advanceTo (sq.parked.getD 0 + x.parkMs * 1000000) s.dev)
    let e : StagedEdit := { ref := none, tenant := x.tenant, skein := sq.skein, edit := .release x.seq }
    execParkLimitExpiry tn tag s = .next (settled s
      (if skeinRuns d x.tenant sq.skein then { d with serve := { d.serve with edits := d.serve.edits ++ [e] } } else applyEdit e d)) := by
  have hcond : (x.state == 4 && sq.parked.isSome) = true := by rw [hstate, hparked]; rfl
  have hkept : (seqOf s.dev x.seq).filter (fun q => x.state == 4 && q.parked.isSome) = some sq := by
    rw [hseq, Option.filter_some, if_pos hcond]
  simp only [execParkLimitExpiry, run_settled, hfind, hkept, hready, Bool.not_true, Bool.false_eq_true, if_false]

/-! ### The course of a layer (R207, R266) -/

section
variable {tn : Byte} {jid : W32} {j : Job} {st : StepRun} {lists : List ListSpec} {d : Device}

theorem layerQueue_goes (hjob : jobOf d tn jid = some j) (hstep : j.step = some st) (hready : isReady d = true)
    (htwin : st.awaitTwin = false) (hparks : st.parks = []) (hleft : st.layer < st.total) (hhere : remoteStage d j st st.layer = false)
    (hslots : slotsReady d tn jid j st st.layer = true) (hloads : st.loads = 0) : layerQueue tn jid lists d =
      if st.phase = 0 ∨ st.phase = 3 then queueLayer tn jid j st lists d
      else if st.phase = 1 then (if layerClear d tn jid j st.layer then startWalks tn jid d else d)
      else runWalks tn jid d := by
  have hopen : decide (st.total ≤ st.layer) = false := decide_eq_false (Nat.not_le.mpr hleft)
  have hidle : decide (st.loads ≠ 0) = false := decide_eq_false (not_not_intro hloads)
  simp only [layerQueue, hjob, hstep, hready, htwin, hparks, hopen, hhere, hslots, hidle, List.isEmpty_nil, Bool.not_true, Bool.or_self,
    Bool.false_eq_true, if_false]

theorem execLayerQueue_of {s : State} {u : Device} (h : layerQueue tn jid lists s.dev = u) :
    execLayerQueue tn jid lists s = .next (settled s u) := by rw [execLayerQueue, run_settled, h]

/-- The lists of a call that lie on the job's tiles. -/
def listsOn (j : Job) (lists : List ListSpec) : List ListSpec := lists.filter fun q => j.tiles.getLsbD q.tile.toNat

/-- The spill extents that are stored are written. -/
def storeSpills (tn : Byte) (j : Job) (xs : List (Nat × SpillSpec)) (d : Device) : Device :=
  xs.foldl (fun d x => if x.2.load then d else spillStore tn x.1 j x.2 d) d

/-- The spill extents that are loaded are read back. -/
def loadSpills (tn : Byte) (j : Job) (xs : List (Nat × SpillSpec)) (d : Device) : Device :=
  xs.foldl (fun d x => if x.2.load then spillLoad tn x.1 j x.2 d else d) d

/-- The loads that have not been raised yet. -/
def freshLoads (st : StepRun) (xs : List (Nat × SpillSpec)) : List (Nat × SpillSpec) :=
  xs.filter fun x => x.2.load && !st.spillsIn.contains x.2

theorem loadSpills_none {xs : List (Nat × SpillSpec)} (h : ∀ x ∈ xs, x.2.load = false) : loadSpills tn j xs d = d := by
  unfold loadSpills
  induction xs with
  | nil => rfl
  | cons x xs ih =>
    rw [List.foldl_cons, h x (List.mem_cons_self ..), if_neg Bool.false_ne_true]
    exact ih fun y hy => h y (List.mem_cons_of_mem _ hy)

theorem freshLoads_eq_nil {xs : List (Nat × SpillSpec)} :
    freshLoads st xs = [] ↔ ∀ x ∈ xs, x.2.load = true → x.2 ∈ st.spillsIn := by
  simp only [freshLoads, List.filter_eq_nil_iff, Bool.and_eq_true, Bool.not_eq_true', not_and, Bool.not_eq_false, List.contains_iff_mem]

section
variable (hheld : spillHeld d tn j (spillsOf (listsOn j lists)) = [])
  (hclear : spillsOf (listsOn j lists) = [] ∨ ∀ l ∈ st.queued, layerClear d tn jid j l = true)
include hheld hclear

/-- Nothing holds the layer back: it goes by the loads that it has and those that are new. -/
theorem queueLayer_goes : queueLayer tn jid j st lists d =
    let xs := spillsOf (listsOn j lists)
    let d := dropHold (.step st.serial) d
    if (freshLoads st xs).isEmpty then
      queueLists tn jid j st (listsOn j lists) (loadSpills tn j xs (if xs.any (·.2.load) then d else storeSpills tn j xs d))
    else
      let d := storeSpills tn j xs d
      let reads := (freshLoads st xs).flatMap (spillReads d tn jid j st.serial (latestService d j st st.layer))
      raiseAll reads (onStep tn jid (fun y =>
        { y with spillsIn := y.spillsIn ++ (freshLoads st xs).map (·.2), loads := y.loads + reads.length }) d) := by
  have hwaits : (!(spillsOf (listsOn j lists)).isEmpty && !st.queued.all fun l => layerClear d tn jid j l) = false := by
    rcases hclear with hnone | hall
    · rw [hnone]; rfl
    · rw [List.all_eq_true.mpr hall]; exact Bool.and_false _
  have hfree : (!(spillHeld d tn j (spillsOf (listsOn j lists))).isEmpty) = false := by rw [hheld]; rfl
  exact (if_neg (ne_true_of_eq_false hwaits)).trans (if_neg (ne_true_of_eq_false hfree))

theorem queueLayer_stores (hstores : ∀ x ∈ spillsOf (listsOn j lists), x.2.load = false) : queueLayer tn jid j st lists d =
    queueLists tn jid j st (listsOn j lists) (storeSpills tn j (spillsOf (listsOn j lists)) (dropHold (.step st.serial) d)) := by
  have hfresh : freshLoads st (spillsOf (listsOn j lists)) = [] :=
    freshLoads_eq_nil.mpr fun x hx hload => absurd hload (ne_true_of_eq_false (hstores x hx))
  have hany : ((spillsOf (listsOn j lists)).any (·.2.load)) = false :=
    List.any_eq_false.mpr fun x hx => ne_true_of_eq_false (hstores x hx)
  rw [queueLayer_goes hheld hclear]
  dsimp only
  rw [hfresh, hany, loadSpills_none hstores]
  rfl

theorem queueLayer_reads (hfresh : freshLoads st (spillsOf (listsOn j lists)) ≠ []) :
    let xs := spillsOf (listsOn j lists)
    let stored := storeSpills tn j xs (dropHold (.step st.serial) d)
    let reads := (freshLoads st xs).flatMap (spillReads stored tn jid j st.serial (latestService stored j st st.layer))
    queueLayer tn jid j st lists d = raiseAll reads (onStep tn jid (fun y =>
      { y with spillsIn := y.spillsIn ++ (freshLoads st xs).map (·.2), loads := y.loads + reads.length }) stored) := by
  rw [queueLayer_goes hheld hclear]
  exact if_neg (mt List.isEmpty_iff.mp hfresh)

theorem queueLayer_loads (hloads : ∃ x ∈ spillsOf (listsOn j lists), x.2.load = true)
    (hread : ∀ x ∈ spillsOf (listsOn j lists), x.2.load = true → x.2 ∈ st.spillsIn) : queueLayer tn jid j st lists d =
    queueLists tn jid j st (listsOn j lists) (loadSpills tn j (spillsOf (listsOn j lists)) (dropHold (.step st.serial) d)) := by
  rw [queueLayer_goes hheld hclear]
  dsimp only
  rw [freshLoads_eq_nil.mpr hread, List.any_eq_true.mpr hloads]
  rfl

end

end

/-! ### The queueing of lists (R207, R331) -/

section
variable {tn : Byte} {jid : W32} {j : Job} {st : StepRun} {mine : List ListSpec} {d : Device}

/-- The lists of a layer stand in the queues of their tiles. -/
def listsQueued (tn : Byte) (jid : W32) (j : Job) (st : StepRun) (mine : List ListSpec) (d : Device) : Device :=
  mine.foldl (fun d q => queueList tn jid j.epoch st.layer (ownLayer st st.layer).1 (goneRows st (ownLayer st st.layer).1) q d) d

theorem listsQueued_frame : listsQueued tn jid j st mine d = { d with tiles := (listsQueued tn jid j st mine d).tiles } := by
  unfold listsQueued
  induction mine generalizing d with
  | nil => rfl
  | cons q mine ih => rw [List.foldl_cons, ih]; rfl

theorem jobOf_listsQueued : jobOf (listsQueued tn jid j st mine d) tn jid = jobOf d tn jid := by rw [listsQueued_frame]; rfl

theorem attnOf_listsQueued (l : Nat) : attnOf (listsQueued tn jid j st mine d) j st l = attnOf d j st l := by rw [listsQueued_frame]; rfl

/-- The step has gone on to the layer after the one whose lists are all queued, and its slots are released where that may be (R208). -/
def layerPassed (tn : Byte) (jid : W32) (j : Job) (l : Nat) (d : Device) : Device :=
  (tilesOf j.tiles).foldl (fun d k => releaseSlot k { addr := 0, origin := .skein, tenant := tn, job := jid, layer := l } d)
    (dispatchStage tn jid (onStep tn jid (fun st =>
      { st with layer := l + 1, queued := st.queued ++ [l], phase := 0, walks := [], homes := [], spillsIn := [] }) d))

theorem releaseSlots_frame (q : QList) (l : List Nat) (d : Device) : l.foldl (fun d k => releaseSlot k q d) d =
    { d with mem := { d.mem with windows := (l.foldl (fun d k => releaseSlot k q d) d).mem.windows } } := by
  induction l generalizing d with
  | nil => rfl
  | cons k l ih => rw [List.foldl_cons, ih, releaseSlot_frame]

theorem tileOf_layerPassed (l k : Nat) : tileOf (layerPassed tn jid j l d) k = tileOf d k := by
  rw [layerPassed, releaseSlots_frame, dispatchStage_frame]
  rfl

theorem layerPassed_serve (l : Nat) : (layerPassed tn jid j l d).serve = (onStep tn jid (fun st =>
    { st with layer := l + 1, queued := st.queued ++ [l], phase := 0, walks := [], homes := [], spillsIn := [] }) d).serve := by
  rw [layerPassed, releaseSlots_frame, dispatchStage_frame]

theorem stepOf_onJob (f : Job → Job) : (jobOf (onJob tn jid f d) tn jid).bind (·.step) = (jobOf d tn jid).bind fun x => (f x).step := by
  rw [jobOf_onJob]
  cases jobOf d tn jid <;> rfl

theorem stepOf_onStep (f : StepRun → StepRun) :
    (jobOf (onStep tn jid f d) tn jid).bind (·.step) = ((jobOf d tn jid).bind (·.step)).map f := by
  rw [onStep, stepOf_onJob]
  cases jobOf d tn jid <;> rfl

/-- The bytes of a layer's lists stand in the tile stores. -/
def listsPlaced (mine : List ListSpec) (d : Device) : Device := mine.foldl (fun d q => placeList q d) d

theorem jobOf_listsPlaced : jobOf (listsPlaced mine d) tn jid = jobOf d tn jid :=
  jobOf_congr (congrArg (·.jobs) (SameServe.foldl _ (fun d q => placeList_same q d) mine d).serve) ..

theorem queueLists_refuses (hknots : mine.all (listKnotsOk (listsPlaced mine d) tn) = false) :
    queueLists tn jid j st mine d = failStep tn jid stBadArgument (listsPlaced mine d) := if_pos (by rw [← listsPlaced, hknots]; rfl)

theorem queueLists_goes (hknots : mine.all (listKnotsOk (listsPlaced mine d) tn) = true) : queueLists tn jid j st mine d =
    if st.phase = 0 ∧ (attnOf (listsPlaced mine d) j st st.layer).isSome then
      onStep tn jid (fun st => { st with phase := 1 }) (listsQueued tn jid j st mine (listsPlaced mine d))
    else layerCheck tn jid (layerPassed tn jid j st.layer (listsQueued tn jid j st mine (listsPlaced mine d))) := by
  rw [← attnOf_listsQueued (tn := tn) (jid := jid) (mine := mine)]
  exact if_neg (by rw [← listsPlaced, hknots]; exact Bool.false_ne_true)

theorem tileOf_listsQueued (k : Nat) :
    (tileOf (listsQueued tn jid j st mine d) k).passes.map (·.addr) =
      (tileOf d k).passes.map (·.addr) ++ ((mine.filter fun q => q.tile.toNat == k && !q.vector).map (·.addr.toNat)) ∧
    (tileOf (listsQueued tn jid j st mine d) k).vecs.map (·.addr) =
      (tileOf d k).vecs.map (·.addr) ++ ((mine.filter fun q => q.tile.toNat == k && q.vector).map (·.addr.toNat)) :=
  (queueList_fold ..).2

/-- What the queueing leads to: the step waits for its projections or has gone on. -/
def afterQueue (tn : Byte) (jid : W32) (j : Job) (st : StepRun) (mine : List ListSpec) (d : Device) : Device :=
  let q := listsQueued tn jid j st mine d
  if st.phase = 0 ∧ (attnOf d j st st.layer).isSome then onStep tn jid (fun st => { st with phase := 1 }) q
  else layerPassed tn jid j st.layer q

theorem tileOf_afterQueue (k : Nat) : tileOf (afterQueue tn jid j st mine d) k = tileOf (listsQueued tn jid j st mine d) k := by
  unfold afterQueue
  dsimp only
  split
  · rfl
  · exact tileOf_layerPassed ..

section
variable (hrun : (jobOf d tn jid).bind (·.step) = some st) (hknots : mine.all (listKnotsOk (listsPlaced mine d) tn) = true)
include hrun hknots

theorem queueLists_attends (hphase : st.phase = 0) (hattn : (attnOf (listsPlaced mine d) j st st.layer).isSome = true) :
    let u := afterQueue tn jid j st mine (listsPlaced mine d)
    queueLists tn jid j st mine d = u ∧ (jobOf u tn jid).bind (·.step) = some { st with phase := 1 } := by
  have hafter : afterQueue tn jid j st mine (listsPlaced mine d) = _ := if_pos ⟨hphase, hattn⟩
  refine ⟨(queueLists_goes hknots).trans ((if_pos ⟨hphase, hattn⟩).trans hafter.symm), ?_⟩
  rw [hafter, stepOf_onStep, jobOf_listsQueued, jobOf_listsPlaced, hrun]
  rfl

theorem queueLists_passes (hlast : st.phase ≠ 0 ∨ (attnOf (listsPlaced mine d) j st st.layer).isSome = false) :
    let u := afterQueue tn jid j st mine (listsPlaced mine d)
    queueLists tn jid j st mine d = layerCheck tn jid u ∧ (jobOf u tn jid).bind (·.step) = some
      { st with layer := st.layer + 1, queued := st.queued ++ [st.layer], phase := 0, walks := [], homes := [], spillsIn := [] } := by
  have hnot : ¬(st.phase = 0 ∧ (attnOf (listsPlaced mine d) j st st.layer).isSome = true) := by
    rintro ⟨hphase, hattn⟩
    rcases hlast with h | h
    · exact h hphase
    · exact ne_true_of_eq_false h hattn
  have hafter : afterQueue tn jid j st mine (listsPlaced mine d) = _ := if_neg hnot
  refine ⟨(queueLists_goes hknots).trans ((if_neg hnot).trans (congrArg _ hafter.symm)), ?_⟩
  rw [hafter, jobOf_congr (congrArg (·.jobs) (layerPassed_serve ..)), stepOf_onStep, jobOf_listsQueued, jobOf_listsPlaced, hrun]
  rfl

end

end

/-! ### The end of a step: the edits of its boundary touch no job (R255, R258, R300) -/

/-- The jobs stand. -/
def JobsKept (d e : Device) : Prop := e.serve.jobs = d.serve.jobs

theorem JobsKept.refl (d : Device) : JobsKept d d := rfl

theorem JobsKept.trans {a b c : Device} (h : JobsKept a b) (k : JobsKept b c) : JobsKept a c := Eq.trans k h

theorem JobsKept.foldl {α : Type} (f : Device → α → Device) (h : ∀ d x, JobsKept d (f d x)) (l : List α) (d : Device) :
    JobsKept d (l.foldl f d) := by
  induction l generalizing d with
  | nil => exact .refl d
  | cons x l ih => exact (h d x).trans (ih _)

theorem JobsKept.ite {c : Prop} [Decidable c] {a b d : Device} (ha : JobsKept d a) (hb : JobsKept d b) :
    JobsKept d (if c then a else b) := by
  split
  · exact ha
  · exact hb

theorem onPage_jobs (t k : Nat) (f : PageInfo → PageInfo) (d : Device) : JobsKept d (onPage t k f d) := by
  unfold onPage
  rw [retireCheck_frame]
  exact .refl d

theorem onSeq_jobs (i : Nat) (f : Seq → Seq) (d : Device) : JobsKept d (onSeq i f d) := .refl d

theorem fabWrite_jobs (a : Nat) (bs : List Byte) (d : Device) : JobsKept d (fabWrite a bs d) := by
  rw [JobsKept, (fabWrite_same a bs d).serve]

theorem syncList_jobs (i : Nat) (d : Device) : JobsKept d (syncList i d) := by
  unfold syncList
  split
  · exact .refl d
  · exact .foldl _ (fun _ _ => fabWrite_jobs ..) _ d

theorem shrinkList_jobs (i : Nat) (d : Device) : JobsKept d (shrinkList i d) := by
  unfold shrinkList
  split
  · exact .refl d
  · exact (onSeq_jobs ..).trans (.foldl _ (fun _ _ => onPage_jobs ..) _ _)

theorem cutEntries_jobs (i keep : Nat) (d : Device) : JobsKept d (cutEntries i keep d) := by
  unfold cutEntries
  split
  · exact .refl d
  · exact (((onSeq_jobs ..).trans (.foldl _ (fun _ _ => onPage_jobs ..) _ _)).trans (shrinkList_jobs ..)).trans (syncList_jobs ..)

theorem takePage_jobs {t : Nat} {l : Bool} {d e : Device} {k : Nat} (h : takePage t l d = some (k, e)) : JobsKept d e := by
  unfold takePage at h
  dsimp only at h
  split at h
  · cases h
  · cases h
    exact .refl d

theorem growList_jobs (i n : Nat) (d : Device) : JobsKept d (growList i n d) := by
  induction n generalizing d with
  | zero => exact .refl d
  | succ n ih =>
    unfold growList
    split
    · exact .refl d
    · split
      · exact .refl d
      · split
        · next htake => exact ((takePage_jobs htake).trans (onSeq_jobs ..)).trans (ih _)
        · exact .refl d

theorem newSeq_jobs (t skein : Nat) (draft transient : Bool) (d : Device) : JobsKept d (newSeq t skein draft transient d).2 := .refl d

theorem addRef_jobs (t k : Nat) (d : Device) : JobsKept d (addRef t k d) := onPage_jobs ..

theorem forkOne_jobs (i p : Nat) (d : Device) : JobsKept d (forkOne i p d).2 := by
  unfold forkOne
  split
  · exact .refl d
  · dsimp only
    exact ((((newSeq_jobs ..).trans (.foldl _ (fun _ _ => addRef_jobs ..) _ _)).trans (onSeq_jobs ..)).trans (growList_jobs ..)).trans
      (syncList_jobs ..)

theorem forkPair_jobs (i p : Nat) (d : Device) : JobsKept d (forkPair i p d).2 := by
  unfold forkPair
  dsimp only
  split
  · exact ((forkOne_jobs ..).trans (forkOne_jobs ..)).trans (onSeq_jobs ..)
  · exact forkOne_jobs ..

theorem truncateOne_jobs (i p : Nat) (d : Device) : JobsKept d (truncateOne i p d) := by
  unfold truncateOne
  split
  · exact .refl d
  · exact ((onSeq_jobs ..).trans (cutEntries_jobs ..)).trans (onSeq_jobs ..)

theorem releaseSeq_jobs (i : Nat) (d : Device) : JobsKept d (releaseSeq i d) := cutEntries_jobs i 0 d

theorem releasePair_jobs (i : Nat) (d : Device) : JobsKept d (releasePair i d) := by
  unfold releasePair
  split
  · exact (releaseSeq_jobs ..).trans (releaseSeq_jobs ..)
  · exact releaseSeq_jobs ..

theorem answerEdit_jobs (r : Option Ref) (st : W16) (b : List Byte) (d : Device) : JobsKept d (answerEdit r st b d) := by
  unfold answerEdit
  split
  · exact congrArg (·.jobs) (finish_serve ..)
  · exact .refl d

theorem applyEdit_jobs (e : StagedEdit) (d : Device) : JobsKept d (applyEdit e d) := by
  unfold applyEdit
  split
  case h_1 src p =>
    split
    · exact answerEdit_jobs ..
    · exact .ite (answerEdit_jobs ..) ((forkPair_jobs ..).trans (answerEdit_jobs ..))
  case h_2 i p =>
    split
    · exact answerEdit_jobs ..
    · split
      · exact answerEdit_jobs ..
      · split
        · exact answerEdit_jobs ..
        · dsimp only
          split
          · exact ((truncateOne_jobs ..).trans (truncateOne_jobs ..)).trans (answerEdit_jobs ..)
          · exact (truncateOne_jobs ..).trans (answerEdit_jobs ..)
  case h_3 i =>
    split
    · exact answerEdit_jobs ..
    · split
      · exact answerEdit_jobs ..
      · exact (releasePair_jobs ..).trans (answerEdit_jobs ..)

theorem boundary_jobs (t skein : Nat) (d : Device) : JobsKept d (boundary t skein d) := by
  unfold boundary
  split
  · exact .refl d
  · exact .foldl _ (fun _ _ => applyEdit_jobs ..) _ _

section
variable (tn : Byte) (jid : W32) (d : Device)

theorem stepOf_dropStep : (jobOf (dropStep tn jid d) tn jid).bind (·.step) = none := by
  unfold dropStep
  split
  · next hjob => rw [hjob]; rfl
  · next j hjob =>
    split
    · next hstep => rw [hjob]; exact hstep
    · rw [jobOf_congr (boundary_jobs ..), stepOf_onJob]
      exact Option.bind_fun_none _

/-- Once a step has ended its job runs none (R115). -/
theorem stepOf_endStep : (jobOf (endStep tn jid d) tn jid).bind (·.step) = none := by
  unfold endStep
  split
  · next hidle => exact hidle
  · rw [stepOf_onJob]
    exact stepOf_dropStep ..

end

/-! ### COMMIT and draft acceptance (R287, R297) -/

/-- What the COMMIT of a step's rows makes: the ends it brings and the device, its step counted and ended. -/
def committed (tn : Byte) (jid : W32) (j : Job) (st : StepRun) (lg dr : List (List W32)) (rows : List (List Byte)) (d : Device) :
    List (Ref × Bool) × Device :=
  let x := commitAll j st.rows lg dr rows (st.rows.foldl (fun d x => dropHold (.request x.ref) d) d)
  (x.1, endStep tn jid (onJob tn jid (fun j => { j with stepNo := j.stepNo + 1 })
    (onPool tn.toNat (fun q => { q with steps := satAdd32 q.steps 1 })
      { x.2 with serve := { x.2.serve with stepCount := x.2.serve.stepCount + 1 } })))

theorem execStepSample_commits {tn : Byte} {jid : W32} {j : Job} {st : StepRun} {lg dr : List (List W32)} {rows : List (List Byte)}
    {s : State}
    (hjob : jobOf s.dev tn jid = some j) (hstep : j.step = some st) (hready : isReady s.dev = true) (htwin : st.awaitTwin = false)
    (hparks : st.parks = []) (hran : st.total ≤ st.layer) (hqueued : st.queued = [])
    (hfree : ∀ x ∈ st.rows, x.gone = false → ∀ y, reqOf s.dev x.ref = some y → ioHeld s.dev y = []) :
    let x := committed tn jid j st lg dr rows s.dev
    execStepSample tn jid lg dr rows s = .next (settled s (twinCommit tn jid st
      (abandonRest tn jid (x.1.map (·.1)) (x.1.foldl (fun d x => commitEnd x d) x.2)))) := by
  have hheld : ((st.rows.filter fun x => !x.gone).filter fun x => (reqOf s.dev x.ref).any fun r => !(ioHeld s.dev r).isEmpty) = [] := by
    refine List.filter_eq_nil_iff.mpr fun x hx => ?_
    obtain ⟨hrow, hin⟩ := List.mem_filter.mp hx
    cases hreq : reqOf s.dev x.ref with
    | none => exact Bool.false_ne_true
    | some y =>
      rw [Option.any_some, hfree x hrow (by simpa using hin) y hreq]
      exact Bool.false_ne_true
  have hdone : decide (st.layer < st.total) = false := decide_eq_false (Nat.not_lt.mpr hran)
  simp only [execStepSample, run_settled, hjob, hstep, hready, htwin, hparks, hdone, hqueued, hheld, List.isEmpty_nil, Bool.not_true,
    Bool.or_self, Bool.false_eq_true, if_false]
  rfl

/-- The accepted draft tokens agree with the main model's, and the first that is not accepted does not. -/
theorem agreeing_spec (a b : List W32) : a.take (agreeing a b) = b.take (agreeing a b) ∧
    (agreeing a b < a.length → agreeing a b < b.length → a[agreeing a b]? ≠ b[agreeing a b]?) := by
  induction a generalizing b with
  | nil => exact ⟨by simp [agreeing], fun h => absurd h (Nat.not_lt_zero _)⟩
  | cons x xs ih =>
    cases b with
    | nil => exact ⟨by simp [agreeing], fun _ h => absurd h (Nat.not_lt_zero _)⟩
    | cons y ys =>
      by_cases hxy : x = y
      · obtain ⟨hsame, hnext⟩ := ih ys
        have hcount : agreeing (x :: xs) (y :: ys) = agreeing xs ys + 1 := if_pos hxy
        rw [hcount]
        exact ⟨by rw [List.take_succ_cons, List.take_succ_cons, hxy, hsame],
          fun ha hb => hnext (Nat.lt_of_succ_lt_succ ha) (Nat.lt_of_succ_lt_succ hb)⟩
      · have hcount : agreeing (x :: xs) (y :: ys) = 0 := if_neg hxy
        rw [hcount]
        exact ⟨rfl, fun _ _ h => hxy (Option.some.inj h)⟩

/-! ### The obligation, part by part -/

/-- Settles O52: the scheduler's first job with rows, the course of a layer by its phase and its spill extents, the lists in the tiles'
queues, the COMMIT of a step that has run, and the tokens at the front on which draft and main agree. -/
theorem stepsRun : Obligations.StepsRun := by
  intro s
  refine ⟨fun m hopen => ⟨fun hnone => ?_, fun x rest horder => ⟨fun hruns => ?_, fun hidle => ?_⟩⟩,
    fun tn tag ref x sq hfind hseq hstate hparked hready => execParkLimitExpiry_parked hfind hseq hstate hparked hready,
    fun tn jid j st hjob hstep hready htwin hparks => ⟨fun lists hleft hhere hslots hloads => ?_,
      fun mine e hrun => ⟨fun hno => ?_, fun hok => ?_⟩,
      fun lg dr rows hran hqueued hfree =>
        ⟨stepOf_endStep .., execStepSample_commits hjob hstep hready htwin hparks hran hqueued hfree⟩⟩,
    agreeing_spec⟩
  · refine (execStepStart_open hopen).trans ?_
    rw [hnone]
    rfl
  · refine (execStepStart_open hopen).trans ?_
    rw [horder, startFirst_starts rest ((hasStep_tryStart ..).trans hruns)]
    rfl
  · refine (execStepStart_open hopen).trans ?_
    rw [horder, startFirst_passes rest ((hasStep_tryStart ..).trans hidle), tryStart_idle hidle]
  · have hgoes := layerQueue_goes (lists := lists) hjob hstep hready htwin hparks hleft hhere hslots hloads
    refine ⟨fun hone => ?_, fun htwo => ?_, fun hphase hheld hclear => ?_⟩
    · exact execLayerQueue_of (hgoes.trans ((if_neg (by omega)).trans (if_pos hone)))
    · exact execLayerQueue_of (hgoes.trans ((if_neg (by omega)).trans (if_neg (by omega))))
    · have hqueue := hgoes.trans (if_pos hphase)
      refine ⟨fun hstores => execLayerQueue_of (hqueue.trans (queueLayer_stores hheld hclear hstores)), fun fresh hfresh hnew => ?_,
        fun hload hread => execLayerQueue_of (hqueue.trans (queueLayer_loads hheld hclear hload hread))⟩
      subst hfresh
      exact execLayerQueue_of (hqueue.trans (queueLayer_reads hheld hclear hnew))
  · exact queueLists_refuses hno
  · exact ⟨afterQueue tn jid j st mine (listsPlaced mine e),
      fun k => by rw [tileOf_afterQueue]; exact tileOf_listsQueued k,
      fun hphase hattn => queueLists_attends hrun hok hphase hattn, fun hlast => queueLists_passes hrun hok hlast⟩

end Sys2Proof.Machine
end

section
/-! PROOFS. The packets of serving: jobs opened and closed, cancels, sequence edits, queries and shares (R273 to R277, R292 to R295, R299,
R300, R302). -/

namespace Sys2Proof.Machine

/-! ### Commands that leave a packet which waits alone (R277, R295, R300) -/

section
variable {r : Ref} {p : Packet} {b : List Byte} {c : Option Nat} {s : State}

theorem runEdit_admits {sp : OpSpec} (h : Admits sp r p b c s.dev) (body : Packet → List Byte → Device → Device) :
    run (runEdit sp r body) s = .next (settled s (body (begun p b) b (admitted p b c s.dev))) := by
  simp only [run_settled, runEdit, h.found, h.fresh, Bool.false_eq_true, if_false, runOp_admits h]

theorem exec_serveCancel_admits (h : Admits (serveSpec 0x0403 4 [(2, 2)]) r p b c s.dev) :
    exec (.serveCancel r) s = .next (settled s (serveCancel (begun p b) b (admitted p b c s.dev))) :=
  (exec_serveCancel r s).trans (runEdit_admits h serveCancel)

/-- What SERVE_JOB_CLOSE presents. -/
abbrev closeSpec : OpSpec := { opcode := 0x0401, size := some 4, part := true, reserved := [(1, 3)], bits := [(0, 0xFE)] }

theorem exec_serveJobClose_admits (h : Admits closeSpec r p b c s.dev) :
    exec (.serveJobClose r) s = .next (settled s (serveJobClose (begun p b) b (admitted p b c s.dev))) :=
  (exec_serveJobClose r s).trans (runEdit_admits h serveJobClose)

end

/-- A packet that a command's effect takes out of flight is out of flight once the device has settled. -/
theorem findPacket_settled {d : Device} {r : Ref} (s : State) (h : findPacket d r = none) : findPacket (settled s d).dev r = none :=
  (congrArg (fun m : Cmd => m.flight.find? _) (settle_cmd _)).trans h

/-! ### SERVE_JOB_OPEN (R275, R389) -/

/-- A field of SERVE_JOB_OPEN that may name no skein. -/
def optSkein (v : Nat) : Option Nat := if v = 0xFFFF then none else some v

/-- The step token budget that SERVE_JOB_OPEN asks for, the device's own where it gives none. -/
def askedBudget (b : List Byte) (d : Device) : Nat := if field b 12 2 = 0 then d.serve.stepTokens.toNat else field b 12 2

/-- The prefill minimum that it asks for, the device's own where it gives none. -/
def askedPrefill (b : List Byte) (d : Device) : Nat := if field b 14 2 = 0 then d.serve.prefillMin.toNat else field b 14 2

/-- The job that a SERVE_JOB_OPEN asks for, its hash still to be computed over its sites (R490). -/
def askedJob (b : List Byte) (d : Device) : Job :=
  { main := field b 0 2, adapter := optSkein (field b 2 2), draft := optSkein (field b 4 2), depth := field b 6 1, tiles := word32 b 8
    budget := askedBudget b d, prefillMin := askedPrefill b d, sites := freshSites (planOf d (field b 0 2))
    draftSites := match optSkein (field b 4 2) with | some k => freshSites (planOf d k) | none => []
    key := freeBytes 32 d, order := d.serve.nextOrder }

/-- The job that opens. -/
def openedJob (b : List Byte) (d : Device) : Job := { askedJob b d with hashE := digest32 (siteBytes (askedJob b d)) }

/-- A job stands among those of the device. -/
def addJob (t : Byte) (jid : W32) (j : Job) (d : Device) : Device :=
  { d with serve.jobs := Assoc.insert d.serve.jobs (jobKey t jid) j, serve.nextOrder := d.serve.nextOrder + 1 }

theorem find_addJob (t : Byte) (jid : W32) (j : Job) (d : Device) (k : Nat) :
    Assoc.find (addJob t jid j d).serve.jobs k = if k = jobKey t jid then some j else Assoc.find d.serve.jobs k :=
  Assoc.find_insert ..

section
variable {p : Packet} {b : List Byte} {d : Device}

/-- The checks of R275 on the arguments that a SERVE_JOB_OPEN brings. -/
def openFault (p : Packet) (b : List Byte) (d : Device) : Option W16 :=
  jobOpenError d p.hdr.tenant p.hdr.job (field b 0 2) (optSkein (field b 2 2)) (optSkein (field b 4 2)) (field b 6 1) (word32 b 8)
    (askedBudget b d) (askedPrefill b d)

theorem serveJobOpen_opens (hok : openFault p b d = none) :
    ∃ x, serveJobOpen p b d = finish p stOK x (addJob p.hdr.tenant p.hdr.job (openedJob b d) (spend 32 d)) := by
  unfold openFault optSkein askedBudget askedPrefill at hok
  simp only [serveJobOpen, hok]
  exact ⟨_, rfl⟩

theorem exec_serveJobOpen_opens {r : Ref} {c : Option Nat} {s : State} (h : Admits (serveSpec 0x0400 16 [(7, 1)]) r p b c s.dev)
    (hok : openFault p b (admitted p b c s.dev) = none) :
    ∃ u, exec (.serveJobOpen r) s = .next u ∧ findPacket u.dev (refOf p) = none ∧ u.dev.fab = s.dev.fab ∧
      u.dev.serve = (addJob p.hdr.tenant p.hdr.job (openedJob b (admitted p b c s.dev)) s.dev).serve := by
  obtain ⟨x, hopens⟩ := serveJobOpen_opens (p := begun p b) hok
  refine ⟨_, (exec_serveJobOpen r s).trans (run_admits h serveJobOpen), ?_⟩
  rw [hopens]
  refine ⟨findPacket_settled s (findPacket_finish (begun p b) ..), ?_, ?_⟩
  · rw [settled, settle_fab, finish_fab]
    exact admitted_fab ..
  · rw [settled, settle_serve, finish_serve, addJob, spend_serve, admitted_serve]
    rfl

end

/-! ### SERVE_JOB_CLOSE (R277) -/

/-- The job of a close is closing, and its packet waits. -/
def closingJob (p : Packet) (d : Device) : Device :=
  hold p (onJob p.hdr.tenant p.hdr.job (fun j => { j with closing := true, closer := some (refOf p) }) d)

/-- With ABORT the requests of a closing job that R293 lets a cancel end are cancelled. -/
def abortJob (t : Byte) (jid : W32) (d : Device) : Device :=
  (reqsOf d t jid).foldl (fun d x => if completionWins d x.1 x.2 || x.2.ending.isSome then d else cancelRequest x.1 d) d

theorem serveJobClose_closes {p : Packet} {b : List Byte} {d : Device} {j : Job} (hjob : jobOf d p.hdr.tenant p.hdr.job = some j)
    (hopen : j.closing = false) (hown : j.manager = none) : serveJobClose p b d = closeCheck p.hdr.tenant p.hdr.job
      (if bitOf (field b 0 4) 0 then abortJob p.hdr.tenant p.hdr.job (closingJob p d) else closingJob p d) := by
  have hkept : (jobOf d p.hdr.tenant p.hdr.job).filter (fun j => j.manager.isNone) = some j := by
    rw [hjob, Option.filter_some, hown, Option.isNone_none, if_pos rfl]
  simp only [serveJobClose, hkept, hopen, Bool.false_eq_true, if_false]
  rfl

/-! ### SERVE_CANCEL (R292, R293, R295) -/

section
variable {p q : Packet} {b : List Byte} {d : Device} (hfind : findPacket d { chan := p.chan, tag := word16 b 0 } = some q)
  (hop : q.hdr.opcode = 0x0402) (hten : q.hdr.tenant = p.hdr.tenant)

/-- The cancel waits for the record of the request it names. -/
def cancelWaits (p : Packet) (ref : Ref) (ok : Bool) (d : Device) : Device :=
  hold p (onReq ref (fun z => { z with waiters := z.waiters ++ [(refOf p, ok)] }) d)

/-- The device once a cancel has ended the request it names, or has left it to wait for what holds its end. -/
def requestCancelled (p : Packet) (tag : W16) (y : Request) (d : Device) : Device :=
  noteLatency p (cancelRequest { chan := p.chan, tag := tag } (twinCancel { chan := p.chan, tag := tag } y d))

include hfind hop hten

theorem serveCancel_unstarted (hreq : reqOf d { chan := p.chan, tag := word16 b 0 } = none) (hidle : q.started = false) :
    serveCancel p b d = complete p (onPool p.hdr.tenant.toNat (fun q => { q with cancelled := satAdd32 q.cancelled 1 })
      (refuse q stCancelled { d with serve.cancelCount := d.serve.cancelCount + 1 })) := by
  simp only [serveCancel, hfind, hop, hten, hreq, hidle, ne_eq, not_true_eq_false, or_self, Bool.false_eq_true, if_false]

variable {y : Request} (hreq : reqOf d { chan := p.chan, tag := word16 b 0 } = some y) (hlive : y.ending = none)
include hreq hlive

theorem serveCancel_late (hwins : completionWins d { chan := p.chan, tag := word16 b 0 } y = true) :
    serveCancel p b d = cancelWaits p { chan := p.chan, tag := word16 b 0 } false d := by
  simp only [serveCancel, hfind, hop, hten, hreq, hlive, hwins, ne_eq, not_true_eq_false, or_self, Bool.true_or, if_false, if_true]
  rfl

variable (hloses : completionWins d { chan := p.chan, tag := word16 b 0 } y = false)
include hloses

theorem serveCancel_cancels : serveCancel p b d =
    let e := requestCancelled p (word16 b 0) y d
    if (reqOf e { chan := p.chan, tag := word16 b 0 }).isSome
    then cancelWaits p { chan := p.chan, tag := word16 b 0 } true e else complete p e := by
  simp only [serveCancel, hfind, hop, hten, hreq, hlive, hloses, ne_eq, not_true_eq_false, or_self, Option.isSome_none, Bool.or_self,
    Bool.false_eq_true, if_false]
  rfl

theorem serveCancel_ends (hended : reqOf (requestCancelled p (word16 b 0) y d) { chan := p.chan, tag := word16 b 0 } = none) :
    serveCancel p b d = complete p (requestCancelled p (word16 b 0) y d) :=
  (serveCancel_cancels hfind hop hten hreq hlive hloses).trans (if_neg (Option.not_isSome_iff_eq_none.mpr hended))

theorem serveCancel_held (hheld : reqOf (requestCancelled p (word16 b 0) y d) { chan := p.chan, tag := word16 b 0 } ≠ none) :
    serveCancel p b d = cancelWaits p { chan := p.chan, tag := word16 b 0 } true (requestCancelled p (word16 b 0) y d) :=
  (serveCancel_cancels hfind hop hten hreq hlive hloses).trans (if_pos (Option.isSome_iff_ne_none.mpr hheld))

end

/-! ### SEQ_FORK, SEQ_TRUNCATE, SEQ_RELEASE (R300) -/

section
variable {p : Packet} {b : List Byte} {d : Device} {x : Seq} (hseq : hostSeq d p.hdr.tenant (field b 0 2) = some x)
include hseq

theorem seqFork_found : seqFork p b d = stageEdit p x.skein (.fork (field b 0 2) (field b 4 4)) d := by simp only [seqFork, hseq]

variable (hfree : seqBusy d (field b 0 2) = false)
include hfree

theorem seqTruncate_free (hlen : field b 4 4 ≤ x.committed) :
    seqTruncate p b d = stageEdit p x.skein (.truncate (field b 0 2) (field b 4 4)) d := by
  simp only [seqTruncate, hseq, hfree, Nat.not_lt.mpr hlen, Bool.false_eq_true, if_false]

theorem seqRelease_free : seqRelease p b d = stageEdit p x.skein (.release (field b 0 2)) d := by
  simp only [seqRelease, hseq, hfree, Bool.false_eq_true, if_false]

end

section
variable {p : Packet} {k : Nat} {d : Device}

theorem stageEdit_idle (e : HostEdit) (hidle : skeinRuns d p.hdr.tenant.toNat k = false) :
    stageEdit p k e d = applyEdit { ref := some (refOf p), tenant := p.hdr.tenant.toNat, skein := k, edit := e } d :=
  if_neg (ne_true_of_eq_false hidle)

theorem stageEdit_running (e : HostEdit) (hruns : skeinRuns d p.hdr.tenant.toNat k = true) : (stageEdit p k e d).serve.edits =
    d.serve.edits ++ [{ ref := some (refOf p), tenant := p.hdr.tenant.toNat, skein := k, edit := e }] :=
  congrArg (fun e : Device => e.serve.edits) (if_pos hruns)

end

/-! ### SERVE_QUERY and SERVE_BASE_SHARE (R273, R276, R302) -/

theorem poolRecord_length (d : Device) (t : Nat) : (poolRecord d t).length = 64 := by
  simp only [poolRecord, List.length_append, leBytes_length, zeros, List.length_replicate]

/-- The answer to SERVE_QUERY begins with the pool record, and has 64 bytes of counts behind it. -/
theorem serveQuery_reports (p : Packet) (b : List Byte) (d : Device) : ∃ x : List Byte,
    serveQuery p b d = finish p stOK x d ∧ x.take 64 = poolRecord d p.hdr.tenant.toNat ∧ x.length = 128 := by
  refine ⟨_, rfl, ?_, ?_⟩
  · simp only [List.append_assoc]
    exact List.take_left' (poolRecord_length ..)
  · simp only [List.length_append, poolRecord_length, leBytes_length, zeros, List.length_replicate]

/-- A partition is there and not sealed. -/
def unsealed (d : Device) (n : Nat) : Bool := match partOf d n with | some q => !q.sealed | none => false

theorem unsealed_of_partOf {d : Device} {n : Nat} {pt : Partition} (hpart : partOf d n = some pt) (hplain : pt.sealed = false) :
    unsealed d n = true := by
  simp only [unsealed, hpart, hplain, Bool.not_false]

/-- A skein is shared with the tenants of a mask. -/
def shareSkein (id : Nat) (mask : Byte) (d : Device) : Device :=
  { d with mem.skeins := Assoc.adjust d.mem.skeins id fun k => { k with shared := mask } }

theorem serveBaseShare_shares {p : Packet} {b : List Byte} {d : Device} {k : Skein}
    (hfind : Assoc.find d.mem.skeins (field b 0 2) = some k) (hown : k.tenant = p.hdr.tenant) (hbase : k.adapter = false)
    (hplain : unsealed d p.hdr.tenant.toNat = true) (hmask : ∀ n, n < 8 → (byteAt b 2).getLsbD n = true → unsealed d (n + 1) = true) :
    serveBaseShare p b d = complete p (shareSkein (field b 0 2) (byteAt b 2) d) := by
  have hothers : (List.range 8).any (fun n => (byteAt b 2).getLsbD n && !unsealed d (n + 1)) = false := by
    refine List.any_eq_false.mpr fun n hn hbad => ?_
    obtain ⟨hbit, hsealed⟩ := Bool.and_eq_true_iff.mp hbad
    rw [hmask n (List.mem_range.mp hn) hbit] at hsealed
    exact Bool.false_ne_true hsealed
  have hallowed : ¬(k.tenant ≠ p.hdr.tenant ∨ k.adapter = true ∨ (!unsealed d p.hdr.tenant.toNat) = true ∨
      (List.range 8).any (fun n => (byteAt b 2).getLsbD n && !unsealed d (n + 1)) = true) := by
    rw [hbase, hplain, hothers]
    simp only [hown, ne_eq, not_true_eq_false, Bool.not_true, Bool.false_eq_true, or_self, not_false_eq_true]
  rw [serveBaseShare, hfind]
  exact if_neg hallowed

/-! ### The obligation, packet by packet -/

/-- Settles O50: the opening of a job by the job it adds, each other packet by the lemma of its case. -/
theorem servingPacketsComplete : Obligations.ServingPacketsComplete := by
  intro s r p b c
  refine ⟨fun h hok => ?_, fun j h hjob hopen hown hkeep => ?_, fun j h hjob hopen hown habort => ?_,
    fun h x hfind hop hten => ⟨fun hreq hidle => ?_, fun y hreq hlive =>
      ⟨fun hloses => ⟨fun hended => ?_, fun hheld => ?_⟩, fun hwins => ?_⟩⟩,
    fun x hseq => ⟨fun h => ?_, fun h hlen hfree => ?_, fun h hfree => ?_⟩,
    fun e k f => ⟨stageEdit_idle (p := begun p b) e, stageEdit_running (p := begun p b) e⟩, fun h => ?_,
    fun k pt h hfind hown hbase hpart hplain hmask => ?_⟩
  · obtain ⟨u, hexec, hgone, hfab, hserve⟩ := exec_serveJobOpen_opens h hok
    refine ⟨u, openedJob b (admitted p b c s.dev), hexec, ?_, rfl, rfl, rfl, rfl, rfl, hgone, fun k hk => ?_, by rw [hserve]; rfl, hfab⟩
    · rw [jobOf, hserve, find_addJob, if_pos rfl]
    · rw [hserve, find_addJob, if_neg hk]
  · rw [exec_serveJobClose_admits h, serveJobClose_closes (p := begun p b) hjob hopen hown, hkeep]
    rfl
  · rw [exec_serveJobClose_admits h, serveJobClose_closes (p := begun p b) hjob hopen hown, habort]
    rfl
  · refine ⟨_, exec_serveCancel_admits h, ?_, ?_, ?_⟩
    all_goals rw [serveCancel_unstarted (p := begun p b) hfind hop hten hreq hidle]
    · exact findPacket_settled s (findPacket_finish_none (findPacket_finish x ..))
    · exact findPacket_settled s (findPacket_finish (begun p b) ..)
    · rw [settled, settle_serve, complete_serve, onPool, refuse_serve, admitted_serve]
  · rw [exec_serveCancel_admits h, serveCancel_ends (p := begun p b) hfind hop hten hreq hlive hloses hended]
    rfl
  · rw [exec_serveCancel_admits h, serveCancel_held (p := begun p b) hfind hop hten hreq hlive hloses hheld]
    rfl
  · rw [exec_serveCancel_admits h, serveCancel_late (p := begun p b) hfind hop hten hreq hlive hwins]
    rfl
  · rw [exec_seqFork, execSeqFork, runEdit_admits h, seqFork_found (p := begun p b) hseq]
  · rw [exec_seqTruncate, execSeqTruncate, runEdit_admits h, seqTruncate_free (p := begun p b) hseq hfree hlen]
  · rw [exec_seqRelease, execSeqRelease, runEdit_admits h, seqRelease_free (p := begun p b) hseq hfree]
  · obtain ⟨x, hreports, hpool, hlen⟩ := serveQuery_reports (begun p b) b (admitted p b c s.dev)
    exact ⟨x, by rw [exec_serveQuery, execServeQuery, run_admits h, hreports], hpool, hlen⟩
  · have hshared : ∀ n, n < 8 → (byteAt b 2).getLsbD n = true → unsealed (admitted p b c s.dev) (n + 1) = true := fun n hn hbit =>
      have ⟨_, hx, hxplain⟩ := hmask n hn hbit
      unsealed_of_partOf hx hxplain
    rw [exec_serveBaseShare, execServeBaseShare, run_admits h,
      serveBaseShare_shares (p := begun p b) hfind hown hbase (unsealed_of_partOf hpart hplain) hshared]
    rfl

end Sys2Proof.Machine
end

section
/-! PROOFS. The admission of a request (R278, R283 to R285, R299). -/

namespace Sys2Proof.Machine

/-! ### The sequence of a request (R296, R299) -/

theorem seqOf_newSeq (t skein : Nat) (draft transient : Bool) (d : Device) (k : Nat) :
    seqOf (newSeq t skein draft transient d).2 k = if k = firstGap 0 d.serve.seqs
      then some { tenant := t, skein := skein, draft := draft, transient := transient } else seqOf d k :=
  Assoc.find_insert ..

theorem seqOf_onSeq (i : Nat) (f : Seq → Seq) (d : Device) (k : Nat) :
    seqOf (onSeq i f d) k = if k = i then (seqOf d k).map f else seqOf d k :=
  Assoc.find_adjust ..

/-- The companion of a sequence, if it has one. -/
def companionAt (d : Device) (i : Nat) : Option Nat := (seqOf d i).bind (·.companion)

/-- A sequence has a companion of another draft skein than the job's. -/
def staleCompanion (j : Job) (i : Nat) (d : Device) : Bool :=
  match (companionAt d i).bind (seqOf d) with | some c => some c.skein != j.draft | none => false

/-- A companion of another draft skein is released. -/
def dropStale (j : Job) (i : Nat) (d : Device) : Device :=
  if staleCompanion j i d then match companionAt d i with
    | some c => onSeq i (fun s => { s with companion := none }) (releaseSeq c d)
    | none => d
  else d

theorem dropStale_alone {j : Job} {i : Nat} {d : Device} (halone : companionAt d i = none) : dropStale j i d = d := by
  simp only [dropStale, staleCompanion, halone, Option.bind_none, Bool.false_eq_true, if_false]

theorem dropStale_drafting {j : Job} {i c k : Nat} {d : Device} {q : Seq} (hcomp : companionAt d i = some c) (hseq : seqOf d c = some q)
    (hskein : q.skein = k) (hdraft : j.draft = some k) : dropStale j i d = d := by
  simp only [dropStale, staleCompanion, hcomp, Option.bind_some, hseq, hskein, hdraft, bne_self_eq_false, Bool.false_eq_true, if_false]

/-- A new sequence, with a companion where a skein drafts for it: its ID and the device. -/
def beginSeqs (t main : Nat) (transient : Bool) (draft : Option Nat) (d : Device) : Nat × Device :=
  let x := newSeq t main false transient d
  match draft with
  | some k => let y := newSeq t k true false x.2
    (x.1, onSeq x.1 (fun s => { s with companion := some y.1 }) y.2)
  | none => x

section
variable (t main : Nat) (transient : Bool) (d : Device)

theorem beginSeqs_id (draft : Option Nat) : (beginSeqs t main transient draft d).1 = firstGap 0 d.serve.seqs := by
  cases draft <;> rfl

theorem beginSeqs_reqs (draft : Option Nat) : (beginSeqs t main transient draft d).2.serve.reqs = d.serve.reqs := by
  cases draft <;> rfl

theorem companionAt_beginSeqs_none :
    companionAt (beginSeqs t main transient none d).2 (beginSeqs t main transient none d).1 = none := by
  rw [companionAt, beginSeqs, seqOf_newSeq]
  exact congrArg (Option.bind · _) (if_pos rfl)

variable (k : Nat)

theorem companionAt_beginSeqs_some :
    companionAt (beginSeqs t main transient (some k) d).2 (beginSeqs t main transient (some k) d).1 =
      some (firstGap 0 (newSeq t main false transient d).2.serve.seqs) := by
  have hmain : ∃ q, seqOf (newSeq t k true false (newSeq t main false transient d).2).2 (firstGap 0 d.serve.seqs) = some q := by
    rw [seqOf_newSeq, seqOf_newSeq, if_pos rfl]
    split
    · exact ⟨_, rfl⟩
    · exact ⟨_, rfl⟩
  obtain ⟨q, hq⟩ := hmain
  have hseq := seqOf_onSeq (firstGap 0 d.serve.seqs)
    (fun s => { s with companion := some (firstGap 0 (newSeq t main false transient d).2.serve.seqs) })
    (newSeq t k true false (newSeq t main false transient d).2).2 (firstGap 0 d.serve.seqs)
  rw [if_pos rfl, hq] at hseq
  exact congrArg (Option.bind · _) hseq

theorem seqOf_beginSeqs_companion :
    (seqOf (beginSeqs t main transient (some k) d).2 (firstGap 0 (newSeq t main false transient d).2.serve.seqs)).map (·.skein) =
      some k := by
  simp only [beginSeqs, seqOf_onSeq, seqOf_newSeq, if_true]
  split <;> rfl

end

theorem dropStale_begun (t : Nat) (transient : Bool) (j : Job) (d : Device) :
    dropStale j (beginSeqs t j.main transient j.draft d).1 (beginSeqs t j.main transient j.draft d).2 =
      (beginSeqs t j.main transient j.draft d).2 := by
  cases hdraft : j.draft with
  | none => exact dropStale_alone (companionAt_beginSeqs_none ..)
  | some k =>
    obtain ⟨q, hseq, hskein⟩ := Option.map_eq_some_iff.mp (seqOf_beginSeqs_companion t j.main transient d k)
    exact dropStale_drafting (companionAt_beginSeqs_some ..) hseq hskein hdraft

/-- A request begins a sequence: a FORWARD where the skein has attention, a GENERATE that asks for one. -/
def startsSeq (j : Job) (r : Request) (d : Device) : Bool := if r.forward then !(planOf d j.main).attn.isEmpty else r.newSeq

/-- The sequence on which a request runs: one that it begins, none, or the one that it names. -/
def placedSeq (t : Nat) (j : Job) (r : Request) (d : Device) : Nat × Device :=
  if startsSeq j r d then beginSeqs t j.main r.forward (if r.forward then none else j.draft) d
  else if r.forward then (0xFFFF, d)
  else (r.seq, d)

/-! ### The admission -/

/-- The hash H of the sequence at admission (R489). -/
def seqHash (j : Job) (r : Request) (d : Device) : List Byte :=
  if startsSeq j r d || r.forward then zeros 32 else match seqOf d r.seq with | some s => s.hash | none => zeros 32

/-- A request as it is admitted on a sequence of the device `e`. -/
def admittedAs (j : Job) (r : Request) (need i : Nat) (hash : List Byte) (e : Device) : Request :=
  { r with seq := i, depth := if r.noSpec || (companionAt e i).isNone then 0 else j.depth, reserve := need, audited := j.audit.isSome
           hashA := j.hashE ++ hash ++ digest32 (inRead e r 0 (inputLen (planOf e j.main) r)) }

/-- A request stands among those of the device, its pages reserved. -/
def enterRequest (t : Nat) (ref : Ref) (r : Request) (d : Device) : Device :=
  onPool t (fun q => { q with reserved := q.reserved + r.reserve, admitted := satAdd32 q.admitted 1 })
    { d with serve.reqs := d.serve.reqs ++ [(ref, r)], serve.nextOrder := d.serve.nextOrder + 1 }

/-- A request of a job that is not in twin mode enters with its sequence and its reservation, and the head of its output is written. -/
theorem admitRequest_untwinned {p : Packet} {b : List Byte} {j : Job} {r : Request} {need : Nat} {d : Device}
    (htwin : j.twinned = false) :
    admitRequest p b j r need d =
      let x := placedSeq p.hdr.tenant.toNat j r d
      let e := dropStale j x.1 x.2
      writeHead (refOf p) (enterRequest p.hdr.tenant.toNat (refOf p) (admittedAs j r need x.1 (seqHash j r d) e) e) :=
  if_neg (ne_true_of_eq_false htwin)

theorem admitRequest_fresh {p : Packet} {b : List Byte} {j : Job} {r : Request} {need : Nat} {d : Device}
    (htwin : j.twinned = false) (hgen : r.forward = false) (hnew : r.newSeq = true) :
    admitRequest p b j r need d =
      let x := beginSeqs p.hdr.tenant.toNat j.main false j.draft d
      writeHead (refOf p) (enterRequest p.hdr.tenant.toNat (refOf p) (admittedAs j r need x.1 (zeros 32) x.2) x.2) := by
  have hstarts : startsSeq j r d = true := by rw [startsSeq, hgen, hnew]; rfl
  have hplaced : placedSeq p.hdr.tenant.toNat j r d = beginSeqs p.hdr.tenant.toNat j.main false j.draft d := by
    rw [placedSeq, if_pos hstarts, hgen]
    rfl
  have hhash : seqHash j r d = zeros 32 := if_pos (by rw [hstarts]; rfl)
  simp only [admitRequest_untwinned htwin, hplaced, hhash, dropStale_begun]

/-! ### The request that stands after an admission -/

theorem reqOf_congr {d e : Device} (h : e.serve.reqs = d.serve.reqs) (ref : Ref) : reqOf e ref = reqOf d ref := by
  rw [reqOf, h, reqOf]

theorem reqOf_onReq (ref : Ref) (f : Request → Request) (d : Device) : reqOf (onReq ref f d) ref = (reqOf d ref).map f := by
  unfold reqOf onReq
  induction d.serve.reqs with
  | nil => rfl
  | cons x l ih =>
    by_cases hx : x.1 = ref
    · simp [hx]
    · simp only [List.map_cons, if_neg hx, List.find?_cons, beq_false_of_ne hx]
      exact ih

theorem reqOf_enterRequest {ref : Ref} {d : Device} (hfresh : reqOf d ref = none) (t : Nat) (r : Request) :
    reqOf (enterRequest t ref r d) ref = some r := by
  have hnone : d.serve.reqs.find? (fun x => x.1 == ref) = none := Option.map_eq_none_iff.mp hfresh
  have hlast : (d.serve.reqs ++ [(ref, r)]).find? (fun x => x.1 == ref) = some (ref, r) := by
    rw [List.find?_append, hnone, Option.none_or]
    exact List.find?_cons_of_pos (beq_self_eq_true ref)
  exact congrArg (Option.map (·.2)) hlast

theorem reqOf_writeHead {ref : Ref} {d : Device} {r : Request} (hreq : reqOf d ref = some r) :
    reqOf (writeHead ref d) ref = some { r with behind := outHeld d r } := by
  have hwrite : (outWrite r 0 (outHead r) d).serve.reqs = d.serve.reqs := by rw [(outWrite_arenaWork ..).eq]
  rw [writeHead, hreq]
  exact (reqOf_onReq ..).trans (congrArg (Option.map _) ((reqOf_congr hwrite ref).trans hreq))

/-- A request that an admission has entered on a new sequence: its job, its reservation, its sequence, and no token yet. -/
theorem reqOf_admitRequest {p : Packet} {b : List Byte} {j : Job} {r : Request} {need : Nat} {d : Device}
    (htwin : j.twinned = false) (hgen : r.forward = false) (hnew : r.newSeq = true) (hfresh : reqOf d (refOf p) = none) :
    ∃ y, reqOf (admitRequest p b j r need d) (refOf p) = some y ∧ y.job = r.job ∧ y.reserve = need ∧
      y.seq = firstGap 0 d.serve.seqs ∧ y.tokens = r.tokens := by
  rw [admitRequest_fresh htwin hgen hnew]
  refine ⟨_, reqOf_writeHead (reqOf_enterRequest ?_ ..), rfl, rfl, beginSeqs_id .., rfl⟩
  exact (reqOf_congr (beginSeqs_reqs ..) _).trans hfresh

/-! ### SERVE_SUBMIT (R283 to R285) -/

/-- The pages that a request which begins a sequence reserves for it and for its companion (R284). -/
def freshNeed (b : List Byte) (j : Job) (x : Request) (d : Device) : Nat :=
  let n := if field b 32 4 = 0 then x.inCount + x.maxTok else field b 32 4
  admitNeed d j.main none n + (match j.draft with | some k => admitNeed d k none (n + j.depth) | none => 0)

/-- What R283 asks of a GENERATE that begins a sequence, up to its pages. -/
structure SubmitOk (p : Packet) (b : List Byte) (j : Job) (x : Request) (d : Device) : Prop where
  job : jobOf d p.hdr.tenant p.hdr.job = some j
  own : j.manager = none
  stage : d.pwr.stage < 2
  coolant : d.pwr.coolant ≠ 2
  openJob : j.closing = false
  placed : j.place ≠ .broken
  request : x = requestOf p b d j.depth
  args : argError d p.hdr.tenant (planOf d j.main) (j.draft.map (planOf d)) x b = none
  generate : x.forward = false
  newSeq : x.newSeq = true
  here : ((bufOf d p.hdr.tenant.toNat x.inHandle.toNat).filter fun y => (j.twinned || j.audit.isSome) &&
    hostHeld y.2 x.inOff.toNat (inputLen (planOf d j.main) x)) = none
  sound : ((bufOf d p.hdr.tenant.toNat x.inHandle.toNat).bind fun y =>
    bufBad d y.2 x.inOff.toNat (inputLen (planOf d j.main) x)) = none
  room : seqRoom d p.hdr.tenant.toNat (if j.draft.isSome then 2 else 1) = true
  length : lengthOk 0 x j.depth = true

section
variable {p : Packet} {b : List Byte} {j : Job} {x : Request} {d : Device} (hok : SubmitOk p b j x d)
include hok

theorem serveSubmit_judges : serveSubmit p b d =
    if freePages (poolOf d p.hdr.tenant.toNat) < (poolOf d p.hdr.tenant.toNat).reserved + freshNeed b j x d then
      refuse p stAdmitMemory (countRefused p.hdr.tenant.toNat stAdmitMemory d)
    else if !admitsTime d p.hdr.tenant p.hdr.job j x then
      refuse p stAdmitTime (countRefused p.hdr.tenant.toNat stAdmitTime d)
    else admitRequest p b j x (freshNeed b j x d) d := by
  obtain ⟨hjob, hown, hstage, hcoolant, hopen, hplaced, rfl, hargs, hgen, hnew, hhere, hsound, hroom, hlen⟩ := hok
  have hkept : (jobOf d p.hdr.tenant p.hdr.job).filter (fun j => j.manager.isNone) = some j := by
    rw [hjob, Option.filter_some, hown, Option.isNone_none, if_pos rfl]
  have hlit : ¬(d.pwr.stage ≥ 2 ∨ d.pwr.coolant = 2) := by omega
  have hplace : (j.place == PlaceState.broken) = false := beq_false_of_ne hplaced
  rw [serveSubmit, if_neg hlit, hkept]
  simp only [hopen, hplace, hargs, hhere, hsound, hgen, hnew, hroom, hlen, Bool.false_eq_true, if_false, Bool.not_true, Bool.not_false,
    Bool.and_false, Bool.false_and, false_and, true_and, or_false]
  rfl

theorem serveSubmit_short (hshort : freePages (poolOf d p.hdr.tenant.toNat) <
    (poolOf d p.hdr.tenant.toNat).reserved + freshNeed b j x d) :
    serveSubmit p b d = refuse p stAdmitMemory (countRefused p.hdr.tenant.toNat stAdmitMemory d) :=
  (serveSubmit_judges hok).trans (if_pos hshort)

variable (hpages : (poolOf d p.hdr.tenant.toNat).reserved + freshNeed b j x d ≤ freePages (poolOf d p.hdr.tenant.toNat))
include hpages

theorem serveSubmit_late (htime : admitsTime d p.hdr.tenant p.hdr.job j x = false) :
    serveSubmit p b d = refuse p stAdmitTime (countRefused p.hdr.tenant.toNat stAdmitTime d) := by
  rw [serveSubmit_judges hok, if_neg (Nat.not_lt.mpr hpages), htime]
  rfl

theorem serveSubmit_admits (htime : admitsTime d p.hdr.tenant p.hdr.job j x = true) :
    serveSubmit p b d = admitRequest p b j x (freshNeed b j x d) d := by
  rw [serveSubmit_judges hok, if_neg (Nat.not_lt.mpr hpages), htime]
  rfl

end

/-! ### The obligation -/

/-- Settles O51: what R283 asks before the pages is gathered once; then the pages, the deadlines and the admission decide. -/
theorem admissionReservesPages : Obligations.AdmissionReservesPages := by
  rintro s r p b c j h d q t x hjob hown hstage hcoolant hopen hplaced hargs hgen hnew hhere hsound hroom hlen need rfl
  have hpwr : d.pwr = s.dev.pwr := admitted_pwr ..
  have hok : SubmitOk q b j x d := ⟨hjob, hown, hpwr ▸ hstage, hpwr ▸ hcoolant, hopen, hplaced, rfl, hargs, hgen, hnew, hhere, hsound,
    hroom, hlen⟩
  have hexec : exec (.serveSubmit r) s = .next (settled s (serveSubmit q b d)) := (exec_serveSubmit r s).trans (run_admits h serveSubmit)
  rw [hexec]
  refine ⟨fun hshort => ?_, fun hpages htime => ?_, fun hpages htime => ⟨?_, fun htwin hfresh => ?_⟩⟩
  · rw [serveSubmit_short hok hshort]
    rfl
  · rw [serveSubmit_late hok hpages htime]
    rfl
  · rw [serveSubmit_admits hok hpages htime]
    rfl
  · obtain ⟨y, hy, hyjob, hyneed, hyseq, hytok⟩ := reqOf_admitRequest (p := q) (b := b) htwin hgen hnew hfresh
    refine ⟨y, hy, hyjob, hyneed, hyseq.trans ?_, hytok⟩
    exact congrArg (fun v : ServePart => firstGap 0 v.seqs) (admitted_serve ..)

end Sys2Proof.Machine
end

section
/-! PROOFS. A step on an empty queue, and the configuration writes of GAUGE, LINK and DRAM. -/

namespace Sys2Proof.Machine

/-! ### Time (R325, R501) -/

/-- While the device is frozen the Gauge stands. -/
theorem advance_gauge_frozen {d : Device} (hfrozen : isFrozen d = true) (n : Nat) : (advance n d).gauge = d.gauge := by
  have hdead : coreAlive d = false := by rw [coreAlive, hfrozen]; rfl
  simp only [advance, hdead, hfrozen, Bool.false_eq_true, if_false, if_true]

/-- Without a slew WALL counts the nanoseconds that pass. -/
theorem advance_wall_unslewed {d : Device} (hrun : isFrozen d = false) (hslew : d.gauge.slew = 0) (hrem : d.gauge.slewRem = 0) (n : Nat) :
    (advance n d).gauge.wall = (d.gauge.wall + n) % 2 ^ 64 := by
  have hstep : (if d.gauge.slewLeft < 0 then max d.gauge.slewLeft 0 else min d.gauge.slewLeft 0) = 0 := by omega
  have hgauge : (if coreAlive d then accrueReasons n d else d).gauge = d.gauge := by split <;> rfl
  have hlive : isFrozen (if coreAlive d then accrueReasons n d else d) = false := by split <;> exact hrun
  simp only [advance, hlive, hgauge, hslew, hrem, mul_zero, add_zero, Int.zero_ediv, hstep, Bool.false_eq_true, if_false]
  omega

/-- Settles O2: the tick lets 10 ns pass, and settling leaves the clock and the Gauge. -/
theorem emptyQueueTicks : Obligations.EmptyQueueTicks := by
  intro d
  refine ⟨tick d, rfl, rfl, (settle_clock _).trans (advance_clock ..), fun hrun hslew hrem => ?_, fun hfrozen => ?_⟩
  · rw [tick, settle_gauge, advance_wall_unslewed hrun hslew hrem]
  · rw [tick, settle_gauge, advance_gauge_frozen hfrozen]

/-! ### Writes to the registers of GAUGE and LINK, by an admitted role with room in the ledger (R12, R557) -/

section
variable {v : W32} {d : Device} (hrole : byEither.contains (activeRole d) = true) (hroom : ledgerRoom d = none)
include hrole hroom

theorem gaugeRegWrite_applies {off : Nat} (hoff : off ∈ [0x004, 0x008, 0x014, 0x020]) (hok : gaugeCfgOk off v = true) :
    gaugeRegWrite off v d = (let e := onGauge (gaugeCfg off v) (ledgerReg 0x0020 (0x40000 + off) stOK d)
      { e with gauge := rebase .rotor (rotorFar e) e.gauge }) := by
  have hreg : off = 0x004 ∨ off = 0x008 ∨ off = 0x014 ∨ off = 0x020 := by simpa using hoff
  have hfine : ¬(byEither.contains (activeRole d) && !gaugeCfgOk off v) = true := by rw [hok]; simp
  rw [gaugeRegWrite, if_pos hreg]
  exact (if_neg hfine).trans (rwl_applies hrole rfl hroom)

theorem linkRegWrite_applies (p : Port) (hok : linkCfgOk p.toNat v = true) : linkRegWrite (0x100 + 0x40 * p.toNat) v d =
    linkCfg p.toNat v (ledgerReg 0x0020 (0x80100 + 0x40 * p.toNat) stOK d) := by
  have hport : (0x100 + 0x40 * p.toNat - 0x100) / 0x40 = p.toNat := by omega
  have haddr : 0x80000 + (0x100 + 0x40 * p.toNat) = 0x80100 + 0x40 * p.toNat := by omega
  have hlt : p.toNat < 4 := p.isLt
  rw [linkRegWrite, if_neg (by omega), if_pos (by omega)]
  simp only [hport, haddr]
  exact rwl_applies hrole hok hroom

end

/-! ### A change of the bank layout (R445, R446) -/

section
variable {v : W32} {d : Device}

/-- The device once the layout has changed: DRAM scrubbed, its write queues empty. -/
def layoutChanged (v : W32) (d : Device) : Device :=
  { fabScrub dramBase (32 * channelSize) d with
    dram.order := BitVec.ofNat 2 v.toNat
    dram.mapBusy := true
    dram.chans := (List.range 32).foldl (fun m c => SMap.modify {} m c fun x => { x with queue := [], draining := false }) d.dram.chans }

theorem mapCfgWrite_applies (hrole : activeRole d = roleInstaller) (hroom : ledgerRoom d = none) (hval : v.toNat % 4 ≠ 3)
    (hparts : d.sec.parts = []) : mapCfgWrite v d = layoutChanged v (ledgerReg 0x0020 0x00070008 stOK d) :=
  rwl_applies (by rw [hrole]; rfl) (by rw [hparts]; simp [hval]) hroom

theorem ledgerReg_fab (kind : W16) (addr : Nat) (st : W16) (d : Device) : (ledgerReg kind addr st d).fab = d.fab := by rw [ledgerReg_frame]

theorem byte_layoutChanged (v : W32) (d : Device) (a : Nat) : Mem.byte (layoutChanged v d).fab a =
    if dramBase ≤ a ∧ a < dramBase + 32 * channelSize then 0 else Mem.byte d.fab a := Mem.byte_scrub ..

end

/-- Settles O25: each write as a transaction of the host port that the role's write of its register decides. -/
theorem configurationWrites : Obligations.ConfigurationWrites := by
  intro s v halive hroom
  refine ⟨fun off hoff hrole hok => ?_, fun p hrole hok => ?_, fun hrole hval hparts => ?_⟩
  · have haddr : (BitVec.ofNat 32 (0x40000 + off)).toNat = 0x40000 + off ∧ off < 0x10000 := by
      simp only [List.mem_cons, List.not_mem_nil, or_false] at hoff
      rcases hoff with rfl | rfl | rfl | rfl <;> decide
    rw [exec_gaugeCfgWrite, execGaugeCfgWrite, run_transact halive, haddr.1, if_pos (by omega), Nat.add_sub_cancel_left,
      gaugeRegWrite_applies (d := noEnable s.dev) hrole hroom hoff hok]
  · rw [exec_linkPnCfgWrite, execLinkPnCfgWrite, run_transact halive, linkRegWrite_applies (d := noEnable s.dev) hrole hroom p hok]
  · rw [exec_dramMapCfgWrite, execDramMapCfgWrite, run_transact halive,
      mapCfgWrite_applies (d := noEnable s.dev) hrole hroom hval hparts]
    refine ⟨_, rfl, ?_, ?_, fun a hlo hhi => ?_, fun a hlo => ?_⟩
    all_goals simp only [settled, settle_dram, settle_fab]
    · rfl
    · rfl
    · rw [byte_layoutChanged, if_pos ⟨hlo, hhi⟩]
    · rw [byte_layoutChanged, if_neg (by omega), ledgerReg_fab]
      rfl

end Sys2Proof.Machine
end

section
/-! PROOFS. Knots (R329 to R332, R335, R336): signals and waits, the knot packets, the knot window and the timeout of a wait. -/

namespace Sys2Proof.Machine

/-! ### A signal (R329, R330) -/

theorem knotOf_knotEvaluate (k j : Nat) (d : Device) : knotOf (knotEvaluate k d) j = knotOf d j := by
  rw [knotOf, knotEvaluate_knots, knotOf]

/-- A signal changes its own knot's value and nothing else of any knot. -/
theorem knotOf_knotSignal (k n j : Nat) (d : Device) : knotOf (knotSignal k n d) j =
    if j = k then { knotOf d k with value := BitVec.ofNat 32 (((knotOf d k).value.toNat + n) % knotModulus (knotOf d k)) }
    else knotOf d j :=
  (knotOf_knotEvaluate ..).trans (knotOf_put ..)

theorem knotEvaluate_waiters (k : Nat) (d : Device) :
    (knotEvaluate k d).knots.waiters = d.knots.waiters.filter fun w => !waitDone k (knotOf d k).value w := by rw [knotEvaluate_frame]

/-- A satisfied wait's packet completes. -/
theorem findPacket_knotEvaluate {k : Nat} {d : Device} {w : KnotWaiter} (hw : w ∈ d.knots.waiters)
    (hdone : waitDone k (knotOf d k).value w = true) : findPacket (knotEvaluate k d) w.ref = none :=
  endWaits_find _ _ _ _ (.inr ⟨w, List.mem_filter.mpr ⟨hw, hdone⟩, rfl⟩)

/-- Settles O30: the value is put into the knot, and then every wait on it is judged. -/
theorem signalAddsAndReleases : Obligations.SignalAddsAndReleases := by
  intro d k n v
  have hput : (knotOf (knotPut k v d) k).value = v := by rw [knotOf_put, if_pos rfl]
  refine ⟨?_, ?_, fun j hj => ?_, ?_, fun w hw hdone => ?_, fun hwf => ?_⟩
  · rw [knotOf_knotSignal, if_pos rfl]
  · rw [knotOf_knotSignal, if_pos rfl]
  · rw [knotOf_knotSignal, if_neg hj]
  · exact (knotEvaluate_waiters k (knotPut k v d)).trans (by rw [hput]; rfl)
  · exact findPacket_knotEvaluate (d := knotPut k v d) hw (by rw [hput, hdone])
  · exact (congrArg (SMap.wf {}) (knotEvaluate_knots k (knotPut k v d))).trans (knotPut_wf d k v hwf)

/-! ### The knot packets of a caller that owns the knot (R330, R335) -/

section
variable {p : Packet} (htenant : p.hdr.tenant ≠ 0) (act : Device → Device) (d : Device)
include htenant

/-- A tenant's act needs no room in the ledger and leaves no entry there. -/
theorem roomFor_tenant : roomFor p act d = act d := if_neg htenant
theorem gatedAct_tenant : gatedAct p act d = act d := if_neg htenant

end

/-- KNOT_WAIT once its condition is known: at once, or with its timeout (R330, R336). -/
def waitOn (p : Packet) (b : List Byte) (cond : KnotCond) (m : Nat) (d : Device) : Device :=
  if condHolds (knotOf d (field b 0 2)).value m cond then finish p stOK (leBytes 4 (knotOf d (field b 0 2)).value.toNat) d
  else { d with knots.waiters := d.knots.waiters ++
    [{ ref := refOf p, knot := BitVec.ofNat 16 (field b 0 2), cond := cond, modulus := m,
       due := if field b 8 4 = 0 then none else some (d.clock + field b 8 4 * 1000) }] }

section
variable {p : Packet} {b : List Byte} {d : Device} (hown : ownsKnot d p.hdr.tenant (field b 0 2) = true)
include hown

theorem not_ownsKnot : ¬(!ownsKnot d p.hdr.tenant (field b 0 2)) = true := by rw [hown]; decide

theorem knotSignalOp_owned : knotSignalOp p b d = complete p (knotSignal (field b 0 2) (field b 4 4) d) := if_neg (not_ownsKnot hown)

theorem knotRead_owned : knotRead p b d = finish p stOK
    (leBytes 4 (knotOf d (field b 0 2)).value.toNat ++ leBytes 2 (knotOf d (field b 0 2)).party.toNat ++ [0, 0]) d :=
  if_neg (not_ownsKnot hown)

theorem knotSet_owned (htenant : p.hdr.tenant ≠ 0) (hval : (word32 b 4).toNat < knotModulus (knotOf d (field b 0 2))) :
    knotSet p b d = complete p (knotEvaluate (field b 0 2) (knotPut (field b 0 2) (word32 b 4) d)) := by
  rw [knotSet, if_neg (by omega), roomFor_tenant htenant, if_neg (not_ownsKnot hown), gatedAct_tenant htenant]

theorem knotWait_compares (hkind : field b 2 1 ≤ 1) : knotWait p b d =
    waitOn p b (if field b 2 1 = 0 then .atLeast (word32 b 4) else .equal (word32 b 4)) (2 ^ 32) d := by
  rw [knotWait, if_neg (by omega), if_neg (not_ownsKnot hown)]
  by_cases hzero : field b 2 1 = 0
  · simp only [hzero, if_true]
    rfl
  · have hone : field b 2 1 = 1 := by omega
    simp only [hone, if_true]
    rfl

/-- A barrier waiter signals by one, and waits for the next multiple of P (R330). -/
theorem knotWait_barrier (hkind : field b 2 1 = 2) (hparty : (knotOf d (field b 0 2)).party ≠ 0) : knotWait p b d =
    waitOn p b (.atLeast (BitVec.ofNat 32 (((knotOf d (field b 0 2)).value.toNat / (knotOf d (field b 0 2)).party.toNat *
        (knotOf d (field b 0 2)).party.toNat + (knotOf d (field b 0 2)).party.toNat) % knotModulus (knotOf d (field b 0 2)))))
      (knotModulus (knotOf d (field b 0 2))) (knotSignal (field b 0 2) 1 d) := by
  have hargs : ¬(field b 2 1 > 2 ∨ (field b 2 1 = 2 ∧ (knotOf d (field b 0 2)).party = 0)) := by
    rintro (hbig | ⟨-, hnone⟩)
    · omega
    · exact hparty hnone
  rw [knotWait, if_neg hargs, if_neg (not_ownsKnot hown)]
  simp only [hkind, if_true]
  rfl

end

/-! ### Runs of free knots (R335) -/

/-- A run that the search finds lies within its bounds, and its knots are free. -/
theorem freeRun_free {d : Device} {count hi fuel k x : Nat} (h : freeRun d count hi fuel k = some x) :
    k ≤ x ∧ x + count ≤ hi ∧ ∀ i, i < count → (knotOf d (x + i)).allocated = false := by
  induction fuel generalizing k with
  | zero => cases h
  | succ n ih =>
    rw [freeRun] at h
    split at h
    · cases h
    · split at h
      · next hend hfree =>
        cases h
        simp only [List.all_eq_true, List.mem_range, Bool.not_eq_true'] at hfree
        exact ⟨le_refl _, by omega, hfree⟩
      · obtain ⟨hlo, hhi, hfree⟩ := ih h
        exact ⟨by omega, hhi, hfree⟩

theorem pickRun_free {d : Device} {count lo hi x : Nat} (h : pickRun d count lo hi = some x) :
    lo ≤ x ∧ x + count ≤ hi ∧ ∀ i, i < count → (knotOf d (x + i)).allocated = false := by
  rcases Option.or_eq_some_iff.mp h with h | ⟨-, h⟩
  · obtain ⟨hlo, hhi, hfree⟩ := freeRun_free h
    exact ⟨by omega, hhi, hfree⟩
  · exact freeRun_free h

section
variable {p : Packet} (htenant : p.hdr.tenant ≠ 0) {b : List Byte} {d : Device} {n : Nat} (hpos : 1 ≤ n) (hmax : n ≤ 1024)
include htenant hpos hmax

theorem knotAlloc_places {x : Nat} {pa : Partition} (hcount : field b 0 2 = n) (hpick : pickRun d n 4096 65536 = some x)
    (hpart : partOf d p.hdr.tenant.toNat = some pa) (hquota : knotsHeld d p.hdr.tenant + n ≤ pa.knotQuota) :
    knotAlloc p b d = finish p stOK (leBytes 2 x ++ [0, 0]) { spend 1 d with knots := { d.knots with
      knots := (List.range n).foldl (fun m i =>
        SMap.set {} m (x + i) { value := 0, party := word16 b 2, owner := p.hdr.tenant, allocated := true }) d.knots.knots } } := by
  rw [knotAlloc, hcount, if_neg (by omega), roomFor_tenant htenant]
  simp only [htenant, if_false, hpick, hpart]
  rw [if_neg (by rintro ⟨-, hover⟩; omega), gatedAct_tenant htenant]
  rfl

theorem knotFree_owned (hcount : field b 2 2 = n) (hend : field b 0 2 + n ≤ 65536)
    (hrun : ∀ i, i < n → ownsKnot d p.hdr.tenant (field b 0 2 + i) = true ∧ knotBusy d (field b 0 2 + i) = false) :
    knotFree p b d = complete p { d with knots := { d.knots with
      knots := ((List.range n).map fun i => field b 0 2 + i).foldl SMap.del d.knots.knots } } := by
  have hall : ((List.range n).map fun i => field b 0 2 + i).all (ownsKnot d p.hdr.tenant) = true := by
    simpa using fun i hi => (hrun i hi).1
  have hidle : ((List.range n).map fun i => field b 0 2 + i).any (knotBusy d) = false := by
    simpa using fun i hi => (hrun i hi).2
  rw [knotFree, hcount, if_neg (by omega), if_neg fun h => htenant h.1, roomFor_tenant htenant, hall, hidle,
    if_neg (by decide), if_neg (by decide), gatedAct_tenant htenant]

end

/-- Settles O31: each packet by what it does with the knots that its caller owns. -/
theorem knotPacketsComplete : Obligations.KnotPacketsComplete := by
  intro s r p b c
  refine ⟨fun h hown => ?_, fun h hown => ?_, fun h htenant hown hval => ?_, fun h hown => ⟨fun hkind => ?_, fun hkind hparty => ?_⟩,
    fun h htenant n x pa hcount hpos hmax hpick hpart hquota => ?_, fun h htenant n hcount hpos hmax hend hrun => ?_⟩
  · rw [exec_knotSignal, execKnotSignal, run_admits h, knotSignalOp_owned (p := begun p b) hown]
  · rw [exec_knotRead, execKnotRead, run_admits h, knotRead_owned (p := begun p b) hown]
  · rw [exec_knotSet, execKnotSet, run_admits h, knotSet_owned (p := begun p b) hown htenant hval]
  · rw [exec_knotWait, execKnotWait, run_admits h, knotWait_compares (p := begun p b) hown hkind]
    refine ⟨fun hholds => ?_, fun hfails => ?_⟩
    · rw [waitOn, if_pos hholds]
    · rw [waitOn, if_neg (Bool.eq_false_iff.mp hfails)]
      rfl
  · rw [exec_knotWait, execKnotWait, run_admits h, knotWait_barrier (p := begun p b) hown hkind hparty]
    refine ⟨fun hholds => ?_, fun hfails => ?_⟩
    · rw [waitOn, if_pos hholds]
    · rw [waitOn, if_neg (Bool.eq_false_iff.mp hfails)]
      rfl
  · obtain ⟨hlo, hhi, hfree⟩ := pickRun_free hpick
    refine ⟨hlo, hhi, hfree, ?_⟩
    rw [exec_knotAlloc, execKnotAlloc, run_admits h, knotAlloc_places (p := begun p b) htenant hpos hmax hcount hpick hpart hquota]
    rfl
  · rw [exec_knotFree, execKnotFree, run_admits h, knotFree_owned (p := begun p b) htenant hpos hmax hcount hend hrun]

/-! ### The knot window (R332) and the timeout of a wait (R336) -/

theorem regValue_knot (d : Device) (k : BitVec 12) : regValue d (0x400000 + 4 * k.toNat) = (knotOf d k.toNat).value.toNat := by
  have hk : k.toNat < 4096 := k.isLt
  have hplace : (0x400000 + 4 * k.toNat - 0x400000) / 4 = k.toNat := by omega
  unfold regValue
  dsimp only
  -- the address lies behind every block of registers
  iterate 17 rw [if_neg (by omega)]
  rw [if_pos (by omega), hplace]

theorem execKnotWaitTimeout_due {s : State} {r : Ref} {w : KnotWaiter} {p : Packet} {t : Nat} (hready : isReady s.dev = true)
    (hwait : s.dev.knots.waiters.find? (fun w => w.ref == r) = some w) (hfind : findPacket s.dev r = some p) (hdue : w.due = some t) :
    execKnotWaitTimeout r s = .next (settled s (refuse p stKnotTimeout { advanceTo t s.dev with knots := { s.dev.knots with
      waiters := s.dev.knots.waiters.filter fun w => w.ref != r } })) := by
  rw [execKnotWaitTimeout, run_settled, hwait, hfind]
  simp only [hdue, hready, if_true, advanceTo_knots]

/-- Settles O32: the window by its address, the timeout by the wait that it ends. -/
theorem knotWindowAndTimeout : Obligations.KnotWindowAndTimeout := by
  intro s
  refine ⟨fun k n halive hn => ?_, fun k halive => ?_, regValue_knot s.dev, fun r w p t hready hwait hfind hdue => ?_⟩
  · rw [exec_knotWindowWrite, execKnotWindowWrite, run_transact halive, if_pos hn]
  · rw [exec_knotWindowWrite, execKnotWindowWrite, run_transact halive, if_neg (not_not_intro rfl)]
  · rw [exec_knotWaitTimeout, execKnotWaitTimeout_due hready hwait hfind hdue]
    refine ⟨_, rfl, ?_, fun x hx => ?_, ?_, ?_⟩
    · simp only [settled, settle_clock, refuse_clock, advanceTo_clock]
    · simp only [settled, settle_knots, refuse_knots, List.mem_filter, bne_iff_ne] at hx
      exact hx.2
    · exact findPacket_settled s (findPacket_finish ..)
    · simp only [settled, settle_knots, refuse_knots]

end Sys2Proof.Machine
end

section
/-! PROOFS. The Gauge (R322 to R326): the rotor's edges, the events of ROTOR and GRID, and WALL after an edge of its reference. -/

namespace Sys2Proof.Machine

/-! ### An edge of the rotor (R322, R323) -/

/-- The direction of a legal edge, read off the pins and INVERT (R322). -/
def edgeUp (a b : Bool) (g : GaugePart) : Bool := (quadrature a b == (quadrature g.pinA g.pinB + 1) % 4) != g.invert

/-- An edge of one pin goes up where the new level of A differs from the old one of B. -/
theorem edgeUp_eq {a b : Bool} {g : GaugePart} (hone : a = g.pinA ↔ b ≠ g.pinB) : edgeUp a b g = ((a != g.pinB) != g.invert) := by
  have hquad : ∀ a b x y : Bool, (a = x ↔ b ≠ y) → (quadrature a b == (quadrature x y + 1) % 4) = (a != y) := by decide
  rw [edgeUp, hquad a b _ _ hone]

section
variable {now : Nat} {a b : Bool} {sa sb : Nat} {g : GaugePart}

/-- Levels that have not stood for FILTER ticks are not accepted. -/
theorem rotorStep_unstable (ha : sa < g.filter.toNat) (hb : sb < g.filter.toNat) : rotorStep now a b sa sb g = g := by
  simp only [rotorStep, if_pos ha, if_pos hb, and_self, or_true, if_true]

variable (ha : g.filter.toNat ≤ sa) (hb : g.filter.toNat ≤ sb)
include ha hb

/-- The pins take the accepted levels; WALL, GRID and the schedule stand. -/
theorem rotorStep_accepted : let r := rotorStep now a b sa sb g
    r.pinA = a ∧ r.pinB = b ∧ r.wall = g.wall ∧ r.grid = g.grid ∧ r.sched = g.sched := by
  unfold rotorStep
  simp only [if_neg (Nat.not_lt.mpr ha), if_neg (Nat.not_lt.mpr hb)]
  split
  · exact ⟨rfl, rfl, rfl, rfl, rfl⟩
  · split
    · exact ⟨rfl, rfl, rfl, rfl, rfl⟩
    · exact ⟨rfl, rfl, rfl, rfl, rfl⟩

variable (hrun : g.rotor ≠ .off)
include hrun

/-- Two pins that change at once (R322). -/
theorem rotorStep_error (hA : a ≠ g.pinA) (hB : b ≠ g.pinB) : rotorStep now a b sa sb g =
    { g with qErr := satAdd16 g.qErr 1, rotor := .unref, pinA := a, pinB := b } := by
  unfold rotorStep
  simp only [if_neg (Nat.not_lt.mpr ha), if_neg (Nat.not_lt.mpr hb), hrun, hA, hB, false_or, ne_eq, not_false_eq_true, and_self,
    if_true, if_false]

/-- A legal edge (R322, R323). -/
theorem rotorStep_legal (hone : a = g.pinA ↔ b ≠ g.pinB) (he : g.e < rotorEdges g) : rotorStep now a b sa sb g =
    (let up := edgeUp a b g; let n := rotorEdges g
     { g with
       e := if up then (g.e + 1) % n else (g.e + n - 1) % n
       revs := if up ∧ g.e + 1 = n then (g.revs + 1) % 256 else if !up ∧ g.e = 0 then (g.revs + 255) % 256 else g.revs
       turns := if up ∧ g.e + 1 = n then g.turns + 1 else if !up ∧ g.e = 0 then g.turns - 1 else g.turns
       edgeAt := some now
       interval := match g.edgeAt with | some t => now - t | none => 0
       up := up
       same := g.edgeAt.isSome && up == g.up
       pinA := a, pinB := b }) := by
  have hsome : ¬(g.rotor = .off ∨ (a = g.pinA ∧ b = g.pinB)) := by
    rintro (hoff | ⟨hA, hB⟩)
    · exact hrun hoff
    · exact hone.mp hA hB
  have hnotBoth : ¬(a ≠ g.pinA ∧ b ≠ g.pinB) := fun ⟨hA, hB⟩ => hA (hone.mpr hB)
  unfold rotorStep
  simp only [if_neg (Nat.not_lt.mpr ha), if_neg (Nat.not_lt.mpr hb)]
  rw [if_neg hsome, if_neg hnotBoth]
  simp only [Nat.mod_eq_of_lt he]
  rfl

end

/-- Settles O33: an edge that is not accepted, an edge of both pins, and a legal one by its direction and place in the turn. -/
theorem rotorCounts : Obligations.RotorCounts := by
  intro now a b sa sb g hrun he
  refine ⟨fun ha hb => ⟨fun hone => ?_, fun hA hB => ?_, ?_⟩, fun ha hb => rotorStep_unstable ha hb⟩
  · rw [rotorStep_legal ha hb hrun hone he]
    dsimp only
    refine ⟨fun hup hlt => ?_, fun hup hlast => ?_, fun hdown hpos => ?_, fun hdown hzero => ?_, edgeUp_eq hone, rfl, rfl⟩
    · rw [hup, if_pos rfl, Nat.mod_eq_of_lt hlt, if_neg (by omega), if_neg (by simp)]
      exact ⟨rfl, rfl⟩
    · rw [hup, if_pos rfl, hlast, Nat.mod_self, if_pos ⟨rfl, rfl⟩]
      exact ⟨rfl, rfl⟩
    · have hback : (g.e + rotorEdges g - 1) % rotorEdges g = g.e - 1 := by
        rw [show g.e + rotorEdges g - 1 = g.e - 1 + rotorEdges g by omega, Nat.add_mod_right, Nat.mod_eq_of_lt (by omega)]
      rw [hdown, if_neg (by decide), hback, if_neg (by simp), if_neg (by omega)]
      exact ⟨rfl, rfl⟩
    · have hback : (g.e + rotorEdges g - 1) % rotorEdges g = rotorEdges g - 1 := by
        rw [hzero, Nat.zero_add, Nat.mod_eq_of_lt (by omega)]
      rw [hdown, if_neg (by decide), hback, if_neg (by simp), if_pos ⟨rfl, hzero⟩]
      exact ⟨rfl, rfl⟩
  · rw [rotorStep_error ha hb hrun hA hB]
    exact ⟨rfl, rfl, rfl⟩
  · exact rotorStep_accepted ha hb

/-! ### A change of the Gauge, and the time that passes before it -/

/-- What does not read WALL or its slew is the same after some time (R325). -/
theorem advance_base {α : Type} (f : GaugePart → α)
    (h : ∀ g w l s r, f { g with wall := w, slewLeft := l, slew := s, slewRem := r } = f g) (n : Nat) (d : Device) :
    f (advance n d).gauge = f d.gauge := by rw [advance_gauge, h]

theorem advanceTo_base {α : Type} (f : GaugePart → α)
    (h : ∀ g w l s r, f { g with wall := w, slewLeft := l, slew := s, slewRem := r } = f g) (t : Nat) (d : Device) :
    f (advanceTo t d).gauge = f d.gauge := advance_base f h ..

/-- A change of the Gauge may set DEV_EVENT.GAUGE_LOCK, and touches nothing else (R562). -/
theorem onGauge_frame (f : GaugePart → GaugePart) (d : Device) :
    onGauge f d = { d with gauge := f d.gauge, host := (onGauge f d).host } := by
  unfold onGauge
  dsimp only
  split
  · rfl
  · rfl

theorem onGauge_gauge (f : GaugePart → GaugePart) (d : Device) : (onGauge f d).gauge = f d.gauge := by rw [onGauge_frame]
theorem onGauge_clock (f : GaugePart → GaugePart) (d : Device) : (onGauge f d).clock = d.clock := by rw [onGauge_frame]

/-- A base that changes its state sets the flag (R562). -/
theorem onGauge_event {f : GaugePart → GaugePart} {d : Device}
    (h : ¬((f d.gauge).rotor = d.gauge.rotor ∧ (f d.gauge).grid = d.gauge.grid ∧ (f d.gauge).wallSt = d.gauge.wallSt)) :
    (onGauge f d).host.event.getLsbD evGaugeLock = true := by
  unfold onGauge
  dsimp only
  rw [if_neg h]
  exact setEvent_event _ _ (by decide)

/-! ### The events of ROTOR and GRID (R322 to R324) -/

/-- Z in a rotor that runs: the index returns to 0, and the entries of the rotor count from there (R322). -/
def zAccepted (d : Device) : Device :=
  let e := onGauge (fun g => { g with zErr := if g.e % rotorEdges g = 0 then g.zErr else satAdd16 g.zErr 1, e := 0, rotor := .locked }) d
  { e with gauge := rebase .rotor (rotorFar e) e.gauge }

theorem zAccepted_gauge (d : Device) : (zAccepted d).gauge =
    { d.gauge with zErr := if d.gauge.e % rotorEdges d.gauge = 0 then d.gauge.zErr else satAdd16 d.gauge.zErr 1, e := 0, rotor := .locked
                   sched := (zAccepted d).gauge.sched } := by
  simp only [zAccepted, onGauge_gauge, rebase]

section
variable {s : State} (hrun : isFrozen s.dev = false)
include hrun

theorem gaugeAlive_running : gaugeAlive s.dev = true := by rw [gaugeAlive, hrun]; rfl

theorem execRotorZ_running (hrotor : s.dev.gauge.rotor ≠ .off) :
    execRotorZ s = .next (settled s (zAccepted (advance (10 * s.dev.gauge.filter.toNat) s.dev))) := by
  rw [execRotorZ, run_settled, if_pos ⟨gaugeAlive_running hrun, hrotor⟩]
  rfl

theorem execGridEdgeTimeout_locked (hgrid : s.dev.gauge.grid = .locked) : ∃ t, execGridEdgeTimeout s =
    .next (settled s (onGauge (fun g => { g with grid := .holdover, holdAt := (advanceTo t s.dev).clock, bad := 0, good := 0 })
      (advanceTo t s.dev))) := by
  refine ⟨s.dev.gauge.gridAt.getD s.dev.clock + gridLate s.dev.gauge, ?_⟩
  rw [execGridEdgeTimeout, run_settled, if_pos ⟨gaugeAlive_running hrun, hgrid⟩]

theorem execGridHoldoverTimeout_held (hgrid : s.dev.gauge.grid = .holdover) : execGridHoldoverTimeout s =
    .next (settled s (onGauge (fun g => { g with grid := .acquire, bad := 0, good := 0 }) (advanceTo (s.dev.gauge.holdAt + second) s.dev))) := by
  rw [execGridHoldoverTimeout, run_settled, if_pos ⟨gaugeAlive_running hrun, hgrid⟩]

end

/-- Settles O34: each event by the lemma of its command, after the time that it carries. -/
theorem rotorAndGridEvents : Obligations.RotorAndGridEvents := by
  intro s hrun
  have halive := gaugeAlive_running hrun
  refine ⟨fun dt a b => ?_, fun hoff => ?_, fun hrotor => ?_, fun t0 hedge hrotor => ?_, fun dt hgrid => ?_, fun hgrid => ?_, fun hgrid => ?_⟩
  · rw [exec_rotorEdge, execRotorEdge, run_settled, if_pos halive]
  · rw [exec_rotorZ, execRotorZ, run_settled, if_neg fun h => h.2 hoff]
  · have hg := zAccepted_gauge (advance (10 * s.dev.gauge.filter.toNat) s.dev)
    have hplace : (advance (10 * s.dev.gauge.filter.toNat) s.dev).gauge.e % rotorEdges (advance (10 * s.dev.gauge.filter.toNat) s.dev).gauge =
        s.dev.gauge.e % rotorEdges s.dev.gauge := advance_base (fun g => g.e % rotorEdges g) (fun _ _ _ _ _ => rfl) ..
    rw [exec_rotorZ, execRotorZ_running hrun hrotor]
    refine ⟨_, rfl, ?_⟩
    rw [settled, settle_clock, settle_gauge, hg, hplace]
    dsimp only
    refine ⟨?_, rfl, rfl, ?_, rfl, advance_base (·.grid) (fun _ _ _ _ _ => rfl) ..⟩
    · exact (onGauge_clock ..).trans (advance_clock ..)
    · rw [advance_base (·.zErr) fun _ _ _ _ _ => rfl]
  · rw [exec_rotorIdleTimeout, execRotorIdleTimeout, run_settled, hedge]
    dsimp only
    rw [if_pos ⟨halive, hrotor⟩]
    refine ⟨_, rfl, ?_, ?_⟩
    · simp only [settled, settle_gauge]
    · simp only [settled, settle_clock, advanceTo_clock]
  · have hon : (advance dt s.dev).gauge.grid ≠ .off := by rwa [advance_base (·.grid) fun _ _ _ _ _ => rfl]
    rw [exec_gridEdge, execGridEdge, run_settled, if_pos halive]
    dsimp only
    rw [if_neg hon]
  · obtain ⟨t, ht⟩ := execGridEdgeTimeout_locked hrun hgrid
    have hwas : (advanceTo t s.dev).gauge.grid = .locked := (advanceTo_base (·.grid) (fun _ _ _ _ _ => rfl) ..).trans hgrid
    rw [exec_gridEdgeTimeout, ht]
    refine ⟨_, rfl, ?_, ?_⟩
    · rw [settled, settle_gauge, onGauge_gauge]
    · rw [settled, settle_event _ _ (by decide)]
      exact onGauge_event (by simp [hwas])
  · have hwas : (advanceTo (s.dev.gauge.holdAt + second) s.dev).gauge.grid = .holdover :=
      (advanceTo_base (·.grid) (fun _ _ _ _ _ => rfl) ..).trans hgrid
    rw [exec_gridHoldoverTimeout, execGridHoldoverTimeout_held hrun hgrid]
    refine ⟨_, rfl, ?_, ?_, ?_⟩
    · rw [settled, settle_gauge, onGauge_gauge]
    · rw [settled, settle_event _ _ (by decide)]
      exact onGauge_event (by simp [hwas])
    · rw [settled, settle_clock, onGauge_clock, advanceTo_clock]

/-! ### WALL after a set that waited for its edge (R325, R326) -/

/-- A set that WALL has not passed puts its whole second into WALL, with no slew. -/
theorem applySet_gauge {r : Ref} {secs : Nat} {d : Device} {p : Packet} (hfind : findPacket d r = some p)
    (hahead : wallNow d ≤ secs * second) : (applySet r secs d).gauge =
      { d.gauge with wall := secs * second, slewRem := 0, slew := 0, slewLeft := 0, stepped := true } := by
  simp only [applySet, hfind]
  rw [if_neg (Nat.not_lt.mpr hahead), complete_gauge, ledgerAct_gauge]

/-- An edge of a running reference measures WALL's offset and slews against it. -/
theorem disciplineWall_slew (d : Device) : (disciplineWall d).gauge.slew = slewFor (secondOffset (wallNow d)) := by
  rw [disciplineWall, onGauge_gauge]

/-- An offset of 500 µs and more is slewed at the full rate. -/
theorem slewFor_full {off : Int} (hoff : 500000 ≤ off) : slewFor off = -500 := by
  have hleast : min 500 (ceilDiv off.natAbs 1000) = 500 := by
    rw [ceilDiv]
    omega
  have hpos : off > 0 := by omega
  simp only [slewFor, hleast, if_pos hpos, Nat.reduceSub, Nat.mod_one]
  rfl

/-- A packet of GAUGE_WALL_SET that waits for an edge. -/
def waitingSet : Packet :=
  { chan := .host, hdr := { opcode := 0x0510, tag := 1, tenant := 0, flags := 1, job := 0, len := 16, deadline := 0 }, raw := []
    payload := [], order := 0, key := [], role := roleOperator, cred := [], at_ := 0, started := true, plain := [] }

/-- The first second that lies past the 64-bit count of WALL: 2^64 ns are 18,446,744,073.709551616 s. -/
abbrev pastWall : Nat := 18446744074

/-- A disciplined WALL, and a set that waits for `pastWall`. GAUGE_WALL_SET refuses such a second (R326), so no packet brings the device
here; the statement speaks of every state, and puts no bound on the second of a pending set. -/
def pastWallState : State :=
  { dev := { boot := { phase := .ready }, cmd := { flight := [waitingSet] }
             gauge := { ppsEn := true, stepped := true, settings := [(refOf waitingSet, pastWall, 0)] } } }

theorem execPpsEdge_applies {s : State} {dt n began : Nat} {r : Ref} (hrun : isFrozen s.dev = false) (hpps : s.dev.gauge.ppsEn = true)
    (hstepped : s.dev.gauge.stepped = true) (hset : s.dev.gauge.settings = [(r, n, began)]) : ∃ d : Device,
      execPpsEdge dt s = .next (settled s (disciplineWall (applySet r n d))) ∧ d.cmd = s.dev.cmd := by
  have hon : (advance dt s.dev).gauge.ppsEn = true := (advance_base (·.ppsEn) (fun _ _ _ _ _ => rfl) ..).trans hpps
  have hlater : (advance dt s.dev).gauge.stepped = true := (advance_base (·.stepped) (fun _ _ _ _ _ => rfl) ..).trans hstepped
  have hone : (advance dt s.dev).gauge.settings = [(r, n, began)] := (advance_base (·.settings) (fun _ _ _ _ _ => rfl) ..).trans hset
  refine ⟨{ advance dt s.dev with gauge.ppsAt := (advance dt s.dev).clock, gauge.settings := [] }, ?_, advance_cmd ..⟩
  rw [execPpsEdge, run_settled, gaugeAlive_running hrun]
  simp only [hon, hlater, hone, Bool.not_true, Bool.and_false, Bool.not_false, Bool.false_eq_true, if_true, if_false, List.foldl_cons,
    List.foldl_nil]

/-- The edge applies the set, and measures 290,448,384 ns on WALL's 64-bit count: the slew starts again at its full rate. -/
theorem ppsEdge_pastWall : ∃ t, exec (.ppsEdge 0) pastWallState = .next t ∧ t.dev.gauge.slew = -500 := by
  obtain ⟨d, hexec, hcmd⟩ := execPpsEdge_applies (s := pastWallState) (dt := 0) rfl rfl rfl rfl
  have hfind : findPacket d (refOf waitingSet) = some waitingSet := by rw [findPacket, hcmd]; rfl
  have hahead : wallNow d ≤ pastWall * second := (Nat.mod_lt _ (by decide)).le.trans (by decide)
  have hwraps : pastWall * second % 2 ^ 64 = 290448384 := by norm_num
  have hwall : wallNow (applySet (refOf waitingSet) pastWall d) = 290448384 := by
    rw [wallNow, applySet_gauge hfind hahead]
    exact hwraps
  refine ⟨_, (exec_ppsEdge ..).trans hexec, ?_⟩
  rw [settled, settle_gauge, disciplineWall_slew, hwall]
  exact slewFor_full (by decide)

/-- Refutes O35: where a pending set names a second that 64 bits of ns do not hold, the edge that applies it leaves a slew of -500 ppm. -/
theorem not_wallFollowsItsReference : ¬ Obligations.WallFollowsItsReference := by
  intro h
  obtain ⟨t, ht, -, -, -, hslew⟩ := (h pastWallState).2.1 0 (refOf waitingSet) pastWall 0 waitingSet rfl rfl rfl rfl (by decide)
  obtain ⟨t', ht', hslew'⟩ := ppsEdge_pastWall
  cases ht.symm.trans ht'
  omega

end Sys2Proof.Machine
end

section
/-! PROOFS. The schedule (R327, R328, R333): its packets, the targets that a base crosses, and what a firing does. -/

namespace Sys2Proof.Machine

/-! ### The packets of the schedule (R333) -/

/-- The 24 bytes that GAUGE_SCHED_QUERY reports of an entry (R333). -/
def entryReport (d : Device) (e : SchedEntry) : List Byte :=
  let base : Byte := match e.base with | .rotor => 0 | .grid => 1 | .wall => 2
  let action : Byte := match e.action with | .fixedRun => 0 | .knot => 1 | .submit => 2
  [base, action, 0, 0] ++ leBytes 4 e.firings.toNat ++ leBytes 4 e.misses.toNat ++ zeros 4 ++ leBytes 8 (entryNext d e)

section
variable {p : Packet} {b : List Byte} {d : Device} {e : SchedEntry} (htenant : p.hdr.tenant ≠ 0)
include htenant

theorem gaugeSchedAdd_enters (hentry : entryOf p.hdr.tenant b = some e) (hok : entryOk b.length e = true)
    (hknot : e.action = .knot → ownsKnot d p.hdr.tenant e.knot.toNat = true) (hroom : d.gauge.sched.length < 256)
    (hshare : (d.gauge.sched.filter fun x => x.2.owner == p.hdr.tenant).length < 32) (hbase : e.base ≠ .wall) :
    gaugeSchedAdd p b d = finish p stOK (leBytes 2 (firstGap 0 d.gauge.sched) ++ [0, 0])
      (schedMiss (firstGap 0 d.gauge.sched) 0 { d with gauge := { d.gauge with
        sched := Assoc.insert d.gauge.sched (firstGap 0 d.gauge.sched) { e with seen := baseFar d e.base } } }) := by
  have howned : ¬(e.action = .knot ∧ (!ownsKnot d p.hdr.tenant e.knot.toNat) = true) := by
    rintro ⟨hact, hnot⟩
    rw [hknot hact] at hnot
    cases hnot
  simp only [gaugeSchedAdd, hentry, hok, Bool.not_true, Bool.false_eq_true, if_false]
  rw [roomFor_tenant htenant, if_neg howned, if_neg (by omega), gatedAct_tenant htenant, if_neg fun h => hbase h.1]

section
variable (hown : ownEntry d p.hdr.tenant (field b 0 2) = some e)
include hown

theorem gaugeSchedRemove_own : gaugeSchedRemove p b d =
    complete p { d with gauge := { d.gauge with sched := Assoc.erase d.gauge.sched (field b 0 2) } } := by
  have hfound : ¬(ownEntry d p.hdr.tenant (field b 0 2)).isNone = true := by rw [hown]; exact Bool.false_ne_true
  rw [gaugeSchedRemove, if_neg hfound, gatedAct_tenant htenant]

theorem gaugeSchedQuery_own : gaugeSchedQuery p b d = finish p stOK (entryReport d e) d := by
  simp only [gaugeSchedQuery, hown]
  rw [gatedAct_tenant htenant]
  rfl

end

end

/-- The size that GAUGE_SCHED_ADD asks for is that of the packet it names: 128 bytes, or else 32 (R333). -/
theorem runOp_schedAdd {r : Ref} {p : Packet} {b : List Byte} {c : Option Nat} {s : State}
    (h : Admits (schedSpec 0x0520 (if plainLen p = 128 then 128 else 32) [(3, 1), (12, 4), (34, 2)] [(2, 0xF8)]) r p b c s.dev) :
    execGaugeSchedAdd r s = .next (settled s (gaugeSchedAdd (begun p b) b (admitted p b c s.dev))) := by
  rw [execGaugeSchedAdd, run_settled, h.found]
  exact congrArg _ (congrArg _ (runOp_admits h _))

/-- Settles O36: an entry put into its slot, one taken out, and one reported. -/
theorem schedulePacketsComplete : Obligations.SchedulePacketsComplete := by
  intro s r p b c htenant
  refine ⟨fun e h hentry hok hknot hroom hshare hbase => ?_, fun e h hown => ?_, fun e h hown => ?_⟩
  · rw [exec_gaugeSchedAdd, runOp_schedAdd h,
      gaugeSchedAdd_enters (p := begun p b) htenant hentry hok hknot hroom hshare hbase]
  · rw [exec_gaugeSchedRemove, execGaugeSchedRemove, run_admits h, gaugeSchedRemove_own (p := begun p b) htenant hown]
  · rw [exec_gaugeSchedQuery, execGaugeSchedQuery, run_admits h, gaugeSchedQuery_own (p := begun p b) htenant hown]
    exact ⟨entryReport _ e, rfl, rfl, rfl, rfl, rfl⟩

/-! ### Targets that a base crosses (R327) -/

/-- Multiples of m from t lie between two places exactly where their counts from t differ. -/
theorem ediv_lt_ediv_iff {m : Int} (hm : 0 < m) (lo hi t : Int) :
    (lo - t) / m < (hi - t) / m ↔ ∃ k : Int, lo < t + k * m ∧ t + k * m ≤ hi := by
  constructor
  · intro h
    refine ⟨(hi - t) / m, ?_, ?_⟩
    · have := (Int.ediv_lt_iff_lt_mul hm).mp h
      omega
    · have := Int.ediv_mul_le (hi - t) hm.ne'
      omega
  · rintro ⟨k, hlo, hhi⟩
    calc (lo - t) / m < k := (Int.ediv_lt_iff_lt_mul hm).mpr (by omega)
      _ ≤ (hi - t) / m := (Int.le_ediv_iff_mul_le hm).mpr (by omega)

theorem baseModulus_pos (b : SchedBase) : 0 < baseModulus b := by cases b <;> decide

/-- An entry with one target per turn, which fires forward, counts the places of its offset that the base has passed. -/
theorem crossed_forward {d : Device} {e : SchedEntry} (hone : e.n = 1) (hdir : e.dir = 0) (hoff : e.offset < baseModulus e.base) :
    crossed d e = ((baseFar d e.base - e.offset) / (baseModulus e.base : Nat) - (e.seen - e.offset) / (baseModulus e.base : Nat)).toNat := by
  have htargets : entryTargets e = [e.offset] := by
    simp only [entryTargets, hone, List.range_one, List.map_cons, List.map_nil, Nat.zero_mul, Nat.zero_div, Nat.add_zero,
      Nat.mod_eq_of_lt hoff]
  simp only [crossed, hdir, targetsWithin, htargets]
  rfl

theorem crossed_pos_iff {d : Device} {e : SchedEntry} (hone : e.n = 1) (hdir : e.dir = 0) (hoff : e.offset < baseModulus e.base) :
    0 < crossed d e ↔
      ∃ k : Int, e.seen < e.offset + k * baseModulus e.base ∧ e.offset + k * baseModulus e.base ≤ baseFar d e.base := by
  rw [crossed_forward hone hdir hoff, ← ediv_lt_ediv_iff (by exact_mod_cast baseModulus_pos e.base)]
  omega

/-! ### A firing (R327, R328) -/

/-- In READY an entry fires once its base has crossed a target of its. -/
theorem schedFire_crossed {i dt : Nat} {d : Device} {e : SchedEntry} (halive : coreAlive d = true) (hphase : d.boot.phase = .ready)
    (hfind : Assoc.find d.gauge.sched i = some e) (hbase : e.base ≠ .wall) (hcross : 0 < crossed (advance dt d) e)
    (hfires : baseFires d.gauge e.base = true) : ∃ x, schedFire e.action i dt d = (some (e, e.firings.toNat + 1), x) := by
  have hstill : baseFires (advance dt d).gauge e.base = true :=
    (advance_base (baseFires · e.base) (fun _ _ _ _ _ => by cases e.base <;> rfl) ..).trans hfires
  have hruns : ¬(e.action ≠ e.action ∨ (!(coreAlive d && decide (d.boot.phase = .ready ∨ d.boot.phase = .lowPower))) = true) := by
    simp [halive, hphase]
  simp only [schedFire, hfind]
  rw [if_neg hruns]
  simp only [hbase, if_false, hstill, hcross, decide_true, Bool.and_true, if_true]
  exact ⟨_, rfl⟩

/-- A tag that is not in flight names no packet of the host's (R84). -/
theorem findPacket_of_tagState {d : Device} {tag : W16} (h : (tagState d tag).1 ≠ 1) :
    findPacket d { chan := .host, tag := tag } = none := by
  unfold tagState at h
  split at h
  · exact absurd rfl h
  · next hnone => exact hnone

section
variable {s : State} {i : Byte} {ticks ns n : Nat} {e : SchedEntry} {d : Device}

theorem execSchedFixedRun_fires (hfire : schedFire .fixedRun i.toNat (10 * ticks + ns) s.dev = (some (e, n), d))
    (hsrc : d.fix.trigSrc = 1 ∨ d.fix.trigSrc = 2) : execSchedFixedRun i ticks ns s = .next (settled s (fixTrigger d)) := by
  rw [execSchedFixedRun, run_settled, show tickNs * ticks + ns = 10 * ticks + ns from rfl, hfire]
  dsimp only
  rw [if_pos hsrc]

theorem execSchedKnot_fires (hfire : schedFire .knot i.toNat (10 * ticks + ns) s.dev = (some (e, n), d)) :
    execSchedKnot i ticks ns s = .next (settled s (knotSignal e.knot.toNat e.inc.toNat (wakeUp 3 d))) := by
  rw [execSchedKnot, run_settled, show tickNs * ticks + ns = 10 * ticks + ns from rfl, hfire]

/-- The packet of a SUBMIT entry meets the order of R61, and runs if it is accepted (R328). -/
theorem execSchedSubmit_fires (hfire : schedFire .submit i.toNat (10 * ticks + ns) s.dev = (some (e, n), d)) :
    execSchedSubmit i ticks ns s = .next (settled s (let w := wakeUp 3 d; let p := schedPacket w i.toNat n e
      if (tagState w e.tag).1 = 1 then schedMiss i.toNat 1 w
      else runOp submitSpec (refOf p) serveSubmit (submitPacket p (if tagFree w .host e.tag then none else some 5) (p.raw ++ zeros 108) w))) := by
  rw [execSchedSubmit, run_settled, show tickNs * ticks + ns = 10 * ticks + ns from rfl, hfire]

end

/-- The packet's bytes: 28 of its header, then 108 (R53, R328). -/
theorem schedPacket_length (w : Device) (i n : Nat) (e : SchedEntry) : ((schedPacket w i n e).raw ++ zeros 108).length = 136 := by
  simp only [schedPacket, zeros, List.length_append, leBytes_length, List.length_cons, List.length_nil, List.length_replicate]

section
variable {w : Device} {i n : Nat} {e : SchedEntry} (hready : isReady w = true) (hroom : intakeUsed w + 136 ≤ 262144)
include hready hroom

/-- A tag whose record is held or in the ring is refused (R61). -/
theorem schedPacket_refused (htag : (tagState w e.tag).1 ≠ 1) : let p := schedPacket w i n e
    let x := runOp submitSpec (refOf p) serveSubmit (submitPacket p (some 5) (p.raw ++ zeros 108) w)
    x.cmd.flight = w.cmd.flight ∧ x.cmd.rejectCount = w.cmd.rejectCount + 1 ∧ x.cmd.errCause = 5 := by
  intro p x
  have hsubmit : submitPacket p (some 5) (p.raw ++ zeros 108) w =
      queueRecord (recordOf w p.hdr.tag stBadPacket false [] p.hdr.opcode p.hdr.tenant) (rejectWith 5 (p.raw ++ zeros 108) w) :=
    submitPacket_refused rfl hready (by rw [schedPacket_length]; exact hroom)
  have hflight := queueRecord_cmd (fun c => c.flight) (fun _ _ _ _ _ _ => rfl)
    (recordOf w p.hdr.tag stBadPacket false [] p.hdr.opcode p.hdr.tenant) (rejectWith 5 (p.raw ++ zeros 108) w)
  have hnone : findPacket (submitPacket p (some 5) (p.raw ++ zeros 108) w) (refOf p) = none := by
    rw [hsubmit, findPacket, hflight]
    exact findPacket_of_tagState htag
  have hx : x = queueRecord (recordOf w p.hdr.tag stBadPacket false [] p.hdr.opcode p.hdr.tenant) (rejectWith 5 (p.raw ++ zeros 108) w) := by
    show runOp _ _ _ _ = _
    rw [runOp, hnone]
    exact hsubmit
  rw [hx]
  exact ⟨hflight, queueRecord_cmd (fun c => c.rejectCount) (fun _ _ _ _ _ _ => rfl) _ _,
    queueRecord_cmd (fun c => c.errCause) (fun _ _ _ _ _ _ => rfl) _ _⟩

end

/-- Settles O37: each action by the lemma of its command, and the crossing by the count of the entry's targets. -/
theorem scheduleFirings : Obligations.ScheduleFirings := by
  intro s i ticks ns e n d
  refine ⟨fun hfire hsrc => ?_, fun hfire => ?_,
    fun hfire => ⟨fun htag => ?_, fun htag htakes hroom => ⟨fun hfree b c h => ?_, fun hheld => ?_⟩⟩, schedFire_crossed, fun _ hone hdir hoff _ => crossed_pos_iff hone hdir hoff⟩
  · rw [exec_schedFixedRun, execSchedFixedRun_fires hfire hsrc]
  · rw [exec_schedKnot, execSchedKnot_fires hfire]
  · rw [exec_schedSubmit, execSchedSubmit_fires hfire]
    dsimp only
    rw [if_pos htag]
  · rw [takesPackets_host] at htakes
    rw [exec_schedSubmit, execSchedSubmit_fires hfire]
    dsimp only
    rw [if_neg htag, hfree, if_pos rfl, submitPacket_accepted rfl htakes (by rw [schedPacket_length]; exact hroom), runOp_admits h]
  · rw [takesPackets_host] at htakes
    rw [exec_schedSubmit, execSchedSubmit_fires hfire]
    dsimp only
    rw [if_neg htag, hheld, if_neg Bool.false_ne_true]
    obtain ⟨hflight, hcount, hcause⟩ := schedPacket_refused (i := i.toNat) (n := n) htakes hroom htag
    refine ⟨_, rfl, ?_, ?_, ?_⟩
    all_goals simp only [settled, settle_cmd]
    · exact hflight
    · exact hcount
    · exact hcause

end Sys2Proof.Machine
end

section
/-! PROOFS. The Fixed plane (R305 to R313): what its operations leave of its state, its packets, and the end of a check run. -/

namespace Sys2Proof.Machine

/-! ### What the operations of the plane leave of its state -/

theorem privileged_room {d : Device} (hroom : ledgerRoom d = none) (p : Packet) (act : Device → Device) : privileged p act d = act d := by
  rw [privileged, hroom]

theorem ledgerDigest_fix (p : Packet) (kind : W16) (detail : List Byte) (t : Byte) (st : W16) (act : List Byte) (d : Device) :
    (ledgerDigest p kind detail t st act d).fix = d.fix := ledgerWrite_fix ..

theorem saveFix_fix (d : Device) : (saveFix d).fix = { d.fix with saved := (saveFix d).fix.saved } := rfl

theorem giveFallback_fix (f : Fallback) (d : Device) : (giveFallback f d).fix =
    { d.fix with fallback := (giveFallback f d).fix.fallback, nextFb := (giveFallback f d).fix.nextFb } := by
  unfold giveFallback
  split
  · rfl
  · rfl

/-- A fold of steps that leave the plane leaves it. -/
theorem foldl_fix {α : Type} {f : Device → α → Device} (h : ∀ d x, (f d x).fix = d.fix) (l : List α) (d : Device) :
    (l.foldl f d).fix = d.fix := by
  induction l generalizing d with
  | nil => rfl
  | cons x l ih => exact (ih _).trans (h d x)

theorem clearTiles_fix (on : Bool) (l : List Nat) (d : Device) : (l.foldl (fun d t => clearFixTile on t d) d).fix = d.fix :=
  foldl_fix (f := fun d t => clearFixTile on t d) (fun _ _ => rfl) l d

theorem placeSections_fix (img : List Byte) (d : Device) : (placeSections img d).fix = d.fix :=
  foldl_fix (f := fun d (x : Nat × Nat) => storeWrite x.1 0 (slice img (imgTile img x.2).1 (imgTile img x.2).2.1) d) (fun _ _ => rfl) _ d

/-- The lists of an image touch the tiles and the bus plan alone. -/
theorem queueImage_boot (img frame : List Byte) (d : Device) : (queueImage img frame d).boot = d.boot := by
  have hfold : ∀ (l : List (Nat × Nat)) (f : Nat × Nat → TileState → TileState) (d : Device),
      (l.foldl (fun d x => onTile x.1 (f x) d) d).boot = d.boot := by
    intro l f
    induction l with
    | nil => exact fun _ => rfl
    | cons x l ih => exact fun d => ih _
  exact hfold _ _ _

/-- What the end of a plan may change: tiles, their stores, what the drains write, and the plan itself. -/
def PlanRest (d e : Device) : Prop := e = { d with
  tiles := e.tiles, fab := e.fab, serve := e.serve, freeCtr := e.freeCtr, link := e.link
  mem := { d.mem with partials := e.mem.partials }, fix := { d.fix with plan := e.fix.plan } }

theorem PlanRest.trans {a b c : Device} (h : PlanRest a b) (k : PlanRest b c) : PlanRest a c := by
  unfold PlanRest at *
  rw [k, h]

theorem finishPlan_rest (d : Device) : PlanRest d (finishPlan d) := by
  have hfold : ∀ (l : List Nat) (g : Device → Nat → Nat) (d : Device), PlanRest d (l.foldl (fun d t => runPlan t (g d t) d) d) := by
    intro l g
    induction l with
    | nil => exact fun _ => rfl
    | cons t l ih => exact fun d => PlanRest.trans (runPlan_plan ..).rest (ih _)
  exact hfold ..

theorem finishPlan_cmd (d : Device) : (finishPlan d).cmd = d.cmd := by rw [finishPlan_rest d]

theorem finishPlan_fix (d : Device) : (finishPlan d).fix = { d.fix with plan := (finishPlan d).fix.plan } :=
  congrArg Device.fix (finishPlan_rest d)

/-! ### The packets of the plane (R309 to R313) -/

/-- The device with the bytes of a load so far: image and commits are gone (R311). -/
def chunkTaken (got : List Byte) (d : Device) : Device :=
  { d with fix := { d.fix with loading := some got, image := none, digest := [], commit0 := none, commit1 := none, part0 := 0, part1 := 0 } }

section
variable {p : Packet} {b : List Byte} {d : Device} (hroom : ledgerRoom d = none)
include hroom

theorem fixReserve_free (hbusy : fixBusy d = false) (harmed : d.fix.armed = false) (hfew : (maskList 32 (word32 b 0).toNat).length ≤ 4)
    (hfree : (maskList 32 (word32 b 0).toNat).any (tileTaken d) = false) : fixReserve p b d =
      if word32 b 0 = d.fix.mask then refuse p stAlreadyDone (ledgerConfig p d)
      else complete p (saveFix (reserveTiles (word32 b 0) (ledgerConfig p d))) := by
  have htiles : ¬((maskList 32 (word32 b 0).toNat).length > 4 ∨ (maskList 32 (word32 b 0).toNat).any (tileTaken d) = true) := by
    rw [hfree]
    simpa using hfew
  rw [fixReserve, privileged_room hroom, harmed, hbusy, if_neg Bool.false_ne_true, if_neg Bool.false_ne_true, if_neg htiles]
  dsimp only
  rw [ledgerConfig_fix]

theorem fixLoad_begins (hbusy : fixBusy d = false) (harmed : d.fix.armed = false) (hmask : d.fix.mask ≠ 0) (hsrc : field b 4 4 % 4 = 0)
    (hwhole : field b 8 4 % 4 = 0) (hleast : 4 ≤ field b 8 4) (hend : field b 4 4 + field b 8 4 ≤ 65408) (hstart : field b 0 4 = 0)
    (hflags : field b 12 4 ≤ 1) : fixLoad p b d =
      if field b 12 4 = 1 then endLoad p (runBytes d (field b 4 4) (field b 8 4)) (chunkTaken (runBytes d (field b 4 4) (field b 8 4)) d)
      else complete p (ledgerConfig p (chunkTaken (runBytes d (field b 4 4) (field b 8 4)) d)) := by
  have hstate : ¬(d.fix.armed = true ∨ d.fix.mask = 0 ∨ (field b 0 4 ≠ 0 ∧ some (field b 0 4) ≠ d.fix.loading.map (·.length))) := by
    rintro (h | h | ⟨h, -⟩)
    · rw [harmed] at h
      cases h
    · exact hmask h
    · exact h hstart
  rw [fixLoad, if_neg (by omega), privileged_room hroom, if_neg hstate, hbusy, if_neg Bool.false_ne_true, if_pos hstart]
  rfl

theorem fixArm_queues {img : List Byte} (hbusy : fixBusy d = false) (himg : d.fix.image = some img)
    (htiles : field img 2 1 = (fixTiles d).length) (hlo : 4 ≤ field b 0 4) (hhi : field b 0 4 ≤ 100) : fixArm p b d =
      queueImage img [] { d with fix := { d.fix with arming := some (refOf p, field b 0 4) } } := by
  rw [fixArm, if_neg (by omega), privileged_room hroom, himg]
  dsimp only
  rw [if_neg (not_not_intro htiles), hbusy, if_neg Bool.false_ne_true]

theorem fixDisarm_armed (harming : d.fix.arming = none) (harmed : d.fix.armed = true) : fixDisarm p b d =
    complete p (saveFix { ledgerConfig p d with fix := { d.fix with armed := false } }) := by
  have hidle : ¬d.fix.arming.isSome = true := by rw [harming]; exact Bool.false_ne_true
  rw [fixDisarm, if_neg hidle, privileged_room hroom]
  simp only [ledgerConfig_fix, harmed, if_true]

end

/-! ### The last chunk of a load (R311) -/

section
variable {p : Packet} {img : List Byte} {d : Device}

/-- An image that fails a check leaves nothing of itself, and the tiles cleared. -/
theorem endLoad_invalid {o : Nat} (h : imageFault img (fixTiles d).length = some o) : endLoad p img d =
    finish p stFixImageInvalid (leBytes 8 o)
      (saveFix ((fixTiles d).foldl (fun d t => clearFixTile true t d) { d with fix := { d.fix with loading := none } })) := by
  unfold endLoad
  dsimp only
  rw [show imageFault img (fixTiles { d with fix := { d.fix with loading := none } }).length = some o from h]
  rfl

/-- An image that passes is installed, with its fallback and its entry in the ledger. -/
theorem endLoad_valid (h : imageFault img (fixTiles d).length = none) : endLoad p img d =
    finish p stOK (digest32 img) (saveFix (giveFallback (imgFallback img)
      (ledgerDigest p 0x0020 (leBytes 4 p.hdr.opcode.toNat) p.hdr.tenant stOK (digest32 img)
        (placeSections img { d with fix := { d.fix with loading := none, image := some img, digest := digest32 img } })))) := by
  unfold endLoad
  dsimp only
  rw [show imageFault img (fixTiles { d with fix := { d.fix with loading := none } }).length = none from h]

/-- Either way the load is over, and the reservation stands. -/
theorem endLoad_ends (p : Packet) (img : List Byte) (d : Device) : let e := endLoad p img d
    e.fix.loading = none ∧ findPacket e (refOf p) = none ∧ e.fix.mask = d.fix.mask ∧
    (imageFault img (fixTiles d).length = none → e.fix.image = some img ∧ e.fix.digest = digest32 img) ∧
    (imageFault img (fixTiles d).length ≠ none → e.fix.image = d.fix.image) := by
  cases h : imageFault img (fixTiles d).length with
  | none =>
    dsimp only
    rw [endLoad_valid h]
    refine ⟨?_, findPacket_finish .., ?_, fun _ => ⟨?_, ?_⟩, fun hbad => absurd rfl hbad⟩
    all_goals rw [finish_fix, saveFix_fix, giveFallback_fix, ledgerDigest_fix, placeSections_fix]
  | some o =>
    dsimp only
    rw [endLoad_invalid h]
    refine ⟨?_, findPacket_finish .., ?_, fun hgood => (Option.some_ne_none o hgood).elim, fun _ => ?_⟩
    all_goals rw [finish_fix, saveFix_fix, clearTiles_fix]

end

/-! ### The end of a check run (R312) -/

/-- The device once the check run has ended, `dt` ns on. -/
def checkEnded (dt : Nat) (d : Device) : Device :=
  advance dt { finishPlan d with fix := { (finishPlan d).fix with arming := none, plan := none } }

theorem checkEnded_fix (dt : Nat) (d : Device) : (checkEnded dt d).fix = { d.fix with arming := none, plan := none } := by
  rw [checkEnded, advance_fix, finishPlan_fix]

section
variable {s : State} {dt bound : Nat} {r : Ref} {img : List Byte} {p : Packet} (hready : isReady s.dev = true)
  (hended : listsEnded s.dev = true) (harming : s.dev.fix.arming = some (r, bound)) (himg : s.dev.fix.image = some img)
  (hfind : findPacket s.dev r = some p)
include hready hended harming himg hfind

theorem execFixArmCheckDone_judges : execFixArmCheckDone dt s = .next (settled s
    (if decide (planCount img s.dev ≠ field img 12 4) || overBound (imgCycle img) bound then
      finish p stFixBudget (leBytes 4 (planCount img s.dev) ++ leBytes 4 (largestA bound)) (checkEnded dt s.dev)
    else finish p stOK (leBytes 4 (planCount img s.dev)) (ledgerConfig p (saveFix
      { checkEnded dt s.dev with fix := { (checkEnded dt s.dev).fix with armed := true, bound := BitVec.ofNat 7 bound } })))) := by
  have hstill : findPacket (checkEnded dt s.dev) r = some p := by
    rw [findPacket, checkEnded, advance_cmd]
    exact (congrArg (fun m : Cmd => m.flight.find? _) (finishPlan_cmd _)).trans hfind
  rw [execFixArmCheckDone, run_settled, harming, himg]
  simp only [hready, hended, Bool.not_true, Bool.or_self, Bool.false_eq_true, if_false]
  rw [show findPacket (advance dt _) r = some p from hstill]
  dsimp only
  split
  · rfl
  · rfl

end

/-- Settles O38: each packet on the plane as it finds it, and the check run by its count and its bound. -/
theorem fixPacketsComplete : Obligations.FixPacketsComplete := by
  intro s r p b c
  have hfix : (admitted p b c s.dev).fix = s.dev.fix := admitted_fix ..
  refine ⟨fun h hbusy hroom harmed hfew hfree => ?_,
    fun h hbusy hroom harmed hmask hsrc hwhole hleast hend hstart hflags => ?_,
    fun h hbusy hroom harmed hmask hsrc hwhole hleast hend hstart hflags => ?_,
    fun img h harming hbusy hroom himg htiles hlo hhi => ?_, fun h harming hroom harmed => ?_,
    fun dt img bound hready hended harming himg hfind => ?_⟩
  · rw [exec_fixReserve, execFixReserve, run_admits h, fixReserve_free (p := begun p b) hroom hbusy harmed hfew hfree]
    refine ⟨fun hnew => ?_, fun hold => ?_⟩
    · rw [if_neg hnew]
    · rw [if_pos hold]
  · rw [exec_fixLoad, execFixLoad, run_admits h,
      fixLoad_begins (p := begun p b) hroom hbusy harmed hmask hsrc hwhole hleast hend hstart (by omega), if_neg (by omega)]
    refine ⟨_, rfl, ?_, ?_, ?_, ?_, findPacket_settled s (findPacket_finish ..), ?_, ?_⟩
    all_goals simp only [settled, settle_fix, complete_fix, ledgerConfig_fix, chunkTaken, hfix]
  · rw [exec_fixLoad, execFixLoad, run_admits h,
      fixLoad_begins (p := begun p b) hroom hbusy harmed hmask hsrc hwhole hleast hend hstart (by omega), if_pos hflags]
    obtain ⟨hloading, hgone, hsame, hgood, hbad⟩ := endLoad_ends (begun p b)
      (runBytes (admitted p b c s.dev) (field b 4 4) (field b 8 4))
      (chunkTaken (runBytes (admitted p b c s.dev) (field b 4 4) (field b 8 4)) (admitted p b c s.dev))
    refine ⟨_, rfl, ?_⟩
    simp only [settled, settle_fix]
    refine ⟨hloading, ?_, ?_, hgood, hbad⟩
    · exact findPacket_settled s hgone
    · rw [hsame, chunkTaken, hfix]
  · have hidle : ¬(s.dev.fix.arming.any fun a => a.1 == r) = true := by rw [harming]; exact Bool.false_ne_true
    rw [exec_fixArm, execFixArm, run_settled, if_neg hidle, runOp_admits h,
      fixArm_queues (p := begun p b) hroom hbusy himg htiles hlo hhi]
    rfl
  · rw [exec_fixDisarm, execFixDisarm, run_admits h, fixDisarm_armed (p := begun p b) hroom (hfix ▸ harming) harmed]
    refine ⟨_, rfl, ?_, ?_, ?_, findPacket_settled s (findPacket_finish ..)⟩
    all_goals rw [settled, settle_fix, complete_fix, saveFix_fix, hfix]
  · rw [exec_fixArmCheckDone, execFixArmCheckDone_judges hready hended harming himg hfind]
    refine ⟨fun hcount hbound => ?_, fun hbad => ?_⟩
    · rw [if_neg (by simp [hcount, hbound])]
      refine ⟨_, rfl, ?_, ?_, ?_, findPacket_settled s (findPacket_finish ..)⟩
      all_goals rw [settled, settle_fix, finish_fix, ledgerConfig_fix, saveFix_fix, checkEnded_fix]
    · rw [if_pos (by simpa using hbad)]
      refine ⟨_, rfl, ?_, ?_, findPacket_settled s (findPacket_finish ..)⟩
      all_goals rw [settled, settle_fix, finish_fix, checkEnded_fix]

end Sys2Proof.Machine
end

section
/-! PROOFS. Triggers and answers of the Fixed plane (R315 to R319), and its input window (R316, R337). -/

namespace Sys2Proof.Machine

/-! ### Triggers (R314, R315, R317) -/

section
variable {d : Device} (hruns : (coreAlive d && decide (d.boot.phase = .ready ∨ d.boot.phase = .lowPower)) = true)
include hruns

theorem fixTrigger_overlap {x : FixRun} (hrun : d.fix.run = some x) :
    fixTrigger d = { d with fix := { d.fix with overlap := true, overlaps := d.fix.overlaps + 1 } } := by
  have hbusy : d.fix.run.isSome = true := by rw [hrun]; rfl
  rw [fixTrigger, hruns, if_neg (by decide), if_pos hbusy]

theorem fixTrigger_starts {fb : Fallback} (hrun : d.fix.run = none) (hfb : d.fix.fallback = some fb) :
    fixTrigger d = startRun fb { d with fix := { d.fix with rdy := false, runNo := d.fix.runNo + 1 } } := by
  have hidle : ¬d.fix.run.isSome = true := by rw [hrun]; exact Bool.false_ne_true
  rw [fixTrigger, hruns, if_neg (by decide), if_neg hidle]
  dsimp only
  rw [hfb]

end

theorem startRun_boot (fb : Fallback) (d : Device) : (startRun fb d).boot = d.boot := by
  unfold startRun
  dsimp only
  split
  · split
    · rfl
    · exact queueImage_boot ..
  · rfl

/-- A trigger from the pin while TRIG is no wake source (R523). -/
theorem execTrig_pin {s : State} {e : Device} (hsrc : s.dev.fix.trigSrc = 0) (htrigger : fixTrigger s.dev = e)
    (hwake : e.boot.trigWake = false) : execTrig s = .next (settled s e) := by
  have hpin : s.dev.fix.trigSrc = 0 ∨ s.dev.fix.trigSrc = 2 := .inl hsrc
  have hsleeps : ¬(coreAlive e = true ∧ e.boot.trigWake = true) := fun h => by rw [hwake] at h; exact Bool.false_ne_true h.2
  simp only [execTrig, run_settled, if_pos hpin, htrigger, if_neg hsleeps]

/-! ### Answers (R315, R318) -/

section
variable {s : State} {x : FixRun} (halive : coreAlive s.dev = true) (hrun : s.dev.fix.run = some x)
include halive hrun

theorem execAnswerCycle_fallback (hframe : x.frame = none) : execAnswerCycle s =
    .next (settled s (putAnswer x x.reasons 0 x.fb.bytes (advanceTo (x.at_ + cycleEnd x.fb.cycle) s.dev))) := by
  rw [execAnswerCycle, run_settled, hrun]
  dsimp only
  rw [halive, if_neg (by decide), hframe]

theorem execAnswerCycle_normal {f : Nat} {q : W32} {img : List Byte} (hframe : x.frame = some (f, q))
    (himg : (advanceTo (x.at_ + cycleEnd x.fb.cycle) s.dev).fix.image = some img)
    (hended : listsEnded (advanceTo (x.at_ + cycleEnd x.fb.cycle) s.dev) = true) : execAnswerCycle s = .next (settled s
      (let e := finishPlan (advanceTo (x.at_ + cycleEnd x.fb.cycle) s.dev)
       reportRun q (putAnswer x 0 q (answerOf img ((e.fix.plan.map (·.outs)).getD []) (freeBytes answerMax e)) (spend answerMax e)))) := by
  rw [execAnswerCycle, run_settled, hrun]
  dsimp only
  rw [halive, if_neg (by decide), hframe]
  dsimp only
  rw [himg]
  dsimp only
  rw [if_pos hended]

end

/-- Settles O39: a trigger by the run that it finds, an answer by the frame of its run, and what every answer puts. -/
theorem triggerAndAnswer : Obligations.TriggerAndAnswer := by
  intro s halive hphase hwake
  have hruns : (coreAlive s.dev && decide (s.dev.boot.phase = .ready ∨ s.dev.boot.phase = .lowPower)) = true := by
    rw [halive, hphase]
    rfl
  refine ⟨fun hsrc => ⟨fun x hrun => ?_, fun fb hrun hfb => ?_⟩, fun x hrun hframe => ?_, fun x f q img hrun hframe himg hended => ?_,
    fun x why q ans d => ⟨rfl, rfl, rfl, decide_eq_true_iff⟩⟩
  · rw [exec_trig, execTrig_pin hsrc (fixTrigger_overlap hruns hrun) hwake]
  · rw [exec_trig, execTrig_pin hsrc (fixTrigger_starts hruns hrun hfb) (by rw [startRun_boot]; exact hwake)]
  · rw [exec_answerCycle, execAnswerCycle_fallback halive hrun hframe]
  · rw [exec_answerCycle, execAnswerCycle_normal halive hrun hframe himg hended]

/-! ### The regions of the input window (R316) -/

/-- What of a string written at an offset falls into a region. -/
def regionPart (lo hi off : Nat) (bs : List Byte) : List Byte := slice bs (lo - off) (min (off + bs.length) hi - max lo off)

theorem regionPart_within {lo hi off : Nat} {bs : List Byte} (hlo : lo ≤ off) (hhi : off + bs.length ≤ hi) :
    regionPart lo hi off bs = bs := by
  rw [regionPart, Nat.sub_eq_zero_of_le hlo, Nat.min_eq_left hhi, Nat.max_eq_right hlo, Nat.add_sub_cancel_left]
  exact List.take_length

theorem regionPart_beside {lo hi off : Nat} {bs : List Byte} (h : off + bs.length ≤ lo ∨ hi ≤ off) : regionPart lo hi off bs = [] := by
  have hnone : min (off + bs.length) hi - max lo off = 0 := by omega
  rw [regionPart, hnone]
  exact List.take_zero

theorem windowWrite_regions (off : Nat) (bs : List Byte) (d : Device) : windowWrite off bs d =
    commitWrite true (max 0xFFC8 off) (regionPart 0xFFC8 0xFFD0 off bs) (commitWrite false (max 0xFFC0 off) (regionPart 0xFFC0 0xFFC8 off bs)
      (bufferWrite true (max 0x8000 off) (regionPart 0x8000 0xFFC0 off bs) (bufferWrite false (max 0 off) (regionPart 0 0x7FC0 off bs) d))) := rfl

theorem bufferWrite_nil (b : Bool) (off : Nat) (d : Device) : bufferWrite b off [] d = d := rfl
theorem commitWrite_nil (b : Bool) (off : Nat) (d : Device) : commitWrite b off [] d = d := rfl

/-- Where a buffer begins in the window, and where its commit word does (R316). -/
def bufferBase (b : Bool) : Nat := if b then 0x8000 else 0
def commitBase (b : Bool) : Nat := if b then 0xFFC8 else 0xFFC0

/-- A write within a frame buffer goes to that buffer. -/
theorem windowWrite_buffer {b : Bool} {off : Nat} {bs : List Byte} {d : Device} (hlo : bufferBase b ≤ off)
    (hhi : off + bs.length ≤ bufferBase b + frameMax) : windowWrite off bs d = bufferWrite b off bs d := by
  rw [windowWrite_regions]
  cases b with
  | false =>
    have hend : off + bs.length ≤ 0x7FC0 := hhi.trans_eq (Nat.zero_add _)
    rw [regionPart_within (Nat.zero_le _) hend, regionPart_beside (by omega), regionPart_beside (by omega), regionPart_beside (by omega),
      bufferWrite_nil, commitWrite_nil, commitWrite_nil, Nat.max_eq_right (Nat.zero_le _)]
  | true =>
    have hstart : 0x8000 ≤ off := hlo
    have hend : off + bs.length ≤ 0xFFC0 := hhi
    rw [regionPart_beside (lo := 0) (by omega), regionPart_within hstart hend, regionPart_beside (by omega), regionPart_beside (by omega),
      bufferWrite_nil, commitWrite_nil, commitWrite_nil, Nat.max_eq_right hstart]

/-- A write of a commit word goes to that word. -/
theorem windowWrite_commit {b : Bool} {bs : List Byte} {d : Device} (hlen : bs.length = 8) :
    windowWrite (commitBase b) bs d = commitWrite b (commitBase b) bs d := by
  rw [windowWrite_regions]
  cases b with
  | false =>
    have hbase : commitBase false = 0xFFC0 := rfl
    rw [hbase, regionPart_beside (lo := 0) (by omega), regionPart_beside (lo := 0x8000) (by omega),
      regionPart_within (lo := 0xFFC0) (by omega) (by omega), regionPart_beside (by omega), bufferWrite_nil, bufferWrite_nil, commitWrite_nil,
      Nat.max_self]
  | true =>
    have hbase : commitBase true = 0xFFC8 := rfl
    rw [hbase, regionPart_beside (lo := 0) (by omega), regionPart_beside (lo := 0x8000) (by omega), regionPart_beside (lo := 0xFFC0) (by omega),
      regionPart_within (by omega) (by omega), bufferWrite_nil, bufferWrite_nil, commitWrite_nil, Nat.max_self]

/-! ### Frame buffers (R316) -/

section
variable {b : Bool} {off : Nat} {bs : List Byte} {d : Device} (hbs : bs ≠ [])
include hbs

theorem bufferWrite_clash (hclash : clashes d b = true) :
    bufferWrite b off bs d = { d with fix := { d.fix with inClash := true, clashes := d.fix.clashes + 1 } } := by
  rw [bufferWrite, if_neg (mt List.isEmpty_iff.mp hbs), if_pos hclash]

theorem bufferWrite_taken (hfree : clashes d b = false) :
    bufferWrite b off bs d = { d with fix := setCommit b none { d.fix with window := Mem.store d.fix.window off bs } } := by
  rw [bufferWrite, if_neg (mt List.isEmpty_iff.mp hbs), hfree, if_neg Bool.false_ne_true]

end

theorem setCommit_same (b : Bool) (c : Option FrameCommit) (f : FixPart) : commitOf (setCommit b c f) b = c := by cases b <;> rfl
theorem setCommit_other (b : Bool) (c : Option FrameCommit) (f : FixPart) : commitOf (setCommit b c f) (!b) = commitOf f (!b) := by
  cases b <;> rfl
theorem setCommit_frame (b : Bool) (c : Option FrameCommit) (f : FixPart) :
    (setCommit b c f).window = f.window ∧ (setCommit b c f).run = f.run := by cases b <;> exact ⟨rfl, rfl⟩

/-! ### Commit words (R316) -/

/-- The two words of a string of 8 bytes as the memory holds them. -/
theorem le_store_words (m : Mem) (a x y : Nat) : Mem.le (Mem.store m a (leBytes 4 x ++ leBytes 4 y)) a 4 = x % 256 ^ 4 ∧
    Mem.le (Mem.store m a (leBytes 4 x ++ leBytes 4 y)) (a + 4) 4 = y % 256 ^ 4 := by
  have hread : Mem.bytes (Mem.store m a (leBytes 4 x ++ leBytes 4 y)) a 4 ++ Mem.bytes (Mem.store m a (leBytes 4 x ++ leBytes 4 y)) (a + 4) 4 =
      leBytes 4 x ++ leBytes 4 y := Mem.bytes_store m a (leBytes 4 x ++ leBytes 4 y)
  obtain ⟨hlow, hhigh⟩ := List.append_inj hread ((Mem.bytes_length ..).trans (leBytes_length ..).symm)
  rw [Mem.le, Mem.le, hlow, hhigh, leNat_leBytes, leNat_leBytes]
  exact ⟨rfl, rfl⟩

/-- A word of a commit as the memory spells it. -/
theorem ofNat_word (x : W32) : BitVec.ofNat 32 (x.toNat % 256 ^ 4) = x := by
  rw [show x.toNat % 256 ^ 4 = x.toNat from Nat.mod_eq_of_lt x.isLt, BitVec.ofNat_toNat, BitVec.setWidth_eq]

section
variable {b : Bool} {bs : List Byte} {d : Device} (hlen : bs.length = 8)
include hlen

/-- During a load a commit word commits nothing (R311). -/
theorem commitWrite_loading (hload : d.fix.loading.isSome = true) (off : Nat) :
    commitWrite b off bs d = { d with fix := setPart b 0 { d.fix with window := Mem.store d.fix.window off bs } } := by
  have hbs : ¬bs.isEmpty = true := by rw [List.isEmpty_iff_length_eq_zero]; omega
  unfold commitWrite
  dsimp only
  rw [if_neg hbs, if_pos hload]

/-- Else its 8 bytes, written at once, are a commit. -/
theorem commitWrite_whole (hload : d.fix.loading = none) : commitWrite b (commitBase b) bs d =
    (let m := Mem.store d.fix.window (commitBase b) bs
     { d with fix := { setCommit b (some { seq := BitVec.ofNat 32 (Mem.le m (commitBase b) 4), len := BitVec.ofNat 32 (Mem.le m (commitBase b + 4) 4)
                                           order := d.fix.commits }) (setPart b 0 { d.fix with window := m })
         with commits := d.fix.commits + 1 } }) := by
  have hbs : ¬bs.isEmpty = true := by rw [List.isEmpty_iff_length_eq_zero]; omega
  have hidle : ¬d.fix.loading.isSome = true := by rw [hload]; exact Bool.false_ne_true
  have hbase : (if b then 0xFFC8 else 0xFFC0) = commitBase b := rfl
  have hmask : BitVec.ofNat 8 (2 ^ (commitBase b - commitBase b + bs.length) - 2 ^ (commitBase b - commitBase b)) = BitVec.allOnes 8 := by
    rw [Nat.sub_self, hlen]
    rfl
  have hall : ∀ x : Byte, ¬(x ||| BitVec.allOnes 8) ≠ 0xFF := fun x => not_not_intro BitVec.or_allOnes
  unfold commitWrite
  dsimp only
  rw [if_neg hbs, if_neg hidle, hbase, hmask, if_neg (hall _)]

end

theorem setPart_commits (b : Bool) (m : Byte) (f : FixPart) (x : Bool) : commitOf (setPart b m f) x = commitOf f x := by
  cases b
  · cases x <;> rfl
  · cases x <;> rfl

/-- A host write of a whole commit word (R316). -/
theorem execFrameCommit_word {s : State} (halive : hostAlive s.dev = true) (buf : BitVec 1) (q n : W32) :
    execFrameCommit buf q n s = .next (settled s
      (commitWrite (buf == 1) (commitBase (buf == 1)) (leBytes 4 q.toNat ++ leBytes 4 n.toNat) (noEnable s.dev))) := by
  have hplace : ∀ buf : BitVec 1, 0xFFC0 + 8 * buf.toNat = commitBase (buf == 1) := by decide
  rw [execFrameCommit, run_transact halive, hplace, windowWrite_commit rfl]

/-- Settles O40: the window by its regions, each buffer and commit word by the lemma of its case. -/
theorem frameWindow : Obligations.FrameWindow := by
  intro s halive
  have hwrite : ∀ (off : W16) (bs : List Byte),
      exec (.frameWrite off bs) s = .next (settled s (windowWrite off.toNat bs (noEnable s.dev))) := fun off bs => by
    rw [exec_frameWrite, execFrameWrite, run_transact halive]
  refine ⟨hwrite, fun b off bs hbs hlo hhi => ⟨fun hfree => ?_, fun hclash => ?_⟩, fun buf q n => ⟨?_, fun hload => ?_, fun hload => ?_⟩,
    fun v => ⟨fun hbit => ?_, fun hbit => ?_⟩⟩
  · obtain ⟨hwin, hrun⟩ := setCommit_frame b none { s.dev.fix with window := Mem.store s.dev.fix.window off.toNat bs }
    rw [hwrite, windowWrite_buffer hlo hhi, bufferWrite_taken (d := noEnable s.dev) hbs hfree]
    refine ⟨_, rfl, ?_⟩
    simp only [settled, settle_fix, inputByte]
    refine ⟨fun i hi => ?_, fun x hx => ?_, setCommit_same .., setCommit_other .., hrun⟩
    · refine (congrArg (Mem.byte · _) hwin).trans ((Mem.byte_store ..).trans ((if_pos (by omega)).trans ?_))
      rw [Nat.add_sub_cancel_left, byteAt]
    · exact (congrArg (Mem.byte · _) hwin).trans ((Mem.byte_store ..).trans (if_neg (by omega)))
  · rw [hwrite, windowWrite_buffer hlo hhi, bufferWrite_clash (d := noEnable s.dev) hbs hclash]
  · rw [exec_frameCommit, execFrameCommit, run_transact halive]
  · obtain ⟨hseq, hlen⟩ := le_store_words (noEnable s.dev).fix.window (commitBase (buf == 1)) q.toNat n.toNat
    rw [exec_frameCommit, execFrameCommit_word halive, commitWrite_whole (d := noEnable s.dev) rfl hload]
    dsimp only
    rw [hseq, hlen, ofNat_word, ofNat_word]
    refine ⟨_, rfl, ?_⟩
    simp only [settled, settle_fix]
    exact ⟨setCommit_same .., (setCommit_other ..).trans (setPart_commits ..), rfl⟩
  · rw [exec_frameCommit, execFrameCommit_word halive, commitWrite_loading (d := noEnable s.dev) rfl hload]
    refine ⟨_, rfl, ?_⟩
    simp only [settled, settle_fix]
    exact ⟨setPart_commits _ _ _ false, setPart_commits _ _ _ true⟩
  · rw [exec_fixRdyClrWrite, execFixRdyClrWrite, run_transact halive, rdyClear, if_pos hbit]
  · rw [exec_fixRdyClrWrite, execFixRdyClrWrite, run_transact halive, rdyClear, if_neg (Bool.eq_false_iff.mp hbit)]

end Sys2Proof.Machine
end

section
/-! PROOFS. The yarn links (R339, R341 to R343, R346 to R351): training, the fall and the rise of a port, flits received and replayed, messages
sent and under reassembly. -/

namespace Sys2Proof.Machine

/-- What a command makes of the device is the outcome's. -/
theorem run_makes {f : Device → Device} {s : State} {e : Device} (h : f s.dev = e) : run f s = .next (settled s e) := by
  rw [run_settled, h]

/-! ### An attempt begins, and its limit (R341) -/

/-- The moment at which a port may try again: 100 ms after its failure began (R341). -/
def untilRetry (x : LinkPort) (d : Device) : Device := match x.failedAt with | some t => advanceTo (t + 100000000) d | none => d

theorem untilRetry_link (x : LinkPort) (d : Device) : (untilRetry x d).link = d.link := by
  unfold untilRetry
  split
  · exact advanceTo_link ..
  · rfl

theorem untilRetry_clock (x : LinkPort) (d : Device) :
    (untilRetry x d).clock = match x.failedAt with | some t => max d.clock (t + 100000000) | none => d.clock := by
  unfold untilRetry
  split
  · exact advanceTo_clock ..
  · rfl

/-- A port as it begins an attempt in DETECT. -/
def startedPort (x : LinkPort) (now : Nat) : LinkPort :=
  { x with state := .training, train := .detect, trying := 0xF, trainAt := now, retrain := false, failedAt := none, wire := [] }

theorem portOf_startTraining (p : Nat) (d : Device) : portOf (startTraining p d) p = startedPort (portOf d p) d.clock :=
  (portOf_changePort ..).trans (if_pos rfl)

theorem portOf_startTraining_other {p q : Nat} (hq : q ≠ p) (d : Device) : portOf (startTraining p d) q = portOf d q :=
  (portOf_changePort ..).trans (if_neg hq)

theorem execLinkTrainStart_down {s : State} {p : Port} {changed : Bool} (halive : coreAlive s.dev = true)
    (hdown : (portOf s.dev p.toNat).state = .down) (hmode : (portOf s.dev p.toNat).mode ≠ modeOff)
    (hfree : changed = true ∨ ¬(1 ≤ (portOf s.dev p.toNat).cause.toNat ∧ (portOf s.dev p.toNat).cause.toNat ≤ 3)) :
    execLinkTrainStart ⟨p, changed⟩ s =
      .next (settled s (startTraining p.toNat (untilRetry (portOf s.dev p.toNat) s.dev))) := by
  exact run_makes (if_pos ⟨halive, hdown, hmode, hfree⟩)

section
variable {p at_ : Nat} {f : Device → Device} {d : Device}

theorem attempt_within (h : at_ ≤ (portOf d p).trainAt + 50000000) : attempt p at_ f d = f (advanceTo at_ d) :=
  if_neg (Nat.not_lt.mpr h)

theorem attempt_beyond (h : (portOf d p).trainAt + 50000000 < at_) :
    attempt p at_ f d = portDown p 0 (advanceTo ((portOf d p).trainAt + 50000000) d) := if_pos h

end

/-- When a port that waits for bit lock entered BIT_LOCK; one in DETECT has been there for `dt` ns (R341). -/
def bitLockBegan (x : LinkPort) (dt : Nat) : Nat := if x.train = .detect then x.trainAt + dt else x.bitAt

/-- The attempt goes on with the lanes left, or fails with the last one (R341). -/
def lanesLeft (p began : Nat) (left : BitVec 4) (d : Device) : Device :=
  let e := onPort p (fun x => { x with train := .bitLock, bitAt := began, trying := left }) d
  if left = 0 then portDown p 4 e else e

section
variable {s : State} {p : Port} {lane : BitVec 2} {dt : Nat} (halive : coreAlive s.dev = true)
  (htraining : (portOf s.dev p.toNat).state = .training)
  (hearly : (portOf s.dev p.toNat).train = .detect ∨ (portOf s.dev p.toNat).train = .bitLock)
  (htrying : (portOf s.dev p.toNat).trying.getLsbD lane.toNat = true)
include halive htraining hearly htrying

theorem execBitLockTimeout_within
    (h : bitLockBegan (portOf s.dev p.toNat) dt + 10000000 ≤ (portOf s.dev p.toNat).trainAt + 50000000) : execBitLockTimeout p ⟨lane, dt⟩ s =
      .next (settled s (lanesLeft p.toNat (bitLockBegan (portOf s.dev p.toNat) dt) ((portOf s.dev p.toNat).trying &&& ~~~(1#4 <<< lane.toNat))
        (advanceTo (bitLockBegan (portOf s.dev p.toNat) dt + 10000000) s.dev))) :=
  run_makes ((if_pos ⟨halive, htraining, hearly, htrying⟩).trans (attempt_within h))

theorem execBitLockTimeout_beyond
    (h : (portOf s.dev p.toNat).trainAt + 50000000 < bitLockBegan (portOf s.dev p.toNat) dt + 10000000) : execBitLockTimeout p ⟨lane, dt⟩ s =
      .next (settled s (portDown p.toNat 0 (advanceTo ((portOf s.dev p.toNat).trainAt + 50000000) s.dev))) :=
  run_makes ((if_pos ⟨halive, htraining, hearly, htrying⟩).trans (attempt_beyond h))

end

/-! ### The training states (R341, R342) -/

/-- A port has gone on within its attempt: its training state, the entry to BIT_LOCK and the flits on the wire may differ, and time has
passed. -/
structure TrainsOn (p : Nat) (d e : Device) : Prop where
  port : portOf e p = { portOf d p with train := (portOf e p).train, bitAt := (portOf e p).bitAt, wire := (portOf e p).wire }
  others : ∀ q, q ≠ p → portOf e q = portOf d q
  clock : d.clock ≤ e.clock
  pod : e.link.pod = d.link.pod
  manager : e.link.manager = d.link.manager

theorem TrainsOn.trans {p : Nat} {a b c : Device} (h : TrainsOn p a b) (k : TrainsOn p b c) : TrainsOn p a c where
  port := by rw [k.port, h.port]
  others q hq := (k.others q hq).trans (h.others q hq)
  clock := h.clock.trans k.clock
  pod := k.pod.trans h.pod
  manager := k.manager.trans h.manager

theorem TrainsOn.trainAt {p : Nat} {d e : Device} (h : TrainsOn p d e) : (portOf e p).trainAt = (portOf d p).trainAt := by rw [h.port]

theorem advanceTo_trainsOn (p t : Nat) (d : Device) : TrainsOn p d (advanceTo t d) where
  port := by rw [portOf_advanceTo]
  others q _ := portOf_advanceTo t d q
  clock := by rw [advanceTo_clock]; exact Nat.le_max_left ..
  pod := by rw [advanceTo_link]
  manager := by rw [advanceTo_link]

/-- How the rest of an attempt ends that takes `dt` ns more: in `f` once it has passed PARAM, or in DOWN at the limit of 50 ms. -/
def AttemptEnds (p dt : Nat) (f : Device → Device) (d r : Device) : Prop :=
  (d.clock + dt ≤ (portOf d p).trainAt + 50000000 →
    ∃ e, r = f e ∧ e.clock = d.clock + dt ∧ (portOf e p).train = .param ∧ TrainsOn p d e) ∧
  ((portOf d p).trainAt + 50000000 < d.clock + dt →
    ∃ e, r = portDown p 0 e ∧ e.clock = max d.clock ((portOf d p).trainAt + 50000000) ∧ TrainsOn p d e)

theorem attempt_ends {p : Nat} {d : Device} (hparam : (portOf d p).train = .param) (dt : Nat) (f : Device → Device) :
    AttemptEnds p dt f d (attempt p (d.clock + dt) f d) := by
  refine ⟨fun hin => ⟨_, attempt_within hin, ?_, ?_, advanceTo_trainsOn ..⟩, fun hout => ⟨_, attempt_beyond hout, ?_, advanceTo_trainsOn ..⟩⟩
  · rw [advanceTo_clock]; omega
  · rw [portOf_advanceTo]; exact hparam
  · exact advanceTo_clock ..

/-- The state of a port that has passed into the next training state. -/
def stateEntered (next : TrainState) (now : Nat) (x : LinkPort) : LinkPort :=
  { x with train := next, bitAt := if next = .bitLock then now else x.bitAt
           wire := if next = .deskew then [plainFlit x flitAlign] else x.wire }

theorem onPort_stateEntered (p : Nat) (next : TrainState) (now : Nat) (d : Device) : TrainsOn p d (onPort p (stateEntered next now) d) where
  port := by rw [portOf_onPort_self]; rfl
  others q hq := by rw [portOf_onPort, if_neg hq]
  clock := Nat.le_refl _
  pod := rfl
  manager := rfl

section
variable {p : Nat} {next : TrainState} {dt : Nat} {f : Device → Device} {d : Device}

theorem passState_within (hin : d.clock + dt ≤ (portOf d p).trainAt + 50000000) :
    ∃ e, passState p next dt f d = f e ∧ e.clock = d.clock + dt ∧ (portOf e p).train = next ∧ TrainsOn p d e := by
  have hclock : (advanceTo (d.clock + dt) d).clock = d.clock + dt := by rw [advanceTo_clock]; omega
  refine ⟨onPort p (stateEntered next (advanceTo (d.clock + dt) d).clock) (advanceTo (d.clock + dt) d), attempt_within hin, hclock, ?_,
    (advanceTo_trainsOn ..).trans (onPort_stateEntered ..)⟩
  rw [portOf_onPort_self, stateEntered]

theorem passState_ends {more : Nat} {g : Device → Device} (hrest : ∀ e, (portOf e p).train = next → AttemptEnds p more g e (f e)) :
    AttemptEnds p (dt + more) g d (passState p next dt f d) := by
  by_cases hin : d.clock + dt ≤ (portOf d p).trainAt + 50000000
  · obtain ⟨e, hpass, hclock, hnext, hstep⟩ := passState_within (next := next) (f := f) hin
    obtain ⟨hup, hdown⟩ := hrest e hnext
    rw [hclock, hstep.trainAt] at hup hdown
    rw [hpass]
    refine ⟨fun h => ?_, fun h => ?_⟩
    · obtain ⟨u, hr, hc, hparam, hon⟩ := hup (by omega)
      exact ⟨u, hr, by omega, hparam, hstep.trans hon⟩
    · obtain ⟨u, hr, hc, hon⟩ := hdown (by omega)
      exact ⟨u, hr, by omega, hstep.trans hon⟩
  · exact ⟨fun h => absurd h (by omega), fun _ => ⟨_, attempt_beyond (Nat.not_le.mp hin), advanceTo_clock .., advanceTo_trainsOn ..⟩⟩

end

/-- A port goes through the training states from the one it is in. -/
theorem throughStates_ends (p : Nat) (t : TrainTimes) (f : Device → Device) (d : Device) :
    AttemptEnds p ((if (portOf d p).train = .detect then t.detect else 0) + (t.bitLock + (t.blockLock + (t.deskew + t.param)))) f d
      (throughStates p t f d) := by
  have hblock : ∀ e, AttemptEnds p (t.bitLock + (t.blockLock + (t.deskew + t.param))) f e
      (passState p .blockLock t.bitLock (passState p .deskew t.blockLock (passState p .param t.deskew
        (throughStates.attempt' p f t.param))) e) := fun e =>
    passState_ends fun e _ => passState_ends fun e _ => passState_ends fun e hparam => attempt_ends hparam ..
  unfold throughStates
  dsimp only
  split
  · exact passState_ends fun e _ => hblock e
  · rw [Nat.zero_add]
    exact hblock d

theorem execLinkUp_training {s : State} {p : Port} (halive : coreAlive s.dev = true) (htraining : (portOf s.dev p.toNat).state = .training)
    (peer : PeerParams) (t : TrainTimes) :
    execLinkUp p ⟨peer, t⟩ s = .next (settled s (throughStates p.toNat t (enterUp p.toNat peer) s.dev)) := by
  exact run_makes (if_pos (by rw [halive, htraining]; decide))

/-! ### A port comes UP (R342, R343, R346, R347) -/

/-- What a port keeps of its replay buffer: in a retrain, what the peer has not accepted. -/
def keptReplay (peer : PeerParams) (x : LinkPort) : List Replay :=
  if x.retrain then
    (match x.replay.findIdx? fun r => r.seq == peer.lastSeq with
      | some i => x.replay.drop (i + 1)
      | none => x.replay)
  else []

theorem keptReplay_suffix (peer : PeerParams) (x : LinkPort) : keptReplay peer x <:+ x.replay := by
  unfold keptReplay
  split
  · split
    · exact List.drop_suffix ..
    · exact List.suffix_refl _
  · exact List.nil_suffix

/-- A port as it enters UP, before the flits it keeps are sent again. -/
def risenPort (peer own : PeerParams) (lanes : BitVec 4) (kept : List Replay) (now : Nat) (x : LinkPort) : LinkPort := { x with
  state := .up, train := .param, cause := 0, lanes := lanes, peer := some peer, sentParams := some own, failedAt := none, retrain := false
  sent := if x.retrain then x.sent else peer.lastSeq
  replay := kept.map fun r => { r with at_ := now }
  credits := [64, 64, 64, 64], peerFreed := [0, 0, 0, 0], freed := [0, 0, 0, 0] }

/-- A port that sends every flit of its replay buffer again. -/
def resends (x : LinkPort) : LinkPort := { x with wire := x.replay.map fun r => r.flit x }

/-- The widest set of the lanes that both ends have (R339, R342). -/
def sharedLanes (x : LinkPort) (peer : PeerParams) : BitVec 4 := widestSet x.maxWidth (x.trying &&& peer.lanes)

/-- The device whose port has entered UP. -/
def portRose (p : Nat) (peer : PeerParams) (d : Device) : Device :=
  onPort p resends (changePort p
    (risenPort peer (ownParams d p) (sharedLanes (portOf d p) peer) (keptReplay peer (portOf d p)) d.clock) d)

section
variable {p : Nat} {peer : PeerParams} {d : Device}

theorem enterUp_refused (h : paramCause d (portOf d p) peer (sharedLanes (portOf d p) peer) ≠ 0) :
    enterUp p peer d = portDown p (paramCause d (portOf d p) peer (sharedLanes (portOf d p) peer)) d := if_pos h

theorem enterUp_accepted (h : paramCause d (portOf d p) peer (sharedLanes (portOf d p) peer) = 0) :
    enterUp p peer d = pumpPort p (reportPort p true peer.deviceId (portRose p peer d)) := if_neg (not_not.mpr h)

end

theorem portOf_portRose (p : Nat) (peer : PeerParams) (d : Device) : portOf (portRose p peer d) p =
    resends (risenPort peer (ownParams d p) (sharedLanes (portOf d p) peer) (keptReplay peer (portOf d p)) d.clock (portOf d p)) := by
  rw [portRose, portOf_onPort_self, portOf_changePort, if_pos rfl]

theorem portOf_portRose_other {p q : Nat} (hq : q ≠ p) (peer : PeerParams) (d : Device) : portOf (portRose p peer d) q = portOf d q := by
  rw [portRose, portOf_onPort, if_neg hq, portOf_changePort, if_neg hq]

/-! ### A port falls to DOWN or retrains (R343) -/

theorem port_freeHeld (w : Waiting) (q : Nat) (k : LinkPart) :
    (k.freeHeld w).port q = { k.port q with freed := ((k.freeHeld w).port q).freed } := by
  unfold LinkPart.freeHeld
  split
  · unfold LinkPart.free
    rw [port_onPort]
    split
    · next hq => rw [hq]
    · rfl
  · rfl

/-- The receive buffers that waiting flits hold are free: of a port only its count of freed buffers changes. -/
theorem port_freeHelds (l : List Waiting) (q : Nat) (k : LinkPart) :
    (l.foldl (fun k w => k.freeHeld w) k).port q = { k.port q with freed := ((l.foldl (fun k w => k.freeHeld w) k).port q).freed } := by
  induction l generalizing k with
  | nil => rfl
  | cons w l ih => rw [List.foldl_cons, ih, port_freeHeld]

theorem freeHelds_own {l : List Waiting} (hown : ∀ w ∈ l, w.held = none) (k : LinkPart) : l.foldl (fun k w => k.freeHeld w) k = k := by
  induction l generalizing k with
  | nil => rfl
  | cons w l ih =>
    have hw : k.freeHeld w = k := by rw [LinkPart.freeHeld, hown w List.mem_cons_self]
    rw [List.foldl_cons, hw, ih fun x hx => hown x (List.mem_cons_of_mem _ hx)]

/-- The device whose receive buffers are free that a port's waiting flits held. -/
def buffersFreed (p : Nat) (d : Device) : Device := { d with link := (portOf d p).waiting.foldl (fun k w => k.freeHeld w) d.link }

theorem portOf_buffersFreed (p q : Nat) (d : Device) :
    portOf (buffersFreed p d) q = { portOf d q with freed := (portOf (buffersFreed p d) q).freed } := port_freeHelds ..

/-- A port as it is when it has fallen to DOWN. -/
def fallenPort (cause : BitVec 4) (now : Nat) (x : LinkPort) : LinkPort := { x with
  state := .down, cause := cause, lanes := 0, replay := [], waiting := [], retrain := false, failedAt := some now, peer := none
  nakAt := none, replays := 0, recent := [], wire := [], sentParams := none }

/-- The device whose port has fallen, before the manager hears of it. -/
def portFell (p : Nat) (cause : BitVec 4) (d : Device) : Device :=
  leaveUp (portOf d p) (changePort p (fallenPort cause d.clock) (buffersFreed p d))

theorem portDown_eq (p : Nat) (cause : BitVec 4) (d : Device) : portDown p cause d =
    if (portOf d p).peer.isSome then reportPort p false (neighbour (portOf d p)) (portFell p cause d) else portFell p cause d := rfl

theorem portOf_portFell (p q : Nat) (cause : BitVec 4) (d : Device) : portOf (portFell p cause d) q =
    if q = p then fallenPort cause d.clock (portOf (buffersFreed p d) p) else portOf (buffersFreed p d) q := by
  rw [portFell, portOf_leaveUp, portOf_changePort]

theorem portOf_retrainPort (p q : Nat) (d : Device) : portOf (retrainPort p d) q =
    if q = p then { portOf d p with
      state := .training, train := .bitLock, trying := 0xF, trainAt := d.clock, bitAt := d.clock, retrain := true
      retrainCount := (portOf d p).retrainCount + 1, nakAt := none, replays := 0, recent := [], wire := [] }
    else portOf d q := by
  rw [retrainPort, portOf_leaveUp, portOf_changePort]

/-! ### Flits received (R345 to R347) -/

/-- The flits of a port's slots are gone once it receives a flit or replays. -/
def wireCleared (n : Nat) (d : Device) : Device := onPort n (fun x => { x with wire := [] }) d

theorem takeAck_accepted (n : Nat) (flit : List Byte) (d : Device) : (portOf (takeAck n flit d) n).accepted = (portOf d n).accepted := by
  rw [takeAck, portOf_onPort_self]
  dsimp only
  split
  · rfl
  · rfl

/-- What a flit of a good CRC does by its type, its ack and credits taken. -/
def flitActs (n : Nat) (flit : List Byte) (d : Device) : Device :=
  let e := if field flit 0 1 = flitNak then goBack n d else d
  if field flit 0 1 ≠ flitData then e
  else if word16 flit 2 = (portOf e n).accepted + 1 then
    takeFlit n flit (onPort n (fun x => { x with accepted := x.accepted + 1, nakAt := none }) e)
  else sendNak n e

section
variable {n : Nat} {flit : List Byte} {d : Device}

theorem flitActs_nak (htype : field flit 0 1 = 2) : flitActs n flit d = goBack n d := by
  have hdata : field flit 0 1 ≠ 1 := by omega
  rw [flitActs, if_pos hdata, if_pos htype]

theorem flitActs_plain (htype : field flit 0 1 = 0 ∨ field flit 0 1 = 3) : flitActs n flit d = d := by
  have hnak : ¬field flit 0 1 = 2 := by omega
  have hdata : field flit 0 1 ≠ 1 := by omega
  rw [flitActs, if_pos hdata, if_neg hnak]

theorem flitActs_data (htype : field flit 0 1 = 1) : flitActs n flit d =
    if word16 flit 2 = (portOf d n).accepted + 1 then
      takeFlit n flit (onPort n (fun x => { x with accepted := x.accepted + 1, nakAt := none }) d)
    else sendNak n d := by
  have hnak : ¬field flit 0 1 = 2 := by omega
  rw [flitActs, if_neg (not_not.mpr htype), if_neg hnak]

end

section
variable {s : State} {p : Port} {flit : List Byte} (halive : coreAlive s.dev = true) (hup : (portOf s.dev p.toNat).state = .up)
  (hlen : flit.length = 256)
include halive hup hlen

theorem execFlitReceive_badCrc (hcrc : (crc32c (flit.take 252)).toNat ≠ field flit 252 4) : execFlitReceive p flit s =
    .next (settled s (sendNak p.toNat (onPort p.toNat (fun x => { x with crcCount := x.crcCount + 1 }) (wireCleared p.toNat s.dev)))) := by
  have hon : ¬(!(coreAlive s.dev && (portOf s.dev p.toNat).state == .up && decide (flit.length = 256))) = true := by
    rw [halive, hup, hlen]; decide
  exact run_makes ((if_neg hon).trans (if_pos hcrc))

theorem execFlitReceive_goodCrc (hcrc : (crc32c (flit.take 252)).toNat = field flit 252 4) (htype : field flit 0 1 ≤ 3) :
    execFlitReceive p flit s =
      .next (settled s (pumpPort p.toNat (flitActs p.toNat flit (takeAck p.toNat flit (wireCleared p.toNat s.dev))))) := by
  have hon : ¬(!(coreAlive s.dev && (portOf s.dev p.toNat).state == .up && decide (flit.length = 256))) = true := by
    rw [halive, hup, hlen]; decide
  exact run_makes ((if_neg hon).trans ((if_neg (not_not.mpr hcrc)).trans (if_neg (Nat.not_lt.mpr htype))))

end

/-! ### Replay (R347, R348) -/

theorem execReplayTimer_due {s : State} {p : Port} {r : Replay} {rest : List Replay} (halive : coreAlive s.dev = true)
    (hup : (portOf s.dev p.toNat).state = .up) (hreplay : (portOf s.dev p.toNat).replay = r :: rest) : execReplayTimer p s =
      .next (settled s (pumpPort p.toNat (goBack p.toNat (wireCleared p.toNat (advanceTo (r.at_ + 2000) s.dev))))) := by
  rw [execReplayTimer, run_settled]
  simp only [hreplay]
  rw [if_pos ⟨halive, hup⟩]
  rfl

section
variable {p : Nat} {d : Device} (hsome : (portOf d p).replay ≠ [])
include hsome

theorem goBack_exhausted (hmany : 8 ≤ (portOf d p).replays) : goBack p d = retrainPort p d := by
  unfold goBack
  rw [if_neg (by rw [List.isEmpty_iff]; exact hsome), if_pos hmany]

/-- A replay that stays below 64 within 1 ms sends every unacknowledged flit again and no more. -/
theorem goBack_resends (hfew : (portOf d p).replays < 8) (hrecent : (portOf d p).recent.length < 64) : goBack p d = onPort p (fun x => { x with
    replayCount := x.replayCount + 1, replays := x.replays + 1
    recent := ((portOf d p).recent.filter fun t => decide (d.clock - t < 1000000)) ++ [d.clock]
    replay := x.replay.map fun r => { r with at_ := d.clock }, wire := x.wire ++ x.replay.map fun r => r.flit x }) d := by
  have hlen : ¬ (((portOf d p).recent.filter fun t => decide (d.clock - t < 1000000)) ++ [d.clock]).length > 64 := by
    rw [List.length_append, List.length_singleton]
    have := List.length_filter_le (fun t => decide (d.clock - t < 1000000)) (portOf d p).recent
    omega
  unfold goBack
  rw [if_neg (by rw [List.isEmpty_iff]; exact hsome), if_neg (Nat.not_le.mpr hfew)]
  exact if_neg hlen

end

/-! ### Messages sent (R349 to R351) -/

theorem freeHeld_frame (w : Waiting) (k : LinkPart) : k.freeHeld w = { k with ports := (k.freeHeld w).ports } := by
  unfold LinkPart.freeHeld
  split
  · rfl
  · rfl

/-- Sending what waits changes the ports and nothing else of the links. -/
theorem pumpLink_frame (now p fuel : Nat) (k : LinkPart) : pumpLink now p fuel k = { k with ports := (pumpLink now p fuel k).ports } := by
  induction fuel generalizing k with
  | zero => rfl
  | succ n ih =>
    unfold pumpLink
    dsimp only
    split
    · rfl
    · split
      · rfl
      · rw [ih, freeHeld_frame]
        rfl

theorem counter_frame (key : List Byte) (stored : Bool) (k : LinkPart) :
    (k.counter key stored).2 = { k with counters := (k.counter key stored).2.counters } := by
  unfold LinkPart.counter
  split
  · rfl
  · rfl

section
variable {m : OutMsg} {d : Device}

theorem sendMsg_unkeyed (hkey : sealKey d m = none) : sendMsg m d = d := by
  rw [sendMsg, sendLink, hkey]

variable {key : List Byte} {stored : Bool} (hkey : sealKey d m = some (key, stored))
include hkey

theorem sendMsg_unrouted (hport : ownPort d m = none) : sendMsg m d = { d with link := { d.link with dropCount := d.link.dropCount + 1 } } := by
  simp only [sendMsg, sendLink, hkey, hport]

/-- A message that has a key and a port is numbered and counted, and its flits wait at the port or go out. -/
theorem sendMsg_routed {p : Nat} (hport : ownPort d m = some p) : (sendMsg m d).link = { d.link with
    ports := (sendMsg m d).link.ports, outbox := d.link.outbox ++ [m], nextMsg := d.link.nextMsg + 1
    counters := (d.link.counter key stored).2.counters } := by
  simp only [sendMsg, sendLink, hkey, hport]
  rw [pumpLink_frame, LinkPart.onPort, counter_frame]

end

/-! ### Reassembly (R349) -/

theorem execReassemblyTimeout_due {s : State} {src : BitVec 12} {msg : W16} {m : Reasm} (halive : coreAlive s.dev = true)
    (hshed : anyShed s.dev = false) (hfind : (s.dev.link.reasm.find? fun m => m.src == src && m.msg == msg) = some m) :
    execReassemblyTimeout src msg s = .next (settled s (countDrop { advanceTo (m.at_ + 1000000) s.dev with
      link.reasm := s.dev.link.reasm.filter fun m => !(m.src == src && m.msg == msg) })) := by
  rw [execReassemblyTimeout, run_settled]
  simp only [hfind]
  rw [if_pos ⟨halive, by rw [hshed]; rfl⟩]

/-! ### The statement, by its groups -/

/-- Settles O53: training by `throughStates_ends` and the lemmas of the attempt, UP and DOWN by the port that each leaves, flits and messages by
the lemma of their case. -/
theorem linksTrainAndCarryFlits : Obligations.LinksTrainAndCarryFlits := by
  refine ⟨fun s p halive => ⟨fun changed hdown hmode hfree => ?_,
      fun lane dt htraining hearly htrying => ⟨execBitLockTimeout_within halive htraining hearly htrying,
        execBitLockTimeout_beyond halive htraining hearly htrying⟩,
      fun htraining => run_makes (if_pos ⟨halive, htraining⟩), fun hup => run_makes (if_pos ⟨halive, hup⟩),
      fun hup => run_makes (if_pos ⟨halive, hup⟩), fun peer t htraining => ⟨fun hin => ?_, fun hout => ?_⟩⟩,
    fun d p peer => ⟨enterUp_refused, fun hcause => ?_⟩, fun d p cause => ?_, fun d p => ?_,
    fun s p halive => ⟨fun flit hup hlen => ⟨execFlitReceive_badCrc halive hup hlen, fun hcrc htype => ?_, fun hcrc htype => ?_,
      fun hcrc htype => ?_⟩, fun r rest hup hreplay => ?_⟩,
    fun m d => ⟨sendMsg_unkeyed, fun key stored hkey => ⟨sendMsg_unrouted hkey, fun p hport => ?_⟩⟩, fun s src msg m halive hshed hfind => ?_⟩
  · have hport : portOf (untilRetry (portOf s.dev p.toNat) s.dev) p.toNat = portOf s.dev p.toNat := portOf_link (untilRetry_link ..) _
    refine ⟨_, (exec_linkTrainStart ..).trans (execLinkTrainStart_down halive hdown hmode hfree), ?_, fun q hq => ?_, ?_⟩
    · exact (portOf_settle ..).trans ((portOf_startTraining ..).trans (congrArg₂ startedPort hport (untilRetry_clock ..)))
    · rw [settled, portOf_settle, portOf_startTraining_other hq, portOf_link (untilRetry_link ..)]
    · refine (settle_event _ _ (by decide)).trans (changePort_event _ _ _ ?_)
      rw [hport, hdown]
      exact PortState.noConfusion
  · obtain ⟨e, hr, hclock, hparam, hon⟩ :=
      (throughStates_ends p.toNat t (enterUp p.toNat peer) s.dev).1 (by omega)
    refine ⟨e, ?_, by omega, ?_, hon.others, hon.pod, hon.manager⟩
    · rw [exec_linkUp, execLinkUp_training halive htraining, hr]
    · rw [← hparam]; exact hon.port
  · obtain ⟨e, hr, hclock, hon⟩ := (throughStates_ends p.toNat t (enterUp p.toNat peer) s.dev).2 (by omega)
    refine ⟨e, ?_, hclock, hon.others⟩
    rw [exec_linkUp, execLinkUp_training halive htraining, hr]
  · refine ⟨portRose p peer d, enterUp_accepted hcause, ?_⟩
    rw [portOf_portRose]
    refine ⟨rfl, rfl, rfl, rfl, rfl, rfl, rfl, rfl, fun hanew => ?_, fun hretrain => ?_, fun q hq => portOf_portRose_other hq ..⟩
    · simp only [resends, risenPort, keptReplay, hanew, Bool.false_eq_true, if_false, List.map_nil, and_self]
    · change ((keptReplay peer (portOf d p)).map fun r => { r with at_ := d.clock }).map (·.seq) <:+ _
      rw [List.map_map]
      exact (keptReplay_suffix ..).map _
  · refine ⟨portFell p cause d, portDown_eq .., ?_, fun q hq => ?_, fun hown q => ?_⟩
    · rw [portOf_portFell, if_pos rfl, portOf_buffersFreed]
      rfl
    · rw [portOf_portFell, if_neg hq]
      exact portOf_buffersFreed ..
    · have hfreed : buffersFreed p d = d := by rw [buffersFreed, freeHelds_own hown]
      rw [portOf_portFell, hfreed]
      split
      · next hq => rw [hq]; rfl
      · rfl
  · rw [portOf_retrainPort, if_pos rfl]
    exact ⟨rfl, rfl, rfl, rfl, fun q hq => by rw [portOf_retrainPort, if_neg hq]⟩
  · have haccepted : (portOf (takeAck p.toNat flit (wireCleared p.toNat s.dev)) p.toNat).accepted = (portOf s.dev p.toNat).accepted := by
      rw [takeAck_accepted, wireCleared, portOf_onPort_self]
    rw [exec_flitReceive, execFlitReceive_goodCrc halive hup hlen hcrc (by omega)]
    rw [flitActs_data htype, haccepted]
    exact ⟨fun hseq => by rw [if_pos hseq]; rfl, fun hseq => by rw [if_neg hseq]; rfl⟩
  · rw [exec_flitReceive, execFlitReceive_goodCrc halive hup hlen hcrc (by omega), flitActs_nak htype]
    rfl
  · rw [exec_flitReceive, execFlitReceive_goodCrc halive hup hlen hcrc (by omega), flitActs_plain htype]
    rfl
  · have hport : portOf (wireCleared p.toNat (advanceTo (r.at_ + 2000) s.dev)) p.toNat = { portOf s.dev p.toNat with wire := [] } := by
      rw [wireCleared, portOf_onPort_self, portOf_advanceTo]
    have hsome : (portOf (wireCleared p.toNat (advanceTo (r.at_ + 2000) s.dev)) p.toNat).replay ≠ [] := by
      rw [hport, hreplay]; exact List.cons_ne_nil _ _
    rw [exec_replayTimer, execReplayTimer_due halive hup hreplay]
    refine ⟨fun hmany => ?_, fun hfew hrecent => ⟨_, rfl, ?_⟩⟩
    · rw [goBack_exhausted hsome (by rw [hport]; exact hmany)]
      rfl
    · rw [goBack_resends hsome (by rw [hport]; exact hfew) (by rw [hport]; exact hrecent), portOf_onPort_self, hport]
      refine ⟨advanceTo_clock .., rfl, rfl, rfl, rfl, fun q hq => ?_⟩
      rw [portOf_onPort, if_neg hq, wireCleared, portOf_onPort, if_neg hq, portOf_advanceTo]
  · rw [sendMsg_routed hkey hport]
    exact ⟨rfl, rfl, rfl, rfl, fun q => sendMsg_state ..⟩
  · refine ⟨_, (exec_reassemblyTimeout ..).trans (execReassemblyTimeout_due halive hshed hfind), ?_⟩
    simp only [settled, settle_link, settle_clock, countDrop, advanceTo_link, advanceTo_clock, true_and]

end Sys2Proof.Machine
end

section
/-! PROOFS. Pods (R249, R353, R354, R357 to R367, R389): messages that a device takes up, the manager's messages, the messages of a job, lost
devices, and the opcodes of the range. -/

namespace Sys2Proof.Machine

/-! ### A message is taken up, or is not (R352) -/

/-- A fold of steps that keep a part of the device keeps it. -/
theorem foldl_keeps {α β : Type} (g : Device → β) {f : Device → α → Device} (h : ∀ d x, g (f d x) = g d) (l : List α) (d : Device) :
    g (l.foldl f d) = g d := by
  induction l generalizing d with
  | nil => rfl
  | cons x l ih => exact (ih _).trans (h d x)

/-- Taking up a message empties its place in the inbox and changes nothing else. -/
theorem takeMsg_frame {twin : Bool} {kind : Nat} {src : Option (BitVec 12)} {fits : List Byte → Bool} {d e : Device}
    (h : takeMsg twin kind src fits d = some e) : e = { d with link := { d.link with inbox := e.link.inbox } } := by
  obtain ⟨m, -, rfl⟩ := Option.map_eq_some_iff.mp h
  rfl

/-- The device that has taken up a job message of a kind, which ends Doze (R523). -/
def gotJobMsg (kind : Nat) (m : JobMsg) (d : Device) : Option Device := (takeMsg false kind (some m.src) (headFits kind m) d).map (wakeUp 4)

section
variable {s : State} (halive : coreAlive s.dev = true)
include halive

theorem onMessage_untaken {kind : Nat} {src : BitVec 12} {fits : List Byte → Bool} (h : takeMsg false kind (some src) fits s.dev = none)
    (f : Device → Device) : onMessage kind src fits f s = .next (settled s s.dev) := by
  rw [onMessage, run_settled, halive, h]
  rfl

theorem onMessage_taken {kind : Nat} {src : BitVec 12} {fits : List Byte → Bool} {d : Device}
    (h : takeMsg false kind (some src) fits s.dev = some d) (f : Device → Device) :
    onMessage kind src fits f s = .next (settled s (f (if kind = 0 then d else wakeUp 4 d))) := by
  rw [onMessage, run_settled, halive, h]
  rfl

theorem onJobMessage_untaken {kind : Nat} {m : JobMsg} (h : gotJobMsg kind m s.dev = none) (f : Device → Device) :
    onJobMessage kind m f s = .next (settled s s.dev) := onMessage_untaken halive (Option.map_eq_none_iff.mp h) f

theorem onJobMessage_taken {kind : Nat} (hkind : kind ≠ 0) {m : JobMsg} {d : Device} (h : gotJobMsg kind m s.dev = some d)
    (f : Device → Device) : onJobMessage kind m f s = .next (settled s (f d)) := by
  obtain ⟨e, htake, rfl⟩ := Option.map_eq_some_iff.mp h
  rw [onJobMessage, onMessage_taken halive htake, if_neg hkind]

theorem onJobMessage_stale {kind : Nat} (hkind : kind ≠ 0) {m : JobMsg} {d : Device} (h : gotJobMsg kind m s.dev = some d)
    {f : Device → Device} (hstale : f d = countStale m d) : onJobMessage kind m f s = .next (settled s (countStale m d)) := by
  rw [onJobMessage_taken halive hkind h, hstale]

end

/-! ### CONTROL (R249, R354, R357, R363, R364, R366, R389) -/

/-- The stage job that a worker enters when it takes the key of a job that it does not hold (R357, R389). -/
def stageJob (src : BitVec 12) (t : Byte) (main : Nat) (key : List Byte) (st : StageInfo) (d : Device) : Job :=
  { main := main, adapter := skeinBy d t st.adapter, draft := skeinBy d t st.draft, tiles := st.tiles, budget := 0, prefillMin := 0, key := key
    order := d.serve.nextOrder, manager := some src
    stages := [{ first := st.first, last := st.first + st.count - 1, device := ownId d, tiles := st.tiles }] }

theorem takeJobKey_new {src : BitVec 12} {t : Byte} {jid : W32} {epoch : W16} {kgen : BitVec 2} {counter : W64} {sealed key : List Byte}
    {st : StageInfo} {g : Generation} {main : Nat} {d : Device} (hgen : (tenantGens d t).find? (fun g => g.num == kgen) = some g)
    (hskein : skeinBy d t st.main = some main)
    (hopen : gcmOpen (kWrap t g) (leBytes 2 src.toNat ++ [t, 0xFF] ++ leBytes 8 counter.toNat)
      (leBytes 4 jid.toNat ++ leBytes 2 epoch.toNat ++ [BitVec.ofNat 8 kgen.toNat]) sealed = some key) (hnew : jobOf d t jid = none) :
    takeJobKey src t jid epoch kgen counter sealed st d = addJob t jid (stageJob src t main key st d) d := by
  simp only [takeJobKey, hgen, hskein, hopen, hnew]
  rfl

theorem jobOf_addJob (t : Byte) (jid : W32) (j : Job) (d : Device) : jobOf (addJob t jid j d) t jid = some j :=
  (find_addJob ..).trans (if_pos rfl)

section
variable {src : BitVec 12} {ref : Ref} {x : Request} {st : W16} {d : Device}

theorem withdrawDone_ends (hreq : reqOf d ref = some x) (hend : x.ending = some st) : withdrawDone src ref d =
    if (x.awaited.filter (· != src)).isEmpty then endRequest ref st d
    else onReq ref (fun r => { r with awaited := x.awaited.filter (· != src) }) d := by
  simp only [withdrawDone, hreq, hend]

theorem control_withdrawAck {tag : W16} {t : Byte} {jid : W32}
    (hfind : (d.serve.reqs.find? fun x => x.1.tag == tag && x.2.awaited.contains src) = some (ref, x)) :
    control src (.withdrawAck t jid tag) d = withdrawDone src ref d := by
  simp only [control, hfind]

end

/-- A released stage job is gone (R363). -/
theorem jobOf_releaseStage (t : Byte) (jid : W32) (d : Device) : jobOf (releaseStage t jid d) t jid = none := by
  unfold releaseStage
  split
  · next hnone => exact hnone
  · exact (Assoc.find_erase ..).trans (if_pos rfl)

theorem sendMoved_host (t : Byte) (jid : W32) (epoch : W16) (dest : BitVec 12) (seq n : Nat) (pages : List PageCopy) (d : Device) :
    (sendMoved t jid epoch dest seq n pages d).host = d.host := by
  refine foldl_keeps Device.host (fun d c => ?_) pages d
  rw [sendMsg_frame]

theorem moveShadows_host (t : Byte) (jid : W32) (j : Job) (next : List Stage) (d : Device) : (moveShadows t jid j next d).host = d.host := by
  refine foldl_keeps Device.host (fun d st => foldl_keeps Device.host (fun d x => ?_) _ d) _ d
  split
  · exact sendMoved_host ..
  · rfl

/-- A stage job none of whose layers stays on this device goes (R363). -/
theorem jobOf_moveStage_gone {t : Byte} {jid : W32} {next : List (Nat × Nat × BitVec 12)} {d : Device}
    (haway : ∀ x ∈ next, x.2.2 ≠ ownId d) : jobOf (moveStage t jid next d) t jid = none := by
  unfold moveStage
  split
  · next hnone => exact hnone
  · next j hjob =>
    dsimp only
    rw [if_pos]
    · exact jobOf_releaseStage ..
    · rw [List.isEmpty_iff, List.filter_eq_nil_iff]
      intro s hs
      obtain ⟨x, hx, rfl⟩ := List.mem_map.mp hs
      rw [ownId, moveShadows_host, beq_iff_eq]
      exact haway x hx

/-! ### The epoch check, and the messages of a current epoch (R357 to R365) -/

section
variable {m : JobMsg} {d : Device} (hstale : currentJob d m = none)
include hstale

theorem epochAck_stale : epochAck m d = countStale m d := by rw [epochAck, hstale]
theorem workMessage_stale (w : WorkUnit) (sites : List Int) (lists : List ListSpec) : workMessage m w sites lists d = countStale m d := by
  rw [workMessage, hstale]
theorem dataMessage_stale (x : Activation) : dataMessage m x d = countStale m d := by rw [dataMessage, hstale]
theorem resultMessage_stale (b : ResultBody) : resultMessage m b d = countStale m d := by rw [resultMessage, hstale]
theorem knotMessage_stale (k : W16) (n : W32) : knotMessage m k n d = countStale m d := by rw [knotMessage, hstale]
theorem withdrawMessage_stale (g : Option W16) (rows : List Nat) : withdrawMessage m g rows d = countStale m d := by
  rw [withdrawMessage, hstale]
theorem migrateMessage_stale (q : W16) (n : Nat) (ps : List PageCopy) : migrateMessage m q n ps d = countStale m d := by
  rw [migrateMessage, hstale]

end

theorem jobOf_currentJob {m : JobMsg} {j : Job} {d : Device} (h : currentJob d m = some j) : jobOf d m.tenant m.job = some j :=
  (Option.filter_eq_some_iff.mp h).1

theorem fromManager_self {j : Job} {m : JobMsg} (h : j.manager = some m.src) : fromManager j m = true := by
  rw [fromManager, h]
  exact beq_self_eq_true _

theorem not_fromManager {j : Job} {m : JobMsg} (h : j.manager = some m.src) : ¬(!fromManager j m) = true := by
  rw [fromManager_self h]
  decide

theorem epochNotice_adopts {m : JobMsg} {j : Job} {d : Device} (hjob : jobOf d m.tenant m.job = some j) (hman : j.manager = some m.src) :
    epochNotice m d = sendMsg
      { kind := 1, dest := m.src, tenant := m.tenant, job := m.job, epoch := m.epoch, body := .epoch m.job true }
      (onJob m.tenant m.job (fun j => { j with epoch := m.epoch })
        (j.shadows.foldl (fun d x => rollback x.2 d) (dropStep m.tenant m.job (clearLists m.tenant m.job j.tiles d)))) := by
  simp only [epochNotice, hjob]
  exact if_neg (not_fromManager hman)

/-! ### The work of a stage (R114, R257, R260, R358) -/

theorem rollback_jobs (i : Nat) (d : Device) : JobsKept d (rollback i d) := by
  unfold rollback
  split
  · exact .refl d
  · exact .ite (.refl d) ((cutEntries_jobs ..).trans (onSeq_jobs ..))

theorem appendEntry_jobs (i : Nat) (d : Device) : JobsKept d (appendEntry i d) := by
  unfold appendEntry
  split
  · exact .refl d
  · dsimp only
    split
    · next htake => exact ((takePage_jobs htake).trans (fabWrite_jobs ..)).trans (onSeq_jobs ..)
    · exact .refl d

theorem appendShadow_jobs (i : Nat) (stages : List Stage) (d : Device) : JobsKept d (appendShadow i stages d) := by
  unfold appendShadow
  split
  · exact .refl d
  · exact .ite (appendEntry_jobs ..) (onSeq_jobs ..)

theorem JobsKept.times {f : Device → Device} (h : ∀ d, JobsKept d (f d)) (n : Nat) (d : Device) : JobsKept d (times n f d) := by
  induction n generalizing d with
  | zero => exact .refl d
  | succ n ih => exact (h d).trans (ih _)

/-- A job that stands stays, though what it holds may change. -/
def JobStays (t : Byte) (jid : W32) (d e : Device) : Prop := (jobOf d t jid).isSome = true → (jobOf e t jid).isSome = true

theorem JobsKept.stays {d e : Device} (h : JobsKept d e) (t : Byte) (jid : W32) : JobStays t jid d e := fun hjob => by
  rw [jobOf_congr h]; exact hjob

theorem JobStays.trans {t : Byte} {jid : W32} {a b c : Device} (h : JobStays t jid a b) (k : JobStays t jid b c) : JobStays t jid a c :=
  fun hjob => k (h hjob)

theorem JobStays.foldl {α : Type} {t : Byte} {jid : W32} (f : Device → α → Device) (h : ∀ d x, JobStays t jid d (f d x)) (l : List α)
    (d : Device) : JobStays t jid d (l.foldl f d) := by
  induction l generalizing d with
  | nil => exact id
  | cons x l ih => exact (h d x).trans (ih _)

theorem onJob_stays (t : Byte) (jid : W32) (f : Job → Job) (d : Device) : JobStays t jid d (onJob t jid f d) := fun hjob => by
  rw [jobOf_onJob, Option.isSome_map]; exact hjob

theorem shadowOf_stays {m : JobMsg} {j : Job} {seq i : Nat} {d e : Device} (h : shadowOf m j seq d = some (i, e)) :
    JobStays m.tenant m.job d e := by
  unfold shadowOf at h
  split at h
  · cases h; exact id
  · split at h
    · cases h
      exact JobStays.trans ((newSeq_jobs ..).stays _ _) (onJob_stays _ _ _ _)
    · cases h

theorem shadowRows_stays (m : JobMsg) (x : ShadowRows) (d : Device) : JobStays m.tenant m.job d (shadowRows m x d) := by
  unfold shadowRows
  split
  · exact id
  · split
    · exact id
    · split
      · exact id
      · next i e hshadow =>
        have hback : JobsKept e (rollback i (onSeq i (fun s => { s with committed := x.pos }) e)) := (onSeq_jobs ..).trans (rollback_jobs ..)
        refine JobStays.trans (shadowOf_stays hshadow) (JobStays.trans (hback.stays _ _) (JobsKept.stays ?_ _ _))
        dsimp only
        split
        · exact .refl _
        · exact (JobsKept.times (fun _ => appendShadow_jobs ..) _ _).trans
            ((JobsKept.ite (.refl _) (onSeq_jobs ..)).trans ((growList_jobs ..).trans (syncList_jobs ..)))

theorem pinSnaps_jobs (t : Nat) (j : Job) (snaps : List SeqSnap) (d : Device) : JobsKept d (pinSnaps t j snaps d).2 := by
  unfold pinSnaps
  dsimp only
  split
  · exact .refl d
  · exact .foldl _ (fun d _ => .foldl _ (fun _ _ => onPage_jobs ..) _ d) _ d

theorem zeroAtomics_jobs (d : Device) (j : Job) (n : Nat) : JobsKept d (zeroAtomics d j n) := by
  refine .foldl _ (fun d a => ?_) _ d
  split
  · exact .ite (.refl d) (.refl d)
  · exact .refl d

/-- A step that takes its number and zeroes its ATOMIC rows touches no job. -/
theorem nextStep_jobs (d : Device) (j : Job) (n : Nat) : JobsKept d (zeroAtomics { d with mem.serial := d.mem.serial + 1 } j n) :=
  zeroAtomics_jobs ..

theorem shadowWalks_pos (j : Job) (rows : List ShadowRows) (at_ : Nat) : (shadowWalks j rows at_).map (·.pos) = rows.map (·.pos) := by
  induction rows generalizing at_ with
  | nil => rfl
  | cons x rows ih => exact congrArg (x.pos :: ·) (ih _)

theorem stepOf_started {t : Byte} {jid : W32} {d : Device} (hjob : (jobOf d t jid).isSome = true) {f : Job → Job} {st : StepRun}
    (hstep : ∀ j, (f j).step = some st) : (jobOf (onJob t jid f d) t jid).bind (·.step) = some st := by
  obtain ⟨j, hj⟩ := Option.isSome_iff_exists.mp hjob
  rw [stepOf_onJob, hj]
  exact hstep j

/-- A work unit for a stage begins its step: the X_site snapshot and the rows are the unit's, the layers the stage's (R114, R358). -/
theorem workMessage_begins {m : JobMsg} {w : WorkUnit} {j : Job} {sg : Stage} {d : Device} (hjob : currentJob d m = some j)
    (hman : j.manager = some m.src) (hstage : (j.stages.find? fun x => x.first == w.first) = some sg) (sites : List Int)
    (lists : List ListSpec) : ∃ e st, workMessage m w sites lists d = layerQueue m.tenant m.job lists e ∧
      (jobOf e m.tenant m.job).bind (·.step) = some st ∧ st.snapMain = sites ∧ st.dstep = w.dstep ∧ st.epoch = m.epoch ∧
      st.total = sg.last + 1 - sg.first ∧ st.layer = 0 ∧ st.queued = [] ∧ st.walkRows.map (·.pos) = w.rows.map (·.pos) := by
  simp only [workMessage, hjob, hstage]
  rw [if_neg (not_fromManager hman)]
  have hstart : JobStays m.tenant m.job d (w.rows.foldl (fun d x => shadowRows m x d) d) := .foldl _ (fun d x => shadowRows_stays m x d) _ d
  refine ⟨_, _, rfl, stepOf_started ?_ fun _ => rfl, ?_⟩
  · refine (nextStep_jobs ..).stays _ _ ((pinSnaps_jobs ..).stays _ _ (hstart ?_))
    rw [jobOf_currentJob hjob]
    rfl
  · exact ⟨rfl, rfl, rfl, rfl, rfl, rfl, shadowWalks_pos ..⟩

/-! ### Activations (R232, R234, R238, R349) -/

section
variable {tiles : W32} {x : Activation} {k : Nat} {d : Device} (htile : (tilesOf tiles)[x.tile.toNat]? = some k)
include htile

theorem placeActivation_decodes (hlen : x.coded.length = codedLen x.mode x.rows x.cols) (hmode : x.mode ≤ 2) :
    placeActivation tiles x d = (true, let y := decodeTensor x.mode x.rows x.cols x.coded
      storePut k x.exps.toNat y.2 ((List.range x.rows).foldl (fun d i =>
        storePut k (x.at_.toNat + i * x.stride.toNat) (slice y.1 (2 * x.cols * i) (2 * x.cols)) d) d)) := by
  have hvalid : ¬(x.coded.length ≠ codedLen x.mode x.rows x.cols ∨ x.mode > 2) := by omega
  simp only [placeActivation, htile]
  rw [if_neg hvalid]

theorem placeActivation_malformed (hbad : x.coded.length ≠ codedLen x.mode x.rows x.cols ∨ 2 < x.mode) :
    placeActivation tiles x d = (false, d) := by
  simp only [placeActivation, htile]
  rw [if_pos hbad]

end

theorem takeActivations_one (m : JobMsg) (j : Job) (x : Activation) (d : Device) : takeActivations m j [x] d =
    if (placeActivation j.tiles x d).1 then (placeActivation j.tiles x d).2
    else failStep m.tenant m.job stCodecError (placeActivation j.tiles x d).2 := rfl

theorem dataMessage_places {m : JobMsg} {j : Job} {d : Device} (hjob : currentJob d m = some j) (hman : j.manager = some m.src)
    (x : Activation) : dataMessage m x d = takeActivations m j [x] d := by
  simp only [dataMessage, hjob]
  rw [if_pos (fromManager_self hman)]

/-! ### Results (R215, R249, R357) -/

/-- The device with the partial row that a result carries. -/
def partialAdded (m : JobMsg) (b : ResultBody) (d : Device) : Device :=
  match b.partialRow with | some (t, off, row) => addPartial m.tenant m.job t.toNat off.toNat row d | none => d

section
variable {m : JobMsg} {j : Job} {b : ResultBody} {d : Device} (hjob : currentJob d m = some j)
include hjob

theorem resultMessage_current : resultMessage m b d =
    if !(j.manager.isNone && (stageDevices (partialAdded m b d) j).contains m.src) then partialAdded m b d
    else if b.status ≠ 0 then failStep m.tenant m.job b.status (mergeObs m.tenant m.job b.xobs (partialAdded m b d))
    else if b.done then stageDone m.tenant m.job m.src (endStageRetired m.tenant m.job b.retired
      (takeActivations m j b.rows (mergeObs m.tenant m.job b.xobs (partialAdded m b d))))
    else endStageRetired m.tenant m.job b.retired
      (takeActivations m j b.rows (mergeObs m.tenant m.job b.xobs (partialAdded m b d))) := by
  rw [resultMessage, hjob]
  rfl

theorem resultMessage_partialOnly (hother : j.manager.isSome = true ∨ (stageDevices (partialAdded m b d) j).contains m.src = false) :
    resultMessage m b d = partialAdded m b d := by
  rw [resultMessage_current hjob, if_pos]
  rcases hother with h | h
  · rw [Option.isNone_eq_false_iff.mpr h]; rfl
  · rw [h, Bool.and_false]; rfl

theorem resultMessage_stage (hman : j.manager = none) (hstage : (stageDevices (partialAdded m b d) j).contains m.src = true) :
    resultMessage m b d =
      if b.status ≠ 0 then failStep m.tenant m.job b.status (mergeObs m.tenant m.job b.xobs (partialAdded m b d))
      else if b.done then stageDone m.tenant m.job m.src (endStageRetired m.tenant m.job b.retired
        (takeActivations m j b.rows (mergeObs m.tenant m.job b.xobs (partialAdded m b d))))
      else endStageRetired m.tenant m.job b.retired
        (takeActivations m j b.rows (mergeObs m.tenant m.job b.xobs (partialAdded m b d))) := by
  rw [resultMessage_current hjob, if_neg]
  rw [hman, hstage]
  decide

/-! ### Signals, withdrawals, pages and acknowledgements (R360, R363 to R365) -/

theorem knotMessage_current (knot : W16) (n : W32) : knotMessage m knot n d =
    if 4096 ≤ knot.toNat ∧ ownsKnot d m.tenant knot.toNat = true ∧ m.tenant ≠ 0 then knotSignal knot.toNat n.toNat d else countDrop d := by
  rw [knotMessage, hjob]

theorem withdrawMessage_all (hman : j.manager = some m.src) (rows : List Nat) :
    withdrawMessage m none rows d = dropStep m.tenant m.job (clearLists m.tenant m.job j.tiles d) := by
  simp only [withdrawMessage, hjob]
  rw [if_neg (not_fromManager hman)]

theorem withdrawMessage_request (hman : j.manager = some m.src) (g : W16) (rows : List Nat) : withdrawMessage m (some g) rows d = sendMsg
    { kind := 0, dest := m.src, tenant := 0, job := 0, epoch := 0, body := .control (.withdrawAck m.tenant m.job g) }
    (dropJobRows m.tenant m.job j.tiles rows d) := by
  simp only [withdrawMessage, hjob]
  rw [if_neg (not_fromManager hman)]

/-- The shadow that stands for a sequence of the manager is found by its number (R358). -/
theorem shadowOf_known {seq i : Nat} (hmem : (seq, i) ∈ j.shadows) (honly : ∀ x ∈ j.shadows, x.1 = seq → x.2 = i) :
    shadowOf m j seq d = some (i, d) := by
  have hfind : (j.shadows.find? fun x => x.1 == seq).isSome = true :=
    List.find?_isSome.mpr ⟨_, hmem, beq_self_eq_true seq⟩
  obtain ⟨x, hx⟩ := Option.isSome_iff_exists.mp hfind
  have hi : x.2 = i := honly x (List.mem_of_find?_eq_some hx) (beq_iff_eq.mp (List.find?_some hx :))
  simp only [shadowOf, jobOf_currentJob hjob, Option.map_some, Option.getD_some, hx, hi]

theorem migrateMessage_lands {seq : W16} {i : Nat} {e : Device} (hshadow : shadowOf m j seq.toNat d = some (i, e)) (n : Nat)
    (pages : List PageCopy) : migrateMessage m seq n pages d =
      onSeq i (fun x => { x with committed := n }) (pages.foldl (fun d c => landPage m.tenant.toNat i c d) e) := by
  simp only [migrateMessage, hjob, hshadow]

theorem epochAck_counts (hman : j.manager = none) : epochAck m d =
    let left := j.awaited.filter (· != m.src)
    let e := onJob m.tenant m.job (fun j => { j with awaited := left }) d
    if left.isEmpty ∧ !j.awaited.isEmpty ∧ j.place = .placing ∧ j.epochOut then finishPlace m.tenant m.job e else e := by
  simp only [epochAck, hjob, hman]
  rfl

end

/-! ### LINK_POD_CFG (R356) -/

/-- What makes a device a member of its pod: pod, member, manager, routes and device ID. -/
def podIdentity (d : Device) : BitVec 5 × BitVec 6 × Bool × Assoc (List Nat) × BitVec 12 :=
  (d.link.pod, d.link.member, d.link.manager, d.link.routes, d.host.deviceId)

theorem podIdentity_congr {d e : Device} (hlink : e.link = d.link) (hid : e.host.deviceId = d.host.deviceId) :
    podIdentity e = podIdentity d := by rw [podIdentity, podIdentity, hlink, hid]

theorem podIdentity_completed (s : State) (p : Packet) (d : Device) : podIdentity (settled s (complete p d)).dev = podIdentity d :=
  (podIdentity_congr (settle_link _) (settle_host (·.deviceId) (fun _ _ _ => rfl) _)).trans
    (podIdentity_congr (complete_link ..) (congrArg (·.deviceId) (complete_host ..)))

/-- The identity as numbers: five bits of pod, six of member, and the device ID of both. -/
theorem podIdentity_numbers {pod member : Nat} {d : Device} (hpod : pod < 32) (hmember : member < 64)
    (h : podIdentity d = (BitVec.ofNat 5 pod, BitVec.ofNat 6 member, decide (member = 0), [], BitVec.ofNat 12 (pod * 64 + member))) :
    d.link.pod.toNat = pod ∧ d.link.member.toNat = member ∧ d.link.manager = decide (member = 0) ∧
      d.host.deviceId.toNat = pod * 64 + member ∧ d.link.routes = [] := by
  simp only [podIdentity, Prod.mk.injEq] at h
  obtain ⟨hp, hm, hman, hroutes, hid⟩ := h
  rw [hp, hm, hid]
  exact ⟨Nat.mod_eq_of_lt hpod, Nat.mod_eq_of_lt hmember, hman, Nat.mod_eq_of_lt (by omega), hroutes⟩

theorem podIdentity_twinLost (d : Device) : podIdentity (twinLost d) = podIdentity d := by
  unfold twinLost
  rw [foldl_keeps podIdentity]
  · rfl
  · intro d x
    dsimp only
    split
    · rfl
    · split
      · split
        · exact podIdentity_congr (refuse_link ..) (congrArg (·.deviceId) (refuse_host ..))
        · rfl
      · rfl

theorem podIdentity_changePort (p : Nat) (f : LinkPort → LinkPort) (d : Device) : podIdentity (changePort p f d) = podIdentity d := by
  have hid : (changePort p f d).host.deviceId = d.host.deviceId := by
    unfold changePort ledgerLink
    dsimp only
    split
    · rw [ledgerEvent_host]; split <;> split <;> rfl
    · split <;> split <;> rfl
  rw [podIdentity, changePort_link, hid]
  rfl

theorem podIdentity_retrainPort (p : Nat) (d : Device) : podIdentity (retrainPort p d) = podIdentity d := by
  unfold retrainPort leaveUp
  dsimp only
  split
  · rw [podIdentity_twinLost, podIdentity_changePort]
  · exact podIdentity_changePort ..

theorem podIdentity_setIdentity (pod member : Nat) (d : Device) : podIdentity (setIdentity pod member d) =
    (BitVec.ofNat 5 pod, BitVec.ofNat 6 member, decide (member = 0), [], BitVec.ofNat 12 (pod * 64 + member)) := by
  unfold setIdentity
  dsimp only
  rw [foldl_keeps podIdentity]
  · rfl
  · intro d p
    split
    · exact podIdentity_retrainPort ..
    · split
      · rfl
      · rfl

theorem linkPodCfg_sets {p : Packet} {b : List Byte} {d : Device} (hpod : field b 0 1 ≤ 31) (hmember : field b 1 1 ≤ 63)
    (hroom : ledgerRoom d = none) (hidle : ∀ x ∈ d.serve.jobs, x.2.place = .none ∧ x.2.manager = none) : linkPodCfg p b d =
      complete p (setIdentity (if bitOf (field b 2 1) 0 then 0 else field b 0 1) (if bitOf (field b 2 1) 0 then 0 else field b 1 1)
        (ledgerConfig p d)) := by
  have hrange : ¬(field b 0 1 > 31 ∨ field b 1 1 > 63) := by omega
  have hfree : ¬(d.serve.jobs.any fun x => x.2.place != .none || x.2.manager.isSome) = true := by
    rw [List.any_eq_true]
    rintro ⟨x, hx, hbusy⟩
    obtain ⟨hplace, hman⟩ := hidle x hx
    rw [hplace, hman] at hbusy
    exact absurd hbusy (by decide)
  simp only [linkPodCfg]
  rw [if_neg hrange, privileged_room hroom, if_neg hfree]
  split
  · rfl
  · rfl

/-! ### LINK_PLACE and LINK_QUERY (R358 to R360, R363) -/

theorem linkPlace_here {p : Packet} {b : List Byte} {d : Device} {j : Job} (hok : stagesOk b = true) (hman : d.link.manager = true)
    (hjob : jobOf d p.hdr.tenant p.hdr.job = some j) (hown : j.manager = none) (hfree : j.place ≠ .placing)
    (hall : stagesEnd 0 (stagesOf b) = some (planOf d j.main).layers.length) (hhere : ∀ x ∈ stagesOf b, x.device = ownId d) :
    linkPlace p b d = goOnPlacing p p.hdr.tenant p.hdr.job (onJob p.hdr.tenant p.hdr.job (fun j => { j with
      place := .placing, nextStages := stagesOf b, placer := some (refOf p), moving := !(reqsOf d p.hdr.tenant p.hdr.job).isEmpty })
      (spend (2 * 0) d)) := by
  have hfind : (jobOf d p.hdr.tenant p.hdr.job).filter (fun j => j.manager.isNone) = some j := by
    rw [hjob, Option.filter_some, hown]
    rfl
  have hreach : ((stagesOf b).all fun s => canReach d s.device) = true := by
    rw [List.all_eq_true]
    intro x hx
    rw [canReach, hhere x hx, beq_self_eq_true, Bool.true_or]
  have haway : (stagesOf b).filter (fun s => s.device != ownId d) = [] := by
    rw [List.filter_eq_nil_iff]
    intro x hx
    rw [hhere x hx, bne_self_eq_false]
    decide
  simp only [linkPlace, hok, hman, hfind, hfree, hall, hreach, haway, Bool.not_true, Bool.false_eq_true, if_false, ne_eq, not_true_eq_false,
    List.length_nil, List.range_zero, List.all_nil, Bool.and_false]

/-- The code of a placement state in LINK_QUERY. -/
def placeCode : PlaceState → Byte
  | .none => 0
  | .placed => 1
  | .placing => 2
  | .broken => 3

theorem linkQuery_reports {p : Packet} {b : List Byte} {d : Device} {j : Job} (hman : d.link.manager = true)
    (hjob : jobOf d p.hdr.tenant p.hdr.job = some j) (hown : j.manager = none) : linkQuery p b d = finish p stOK (leBytes 2 j.epoch.toNat ++
      [placeCode j.place, BitVec.ofNat 8 j.stages.length] ++ leBytes 4 j.stale.toNat ++ leBytes 4 j.reissued.toNat ++
      leBytes 4 j.migrated.toNat ++ leBytes 4 j.staleEnds.toNat ++ zeros 12) d := by
  have hfind : (jobOf d p.hdr.tenant p.hdr.job).filter (fun j => j.manager.isNone) = some j := by
    rw [hjob, Option.filter_some, hown]
    rfl
  simp only [linkQuery, hman, hfind]
  rfl

/-! ### The statement, by its messages -/

/-- Settles O54: each message by what it does once it is taken up, the opcodes by `run_admits` and the lemma of their case. -/
theorem podsCarryJobs : Obligations.PodsCarryJobs := by
  refine ⟨fun s src halive => ⟨fun hnone c => onMessage_untaken halive hnone _, fun d htake => ?_⟩,
    fun s m halive => ⟨?_, fun d hstale => ?_, fun d j hgot hjob hman => ?_, fun d j w sites lists sg hgot hjob hman hstage => ?_,
      fun d j t x coded hgot hjob hman => ?_, fun d j b hgot hjob => ?_, fun d j k n hgot hjob => ?_, fun d j rows hgot hjob hman => ?_,
      fun d j q n ps hgot hjob => ?_, fun d j hgot hjob hman => ?_⟩,
    fun s halive hshed => ⟨fun id hman hother => ?_, fun hman => ?_⟩,
    fun s r p b c => ⟨fun hadmit hpod hmember hroom hidle => ?_, fun j hadmit hok hman hjob hown hfree hall hhere => ?_,
      fun j hadmit hman hjob hown => ?_⟩⟩
  · have hcontrol : ∀ c, exec (.controlMessage src c) s = .next (settled s (control src c d)) := fun c => onMessage_taken halive htake _
    refine ⟨fun p up peer hman => ?_, fun es hsrc hman => ⟨_, hcontrol _, ?_⟩,
      fun t jid epoch kgen counter sealed st g main key hgen hskein hopen hnew => ⟨_, stageJob src t main key st d, hcontrol _, ?_⟩,
      fun t jid tag ref x st hfind hreq hend => ?_, fun t jid next j hjob hman haway => ⟨_, hcontrol _, ?_⟩⟩
    · rw [hcontrol, control, if_pos hman]
    · rw [settled, settle_link, settle_serve, control, if_pos ⟨hsrc, by rw [hman]; rfl⟩, takeMsg_frame htake]
      exact ⟨rfl, rfl⟩
    · rw [settled, jobOf_congr (congrArg (·.jobs) (settle_serve _)), control, takeJobKey_new hgen hskein hopen hnew]
      exact ⟨jobOf_addJob .., rfl, rfl, rfl, rfl, rfl⟩
    · rw [hcontrol, control_withdrawAck hfind, withdrawDone_ends hreq hend]
    · rw [settled, jobOf_congr (congrArg (·.jobs) (settle_serve _)), control, hjob, Option.any_some, hman, if_pos (beq_self_eq_true _)]
      exact jobOf_moveStage_gone haway
  · exact ⟨fun h => ⟨onJobMessage_untaken halive h _, onJobMessage_untaken halive h _⟩, fun h _ _ _ => onJobMessage_untaken halive h _,
      fun h _ _ _ => onJobMessage_untaken halive h _, fun h _ => onJobMessage_untaken halive h _, fun h _ _ => onJobMessage_untaken halive h _,
      fun h _ _ => onJobMessage_untaken halive h _, fun h _ _ _ => onJobMessage_untaken halive h _⟩
  · exact ⟨fun h => onJobMessage_stale halive (by decide) h (epochAck_stale hstale),
      fun h w sites lists => onJobMessage_stale halive (by decide) h (workMessage_stale hstale w sites lists),
      fun h t x coded => onJobMessage_stale halive (by decide) h (dataMessage_stale hstale { x with tile := t, coded := coded }),
      fun h b => onJobMessage_stale halive (by decide) h (resultMessage_stale hstale b),
      fun h k n => onJobMessage_stale halive (by decide) h (knotMessage_stale hstale k n),
      fun h g rows => onJobMessage_stale halive (by decide) h (withdrawMessage_stale hstale g rows),
      fun h q n ps => onJobMessage_stale halive (by decide) h (migrateMessage_stale hstale q n ps)⟩
  · exact ⟨_, (onJobMessage_taken halive (by decide) hgot _).trans (by rw [epochNotice_adopts hjob hman]), rfl⟩
  · obtain ⟨e, st, hruns, hstep⟩ := workMessage_begins hjob hman hstage sites lists
    exact ⟨e, st, (onJobMessage_taken halive (by decide) hgot _).trans (by rw [hruns]), hstep⟩
  · have hdata : exec (.dataMessage m t x coded) s =
        .next (settled s (takeActivations m j [{ x with tile := t, coded := coded }] d)) :=
      (onJobMessage_taken halive (by decide) hgot _).trans (by rw [dataMessage_places hjob hman])
    refine ⟨fun k htile hlen hmode => ?_, fun k htile hbad => ?_⟩
    · rw [hdata, takeActivations_one, placeActivation_decodes htile hlen hmode]
      rfl
    · rw [hdata, takeActivations_one, placeActivation_malformed htile hbad]
      rfl
  · have hresult : exec (.resultMessage m b) s = .next (settled s (resultMessage m b d)) := onJobMessage_taken halive (by decide) hgot _
    refine ⟨fun hother => ?_, fun hman hstage => ⟨fun hfail => ?_, fun hok => ?_⟩⟩
    · rw [hresult, resultMessage_partialOnly hjob hother]
      rfl
    · rw [hresult, resultMessage_stage hjob hman hstage, if_pos hfail]
      rfl
    · rw [hresult, resultMessage_stage hjob hman hstage, if_neg (not_not.mpr hok)]
      rfl
  · exact (onJobMessage_taken halive (by decide) hgot _).trans (by rw [knotMessage_current hjob, countDrop])
  · exact ⟨(onJobMessage_taken halive (by decide) hgot _).trans (by rw [withdrawMessage_all hjob hman]),
      fun g => (onJobMessage_taken halive (by decide) hgot _).trans (by rw [withdrawMessage_request hjob hman])⟩
  · exact ⟨fun i hmem honly => shadowOf_known hjob hmem honly, fun i e hshadow =>
      (onJobMessage_taken halive (by decide) hgot _).trans (by rw [migrateMessage_lands hjob hshadow])⟩
  · exact (onJobMessage_taken halive (by decide) hgot _).trans (by rw [epochAck_counts hjob hman])
  · have hreached : ¬(!s.dev.link.manager || anyShed s.dev || id == ownId s.dev) = true := by
      rw [hman, hshed, beq_false_of_ne hother]
      decide
    exact run_makes ((if_pos halive).trans (if_neg hreached))
  · have hworker : ¬(!coreAlive s.dev || s.dev.link.manager || anyShed s.dev) = true := by
      rw [halive, hman, hshed]
      decide
    rw [exec_managerLost, execManagerLost]
    exact run_makes (if_neg hworker)
  · refine ⟨_, (exec_linkPodCfg ..).trans (run_admits hadmit linkPodCfg), ?_⟩
    rw [linkPodCfg_sets hpod hmember hroom hidle]
    refine ⟨?_, findPacket_settled s (findPacket_finish (begun p b) ..)⟩
    have hleave : ∀ n k, n < k → (if bitOf (field b 2 1) 0 then 0 else n) < k := fun n k hn => by split <;> omega
    have hpod := hleave (field b 0 1) 32 (by omega)
    have hmember := hleave (field b 1 1) 64 (by omega)
    generalize (if bitOf (field b 2 1) 0 then 0 else field b 0 1) = pod at *
    generalize (if bitOf (field b 2 1) 0 then 0 else field b 1 1) = member at *
    exact podIdentity_numbers hpod hmember ((podIdentity_completed ..).trans (podIdentity_setIdentity ..))
  · rw [exec_linkPlace, execLinkPlace, run_admits hadmit, linkPlace_here (p := begun p b) hok hman hjob hown hfree hall hhere]
    rfl
  · refine ⟨placeCode j.place, ?_, fun h => by rw [h]; rfl, fun h => by rw [h]; rfl, fun h => by rw [h]; rfl, fun h => by rw [h]; rfl⟩
    rw [exec_linkQuery, execLinkQuery, run_admits hadmit, linkQuery_reports (p := begun p b) hman hjob hown]

end Sys2Proof.Machine
end

section
/-! PROOFS. The chain of the ledger (R406, R408, R409), the receptacle and the management link (R396, R551 to R553), and SEC_LEDGER_TRIM
while an entry waits in the buffer (R408, R410). -/

namespace Sys2Proof.Machine

/-! ### The chain of the ledger (R406, R408, R409) -/

/-- The chain value after a list of entries that follows a given chain value. -/
def chainEnd (h : List Byte) (es : List LedgerEntry) : List Byte := (es.getLast?.map (·.chain)).getD h

theorem chainEnd_cons (h : List Byte) (e : LedgerEntry) (es : List LedgerEntry) : chainEnd h (e :: es) = chainEnd e.chain es := by
  cases hlast : es.getLast? <;> simp [chainEnd, List.getLast?_cons, hlast]

theorem chainEnd_concat (h : List Byte) (es : List LedgerEntry) (e : LedgerEntry) : chainEnd h (es ++ [e]) = e.chain := by
  simp [chainEnd]

theorem ledgerOk_iff {n : Nat} {h : List Byte} {d : Device} : LedgerOk n h d ↔
    Chained n h d.sec.ledger ∧ d.sec.nextSeq = n + d.sec.ledger.length ∧ d.sec.chain = chainEnd h d.sec.ledger := by
  unfold LedgerOk chainEnd
  cases d.sec.ledger.getLast? <;> rfl

/-- A chain goes on with an entry of the next number whose chain value follows the last one. -/
theorem chained_concat {n : Nat} {h : List Byte} {es : List LedgerEntry} {e : LedgerEntry} (hes : Chained n h es)
    (hseq : e.seq = n + es.length) (hchain : e.chain = digest32 (chainEnd h es ++ ledgerHead e.seq e.body)) :
    Chained n h (es ++ [e]) := by
  induction es generalizing n h with
  | nil => exact ⟨hseq, by rw [hchain, hseq]; rfl, trivial⟩
  | cons x es ih =>
    obtain ⟨hx, hlink, hrest⟩ := hes
    rw [chainEnd_cons] at hchain
    rw [List.length_cons] at hseq
    exact ⟨hx, hlink, ih hrest (by omega) hchain⟩

/-- The entry that a body gets: the next number, and the digest of the chain value before it and its own first 96 bytes. -/
def nextEntry (b : LedgerBody) (d : Device) : LedgerEntry :=
  { seq := d.sec.nextSeq, body := b, chain := digest32 (d.sec.chain ++ ledgerHead d.sec.nextSeq b) }

theorem ledgerCommit_room {d : Device} (hroom : d.sec.ledger.length < ledgerMax) (b : LedgerBody) :
    ledgerCommit b d = { d with sec := { d.sec with
      ledger := d.sec.ledger ++ [nextEntry b d], nextSeq := d.sec.nextSeq + 1, chain := (nextEntry b d).chain } } :=
  if_neg (Nat.not_le.mpr hroom)

theorem ledgerCommit_full {d : Device} (hfull : ledgerMax ≤ d.sec.ledger.length) (b : LedgerBody) : ledgerCommit b d = d := if_pos hfull

section
variable {n : Nat} {h : List Byte} {d : Device} (hok : LedgerOk n h d)
include hok

theorem ledgerCommit_keepsChain (b : LedgerBody) : LedgerOk n h (ledgerCommit b d) := by
  rcases Nat.lt_or_ge d.sec.ledger.length ledgerMax with hroom | hfull
  · rw [ledgerCommit_room hroom]
    obtain ⟨hes, hnext, hlast⟩ := ledgerOk_iff.mp hok
    have hchain : (nextEntry b d).chain = digest32 (chainEnd h d.sec.ledger ++ ledgerHead d.sec.nextSeq b) := by rw [← hlast]; rfl
    refine ledgerOk_iff.mpr ⟨chained_concat hes hnext hchain, ?_, (chainEnd_concat ..).symm⟩
    rw [List.length_append, List.length_singleton, hnext, Nat.add_assoc]
  · rwa [ledgerCommit_full hfull]

/-- The buffer of R408 is no part of the chain. -/
theorem ledgerOk_buffer (bs : List LedgerBody) : LedgerOk n h { d with sec := { d.sec with buffer := bs } } := hok

theorem ledgerWrite_keepsChain (b : LedgerBody) : LedgerOk n h (ledgerWrite b d) := by
  unfold ledgerWrite
  split
  · exact ledgerCommit_keepsChain hok b
  · split
    · exact ledgerOk_buffer hok _
    · exact hok

theorem ledgerCommits_keepChain (bs : List LedgerBody) : LedgerOk n h (bs.foldl (fun d b => ledgerCommit b d) d) := by
  induction bs generalizing d with
  | nil => exact hok
  | cons b bs ih => exact ih (ledgerCommit_keepsChain hok b)

theorem ledgerFlush_keepsChain : LedgerOk n h (ledgerFlush d) := ledgerCommits_keepChain (ledgerOk_buffer hok []) d.sec.buffer

end

/-- Settles O13: a commit appends the entry that continues the chain, and a write, a full ledger and a flush are made of commits. -/
theorem ledgerStaysChained : Obligations.LedgerStaysChained := fun _ _ _ hok =>
  ⟨ledgerCommit_keepsChain hok, ledgerWrite_keepsChain hok, ledgerFlush_keepsChain hok,
    fun b hroom => ⟨nextEntry b _, by rw [ledgerCommit_room hroom], rfl⟩, fun b hfull => ledgerCommit_full hfull b⟩

/-! ### The receptacle (R551 to R553) -/

/-- The device with nothing in the receptacle. -/
def unplugged (d : Device) : Device := { d with panel := { d.panel with usb := false, usbHs := false } }

section
variable {s : State}

theorem usbAttach_shows (hon : panelOn s.dev = true) (hs : Bool) :
    exec (.usbAttach hs) s = .next (settled s { s.dev with panel := { s.dev.panel with usb := true, usbHs := hs } }) :=
  (exec_usbAttach ..).trans (run_makes (if_pos hon))

theorem usbDetach_endsSession {x : Session} (hsess : s.dev.sec.session = some x) (husb : x.chan = .usb) :
    exec .usbDetach s = .next (settled s (endSession 3 (unplugged s.dev))) := by
  rw [exec_usbDetach, execUsbDetach]
  refine run_makes ?_
  simp only [hsess]
  exact if_pos husb

theorem usbDetach_keepsSession {x : Session} (hsess : s.dev.sec.session = some x) (hother : x.chan ≠ .usb) :
    exec .usbDetach s = .next (settled s (unplugged s.dev)) := by
  rw [exec_usbDetach, execUsbDetach]
  refine run_makes ?_
  simp only [hsess]
  exact if_neg hother

theorem usbDetach_noSession (hsess : s.dev.sec.session = none) : exec .usbDetach s = .next (settled s (unplugged s.dev)) := by
  rw [exec_usbDetach, execUsbDetach]
  refine run_makes ?_
  simp only [hsess]
  rfl

theorem usbPacket_submits (husb : s.dev.panel.usb = true) (hon : panelOn s.dev = true)
    (hroom : (s.dev.cmd.flight.filter fun p => p.chan == .usb).length < 8) (bs : List Byte) :
    exec (.usbPacket bs) s = .next (settled s (submitOn .usb true bs s.dev)) := by
  rw [exec_usbPacket, execUsbPacket]
  refine run_makes (if_neg ?_)
  rw [husb, hon, decide_eq_false (Nat.not_le.mpr hroom)]
  decide

/-! ### The management link (R396) -/

theorem ethernetLinkChange_same : exec (.ethernetLinkChange s.dev.sec.mgmtLink) s = .next (settled s s.dev) :=
  (exec_ethernetLinkChange ..).trans (run_makes (if_pos rfl))

theorem ethernetLinkChange_noted : exec (.ethernetLinkChange (!s.dev.sec.mgmtLink)) s = .next (settled s { s.dev with
    sec := { s.dev.sec with
      mgmtLink := !s.dev.sec.mgmtLink, linkLostAt := if s.dev.sec.mgmtLink then some s.dev.clock else none } }) := by
  have hturned : (!s.dev.sec.mgmtLink) ≠ s.dev.sec.mgmtLink := Bool.not_ne_self _
  have hlost : (if !s.dev.sec.mgmtLink then none else some s.dev.clock) = if s.dev.sec.mgmtLink then some s.dev.clock else none := by
    cases s.dev.sec.mgmtLink <;> rfl
  rw [exec_ethernetLinkChange, execEthernetLinkChange]
  refine run_makes ((if_neg hturned).trans ?_)
  rw [hlost]

end

/-- Settles O29: each event of the receptacle, by the channel of the open session, and of the link, by the state it finds. -/
theorem receptacleAndEthernet : Obligations.ReceptacleAndEthernet := fun _ =>
  ⟨fun hs hon => usbAttach_shows hon hs,
    ⟨fun _ => usbDetach_endsSession, fun _ => usbDetach_keepsSession, usbDetach_noSession⟩,
    fun bs husb hon hroom => usbPacket_submits husb hon hroom bs, ethernetLinkChange_noted, ethernetLinkChange_same⟩

/-! ### SEC_LEDGER_TRIM with an entry in the buffer (R408, R410) -/

/-- What an opcode's chapter states for SEC_LEDGER_TRIM. -/
abbrev trimSpec : OpSpec := { opcode := 0x0922, size := some 8, dev := true, roles := byMaker }

/-- The ledger without its entries up to a number. -/
def trimmed (n : Nat) (d : Device) : Device :=
  { d with sec := { d.sec with ledger := d.sec.ledger.filter fun x => decide (n < x.seq) } }

/-- The entry of a trim up to a number: its act digest is the chain value of the last entry discarded. -/
def trimBody (p : Packet) (n : Nat) (last : LedgerEntry) (d : Device) : LedgerBody :=
  { wall := BitVec.ofNat 64 (wallNow d), kind := 0x0040, role := (actorOf d p).1, tenant := 0, status := stOK, chan := chanCode p.chan
    detail := leBytes 8 n, actor := (actorOf d p).2, act := last.chain }

/-- A trim that finds entries up to its number discards them, and writes an entry of its own. -/
theorem secLedgerTrim_writes {s : State} {r : Ref} {p : Packet} {b : List Byte} {c : Option Nat} {last : LedgerEntry}
    (hadmit : Admits trimSpec r p b c s.dev) (hpast : field b 0 8 < (admitted p b c s.dev).sec.nextSeq)
    (hroom : ledgerRoom (admitted p b c s.dev) ≠ some stShed)
    (hlast : ((admitted p b c s.dev).sec.ledger.filter fun e => decide (e.seq ≤ field b 0 8)).getLast? = some last) :
    exec (.secLedgerTrim r) s = .next (settled s
      (let d := trimmed (field b 0 8) (admitted p b c s.dev)
       complete (begun p b) (ledgerWrite (trimBody (begun p b) (field b 0 8) last d) d))) := by
  rw [exec_secLedgerTrim, execSecLedgerTrim, run_admits hadmit]
  simp only [ledgerTrim]
  rw [if_neg (Nat.not_le.mpr hpast), if_neg hroom]
  simp only [hlast]
  rfl

/-- A write while an earlier entry waits joins it in the buffer (R408). -/
theorem ledgerWrite_waits {d : Device} (hwait : d.sec.buffer ≠ []) (b : LedgerBody) : (ledgerWrite b d).sec.ledger = d.sec.ledger := by
  have hbusy : ¬ledgerDurable d = true := by simp [ledgerDurable, hwait]
  rw [ledgerWrite, if_neg hbusy]
  split <;> rfl

/-- An entry of a device event. -/
def bootBody : LedgerBody := eventBody {} 0x0021 (zeros 8)

/-- A packet of SEC_LEDGER_TRIM for entry 0, sealed under the maker's session with counter 1. -/
def trimPacket : Packet :=
  { chan := .host, hdr := { opcode := 0x0922, tag := 1, tenant := 0, flags := 1, job := 0, len := 32, deadline := 0 }, raw := []
    payload := leBytes 8 1 ++ gcmSeal [1] (zeros 4 ++ leBytes 8 1) [] (zeros 8), order := 0, key := [1], role := roleMaker, cred := []
    at_ := 0, started := false, plain := [] }

/-- A device in READY and shed stage 0 with one entry in its ledger, the packet of the trim in flight, and an entry in the buffer. Start-up
and the return to stage 0 commit the buffer (R408, R510), so a run from reset may never come here; the statement speaks of every state,
and does not ask for an empty buffer. -/
def waitingTrim : State :=
  { dev := { boot := { phase := .ready }, cmd := { flight := [trimPacket] }
             sec := { ledger := [nextEntry bootBody {}], nextSeq := 1, chain := (nextEntry bootBody {}).chain, buffer := [bootBody] } } }

theorem trimPacket_opens : openPacket waitingTrim.dev true trimPacket = some (zeros 8, some 1) :=
  openPacket_sealed (n := 1) (by decide) rfl rfl (by decide) (by decide) (by decide) (by decide) true

theorem trimPacket_plainLen : plainLen trimPacket = 8 := by
  have hlen : trimPacket.payload.length = 32 := by
    rw [trimPacket, List.length_append, gcmSeal_length, leBytes_length]
    rfl
  rw [plainLen, hlen]
  rfl

theorem waitingTrim_admits : Admits trimSpec (refOf trimPacket) trimPacket (zeros 8) (some 1) waitingTrim.dev where
  found := rfl
  opcode := rfl
  ready := rfl
  fresh := rfl
  turn := by decide
  size := by rw [Option.all_some, trimPacket_plainLen]; rfl
  range := by decide
  formed := fun h => absurd rfl h
  staying := fun h => absurd h (by decide)
  authentic := trimPacket_opens
  zero := rfl
  role := fun _ _ => rfl
  dev := fun _ => rfl
  part := fun h => absurd rfl h

/-- The trim of entry 0 empties the ledger: its own entry joins the one that waits in the buffer. -/
theorem waitingTrim_empties : ∃ u, exec (.secLedgerTrim (refOf trimPacket)) waitingTrim = .next u ∧ u.dev.sec.ledger = [] := by
  refine ⟨_, secLedgerTrim_writes waitingTrim_admits (by decide) (by decide) rfl, ?_⟩
  have hwait : (trimmed 0 (admitted trimPacket (zeros 8) (some 1) waitingTrim.dev)).sec.buffer ≠ [] := List.cons_ne_nil _ _
  rw [settled, settle_sec, complete_sec]
  exact ledgerWrite_waits hwait _

/-- Refutes O55, by its clause on SEC_LEDGER_TRIM: in shed stage 0 and with room in the ledger, but with an earlier entry in the buffer,
the trim leaves its own entry in the buffer and not at the end of the ledger. -/
theorem not_securityCommandsComplete : ¬ Obligations.SecurityCommandsComplete := by
  intro h
  obtain ⟨-, -, -, -, -, -, -, -, -, -, -, -, -, htrim⟩ := h.1 waitingTrim (refOf trimPacket) trimPacket (zeros 8) (some 1)
  obtain ⟨u, x, hu, hledger, -⟩ := htrim (nextEntry bootBody {}) waitingTrim_admits (by decide) (by decide) rfl rfl (by decide)
  obtain ⟨v, hv, hempty⟩ := waitingTrim_empties
  cases hu.symm.trans hv
  exact List.concat_ne_nil x _ (hledger.symm.trans hempty)

end Sys2Proof.Machine
end

section
/-! PROOFS. Flash arrays (R415 to R441): the packets of 0x07xx, what a die does at the end of its operations and transfers, and the page that
a program leaves. -/

namespace Sys2Proof.Machine

/-! ### Packets that join a die's queue (R421, R424, R439) -/

/-- The command of an admitted packet whose operation is on no die runs the operation's own body. -/
theorem runFlash_admits {sp : OpSpec} {r : Ref} {p : Packet} {b : List Byte} {c : Option Nat} {s : State} (h : Admits sp r p b c s.dev)
    (hnew : inFlash s.dev r = false) (body : Packet → List Byte → Device → Device) :
    run (runFlash sp r body) s = .next (settled s (body (begun p b) b (admitted p b c s.dev))) := by
  rw [run_settled, runFlash, hnew, if_neg Bool.false_ne_true, runOp_admits h]

/-- An operation with its source in SRAM is queued at once; of any other, a stream engine fetches first what lies in DRAM (R35). -/
theorem queueSourced_parts (j : FlashJob) (buf : Buffer) (off n : Nat) (d : Device) :
    queueSourced j buf off n d = if farParts (sourceParts buf off n) = [] then queueFlash j d
      else queueFlash { j with sources := (farParts (sourceParts buf off n)).length }
        (raiseAll ((farParts (sourceParts buf off n)).map fun x =>
          { who := (streamTile j.tenant.toNat d).1, lst := j.lst, tenant := j.tenant, job := 0, load := .flashSource j.order,
            addr := x.1, len := x.2 }) (streamTile j.tenant.toNat d).2) := by
  rw [queueSourced]
  by_cases hnear : farParts (sourceParts buf off n) = []
  · rw [if_pos hnear]; exact if_pos (List.isEmpty_iff.mpr hnear)
  · rw [if_neg hnear]; exact if_neg (mt List.isEmpty_iff.mp hnear)

/-- In stage 0 nothing is shed (R427). -/
theorem not_shed {d : Device} (hstage : d.pwr.stage = 0) : ¬d.pwr.stage ≥ 1 := by omega

section
variable {p : Packet} {b : List Byte} {d : Device} {slot off : Nat} {buf : Buffer}

section
variable (hargs : pageArgs d p.hdr.tenant.toNat b = .ok (slot, buf, off)) (hblock : blockRefusal d p (field b 0 4) = none)
  (hhere : hostHeld buf off (field b 4 2 * flashPage) = false)
include hargs hblock hhere

theorem flashRead_queued (hfree : isMounted d p.hdr.tenant.toNat slot buf.gen = false) : flashRead p b d =
    queueFlash { packetJob p b .read with count := field b 4 2, range := arenaRef b 8 } (dropHold (.packet (refOf p)) d) := by
  simp only [flashRead, hargs, hblock, hfree, hhere, Bool.false_eq_true, if_false]

theorem flashProgram_queued (hstage : d.pwr.stage = 0) : flashProgram p b d =
    queueSourced { packetJob p b .program with count := field b 4 2, range := arenaRef b 8 } buf off (field b 4 2 * flashPage)
      (touch p.hdr.tenant.toNat slot buf off (field b 4 2 * flashPage) (dropHold (.packet (refOf p)) d)) := by
  simp only [flashProgram, hargs, hblock, hhere, not_shed hstage, Bool.false_eq_true, if_false]

theorem flashVerify_queued (hmode : field b 6 1 ≤ 1) : flashVerify p b d =
    queueSourced { packetJob p b .verify with count := field b 4 2, mode := field b 6 1, range := arenaRef b 8 } buf off
      (field b 4 2 * flashPage) (touch p.hdr.tenant.toNat slot buf off (field b 4 2 * flashPage) (dropHold (.packet (refOf p)) d)) := by
  simp only [flashVerify, hargs, hblock, hhere, Nat.not_lt.mpr hmode, Bool.false_eq_true, if_false]

end

section
variable (hshare : pageInShare d p.hdr.tenant.toNat (field b 0 4) = true)
include hshare

theorem flashErase_queued (hfirst : field b 0 4 % pagesPerBlock = 0) (hstage : d.pwr.stage = 0)
    (hsound : (blockOf d (blockKey (field b 0 4))).state ≠ .worn) : flashErase p b d = queueFlash (packetJob p b .erase) d := by
  simp [flashErase, hfirst, hshare, hstage, hsound]

theorem flashMargin_queued (hmode : field b 4 1 ≤ 3) (hblock : blockRefusal d p (field b 0 4) = none) :
    flashMargin p b d = queueFlash { packetJob p b .margin with mode := field b 4 1 } d := by
  simp [flashMargin, hshare, hblock, Nat.not_lt.mpr hmode]

theorem flashBlockInfo_reports (hfirst : field b 0 4 % pagesPerBlock = 0) : flashBlockInfo p b d =
    (let k := blockOf d (blockKey (field b 0 4))
     finish p stOK ([k.state.code, if k.frayed then 1 else 0] ++ leBytes 2 k.next ++ leBytes 4 k.erases.toNat ++ [k.loops] ++ zeros 7) d) := by
  simp [flashBlockInfo, hfirst, hshare]

end

theorem flashInfo_reports {x : Partition} (hpart : partOf d p.hdr.tenant.toNat = some x) :
    flashInfo p b d = finish p stOK (shareInfo d p.hdr.tenant.toNat x) d := by
  rw [flashInfo, hpart]

/-! ### Burning the OTP row (R436, R437) -/

section
variable (hstage : d.pwr.stage = 0) (hroom : ledgerRoom d = none)
include hstage hroom

theorem otpBurn_fuses (hfield : field b 0 1 = 1) (hopen : d.boot.otpRow.fuse.getLsbD 1 = false) : otpBurn p b d =
    complete p { ledgerConfig p d with boot := { (ledgerConfig p d).boot with
      otpRow := { d.boot.otpRow with fuse := d.boot.otpRow.fuse ||| 2 } } } := by
  have hlegal : ¬(field b 0 1 = 2 ∧ (field b 2 2 < d.boot.otpRow.security ∨ field b 2 2 > 255)) := by omega
  have hknown : ¬(field b 0 1 ≠ 1 ∧ field b 0 1 ≠ 2) := by omega
  simp only [otpBurn, if_neg hlegal, if_neg (not_shed hstage), privileged_room hroom, if_neg hknown, if_pos hfield, hopen,
    Bool.false_eq_true, if_false]

theorem otpBurn_raises (hfield : field b 0 1 = 2) (habove : d.boot.otpRow.security < field b 2 2) (hmost : field b 2 2 ≤ 255) :
    otpBurn p b d = complete p { ledgerConfig p d with boot := { (ledgerConfig p d).boot with
      otpRow := { d.boot.otpRow with security := field b 2 2 } } } := by
  have hlegal : ¬(field b 0 1 = 2 ∧ (field b 2 2 < d.boot.otpRow.security ∨ field b 2 2 > 255)) := by omega
  have hknown : ¬(field b 0 1 ≠ 1 ∧ field b 0 1 ≠ 2) := by omega
  have hother : ¬field b 0 1 = 1 := by omega
  have hnew : ¬field b 2 2 = d.boot.otpRow.security := by omega
  simp only [otpBurn, if_neg hlegal, if_neg (not_shed hstage), privileged_room hroom, if_neg hknown, if_neg hother, if_neg hnew]

end

end

/-- A packet that completes on a device with a changed OTP row leaves that row and is in flight no more. -/
theorem completed_otpRow (s : State) (p : Packet) (b : List Byte) (e : Device) :
    (settled s (complete (begun p b) e)).dev.boot.otpRow = e.boot.otpRow ∧
    findPacket (settled s (complete (begun p b) e)).dev (refOf p) = none :=
  ⟨by rw [settled, settle_boot, complete_boot], findPacket_settled s (findPacket_finish (begun p b) stOK [] e)⟩

/-! ### What the flash alone decides -/

section
variable {d e : Device} (h : e.flash = d.flash)
include h

theorem activeJob_flash (n : Nat) : activeJob e n = activeJob d n := by rw [activeJob, h, activeJob]

theorem suspendWanted_flash (j : FlashJob) : suspendWanted e j = suspendWanted d j := by
  rw [suspendWanted, suspendedJob, h, suspendWanted, suspendedJob]

theorem minRun_flash (k : FlashKind) : minRun e k = minRun d k := by rw [minRun, h, minRun]

end

/-! ### The end of an array operation (R423, R430, R432) -/

section
variable {s : State} {die : BitVec 5} {j : FlashJob} (halive : coreAlive s.dev = true) (hjob : activeJob s.dev die.toNat = some j)

section
variable {since : Nat} {out : ArrayOutcome} (hphase : j.phase = .array since)
include halive hjob hphase

theorem arrayOp_programEnds (hkind : j.kind = .program) :
    exec (.flashArrayOpComplete die out) s = .next (settled s (serveDie die.toNat (pageProgrammed j out s.dev))) := by
  rw [exec_flashArrayOpComplete, execFlashArrayOpComplete]
  refine run_makes ?_
  simp only [hjob, halive, hphase, hkind, Bool.not_true, Bool.false_eq_true, if_false]

theorem arrayOp_eraseEnds (hkind : j.kind = .erase) : exec (.flashArrayOpComplete die out) s = .next (settled s
    (let e := eraseBlock (blockKey j.page) (decide (out.loops > s.dev.flash.eloops.toNat)) out.failed s.dev
     serveDie die.toNat (endFlash j (if out.failed then stWorn else wearStatus e j) (if out.failed then [] else
       leBytes 4 (blockOf e (blockKey j.page)).erases.toNat ++ [BitVec.ofNat 8 (min out.loops 255), 0, 0, 0]) e))) := by
  rw [exec_flashArrayOpComplete, execFlashArrayOpComplete]
  refine run_makes ?_
  simp only [hjob, halive, hphase, hkind, Bool.not_true, Bool.false_eq_true, if_false]
  split <;> rfl

/-- A sensed page is transferred out codeword by codeword; one whose packet is gone delivers nothing (R429). -/
theorem arrayOp_senseEnds (hkind : j.kind.reads = true) : exec (.flashArrayOpComplete die out) s = .next (settled s
    (if j.ref.isNone then serveDie die.toNat (dropFlashJob j.order s.dev)
     else raiseCodeword j (onFlashJob j.order (fun j => { j with phase := .dataOut [] }) s.dev))) := by
  rw [exec_flashArrayOpComplete, execFlashArrayOpComplete]
  refine run_makes ?_
  simp only [hjob, halive, hphase, Bool.not_true, Bool.false_eq_true, if_false]
  cases hk : j.kind with
  | read | verify | margin => rfl
  | program | erase => rw [hk] at hkind; cases hkind

end

/-! ### Codeword transfers (R419, R422) -/

/-- The device once the transfer that owned a die's channel has given it up. -/
def channelFreed (die : Nat) (d : Device) : Device := onArb (32 + die / 2) (fun a => { a with owner := none }) d

section
variable {r : ArbReq} (howner : (arbOf s.dev (32 + die.toNat / 2)).owner = some r) (hload : r.load = .flash die.toNat)
include halive hjob howner hload

theorem codeword_entersPage {left : Nat} (hphase : j.phase = .dataIn left) (cls : EccClass) (bits : W16) :
    exec (.flashCodewordTransfer die cls bits) s = .next (settled s
      (let d := channelFreed die.toNat s.dev
       if left ≤ 1 then onFlashJob j.order (fun j => { j with phase := .array d.clock, data := sourcePage d j }) d
       else raiseCodeword j (onFlashJob j.order (fun j => { j with phase := .dataIn (left - 1) }) d))) := by
  rw [exec_flashCodewordTransfer, execFlashCodewordTransfer]
  refine run_makes ?_
  simp only [howner, hjob, halive, hload, hphase, channelFreed, Bool.not_true, ne_eq, not_true_eq_false, decide_false, Bool.or_self,
    Bool.false_eq_true, if_false]

theorem codeword_leavesPage {got : List (EccClass × Nat)} (hphase : j.phase = .dataOut got) (cls : EccClass) (bits : W16) :
    exec (.flashCodewordTransfer die cls bits) s = .next (settled s
      (let d := channelFreed die.toNat s.dev
       let cls := codewordClass d (Assoc.find d.flash.pages (j.page + j.done)).isSome cls bits.toNat
       let e := if j.kind = .verify ∧ j.mode = 1 then d else countCodeword d (j.kind == .margin && decide (j.mode ≠ 0)) cls bits.toNat
       if got.length < 3 then raiseCodeword j (onFlashJob j.order (fun j => { j with phase := .dataOut (got ++ [(cls, bits.toNat)]) }) e)
       else serveDie die.toNat (pageDecoded j (got ++ [(cls, bits.toNat)]) e))) := by
  rw [exec_flashCodewordTransfer, execFlashCodewordTransfer]
  refine run_makes ?_
  simp only [howner, hjob, halive, hload, hphase, channelFreed, Bool.not_true, ne_eq, not_true_eq_false, decide_false, Bool.or_self,
    Bool.false_eq_true, if_false, List.length_append, List.length_singleton, Nat.succ_lt_succ_iff]

end

/-! ### Suspension and restart (R424 to R428) -/

include halive hjob in
theorem flashSuspend_frees (hphase : j.phase = .suspending) : exec (.flashSuspend die) s = .next (settled s (serveDie die.toNat
    (let e := onFlashJob j.order (fun j => { j with phase := .suspended }) s.dev
     { e with flash := { e.flash with suspendCount := s.dev.flash.suspendCount + 1 } }))) := by
  rw [exec_flashSuspend, execFlashSuspend]
  refine run_makes ?_
  simp only [hjob]
  exact if_pos ⟨halive, hphase⟩

/-- A suspension that is wanted is under way once the minimum run has passed. -/
theorem considerSuspend_suspends {n since : Nat} {d : Device} (hjob : activeJob d n = some j) (hphase : j.phase = .array since)
    (hwanted : suspendWanted d j = true) (hrun : since + minRun d j.kind ≤ d.clock) :
    considerSuspend n d = onFlashJob j.order (fun j => { j with phase := .suspending }) d := by
  simp only [considerSuspend, hjob, hphase]
  exact if_pos ⟨hwanted, hrun⟩

include halive hjob in
theorem minRun_suspends {since : Nat} (hphase : j.phase = .array since) (hwanted : suspendWanted s.dev j = true) :
    exec (.minRunElapsed die) s = .next (settled s (onFlashJob j.order (fun j => { j with phase := .suspending })
      (advanceTo (since + minRun s.dev j.kind) s.dev))) := by
  have hflash : (advanceTo (since + minRun s.dev j.kind) s.dev).flash = s.dev.flash := advanceTo_flash ..
  rw [exec_minRunElapsed, execMinRunElapsed]
  refine run_makes ?_
  simp only [hjob, hphase]
  rw [if_pos ⟨halive, hwanted⟩]
  exact considerSuspend_suspends ((activeJob_flash hflash _).trans hjob) hphase ((suspendWanted_flash hflash j).trans hwanted)
    (by rw [minRun_flash hflash, advanceTo_clock]; exact Nat.le_max_right ..)

end

/-- An erase that a reset interrupted, whose block no operation of the device is at (R428). -/
abbrev waitingErase (d : Device) (die : Nat) : Option (Nat × FlashBlock) := d.flash.blocks.find? fun (k, b) =>
  k / blocksPerDie == die && b.state == .erasing && !(d.flash.jobs.any fun j => blockKey j.page == k)

theorem eraseRestart_queues {s : State} {die : BitVec 5} {k : Nat} {blk : FlashBlock} (hready : isReady s.dev = true)
    (hstage : s.dev.pwr.stage = 0) (hwaits : waitingErase s.dev die.toNat = some (k, blk)) :
    exec (.eraseRestart die) s = .next (settled s (queueFlash
      { ref := none, tenant := 0, kind := .erase, page := k * pagesPerBlock, order := s.dev.cmd.nextOrder, lst := noDeadline }
      { s.dev with cmd := { s.dev.cmd with nextOrder := s.dev.cmd.nextOrder + 1 } })) := by
  rw [exec_eraseRestart, execEraseRestart]
  refine run_makes ?_
  simp only [hwaits]
  exact if_pos ⟨hready, hstage⟩

/-! ### The page that a program leaves (R418, R421, R431) -/

theorem blockOf_onBlock (k i : Nat) (f : FlashBlock → FlashBlock) (d : Device) :
    blockOf (onBlock k f d) i = if i = k then f (blockOf d k) else blockOf d i := SMap.get_modify ({} : FlashBlock) d.flash.blocks k i f

theorem endFlash_flash (j : FlashJob) (st : W16) (res : List Byte) (d : Device) :
    (endFlash j st res d).flash = (dropFlashJob j.order d).flash := by
  rw [endFlash]
  split
  · exact finish_flash ..
  · rfl

/-- The block of a page once its program has ended: the page is consumed, stored or not. -/
def blockAfter (n : Nat) (out : ArrayOutcome) (ploops : Nat) (b : FlashBlock) : FlashBlock :=
  let loops := BitVec.ofNat 8 (min out.loops 255)
  { b with
    state := if n = 511 then .full else .open_
    next := n + 1
    loops := if b.loops < loops then loops else b.loops
    frayed := b.frayed || out.failed || decide (out.loops > ploops)
    lost := if out.failed then b.lost ++ [n] else b.lost }

/-- The page that a program stores. -/
def storedPage (j : FlashJob) (d : Device) : FlashPage :=
  { data := j.data, erases := (blockOf d (blockKey j.page)).erases, tenant := j.tenant }

/-- The pages once a program has ended. -/
def pagesAfter (j : FlashJob) (out : ArrayOutcome) (d : Device) : Assoc FlashPage :=
  if out.failed then d.flash.pages else Assoc.insert d.flash.pages (j.page + j.done) (storedPage j d)

/-- Whether the operation ends or goes on to its next page, the end of a page's program changes the page, its block, and else only the
queued operations. -/
theorem pageProgrammed_flash (j : FlashJob) (out : ArrayOutcome) (d : Device) : (pageProgrammed j out d).flash =
    { (onBlock (blockKey j.page) (blockAfter ((j.page + j.done) % pagesPerBlock) out d.flash.ploops.toNat) d).flash with
      pages := pagesAfter j out d, jobs := (pageProgrammed j out d).flash.jobs } := by
  unfold pageProgrammed pagesAfter
  dsimp only
  by_cases hfailed : out.failed = true
  · rw [if_pos hfailed, if_pos hfailed, endFlash_flash]; rfl
  · rw [if_neg hfailed, if_neg hfailed]
    by_cases hlast : j.done + 1 = j.count ∨ j.ref.isNone = true
    · rw [if_pos hlast, endFlash_flash]; rfl
    · rw [if_neg hlast]; rfl

theorem blockOf_pageProgrammed (j : FlashJob) (out : ArrayOutcome) (d : Device) (i : Nat) : blockOf (pageProgrammed j out d) i =
    if i = blockKey j.page then blockAfter ((j.page + j.done) % pagesPerBlock) out d.flash.ploops.toNat (blockOf d (blockKey j.page))
    else blockOf d i := by
  rw [← blockOf_onBlock, blockOf, pageProgrammed_flash, blockOf]

theorem pageProgrammed_pages (j : FlashJob) (out : ArrayOutcome) (d : Device) : (pageProgrammed j out d).flash.pages = pagesAfter j out d := by
  rw [pageProgrammed_flash]

theorem find_pagesAfter_stored {j : FlashJob} {out : ArrayOutcome} (hstored : out.failed = false) (d : Device) (i : Nat) :
    Assoc.find (pagesAfter j out d) i = if i = j.page + j.done then some (storedPage j d) else Assoc.find d.flash.pages i := by
  rw [pagesAfter, hstored, if_neg Bool.false_ne_true, Assoc.find_insert]

/-! ### The obligation -/

/-- Settles O56: each packet by the operation that it queues or what it reports, each event of a die by the phase of its operation, and a
page's program by its block and the pages that it leaves. -/
theorem flashRunsOnItsDies : Obligations.FlashRunsOnItsDies := by
  refine ⟨fun s r p b c hnew => ⟨fun slot buf off hargs hblock hhere => ⟨?_, ?_, ?_⟩, fun hshare => ⟨?_, ?_, ?_⟩, ?_, ?_, ?_⟩,
    fun s die j halive hjob => ⟨fun since out hphase => ⟨?_, ?_, ?_⟩, fun r cls bits howner hload => ⟨?_, ?_⟩, ?_, ?_⟩, ?_, ?_⟩
  · intro h hfree
    rw [exec_flashRead, execFlashRead, runFlash_admits h hnew, flashRead_queued (p := begun p b) hargs hblock hhere hfree]
    rfl
  · intro h hstage
    rw [exec_flashProgram, execFlashProgram, runFlash_admits h hnew, flashProgram_queued (p := begun p b) hargs hblock hhere hstage,
      queueSourced_parts]
    rfl
  · intro h hmode
    rw [exec_flashVerify, execFlashVerify, runFlash_admits h hnew, flashVerify_queued (p := begun p b) hargs hblock hhere hmode,
      queueSourced_parts]
    rfl
  · intro h hfirst hstage hsound
    rw [exec_flashErase, execFlashErase, runFlash_admits h hnew, flashErase_queued (p := begun p b) hshare hfirst hstage hsound]
  · intro h hmode hblock
    rw [exec_flashMargin, execFlashMargin, runFlash_admits h hnew, flashMargin_queued (p := begun p b) hshare hmode hblock]
  · intro h hfirst
    rw [exec_flashBlockInfo, execFlashBlockInfo, run_admits h, flashBlockInfo_reports (p := begun p b) hshare hfirst]
  · intro x h hpart
    rw [exec_flashInfo, execFlashInfo, run_admits h, flashInfo_reports (p := begun p b) hpart]
    rfl
  · intro h
    rw [exec_flashOtpRead, execFlashOtpRead, run_admits h]
  · intro h hstage hroom
    rw [exec_flashOtpBurn, execFlashOtpBurn, run_admits h]
    refine ⟨fun hfield hopen => ?_, fun hfield habove hmost => ?_⟩
    · rw [otpBurn_fuses hstage hroom hfield hopen]
      exact ⟨_, rfl, completed_otpRow s p b _⟩
    · rw [otpBurn_raises hstage hroom hfield habove hmost]
      exact ⟨_, rfl, completed_otpRow s p b _⟩
  · exact arrayOp_programEnds halive hjob hphase
  · exact arrayOp_eraseEnds halive hjob hphase
  · exact arrayOp_senseEnds halive hjob hphase
  · exact fun left hphase => codeword_entersPage halive hjob howner hload hphase cls bits
  · exact fun got hphase => codeword_leavesPage halive hjob howner hload hphase cls bits
  · exact flashSuspend_frees halive hjob
  · refine fun since hphase hwanted => ⟨_, minRun_suspends halive hjob hphase hwanted, ?_, ?_⟩
    · exact (settle_clock _).trans (advanceTo_clock ..)
    · rw [settled, settle_flash, onFlashJob, advanceTo_flash]
  · exact fun s die k blk hready hstage hwaits => eraseRestart_queues hready hstage hwaits
  · intro d j out
    refine ⟨?_, ?_, fun i hi => ?_, fun hfailed => ?_, fun hstored => ⟨storedPage j d, ?_, rfl, rfl, fun i hi => ?_⟩⟩
    · rw [blockOf_pageProgrammed, if_pos rfl]; rfl
    · rw [blockOf_pageProgrammed, if_pos rfl]; rfl
    · rw [blockOf_pageProgrammed, if_neg hi]
    · rw [pageProgrammed_pages, pagesAfter, if_pos hfailed]
    · rw [pageProgrammed_pages, find_pagesAfter_stored hstored, if_pos rfl]
    · rw [pageProgrammed_pages, find_pagesAfter_stored hstored, if_neg hi]

end Sys2Proof.Machine
end

section
/-! PROOFS. A step with a command waiting, and the faceplate: the buttons, the patterns' ends and PANEL_CTRL (R523, R546 to R550, R556). -/

namespace Sys2Proof.Machine

/-- Settles O1: the front of a queue that is not empty is the command that `step` runs. -/
theorem stepRunsFront : Obligations.StepRunsFront := fun _ _ _ => rfl

/-! ### Presses (R523, R546 to R550) -/

section
variable {s : State} (hon : panelOn s.dev = true)
include hon

/-- Where nothing is to be woken, a press is recorded and acts. -/
theorem press_acts (hawake : isFrozen s.dev = true ∨ lowPowerOf s.dev = .active) (k b : BitVec 2) (act : Device → Device) :
    run (press k b act) s = .next (settled s (act (recordPress k b s.dev))) := by
  refine run_makes ?_
  have hoff : ¬(!panelOn s.dev) = true := by rw [hon]; decide
  rw [press, if_neg hoff]
  exact if_pos hawake

/-- In a low-power state a press is recorded and wakes, whatever its action. -/
theorem press_wakes (hrun : isFrozen s.dev = false) (hlow : lowPowerOf s.dev ≠ .active) (k b : BitVec 2) (act : Device → Device) :
    run (press k b act) s = .next (settled s (wakeUp 7 (recordPress k b s.dev))) := by
  refine run_makes ?_
  have hoff : ¬(!panelOn s.dev) = true := by rw [hon]; decide
  have hasleep : ¬(isFrozen s.dev = true ∨ lowPowerOf s.dev = .active) := by rw [hrun]; exact not_or.mpr ⟨Bool.false_ne_true, hlow⟩
  rw [press, if_neg hoff]
  exact if_neg hasleep

end

/-- Settles O27: each button command is a press with its own kind, button and action. -/
theorem buttonPresses : Obligations.ButtonPresses := by
  intro s hon
  refine ⟨fun hawake => ?_, fun hrun hlow => ?_, fun _ _ => ⟨rfl, rfl, rfl, rfl, rfl⟩⟩
  · exact ⟨(exec_ackShortPress s).trans (press_acts hon hawake ..), (exec_ackLongPress s).trans (press_acts hon hawake ..),
      (exec_testShortPress s).trans (press_acts hon hawake ..), fun f => (exec_testLongPress f s).trans (press_acts hon hawake ..),
      (exec_safeLongPress s).trans (press_acts hon hawake ..), fun b => (exec_chord b s).trans (press_acts hon hawake ..)⟩
  · exact ⟨(exec_ackShortPress s).trans (press_wakes hon hrun hlow ..), (exec_safeLongPress s).trans (press_wakes hon hrun hlow ..)⟩

/-! ### Patterns that end by time (R548) -/

/-- A pattern that has begun runs to its end: the clock stands at least there, and of the panel only its mark is gone. -/
theorem patternEnd_ends {s : State} {shown : PanelPart → Option Nat} {clear : PanelPart → PanelPart} {t0 span : Nat}
    (hstart : shown s.dev.panel = some t0) :
    ∃ t, run (fun d => patternEnd (shown d.panel) span (fun d => { d with panel := clear d.panel }) d) s = .next t ∧
      t.dev.panel = clear s.dev.panel ∧ t.dev.clock = max s.dev.clock (t0 + span) ∧ t.dev.cmd = s.dev.cmd := by
  refine ⟨_, run_settled .., ?_, ?_, ?_⟩
  · simp only [settled, settle_panel, hstart, patternEnd, advanceTo_panel]
  · simp only [settled, settle_clock, hstart, patternEnd, advanceTo_clock]
  · simp only [settled, settle_cmd, hstart, patternEnd, advanceTo_cmd]

/-- Settles O28: the three patterns end alike, and a write of 1 to a bit of PANEL_CTRL is a transaction of the host port. -/
theorem panelPatterns : Obligations.PanelPatterns := by
  intro s t0
  refine ⟨fun hlocate => ?_, fun hlamp => ?_, fun hflash => ?_, fun halive => ⟨?_, ?_, ?_⟩⟩
  · exact patternEnd_ends (shown := (·.locate)) (clear := fun x => { x with locate := none }) hlocate
  · exact patternEnd_ends (shown := (·.lamp)) (clear := fun x => { x with lamp := none }) hlamp
  · exact patternEnd_ends (shown := (·.refused)) (clear := fun x => { x with refused := none }) hflash
  · exact (exec_panelAck s).trans (run_transact halive panelAck)
  · exact (exec_panelLampTest s).trans (run_transact halive panelLampTest)
  · exact (exec_panelLocate s).trans (run_transact halive panelLocate)

end Sys2Proof.Machine
end

section
/-! PROOFS. The DRAM channels (R446, R449 to R452, R455, R459 to R463): write drains, patrol, refresh, the oscillator check, and
self-refresh. -/

namespace Sys2Proof.Machine

/-! ### One channel -/

theorem chanOf_onChan_same (c : Nat) (f : DramChan → DramChan) (d : Device) : chanOf (onChan c f d) c = f (chanOf d c) := by
  rw [chanOf_onChan, if_pos rfl]

theorem drainOne_chans {c : Nat} {d : Device} {e : DramEntry} {q : List DramEntry} (hqueue : (chanOf d c).queue = e :: q) :
    (drainOne c d).dram.chans = (onChan c (fun x => { x with queue := q }) d).dram.chans := by
  simp only [drainOne, hqueue]
  split <;> rfl

/-- A drain takes the oldest entry off its queue, and no other part of the channel. -/
theorem drainOne_pops {c : Nat} {d : Device} {e : DramEntry} {q : List DramEntry} (hqueue : (chanOf d c).queue = e :: q) :
    chanOf (drainOne c d) c = { chanOf d c with queue := q } := by
  rw [chanOf_dram (drainOne_chans hqueue), chanOf_onChan_same]

/-- A drain of a partial block is counted as a read-modify-write (R450). -/
theorem drainOne_counts {c : Nat} {d : Device} {e : DramEntry} {q : List DramEntry} (hqueue : (chanOf d c).queue = e :: q)
    (hpart : e.mask ≠ BitVec.allOnes 64) : (drainOne c d).dram.rmwCount = d.dram.rmwCount + 1 := by
  simp only [drainOne, hqueue, if_neg hpart]
  rfl

/-- Of the DRAM part, a drain changes the queues and the count of read-modify-writes only. -/
theorem drainOne_dram (c : Nat) (d : Device) : (drainOne c d).dram =
    { d.dram with chans := (drainOne c d).dram.chans, rmwCount := (drainOne c d).dram.rmwCount } := by
  unfold drainOne
  split
  · rfl
  · dsimp only
    split <;> rfl

/-! ### Writes (R450, R452) -/

/-- The device once a channel's oldest write has drained: draining goes on while more than LOW entries are left (R452). -/
def drainedOnce (c : Nat) (d : Device) : Device :=
  onChan c (fun x => { x with draining := x.draining && decide (x.queue.length > (drainOne c d).dram.low.toNat) }) (drainOne c d)

theorem drainedOnce_bad (c : Nat) (d : Device) : (drainedOnce c d).dram.bad = d.dram.bad := by
  rw [drainedOnce, onChan, drainOne_dram]

section
variable {s : State} {ch : BitVec 5} {e : DramEntry} {q : List DramEntry} (halive : coreAlive s.dev = true)
  (hself : (chanOf s.dev ch.toNat).selfRef = false) (hqueue : (chanOf s.dev ch.toNat).queue = e :: q)

include hqueue in
theorem drainedOnce_channel : chanOf (drainedOnce ch.toNat s.dev) ch.toNat = { chanOf s.dev ch.toNat with
    queue := q, draining := (chanOf s.dev ch.toNat).draining && decide (q.length > s.dev.dram.low.toNat) } := by
  rw [drainedOnce, chanOf_onChan_same, drainOne_pops hqueue, drainOne_dram]

variable (hturn : readPending s.dev ch.toNat = false ∨ (chanOf s.dev ch.toNat).draining = true)
include halive hself hqueue hturn

/-- A channel that may serve a write ends with its oldest one, by the class of the read where the block is partial. -/
theorem dramWriteDrain_serves (ecc : EccClass) : exec (.dramWriteDrain ch ecc) s = .next (settled s
    (let f := drainedOnce ch.toNat s.dev
     if e.mask = BitVec.allOnes 64 then f
     else match readClass s.dev e.block ecc with
       | .uncorrectable => dramUncorrectable e.block srcRmw (revertBlock e f)
       | .corrected => { f with dram := { f.dram with corrCount := f.dram.corrCount + 1, corr := true } }
       | _ => f)) := by
  have hserves : ¬(!coreAlive s.dev || (chanOf s.dev ch.toNat).selfRef ||
      (readPending s.dev ch.toNat && !(chanOf s.dev ch.toNat).draining)) = true := by
    rcases hturn with hfree | hdraining
    · simp [halive, hself, hfree]
    · simp [halive, hself, hdraining]
  have hclass : readClass s.dev e.block ecc = readClass (drainedOnce ch.toNat s.dev) e.block ecc := by
    rw [readClass, readClass, drainedOnce_bad]
  rw [exec_dramWriteDrain, execDramWriteDrain]
  refine run_makes ?_
  simp only [if_neg hserves, hqueue]
  rw [hclass]
  rfl

end

/-! ### Patrol (R451) -/

/-- The device once a channel's patrol has moved on to its next block. -/
def patrolled (c : Nat) (d : Device) : Device :=
  let e := onChan c (fun x => { x with patrol := (x.patrol + 64) % channelSize }) d
  { e with dram := { e.dram with patrolBusy := (List.range 32).any fun k => decide ((chanOf e k).patrol ≠ 0) } }

theorem patrolled_patrol (c : Nat) (d : Device) : (chanOf (patrolled c d) c).patrol = ((chanOf d c).patrol + 64) % channelSize :=
  congrArg DramChan.patrol (chanOf_onChan_same c (fun x => { x with patrol := (x.patrol + 64) % channelSize }) d)

section
variable {s : State} {ch : BitVec 5} (halive : coreAlive s.dev = true)
include halive

section
variable (hself : (chanOf s.dev ch.toNat).selfRef = false)
include hself

theorem patrolRead_reads (hhours : s.dev.dram.hours ≠ 0) (hfree : readPending s.dev ch.toNat = false)
    (hqueue : (chanOf s.dev ch.toNat).queue = []) (ecc : EccClass) : exec (.patrolRead ch ecc) s = .next (settled s
      (dramRead (channelBase ch.toNat + (chanOf s.dev ch.toNat).patrol) srcPatrol ecc (patrolled ch.toNat s.dev))) := by
  have hidle : ¬(!coreAlive s.dev || (chanOf s.dev ch.toNat).selfRef || decide (s.dev.dram.hours = 0) ||
      readPending s.dev ch.toNat || !(chanOf s.dev ch.toNat).queue.isEmpty) = true := by
    rw [halive, hself, decide_eq_false hhours, hfree, hqueue]
    decide
  exact (exec_patrolRead ..).trans (run_makes (if_neg hidle))

/-! ### Refresh and the oscillator check (R455, R459) -/

/-- A refresh changes its channel: the rate it was asked at, and the count of the refreshes its bank is owed. -/
theorem refresh_counts (bank : BitVec 4) (high : Bool) : ∃ f, exec (.refresh ch bank high) s = .next (settled s (onChan ch.toNat f s.dev)) ∧
    (f (chanOf s.dev ch.toNat)).high = high ∧ SMap.get 0 (f (chanOf s.dev ch.toNat)).postponed bank.toNat =
      (if readPending s.dev ch.toNat || !(chanOf s.dev ch.toNat).queue.isEmpty
        then (let n := SMap.get 0 (chanOf s.dev ch.toNat).postponed bank.toNat; if n < 8 then n + 1 else n) else 0) := by
  have hrefreshes : ¬(!coreAlive s.dev || (chanOf s.dev ch.toNat).selfRef) = true := by simp [halive, hself]
  refine ⟨_, (exec_refresh ..).trans (run_makes (if_neg hrefreshes)), rfl, ?_⟩
  dsimp only
  split
  · split
    · rw [SMap.get_set, if_pos rfl]
    · rfl
  · rw [SMap.get_set, if_pos rfl]

theorem oscillatorCheck_retrains {drift : Nat} (hdrift : 4 < drift) (lanes : W32) : exec (.oscillatorCheck ch drift lanes) s =
    .next (settled s (onChan ch.toNat (fun x => { x with lanes := lanes, retrains := x.retrains + 1 }) s.dev)) := by
  have hdrifts : ¬(!coreAlive s.dev || (chanOf s.dev ch.toNat).selfRef || decide (drift ≤ 4)) = true := by
    simp [halive, hself, Nat.not_le.mpr hdrift]
  exact (exec_oscillatorCheck ..).trans (run_makes (if_neg hdrifts))

end

/-! ### Self-refresh (R460 to R463) -/

theorem selfRefreshExit_leaves (hself : (chanOf s.dev ch.toNat).selfRef = true) : exec (.selfRefreshExit ch) s = .next (settled s
    (let d := leaveSelfRefresh ch.toNat s.dev
     if s.dev.pwr.stage ≥ 2 then onChan ch.toNat (fun x => { x with wokenAt := some s.dev.clock }) d else d)) :=
  (exec_selfRefreshExit ..).trans (run_makes (if_pos ⟨halive, hself⟩))

theorem selfRefreshReentry_enters {t : Nat} (hwoken : (chanOf s.dev ch.toNat).wokenAt = some t) (hstage : 2 ≤ s.dev.pwr.stage) :
    exec (.selfRefreshReentry ch) s = .next (settled s (enterSelfRefresh ch.toNat (advanceTo (t + 1000000) s.dev))) := by
  have hrun : ¬isFrozen s.dev = true := fun hfrozen => by simp [coreAlive, hfrozen] at halive
  rw [exec_selfRefreshReentry, execSelfRefreshReentry]
  refine run_makes ?_
  simp only [hwoken]
  exact (if_neg hrun).trans (if_pos ⟨halive, hstage⟩)

end

/-- A channel that leaves self-refresh is marked as woken only where a shed stage holds it (R463). -/
theorem leftSelfRefresh_woken (c : Nat) (d : Device) :
    let e := leaveSelfRefresh c d
    let u := if d.pwr.stage ≥ 2 then onChan c (fun x => { x with wokenAt := some d.clock }) e else e
    (chanOf u c).selfRef = false ∧ (chanOf u c).wokenAt = if d.pwr.stage ≥ 2 then some d.clock else none := by
  dsimp only
  split <;> simp only [leaveSelfRefresh, chanOf_onChan_same, and_self]

theorem enterSelfRefresh_clock (c : Nat) (d : Device) : (enterSelfRefresh c d).clock = d.clock := by
  rw [(enterSelfRefresh_only c d).eq]

/-- Settles O57: each event of a channel by its own lemma, read at the channel it is for. -/
theorem dramChannelsRun : Obligations.DramChannelsRun := by
  intro s ch halive
  dsimp only
  refine ⟨fun hself => ⟨fun e q ecc hqueue hturn => ?_, fun ecc hhours hfree hqueue => ?_, fun bank high => ?_, fun drift lanes hdrift => ?_⟩,
    (exec_mapScrubComplete s).trans (run_makes (if_pos halive)), fun hself => ?_, fun t hwoken hstage => ?_⟩
  · have hchan := drainedOnce_channel hqueue
    have hserves := dramWriteDrain_serves halive hself hqueue hturn ecc
    refine ⟨drainedOnce ch.toNat s.dev, by rw [hchan], by rw [hchan], drainOne_fab .., fun hwhole => ?_, fun hpart =>
      ⟨drainOne_counts hqueue hpart, fun hclass => ?_, fun hclass => ?_, fun hclass => ?_⟩⟩
    · rw [hserves, if_pos hwhole]
    all_goals rw [hserves, if_neg hpart, hclass]
  · exact ⟨_, patrolRead_reads halive hself hhours hfree hqueue ecc, patrolled_patrol .., rfl⟩
  · obtain ⟨f, hrefresh, hhigh, howed⟩ := refresh_counts halive hself bank high
    refine ⟨_, hrefresh, ?_, ?_, settle_fab _⟩
    all_goals rw [settled, chanOf_settle, chanOf_onChan_same]; assumption
  · refine ⟨_, oscillatorCheck_retrains halive hself hdrift lanes, ?_, ?_⟩
    all_goals rw [settled, chanOf_settle, chanOf_onChan_same]
  · refine ⟨_, selfRefreshExit_leaves halive hself, ?_⟩
    rw [settled, chanOf_settle]
    exact leftSelfRefresh_woken ch.toNat s.dev
  · refine ⟨_, selfRefreshReentry_enters halive hwoken hstage, ?_, ?_⟩
    · rw [settled, chanOf_settle, enterSelfRefresh_selfRef, decide_eq_true rfl, Bool.true_or]
    · rw [settled, settle_clock, enterSelfRefresh_clock, advanceTo_clock]

end Sys2Proof.Machine
end

section
/-! PROOFS. Power, temperature, coolant and supply sag (R467, R468, R472 to R484): stages and their waits, the samples, the controller of
each power group, and the packets of 0x0Axx. -/

namespace Sys2Proof.Machine

/-! ### Supply sag (R479 to R482) -/

/-- The thresholds of R479, from the lowest up. -/
theorem stageFor_thresholds (mv : Nat) : stageFor mv =
    if mv < 34000 then 4 else if mv < 35000 then 3 else if mv < 36500 then 2 else if mv < 38000 then 1 else 0 := by
  have hrange : List.range 5 = [0, 1, 2, 3, 4] := rfl
  simp only [stageFor, hrange, List.foldl_cons, List.foldl_nil, stageBelow]
  split_ifs <;> omega

/-- Of the power part, time changes the sums of R471 only. -/
theorem advance_pwr (n : Nat) (d : Device) : (advance n d).pwr =
    { d.pwr with times := (advance n d).pwr.times, partTimes := (advance n d).pwr.partTimes } := by
  unfold advance
  dsimp only
  (repeat' split) <;> rfl

theorem advanceTo_stage (t : Nat) (d : Device) : (advanceTo t d).pwr.stage = d.pwr.stage := by
  rw [advanceTo, advance_pwr]

section
variable {s : State}

theorem vinSample_judges (halive : coreAlive s.dev = true) (mv : Nat) : exec (.vinSample mv) s = .next (settled s
    (judgeGood (takeStages (stageFor (noteVin mv s.dev).pwr.vin) (noteVin mv s.dev)))) :=
  (exec_vinSample ..).trans (run_makes (if_pos halive))

theorem shedStageLift_lifts {t : Nat} (hdue : liftDue s.dev = some t) (halive : coreAlive s.dev = true) (hstage : 1 ≤ s.dev.pwr.stage) :
    exec .shedStageLift s = .next (settled s (liftActions s.dev.pwr.stage
      (let e := advanceTo t s.dev
       setEvent evShed { e with pwr := { e.pwr with stage := e.pwr.stage - 1, goodAt := none, liftAt := some (e.clock + 2 * ms) } }))) := by
  rw [exec_shedStageLift, execShedStageLift]
  refine run_makes ?_
  simp only [hdue]
  rw [if_pos ⟨halive, hstage⟩, liftStage, advanceTo_stage]

theorem supplyReset_begins (hvin : s.dev.pwr.vin < 33000) (hsampled : s.dev.pwr.samples ≠ [])
    (hready : s.dev.pwr.stage = 4 ∨ coreAlive s.dev = false) : exec .supplyReset s =
      .next (settled s (beginReset kindSupply 0 { s.dev with boot := { s.dev.boot with frozen := none } })) := by
  have hbegins : s.dev.pwr.vin < 33000 ∧ (!s.dev.pwr.samples.isEmpty) = true ∧ (s.dev.pwr.stage = 4 ∨ (!coreAlive s.dev) = true) :=
    ⟨hvin, by simpa using hsampled, by simpa using hready⟩
  exact (exec_supplyReset s).trans (run_makes (if_pos hbegins))

end

/-! ### Temperature (R475, R476) -/

/-- THERMAL comes at 95 °C and stays above 92 °C; nothing else of the power part follows from a sample's judgement. -/
theorem judgeThermal_pwr (d : Device) : (judgeThermal d).pwr =
    { d.pwr with thermal := if d.pwr.thermal then decide (92 < tjMax d) else decide (95 ≤ tjMax d) } := by
  have hset {x y : Bool} (h : x = y) : ({ d.pwr with thermal := x } : PowerPart) = { d.pwr with thermal := y } := by rw [h]
  unfold judgeThermal
  dsimp only
  split
  · next hcomes =>
    obtain ⟨hoff, hhot⟩ := hcomes
    rw [latchBead_pwr, ledgerThermal, ledgerEvent_pwr]
    exact hset (by simp_all)
  · next hstays =>
    split
    · next hleaves =>
      obtain ⟨hon, hcool⟩ := hleaves
      rw [ledgerThermal, ledgerEvent_pwr]
      exact hset (by simp [hon, hcool])
    · next hkeeps => exact hset (x := d.pwr.thermal) (by cases hthermal : d.pwr.thermal <;> simp_all)

theorem judgeThermal_boot (d : Device) : (judgeThermal d).boot = d.boot := by
  unfold judgeThermal
  dsimp only
  split
  · rw [latchBead_boot, ledgerThermal, ledgerEvent_boot]
  · split
    · rw [ledgerThermal, ledgerEvent_boot]
    · rfl

theorem judgeThermal_tjMax (d : Device) : tjMax (judgeThermal d) = tjMax d := by
  rw [tjMax, judgeThermal_pwr]
  rfl

/-- The device once its sensors have been read. -/
abbrev withTemps (temps : List Int) (d : Device) : Device := { d with pwr := { d.pwr with temps := temps } }

theorem withTemps_runs {d : Device} (halive : coreAlive d = true) (temps : List Int) : ¬(!coreAlive (withTemps temps d)) = true := by
  rw [Bool.not_eq_true', Bool.not_eq_false]
  exact halive

section
variable {s : State} {temps : List Int} (halive : coreAlive s.dev = true)
include halive

/-- A start-up that waits for its sensors goes on once the junction is at 85 °C or below (R516). -/
theorem thermalSample_releases (hfault : s.dev.boot.phase = .fault) (hcode : s.dev.boot.faultCode = 5)
    (hcool : tjMax (withTemps temps s.dev) ≤ 85) : exec (.thermalSample temps) s =
      .next (settled s (thermalRelease (judgeThermal (withTemps temps s.dev)))) := by
  have hphase : (judgeThermal (withTemps temps s.dev)).boot.phase = .fault := by rw [judgeThermal_boot]; exact hfault
  refine (exec_thermalSample ..).trans (run_makes ((if_neg (withTemps_runs halive temps)).trans ((if_pos hphase).trans (if_pos ⟨?_, ?_⟩))))
  · rw [judgeThermal_boot]
    exact hcode
  · rw [judgeThermal_tjMax]
    exact hcool

/-- In every other phase the samples at 105 °C or more are counted, and the second in a row trips (R476). -/
theorem thermalSample_counts (hphase : s.dev.boot.phase ≠ .fault) : exec (.thermalSample temps) s = .next (settled s
    (let e := judgeThermal (withTemps temps s.dev)
     let n := if tjMax (withTemps temps s.dev) ≥ 105 then s.dev.pwr.trips + 1 else 0
     let e := { e with pwr := { e.pwr with trips := n } }
     if n ≥ 2 then thermalTrip e else e)) := by
  have hother : ¬(judgeThermal (withTemps temps s.dev)).boot.phase = .fault := by rw [judgeThermal_boot]; exact hphase
  have htrips : (judgeThermal (withTemps temps s.dev)).pwr.trips = s.dev.pwr.trips := by rw [judgeThermal_pwr]
  refine (exec_thermalSample ..).trans (run_makes ((if_neg (withTemps_runs halive temps)).trans ((if_neg hother).trans ?_)))
  dsimp only
  rw [judgeThermal_tjMax, htrips]

end

/-! ### Coolant (R477, R478) -/

/-- The device with the readings of a coolant sample, and since when each condition of R477 has held. -/
def coolantRead (inlet outlet : Int) (flow : Nat) (d : Device) : Device :=
  let good := decide (flow ≥ 1500) && decide (-25 ≤ inlet) && decide (inlet ≤ 55)
  let dry := decide (flow < 300)
  { d with pwr := { d.pwr with
      inlet := inlet, outlet := outlet, flow := flow
      badAt := since d.clock (!good) d.pwr.badAt, rangeAt := since d.clock good d.pwr.rangeAt
      dryAt := since d.clock dry d.pwr.dryAt, flowAt := since d.clock (!dry) d.pwr.flowAt } }

theorem coolantSample_judges {s : State} (halive : coreAlive s.dev = true) (inlet outlet : Int) (flow : Nat) :
    exec (.coolantSample inlet outlet flow) s = .next (settled s
      (let e := coolantRead inlet outlet flow s.dev
       if coolantNext s.dev.clock e.pwr ≠ s.dev.pwr.coolant then enterCoolant (coolantNext s.dev.clock e.pwr) e else e)) := by
  refine (exec_coolantSample ..).trans (run_makes ?_)
  refine if_congr ?_ rfl rfl
  exact and_iff_right halive

/-! ### The cap controller and the groups (R472, R474) -/

/-- Of a rising run of numbers, the fold that keeps each that passes ends with the largest, or with its start where none passes. -/
theorem foldl_range_largest (ok : Nat → Prop) [DecidablePred ok] (start n : Nat) :
    let k := (List.range n).foldl (fun best k => if ok k then k else best) start
    (k = start ∧ ∀ j < n, ¬ok j) ∨ (ok k ∧ k < n ∧ ∀ j < n, ok j → j ≤ k) := by
  induction n with
  | zero => exact .inl ⟨rfl, nofun⟩
  | succ n ih =>
    rw [List.range_succ, List.foldl_append, List.foldl_cons, List.foldl_nil]
    dsimp only at ih ⊢
    by_cases hlast : ok n
    · rw [if_pos hlast]
      exact .inr ⟨hlast, Nat.lt_succ_self n, fun j hj _ => Nat.le_of_lt_succ hj⟩
    · rw [if_neg hlast]
      rcases ih with ⟨hstart, hnone⟩ | ⟨hok, hlt, hmost⟩
      · refine .inl ⟨hstart, fun j hj => ?_⟩
        rcases Nat.lt_succ_iff_lt_or_eq.mp hj with hbelow | rfl
        · exact hnone j hbelow
        · exact hlast
      · refine .inr ⟨hok, Nat.lt_succ_of_lt hlt, fun j hj hokj => ?_⟩
        rcases Nat.lt_succ_iff_lt_or_eq.mp hj with hbelow | rfl
        · exact hmost j hbelow hokj
        · exact absurd hokj hlast

/-- The k that step 5 of R472 keeps is the largest of 1 to 64 within the budget, or 1. -/
theorem capKeep_largest (d : Device) (g : Nat) (q : Partition) (idle : Nat) : let k := capKeep d g q idle
    let fits := fun k => withinBudget d q (activeDraw d g q * k + 64 * idle) 64 1
    1 ≤ k ∧ k ≤ 64 ∧ (fits k = true ∨ k = 1) ∧ ∀ j, 1 ≤ j → j ≤ 64 → fits j = true → j ≤ k := by
  rcases foldl_range_largest (fun k => k ≥ 1 ∧ withinBudget d q (activeDraw d g q * k + 64 * idle) 64 1 = true) 1 65 with
    ⟨hstart, hnone⟩ | ⟨⟨hpos, hfits⟩, hlt, hmost⟩
  · have hone : capKeep d g q idle = 1 := hstart
    dsimp only
    rw [hone]
    exact ⟨le_rfl, by decide, .inr rfl, fun j hpos hle hfits => absurd ⟨hpos, hfits⟩ (hnone j (Nat.lt_succ_of_le hle))⟩
  · exact ⟨hpos, Nat.le_of_lt_succ hlt, .inl hfits, fun j hpos hle hfits => hmost j (Nat.lt_succ_of_le hle) ⟨hpos, hfits⟩⟩

section
variable {s : State} (halive : coreAlive s.dev = true)
include halive

section
variable {t : Byte} {q : Partition} (hpart : partOf s.dev t.toNat = some q)
include hpart

theorem capRecompute_steps (idle measured : Nat) : exec (.capRecompute t idle measured) s =
    .next (settled s (capStep (groupOf t.toNat q) q idle measured s.dev)) := by
  rw [exec_capRecompute, execCapRecompute]
  refine run_makes ?_
  simp only [hpart]
  exact if_pos halive

theorem currentLimitCheck_limits (amps : Nat) : exec (.currentLimitCheck t amps) s = .next (settled s (onGroup (groupOf t.toNat q) (fun x =>
    { x with current := if overCurrent s.dev q amps then max 1 (x.current - 8) else min 64 (x.current + 1) }) s.dev)) := by
  rw [exec_currentLimitCheck, execCurrentLimitCheck]
  refine run_makes ?_
  simp only [hpart]
  exact if_pos halive

end

/-- The profile of the phase that a tile is in moves an eighth of the way to its power at k = 64; an idle tile teaches nothing. -/
theorem profileUpdate_learns {t : Tile} {n : Nat} {q : Partition} (hheld : holderOf s.dev t.toNat = some (n, q)) (mw : Nat) :
    exec (.profileUpdate t mw) s = .next (settled s
      (let g := groupOf n q; let e := learn (profileOf s.dev g (tilePhase s.dev t.toNat)) (mw * 64 / groupK s.dev g)
       match tilePhase s.dev t.toNat with
       | .idle => s.dev
       | .attention => onGroup g (fun y => { y with attention := some e }) s.dev
       | .prefill => onGroup g (fun y => { y with prefill := some e }) s.dev
       | .decode => onGroup g (fun y => { y with decode := some e }) s.dev)) := by
  have hlive : ¬(!coreAlive s.dev) = true := by rw [halive]; decide
  rw [exec_profileUpdate, execProfileUpdate]
  refine run_makes ?_
  simp only [hheld]
  exact if_neg hlive

end

/-! ### Opcodes (R484) -/

section
variable {s : State} {r : Ref} {p : Packet} {b : List Byte} {c : Option Nat}

theorem pwrQuery_reports {x : Partition} (hadmit : Admits { opcode := 0x0A00, size := some 0, part := true } r p b c s.dev)
    (hpart : partOf (admitted p b c s.dev) p.hdr.tenant.toNat = some x) : exec (.pwrQuery r) s = .next (settled s
      (let d := admitted p b c s.dev
       finish (begun p b) stOK (queryBytes p.hdr.tenant.toNat x d) (if x.sealed then spend 4 d else d))) := by
  rw [exec_pwrQuery, execPwrQuery, run_admits hadmit]
  have hbegun : partOf (admitted p b c s.dev) (begun p b).hdr.tenant.toNat = some x := hpart
  simp only [hbegun]
  rfl

theorem pwrSetCap_sets (hadmit : Admits { opcode := 0x0A01, size := some 4, dev := true, roles := byInstaller, reserved := [(2, 2)] } r p b c s.dev)
    (hleast : 130 ≤ field b 0 2) (hmost : field b 0 2 ≤ 300) (hroom : ledgerRoom (admitted p b c s.dev) = none) :
    exec (.pwrSetCap r) s = .next (settled s
      (let d := admitted p b c s.dev
       complete (begun p b) (ledgerConfig (begun p b) { d with pwr := { d.pwr with cap := BitVec.ofNat 9 (field b 0 2) } }))) := by
  have hrange : ¬(field b 0 2 < 130 ∨ field b 0 2 > 300) := by omega
  rw [exec_pwrSetCap, execPwrSetCap, run_admits hadmit]
  dsimp only
  rw [if_neg hrange, privileged_room hroom]

section
variable (hadmit : Admits { opcode := 0x0A02, size := some 4, dev := true, roles := byInstaller, reserved := [(1, 3)] } r p b c s.dev)
  (hroom : ledgerRoom (admitted p b c s.dev) = none)
include hadmit hroom

theorem pwrProfileReset_all (hall : field b 0 1 = 0) : exec (.pwrProfileReset r) s = .next (settled s
    (let d := admitted p b c s.dev
     complete (begun p b) (ledgerConfig (begun p b) ((groupsHeld d).foldl (fun d g => resetProfile g d) d)))) := by
  rw [exec_pwrProfileReset, execPwrProfileReset, run_admits hadmit]
  dsimp only
  rw [if_pos hall, privileged_room hroom]

theorem pwrProfileReset_one {x : Partition} (hone : field b 0 1 ≠ 0) (hpart : partOf (admitted p b c s.dev) (field b 0 1) = some x) :
    exec (.pwrProfileReset r) s = .next (settled s (complete (begun p b) (ledgerConfig (begun p b)
      (resetProfile (groupOf (field b 0 1) x) (admitted p b c s.dev))))) := by
  rw [exec_pwrProfileReset, execPwrProfileReset, run_admits hadmit]
  dsimp only
  rw [if_neg hone, hpart]
  dsimp only
  rw [privileged_room hroom, List.foldl_cons, List.foldl_nil]

end

end

/-- Settles O58: thresholds, samples, the controller and the packets, each by its own lemma. -/
theorem powerFollowsItsSamples : Obligations.PowerFollowsItsSamples := by
  refine ⟨stageFor_thresholds, fun s => ⟨fun mv => ⟨rfl, fun halive => vinSample_judges halive mv⟩,
    fun t => shedStageLift_lifts, supplyReset_begins, fun temps halive => ⟨thermalSample_releases halive, thermalSample_counts halive, ?_⟩,
    fun inlet outlet flow halive => ⟨coolantRead inlet outlet flow s.dev, rfl, rfl, rfl, rfl, rfl, coolantSample_judges halive ..⟩,
    fun t q halive hpart => ⟨capRecompute_steps halive hpart, currentLimitCheck_limits halive hpart⟩,
    fun t mw n q halive hheld => profileUpdate_learns halive hheld mw, fun halive => ?_⟩, capKeep_largest,
    fun s r p b c => ⟨fun x => pwrQuery_reports, pwrSetCap_sets, fun hadmit hroom =>
      ⟨pwrProfileReset_all hadmit hroom, fun x => pwrProfileReset_one hadmit hroom⟩⟩⟩
  · rw [judgeThermal_pwr]
  · refine ⟨_, (exec_vcoreUpdate s).trans (run_makes (if_pos halive)), ?_⟩
    exact settle_pwr (·.vcore) (fun _ _ _ => rfl) _

end Sys2Proof.Machine
end

section
/-! PROOFS. Audit records, twin mode, the freeze and the test port (R491 to R507). -/

namespace Sys2Proof.Machine

/-! ### Packets that name a job (R491, R494, R495) -/

theorem withJob_open {p : Packet} {d : Device} {j : Job} (hjob : jobOf d p.hdr.tenant p.hdr.job = some j) (hopen : j.closing = false)
    (f : Job → Device) : withJob p d f = f j := by
  simp only [withJob, hjob, hopen, Bool.false_eq_true, if_false]

section
variable {p : Packet} {b : List Byte} {d : Device} {j : Job} (hjob : jobOf d p.hdr.tenant p.hdr.job = some j) (hopen : j.closing = false)
include hjob hopen

theorem auditJobCfg_off (hoff : bitOf (field b 12 1) 0 = false) :
    auditJobCfg p b d = complete p (onJob p.hdr.tenant p.hdr.job (fun j => { j with audit := none }) d) := by
  simp only [auditJobCfg, hoff, withJob_open hjob hopen, Bool.false_and, Bool.false_eq_true, if_false]

theorem auditJobCfg_on (hon : bitOf (field b 12 1) 0 = true) (hleast : 1 ≤ field b 8 4) (hmost : field b 8 4 ≤ 65536)
    (hrange : rangeError d p.hdr.tenant.toNat (word32 b 0) (word32 b 4).toNat (128 * field b 8 4) = none) :
    auditJobCfg p b d = complete p (onJob p.hdr.tenant p.hdr.job
      (fun j => { j with audit := some { handle := word32 b 0, off := word32 b 4, cap := field b 8 4 } }) d) := by
  have hsome : decide (field b 8 4 = 0) = false := decide_eq_false (by omega)
  have hfits : decide (field b 8 4 > 65536) = false := decide_eq_false (by omega)
  have hnone : ((none : Option W16) == some stBadArgument) = false := rfl
  simp only [auditJobCfg, hon, hrange, hsome, hfits, hnone, withJob_open hjob hopen, Bool.or_self, Bool.and_false, Option.isSome_none,
    Bool.false_eq_true, if_false, if_true]

/-- A request to pair goes to the partner, and is judged at once where the partner's is there already. -/
theorem auditTwinPair_requests (hfresh : p.held = false) (htwin : twinUp d = true) (hsingle : j.twin = .none) : auditTwinPair p b d =
    (let t := p.hdr.tenant; let jid := p.hdr.job
     let e := onJob t jid (fun j => { j with twin := .requested, twinJob := word32 b 0, pairer := some (refOf p), pairAt := d.clock })
       (sendTwin (.pair t jid (word32 b 0) (jobDigests d j) (jobSettings j) (hasRun j)) d)
     match offerFor e t jid (word32 b 0) with | some o => judgePair p j o e | none => hold p e) := by
  have hnew : ¬p.held = true := by rw [hfresh]; exact Bool.false_ne_true
  have hup : ¬(!twinUp d) = true := by rw [htwin]; decide
  exact (if_neg hnew).trans ((withJob_open hjob hopen _).trans ((if_neg hup).trans (if_neg (not_not.mpr hsingle))))

end

/-! ### Attestation and the pattern test (R493, R507) -/

theorem auditAttest_signs {p : Packet} {b : List Byte} {d : Device} (hleast : 1 ≤ field b 32 4) (hmost : field b 32 4 ≤ 16)
    (hzero : (b.drop (40 + 32 * field b 32 4)).all (· == 0) = true) :
    auditAttest p b d = finish p stOK (padTo 120 (edSign Config.identityKey (attestMessage d p.hdr.tenant b))) d := by
  have hcount : ¬(field b 32 4 = 0 ∨ field b 32 4 > 16 ∨ (!(b.drop (40 + 32 * field b 32 4)).all (· == 0)) = true) := by
    rw [hzero, Bool.not_true]
    simp only [Bool.false_eq_true, or_false]
    omega
  exact if_neg hcount

section
variable {p : Packet} {b : List Byte} {d : Device} (htile : field b 0 1 < tileCount d) (hstage : d.pwr.stage < 2)
  (hroom : ledgerRoom d = none) (hfree : tileHeld d (field b 0 1) = false) (hopen : d.fix.mask.getLsbD (field b 0 1) = false)
include htile hstage hroom hfree hopen

theorem diagTest_fails (unit : Byte) (index : W16) (cycles : W32) : diagTest (some (unit, index)) cycles p b d =
    finish p stTestFail ([unit, 0] ++ leBytes 2 index.toNat ++ leBytes 4 cycles.toNat) d := by
  simp only [diagTest, if_neg (Nat.not_le.mpr htile), if_neg (Nat.not_le.mpr hstage), privileged_room hroom, hfree, hopen, Bool.or_self,
    Option.isNone_some, Bool.false_eq_true, if_false]

theorem diagTest_passes (cycles : W32) : diagTest none cycles p b d =
    finish p stOK ([0xFF, 0] ++ leBytes 2 0 ++ leBytes 4 cycles.toNat) (ledgerConfig p d) := by
  simp only [diagTest, if_neg (Nat.not_le.mpr htile), if_neg (Nat.not_le.mpr hstage), privileged_room hroom, hfree, hopen, Bool.or_self,
    Option.isNone_none, Bool.false_eq_true, if_false, if_true]
  rfl

end

/-! ### Commands of the packets -/

section
variable {s : State} {r : Ref} {p : Packet} {b : List Byte} {c : Option Nat}

theorem exec_auditJobCfg_admits (hadmit : Admits
      { opcode := 0x0B00, size := some 16, part := true, reserved := [(13, 3)], bits := [(12, 0xFE)] } r p b c s.dev) :
    exec (.auditJobCfg r) s = .next (settled s (auditJobCfg (begun p b) b (admitted p b c s.dev))) := by
  rw [exec_auditJobCfg, execAuditJobCfg, run_admits hadmit]

theorem exec_auditTwinPair_admits (hadmit : Admits { opcode := 0x0B02, size := some 8, part := true, reserved := [(4, 4)] } r p b c s.dev) :
    exec (.auditTwinPair r) s = .next (settled s (auditTwinPair (begun p b) b (admitted p b c s.dev))) := by
  rw [exec_auditTwinPair, execAuditTwinPair, run_admits hadmit]

theorem exec_diagTileTest_admits (hadmit : Admits
      { opcode := 0x0B10, size := some 4, dev := true, roles := byEither, reserved := [(1, 3)] } r p b c s.dev) (fail : Option (Byte × W16)) (cyc : W32) :
    exec (.diagTileTest r fail cyc) s = .next (settled s (diagTest fail cyc (begun p b) b (admitted p b c s.dev))) := by
  rw [exec_diagTileTest, execDiagTileTest, run_admits hadmit]

theorem auditTwinQuery_reports {j : Job} (hadmit : Admits { opcode := 0x0B03, size := some 0, part := true } r p b c s.dev)
    (hjob : jobOf (admitted p b c s.dev) p.hdr.tenant p.hdr.job = some j) (hopen : j.closing = false) :
    exec (.auditTwinQuery r) s = .next (settled s (finish (begun p b) stOK (twinQueryBytes j) (admitted p b c s.dev))) := by
  rw [exec_auditTwinQuery, execAuditTwinQuery, run_admits hadmit, withJob_open (p := begun p b) hjob hopen]

/-- A request that the partner has not answered within 1 s is refused, and its job is single again (R495). -/
theorem twinPairTimeout_refuses {x : Packet} {j : Job} (hfind : findPacket s.dev r = some x) (hready : isReady s.dev = true)
    (hheld : x.held = true) (hopcode : x.hdr.opcode = 0x0B02) (hjob : jobOf s.dev x.hdr.tenant x.hdr.job = some j) :
    exec (.twinPairTimeout r) s = .next (settled s (refuse x stTwinMismatch
      (onJob x.hdr.tenant x.hdr.job (fun j => { j with twin := .none, pairer := none }) (advanceTo (j.pairAt + 1000000000) s.dev)))) := by
  have hwaits : ¬(!isReady s.dev || !x.held || x.hdr.opcode != 0x0B02) = true := by
    rw [hready, hheld, hopcode]
    decide
  rw [exec_twinPairTimeout, execTwinPairTimeout]
  refine run_makes ?_
  simp only [hfind, hjob]
  exact if_neg hwaits

end

/-! ### Messages of the twin port (R352, R494 to R499) -/

section
variable {s : State} {kind : Nat} {alive : Device → Bool} {fits : List Byte → Bool} (halive : alive s.dev = true)
  (htwin : twinUp s.dev = true)
include halive htwin

/-- Without a message that passed the checks of R352, a command of the twin port does nothing. -/
theorem onTwin_untaken (h : takeMsg true kind none fits s.dev = none) (f : Device → Device) :
    onTwin kind alive fits f s = .next (settled s s.dev) := by
  rw [onTwin, run_settled, halive, htwin, h]
  rfl

theorem onTwin_taken {d : Device} (h : takeMsg true kind none fits s.dev = some d) (f : Device → Device) :
    onTwin kind alive fits f s = .next (settled s (f d)) := by
  rw [onTwin, run_settled, halive, htwin, h]
  rfl

end

section
variable {s : State} (hready : isReady s.dev = true) (htwin : twinUp s.dev = true)
include hready htwin

theorem twinCtrl_admission {d : Device} (hgot : takeMsg true 0 none (fun _ => true) s.dev = some d) {t : Byte} {job jid : W32} {j : Job}
    (hpair : twinOf d t job = some (jid, j)) (tag : W16) (dg : List Byte) :
    exec (.twinCtrl (.admission t job tag dg)) s = .next (settled s (takeAdmit t jid tag dg d)) := by
  refine (exec_twinCtrl ..).trans ((onTwin_taken hready htwin hgot _).trans ?_)
  simp only [hpair]

section
variable {t : Byte} {job jid : W32} {j : Job} {d : Device}

section
variable (hgot : takeMsg true 1 none (twinFits t job) s.dev = some d) (hpair : twinOf d t job = some (jid, j))
include hgot hpair

/-- The follower keeps the composition that the leader sends (R496). -/
theorem twinStep_follows (hfollow : j.leader = false) (seqs : List W16) (dStep : W64) (parked : List W16) :
    exec (.twinStep t job seqs dStep parked) s =
      .next (settled s (onJob t jid (fun j => { j with leadRows := some (seqs, dStep, parked) }) d)) := by
  refine (exec_twinStep ..).trans ((onTwin_taken hready htwin hgot _).trans ?_)
  simp only [hpair, hfollow, Bool.not_false, if_true]

/-- The leader's step that waits goes on without the sequences that the follower has parked (R496). -/
theorem twinStep_leads (hlead : j.leader = true) (seqs : List W16) (dStep : W64) (parked : List W16) :
    exec (.twinStep t job seqs dStep parked) s = .next (settled s
      (let keep (st : StepRun) := stepOver d j (st.rows.filter fun y => !parked.contains y.ref.tag) { st with awaitTwin := false }
       stepCheck t jid (onJob t jid (fun x => { x with step := x.step.map fun st => if st.awaitTwin then keep st else st }) d))) := by
  refine (exec_twinStep ..).trans ((onTwin_taken hready htwin hgot _).trans ?_)
  simp only [hpair, hlead, Bool.not_true, Bool.false_eq_true, if_false]

end

theorem twinDigest_compares (hgot : takeMsg true 2 none (twinFits t job) s.dev = some d) (hpair : twinOf d t job = some (jid, j))
    (ds : List (Nat × List Byte)) : exec (.twinDigest t job ds) s =
      .next (settled s (twinCompare t jid (onJob t jid (fun j => { j with theirs := j.theirs ++ [ds] }) d))) := by
  refine (exec_twinDigest ..).trans ((onTwin_taken hready htwin hgot _).trans ?_)
  simp only [hpair]

end

/-! ### Runs of the Fixed plane, compared (R499) -/

section
variable {seq : W32} {d : Device} (hgot : takeMsg true 3 none (fun _ => true) s.dev = some d) (hcompare : d.audit.fixCompare = true)
include hgot hcompare

theorem twinFix_compares {x : TwinRun} (hmine : (d.audit.myRuns.find? fun x => x.seq == seq) = some x) (dg : List Byte) :
    exec (.twinFix seq dg) s = .next (settled s
      (fixCompare seq x.digest dg { d with audit := { d.audit with myRuns := d.audit.myRuns.filter fun x => x.seq != seq } })) := by
  refine (exec_twinFix ..).trans ((onTwin_taken (coreAlive_of_ready hready) htwin hgot _).trans ?_)
  simp only [hcompare, hmine, Bool.not_true, Bool.false_eq_true, if_false]

/-- A report that no run of this module matches is kept, and those older than its span are dropped. -/
theorem twinFix_keeps (hmine : (d.audit.myRuns.find? fun x => x.seq == seq) = none) (dg : List Byte) :
    exec (.twinFix seq dg) s = .next (settled s { d with audit := { d.audit with
      theirRuns := (d.audit.theirRuns.filter fun x => decide (d.clock ≤ x.at_ + fixSpan)) ++ [{ seq := seq, digest := dg, at_ := d.clock }] } }) := by
  refine (exec_twinFix ..).trans ((onTwin_taken (coreAlive_of_ready hready) htwin hgot _).trans ?_)
  simp only [hcompare, hmine, Bool.not_true, Bool.false_eq_true, if_false]

end

end

theorem twinFixUnmatched_counts {s : State} {seq : W32} {x : TwinRun} (halive : coreAlive s.dev = true)
    (hmine : (s.dev.audit.myRuns.find? fun x => x.seq == seq) = some x) : exec (.twinFixUnmatched seq) s = .next (settled s
      (let e := advanceTo (x.at_ + fixSpan) s.dev
       { e with audit := { e.audit with
           myRuns := e.audit.myRuns.filter fun x => x.seq != seq, unmatched := e.audit.unmatched + 1 } })) := by
  have hruns : ¬(!coreAlive s.dev) = true := by rw [halive]; decide
  rw [exec_twinFixUnmatched, execTwinFixUnmatched]
  refine run_makes ?_
  simp only [hmine]
  exact if_neg hruns

/-! ### The freeze (R501, R502) -/

theorem isFrozen_settle (d : Device) : isFrozen (settle d) = isFrozen d := by rw [isFrozen, settle_boot, isFrozen]

theorem freeze_enters {s : State} (hrun : isFrozen s.dev = false) : exec .freeze s = .next (settled s (enterFreeze s.dev)) := by
  refine (exec_freeze s).trans (run_makes (if_neg ?_))
  rw [hrun]
  exact Bool.false_ne_true

/-! ### The test port (R503 to R506) -/

theorem settled_boot (s : State) (d : Device) : (settled s d).dev.boot = d.boot := settle_boot d

/-- The region is the high byte of what RO_ADDR shifts in. -/
theorem roRegion_toNat (v : W64) : (BitVec.ofNat 8 (bitsOf v.toNat 56 8)).toNat = v.toNat / 2 ^ 56 := by
  have hword := v.isLt
  rw [BitVec.toNat_ofNat, bitsOf]
  omega

theorem roAddress (v : W64) : bitsOf v.toNat 0 44 / 8 * 8 = v.toNat % 2 ^ 44 / 8 * 8 := by rw [bitsOf, pow_zero, Nat.div_one]

/-- Where R506 allows no read-out, RO_DATA shifts out zeros and wakes no channel. -/
theorem readOut_refused {d : Device} (hclosed : (if tenantClass d d.boot.roReg.toNat d.boot.roAddr then tenantOpen d else deviceOpen d) = false) :
    (readOut d).boot.tdo = zeros 8 ∧ (readOut d).dram = d.dram := by
  simp only [readOut, hclosed, Bool.false_eq_true, if_false, and_self]

/-- Settles O59: the packets by their bodies, the twin port's commands by the message that each takes up, and the freeze and the test
port by what they leave of the boot part. -/
theorem auditTwinAndTestPort : Obligations.AuditTwinAndTestPort := by
  refine ⟨fun s r p b c => ⟨fun j hjob hopen => ⟨fun hadmit => ⟨fun hoff => ?_, fun hon hleast hmost hrange => ?_⟩,
      fun hadmit htwin hsingle => ?_, fun hadmit => auditTwinQuery_reports hadmit hjob hopen⟩, fun hadmit hleast hmost hzero => ?_,
      fun fail cyc hadmit htile hstage hroom hfree hopen => ?_, fun x j => twinPairTimeout_refuses⟩,
    fun s hready htwin => ⟨fun hnone c => ?_, fun d hgot => ⟨fun t job mine ds xs st => ?_, fun t job jid j tag dg hpair => ?_⟩,
      fun t job hnone seqs dStep parked => ?_, fun t job jid j d hgot hpair => ⟨fun seqs dStep parked hfollow => ?_,
      fun seqs dStep parked hlead => ?_⟩, fun t job jid j d ds hgot hpair => twinDigest_compares hready htwin hgot hpair ds,
      fun seq dg d hgot hcompare => ⟨fun x hmine => twinFix_compares hready htwin hgot hcompare hmine dg, fun hmine => ?_⟩,
      fun seq x hmine => ?_⟩,
    fun s => ⟨fun hrun => ?_, fun hfrozen env => (exec_freezeRelease ..).trans (run_makes (if_pos hfrozen)), exec_testLogicReset s, ?_,
      exec_samplePreload s, exec_bypass s, exec_extest s, fun v => ?_, ?_, ?_⟩⟩
  · rw [exec_auditJobCfg_admits hadmit, auditJobCfg_off (p := begun p b) hjob hopen hoff]
    rfl
  · rw [exec_auditJobCfg_admits hadmit, auditJobCfg_on (p := begun p b) hjob hopen hon hleast hmost hrange]
    rfl
  · rw [exec_auditTwinPair_admits hadmit, auditTwinPair_requests (p := begun p b) hjob hopen hadmit.fresh htwin hsingle]
    rfl
  · rw [exec_auditAttest, execAuditAttest, run_admits hadmit, auditAttest_signs (p := begun p b) hleast hmost hzero]
    rfl
  · refine (exec_diagTileTest_admits hadmit fail cyc).trans ?_
    cases fail with
    | none => exact congrArg (fun e => Host.Outcome.next (settled s e)) (diagTest_passes htile hstage hroom hfree hopen cyc)
    | some x => exact congrArg (fun e => Host.Outcome.next (settled s e)) (diagTest_fails htile hstage hroom hfree hopen x.1 x.2 cyc)
  · exact (exec_twinCtrl ..).trans (onTwin_untaken hready htwin hnone _)
  · exact (exec_twinCtrl ..).trans (onTwin_taken hready htwin hgot _)
  · exact twinCtrl_admission hready htwin hgot hpair tag dg
  · exact (exec_twinStep ..).trans (onTwin_untaken hready htwin hnone _)
  · exact twinStep_follows hready htwin hgot hpair hfollow seqs dStep parked
  · exact twinStep_leads hready htwin hgot hpair hlead seqs dStep parked
  · refine ⟨_, twinFix_keeps hready htwin hgot hcompare hmine dg, ?_, ?_⟩
    · rw [settled, settle_audit, List.getLast?_concat]
    · rw [settled, settle_audit]
  · refine ⟨_, twinFixUnmatched_counts (coreAlive_of_ready hready) hmine, ?_, ?_, ?_⟩
    · simp only [settled, settle_audit, advanceTo_audit]
    · simp only [settled, settle_clock, advanceTo_clock]
    · simp only [settled, settle_audit, advanceTo_audit]
  · obtain ⟨hfrozen, hrdy, hbusy, htiles, hfab⟩ := enterFreeze_facts s.dev
    refine ⟨_, freeze_enters hrun, ?_, ?_, ?_, ?_, ?_⟩
    · rw [settled, isFrozen_settle, hfrozen]
    · rw [settled, settle_fix, hrdy]
    · rw [settled_boot, hbusy]
    · rw [settled, settle_tiles, htiles]
    · rw [settled, settle_fab, hfab]
  · refine ⟨_, (exec_idcode s).trans (run_settled ..), ?_⟩
    rw [settled_boot]
    exact ⟨rfl, rfl⟩
  · refine ⟨_, (exec_roAddr v s).trans (run_settled ..), ?_⟩
    rw [settled_boot]
    exact ⟨rfl, roRegion_toNat v, roAddress v, rfl⟩
  · refine ⟨_, (exec_roData s).trans (run_settled ..), ?_⟩
    obtain ⟨htap, haddr⟩ := readOut_tap { s.dev with boot := { s.dev.boot with tap := .roData } }
    rw [settled_boot]
    refine ⟨htap, haddr, fun hclosed => ?_⟩
    rw [settled, settle_dram]
    exact readOut_refused hclosed
  · refine ⟨_, (exec_roStatus s).trans (run_settled ..), ?_⟩
    rw [settled_boot]
    exact ⟨rfl, rfl⟩

end Sys2Proof.Machine
end
